-- ==== Sys2Proof/Word.lean ====
section
/-! DEFINITION. The word types of the D9 (spec/00_scope.md R4, R6; spec/03_encoding.md R57). -/

namespace Sys2Proof

/-- One byte of memory. -/
abbrev Byte := BitVec 8

/-- A 64-bit register value. -/
abbrev Word := BitVec 64

/-- A 64-byte line, or a v register: byte j is bits 8j+7 to 8j (R4, R119). -/
abbrev Line := BitVec 512

/-- One bit for each byte of a line. -/
abbrev ByteMask := BitVec 64

end Sys2Proof
end

