-- ==== Sys2Proof/Config.lean ====
section
/-! DEFINITION. The free values: what the specification leaves open. Every constant here is opaque: nothing can be proved
about its value, so a claim holds whatever it is. -/

namespace Sys2Proof.Config

open Sys2Proof

/-- Data that a PCIe device or a Perold peer returns for the n-th free read (spec/23_host.md R348, R359 give no contents):
log entry 7. -/
opaque freeByte : Nat → Byte

/-- What the header of an image says (spec/23_host.md R360): the image it describes, its security version, whether port 0 is an
endpoint (R362), the public keys and the signatures. The ECDSA key and signature are x, y and r, s, 48 bytes each, most significant
first; the LMS key and signature have the formats of RFC 8554 (log entry 9). -/
structure ImageHeader where
  body : List Byte
  svn : BitVec 16
  endpoint : Bool
  ecdsaKey : List Byte
  ecdsaSig : List Byte
  lmsKey : List Byte
  lmsSig : List Byte
  deriving DecidableEq, Repr

/-- The header of what flash holds; `none` where it is not well formed (spec/23_host.md R360 does not give its layout): log entry
9. -/
opaque header : List Byte → Option ImageHeader

/-- The 48-bit keys that the launch engine chooses for capability-table entries (spec/15_matrix.md R252: "chosen by the
launch engine"), from the n-th choice on: log entry 10. -/
opaque freeKey : Nat → BitVec 48

/-- Which half of a channel (pseudo-channel) holds the n-th line of the channel (spec/13_traps.md R235 does not say): log
entry 13. -/
opaque halfOf : Nat → Bool

/-- Which line a full cache gives up, by a draw (spec/09_memory_offers.md R151 names evictions and no replacement policy): log
entry 42. -/
opaque victim : Nat → Nat

/-- Where the slab image of a tile lies that `mrest` restores from a save area which its unit has not written, in units of 64 bytes
(spec/15_matrix.md R266 gives the area no field for it): log entry 45. -/
opaque slabImage : Nat → BitVec 13

end Sys2Proof.Config
end

