-- ==== Sys2Proof/Machine/Crypto.lean ====
section
/-! DEFINITION. The ciphers and signatures that the specification names: AES-XTS-256 over a 64-byte line (spec/23_host.md R351), and
SHA-384, ECDSA on P-384 and LMS_SHA256_M32_H15 with LMOTS_SHA256_N32_W4 (spec/23_host.md R360). FIPS 197, IEEE 1619, FIPS 180-4,
FIPS 186-5 and RFC 8554 define them. -/

namespace Sys2Proof.Machine

open Sys2Proof

/-! ### AES-256 (FIPS 197): byte i of a block is its bits 8i+7 to 8i -/

def byteNo (x i : Nat) : Nat := x >>> (8 * i) % 256

/-- The number whose byte i is f i. -/
def packBytes (n : Nat) (f : Nat → Nat) : Nat := (List.range n).foldl (fun acc i => acc + f i <<< (8 * i)) 0

/-- The S-box: byte a is the value at a. -/
def aesTable : Nat :=
  0x75B227EBE28012079A059618C323C7041531D871F1E5A534CCF73F362693FDB7C072A49CAFA2D4ADF04759FA7DC982CA76ABD7FE2B670130C56F6BF27B777C63 * 2 ^ 0 +
  0xD2F3FF1021DAB6BCF5389D928F40A351A89F3C507F02F94585334D43FBAAEFD0CF584C4A39BECB6A5BB1FC20ED00D153842FE329B3D63B52A05A6E1B1A2C8309 * 2 ^ 512 +
  0x08AE7A65EAF4566CA94ED58D6D37C8E779E4959162ACD3C25C2406490A3A32E0DB0B5EDE14B8EE4688902A22DC4F816073195D643D7EA7C41744975FEC130CCD * 2 ^ 1024 +
  0x16BB54B00F2D99416842E6BF0D89A18CDF2855CEE9871E9B948ED9691198F8E19E1DC186B95735610EF6034866B53E708A8BBD4B1F74DDE8C6B4A61C2E2578BA * 2 ^ 1536

def aesSub (a : Nat) : Nat := byteNo aesTable a

def aesUnsub (b : Nat) : Nat := ((List.range 256).find? fun a => aesSub a == b).getD 0

/-- Twice an element of GF(2^8). -/
def gfTwice (a : Nat) : Nat := if a < 128 then 2 * a else (2 * a) ^^^ 0x11B

def gfMul (a b : Nat) : Nat :=
  ((List.range 8).foldl (fun (acc : Nat × Nat) i => (if b.testBit i then acc.1 ^^^ acc.2 else acc.1, gfTwice acc.2)) (0, a)).1

def gfPow2 (n : Nat) : Nat := (List.range n).foldl (fun a _ => gfTwice a) 1

/-- Word i of the key schedule, from the words before it, newest first. -/
def aesNext (ws : List Nat) (i : Nat) : Nat :=
  let w := ws.headD 0
  let sub (w : Nat) : Nat := packBytes 4 fun k => aesSub (byteNo w k)
  let x := if i % 8 = 0 then sub (w / 256 + w % 256 * 2 ^ 24) ^^^ gfPow2 (i / 8 - 1) else if i % 8 = 4 then sub w else w
  ws.getD 7 0 ^^^ x

/-- The 15 round keys of a 256-bit key. -/
def aesKeys (key : Nat) : List Nat :=
  let first := (List.range 8).foldl (fun ws i => key >>> (32 * i) % 2 ^ 32 :: ws) []
  let ws := ((List.range 52).foldl (fun ws i => aesNext ws (i + 8) :: ws) first).reverse
  (List.range 15).map fun r => (List.range 4).foldl (fun acc i => acc + ws.getD (4 * r + i) 0 <<< (32 * i)) 0

/-- Row r of a block turns left by r, or right. -/
def aesShift (x : Nat) : Nat := packBytes 16 fun i => byteNo x (i % 4 + 4 * ((i / 4 + i % 4) % 4))
def aesUnshift (x : Nat) : Nat := packBytes 16 fun i => byteNo x (i % 4 + 4 * ((i / 4 + 4 - i % 4) % 4))

/-- Every column times the polynomial with these coefficients, lowest first. -/
def aesMix (c : List Nat) (x : Nat) : Nat :=
  packBytes 16 fun i => (List.range 4).foldl (fun acc k => acc ^^^ gfMul (c.getD ((i + 4 - k) % 4) 0) (byteNo x (i / 4 * 4 + k))) 0

def aesEncrypt (keys : List Nat) (x : Nat) : Nat :=
  (List.range 14).foldl (fun x r =>
    let y := aesShift (packBytes 16 fun i => aesSub (byteNo x i))
    (if r = 13 then y else aesMix [2, 1, 1, 3] y) ^^^ keys.getD (r + 1) 0) (x ^^^ keys.getD 0 0)

def aesDecrypt (keys : List Nat) (x : Nat) : Nat :=
  (List.range 14).foldl (fun x r =>
    let y := (packBytes 16 fun i => aesUnsub (byteNo (aesUnshift x) i)) ^^^ keys.getD (13 - r) 0
    if r = 13 then y else aesMix [14, 9, 13, 11] y) (x ^^^ keys.getD 14 0)

/-! ### XTS over one data unit of 64 bytes (IEEE 1619) -/

/-- The tweaks of the four blocks: the encrypted tweak, doubled in GF(2^128) from block to block. -/
def xtsTweaks (key tweak : Nat) : List Nat :=
  let first := aesEncrypt (aesKeys key) (tweak % 2 ^ 128)
  let next (t : Nat) : Nat := (2 * t % 2 ^ 128) ^^^ (if t < 2 ^ 127 then 0 else 0x87)
  (List.range 4).map fun j => (List.range j).foldl (fun t _ => next t) first

/-- A line under a partition's key: bytes 0 to 31 the data key, bytes 32 to 63 the tweak key (R351). -/
def xtsLine (cipher : List Nat → Nat → Nat) (key : BitVec 512) (tweak : Nat) (x : Line) : Line :=
  let keys := aesKeys (key.toNat % 2 ^ 256)
  let ts := xtsTweaks (key.toNat / 2 ^ 256) tweak
  BitVec.ofNat 512 <| (List.range 4).foldl (fun acc j =>
    let t := ts.getD j 0
    acc + (cipher keys ((x.toNat >>> (128 * j) % 2 ^ 128) ^^^ t) ^^^ t) <<< (128 * j)) 0

def xtsEncrypt (key : BitVec 512) (tweak : Nat) (x : Line) : Line := xtsLine aesEncrypt key tweak x
def xtsDecrypt (key : BitVec 512) (tweak : Nat) (x : Line) : Line := xtsLine aesDecrypt key tweak x

/-! ### SHA-256 and SHA-384 (FIPS 180-4) -/

/-- The n bytes of a number, most significant first, and the number of such bytes. -/
def bigBytes (n x : Nat) : List Byte := (List.range n).map fun i => BitVec.ofNat 8 (x / 256 ^ (n - 1 - i))
def bigNat (bs : List Byte) : Nat := bs.foldl (fun acc b => acc * 256 + b.toNat) 0

/-- What SHA-256 and SHA-512 differ in: the constants and the four rotations. -/
structure Sha (w : Nat) where
  k : List (BitVec w)
  sum0 : BitVec w → BitVec w
  sum1 : BitVec w → BitVec w
  sig0 : BitVec w → BitVec w
  sig1 : BitVec w → BitVec w

/-- The words of the message schedule, as many as there are constants. -/
def Sha.schedule {w : Nat} (a : Sha w) (block : List (BitVec w)) : List (BitVec w) :=
  ((List.range (a.k.length - 16)).foldl (fun ws _ =>
    (a.sig1 (ws.getD 1 0) + ws.getD 6 0 + a.sig0 (ws.getD 14 0) + ws.getD 15 0) :: ws) block.reverse).reverse

/-- One round on the working variables a to h. -/
def Sha.round {w : Nat} (s : Sha w) (v : List (BitVec w)) (kw : BitVec w × BitVec w) : List (BitVec w) :=
  match v with
  | [a, b, c, d, e, f, g, h] =>
    let x := h + s.sum1 e + ((e &&& f) ^^^ (~~~ e &&& g)) + kw.1 + kw.2
    let y := s.sum0 a + ((a &&& b) ^^^ (a &&& c) ^^^ (b &&& c))
    [x + y, a, b, c, d + x, e, f, g]
  | v => v

def Sha.compress {w : Nat} (s : Sha w) (h block : List (BitVec w)) : List (BitVec w) :=
  List.zipWith (· + ·) h ((s.k.zip (s.schedule block)).foldl s.round h)

/-- The message with a 1 bit, zeros and its length in bits, in blocks of 16 words. -/
def shaPad (w : Nat) (m : List Byte) : List Byte :=
  let block := 2 * w
  let used := (m.length + 1 + w / 4) % block
  m ++ 0x80 :: List.replicate ((block - used) % block) 0 ++ bigBytes (w / 4) (8 * m.length)

/-- The blocks of a padded message, n of them, worked off. -/
def Sha.run {w : Nat} (s : Sha w) : Nat → List Byte → List (BitVec w) → List (BitVec w)
  | 0, _, h => h
  | n + 1, m, h =>
    let word (i : Nat) : BitVec w := BitVec.ofNat w (bigNat ((m.drop (i * (w / 8))).take (w / 8)))
    s.run n (m.drop (2 * w)) (s.compress h ((List.range 16).map word))

def Sha.digest {w : Nat} (s : Sha w) (start : List (BitVec w)) (m : List Byte) : List Byte :=
  let p := shaPad w m
  (s.run (p.length / (2 * w)) p start).flatMap fun x => bigBytes (w / 8) x.toNat

/-- The constants of SHA-256. -/
def sha256K : List (BitVec 32) :=
  [0x428A2F98, 0x71374491, 0xB5C0FBCF, 0xE9B5DBA5, 0x3956C25B, 0x59F111F1, 0x923F82A4, 0xAB1C5ED5,
   0xD807AA98, 0x12835B01, 0x243185BE, 0x550C7DC3, 0x72BE5D74, 0x80DEB1FE, 0x9BDC06A7, 0xC19BF174] ++
  [0xE49B69C1, 0xEFBE4786, 0x0FC19DC6, 0x240CA1CC, 0x2DE92C6F, 0x4A7484AA, 0x5CB0A9DC, 0x76F988DA,
   0x983E5152, 0xA831C66D, 0xB00327C8, 0xBF597FC7, 0xC6E00BF3, 0xD5A79147, 0x06CA6351, 0x14292967] ++
  [0x27B70A85, 0x2E1B2138, 0x4D2C6DFC, 0x53380D13, 0x650A7354, 0x766A0ABB, 0x81C2C92E, 0x92722C85,
   0xA2BFE8A1, 0xA81A664B, 0xC24B8B70, 0xC76C51A3, 0xD192E819, 0xD6990624, 0xF40E3585, 0x106AA070] ++
  [0x19A4C116, 0x1E376C08, 0x2748774C, 0x34B0BCB5, 0x391C0CB3, 0x4ED8AA4A, 0x5B9CCA4F, 0x682E6FF3,
   0x748F82EE, 0x78A5636F, 0x84C87814, 0x8CC70208, 0x90BEFFFA, 0xA4506CEB, 0xBEF9A3F7, 0xC67178F2]

/-- The constants of SHA-384: those of SHA-512. -/
def sha512K : List (BitVec 64) :=
  [0x428A2F98D728AE22, 0x7137449123EF65CD, 0xB5C0FBCFEC4D3B2F, 0xE9B5DBA58189DBBC, 0x3956C25BF348B538,
   0x59F111F1B605D019, 0x923F82A4AF194F9B, 0xAB1C5ED5DA6D8118, 0xD807AA98A3030242, 0x12835B0145706FBE,
   0x243185BE4EE4B28C, 0x550C7DC3D5FFB4E2, 0x72BE5D74F27B896F, 0x80DEB1FE3B1696B1, 0x9BDC06A725C71235,
   0xC19BF174CF692694] ++
  [0xE49B69C19EF14AD2, 0xEFBE4786384F25E3, 0x0FC19DC68B8CD5B5, 0x240CA1CC77AC9C65, 0x2DE92C6F592B0275,
   0x4A7484AA6EA6E483, 0x5CB0A9DCBD41FBD4, 0x76F988DA831153B5, 0x983E5152EE66DFAB, 0xA831C66D2DB43210,
   0xB00327C898FB213F, 0xBF597FC7BEEF0EE4, 0xC6E00BF33DA88FC2, 0xD5A79147930AA725, 0x06CA6351E003826F,
   0x142929670A0E6E70] ++
  [0x27B70A8546D22FFC, 0x2E1B21385C26C926, 0x4D2C6DFC5AC42AED, 0x53380D139D95B3DF, 0x650A73548BAF63DE,
   0x766A0ABB3C77B2A8, 0x81C2C92E47EDAEE6, 0x92722C851482353B, 0xA2BFE8A14CF10364, 0xA81A664BBC423001,
   0xC24B8B70D0F89791, 0xC76C51A30654BE30, 0xD192E819D6EF5218, 0xD69906245565A910, 0xF40E35855771202A,
   0x106AA07032BBD1B8] ++
  [0x19A4C116B8D2D0C8, 0x1E376C085141AB53, 0x2748774CDF8EEB99, 0x34B0BCB5E19B48A8, 0x391C0CB3C5C95A63,
   0x4ED8AA4AE3418ACB, 0x5B9CCA4F7763E373, 0x682E6FF3D6B2B8A3, 0x748F82EE5DEFB2FC, 0x78A5636F43172F60,
   0x84C87814A1F0AB72, 0x8CC702081A6439EC, 0x90BEFFFA23631E28, 0xA4506CEBDE82BDE9, 0xBEF9A3F7B2C67915,
   0xC67178F2E372532B] ++
  [0xCA273ECEEA26619C, 0xD186B8C721C0C207, 0xEADA7DD6CDE0EB1E, 0xF57D4F7FEE6ED178, 0x06F067AA72176FBA,
   0x0A637DC5A2C898A6, 0x113F9804BEF90DAE, 0x1B710B35131C471B, 0x28DB77F523047D84, 0x32CAAB7B40C72493,
   0x3C9EBE0A15C9BEBC, 0x431D67C49C100D4C, 0x4CC5D4BECB3E42B6, 0x597F299CFC657E2A, 0x5FCB6FAB3AD6FAEC,
   0x6C44198C4A475817]

def sha256Kind : Sha 32 where
  k := sha256K
  sum0 x := x.rotateRight 2 ^^^ x.rotateRight 13 ^^^ x.rotateRight 22
  sum1 x := x.rotateRight 6 ^^^ x.rotateRight 11 ^^^ x.rotateRight 25
  sig0 x := x.rotateRight 7 ^^^ x.rotateRight 18 ^^^ x >>> 3
  sig1 x := x.rotateRight 17 ^^^ x.rotateRight 19 ^^^ x >>> 10

def sha512Kind : Sha 64 where
  k := sha512K
  sum0 x := x.rotateRight 28 ^^^ x.rotateRight 34 ^^^ x.rotateRight 39
  sum1 x := x.rotateRight 14 ^^^ x.rotateRight 18 ^^^ x.rotateRight 41
  sig0 x := x.rotateRight 1 ^^^ x.rotateRight 8 ^^^ x >>> 7
  sig1 x := x.rotateRight 19 ^^^ x.rotateRight 61 ^^^ x >>> 6

def sha256 (m : List Byte) : List Byte :=
  sha256Kind.digest [0x6A09E667, 0xBB67AE85, 0x3C6EF372, 0xA54FF53A, 0x510E527F, 0x9B05688C, 0x1F83D9AB, 0x5BE0CD19] m

def sha384 (m : List Byte) : List Byte :=
  (sha512Kind.digest
    [0xCBBB9D5DC1059ED8, 0x629A292A367CD507, 0x9159015A3070DD17, 0x152FECD8F70E5939,
     0x67332667FFC00B31, 0x8EB44A8768581511, 0xDB0C2E0D64F98FA7, 0x47B5481DBEFA4FA4] m).take 48

/-! ### ECDSA on P-384 (FIPS 186-5) -/

def powMod (m a e bits : Nat) : Nat :=
  (List.range bits).foldl (fun acc i => if e.testBit (bits - 1 - i) then acc * acc % m * a % m else acc * acc % m) 1

namespace P384

def p : Nat := 2 ^ 384 - 2 ^ 128 - 2 ^ 96 + 2 ^ 32 - 1
def b : Nat := 0xB3312FA7E23EE7E4988E056BE3F82D19181D9C6EFE8141120314088F5013875AC656398D8A2ED19D2A85C8EDD3EC2AEF
def n : Nat := 0xFFFFFFFFFFFFFFFFFFFFFFFFFFFFFFFFFFFFFFFFFFFFFFFFC7634D81F4372DDF581A0DB248B0A77AECEC196ACCC52973
def base : Nat × Nat :=
  (0xAA87CA22BE8B05378EB1C71EF320AD746E1D3B628BA79B9859F741E082542A385502F25DBF55296C3A545E3872760AB7,
   0x3617DE4A96262C6F5D9E98BF9292DC29F8F41DBD289A147CE9DA3113B5F0B8C00A60B1CE1D7E819D7A431D7C90EA0E5F)

def onCurve (q : Nat × Nat) : Bool :=
  q.1 < p && q.2 < p && q.2 * q.2 % p == (q.1 * q.1 % p * q.1 + (p - 3) * q.1 + b) % p

/-- Addition; `none` is the point at infinity. -/
def add (x y : Option (Nat × Nat)) : Option (Nat × Nat) :=
  match x, y with
  | none, y => y
  | x, none => x
  | some a, some c =>
    if a.1 = c.1 ∧ (a.2 + c.2) % p = 0 then none
    else
      let top := if a.1 = c.1 then 3 * a.1 * a.1 + p - 3 else c.2 + p - a.2
      let bottom := if a.1 = c.1 then 2 * a.2 else c.1 + p - a.1
      let l := top * powMod p (bottom % p) (p - 2) 384 % p
      let u := (l * l + 2 * p - a.1 - c.1) % p
      some (u, (l * (a.1 + p - u) + p - a.2) % p)

def mul (k : Nat) (q : Nat × Nat) : Option (Nat × Nat) :=
  (List.range 384).foldl (fun acc i =>
    let d := add acc acc
    if k.testBit (383 - i) then add d (some q) else d) none

/-- A signature r, s of a digest by the key q verifies. -/
def verifies (q : Nat × Nat) (digest : List Byte) (r s : Nat) : Bool :=
  let w := powMod n s (n - 2) 384
  let e := bigNat digest
  onCurve q && 0 < r && r < n && 0 < s && s < n &&
    match add (mul (e * w % n) base) (mul (r * w % n) q) with
    | some x => x.1 % n == r
    | none => false

end P384

/-! ### LMS_SHA256_M32_H15 with LMOTS_SHA256_N32_W4 (RFC 8554) -/

namespace Lms

/-- Bytes a to b - 1 of a string. -/
def part (bs : List Byte) (a b : Nat) : List Byte := (bs.drop a).take (b - a)

/-- Digit i, of 4 bits, of a string: the high one of a byte first. -/
def coef (bs : List Byte) (i : Nat) : Nat :=
  let x := (bs.getD (i / 2) 0).toNat
  if i % 2 = 0 then x / 16 else x % 16

/-- The hash of a message with its checksum: 67 digits. -/
def withChecksum (q : List Byte) : List Byte :=
  q ++ bigBytes 2 ((List.range 64).foldl (fun acc i => acc + (15 - coef q i)) 0 * 16)

/-- One chain from step a to step 15. -/
def chain (head : List Byte) (a : Nat) (y : List Byte) : List Byte :=
  (List.range (15 - a)).foldl (fun y j => sha256 (head ++ bigBytes 1 (a + j) ++ y)) y

/-- The one-time public key that a signature of leaf q gives (RFC 8554, algorithm 4b): its randomizer C and its 67 strings y. -/
def oneTimeKey (ident : List Byte) (q : Nat) (c ys message : List Byte) : List Byte :=
  let head := ident ++ bigBytes 4 q
  let digits := withChecksum (sha256 (head ++ bigBytes 2 0x8181 ++ c ++ message))
  sha256 (head ++ bigBytes 2 0x8080 ++ (List.range 67).flatMap fun i =>
    chain (head ++ bigBytes 2 i) (coef digits i) (part ys (32 * i) (32 * i + 32)))

/-- The root that a path of 15 nodes gives (RFC 8554, algorithm 6a). -/
def root (ident : List Byte) (q : Nat) (key path : List Byte) : List Byte :=
  let leaf := sha256 (ident ++ bigBytes 4 (2 ^ 15 + q) ++ bigBytes 2 0x8282 ++ key)
  (List.range 15).foldl (fun x i =>
    let node := (2 ^ 15 + q) / 2 ^ i
    let other := part path (32 * i) (32 * i + 32)
    sha256 (ident ++ bigBytes 4 (node / 2) ++ bigBytes 2 0x8383 ++ (if node % 2 = 1 then other ++ x else x ++ other))) leaf

/-- A signature verifies: key and signature in the formats of RFC 8554, types 7 (H15) and 3 (W4). -/
def verifies (key message sig : List Byte) : Bool :=
  let q := bigNat (part sig 0 4)
  let ident := part key 8 24
  key.length == 56 && bigNat (part key 0 4) == 7 && bigNat (part key 4 8) == 3 && sig.length == 2668 && q < 2 ^ 15 &&
    bigNat (part sig 4 8) == 3 && bigNat (part sig 2184 2188) == 7 &&
    root ident q (oneTimeKey ident q (part sig 8 40) (part sig 40 2184) message) (part sig 2188 2668) == part key 24 56

end Lms

end Sys2Proof.Machine
end

