-- ==== Sys2Proof/Syntax.lean ====
section
/-! DEFINITION. The abstract syntax: one constructor of `Instr` for each row of spec/opcode_table.json. Rows 0 to 218 are
instructions and command blocks, rows 219 to 302 events (spec/95_what_each_step_holds.md: "each whole and indivisible"). -/

namespace Sys2Proof

/-- The 7-bit register space (spec/03_encoding.md R57). -/
inductive Reg where
  | g (n : Fin 64)
  | v (n : Fin 32)
  | p (n : Fin 16)
  | m (n : Fin 8)
  | fmt (n : Fin 8)
  deriving DecidableEq, Repr

/-- The type codes that R58 (spec/03_encoding.md) assigns. -/
inductive Ty where
  | i8 | i16 | i32 | i64 | n8 | n16 | n32 | n64 | f16 | bf16 | f32 | f64
  | nf (k : Fin 8)
  | pair32
  deriving DecidableEq, Repr

/-- Destination clamps (R56). -/
inductive Clamp where
  | none | c01 | c11 | cpos | csat
  deriving DecidableEq, Repr

/-- Combine modes of the compares: set, and, or (R60, R98). -/
inductive Combine where
  | set | conj | disj
  deriving DecidableEq, Repr

/-- Scopes, narrowest first (R8, R61). -/
inductive Scope where
  | core | cluster | die | device | system
  deriving DecidableEq, Repr

/-- Cache hints (R61). -/
inductive Hint where
  | normal | stream | noL1 | keep
  deriving DecidableEq, Repr

/-- What FN selects in the rounding majors (R76). -/
inductive Rnd where
  | frmode | rne | rtz | rna | rup | rdn
  deriving DecidableEq, Repr

/-- Compare conditions (R99, R100). -/
inductive Cond where
  | eq | ne | lt | le | gt | ge | uo | ord
  deriving DecidableEq, Repr

/-- The switch marker and the guard (R56, R66). -/
structure Head where
  sw : Bool
  gp : Fin 16
  gi : Bool
  deriving DecidableEq, Repr

/-- A source with its modifiers (R67). -/
structure Src where
  reg : Reg
  neg : Bool
  abs : Bool
  deriving DecidableEq, Repr

/-- Format A (R56, R59). `ty` is `none` in an instruction that takes no type. `rnd` and `cond` are what FN selects in the
rounding and compare majors; elsewhere they stand at `frmode` and `eq`. -/
structure OpA where
  hd : Head
  dst : Reg
  clamp : Clamp
  scale : BitVec 4
  a : Src
  b : Src
  c : Src
  ty : Option Ty
  imm : BitVec 32
  rnd : Rnd
  cond : Cond
  deriving DecidableEq, Repr

/-- Format P (R60). -/
structure OpP where
  hd : Head
  p1 : Reg
  comb : Combine
  p2 : Fin 16
  a : Src
  b : Src
  ty : Option Ty
  imm : BitVec 32
  cond : Cond
  deriving DecidableEq, Repr

/-- Format M (R61). -/
structure OpM where
  hd : Head
  data : Reg
  pidx : Fin 16
  base : Reg
  index : Reg
  shift : Fin 8
  scope : Scope
  hint : Hint
  ty : Option Ty
  imm : BitVec 32
  deriving DecidableEq, Repr

/-- Format B (R62): the register that `jr` and `loop` read, the line offset and the target slot. -/
structure OpB where
  hd : Head
  sa : Reg
  off : BitVec 29
  slot : BitVec 3
  deriving DecidableEq, Repr

/-- Format E (R63). -/
structure OpE where
  hd : Head
  dst : Reg
  scope : Scope
  pE : Fin 16
  a : Reg
  b : Src
  c : Src
  ty : Option Ty
  pD : Fin 16
  imm : BitVec 28
  deriving DecidableEq, Repr

/-- Format S (R64). -/
structure OpS where
  hd : Head
  dst : Reg
  sa : Reg
  imm : BitVec 32
  deriving DecidableEq, Repr

/-- A command block for an engine (spec/17_edge.md R283, R284): who sent it, the unit it names and its local-store offset. -/
structure OpBlock where
  task : Nat
  op : Nat
  unit : Nat
  offset : Nat
  deriving DecidableEq, Repr

/-- A requester that is no task (spec/23_host.md R350, R355): a Yarrow hart, or a PCIe requester of a partition. -/
inductive Requester where
  | hart (h : Nat)
  | pcie (port partition : Nat)
  deriving DecidableEq, Repr

/-- The atomic operations of the integer offers and of hart AMOs (spec/09_memory_offers.md R174). -/
inductive Atomic where
  | add | min | max | and | or | xor | swp | cas | fadd | fmin | fmax | ffma
  deriving DecidableEq, Repr

/-- A request that arrives over PCIe or the Perold link (spec/23_host.md R358, R359). -/
inductive Inbound where
  | read (address : BitVec 64) (bytes : Nat)
  | write (address : BitVec 64) (data : List (BitVec 8))
  | offer (address : BitVec 64) (op : Atomic) (wide : Bool) (b c : BitVec 64)
  | fetchSealed (address : BitVec 64)
  | ackNotice (page : Nat)
  /-- to virtual function v of port 0 as an endpoint; every other request is to the physical function (spec/23_host.md R357) -/
  | toFunction (v : Nat) (request : Inbound)
  deriving DecidableEq, Repr

/-- How a Yarrow hart translates an address (spec/23_host.md R353): the top-level table that satp or vsatp names, and the one that
hgatp names, each `none` where its MODE selects no translation; the access's privilege, and the SUM and MXR bits that it is made
under (log entry 50). -/
structure HartSpace where
  root : Option Nat := none
  guest : Option Nat := none
  user : Bool := false
  sum : Bool := false
  mxr : Bool := false
  deriving DecidableEq, Repr

/-- An access of a Yarrow hart (spec/23_host.md R353, R354). -/
inductive HartAccess where
  | fetch (space : HartSpace) (address : BitVec 64) (bytes : Nat)
  | load (space : HartSpace) (address : BitVec 64) (bytes : Nat)
  | store (space : HartSpace) (address : BitVec 64) (bytes : Nat) (value : BitVec 64)
  | amo (space : HartSpace) (address : BitVec 64) (op : Atomic) (ty : Ty) (value : BitVec 64)
  | fence (predW succR : Bool)
  deriving DecidableEq, Repr

/-- What a detection circuit reports (spec/13_traps.md R235, R237, and the causes that R218 delivers "reported"). -/
inductive DetectedError where
  | registerCache (task : Nat)
  | fetchParity (core : Nat)
  | localStore (core offset : Nat)
  | dram (address : Nat)
  | cacheLine (address : Nat) (dirty : Bool)
  /-- a line that an RDC slice of a die holds -/
  | rdcLine (die address : Nat)
  | link (n : Nat)
  | drive (engine n : Nat)
  | late (cause : BitVec 8) (address task : BitVec 64)
  deriving DecidableEq, Repr

/-- How an NVMe command ends (spec/21_launch_storage.md R345). -/
inductive NvmeStatus where
  | ok
  | error (status : BitVec 16)
  | protection
  | removed
  deriving DecidableEq, Repr

/-- One constructor for each row of spec/opcode_table.json, in its order. -/
inductive Instr where
  | add (o : OpA)
  | sub (o : OpA)
  | madd (o : OpA)
  | mul (o : OpA)
  | mulh (o : OpA)
  | mulhn (o : OpA)
  | div (o : OpA)
  | divn (o : OpA)
  | rem (o : OpA)
  | remn (o : OpA)
  | and (o : OpA)
  | or (o : OpA)
  | xor (o : OpA)
  | andn (o : OpA)
  | shl (o : OpA)
  | shr (o : OpA)
  | sra (o : OpA)
  | rol (o : OpA)
  | ror (o : OpA)
  | min (o : OpA)
  | max (o : OpA)
  | minn (o : OpA)
  | maxn (o : OpA)
  | clz (o : OpA)
  | ctz (o : OpA)
  | popc (o : OpA)
  | bext (o : OpA)
  | bdep (o : OpA)
  | sel (o : OpA)
  | mov (o : OpA)
  | movi (o : OpA)
  | movh (o : OpA)
  | lea (o : OpM)
  | nop (o : OpS)
  | brk (o : OpS)
  | br (o : OpB)
  | jmp (o : OpB)
  | call (o : OpB)
  | ret (o : OpB)
  | jr (o : OpB)
  | loop (o : OpB)
  | done (o : OpS)
  | doneExit (o : OpS)
  | cmp (o : OpP)
  | fcmp (o : OpP)
  | pand (o : OpP)
  | por (o : OpP)
  | pxor (o : OpP)
  | pnot (o : OpP)
  | pmov (o : OpP)
  | ptst (o : OpP)
  | vcmp (o : OpA)
  | vfcmp (o : OpA)
  | fadd (o : OpA)
  | fsub (o : OpA)
  | fmul (o : OpA)
  | ffma (o : OpA)
  | fdiv (o : OpA)
  | fsqrt (o : OpA)
  | frcp (o : OpA)
  | frsq (o : OpA)
  | fexp2 (o : OpA)
  | flog2 (o : OpA)
  | fmin (o : OpA)
  | fmax (o : OpA)
  | fclass (o : OpA)
  | vfadd (o : OpA)
  | vfsub (o : OpA)
  | vfmul (o : OpA)
  | vffma (o : OpA)
  | vfdiv (o : OpA)
  | vfsqrt (o : OpA)
  | vfrcp (o : OpA)
  | vfmin (o : OpA)
  | vfmax (o : OpA)
  | vadd (o : OpA)
  | vsub (o : OpA)
  | vmul (o : OpA)
  | vmulh (o : OpA)
  | vmadd (o : OpA)
  | vand (o : OpA)
  | vor (o : OpA)
  | vxor (o : OpA)
  | vshl (o : OpA)
  | vshr (o : OpA)
  | vsra (o : OpA)
  | vmin (o : OpA)
  | vmax (o : OpA)
  | vsel (o : OpA)
  | vperm (o : OpA)
  | vbcast (o : OpA)
  | vext (o : OpA)
  | vins (o : OpA)
  | vredAdd (o : OpA)
  | vredMin (o : OpA)
  | vredMax (o : OpA)
  | vscan (o : OpA)
  | vzpack (o : OpA)
  | vexpand (o : OpA)
  | mand (o : OpA)
  | mor (o : OpA)
  | mnot (o : OpA)
  | mpopc (o : OpA)
  | mffs (o : OpA)
  | fcvt (o : OpA)
  | vcvt (o : OpA)
  | vpack (o : OpA)
  | vunpack (o : OpA)
  | vtsum (o : OpA)
  | ld (o : OpM)
  | ldv (o : OpM)
  | ldg (o : OpM)
  | pf (o : OpM)
  | st (o : OpM)
  | stv (o : OpM)
  | stg (o : OpM)
  | ldf (o : OpM)
  | ldft (o : OpM)
  | stf (o : OpM)
  | clrf (o : OpM)
  | copy (o : OpE)
  | copyx (o : OpE)
  | wany (o : OpA)
  | wall (o : OpA)
  | ffr (o : OpA)
  | tagclr (o : OpA)
  | cleanR (o : OpE)
  | invR (o : OpE)
  | flushR (o : OpE)
  | fenceR (o : OpM)
  | fenceW (o : OpM)
  | fenceRw (o : OpM)
  | fenceB (o : OpM)
  | acq (o : OpM)
  | acqs (o : OpM)
  | rls (o : OpM)
  | sealR (o : OpE)
  | oadd (o : OpE)
  | omin (o : OpE)
  | omax (o : OpE)
  | oand (o : OpE)
  | oor (o : OpE)
  | oxor (o : OpE)
  | oswp (o : OpE)
  | ocas (o : OpE)
  | oaddNt (o : OpE)
  | ominNt (o : OpE)
  | omaxNt (o : OpE)
  | oandNt (o : OpE)
  | oorNt (o : OpE)
  | oxorNt (o : OpE)
  | oswpNt (o : OpE)
  | ocasNt (o : OpE)
  | ofadd (o : OpE)
  | ofmin (o : OpE)
  | ofmax (o : OpE)
  | offma (o : OpE)
  | ored (o : OpE)
  | ofaddNt (o : OpE)
  | ofminNt (o : OpE)
  | ofmaxNt (o : OpE)
  | offmaNt (o : OpE)
  | oredNt (o : OpE)
  | ocmt (o : OpE)
  | oabn (o : OpE)
  | barv (o : OpE)
  | bwait (o : OpE)
  | btest (o : OpE)
  | grpq (o : OpE)
  | send (o : OpE)
  | sendt (o : OpE)
  | recv (o : OpE)
  | recvt (o : OpE)
  | deleg (o : OpE)
  | delegt (o : OpE)
  | dret (o : OpE)
  | rpt (o : OpE)
  | gslot (o : OpE)
  | gset (o : OpE)
  | ecmd (o : OpE)
  | vetchRun (o : OpBlock)
  | vetchStop (o : OpBlock)
  | ecmdMatrix (o : OpBlock)
  | mcap (o : OpE)
  | mfmt (o : OpE)
  | mldb (o : OpE)
  | mrow (o : OpE)
  | mnz (o : OpE)
  | mclr (o : OpE)
  | mrd (o : OpE)
  | msave (o : OpE)
  | mrest (o : OpE)
  | mwait (o : OpE)
  | ecomb (o : OpE)
  | eact (o : OpE)
  | dqpush (o : OpE)
  | dqpop (o : OpE)
  | dqsplit (o : OpE)
  | dqsteal (o : OpE)
  | amsg (o : OpE)
  | gath (o : OpE)
  | scat (o : OpE)
  | ijob (o : OpE)
  | bcall (o : OpE)
  | hret (o : OpE)
  | hrow (o : OpE)
  | hwr (o : OpE)
  | trap (o : OpS)
  | eret (o : OpS)
  | sysr (o : OpS)
  | sysw (o : OpS)
  | yieldT (o : OpS)
  | drain (o : OpS)
  | sfqpop (o : OpS)
  | kill (o : OpS)
  | tlbinv (o : OpS)
  | tlbsync (o : OpS)
  | vabort (o : OpS)
  | wfe (o : OpS)
  | issueCycle (core : Nat)
  | fetchParityRefetch (core line : Nat)
  | longResultArrival (task op : Nat)
  | offerReply (task op : Nat)
  | parityReplay (task : Nat) (reg : Reg)
  | storeResolve (task store : Nat)
  | ageLimitExpiry (core : Nat)
  | footprintFill (task : Nat)
  | taskDispatch (die : Nat)
  | actorMessageArrival (task op : Nat)
  | heldDeliveryRetry (launch actor fifo : Nat)
  | actorSwapOut (launch actor : Nat)
  | actorSwapIn (launch actor : Nat)
  | delegationRequest (core : Nat)
  | slotAdvertisement (die : Nat)
  | teamMigration (die launch team : Nat)
  | teamAccept (die : Nat)
  | launchCompletion (launch : Nat)
  | completionFlush (launch : Nat)
  | pageRecall (page : Nat)
  | rdcWriteThrough (die line : Nat)
  | ldfWake (task op : Nat)
  | ldfRepoll (task op : Nat)
  | copyCompletion (core copy : Nat)
  | guardGrant (object : Nat)
  | leaseExpiry (line : Nat)
  | sealNotice (task : Nat)
  | handlerActivation (core : Nat)
  | handlerOverrun (core : Nat)
  | debugHalt (core : Nat) (tid : BitVec 56)
  | debugStep (core : Nat) (tid : BitVec 56)
  | evtset (core : Nat)
  | wfeTimeout (task : Nat)
  | killComplete (core : Nat)
  | errorRetry (error : DetectedError) (lasting : Bool)
  | matrixCommandArrival (core : Nat)
  | slabFullWait (core : Nat)
  | rowClose (core : Nat)
  | spillReplay (core : Nat)
  | hardwareSave (core : Nat)
  | hardwareRestore (core : Nat)
  | mwaitQuery (task : Nat)
  | engineTimeout (core : Nat)
  | macroParity (core cim : Nat) (second : Bool)
  | roundStart (cluster : Nat)
  | roundEnd (cluster : Nat)
  | setEnd (cluster : Nat)
  | engineFault (cluster : Nat)
  | indexElement (cluster job : Nat)
  | sorrelHandler (unit : Nat)
  | hBound (unit : Nat)
  | tempRefresh (die : Nat) (low high : BitVec 8)
  | doorbell (who : Requester) (queue : Nat) (value : BitVec 32)
  | recordConsume (queue : Nat)
  | launchFormation (launch : Nat)
  | dependenceMet (launch : Nat)
  | abort (launch : Nat)
  | pageWalk (core : Nat) (root : Nat) (va : BitVec 64)
  | storageService (engine service : Nat)
  | nvmeCompletion (engine service : Nat) (status : NvmeStatus)
  | storageTimeout (engine service : Nat)
  | evictionRun (engine : Nat)
  | notresDecline (task op : Nat)
  | ownershipWrite (who : Requester) (offset width : Nat) (value : BitVec 64)
  | keyWrite (who : Requester) (partition word : Nat) (value : BitVec 64)
  | scrubComplete (channel : Nat)
  | hostAcq (block : Nat) (object : BitVec 64)
  | hostAcqs (block : Nat) (object : BitVec 64)
  | hostRls (block : Nat) (object : BitVec 64)
  | hostTlbinv (block partition : Nat) (command : BitVec 5)
  | fullStart
  | mlayout (die : Nat) (value : BitVec 32)
  | dieJoin (die : Nat) (trained : Bool)
  | cowslipVerify
  | recoveryImage (length : BitVec 64)
  | throttleStepDown
  | throttleStepUp
  | thermalTrip
  | pcieInbound (port bus : Nat) (request : Inbound)
  | peroldInbound (peer partition : Nat) (request : Inbound)
  | registerWrite (who : Requester) (offset width : Nat) (value : BitVec 64)
  | tlbinvCompletion (operation : Nat)
  | yarrowHartAccess (hart : Nat) (access : HartAccess)
  | pcieCompletionTimeout (task op : Nat)
  deriving DecidableEq, Repr

end Sys2Proof
end

