-- ==== Sys2Proof/Decode.lean ====
section
/-! DEFINITION. Instruction words: the codes of spec/03_encoding.md R56-R65, the opcode map R78 as one row for each
mnemonic, the checks of R75 steps 3, 5 and 6, the decoder and the encoder. -/

namespace Sys2Proof

/-! ### Codes -/

/-- Register classes (R57). -/
inductive Cls where
  | g | v | p | m | fmt
  deriving DecidableEq, Repr

def Reg.cls : Reg → Cls
  | .g _ => .g
  | .v _ => .v
  | .p _ => .p
  | .m _ => .m
  | .fmt _ => .fmt

/-- The specifier number of a register (R57). -/
def Reg.spec : Reg → Nat
  | .g n => n.val
  | .v n => 64 + n.val
  | .p n => 96 + n.val
  | .m n => 112 + n.val
  | .fmt n => 120 + n.val

/-- The register that a specifier names (R57: one space, no hole). -/
def Reg.ofSpec (x : Nat) : Reg :=
  if x < 64 then .g (Fin.ofNat 64 x)
  else if x < 96 then .v (Fin.ofNat 32 (x - 64))
  else if x < 112 then .p (Fin.ofNat 16 (x - 96))
  else if x < 120 then .m (Fin.ofNat 8 (x - 112))
  else .fmt (Fin.ofNat 8 (x - 120))

/-- g0, whose specifier is 0x00. -/
def Reg.zero : Reg := .g 0

/-- The specifier after this one (R63), within the class. -/
def Reg.next : Reg → Reg
  | .g n => .g (Fin.ofNat 64 (n.val + 1))
  | .v n => .v (Fin.ofNat 32 (n.val + 1))
  | .p n => .p (Fin.ofNat 16 (n.val + 1))
  | .m n => .m (Fin.ofNat 8 (n.val + 1))
  | .fmt n => .fmt (Fin.ofNat 8 (n.val + 1))

/-- The register of a second result (R63): the next specifier; with g0 as the first, the second result is discarded too. -/
def Reg.second (x : Reg) : Reg := if x = .zero then x else x.next

/-- Hard-wired registers (R57). -/
def Reg.hardwired : Reg → Bool
  | .g n => n.val == 0
  | .p n => n.val == 0
  | .m n => n.val == 0
  | _ => false

/-- Type codes (R58). -/
def Ty.code : Ty → Nat
  | .i8 => 0
  | .i16 => 1
  | .i32 => 2
  | .i64 => 3
  | .n8 => 4
  | .n16 => 5
  | .n32 => 6
  | .n64 => 7
  | .f16 => 8
  | .bf16 => 9
  | .f32 => 10
  | .f64 => 11
  | .nf k => 12 + k.val
  | .pair32 => 20

def Ty.ofCode : Nat → Option Ty
  | 0 => some .i8
  | 1 => some .i16
  | 2 => some .i32
  | 3 => some .i64
  | 4 => some .n8
  | 5 => some .n16
  | 6 => some .n32
  | 7 => some .n64
  | 8 => some .f16
  | 9 => some .bf16
  | 10 => some .f32
  | 11 => some .f64
  | 12 => some (.nf 0)
  | 13 => some (.nf 1)
  | 14 => some (.nf 2)
  | 15 => some (.nf 3)
  | 16 => some (.nf 4)
  | 17 => some (.nf 5)
  | 18 => some (.nf 6)
  | 19 => some (.nf 7)
  | 20 => some .pair32
  | _ => none

/-- Signed integer types: the i types. -/
def Ty.isI : Ty → Bool
  | .i8 | .i16 | .i32 | .i64 => true
  | _ => false

/-- Unsigned integer types: the n types. -/
def Ty.isN : Ty → Bool
  | .n8 | .n16 | .n32 | .n64 => true
  | _ => false

def Ty.isInt (t : Ty) : Bool := t.isI || t.isN

/-- The four IEEE types (spec/07_arithmetic.md R111). -/
def Ty.isFp : Ty → Bool
  | .f16 | .bf16 | .f32 | .f64 => true
  | _ => false

def Ty.isNf : Ty → Bool
  | .nf _ => true
  | _ => false

/-- Width in bits of a register operand or lane of the type (R83, R119); a narrow code occupies a byte. -/
def Ty.width : Ty → Nat
  | .i8 | .n8 | .nf _ => 8
  | .i16 | .n16 | .f16 | .bf16 => 16
  | .i32 | .n32 | .f32 | .pair32 => 32
  | .i64 | .n64 | .f64 => 64

def Clamp.code : Clamp → Nat
  | .none => 0
  | .c01 => 1
  | .c11 => 2
  | .cpos => 3
  | .csat => 4

def Clamp.ofCode : Nat → Option Clamp
  | 0 => some .none
  | 1 => some .c01
  | 2 => some .c11
  | 3 => some .cpos
  | 4 => some .csat
  | _ => Option.none

def Combine.code : Combine → Nat
  | .set => 0
  | .conj => 1
  | .disj => 2

def Combine.ofCode : Nat → Option Combine
  | 0 => some .set
  | 1 => some .conj
  | 2 => some .disj
  | _ => none

def Scope.code : Scope → Nat
  | .core => 0
  | .cluster => 1
  | .die => 2
  | .device => 3
  | .system => 4

def Scope.ofCode : Nat → Option Scope
  | 0 => some .core
  | 1 => some .cluster
  | 2 => some .die
  | 3 => some .device
  | 4 => some .system
  | _ => none

def Hint.code : Hint → Nat
  | .normal => 0
  | .stream => 1
  | .noL1 => 2
  | .keep => 3

def Hint.ofCode : Nat → Option Hint
  | 0 => some .normal
  | 1 => some .stream
  | 2 => some .noL1
  | 3 => some .keep
  | _ => none

/-- FN in the rounding majors (R76). -/
def Rnd.code : Rnd → Nat
  | .frmode => 0
  | .rne => 1
  | .rtz => 2
  | .rna => 3
  | .rup => 4
  | .rdn => 5

def Rnd.ofCode : Nat → Option Rnd
  | 0 => some .frmode
  | 1 => some .rne
  | 2 => some .rtz
  | 3 => some .rna
  | 4 => some .rup
  | 5 => some .rdn
  | _ => none

/-- FN in the compare majors (R78, R99, R100). -/
def Cond.code : Cond → Nat
  | .eq => 0
  | .ne => 1
  | .lt => 2
  | .le => 3
  | .gt => 4
  | .ge => 5
  | .uo => 6
  | .ord => 7

def Cond.ofCode : Nat → Option Cond
  | 0 => some .eq
  | 1 => some .ne
  | 2 => some .lt
  | 3 => some .le
  | 4 => some .gt
  | 5 => some .ge
  | 6 => some .uo
  | 7 => some .ord
  | _ => none

/-! ### Type lists -/

def tyI : List Ty := [.i8, .i16, .i32, .i64]
def tyN : List Ty := [.n8, .n16, .n32, .n64]
def tyInt : List Ty := tyI ++ tyN
def tyFp : List Ty := [.f16, .bf16, .f32, .f64]
def tyNf : List Ty := [.nf 0, .nf 1, .nf 2, .nf 3, .nf 4, .nf 5, .nf 6, .nf 7]
def tyFpNf : List Ty := tyFp ++ tyNf
/-- R131. -/
def tyCvt : List Ty := tyInt ++ tyFp ++ tyNf
/-- R133: the integer vector types. -/
def tyVInt : List Ty := [.i8, .i16, .i32, .n8, .n16, .n32]
def tyVFp : List Ty := [.f16, .bf16, .f32]
/-- R136. -/
def tyVNum : List Ty := tyVInt ++ tyVFp
/-- R119: every type a lane may have. -/
def tyLane : List Ty := tyVInt ++ tyVFp ++ tyNf
/-- R137. -/
def tyPack : List Ty := [.i8, .n8, .i16, .n16, .f16, .bf16] ++ tyNf
/-- R97. -/
def tyMem : List Ty := tyInt ++ tyFp
/-- R160. -/
def tyGather : List Ty := [.i16, .n16, .f16, .bf16, .i32, .n32, .f32]
/-- R141, R263. -/
def tyTsum : List Ty := [.pair32, .f32]
/-- R174. -/
def tyO4 : List Ty := [.i32, .i64, .n32, .n64]
def tyO2 : List Ty := [.n32, .n64]
def tyOF : List Ty := [.f32, .f64]
def tyRed : List Ty := [.i32, .n32, .f16, .bf16, .f32]
/-- R179: the types of the offers that a commit can answer. -/
def tyCmt : List Ty := [.i32, .i64, .n32, .n64, .f16, .bf16, .f32, .f64]
/-- R251: the types of A. -/
def tyMatA : List Ty := [.i8, .n8, .f16, .bf16] ++ tyNf
/-- R288. -/
def tyComb : List Ty := [.n64, .i64, .f32]

/-! ### Rows of the opcode map -/

/-- What an operand field accepts: the classes, and whether 0x00 means that the operand is absent. No class: the field is
unused and must be zero (R65). -/
structure Role where
  cls : List Cls := []
  opt : Bool := false

/-- The field is used. -/
def Role.used (r : Role) : Bool := !r.cls.isEmpty

/-- Reserved and unused fields (R65). -/
def Role.zeroOk (r : Role) (x : Reg) : Bool := r.used || x == .zero

/-- Register classes accepted (R57). -/
def Role.clsOk (r : Role) (x : Reg) : Bool := !r.used || r.cls.contains x.cls || (r.opt && x == .zero)

/-- What FN means in a row (R76, R78). -/
inductive Fn where
  | one (n : Nat)
  | rnd
  | cond (last : Nat)

/-- Which destinations are implicit sources too (R73, R132). -/
inductive DstRead where
  | never | always | ifMask | cvt | tsum
  deriving DecidableEq

/-- Where a clamp or scale is allowed (R65, R90, R125, R131, R141). -/
inductive ClampRule where
  | no | yes | cvt | tsum
  deriving DecidableEq

/-- Checks that only one row has; each is cited where it is made. -/
inductive Extra where
  | none | mov | cvt | pack | unpack | vtsum | two | twoG | ocmt | deleg | amsg | grpq | gslot | rpt | mrd | trap | kill | tlbinv | sfqpop
  deriving DecidableEq

/-- One row of the opcode map with what R91, R125-R141, R160-R183, R205-R210, R244, R275, R302, R311 and R312 say of its
fields. -/
structure Row where
  maj : Nat
  fn : Fn
  dst : Role := {}
  a : Role := {}
  b : Role := {}
  c : Role := {}
  /-- the data register of format M is written (a load) or read (a store) -/
  dstWrite : Bool := true
  /-- `loop` writes its source -/
  aWrite : Bool := false
  types : List Ty := []
  clamp : ClampRule := .no
  modA : Bool := false
  modB : Bool := false
  modC : Bool := false
  /-- the modifiers are accepted only with i types (R90, R132) -/
  modI : Bool := false
  /-- the modifiers are accepted only with FP types (R132: a reduction is an FP instruction with an FP type only) -/
  modF : Bool := false
  /-- bits of IMM that may be set when SB is 0x00 -/
  immB : Nat := 0
  /-- bits of IMM that may be set in every case -/
  imm : Nat := 0
  scope : Bool := false
  hint : Bool := false
  pidx : Bool := false
  pD : Bool := false
  long : Bool := false
  priv : Bool := false
  dstRead : DstRead := .never
  /-- a second result goes to the next specifier -/
  pair : Bool := false
  extra : Extra := .none

def Rows.add : Row :=
  { maj := 0x01, fn := .one 0, dst := { cls := [.g] }, a := { cls := [.g] }, b := { cls := [.g] }, types := tyInt,
    clamp := .yes, modA := true, modB := true, modI := true, immB := 0xffffffff }
def Rows.sub : Row :=
  { maj := 0x01, fn := .one 1, dst := { cls := [.g] }, a := { cls := [.g] }, b := { cls := [.g] }, types := tyInt,
    clamp := .yes, modA := true, modB := true, modI := true, immB := 0xffffffff }
def Rows.madd : Row :=
  { maj := 0x01, fn := .one 2, dst := { cls := [.g] }, a := { cls := [.g] }, b := { cls := [.g] },
    c := { cls := [.g] }, types := tyInt, clamp := .yes, modA := true, modB := true, modC := true, modI := true,
    immB := 0xffffffff }
def Rows.mul : Row :=
  { maj := 0x02, fn := .one 0, dst := { cls := [.g] }, a := { cls := [.g] }, b := { cls := [.g] }, types := tyInt,
    clamp := .yes, modA := true, modB := true, modI := true, immB := 0xffffffff }
def Rows.mulh : Row :=
  { maj := 0x02, fn := .one 1, dst := { cls := [.g] }, a := { cls := [.g] }, b := { cls := [.g] }, types := tyI,
    modA := true, modB := true, modI := true, immB := 0xffffffff }
def Rows.mulhn : Row :=
  { maj := 0x02, fn := .one 2, dst := { cls := [.g] }, a := { cls := [.g] }, b := { cls := [.g] }, types := tyN,
    immB := 0xffffffff }
def Rows.div : Row :=
  { maj := 0x03, fn := .one 0, dst := { cls := [.g] }, a := { cls := [.g] }, b := { cls := [.g] }, types := tyI,
    modA := true, modB := true, modI := true, immB := 0xffffffff, long := true }
def Rows.divn : Row :=
  { maj := 0x03, fn := .one 1, dst := { cls := [.g] }, a := { cls := [.g] }, b := { cls := [.g] }, types := tyN,
    immB := 0xffffffff, long := true }
def Rows.rem : Row :=
  { maj := 0x03, fn := .one 2, dst := { cls := [.g] }, a := { cls := [.g] }, b := { cls := [.g] }, types := tyI,
    modA := true, modB := true, modI := true, immB := 0xffffffff, long := true }
def Rows.remn : Row :=
  { maj := 0x03, fn := .one 3, dst := { cls := [.g] }, a := { cls := [.g] }, b := { cls := [.g] }, types := tyN,
    immB := 0xffffffff, long := true }
def Rows.and : Row :=
  { maj := 0x04, fn := .one 0, dst := { cls := [.g] }, a := { cls := [.g] }, b := { cls := [.g] }, types := tyInt,
    immB := 0xffffffff }
def Rows.or : Row :=
  { maj := 0x04, fn := .one 1, dst := { cls := [.g] }, a := { cls := [.g] }, b := { cls := [.g] }, types := tyInt,
    immB := 0xffffffff }
def Rows.xor : Row :=
  { maj := 0x04, fn := .one 2, dst := { cls := [.g] }, a := { cls := [.g] }, b := { cls := [.g] }, types := tyInt,
    immB := 0xffffffff }
def Rows.andn : Row :=
  { maj := 0x04, fn := .one 3, dst := { cls := [.g] }, a := { cls := [.g] }, b := { cls := [.g] }, types := tyInt,
    immB := 0xffffffff }
def Rows.shl : Row :=
  { maj := 0x05, fn := .one 0, dst := { cls := [.g] }, a := { cls := [.g] }, b := { cls := [.g] }, types := tyInt,
    immB := 0xffffffff }
def Rows.shr : Row :=
  { maj := 0x05, fn := .one 1, dst := { cls := [.g] }, a := { cls := [.g] }, b := { cls := [.g] }, types := tyInt,
    immB := 0xffffffff }
def Rows.sra : Row :=
  { maj := 0x05, fn := .one 2, dst := { cls := [.g] }, a := { cls := [.g] }, b := { cls := [.g] }, types := tyInt,
    immB := 0xffffffff }
def Rows.rol : Row :=
  { maj := 0x05, fn := .one 3, dst := { cls := [.g] }, a := { cls := [.g] }, b := { cls := [.g] }, types := tyInt,
    immB := 0xffffffff }
def Rows.ror : Row :=
  { maj := 0x05, fn := .one 4, dst := { cls := [.g] }, a := { cls := [.g] }, b := { cls := [.g] }, types := tyInt,
    immB := 0xffffffff }
def Rows.min : Row :=
  { maj := 0x06, fn := .one 0, dst := { cls := [.g] }, a := { cls := [.g] }, b := { cls := [.g] }, types := tyI,
    modA := true, modB := true, modI := true, immB := 0xffffffff }
def Rows.max : Row :=
  { maj := 0x06, fn := .one 1, dst := { cls := [.g] }, a := { cls := [.g] }, b := { cls := [.g] }, types := tyI,
    modA := true, modB := true, modI := true, immB := 0xffffffff }
def Rows.minn : Row :=
  { maj := 0x06, fn := .one 2, dst := { cls := [.g] }, a := { cls := [.g] }, b := { cls := [.g] }, types := tyN,
    immB := 0xffffffff }
def Rows.maxn : Row :=
  { maj := 0x06, fn := .one 3, dst := { cls := [.g] }, a := { cls := [.g] }, b := { cls := [.g] }, types := tyN,
    immB := 0xffffffff }
def Rows.clz : Row :=
  { maj := 0x07, fn := .one 0, dst := { cls := [.g] }, a := { cls := [.g] }, types := tyInt }
def Rows.ctz : Row :=
  { maj := 0x07, fn := .one 1, dst := { cls := [.g] }, a := { cls := [.g] }, types := tyInt }
def Rows.popc : Row :=
  { maj := 0x07, fn := .one 2, dst := { cls := [.g] }, a := { cls := [.g] }, types := tyInt }
def Rows.bext : Row :=
  { maj := 0x08, fn := .one 0, dst := { cls := [.g] }, a := { cls := [.g] }, b := { cls := [.g] }, types := tyN,
    immB := 0xffffffff }
def Rows.bdep : Row :=
  { maj := 0x08, fn := .one 1, dst := { cls := [.g] }, a := { cls := [.g] }, b := { cls := [.g] }, types := tyN,
    immB := 0xffffffff }
def Rows.sel : Row :=
  { maj := 0x09, fn := .one 0, dst := { cls := [.g] }, a := { cls := [.g] }, b := { cls := [.g] },
    c := { cls := [.p] }, immB := 0xffffffff }
def Rows.mov : Row :=
  { maj := 0x09, fn := .one 1, dst := { cls := [.g, .m, .fmt] }, a := { cls := [.g, .m, .fmt] }, extra := .mov }
def Rows.movi : Row :=
  { maj := 0x0a, fn := .one 0, dst := { cls := [.g] }, imm := 0xffffffff }
def Rows.movh : Row :=
  { maj := 0x0a, fn := .one 1, dst := { cls := [.g] }, a := { cls := [.g] }, imm := 0xffffffff }
def Rows.lea : Row :=
  { maj := 0x0b, fn := .one 0, dst := { cls := [.g] }, a := { cls := [.g] }, b := { cls := [.g] }, imm := 0xFFFFFFFF }
def Rows.nop : Row :=
  { maj := 0x20, fn := .one 0 }
def Rows.brk : Row :=
  { maj := 0x20, fn := .one 1, imm := 0xffff }
def Rows.br : Row :=
  { maj := 0x21, fn := .one 0, imm := 0xFFFFFFFF }
def Rows.jmp : Row :=
  { maj := 0x21, fn := .one 1, imm := 0xFFFFFFFF }
def Rows.call : Row :=
  { maj := 0x22, fn := .one 0, imm := 0xFFFFFFFF }
def Rows.ret : Row :=
  { maj := 0x22, fn := .one 1 }
def Rows.jr : Row :=
  { maj := 0x23, fn := .one 0, a := { cls := [.g] } }
def Rows.loop : Row :=
  { maj := 0x24, fn := .one 0, a := { cls := [.g] }, aWrite := true, imm := 0xFFFFFFFF }
def Rows.done : Row :=
  { maj := 0x25, fn := .one 0 }
def Rows.doneExit : Row :=
  { maj := 0x25, fn := .one 1 }
def Rows.cmp : Row :=
  { maj := 0x30, fn := .cond 5, dst := { cls := [.p] }, a := { cls := [.g] }, b := { cls := [.g] }, types := tyInt,
    modA := true, modB := true, modI := true, immB := 0xffffffff }
def Rows.fcmp : Row :=
  { maj := 0x31, fn := .cond 7, dst := { cls := [.p] }, a := { cls := [.g] }, b := { cls := [.g] }, types := tyFp,
    modA := true, modB := true, immB := 0xffffffff }
def Rows.pand : Row :=
  { maj := 0x32, fn := .one 0, dst := { cls := [.p] }, a := { cls := [.p] }, b := { cls := [.p] } }
def Rows.por : Row :=
  { maj := 0x32, fn := .one 1, dst := { cls := [.p] }, a := { cls := [.p] }, b := { cls := [.p] } }
def Rows.pxor : Row :=
  { maj := 0x32, fn := .one 2, dst := { cls := [.p] }, a := { cls := [.p] }, b := { cls := [.p] } }
def Rows.pnot : Row :=
  { maj := 0x32, fn := .one 3, dst := { cls := [.p] }, a := { cls := [.p] } }
def Rows.pmov : Row :=
  { maj := 0x32, fn := .one 4, dst := { cls := [.p] }, a := { cls := [.p] } }
def Rows.ptst : Row :=
  { maj := 0x32, fn := .one 5, dst := { cls := [.p] }, a := { cls := [.g] }, b := { cls := [.g] },
    immB := 0xffffffff }
def Rows.vcmp : Row :=
  { maj := 0x33, fn := .cond 5, dst := { cls := [.m] }, a := { cls := [.v] }, b := { cls := [.v, .g] },
    c := { cls := [.m], opt := true }, types := tyVInt, modA := true, modB := true, modI := true, immB := 0xffffffff }
def Rows.vfcmp : Row :=
  { maj := 0x34, fn := .cond 7, dst := { cls := [.m] }, a := { cls := [.v] }, b := { cls := [.v, .g] },
    c := { cls := [.m], opt := true }, types := tyVFp, modA := true, modB := true, immB := 0xffffffff }
def Rows.fadd : Row :=
  { maj := 0x40, fn := .rnd, dst := { cls := [.g] }, a := { cls := [.g] }, b := { cls := [.g] }, types := tyFp,
    clamp := .yes, modA := true, modB := true, immB := 0xffffffff }
def Rows.fsub : Row :=
  { maj := 0x41, fn := .rnd, dst := { cls := [.g] }, a := { cls := [.g] }, b := { cls := [.g] }, types := tyFp,
    clamp := .yes, modA := true, modB := true, immB := 0xffffffff }
def Rows.fmul : Row :=
  { maj := 0x42, fn := .rnd, dst := { cls := [.g] }, a := { cls := [.g] }, b := { cls := [.g] }, types := tyFp,
    clamp := .yes, modA := true, modB := true, immB := 0xffffffff }
def Rows.ffma : Row :=
  { maj := 0x43, fn := .rnd, dst := { cls := [.g] }, a := { cls := [.g] }, b := { cls := [.g] },
    c := { cls := [.g] }, types := tyFp, clamp := .yes, modA := true, modB := true, modC := true, immB := 0xffffffff }
def Rows.fdiv : Row :=
  { maj := 0x44, fn := .rnd, dst := { cls := [.g] }, a := { cls := [.g] }, b := { cls := [.g] }, types := tyFp,
    clamp := .yes, modA := true, modB := true, immB := 0xffffffff, long := true }
def Rows.fsqrt : Row :=
  { maj := 0x45, fn := .rnd, dst := { cls := [.g] }, a := { cls := [.g] }, types := tyFp, clamp := .yes,
    modA := true, long := true }
def Rows.frcp : Row :=
  { maj := 0x46, fn := .rnd, dst := { cls := [.g] }, a := { cls := [.g] }, types := tyFp, clamp := .yes,
    modA := true, long := true }
def Rows.frsq : Row :=
  { maj := 0x47, fn := .rnd, dst := { cls := [.g] }, a := { cls := [.g] }, types := tyFp, clamp := .yes,
    modA := true, long := true }
def Rows.fexp2 : Row :=
  { maj := 0x48, fn := .rnd, dst := { cls := [.g] }, a := { cls := [.g] }, types := tyFp, clamp := .yes,
    modA := true, long := true }
def Rows.flog2 : Row :=
  { maj := 0x49, fn := .rnd, dst := { cls := [.g] }, a := { cls := [.g] }, types := tyFp, clamp := .yes,
    modA := true, long := true }
def Rows.fmin : Row :=
  { maj := 0x4a, fn := .one 0, dst := { cls := [.g] }, a := { cls := [.g] }, b := { cls := [.g] }, types := tyFp,
    modA := true, modB := true, immB := 0xffffffff }
def Rows.fmax : Row :=
  { maj := 0x4a, fn := .one 1, dst := { cls := [.g] }, a := { cls := [.g] }, b := { cls := [.g] }, types := tyFp,
    modA := true, modB := true, immB := 0xffffffff }
def Rows.fclass : Row :=
  { maj := 0x4a, fn := .one 2, dst := { cls := [.g] }, a := { cls := [.g] }, types := tyFpNf, modA := true }
def Rows.vfadd : Row :=
  { maj := 0x50, fn := .rnd, dst := { cls := [.v] }, a := { cls := [.v] }, b := { cls := [.v, .g] },
    c := { cls := [.m], opt := true }, types := tyVFp, clamp := .yes, modA := true, modB := true, immB := 0xffffffff,
    dstRead := .ifMask }
def Rows.vfsub : Row :=
  { maj := 0x51, fn := .rnd, dst := { cls := [.v] }, a := { cls := [.v] }, b := { cls := [.v, .g] },
    c := { cls := [.m], opt := true }, types := tyVFp, clamp := .yes, modA := true, modB := true, immB := 0xffffffff,
    dstRead := .ifMask }
def Rows.vfmul : Row :=
  { maj := 0x52, fn := .rnd, dst := { cls := [.v] }, a := { cls := [.v] }, b := { cls := [.v, .g] },
    c := { cls := [.m], opt := true }, types := tyVFp, clamp := .yes, modA := true, modB := true, immB := 0xffffffff,
    dstRead := .ifMask }
def Rows.vffma : Row :=
  { maj := 0x53, fn := .rnd, dst := { cls := [.v] }, a := { cls := [.v] }, b := { cls := [.v, .g] },
    c := { cls := [.v, .g] }, types := tyVFp, clamp := .yes, modA := true, modB := true, modC := true,
    immB := 0xffffffff }
def Rows.vfdiv : Row :=
  { maj := 0x54, fn := .rnd, dst := { cls := [.v] }, a := { cls := [.v] }, b := { cls := [.v, .g] },
    c := { cls := [.m], opt := true }, types := tyVFp, clamp := .yes, modA := true, modB := true, immB := 0xffffffff,
    long := true, dstRead := .ifMask }
def Rows.vfsqrt : Row :=
  { maj := 0x55, fn := .rnd, dst := { cls := [.v] }, a := { cls := [.v] }, c := { cls := [.m], opt := true },
    types := tyVFp, clamp := .yes, modA := true, long := true, dstRead := .ifMask }
def Rows.vfrcp : Row :=
  { maj := 0x56, fn := .rnd, dst := { cls := [.v] }, a := { cls := [.v] }, c := { cls := [.m], opt := true },
    types := tyVFp, clamp := .yes, modA := true, long := true, dstRead := .ifMask }
def Rows.vfmin : Row :=
  { maj := 0x57, fn := .one 0, dst := { cls := [.v] }, a := { cls := [.v] }, b := { cls := [.v, .g] },
    c := { cls := [.m], opt := true }, types := tyVFp, modA := true, modB := true, immB := 0xffffffff,
    dstRead := .ifMask }
def Rows.vfmax : Row :=
  { maj := 0x57, fn := .one 1, dst := { cls := [.v] }, a := { cls := [.v] }, b := { cls := [.v, .g] },
    c := { cls := [.m], opt := true }, types := tyVFp, modA := true, modB := true, immB := 0xffffffff,
    dstRead := .ifMask }
def Rows.vadd : Row :=
  { maj := 0x58, fn := .one 0, dst := { cls := [.v] }, a := { cls := [.v] }, b := { cls := [.v, .g] },
    c := { cls := [.m], opt := true }, types := tyVInt, clamp := .yes, modA := true, modB := true, modI := true,
    immB := 0xffffffff, dstRead := .ifMask }
def Rows.vsub : Row :=
  { maj := 0x58, fn := .one 1, dst := { cls := [.v] }, a := { cls := [.v] }, b := { cls := [.v, .g] },
    c := { cls := [.m], opt := true }, types := tyVInt, clamp := .yes, modA := true, modB := true, modI := true,
    immB := 0xffffffff, dstRead := .ifMask }
def Rows.vmul : Row :=
  { maj := 0x58, fn := .one 2, dst := { cls := [.v] }, a := { cls := [.v] }, b := { cls := [.v, .g] },
    c := { cls := [.m], opt := true }, types := tyVInt, clamp := .yes, modA := true, modB := true, modI := true,
    immB := 0xffffffff, dstRead := .ifMask }
def Rows.vmulh : Row :=
  { maj := 0x58, fn := .one 3, dst := { cls := [.v] }, a := { cls := [.v] }, b := { cls := [.v, .g] },
    c := { cls := [.m], opt := true }, types := tyVInt, immB := 0xffffffff, dstRead := .ifMask }
def Rows.vmadd : Row :=
  { maj := 0x58, fn := .one 4, dst := { cls := [.v] }, a := { cls := [.v] }, b := { cls := [.v, .g] },
    c := { cls := [.v, .g] }, types := tyVInt, clamp := .yes, modA := true, modB := true, modC := true, modI := true,
    immB := 0xffffffff }
def Rows.vand : Row :=
  { maj := 0x59, fn := .one 0, dst := { cls := [.v] }, a := { cls := [.v] }, b := { cls := [.v, .g] },
    c := { cls := [.m], opt := true }, types := tyVInt, immB := 0xffffffff, dstRead := .ifMask }
def Rows.vor : Row :=
  { maj := 0x59, fn := .one 1, dst := { cls := [.v] }, a := { cls := [.v] }, b := { cls := [.v, .g] },
    c := { cls := [.m], opt := true }, types := tyVInt, immB := 0xffffffff, dstRead := .ifMask }
def Rows.vxor : Row :=
  { maj := 0x59, fn := .one 2, dst := { cls := [.v] }, a := { cls := [.v] }, b := { cls := [.v, .g] },
    c := { cls := [.m], opt := true }, types := tyVInt, immB := 0xffffffff, dstRead := .ifMask }
def Rows.vshl : Row :=
  { maj := 0x59, fn := .one 3, dst := { cls := [.v] }, a := { cls := [.v] }, b := { cls := [.v, .g] },
    c := { cls := [.m], opt := true }, types := tyVInt, immB := 0xffffffff, dstRead := .ifMask }
def Rows.vshr : Row :=
  { maj := 0x59, fn := .one 4, dst := { cls := [.v] }, a := { cls := [.v] }, b := { cls := [.v, .g] },
    c := { cls := [.m], opt := true }, types := tyVInt, immB := 0xffffffff, dstRead := .ifMask }
def Rows.vsra : Row :=
  { maj := 0x59, fn := .one 5, dst := { cls := [.v] }, a := { cls := [.v] }, b := { cls := [.v, .g] },
    c := { cls := [.m], opt := true }, types := tyVInt, immB := 0xffffffff, dstRead := .ifMask }
def Rows.vmin : Row :=
  { maj := 0x5a, fn := .one 0, dst := { cls := [.v] }, a := { cls := [.v] }, b := { cls := [.v, .g] },
    c := { cls := [.m], opt := true }, types := tyVInt, modA := true, modB := true, modI := true, immB := 0xffffffff,
    dstRead := .ifMask }
def Rows.vmax : Row :=
  { maj := 0x5a, fn := .one 1, dst := { cls := [.v] }, a := { cls := [.v] }, b := { cls := [.v, .g] },
    c := { cls := [.m], opt := true }, types := tyVInt, modA := true, modB := true, modI := true, immB := 0xffffffff,
    dstRead := .ifMask }
def Rows.vsel : Row :=
  { maj := 0x60, fn := .one 0, dst := { cls := [.v] }, a := { cls := [.v] }, b := { cls := [.v, .g] },
    c := { cls := [.m] }, types := tyLane, immB := 0xffffffff }
def Rows.vperm : Row :=
  { maj := 0x60, fn := .one 1, dst := { cls := [.v] }, a := { cls := [.v] }, b := { cls := [.v, .g] },
    c := { cls := [.m], opt := true }, types := tyLane, immB := 0x3f, dstRead := .ifMask }
def Rows.vbcast : Row :=
  { maj := 0x60, fn := .one 2, dst := { cls := [.v] }, a := { cls := [.g, .v] }, c := { cls := [.m], opt := true },
    types := tyLane, imm := 0x3f, dstRead := .ifMask }
def Rows.vext : Row :=
  { maj := 0x60, fn := .one 3, dst := { cls := [.g] }, a := { cls := [.v] }, types := tyLane, imm := 0x3f }
def Rows.vins : Row :=
  { maj := 0x60, fn := .one 4, dst := { cls := [.v] }, a := { cls := [.g] }, types := tyLane, imm := 0x3f,
    dstRead := .always }
def Rows.vredAdd : Row :=
  { maj := 0x61, fn := .one 0, dst := { cls := [.g] }, a := { cls := [.v] }, c := { cls := [.m], opt := true },
    types := tyVNum, modA := true, modF := true }
def Rows.vredMin : Row :=
  { maj := 0x61, fn := .one 1, dst := { cls := [.g] }, a := { cls := [.v] }, c := { cls := [.m], opt := true },
    types := tyVNum, modA := true, modF := true }
def Rows.vredMax : Row :=
  { maj := 0x61, fn := .one 2, dst := { cls := [.g] }, a := { cls := [.v] }, c := { cls := [.m], opt := true },
    types := tyVNum, modA := true, modF := true }
def Rows.vscan : Row :=
  { maj := 0x61, fn := .one 3, dst := { cls := [.v] }, a := { cls := [.v] }, c := { cls := [.m], opt := true },
    types := tyVNum, modA := true, modF := true, dstRead := .ifMask }
/-- The spec names no modifier for `vzpack` and `vexpand`: negate and absolute on A are reserved for their FP types too (log entry 48). -/
def Rows.vzpack : Row :=
  { maj := 0x62, fn := .one 0, dst := { cls := [.v] }, a := { cls := [.v] }, b := { cls := [.g] },
    c := { cls := [.m], opt := true }, types := tyPack, imm := 0x3f }
/-- As `Rows.vzpack`. -/
def Rows.vexpand : Row :=
  { maj := 0x62, fn := .one 1, dst := { cls := [.v] }, a := { cls := [.v] }, b := { cls := [.g] }, types := tyPack,
    immB := 0xffff }
def Rows.mand : Row :=
  { maj := 0x63, fn := .one 0, dst := { cls := [.m] }, a := { cls := [.m] }, b := { cls := [.m] } }
def Rows.mor : Row :=
  { maj := 0x63, fn := .one 1, dst := { cls := [.m] }, a := { cls := [.m] }, b := { cls := [.m] } }
def Rows.mnot : Row :=
  { maj := 0x63, fn := .one 2, dst := { cls := [.m] }, a := { cls := [.m] } }
def Rows.mpopc : Row :=
  { maj := 0x63, fn := .one 3, dst := { cls := [.g] }, a := { cls := [.m] }, types := tyLane }
def Rows.mffs : Row :=
  { maj := 0x63, fn := .one 4, dst := { cls := [.g] }, a := { cls := [.m] }, types := tyLane }
def Rows.fcvt : Row :=
  { maj := 0x70, fn := .rnd, dst := { cls := [.g] }, a := { cls := [.g] }, types := tyCvt, clamp := .cvt,
    modA := true, imm := 0x1f, extra := .cvt }
def Rows.vcvt : Row :=
  { maj := 0x71, fn := .rnd, dst := { cls := [.v] }, a := { cls := [.v] }, c := { cls := [.m], opt := true },
    types := tyLane, clamp := .cvt, modA := true, imm := 0x7f, dstRead := .cvt, extra := .cvt }
def Rows.vpack : Row :=
  { maj := 0x72, fn := .rnd, dst := { cls := [.v] }, a := { cls := [.v] }, b := { cls := [.g] },
    c := { cls := [.m], opt := true }, types := tyNf, modA := true, imm := 0x7f, dstRead := .always, extra := .pack }
def Rows.vunpack : Row :=
  { maj := 0x73, fn := .one 0, dst := { cls := [.v] }, a := { cls := [.v] }, b := { cls := [.g] },
    c := { cls := [.m], opt := true }, types := tyVFp, modA := true, imm := 0x7f, dstRead := .ifMask,
    extra := .unpack }
def Rows.vtsum : Row :=
  { maj := 0x74, fn := .rnd, dst := { cls := [.v] }, a := { cls := [.v, .g] }, c := { cls := [.m], opt := true },
    types := tyTsum, clamp := .tsum, modA := true, dstRead := .tsum, extra := .vtsum }
def Rows.ld : Row :=
  { maj := 0x80, fn := .one 0, dst := { cls := [.g] }, a := { cls := [.g] }, b := { cls := [.g] }, imm := 0xFFFFFFFF,
    types := tyMem, scope := true, hint := true, long := true }
def Rows.ldv : Row :=
  { maj := 0x80, fn := .one 1, dst := { cls := [.v] }, a := { cls := [.g] }, b := { cls := [.g] }, imm := 0xFFFFFFFF,
    types := tyLane, scope := true, hint := true, long := true }
def Rows.ldg : Row :=
  { maj := 0x80, fn := .one 2, dst := { cls := [.v] }, a := { cls := [.g] }, b := { cls := [.v] }, imm := 0xFFFFFFFF,
    types := tyGather, scope := true, hint := true, long := true }
def Rows.pf : Row :=
  { maj := 0x80, fn := .one 3, a := { cls := [.g] }, b := { cls := [.g] }, imm := 0xFFFFFFFF, hint := true }
def Rows.st : Row :=
  { maj := 0x81, fn := .one 0, dst := { cls := [.g] }, a := { cls := [.g] }, b := { cls := [.g] }, dstWrite := false,
    imm := 0xFFFFFFFF, types := tyMem, scope := true, hint := true }
def Rows.stv : Row :=
  { maj := 0x81, fn := .one 1, dst := { cls := [.v] }, a := { cls := [.g] }, b := { cls := [.g] }, dstWrite := false,
    imm := 0xFFFFFFFF, types := tyLane, scope := true, hint := true }
def Rows.stg : Row :=
  { maj := 0x81, fn := .one 2, dst := { cls := [.v] }, a := { cls := [.g] }, b := { cls := [.v] }, dstWrite := false,
    imm := 0xFFFFFFFF, types := tyGather, scope := true, hint := true }
def Rows.ldf : Row :=
  { maj := 0x88, fn := .one 0, dst := { cls := [.g] }, a := { cls := [.g] }, b := { cls := [.g] }, imm := 0xFFFFFFFF,
    types := tyMem, scope := true, hint := true, long := true }
def Rows.ldft : Row :=
  { maj := 0x88, fn := .one 1, dst := { cls := [.g] }, a := { cls := [.g] }, b := { cls := [.g] }, imm := 0xFFFFFFFF,
    types := tyMem, scope := true, hint := true, long := true, pidx := true }
def Rows.stf : Row :=
  { maj := 0x88, fn := .one 2, dst := { cls := [.g] }, a := { cls := [.g] }, b := { cls := [.g] }, dstWrite := false,
    imm := 0xFFFFFFFF, types := tyMem, scope := true, hint := true }
def Rows.clrf : Row :=
  { maj := 0x88, fn := .one 3, a := { cls := [.g] }, b := { cls := [.g] }, imm := 0xFFFFFFFF, scope := true,
    hint := true }
def Rows.copy : Row :=
  { maj := 0x8c, fn := .one 0, a := { cls := [.g] }, b := { cls := [.g] }, c := { cls := [.g] }, imm := 0x3f,
    scope := true }
def Rows.copyx : Row :=
  { maj := 0x8c, fn := .one 1, a := { cls := [.g] }, b := { cls := [.g] }, c := { cls := [.g] }, imm := 0x3f,
    scope := true }
def Rows.wany : Row :=
  { maj := 0x8d, fn := .one 0, dst := { cls := [.g] }, b := { cls := [.g] }, immB := 0xffffffff }
def Rows.wall : Row :=
  { maj := 0x8d, fn := .one 1, dst := { cls := [.g] }, b := { cls := [.g] }, immB := 0xffffffff }
def Rows.ffr : Row :=
  { maj := 0x8d, fn := .one 2, dst := { cls := [.g] }, b := { cls := [.g] }, immB := 0xffffffff }
def Rows.tagclr : Row :=
  { maj := 0x8d, fn := .one 3, b := { cls := [.g] }, immB := 0xffffffff }
def Rows.cleanR : Row :=
  { maj := 0x90, fn := .one 0, a := { cls := [.g] }, b := { cls := [.g] } }
def Rows.invR : Row :=
  { maj := 0x90, fn := .one 1, a := { cls := [.g] }, b := { cls := [.g] } }
def Rows.flushR : Row :=
  { maj := 0x90, fn := .one 2, a := { cls := [.g] }, b := { cls := [.g] } }
def Rows.fenceR : Row :=
  { maj := 0x94, fn := .one 0, scope := true }
def Rows.fenceW : Row :=
  { maj := 0x94, fn := .one 1, scope := true }
def Rows.fenceRw : Row :=
  { maj := 0x94, fn := .one 2, scope := true }
def Rows.fenceB : Row :=
  { maj := 0x94, fn := .one 3 }
def Rows.acq : Row :=
  { maj := 0x95, fn := .one 0, dst := { cls := [.g] }, a := { cls := [.g] }, b := { cls := [.g] }, imm := 0xFFFFFFFF,
    scope := true, long := true }
def Rows.acqs : Row :=
  { maj := 0x95, fn := .one 1, dst := { cls := [.g] }, a := { cls := [.g] }, b := { cls := [.g] }, imm := 0xFFFFFFFF,
    scope := true, long := true }
def Rows.rls : Row :=
  { maj := 0x95, fn := .one 2, a := { cls := [.g] }, b := { cls := [.g] }, imm := 0xFFFFFFFF, scope := true }
def Rows.sealR : Row :=
  { maj := 0x96, fn := .one 0, a := { cls := [.g] }, b := { cls := [.g] }, c := { cls := [.g] } }
def Rows.oadd : Row :=
  { maj := 0xa0, fn := .one 0, dst := { cls := [.g] }, a := { cls := [.g] }, b := { cls := [.g] }, types := tyO4,
    modB := true, imm := 0xfffffff, scope := true, pD := true, long := true, pidx := true, pair := true,
    extra := .two }
def Rows.omin : Row :=
  { maj := 0xa0, fn := .one 1, dst := { cls := [.g] }, a := { cls := [.g] }, b := { cls := [.g] }, types := tyO4,
    modB := true, imm := 0xfffffff, scope := true, pD := true, long := true, pidx := true, pair := true,
    extra := .two }
def Rows.omax : Row :=
  { maj := 0xa0, fn := .one 2, dst := { cls := [.g] }, a := { cls := [.g] }, b := { cls := [.g] }, types := tyO4,
    modB := true, imm := 0xfffffff, scope := true, pD := true, long := true, pidx := true, pair := true,
    extra := .two }
def Rows.oand : Row :=
  { maj := 0xa0, fn := .one 3, dst := { cls := [.g] }, a := { cls := [.g] }, b := { cls := [.g] }, types := tyO2,
    modB := true, imm := 0xfffffff, scope := true, pD := true, long := true, pidx := true, pair := true,
    extra := .two }
def Rows.oor : Row :=
  { maj := 0xa0, fn := .one 4, dst := { cls := [.g] }, a := { cls := [.g] }, b := { cls := [.g] }, types := tyO2,
    modB := true, imm := 0xfffffff, scope := true, pD := true, long := true, pidx := true, pair := true,
    extra := .two }
def Rows.oxor : Row :=
  { maj := 0xa0, fn := .one 5, dst := { cls := [.g] }, a := { cls := [.g] }, b := { cls := [.g] }, types := tyO2,
    modB := true, imm := 0xfffffff, scope := true, pD := true, long := true, pidx := true, pair := true,
    extra := .two }
def Rows.oswp : Row :=
  { maj := 0xa0, fn := .one 6, dst := { cls := [.g] }, a := { cls := [.g] }, b := { cls := [.g] }, types := tyO2,
    modB := true, imm := 0xfffffff, scope := true, pD := true, long := true, pidx := true, pair := true,
    extra := .two }
def Rows.ocas : Row :=
  { maj := 0xa0, fn := .one 7, dst := { cls := [.g] }, a := { cls := [.g] }, b := { cls := [.g] },
    c := { cls := [.g] }, types := tyO2, modB := true, modC := true, imm := 0xfffffff, scope := true, pD := true,
    long := true, pidx := true, pair := true, extra := .two }
def Rows.oaddNt : Row :=
  { maj := 0xa0, fn := .one 8, dst := { cls := [.g] }, a := { cls := [.g] }, b := { cls := [.g] }, types := tyO4,
    modB := true, imm := 0xfffffff, scope := true, pD := true, long := true, pidx := true, pair := true,
    extra := .two }
def Rows.ominNt : Row :=
  { maj := 0xa0, fn := .one 9, dst := { cls := [.g] }, a := { cls := [.g] }, b := { cls := [.g] }, types := tyO4,
    modB := true, imm := 0xfffffff, scope := true, pD := true, long := true, pidx := true, pair := true,
    extra := .two }
def Rows.omaxNt : Row :=
  { maj := 0xa0, fn := .one 10, dst := { cls := [.g] }, a := { cls := [.g] }, b := { cls := [.g] }, types := tyO4,
    modB := true, imm := 0xfffffff, scope := true, pD := true, long := true, pidx := true, pair := true,
    extra := .two }
def Rows.oandNt : Row :=
  { maj := 0xa0, fn := .one 11, dst := { cls := [.g] }, a := { cls := [.g] }, b := { cls := [.g] }, types := tyO2,
    modB := true, imm := 0xfffffff, scope := true, pD := true, long := true, pidx := true, pair := true,
    extra := .two }
def Rows.oorNt : Row :=
  { maj := 0xa0, fn := .one 12, dst := { cls := [.g] }, a := { cls := [.g] }, b := { cls := [.g] }, types := tyO2,
    modB := true, imm := 0xfffffff, scope := true, pD := true, long := true, pidx := true, pair := true,
    extra := .two }
def Rows.oxorNt : Row :=
  { maj := 0xa0, fn := .one 13, dst := { cls := [.g] }, a := { cls := [.g] }, b := { cls := [.g] }, types := tyO2,
    modB := true, imm := 0xfffffff, scope := true, pD := true, long := true, pidx := true, pair := true,
    extra := .two }
def Rows.oswpNt : Row :=
  { maj := 0xa0, fn := .one 14, dst := { cls := [.g] }, a := { cls := [.g] }, b := { cls := [.g] }, types := tyO2,
    modB := true, imm := 0xfffffff, scope := true, pD := true, long := true, pidx := true, pair := true,
    extra := .two }
def Rows.ocasNt : Row :=
  { maj := 0xa0, fn := .one 15, dst := { cls := [.g] }, a := { cls := [.g] }, b := { cls := [.g] },
    c := { cls := [.g] }, types := tyO2, modB := true, modC := true, imm := 0xfffffff, scope := true, pD := true,
    long := true, pidx := true, pair := true, extra := .two }
def Rows.ofadd : Row :=
  { maj := 0xa1, fn := .one 0, dst := { cls := [.g] }, a := { cls := [.g] }, b := { cls := [.g] }, types := tyOF,
    modB := true, imm := 0xfffffff, scope := true, pD := true, long := true, pidx := true, pair := true,
    extra := .two }
def Rows.ofmin : Row :=
  { maj := 0xa1, fn := .one 1, dst := { cls := [.g] }, a := { cls := [.g] }, b := { cls := [.g] }, types := tyOF,
    modB := true, imm := 0xfffffff, scope := true, pD := true, long := true, pidx := true, pair := true,
    extra := .two }
def Rows.ofmax : Row :=
  { maj := 0xa1, fn := .one 2, dst := { cls := [.g] }, a := { cls := [.g] }, b := { cls := [.g] }, types := tyOF,
    modB := true, imm := 0xfffffff, scope := true, pD := true, long := true, pidx := true, pair := true,
    extra := .two }
def Rows.offma : Row :=
  { maj := 0xa1, fn := .one 3, dst := { cls := [.g] }, a := { cls := [.g] }, b := { cls := [.g] },
    c := { cls := [.g] }, types := tyOF, modB := true, modC := true, imm := 0xfffffff, scope := true, pD := true,
    long := true, pidx := true, pair := true, extra := .two }
def Rows.ored : Row :=
  { maj := 0xa1, fn := .one 4, dst := { cls := [.v] }, a := { cls := [.g] }, b := { cls := [.v] }, types := tyRed,
    modB := true, imm := 0xfffffff, scope := true, pD := true, long := true, pidx := true, pair := true,
    extra := .two }
def Rows.ofaddNt : Row :=
  { maj := 0xa1, fn := .one 8, dst := { cls := [.g] }, a := { cls := [.g] }, b := { cls := [.g] }, types := tyOF,
    modB := true, imm := 0xfffffff, scope := true, pD := true, long := true, pidx := true, pair := true,
    extra := .two }
def Rows.ofminNt : Row :=
  { maj := 0xa1, fn := .one 9, dst := { cls := [.g] }, a := { cls := [.g] }, b := { cls := [.g] }, types := tyOF,
    modB := true, imm := 0xfffffff, scope := true, pD := true, long := true, pidx := true, pair := true,
    extra := .two }
def Rows.ofmaxNt : Row :=
  { maj := 0xa1, fn := .one 10, dst := { cls := [.g] }, a := { cls := [.g] }, b := { cls := [.g] }, types := tyOF,
    modB := true, imm := 0xfffffff, scope := true, pD := true, long := true, pidx := true, pair := true,
    extra := .two }
def Rows.offmaNt : Row :=
  { maj := 0xa1, fn := .one 11, dst := { cls := [.g] }, a := { cls := [.g] }, b := { cls := [.g] },
    c := { cls := [.g] }, types := tyOF, modB := true, modC := true, imm := 0xfffffff, scope := true, pD := true,
    long := true, pidx := true, pair := true, extra := .two }
def Rows.oredNt : Row :=
  { maj := 0xa1, fn := .one 12, dst := { cls := [.v] }, a := { cls := [.g] }, b := { cls := [.v] }, types := tyRed,
    modB := true, imm := 0xfffffff, scope := true, pD := true, long := true, pidx := true, pair := true,
    extra := .two }
def Rows.ocmt : Row :=
  { maj := 0xa2, fn := .one 0, dst := { cls := [.g, .v] }, a := { cls := [.g] }, b := { cls := [.g, .v] },
    types := tyCmt, modB := true, imm := 0xfffffff, scope := true, pD := true, long := true, pidx := true,
    dstRead := .always, pair := true, extra := .ocmt }
def Rows.oabn : Row :=
  { maj := 0xa2, fn := .one 1, a := { cls := [.g] }, b := { cls := [.g] }, imm := 0xfffffff }
def Rows.barv : Row :=
  { maj := 0xb0, fn := .one 0, dst := { cls := [.g] }, imm := 0xff, scope := true, long := true }
def Rows.bwait : Row :=
  { maj := 0xb0, fn := .one 1, a := { cls := [.g] }, scope := true }
def Rows.btest : Row :=
  { maj := 0xb0, fn := .one 2, a := { cls := [.g] }, long := true, pidx := true }
def Rows.grpq : Row :=
  { maj := 0xb1, fn := .one 0, dst := { cls := [.g] }, imm := 0x7ffff, long := true, extra := .grpq }
def Rows.send : Row :=
  { maj := 0xb2, fn := .one 0, a := { cls := [.g] }, b := { cls := [.v] }, scope := true }
def Rows.sendt : Row :=
  { maj := 0xb2, fn := .one 1, dst := { cls := [.g] }, a := { cls := [.g] }, b := { cls := [.v] }, scope := true,
    long := true, pidx := true }
def Rows.recv : Row :=
  { maj := 0xb2, fn := .one 2, dst := { cls := [.v] }, b := { cls := [.g] }, imm := 0x7, long := true }
def Rows.recvt : Row :=
  { maj := 0xb2, fn := .one 3, dst := { cls := [.v] }, b := { cls := [.g] }, imm := 0x7, long := true, pidx := true }
def Rows.deleg : Row :=
  { maj := 0xb3, fn := .one 0, dst := { cls := [.g] }, a := { cls := [.g] }, b := { cls := [.g] },
    c := { cls := [.g] }, imm := 0x7, scope := true, pD := true, long := true, pidx := true, pair := true,
    extra := .deleg }
def Rows.delegt : Row :=
  { maj := 0xb3, fn := .one 1, dst := { cls := [.g] }, a := { cls := [.g] }, b := { cls := [.g] },
    c := { cls := [.g] }, imm := 0x7, scope := true, pD := true, long := true, pidx := true, pair := true,
    extra := .deleg }
def Rows.dret : Row :=
  { maj := 0xb3, fn := .one 2, b := { cls := [.g] } }
def Rows.rpt : Row :=
  { maj := 0xc0, fn := .one 0, a := { cls := [.g] }, imm := 0xfffff, extra := .rpt }
def Rows.gslot : Row :=
  { maj := 0xc1, fn := .one 0, imm := 0x1f, extra := .gslot }
def Rows.gset : Row :=
  { maj := 0xc1, fn := .one 1, b := { cls := [.p] }, imm := 0xf }
def Rows.ecmd : Row :=
  { maj := 0xc2, fn := .one 0, dst := { cls := [.g] }, a := { cls := [.g] }, b := { cls := [.g] }, long := true,
    pidx := true }
def Rows.mcap : Row :=
  { maj := 0xd0, fn := .one 0, dst := { cls := [.g] }, imm := 0xff }
def Rows.mfmt : Row :=
  { maj := 0xd0, fn := .one 1, a := { cls := [.g] }, b := { cls := [.g] } }
def Rows.mldb : Row :=
  { maj := 0xd1, fn := .one 0, a := { cls := [.g] }, b := { cls := [.g] }, c := { cls := [.g] } }
def Rows.mrow : Row :=
  { maj := 0xd1, fn := .one 1, a := { cls := [.g] }, b := { cls := [.g] }, c := { cls := [.g] }, types := tyMatA,
    imm := 0x3 }
def Rows.mnz : Row :=
  { maj := 0xd1, fn := .one 2, a := { cls := [.g] }, b := { cls := [.v] }, c := { cls := [.g] }, types := tyMatA }
def Rows.mclr : Row :=
  { maj := 0xd2, fn := .one 0, a := { cls := [.g] } }
def Rows.mrd : Row :=
  { maj := 0xd2, fn := .one 1, dst := { cls := [.v] }, a := { cls := [.g] }, b := { cls := [.g] }, types := tyTsum,
    imm := 0x7, long := true, extra := .mrd }
def Rows.msave : Row :=
  { maj := 0xd3, fn := .one 0, a := { cls := [.g] } }
def Rows.mrest : Row :=
  { maj := 0xd3, fn := .one 1, a := { cls := [.g] }, b := { cls := [.g] } }
def Rows.mwait : Row :=
  { maj := 0xd3, fn := .one 2, dst := { cls := [.g] }, a := { cls := [.g] }, b := { cls := [.g] }, imm := 0x1,
    pidx := true }
def Rows.ecomb : Row :=
  { maj := 0xe0, fn := .one 0, b := { cls := [.g] }, types := tyComb, imm := 0x1 }
def Rows.eact : Row :=
  { maj := 0xe0, fn := .one 1, a := { cls := [.g] }, b := { cls := [.g] }, imm := 0x1 }
def Rows.dqpush : Row :=
  { maj := 0xe1, fn := .one 0, b := { cls := [.g] }, c := { cls := [.g] } }
def Rows.dqpop : Row :=
  { maj := 0xe1, fn := .one 1, dst := { cls := [.g] }, pidx := true, pair := true, extra := .twoG }
def Rows.dqsplit : Row :=
  { maj := 0xe1, fn := .one 2, dst := { cls := [.g] }, b := { cls := [.g] }, pidx := true, pair := true,
    extra := .twoG }
def Rows.dqsteal : Row :=
  { maj := 0xe1, fn := .one 3, dst := { cls := [.g] }, a := { cls := [.g] }, long := true, pidx := true,
    pair := true, extra := .twoG }
def Rows.amsg : Row :=
  { maj := 0xe2, fn := .one 0, a := { cls := [.g] }, b := { cls := [.g] }, c := { cls := [.g] }, imm := 0xff,
    scope := true, extra := .amsg }
def Rows.gath : Row :=
  { maj := 0xe2, fn := .one 1, b := { cls := [.g] }, imm := 0x3f }
def Rows.scat : Row :=
  { maj := 0xe2, fn := .one 2, b := { cls := [.g] }, imm := 0x3f, scope := true }
def Rows.ijob : Row :=
  { maj := 0xe2, fn := .one 3, dst := { cls := [.g] }, b := { cls := [.g] }, long := true }
def Rows.bcall : Row :=
  { maj := 0xe8, fn := .one 0, dst := { cls := [.g, .v] }, a := { cls := [.g] }, b := { cls := [.g] },
    c := { cls := [.g] }, imm := 0xf, pD := true, long := true, pidx := true, pair := true, extra := .two }
def Rows.hret : Row :=
  { maj := 0xe9, fn := .one 0, b := { cls := [.g, .v] } }
def Rows.hrow : Row :=
  { maj := 0xe9, fn := .one 1, dst := { cls := [.v] }, a := { cls := [.g] }, imm := 0xffff }
def Rows.hwr : Row :=
  { maj := 0xe9, fn := .one 2, a := { cls := [.g] }, b := { cls := [.v] }, imm := 0xffff }
def Rows.trap : Row :=
  { maj := 0xf0, fn := .one 0, imm := 0xffffffff, extra := .trap }
def Rows.eret : Row :=
  { maj := 0xf0, fn := .one 1, imm := 0x7, priv := true }
def Rows.sysr : Row :=
  { maj := 0xf1, fn := .one 0, dst := { cls := [.g] }, imm := 0xfff }
def Rows.sysw : Row :=
  { maj := 0xf1, fn := .one 1, a := { cls := [.g] }, imm := 0xfff }
def Rows.yieldT : Row :=
  { maj := 0xf2, fn := .one 0 }
def Rows.drain : Row :=
  { maj := 0xf2, fn := .one 1 }
def Rows.sfqpop : Row :=
  { maj := 0xf2, fn := .one 2, dst := { cls := [.v] }, priv := true, extra := .sfqpop }
def Rows.kill : Row :=
  { maj := 0xf2, fn := .one 3, imm := 0x1ff, priv := true, extra := .kill }
def Rows.tlbinv : Row :=
  { maj := 0xf3, fn := .one 0, a := { cls := [.g] }, imm := 0x1f, priv := true, extra := .tlbinv }
def Rows.tlbsync : Row :=
  { maj := 0xf3, fn := .one 1, priv := true }
def Rows.vabort : Row :=
  { maj := 0xf4, fn := .one 0, imm := 0x1 }
def Rows.wfe : Row :=
  { maj := 0xf4, fn := .one 1, dst := { cls := [.g] }, a := { cls := [.g] }, imm := 0x1f }

/-- The fields of an instruction in its format. -/
inductive Flds where
  | a (o : OpA)
  | p (o : OpP)
  | m (o : OpM)
  | b (o : OpB)
  | e (o : OpE)
  | s (o : OpS)
  deriving DecidableEq, Repr

/-- The row and the fields of an instruction that has a word of its own; command blocks and events have none. -/
def Instr.info : Instr → Option (Row × Flds)
  | .add o => some (Rows.add, .a o)
  | .sub o => some (Rows.sub, .a o)
  | .madd o => some (Rows.madd, .a o)
  | .mul o => some (Rows.mul, .a o)
  | .mulh o => some (Rows.mulh, .a o)
  | .mulhn o => some (Rows.mulhn, .a o)
  | .div o => some (Rows.div, .a o)
  | .divn o => some (Rows.divn, .a o)
  | .rem o => some (Rows.rem, .a o)
  | .remn o => some (Rows.remn, .a o)
  | .and o => some (Rows.and, .a o)
  | .or o => some (Rows.or, .a o)
  | .xor o => some (Rows.xor, .a o)
  | .andn o => some (Rows.andn, .a o)
  | .shl o => some (Rows.shl, .a o)
  | .shr o => some (Rows.shr, .a o)
  | .sra o => some (Rows.sra, .a o)
  | .rol o => some (Rows.rol, .a o)
  | .ror o => some (Rows.ror, .a o)
  | .min o => some (Rows.min, .a o)
  | .max o => some (Rows.max, .a o)
  | .minn o => some (Rows.minn, .a o)
  | .maxn o => some (Rows.maxn, .a o)
  | .clz o => some (Rows.clz, .a o)
  | .ctz o => some (Rows.ctz, .a o)
  | .popc o => some (Rows.popc, .a o)
  | .bext o => some (Rows.bext, .a o)
  | .bdep o => some (Rows.bdep, .a o)
  | .sel o => some (Rows.sel, .a o)
  | .mov o => some (Rows.mov, .a o)
  | .movi o => some (Rows.movi, .a o)
  | .movh o => some (Rows.movh, .a o)
  | .lea o => some (Rows.lea, .m o)
  | .nop o => some (Rows.nop, .s o)
  | .brk o => some (Rows.brk, .s o)
  | .br o => some (Rows.br, .b o)
  | .jmp o => some (Rows.jmp, .b o)
  | .call o => some (Rows.call, .b o)
  | .ret o => some (Rows.ret, .b o)
  | .jr o => some (Rows.jr, .b o)
  | .loop o => some (Rows.loop, .b o)
  | .done o => some (Rows.done, .s o)
  | .doneExit o => some (Rows.doneExit, .s o)
  | .cmp o => some (Rows.cmp, .p o)
  | .fcmp o => some (Rows.fcmp, .p o)
  | .pand o => some (Rows.pand, .p o)
  | .por o => some (Rows.por, .p o)
  | .pxor o => some (Rows.pxor, .p o)
  | .pnot o => some (Rows.pnot, .p o)
  | .pmov o => some (Rows.pmov, .p o)
  | .ptst o => some (Rows.ptst, .p o)
  | .vcmp o => some (Rows.vcmp, .a o)
  | .vfcmp o => some (Rows.vfcmp, .a o)
  | .fadd o => some (Rows.fadd, .a o)
  | .fsub o => some (Rows.fsub, .a o)
  | .fmul o => some (Rows.fmul, .a o)
  | .ffma o => some (Rows.ffma, .a o)
  | .fdiv o => some (Rows.fdiv, .a o)
  | .fsqrt o => some (Rows.fsqrt, .a o)
  | .frcp o => some (Rows.frcp, .a o)
  | .frsq o => some (Rows.frsq, .a o)
  | .fexp2 o => some (Rows.fexp2, .a o)
  | .flog2 o => some (Rows.flog2, .a o)
  | .fmin o => some (Rows.fmin, .a o)
  | .fmax o => some (Rows.fmax, .a o)
  | .fclass o => some (Rows.fclass, .a o)
  | .vfadd o => some (Rows.vfadd, .a o)
  | .vfsub o => some (Rows.vfsub, .a o)
  | .vfmul o => some (Rows.vfmul, .a o)
  | .vffma o => some (Rows.vffma, .a o)
  | .vfdiv o => some (Rows.vfdiv, .a o)
  | .vfsqrt o => some (Rows.vfsqrt, .a o)
  | .vfrcp o => some (Rows.vfrcp, .a o)
  | .vfmin o => some (Rows.vfmin, .a o)
  | .vfmax o => some (Rows.vfmax, .a o)
  | .vadd o => some (Rows.vadd, .a o)
  | .vsub o => some (Rows.vsub, .a o)
  | .vmul o => some (Rows.vmul, .a o)
  | .vmulh o => some (Rows.vmulh, .a o)
  | .vmadd o => some (Rows.vmadd, .a o)
  | .vand o => some (Rows.vand, .a o)
  | .vor o => some (Rows.vor, .a o)
  | .vxor o => some (Rows.vxor, .a o)
  | .vshl o => some (Rows.vshl, .a o)
  | .vshr o => some (Rows.vshr, .a o)
  | .vsra o => some (Rows.vsra, .a o)
  | .vmin o => some (Rows.vmin, .a o)
  | .vmax o => some (Rows.vmax, .a o)
  | .vsel o => some (Rows.vsel, .a o)
  | .vperm o => some (Rows.vperm, .a o)
  | .vbcast o => some (Rows.vbcast, .a o)
  | .vext o => some (Rows.vext, .a o)
  | .vins o => some (Rows.vins, .a o)
  | .vredAdd o => some (Rows.vredAdd, .a o)
  | .vredMin o => some (Rows.vredMin, .a o)
  | .vredMax o => some (Rows.vredMax, .a o)
  | .vscan o => some (Rows.vscan, .a o)
  | .vzpack o => some (Rows.vzpack, .a o)
  | .vexpand o => some (Rows.vexpand, .a o)
  | .mand o => some (Rows.mand, .a o)
  | .mor o => some (Rows.mor, .a o)
  | .mnot o => some (Rows.mnot, .a o)
  | .mpopc o => some (Rows.mpopc, .a o)
  | .mffs o => some (Rows.mffs, .a o)
  | .fcvt o => some (Rows.fcvt, .a o)
  | .vcvt o => some (Rows.vcvt, .a o)
  | .vpack o => some (Rows.vpack, .a o)
  | .vunpack o => some (Rows.vunpack, .a o)
  | .vtsum o => some (Rows.vtsum, .a o)
  | .ld o => some (Rows.ld, .m o)
  | .ldv o => some (Rows.ldv, .m o)
  | .ldg o => some (Rows.ldg, .m o)
  | .pf o => some (Rows.pf, .m o)
  | .st o => some (Rows.st, .m o)
  | .stv o => some (Rows.stv, .m o)
  | .stg o => some (Rows.stg, .m o)
  | .ldf o => some (Rows.ldf, .m o)
  | .ldft o => some (Rows.ldft, .m o)
  | .stf o => some (Rows.stf, .m o)
  | .clrf o => some (Rows.clrf, .m o)
  | .copy o => some (Rows.copy, .e o)
  | .copyx o => some (Rows.copyx, .e o)
  | .wany o => some (Rows.wany, .a o)
  | .wall o => some (Rows.wall, .a o)
  | .ffr o => some (Rows.ffr, .a o)
  | .tagclr o => some (Rows.tagclr, .a o)
  | .cleanR o => some (Rows.cleanR, .e o)
  | .invR o => some (Rows.invR, .e o)
  | .flushR o => some (Rows.flushR, .e o)
  | .fenceR o => some (Rows.fenceR, .m o)
  | .fenceW o => some (Rows.fenceW, .m o)
  | .fenceRw o => some (Rows.fenceRw, .m o)
  | .fenceB o => some (Rows.fenceB, .m o)
  | .acq o => some (Rows.acq, .m o)
  | .acqs o => some (Rows.acqs, .m o)
  | .rls o => some (Rows.rls, .m o)
  | .sealR o => some (Rows.sealR, .e o)
  | .oadd o => some (Rows.oadd, .e o)
  | .omin o => some (Rows.omin, .e o)
  | .omax o => some (Rows.omax, .e o)
  | .oand o => some (Rows.oand, .e o)
  | .oor o => some (Rows.oor, .e o)
  | .oxor o => some (Rows.oxor, .e o)
  | .oswp o => some (Rows.oswp, .e o)
  | .ocas o => some (Rows.ocas, .e o)
  | .oaddNt o => some (Rows.oaddNt, .e o)
  | .ominNt o => some (Rows.ominNt, .e o)
  | .omaxNt o => some (Rows.omaxNt, .e o)
  | .oandNt o => some (Rows.oandNt, .e o)
  | .oorNt o => some (Rows.oorNt, .e o)
  | .oxorNt o => some (Rows.oxorNt, .e o)
  | .oswpNt o => some (Rows.oswpNt, .e o)
  | .ocasNt o => some (Rows.ocasNt, .e o)
  | .ofadd o => some (Rows.ofadd, .e o)
  | .ofmin o => some (Rows.ofmin, .e o)
  | .ofmax o => some (Rows.ofmax, .e o)
  | .offma o => some (Rows.offma, .e o)
  | .ored o => some (Rows.ored, .e o)
  | .ofaddNt o => some (Rows.ofaddNt, .e o)
  | .ofminNt o => some (Rows.ofminNt, .e o)
  | .ofmaxNt o => some (Rows.ofmaxNt, .e o)
  | .offmaNt o => some (Rows.offmaNt, .e o)
  | .oredNt o => some (Rows.oredNt, .e o)
  | .ocmt o => some (Rows.ocmt, .e o)
  | .oabn o => some (Rows.oabn, .e o)
  | .barv o => some (Rows.barv, .e o)
  | .bwait o => some (Rows.bwait, .e o)
  | .btest o => some (Rows.btest, .e o)
  | .grpq o => some (Rows.grpq, .e o)
  | .send o => some (Rows.send, .e o)
  | .sendt o => some (Rows.sendt, .e o)
  | .recv o => some (Rows.recv, .e o)
  | .recvt o => some (Rows.recvt, .e o)
  | .deleg o => some (Rows.deleg, .e o)
  | .delegt o => some (Rows.delegt, .e o)
  | .dret o => some (Rows.dret, .e o)
  | .rpt o => some (Rows.rpt, .e o)
  | .gslot o => some (Rows.gslot, .e o)
  | .gset o => some (Rows.gset, .e o)
  | .ecmd o => some (Rows.ecmd, .e o)
  | .vetchRun _ => none
  | .vetchStop _ => none
  | .ecmdMatrix _ => none
  | .mcap o => some (Rows.mcap, .e o)
  | .mfmt o => some (Rows.mfmt, .e o)
  | .mldb o => some (Rows.mldb, .e o)
  | .mrow o => some (Rows.mrow, .e o)
  | .mnz o => some (Rows.mnz, .e o)
  | .mclr o => some (Rows.mclr, .e o)
  | .mrd o => some (Rows.mrd, .e o)
  | .msave o => some (Rows.msave, .e o)
  | .mrest o => some (Rows.mrest, .e o)
  | .mwait o => some (Rows.mwait, .e o)
  | .ecomb o => some (Rows.ecomb, .e o)
  | .eact o => some (Rows.eact, .e o)
  | .dqpush o => some (Rows.dqpush, .e o)
  | .dqpop o => some (Rows.dqpop, .e o)
  | .dqsplit o => some (Rows.dqsplit, .e o)
  | .dqsteal o => some (Rows.dqsteal, .e o)
  | .amsg o => some (Rows.amsg, .e o)
  | .gath o => some (Rows.gath, .e o)
  | .scat o => some (Rows.scat, .e o)
  | .ijob o => some (Rows.ijob, .e o)
  | .bcall o => some (Rows.bcall, .e o)
  | .hret o => some (Rows.hret, .e o)
  | .hrow o => some (Rows.hrow, .e o)
  | .hwr o => some (Rows.hwr, .e o)
  | .trap o => some (Rows.trap, .s o)
  | .eret o => some (Rows.eret, .s o)
  | .sysr o => some (Rows.sysr, .s o)
  | .sysw o => some (Rows.sysw, .s o)
  | .yieldT o => some (Rows.yieldT, .s o)
  | .drain o => some (Rows.drain, .s o)
  | .sfqpop o => some (Rows.sfqpop, .s o)
  | .kill o => some (Rows.kill, .s o)
  | .tlbinv o => some (Rows.tlbinv, .s o)
  | .tlbsync o => some (Rows.tlbsync, .s o)
  | .vabort o => some (Rows.vabort, .s o)
  | .wfe o => some (Rows.wfe, .s o)
  | .issueCycle _ => none
  | .fetchParityRefetch _ _ => none
  | .longResultArrival _ _ => none
  | .offerReply _ _ => none
  | .parityReplay _ _ => none
  | .storeResolve _ _ => none
  | .ageLimitExpiry _ => none
  | .footprintFill _ => none
  | .taskDispatch _ => none
  | .actorMessageArrival _ _ => none
  | .heldDeliveryRetry _ _ _ => none
  | .actorSwapOut _ _ => none
  | .actorSwapIn _ _ => none
  | .delegationRequest _ => none
  | .slotAdvertisement _ => none
  | .teamMigration _ _ _ => none
  | .teamAccept _ => none
  | .launchCompletion _ => none
  | .completionFlush _ => none
  | .pageRecall _ => none
  | .rdcWriteThrough _ _ => none
  | .ldfWake _ _ => none
  | .ldfRepoll _ _ => none
  | .copyCompletion _ _ => none
  | .guardGrant _ => none
  | .leaseExpiry _ => none
  | .sealNotice _ => none
  | .handlerActivation _ => none
  | .handlerOverrun _ => none
  | .debugHalt _ _ => none
  | .debugStep _ _ => none
  | .evtset _ => none
  | .wfeTimeout _ => none
  | .killComplete _ => none
  | .errorRetry _ _ => none
  | .matrixCommandArrival _ => none
  | .slabFullWait _ => none
  | .rowClose _ => none
  | .spillReplay _ => none
  | .hardwareSave _ => none
  | .hardwareRestore _ => none
  | .mwaitQuery _ => none
  | .engineTimeout _ => none
  | .macroParity _ _ _ => none
  | .roundStart _ => none
  | .roundEnd _ => none
  | .setEnd _ => none
  | .engineFault _ => none
  | .indexElement _ _ => none
  | .sorrelHandler _ => none
  | .hBound _ => none
  | .tempRefresh _ _ _ => none
  | .doorbell _ _ _ => none
  | .recordConsume _ => none
  | .launchFormation _ => none
  | .dependenceMet _ => none
  | .abort _ => none
  | .pageWalk _ _ _ => none
  | .storageService _ _ => none
  | .nvmeCompletion _ _ _ => none
  | .storageTimeout _ _ => none
  | .evictionRun _ => none
  | .notresDecline _ _ => none
  | .ownershipWrite _ _ _ _ => none
  | .keyWrite _ _ _ _ => none
  | .scrubComplete _ => none
  | .hostAcq _ _ => none
  | .hostAcqs _ _ => none
  | .hostRls _ _ => none
  | .hostTlbinv _ _ _ => none
  | .fullStart => none
  | .mlayout _ _ => none
  | .dieJoin _ _ => none
  | .cowslipVerify => none
  | .recoveryImage _ => none
  | .throttleStepDown => none
  | .throttleStepUp => none
  | .thermalTrip => none
  | .pcieInbound _ _ _ => none
  | .peroldInbound _ _ _ => none
  | .registerWrite _ _ _ _ => none
  | .tlbinvCompletion _ => none
  | .yarrowHartAccess _ _ => none
  | .pcieCompletionTimeout _ _ => none

/-- How a row makes an instruction of its fields. -/
inductive Mk where
  | a (mk : OpA → Instr)
  | p (mk : OpP → Instr)
  | m (mk : OpM → Instr)
  | b (mk : OpB → Instr)
  | e (mk : OpE → Instr)
  | s (mk : OpS → Instr)

/-- The opcode map (R78): major and function to the row. Every pair not listed is unassigned. -/
def opcode : Nat → Nat → Option (Row × Mk)
  | 0x01, 0 => some (Rows.add, .a .add)
  | 0x01, 1 => some (Rows.sub, .a .sub)
  | 0x01, 2 => some (Rows.madd, .a .madd)
  | 0x02, 0 => some (Rows.mul, .a .mul)
  | 0x02, 1 => some (Rows.mulh, .a .mulh)
  | 0x02, 2 => some (Rows.mulhn, .a .mulhn)
  | 0x03, 0 => some (Rows.div, .a .div)
  | 0x03, 1 => some (Rows.divn, .a .divn)
  | 0x03, 2 => some (Rows.rem, .a .rem)
  | 0x03, 3 => some (Rows.remn, .a .remn)
  | 0x04, 0 => some (Rows.and, .a .and)
  | 0x04, 1 => some (Rows.or, .a .or)
  | 0x04, 2 => some (Rows.xor, .a .xor)
  | 0x04, 3 => some (Rows.andn, .a .andn)
  | 0x05, 0 => some (Rows.shl, .a .shl)
  | 0x05, 1 => some (Rows.shr, .a .shr)
  | 0x05, 2 => some (Rows.sra, .a .sra)
  | 0x05, 3 => some (Rows.rol, .a .rol)
  | 0x05, 4 => some (Rows.ror, .a .ror)
  | 0x06, 0 => some (Rows.min, .a .min)
  | 0x06, 1 => some (Rows.max, .a .max)
  | 0x06, 2 => some (Rows.minn, .a .minn)
  | 0x06, 3 => some (Rows.maxn, .a .maxn)
  | 0x07, 0 => some (Rows.clz, .a .clz)
  | 0x07, 1 => some (Rows.ctz, .a .ctz)
  | 0x07, 2 => some (Rows.popc, .a .popc)
  | 0x08, 0 => some (Rows.bext, .a .bext)
  | 0x08, 1 => some (Rows.bdep, .a .bdep)
  | 0x09, 0 => some (Rows.sel, .a .sel)
  | 0x09, 1 => some (Rows.mov, .a .mov)
  | 0x0a, 0 => some (Rows.movi, .a .movi)
  | 0x0a, 1 => some (Rows.movh, .a .movh)
  | 0x0b, 0 => some (Rows.lea, .m .lea)
  | 0x20, 0 => some (Rows.nop, .s .nop)
  | 0x20, 1 => some (Rows.brk, .s .brk)
  | 0x21, 0 => some (Rows.br, .b .br)
  | 0x21, 1 => some (Rows.jmp, .b .jmp)
  | 0x22, 0 => some (Rows.call, .b .call)
  | 0x22, 1 => some (Rows.ret, .b .ret)
  | 0x23, 0 => some (Rows.jr, .b .jr)
  | 0x24, 0 => some (Rows.loop, .b .loop)
  | 0x25, 0 => some (Rows.done, .s .done)
  | 0x25, 1 => some (Rows.doneExit, .s .doneExit)
  | 0x30, 0 | 0x30, 1 | 0x30, 2 | 0x30, 3 | 0x30, 4 | 0x30, 5 => some (Rows.cmp, .p .cmp)
  | 0x31, 0 | 0x31, 1 | 0x31, 2 | 0x31, 3 | 0x31, 4 | 0x31, 5 | 0x31, 6 | 0x31, 7 => some (Rows.fcmp, .p .fcmp)
  | 0x32, 0 => some (Rows.pand, .p .pand)
  | 0x32, 1 => some (Rows.por, .p .por)
  | 0x32, 2 => some (Rows.pxor, .p .pxor)
  | 0x32, 3 => some (Rows.pnot, .p .pnot)
  | 0x32, 4 => some (Rows.pmov, .p .pmov)
  | 0x32, 5 => some (Rows.ptst, .p .ptst)
  | 0x33, 0 | 0x33, 1 | 0x33, 2 | 0x33, 3 | 0x33, 4 | 0x33, 5 => some (Rows.vcmp, .a .vcmp)
  | 0x34, 0 | 0x34, 1 | 0x34, 2 | 0x34, 3 | 0x34, 4 | 0x34, 5 | 0x34, 6 | 0x34, 7 => some (Rows.vfcmp, .a .vfcmp)
  | 0x40, 0 | 0x40, 1 | 0x40, 2 | 0x40, 3 | 0x40, 4 | 0x40, 5 => some (Rows.fadd, .a .fadd)
  | 0x41, 0 | 0x41, 1 | 0x41, 2 | 0x41, 3 | 0x41, 4 | 0x41, 5 => some (Rows.fsub, .a .fsub)
  | 0x42, 0 | 0x42, 1 | 0x42, 2 | 0x42, 3 | 0x42, 4 | 0x42, 5 => some (Rows.fmul, .a .fmul)
  | 0x43, 0 | 0x43, 1 | 0x43, 2 | 0x43, 3 | 0x43, 4 | 0x43, 5 => some (Rows.ffma, .a .ffma)
  | 0x44, 0 | 0x44, 1 | 0x44, 2 | 0x44, 3 | 0x44, 4 | 0x44, 5 => some (Rows.fdiv, .a .fdiv)
  | 0x45, 0 | 0x45, 1 | 0x45, 2 | 0x45, 3 | 0x45, 4 | 0x45, 5 => some (Rows.fsqrt, .a .fsqrt)
  | 0x46, 0 | 0x46, 1 | 0x46, 2 | 0x46, 3 | 0x46, 4 | 0x46, 5 => some (Rows.frcp, .a .frcp)
  | 0x47, 0 | 0x47, 1 | 0x47, 2 | 0x47, 3 | 0x47, 4 | 0x47, 5 => some (Rows.frsq, .a .frsq)
  | 0x48, 0 | 0x48, 1 | 0x48, 2 | 0x48, 3 | 0x48, 4 | 0x48, 5 => some (Rows.fexp2, .a .fexp2)
  | 0x49, 0 | 0x49, 1 | 0x49, 2 | 0x49, 3 | 0x49, 4 | 0x49, 5 => some (Rows.flog2, .a .flog2)
  | 0x4a, 0 => some (Rows.fmin, .a .fmin)
  | 0x4a, 1 => some (Rows.fmax, .a .fmax)
  | 0x4a, 2 => some (Rows.fclass, .a .fclass)
  | 0x50, 0 | 0x50, 1 | 0x50, 2 | 0x50, 3 | 0x50, 4 | 0x50, 5 => some (Rows.vfadd, .a .vfadd)
  | 0x51, 0 | 0x51, 1 | 0x51, 2 | 0x51, 3 | 0x51, 4 | 0x51, 5 => some (Rows.vfsub, .a .vfsub)
  | 0x52, 0 | 0x52, 1 | 0x52, 2 | 0x52, 3 | 0x52, 4 | 0x52, 5 => some (Rows.vfmul, .a .vfmul)
  | 0x53, 0 | 0x53, 1 | 0x53, 2 | 0x53, 3 | 0x53, 4 | 0x53, 5 => some (Rows.vffma, .a .vffma)
  | 0x54, 0 | 0x54, 1 | 0x54, 2 | 0x54, 3 | 0x54, 4 | 0x54, 5 => some (Rows.vfdiv, .a .vfdiv)
  | 0x55, 0 | 0x55, 1 | 0x55, 2 | 0x55, 3 | 0x55, 4 | 0x55, 5 => some (Rows.vfsqrt, .a .vfsqrt)
  | 0x56, 0 | 0x56, 1 | 0x56, 2 | 0x56, 3 | 0x56, 4 | 0x56, 5 => some (Rows.vfrcp, .a .vfrcp)
  | 0x57, 0 => some (Rows.vfmin, .a .vfmin)
  | 0x57, 1 => some (Rows.vfmax, .a .vfmax)
  | 0x58, 0 => some (Rows.vadd, .a .vadd)
  | 0x58, 1 => some (Rows.vsub, .a .vsub)
  | 0x58, 2 => some (Rows.vmul, .a .vmul)
  | 0x58, 3 => some (Rows.vmulh, .a .vmulh)
  | 0x58, 4 => some (Rows.vmadd, .a .vmadd)
  | 0x59, 0 => some (Rows.vand, .a .vand)
  | 0x59, 1 => some (Rows.vor, .a .vor)
  | 0x59, 2 => some (Rows.vxor, .a .vxor)
  | 0x59, 3 => some (Rows.vshl, .a .vshl)
  | 0x59, 4 => some (Rows.vshr, .a .vshr)
  | 0x59, 5 => some (Rows.vsra, .a .vsra)
  | 0x5a, 0 => some (Rows.vmin, .a .vmin)
  | 0x5a, 1 => some (Rows.vmax, .a .vmax)
  | 0x60, 0 => some (Rows.vsel, .a .vsel)
  | 0x60, 1 => some (Rows.vperm, .a .vperm)
  | 0x60, 2 => some (Rows.vbcast, .a .vbcast)
  | 0x60, 3 => some (Rows.vext, .a .vext)
  | 0x60, 4 => some (Rows.vins, .a .vins)
  | 0x61, 0 => some (Rows.vredAdd, .a .vredAdd)
  | 0x61, 1 => some (Rows.vredMin, .a .vredMin)
  | 0x61, 2 => some (Rows.vredMax, .a .vredMax)
  | 0x61, 3 => some (Rows.vscan, .a .vscan)
  | 0x62, 0 => some (Rows.vzpack, .a .vzpack)
  | 0x62, 1 => some (Rows.vexpand, .a .vexpand)
  | 0x63, 0 => some (Rows.mand, .a .mand)
  | 0x63, 1 => some (Rows.mor, .a .mor)
  | 0x63, 2 => some (Rows.mnot, .a .mnot)
  | 0x63, 3 => some (Rows.mpopc, .a .mpopc)
  | 0x63, 4 => some (Rows.mffs, .a .mffs)
  | 0x70, 0 | 0x70, 1 | 0x70, 2 | 0x70, 3 | 0x70, 4 | 0x70, 5 => some (Rows.fcvt, .a .fcvt)
  | 0x71, 0 | 0x71, 1 | 0x71, 2 | 0x71, 3 | 0x71, 4 | 0x71, 5 => some (Rows.vcvt, .a .vcvt)
  | 0x72, 0 | 0x72, 1 | 0x72, 2 | 0x72, 3 | 0x72, 4 | 0x72, 5 => some (Rows.vpack, .a .vpack)
  | 0x73, 0 => some (Rows.vunpack, .a .vunpack)
  | 0x74, 0 | 0x74, 1 | 0x74, 2 | 0x74, 3 | 0x74, 4 | 0x74, 5 => some (Rows.vtsum, .a .vtsum)
  | 0x80, 0 => some (Rows.ld, .m .ld)
  | 0x80, 1 => some (Rows.ldv, .m .ldv)
  | 0x80, 2 => some (Rows.ldg, .m .ldg)
  | 0x80, 3 => some (Rows.pf, .m .pf)
  | 0x81, 0 => some (Rows.st, .m .st)
  | 0x81, 1 => some (Rows.stv, .m .stv)
  | 0x81, 2 => some (Rows.stg, .m .stg)
  | 0x88, 0 => some (Rows.ldf, .m .ldf)
  | 0x88, 1 => some (Rows.ldft, .m .ldft)
  | 0x88, 2 => some (Rows.stf, .m .stf)
  | 0x88, 3 => some (Rows.clrf, .m .clrf)
  | 0x8c, 0 => some (Rows.copy, .e .copy)
  | 0x8c, 1 => some (Rows.copyx, .e .copyx)
  | 0x8d, 0 => some (Rows.wany, .a .wany)
  | 0x8d, 1 => some (Rows.wall, .a .wall)
  | 0x8d, 2 => some (Rows.ffr, .a .ffr)
  | 0x8d, 3 => some (Rows.tagclr, .a .tagclr)
  | 0x90, 0 => some (Rows.cleanR, .e .cleanR)
  | 0x90, 1 => some (Rows.invR, .e .invR)
  | 0x90, 2 => some (Rows.flushR, .e .flushR)
  | 0x94, 0 => some (Rows.fenceR, .m .fenceR)
  | 0x94, 1 => some (Rows.fenceW, .m .fenceW)
  | 0x94, 2 => some (Rows.fenceRw, .m .fenceRw)
  | 0x94, 3 => some (Rows.fenceB, .m .fenceB)
  | 0x95, 0 => some (Rows.acq, .m .acq)
  | 0x95, 1 => some (Rows.acqs, .m .acqs)
  | 0x95, 2 => some (Rows.rls, .m .rls)
  | 0x96, 0 => some (Rows.sealR, .e .sealR)
  | 0xa0, 0 => some (Rows.oadd, .e .oadd)
  | 0xa0, 1 => some (Rows.omin, .e .omin)
  | 0xa0, 2 => some (Rows.omax, .e .omax)
  | 0xa0, 3 => some (Rows.oand, .e .oand)
  | 0xa0, 4 => some (Rows.oor, .e .oor)
  | 0xa0, 5 => some (Rows.oxor, .e .oxor)
  | 0xa0, 6 => some (Rows.oswp, .e .oswp)
  | 0xa0, 7 => some (Rows.ocas, .e .ocas)
  | 0xa0, 8 => some (Rows.oaddNt, .e .oaddNt)
  | 0xa0, 9 => some (Rows.ominNt, .e .ominNt)
  | 0xa0, 10 => some (Rows.omaxNt, .e .omaxNt)
  | 0xa0, 11 => some (Rows.oandNt, .e .oandNt)
  | 0xa0, 12 => some (Rows.oorNt, .e .oorNt)
  | 0xa0, 13 => some (Rows.oxorNt, .e .oxorNt)
  | 0xa0, 14 => some (Rows.oswpNt, .e .oswpNt)
  | 0xa0, 15 => some (Rows.ocasNt, .e .ocasNt)
  | 0xa1, 0 => some (Rows.ofadd, .e .ofadd)
  | 0xa1, 1 => some (Rows.ofmin, .e .ofmin)
  | 0xa1, 2 => some (Rows.ofmax, .e .ofmax)
  | 0xa1, 3 => some (Rows.offma, .e .offma)
  | 0xa1, 4 => some (Rows.ored, .e .ored)
  | 0xa1, 8 => some (Rows.ofaddNt, .e .ofaddNt)
  | 0xa1, 9 => some (Rows.ofminNt, .e .ofminNt)
  | 0xa1, 10 => some (Rows.ofmaxNt, .e .ofmaxNt)
  | 0xa1, 11 => some (Rows.offmaNt, .e .offmaNt)
  | 0xa1, 12 => some (Rows.oredNt, .e .oredNt)
  | 0xa2, 0 => some (Rows.ocmt, .e .ocmt)
  | 0xa2, 1 => some (Rows.oabn, .e .oabn)
  | 0xb0, 0 => some (Rows.barv, .e .barv)
  | 0xb0, 1 => some (Rows.bwait, .e .bwait)
  | 0xb0, 2 => some (Rows.btest, .e .btest)
  | 0xb1, 0 => some (Rows.grpq, .e .grpq)
  | 0xb2, 0 => some (Rows.send, .e .send)
  | 0xb2, 1 => some (Rows.sendt, .e .sendt)
  | 0xb2, 2 => some (Rows.recv, .e .recv)
  | 0xb2, 3 => some (Rows.recvt, .e .recvt)
  | 0xb3, 0 => some (Rows.deleg, .e .deleg)
  | 0xb3, 1 => some (Rows.delegt, .e .delegt)
  | 0xb3, 2 => some (Rows.dret, .e .dret)
  | 0xc0, 0 => some (Rows.rpt, .e .rpt)
  | 0xc1, 0 => some (Rows.gslot, .e .gslot)
  | 0xc1, 1 => some (Rows.gset, .e .gset)
  | 0xc2, 0 => some (Rows.ecmd, .e .ecmd)
  | 0xd0, 0 => some (Rows.mcap, .e .mcap)
  | 0xd0, 1 => some (Rows.mfmt, .e .mfmt)
  | 0xd1, 0 => some (Rows.mldb, .e .mldb)
  | 0xd1, 1 => some (Rows.mrow, .e .mrow)
  | 0xd1, 2 => some (Rows.mnz, .e .mnz)
  | 0xd2, 0 => some (Rows.mclr, .e .mclr)
  | 0xd2, 1 => some (Rows.mrd, .e .mrd)
  | 0xd3, 0 => some (Rows.msave, .e .msave)
  | 0xd3, 1 => some (Rows.mrest, .e .mrest)
  | 0xd3, 2 => some (Rows.mwait, .e .mwait)
  | 0xe0, 0 => some (Rows.ecomb, .e .ecomb)
  | 0xe0, 1 => some (Rows.eact, .e .eact)
  | 0xe1, 0 => some (Rows.dqpush, .e .dqpush)
  | 0xe1, 1 => some (Rows.dqpop, .e .dqpop)
  | 0xe1, 2 => some (Rows.dqsplit, .e .dqsplit)
  | 0xe1, 3 => some (Rows.dqsteal, .e .dqsteal)
  | 0xe2, 0 => some (Rows.amsg, .e .amsg)
  | 0xe2, 1 => some (Rows.gath, .e .gath)
  | 0xe2, 2 => some (Rows.scat, .e .scat)
  | 0xe2, 3 => some (Rows.ijob, .e .ijob)
  | 0xe8, 0 => some (Rows.bcall, .e .bcall)
  | 0xe9, 0 => some (Rows.hret, .e .hret)
  | 0xe9, 1 => some (Rows.hrow, .e .hrow)
  | 0xe9, 2 => some (Rows.hwr, .e .hwr)
  | 0xf0, 0 => some (Rows.trap, .s .trap)
  | 0xf0, 1 => some (Rows.eret, .s .eret)
  | 0xf1, 0 => some (Rows.sysr, .s .sysr)
  | 0xf1, 1 => some (Rows.sysw, .s .sysw)
  | 0xf2, 0 => some (Rows.yieldT, .s .yieldT)
  | 0xf2, 1 => some (Rows.drain, .s .drain)
  | 0xf2, 2 => some (Rows.sfqpop, .s .sfqpop)
  | 0xf2, 3 => some (Rows.kill, .s .kill)
  | 0xf3, 0 => some (Rows.tlbinv, .s .tlbinv)
  | 0xf3, 1 => some (Rows.tlbsync, .s .tlbsync)
  | 0xf4, 0 => some (Rows.vabort, .s .vabort)
  | 0xf4, 1 => some (Rows.wfe, .s .wfe)
  | _, _ => none

/-! ### Fields of a word (R56, R59-R64) -/

/-- Bits `lo` to `lo + n - 1` of a word, as a number. -/
def bits (w : BitVec 96) (lo n : Nat) : Nat := (w.extractLsb' lo n).toNat

def bit (w : BitVec 96) (i : Nat) : Bool := w.getLsbD i

def regAt (w : BitVec 96) (lo : Nat) : Reg := Reg.ofSpec (bits w lo 7)

def unpackHead (w : BitVec 96) : Head :=
  { sw := bit w 95, gp := Fin.ofNat 16 (bits w 91 4), gi := bit w 90 }

def srcA (w : BitVec 96) : Src := { reg := regAt w 57, neg := bit w 56, abs := bit w 55 }
def srcB (w : BitVec 96) : Src := { reg := regAt w 48, neg := bit w 47, abs := bit w 46 }
def srcC (w : BitVec 96) : Src := { reg := regAt w 39, neg := bit w 38, abs := bit w 37 }

/-- The type code, read only by an instruction that takes a type (R58). -/
def tyAt (r : Row) (w : BitVec 96) : Option Ty := if r.types.isEmpty then none else Ty.ofCode (bits w 32 5)

/-- What FN selects, in a rounding major. -/
def rndAt (r : Row) (w : BitVec 96) : Rnd :=
  match r.fn with
  | .rnd => (Rnd.ofCode (bits w 78 4)).getD .frmode
  | _ => .frmode

/-- What FN selects, in a compare major. -/
def condAt (r : Row) (w : BitVec 96) : Cond :=
  match r.fn with
  | .cond _ => (Cond.ofCode (bits w 78 4)).getD .eq
  | _ => .eq

/-- The fields of a word in the format of its row. `none` where a clamp, combine, scope or hint code is reserved (R56, R60,
R61). -/
def unpackA (r : Row) (w : BitVec 96) : Option OpA :=
  (Clamp.ofCode (bits w 68 3)).map fun cl =>
    { hd := unpackHead w, dst := regAt w 71, clamp := cl, scale := w.extractLsb' 64 4, a := srcA w, b := srcB w,
      c := srcC w, ty := tyAt r w, imm := w.extractLsb' 0 32, rnd := rndAt r w, cond := condAt r w }

def unpackP (r : Row) (w : BitVec 96) : Option OpP :=
  (Combine.ofCode (bits w 68 3)).map fun cb =>
    { hd := unpackHead w, p1 := regAt w 71, comb := cb, p2 := Fin.ofNat 16 (bits w 64 4), a := srcA w, b := srcB w,
      ty := tyAt r w, imm := w.extractLsb' 0 32, cond := condAt r w }

def unpackM (r : Row) (w : BitVec 96) : Option OpM :=
  match Scope.ofCode (bits w 40 3), Hint.ofCode (bits w 37 3) with
  | some sc, some h =>
    some { hd := unpackHead w, data := regAt w 71, pidx := Fin.ofNat 16 (bits w 64 4), base := regAt w 57,
           index := regAt w 48, shift := Fin.ofNat 8 (bits w 43 3), scope := sc, hint := h, ty := tyAt r w,
           imm := w.extractLsb' 0 32 }
  | _, _ => none

def unpackB (w : BitVec 96) : OpB :=
  { hd := unpackHead w, sa := regAt w 57, off := w.extractLsb' 3 29, slot := w.extractLsb' 0 3 }

def unpackE (r : Row) (w : BitVec 96) : Option OpE :=
  (Scope.ofCode (bits w 68 3)).map fun sc =>
    { hd := unpackHead w, dst := regAt w 71, scope := sc, pE := Fin.ofNat 16 (bits w 64 4), a := regAt w 57, b := srcB w,
      c := srcC w, ty := tyAt r w, pD := Fin.ofNat 16 (bits w 28 4), imm := w.extractLsb' 0 28 }

def unpackS (w : BitVec 96) : OpS :=
  { hd := unpackHead w, dst := regAt w 71, sa := regAt w 57, imm := w.extractLsb' 0 32 }

/-! ### The checks of R75, steps 5 and 6 -/

/-- Why a word names no instruction that may run (R74). -/
inductive DecodeError where
  /-- 0x01: unassigned major or function, or a type or register class not accepted -/
  | illegal
  /-- 0x02: a reserved or unused field that is not zero, a reserved code, or a forbidden clamp or scale -/
  | reservedField
  deriving DecidableEq, Repr

/-- A predicate, mask or format register: it carries no modifier as a source and no clamp or scale as a destination (R65, R67). -/
def Reg.bare (x : Reg) : Bool :=
  match x with
  | .g _ | .v _ => false
  | .p _ | .m _ | .fmt _ => true

/-- The row's modifiers go with the type; a reserved type code goes with none (R90, R132). -/
def Row.modTy (r : Row) (ty : Option Ty) : Bool := (!r.modI || ty.any Ty.isI) && (!r.modF || ty.any Ty.isFp)

/-- The modifiers of a source are allowed (R65, R67, R90, R132). -/
def modOk (r : Row) (allowed : Bool) (ty : Option Ty) (s : Src) : Bool :=
  (!s.neg && !s.abs) || (allowed && !s.reg.bare && r.modTy ty)

/-- No bit of `x` outside `mask` is set. -/
def within (x mask : Nat) : Bool := x &&& mask == x

/-- Clamp and scale allowed (R65, R131, R141). -/
def ClampRule.ok (r : ClampRule) (ty : Option Ty) (dst : Reg) (cl : Clamp) (k : BitVec 4) : Bool :=
  (cl == .none && k == 0) || (!dst.bare &&
    match r with
    | .yes => true
    | .no => false
    | .cvt => cl == .none || ty.any Ty.isFp
    | .tsum => ty == some .f32)

/-- The bits of IMM that an instruction of format A uses (R59, R65). Under a narrow type every bit may be set, and bits 7:0 are
the code (DESIGN CHOICE, log entry 41). -/
def immMaskA (r : Row) (o : OpA) : Nat :=
  let b := if o.b.reg == .zero then
      (if o.ty == some .f16 || o.ty == some .bf16 then r.immB &&& 0xFFFF else r.immB)
    else 0
  let a := if r.extra == .vtsum && o.a.reg == .zero && o.ty == some .pair32 then 0xFFFFFFFF else 0
  r.imm ||| b ||| a

/-- R141: the first register of a pair is v0-v30, and the pair form takes FN 0 or 1. -/
def vtsumOk (o : OpA) : Bool :=
  match o.ty with
  | some .pair32 => o.dst != .v 31 && (o.rnd == .frmode || o.rnd == .rne)
  | some .f32 => o.a.reg != .v 31
  | _ => true

/-- The source type that a conversion names in IMM<4:0> (R131, R139, R140). -/
def srcTy (imm : BitVec 32) : Option Ty := Ty.ofCode (imm.toNat % 32)

/-- The part p of R139 and R140. -/
def OpA.part (o : OpA) : Nat := o.imm.toNat / 32 % 4

/-- R139, R140: the parts that a conversion between two lane widths has. -/
def partLimit (wd ws : Nat) : Nat := if wd = ws then 1 else if ws < wd then wd / ws else ws / wd

/-- Checks of step 5 that only one row of format A has. The part p of R139 and R140 and the start lane of R137 are no such check: they
trap at run time (spec/19_bank.md R310), where R75 has step 13. -/
def extraA5 (r : Row) (o : OpA) : Bool :=
  match r.extra with
  | .vtsum => vtsumOk o
  | _ => true

/-- Step 5 for format A. -/
def checkA5 (r : Row) (o : OpA) : Bool :=
  r.dst.zeroOk o.dst && r.a.zeroOk o.a.reg && r.b.zeroOk o.b.reg && r.c.zeroOk o.c.reg &&
  modOk r r.modA o.ty o.a && modOk r r.modB o.ty o.b && modOk r r.modC o.ty o.c &&
  r.clamp.ok o.ty o.dst o.clamp o.scale && within o.imm.toNat (immMaskA r o) && extraA5 r o

/-- The type is one the instruction accepts; an instruction without types takes none (R58). -/
def tyOk (r : Row) (ty : Option Ty) : Bool :=
  match ty with
  | none => r.types.isEmpty
  | some t => r.types.contains t

/-- R95: the pairs of classes that `mov` copies across. -/
def movOk (d a : Cls) : Bool :=
  match d, a with
  | .g, .g | .g, .m | .m, .g | .m, .m | .fmt, .g | .g, .fmt => true
  | _, _ => false

/-- R131, R139: both types accepted, and not both integer. -/
def cvtOk (r : Row) (o : OpA) : Bool :=
  match o.ty, srcTy o.imm with
  | some d, some s => r.types.contains s && !(d.isInt && s.isInt)
  | _, _ => false

/-- Checks of step 6 that only one row of format A has. -/
def extraA6 (r : Row) (o : OpA) : Bool :=
  match r.extra with
  | .mov => movOk o.dst.cls o.a.reg.cls
  | .cvt => cvtOk r o
  | .pack => (srcTy o.imm).any (tyVFp.contains ·)
  | .unpack => (srcTy o.imm).any Ty.isNf
  | .vtsum => o.ty != some .f32 || o.a.reg.cls == .v
  | _ => true

/-- `vtsum` with SA = 0x00 reads an immediate in its pair form (R59, R141). -/
def checkA6 (r : Row) (o : OpA) : Bool :=
  tyOk r o.ty && r.dst.clsOk o.dst && r.a.clsOk o.a.reg && r.b.clsOk o.b.reg && r.c.clsOk o.c.reg && extraA6 r o

/-- Step 5 for format P (R60). -/
def checkP5 (r : Row) (o : OpP) : Bool :=
  r.a.zeroOk o.a.reg && r.b.zeroOk o.b.reg && modOk r r.modA o.ty o.a && modOk r r.modB o.ty o.b &&
  within o.imm.toNat (if o.b.reg == .zero then
    (if o.ty == some .f16 || o.ty == some .bf16 then r.immB &&& 0xFFFF else r.immB) else 0) &&
  (o.p2 == 0 || o.p1 != .p o.p2)

def checkP6 (r : Row) (o : OpP) : Bool :=
  tyOk r o.ty && r.dst.clsOk o.p1 && r.a.clsOk o.a.reg && r.b.clsOk o.b.reg

/-- Step 5 for format M (R61). An index shift is accepted without an index too, and shifts nothing (DESIGN CHOICE, log entry 41). -/
def checkM5 (r : Row) (o : OpM) : Bool :=
  r.dst.zeroOk o.data && r.a.zeroOk o.base && r.b.zeroOk o.index && (r.pidx || o.pidx == 0) &&
  (r.b.used || o.shift == 0) && (r.scope || o.scope == .core) && (r.hint || o.hint == .normal) &&
  within o.imm.toNat r.imm

def checkM6 (r : Row) (o : OpM) : Bool :=
  tyOk r o.ty && r.dst.clsOk o.data && r.a.clsOk o.base && r.b.clsOk o.index

/-- Step 5 for format B (R62). -/
def checkB5 (r : Row) (o : OpB) : Bool := r.a.zeroOk o.sa && (r.imm != 0 || (o.off == 0 && o.slot == 0))

def checkB6 (r : Row) (o : OpB) : Bool := r.a.clsOk o.sa

/-- R63: the first of two results is not g63, v31 or outside the g and v classes. -/
def twoOk (d : Reg) : Bool :=
  match d with
  | .g n => n != 63
  | .v n => n != 31
  | _ => false

/-- R295: the first of two results is a g register but g63. -/
def twoGOk (d : Reg) : Bool :=
  match d with
  | .g n => n != 63
  | _ => false

/-- The number of a g register, 64 for another class. -/
def gIndex : Reg → Nat
  | .g n => n.val
  | _ => 64

/-- Checks of step 5 that only one row of format E has. -/
def extraE5 (r : Row) (o : OpE) : Bool :=
  let i := o.imm.toNat
  match r.extra with
  | .two | .ocmt => twoOk o.dst
  | .twoG => twoGOk o.dst
  | .deleg => twoOk o.dst && i % 8 ≤ 4 && (o.c.reg.cls != .g || gIndex o.c.reg + i % 8 ≤ 64)   -- R210
  | .amsg => i / 64 != 3 && (o.c.reg.cls != .g || gIndex o.c.reg + i / 64 ≤ 64)               -- R297
  | .grpq => i / 256 % 8 ≤ 5                                                                    -- R206
  | .gslot => i < 16 || i % 16 == 0                                                             -- R146
  | .rpt => 1 ≤ i % 64 && i % 64 ≤ 32                                                           -- R142
  | .mrd => match o.ty with                                                                     -- R263
    | some .f32 => i ≤ 5
    | some .pair32 => i == 0 && twoOk o.dst
    | _ => true
  | _ => true

/-- Step 5 for format E (R63). -/
def checkE5 (r : Row) (o : OpE) : Bool :=
  r.dst.zeroOk o.dst && r.a.zeroOk o.a && r.b.zeroOk o.b.reg && r.c.zeroOk o.c.reg &&
  modOk r r.modB o.ty o.b && modOk r r.modC o.ty o.c &&
  (r.scope || o.scope == .core) && (r.pidx || o.pE == 0) && (r.pD || o.pD == 0) &&
  within o.imm.toNat r.imm && extraE5 r o

/-- R179: the registers of a commit follow the type of the declined offer; an `ored` commit has v registers. -/
def ocmtOk (o : OpE) : Bool :=
  match o.dst.cls, o.ty with
  | .v, some t => tyRed.contains t && o.b.reg.cls == .v
  | .g, some t => (tyO4 ++ tyOF).contains t && o.b.reg.cls == .g
  | _, _ => false

def checkE6 (r : Row) (o : OpE) : Bool :=
  tyOk r o.ty && r.dst.clsOk o.dst && r.a.clsOk o.a && r.b.clsOk o.b.reg && r.c.clsOk o.c.reg &&
  (r.extra != .ocmt || ocmtOk o)

/-- Checks of step 5 that only one row of format S has. -/
def extraS5 (r : Row) (o : OpS) : Bool :=
  let i := o.imm.toNat
  match r.extra with
  | .trap => 1 ≤ i && i ≤ 5                                                    -- R239
  | .kill => i / 256 % 2 == 0 || i % 256 == 0                                  -- R230
  | .tlbinv => i / 8 % 4 != 3 && (i / 4 % 2 == 0 || o.sa == .zero)             -- R243
  | .sfqpop => o.dst != .v 31                                                  -- R229
  | _ => true

/-- Step 5 for format S (R64). -/
def checkS5 (r : Row) (o : OpS) : Bool :=
  r.dst.zeroOk o.dst && r.a.zeroOk o.sa && within o.imm.toNat r.imm && extraS5 r o

def checkS6 (r : Row) (o : OpS) : Bool := r.dst.clsOk o.dst && r.a.clsOk o.sa

/-! ### The decoder -/

/-- Steps 5 and 6 of R75: the reserved fields decide first. -/
def accept (raw five six : Bool) (i : Instr) : Except DecodeError Instr :=
  if !(raw && five) then .error .reservedField
  else if !six then .error .illegal
  else .ok i

/-- The instruction that a word names, or why it names none (R75, steps 3, 5 and 6). A reserved type code in an
instruction that takes a type is 0x01, decided after the reserved fields. -/
def decode (w : BitVec 96) : Except DecodeError Instr :=
  match opcode (bits w 82 8) (bits w 78 4) with
  | none => .error .illegal
  | some (r, mk) =>
    let tyUnused := !r.types.isEmpty || bits w 32 5 == 0
    match mk with
    | .a mk => match unpackA r w with
      | none => .error .reservedField
      | some o => accept tyUnused (checkA5 r o) (checkA6 r o) (mk o)
    | .p mk => match unpackP r w with
      | none => .error .reservedField
      | some o => accept (tyUnused && bits w 37 9 == 0) (checkP5 r o) (checkP6 r o) (mk o)
    | .m mk => match unpackM r w with
      | none => .error .reservedField
      | some o => accept (tyUnused && bits w 68 3 == 0 && bits w 55 2 == 0 && bits w 46 2 == 0)
          (checkM5 r o) (checkM6 r o) (mk o)
    | .b mk =>
      let o := unpackB w
      accept (bits w 64 14 == 0 && bits w 32 25 == 0) (checkB5 r o) (checkB6 r o) (mk o)
    | .e mk => match unpackE r w with
      | none => .error .reservedField
      | some o => accept (tyUnused && bits w 55 2 == 0) (checkE5 r o) (checkE6 r o) (mk o)
    | .s mk =>
      let o := unpackS w
      accept (bits w 64 7 == 0 && bits w 32 25 == 0) (checkS5 r o) (checkS6 r o) (mk o)

/-! ### The encoder -/

def boolBit (b : Bool) : BitVec 1 := if b then 1#1 else 0#1

/-- Bits 95:78: the marker, the guard, MAJ and FN. -/
def packHead (h : Head) (maj fn : Nat) : BitVec 18 :=
  boolBit h.sw ++ BitVec.ofNat 4 h.gp.val ++ boolBit h.gi ++ BitVec.ofNat 8 maj ++ BitVec.ofNat 4 fn

def packReg (x : Reg) : BitVec 7 := BitVec.ofNat 7 x.spec

def packSrc (s : Src) : BitVec 9 := packReg s.reg ++ boolBit s.neg ++ boolBit s.abs

def packTy (t : Option Ty) : BitVec 5 := BitVec.ofNat 5 ((t.map Ty.code).getD 0)

/-- FN of an instruction: the row's, or what its rounding or condition says (R76, R78). -/
def Fn.code (f : Fn) (rnd : Rnd) (cond : Cond) : Nat :=
  match f with
  | .one n => n
  | .rnd => rnd.code
  | .cond _ => cond.code

/-- The 96-bit word of the fields (R56, R59-R64). -/
def Flds.pack (r : Row) : Flds → BitVec 96
  | .a o => packHead o.hd r.maj (r.fn.code o.rnd o.cond) ++ packReg o.dst ++ BitVec.ofNat 3 o.clamp.code ++ o.scale ++
      packSrc o.a ++ packSrc o.b ++ packSrc o.c ++ packTy o.ty ++ o.imm
  | .p o => packHead o.hd r.maj (r.fn.code .frmode o.cond) ++ packReg o.p1 ++ BitVec.ofNat 3 o.comb.code ++
      BitVec.ofNat 4 o.p2.val ++ packSrc o.a ++ packSrc o.b ++ 0#9 ++ packTy o.ty ++ o.imm
  | .m o => packHead o.hd r.maj (r.fn.code .frmode .eq) ++ packReg o.data ++ 0#3 ++ BitVec.ofNat 4 o.pidx.val ++
      packReg o.base ++ 0#2 ++ packReg o.index ++ 0#2 ++ BitVec.ofNat 3 o.shift.val ++ BitVec.ofNat 3 o.scope.code ++
      BitVec.ofNat 3 o.hint.code ++ packTy o.ty ++ o.imm
  | .b o => packHead o.hd r.maj (r.fn.code .frmode .eq) ++ 0#14 ++ packReg o.sa ++ 0#25 ++ o.off ++ o.slot
  | .e o => packHead o.hd r.maj (r.fn.code .frmode .eq) ++ packReg o.dst ++ BitVec.ofNat 3 o.scope.code ++
      BitVec.ofNat 4 o.pE.val ++ packReg o.a ++ 0#2 ++ packSrc o.b ++ packSrc o.c ++ packTy o.ty ++
      BitVec.ofNat 4 o.pD.val ++ o.imm
  | .s o => packHead o.hd r.maj (r.fn.code .frmode .eq) ++ packReg o.dst ++ 0#7 ++ packReg o.sa ++ 0#25 ++ o.imm

/-- The word of an instruction; command blocks and events have none. -/
def encode (i : Instr) : Option (BitVec 96) := i.info.map fun (r, f) => f.pack r

/-- The instruction of which the host gives the word with the numbering of spec/opcode_table.json: bits 31:0 of a word are
its first four bytes in memory (R50). A word longer than 96 bits is no instruction. -/
def decodeTableWord (_nbits w : Nat) : Option Instr :=
  if w < 2 ^ 96 then
    match decode (BitVec.ofNat 96 w) with
    | .ok i => some i
    | .error _ => none
  else none

end Sys2Proof
end

