-- ==== Sys2Proof/Machine/Sparse.lean ====
section
/-! DEFINITION. Sparse maps as plain data: lists of key and value in one canonical form (keys strictly rising, no value equal
to the default), so that equal maps are equal lists; sorting by key. -/

namespace Sys2Proof

/-- A map from numbers, held as its entries. -/
abbrev Sparse (α : Type) := List (Nat × α)

/-- The entry of a key, where one is listed. -/
def Sparse.find? {α : Type} : Sparse α → Nat → Option α
  | [], _ => none
  | (k', v) :: m, k => if k' = k then some v else Sparse.find? m k

/-- The value of a key; `d` where it is not listed. -/
def Sparse.get {α : Type} (d : α) (m : Sparse α) (k : Nat) : α := (Sparse.find? m k).getD d

/-- The map without a key. -/
def Sparse.erase {α : Type} (m : Sparse α) (k : Nat) : Sparse α := m.filter fun e => e.1 != k

/-- Put an entry where its key belongs; the key is not listed yet. -/
def Sparse.insert {α : Type} : Sparse α → Nat → α → Sparse α
  | [], k, v => [(k, v)]
  | (k', v') :: m, k, v => if k < k' then (k, v) :: (k', v') :: m else (k', v') :: Sparse.insert m k v

/-- The map with an entry for a key. -/
def Sparse.put {α : Type} (m : Sparse α) (k : Nat) (v : α) : Sparse α := (m.erase k).insert k v

/-- The map with a value for a key; the default value removes the entry. -/
def Sparse.set {α : Type} [DecidableEq α] (d : α) (m : Sparse α) (k : Nat) (v : α) : Sparse α :=
  if v = d then m.erase k else m.put k v

/-- Keys listed at or above a bound and below another. -/
def Sparse.range {α : Type} (m : Sparse α) (lo hi : Nat) : Sparse α := m.filter fun e => lo ≤ e.1 && e.1 < hi

/-- Keys strictly rising. -/
def Sparse.rising {α : Type} : Sparse α → Bool
  | [] => true
  | [_] => true
  | (k, _) :: (k', v') :: m => k < k' && Sparse.rising ((k', v') :: m)

/-- The canonical form of a map whose unlisted keys read as `d`. -/
def Sparse.wf {α : Type} [DecidableEq α] (d : α) (m : Sparse α) : Bool := Sparse.rising m && m.all fun e => e.2 != d

/-! ### Sorting -/

/-- Put an element before the first one that it does not follow. -/
def insertBy {α : Type} (le : α → α → Bool) (x : α) : List α → List α
  | [] => [x]
  | y :: ys => if le x y then x :: y :: ys else y :: insertBy le x ys

/-- A list in increasing order; equal elements keep theirs. -/
def sortBy {α : Type} (le : α → α → Bool) (xs : List α) : List α := xs.foldr (insertBy le) []

/-- Numbers in increasing order. -/
def sortNats (xs : List Nat) : List Nat := sortBy (fun a b => decide (a ≤ b)) xs

end Sys2Proof
end

