-- ==== Sys2Proof/Machine/State.lean ====
section
/-! DEFINITION. The state of the device as plain data: everything that spec/ gives the machine (INVENTORY.md, State), and the
model's own fields (log entry 3). Keys of the maps are plain numbers; each field says which. -/

namespace Sys2Proof.Machine

open Sys2Proof

/-! ### One task -/

/-- The register file of a frame and its pending marks (spec/05_scalar.md R83, R86). g0, p0 and m0 are hard-wired: their
entries are never written. -/
structure Regs where
  g : Sparse Word := []
  v : Sparse Line := []
  p : BitVec 16 := 0
  m : Sparse Word := []
  fmt : Sparse (BitVec 32) := []
  /-- bit i: specifier i is pending (R71) -/
  pend : BitVec 128 := 0
  deriving DecidableEq, Repr

/-- The system registers that a task holds (R84, R85, R118). OUTCNT is the number of outstanding long ops. -/
structure SysRegs where
  tid : Word := 0
  cause : Word := 0
  trappc : Word := 0
  flags : BitVec 7 := 0
  tags : Word := 0
  prio : BitVec 2 := 0
  grps : BitVec 36 := 0
  frmode : BitVec 3 := 0
  bkpa : Word := 0
  bkpc : Word := 0
  /-- byte n is BIASn -/
  bias : Word := 0
  deriving DecidableEq, Repr

/-- The return stack (R103): entries 0-15, DEPTH and SPILL. -/
structure Returns where
  entry : Sparse Word := []
  depth : Nat := 0
  spill : Nat := 0
  deriving DecidableEq, Repr

/-- The repetition sequencer (spec/07_arithmetic.md R142-R145): its position, the captured instructions with their code
addresses, and the guard slot attached when the `rpt` issued. -/
structure Sequencer where
  base : Word := 0
  act : Bool := false
  st : Nat := 0
  sm : Nat := 0
  sv : Nat := 0
  k : Nat := 0
  i : Nat := 0
  j : Nat := 0
  n : Nat := 0
  ins : List (Word × Instr) := []
  attach : Option Nat := none
  /-- while a sequenced instruction issues: the stream's code address and its attach slot (the model's own) -/
  stream : Option (Word × Option Nat) := none
  /-- operations from this number on may be its own (the model's own) -/
  since : Nat := 0
  deriving DecidableEq, Repr

/-- STATE of a guard slot (R146). -/
inductive SlotState where
  | free | opened | yes | no
  deriving DecidableEq, Repr

/-- A command held under an open guard slot (R147), with the operand values it read at issue. -/
structure Held where
  slot : Nat
  pc : Word
  ins : Instr
  op : Nat
  x : Word
  y : Word
  z : Word
  line : Line
  /-- what the slot resolved to; a later `gslot` of the slot's number changes nothing for this command -/
  fixed : Option Bool := none
  deriving DecidableEq, Repr

/-- One single-copy atomic piece of a load (spec/09_memory_offers.md R158): its address, its length, and where its bytes go
in the result. `pa` is `none` for a local-store address, whose offset is `va`. -/
structure Piece where
  va : Word
  pa : Option Nat
  len : Nat
  pos : Nat
  data : Option (BitVec 512)
  /-- the page is not cached (spec/21_launch_storage.md R334 PBMT 1 and 2) -/
  nc : Bool := false
  deriving DecidableEq, Repr

/-- The offers of R173, with what the level computes (R174). -/
inductive OfferOp where
  | atomic (op : Atomic)
  | red
  | commit (stamp : BitVec 16) (chain : Nat)
  /-- the handler entry, and the page of the line: where it begins and its size (spec/19_bank.md R312) -/
  | bank (entry page size : Nat)
  deriving DecidableEq, Repr

/-- A decided reply (R176): kinds 0 EXEC, 1 DECL, 2 TRAP, 3 DONE; kind 4, the model's own, is the fault of a Sorrel handler,
with its cause, and in `reason` the core cause behind it (spec/19_bank.md R310). -/
structure Reply where
  kind : Nat := 0
  reason : Nat := 0
  cause : Nat := 0
  stamp : Nat := 0
  fl : BitVec 7 := 0
  chain : Nat := 0
  r1 : Line := 0
  deriving DecidableEq, Repr

/-- An offer in flight. `target` is a local-store owner and offset, or a physical address. -/
structure Offer where
  op : OfferOp
  scope : Scope
  ty : Option Ty
  va : Word
  pa : Nat
  owner : Option Nat
  b : Line
  c : Line
  old : Line
  nt : Bool
  pE : Nat
  pD : Nat
  /-- the page's PTE has OD set (R177) -/
  od : Bool := false
  /-- the page is not cached (spec/21_launch_storage.md R334 PBMT) -/
  nc : Bool := false
  /-- it has reached the home and waits there behind a lease since this event count (R180) -/
  arrived : Option Nat := none
  reply : Option Reply := none
  deriving DecidableEq, Repr

/-- What a trap puts into the trap record (spec/13_traps.md R220). -/
structure TrapRec where
  /-- the cause as it was taken; CAUSE itself may be rewritten (R222, R224) -/
  cause : Nat := 0
  aux : BitVec 16 := 0
  seq : Bool := false
  vers : Bool := false
  prec : Bool := true
  slot : Nat := 0
  g4 : Word := 0
  g5 : Word := 0
  /-- resume continues after the instruction (R106, R239) -/
  passed : Bool := false
  /-- the code address of the issue that trapped; TRAPPC itself may be rewritten (R222) -/
  pc : Word := 0
  deriving DecidableEq, Repr

/-- A matrix command as it travels (spec/15_matrix.md R253, R268). -/
structure MCmd where
  maj : Nat
  fn : Nat
  ty : Nat
  task : Nat
  core : Nat
  pc : Word
  cap : Word
  b : Word
  c : Word
  imm : Nat
  payload : List Byte
  op : Nat
  /-- a row image is still being collected at the sender (R259) -/
  image : Option Nat := none
  since : Nat := 0
  /-- when it reached its unit, in the order of the device's operations (the model's own) -/
  arrived : Nat := 0
  deriving DecidableEq, Repr

/-- What an outstanding long op still has to do. -/
inductive LongAct where
  /-- the result was formed at issue and only has to land -/
  | ready (flags : BitVec 7)
  /-- loads: the units, the element type, and whether the destination is a v register with a lane mask of its own -/
  | load (ty : Ty) (vec : Bool) (scope : Scope) (alloc : Bool) (units : List Piece)
  | ldf (ty : Ty) (va : Word) (pa : Option Nat) (told : Bool)
  | ldft (ty : Ty) (va : Word) (pa : Option Nat) (pred : Nat)
  | offer (o : Offer)
  | guard (shared : Bool) (scope : Scope) (pa : Nat) (granted : Option (BitVec 16)) (refused : Bool)
  /-- the phase, once the arrival is made -/
  | barv (group : Nat) (phase : Option Nat)
  | btest (token : Word)
  | grpq (group item ordinal : Nat)
  | sendt (handle : Word) (item : Line) (scope : Scope)
  | recv (fifo index : Nat)
  /-- the answer: value, STATUS, CAUSE (spec/11_ordering_sync.md R210), and whether the routine ran -/
  | deleg (core : Nat) (scope : Scope) (answer : Option (Word × Nat × Nat × Bool))
  /-- the unit word, where the block lay and what it held, the matrix command that it carries, and whether the reply word is
  known (spec/17_edge.md R282, R283) -/
  | ecmd (unit : Word) (offset : Nat) (block : Line) (cmd : Option MCmd) (answered : Bool)
  | mrd (cap : Word) (row col : Nat) (ty : Ty) (mode : Nat) (reply : Option (Line × Line × BitVec 7 × Nat))
  | dqsteal (victim : Nat)
  | ijob (offset : Nat)
  deriving DecidableEq, Repr

/-- An outstanding long op (spec/03_encoding.md R71). -/
structure LongOp where
  op : Nat
  pc : Word
  dsts : List Reg
  /-- values of the destinations, once they are known -/
  vals : List Line
  act : LongAct
  since : Nat
  /-- held by a guard slot (R147) -/
  slot : Option Nat := none
  /-- issued by the repetition sequencer, in this iteration (spec/07_arithmetic.md R144, R145) -/
  iter : Option Nat := none
  deriving DecidableEq, Repr

/-- The four operations of a store-fault record (R225). -/
inductive StoreKind where
  | plain | lane | stf | clrf
  deriving DecidableEq, Repr

/-- A store to a translated address that is not resolved yet (R225, R226). -/
structure Store where
  op : Nat
  kind : StoreKind
  va : Word
  pc : Word
  lane : Nat
  data : List Byte
  scope : Scope
  /-- instructions issued after it (R226) -/
  dist : Nat
  /-- waits for a storage service (R342) -/
  waits : Bool := false
  /-- the die that is the home of its line, where translation at issue gave it (spec/11_ordering_sync.md R196) -/
  home : Option Nat := none
  /-- the fault that translation met at issue (R162, R225) -/
  found : Option Nat := none
  /-- pieces that are performed already, by number (R158) -/
  done : List Nat := []
  /-- bytes of a lane, for a line that is stored lane by lane (R158) -/
  unit : Nat := 8
  /-- where its pieces lie, once they are translated for good, and whether their pages are uncached (R225, R243) -/
  places : List (Nat × Bool) := []
  /-- an access to the core's own local store that waits for an acquire (spec/12_ordering_notes.md R215): its offset -/
  ls : Option Nat := none
  deriving DecidableEq, Repr

/-- What a parked task waits for (spec/01_machine.md R26). -/
inductive Wait where
  | outcnt
  | word (op : Nat)
  | token (t : Word)
  | tags (any : Bool) (mask : Word)
  | room (launch actor fifo : Nat)
  | item (fifo index : Nat)
  | event (mask : BitVec 5) (deadline : Option Nat)
  | rows (cap : Word) (n : Word)
  deriving DecidableEq, Repr

/-- The states of R27. -/
inductive Status where
  | queued | ready | issuing | parked | suspended | trapped | retired
  deriving DecidableEq, Repr

/-- What a task is (spec/05_scalar.md R85 KIND; handler activations and Sorrel handlers have a context of the same form). -/
inductive Kind where
  | launched
  | firing (actor : Nat)
  | delegated
  | edge (cluster : Nat) (filter : Bool)
  | handler (subject : Nat)
  | sorrel (unit : Nat)
  deriving DecidableEq, Repr

/-- A version line: bytes and their mask (spec/01_machine.md R39). -/
structure VLine where
  data : Line
  mask : ByteMask
  /-- bytes that a copy engine wrote: publishing them makes their words full (spec/09_memory_offers.md R161) -/
  full : ByteMask := 0
  deriving DecidableEq, Repr

/-- A footprint of a task (spec/21_launch_storage.md R325, R331): local-store offset, length, source address, write-back. -/
structure Footprint where
  off : Nat
  len : Nat
  src : Word
  wb : Bool
  deriving DecidableEq, Repr

/-- A delegation or active-message request (spec/11_ordering_sync.md R210, R211, spec/17_edge.md R297). `op` is the
requester's long op, `tag` the copy tag of an `amsg`. -/
structure Request where
  task : Nat
  tid : Word
  core : Nat
  launch : Nat
  op : Option Nat
  tag : Option Nat
  address : Word
  routine : Word
  args : List Word
  scope : Scope
  deriving DecidableEq, Repr

/-- A recorded copy fault (R168). -/
structure CopyFault where
  va : Word
  cause : Nat
  deriving DecidableEq, Repr

/-- The matrix fault record (spec/15_matrix.md R253). -/
structure MatrixFault where
  cause : Nat
  cap : Word
  maj : Nat
  fn : Nat
  deriving DecidableEq, Repr

/-- Debug requests (spec/13_traps.md R234). -/
inductive Debug where
  | halt | step | stepped
  deriving DecidableEq, Repr

/-- What the second instruction of a pair reads: registers, system registers and OUTCNT as they stood before the first
(spec/03_encoding.md R70). -/
structure View where
  regs : Regs
  pc : Word
  sys : SysRegs
  outcnt : Nat
  deriving DecidableEq, Repr

/-- How a task was created, for a re-run (spec/13_traps.md R224, spec/21_launch_storage.md R330). -/
structure Creation where
  entry : Word := 0
  regs : Regs := {}
  frmode : BitVec 3 := 0
  prio : BitVec 2 := 0
  deriving DecidableEq, Repr

/-- A query of `mwait` (spec/15_matrix.md R264): what it asks, the commands that the tile had accepted before it, and the
answer (cause, ROWS, condition, TFLAGS). -/
structure MQuery where
  cap : Word
  n : Word
  since : Nat
  accepted : Option (List Nat) := none
  answer : Option (Nat × Nat × Bool × BitVec 7) := none
  deriving DecidableEq, Repr

/-- Scheduling state of a task (spec/01_machine.md R27-R31, R41). -/
structure Sched where
  status : Status := .retired
  core : Nat := 0
  slot : Option Nat := none
  entry : Nat := 0
  entryTime : Nat := 0
  /-- the priority with which it last entered the run queue (spec/05_scalar.md R85) -/
  level : BitVec 2 := 0
  slotTime : Nat := 0
  /-- the first cycle in which it may issue (R25) -/
  ableAt : Nat := 0
  wait : Option Wait := none
  /-- waits while holding its slot: the event count at which it last tried -/
  heldAt : Option Nat := none
  started : Bool := false
  /-- the entry's TGT bit and address were checked (R330) -/
  entered : Bool := false
  latch : BitVec 5 := 0
  timedOut : Bool := false
  /-- a `kill` has marked the subject (R230) -/
  killed : Bool := false
  /-- terminated with this cause, waiting for its stores and offers (spec/14_traps_notes.md R247); by `kill` or not -/
  dying : Option (Nat × Bool) := none
  debug : Option Debug := none
  /-- the issue, by code address and iteration, whose breakpoint has trapped and that `eret` resumed: it is not matched again
  (R82) -/
  bkDone : Option (Word × Option Nat) := none
  /-- a `send` to an actor that fires waits for its room: the long op of its delivery (spec/01_machine.md R34) -/
  sent : Option Nat := none
  /-- the actor that a `send` waited for has exited (R34) -/
  sentLost : Bool := false
  /-- the core on which the acquire before its first issue there was made, for a dependant launch (R46) -/
  fencedOn : Option Nat := none
  /-- a `yield` has issued: the slot goes at the end of this issue (R240, spec/03_encoding.md R70) -/
  yielded : Bool := false
  /-- `eret` resumed with the target not checked yet (R55, R224): the TRAPPC that a bad target keeps -/
  resumeFrom : Option Word := none
  /-- requeued by a storage service that failed with this cause and NVMe status (R345) -/
  storage : Option (Nat × BitVec 16) := none
  /-- the issue that a storage service suspended and that has not been reissued: code address and iteration (R346) -/
  metAt : Option (Word × Option Nat) := none
  /-- a `seal` waits for version notices since this cycle (R197) -/
  sealSince : Option Nat := none
  /-- a copy found the version full (spec/09_memory_offers.md R167) -/
  overflow : Bool := false
  /-- an unresolved store met a failed service (R345): cause, address of the store, NVMe status -/
  storeFail : Option (Nat × Word × BitVec 16) := none
  /-- traps raised by replies, held until the task has a slot (R219), in the order in which they landed: cause, TRAPPC, record -/
  late : List (Nat × Word × TrapRec) := []
  /-- runs again from its entry once OUTCNT is 0 (R224) -/
  rerun : Bool := false
  /-- an evicted frame line could not be written (R233): terminated in the run queue with this cause -/
  lostFrame : Option Nat := none
  mquery : Option MQuery := none
  /-- `done` has passed its third step: the matrix commands that it waits for (spec/15_matrix.md R271) -/
  doneQueue : Option (List Nat) := none
  deriving DecidableEq, Repr

/-- A live task: its frame (R86), its memory operations in flight, and its place in the machine. -/
structure Task where
  regs : Regs := {}
  sys : SysRegs := {}
  pc : Word := 0
  rets : Returns := {}
  seq : Sequencer := {}
  slots : Sparse SlotState := []
  attach : Option Nat := none
  held : List Held := []
  long : List LongOp := []
  stores : List Store := []
  /-- a faulting store was not recorded (R227) -/
  lost : Bool := false
  /-- distances of faulting stores whose trap has not been taken (R226) -/
  faulted : List Nat := []
  tagCount : Sparse Nat := []
  copyFaults : Sparse CopyFault := []
  versioned : Bool := false
  version : Sparse VLine := []
  scratch : Sparse Byte := []
  mfault : Option MatrixFault := none
  sched : Sched := {}
  tr : TrapRec := {}
  kind : Kind := .launched
  launch : Nat := 0
  team : Nat := 0
  index : Nat := 0
  handler : Bool := false
  creation : Creation := {}
  foot : List Footprint := []
  filled : Bool := false
  request : Option Request := none
  view : Option View := none
  /-- frame lines held in the register cache, and those of them that are dirty (R88) -/
  cached : BitVec 48 := 0
  dirty : BitVec 48 := 0
  /-- 32-bit words of the cached frame whose parity fails, by number in the frame (R88) -/
  bad : List Nat := []
  /-- words that were recovered for the instruction that is being reissued (R89) -/
  recovered : List Nat := []
  /-- a line of the instruction L1, by its key, whose parity has failed for this task and whose second reading waits
  (spec/03_encoding.md R52) -/
  refetch : Option Nat := none
  deriving DecidableEq, Repr

/-! ### One core -/

/-- A translation held by a core (spec/21_launch_storage.md R335, R336): the PTE, its level and its address. -/
structure Tlb where
  root : Nat
  vpn : Nat
  level : Nat
  pte : Word
  pteAt : Nat
  deriving DecidableEq, Repr

/-- A store-fault record (R225). -/
structure FaultRec where
  va : Word
  pc : Word
  tid : Word
  grps : BitVec 36
  cause : Nat
  kind : StoreKind
  lane : Nat
  data : List Byte
  deriving DecidableEq, Repr

/-- A command of a copy engine (R164-R167): rows of bytes, and how far it has gone. -/
structure Copy where
  op : Nat
  task : Nat
  tag : Nat
  dst : Word
  src : Word
  rowBytes : Nat
  rows : Nat
  dstStride : Word
  srcStride : Word
  scope : Scope
  arrive : Option Nat
  /-- whose pages it walks, and whether its task is versioned -/
  root : Nat
  sys : Bool
  versioned : Bool
  launch : Nat
  row : Nat := 0
  pos : Nat := 0
  /-- the current unit: its bytes read so far, and the pieces written so far (R158) -/
  got : Sparse Byte := []
  put : List Nat := []
  /-- stopped by a fault -/
  fault : Option CopyFault := none
  deriving DecidableEq, Repr

/-- An entry of a capability table (R252). -/
structure CapEntry where
  key : BitVec 48
  read : Bool
  stream : Bool
  load : Bool
  launch : Nat
  deriving DecidableEq, Repr

/-- A row of A (R259, R260): words by position in the layout of R260, block scales by block. Dense rows take the same form. -/
structure OpenRow where
  row : Nat
  words : Sparse (BitVec 32) := []
  scales : Sparse Byte := []
  deriving DecidableEq, Repr

/-- A row that is accepted and not closed yet (R259, R261): its command's number and sending core, dense or not. -/
structure Closing where
  op : Nat
  core : Nat
  dense : Bool
  row : OpenRow
  deriving DecidableEq, Repr

/-- A tile (R255, R256): descriptor, captured formats and biases, slab, counters. -/
structure Tile where
  key : BitVec 48
  owner : Nat
  aty : Ty
  bty : Ty
  ks : Nat
  n : Nat
  m : Nat
  acc : Nat
  save : Nat
  row0 : Nat
  col0 : Nat
  afmt : BitVec 32
  abias : BitVec 8
  bfmt : BitVec 32
  bbias : BitVec 8
  loaded : Bool := false
  kb : Nat := 0
  knext : Nat := 0
  closed : BitVec 128 := 0
  rows : Nat := 0
  tflags : BitVec 7 := 0
  terr : Option (Nat × Nat × Nat) := none
  bcode : Sparse Byte := []
  bscale : Sparse Byte := []
  openRows : List OpenRow := []
  /-- rows accepted and not closed yet, oldest first -/
  closing : List Closing := []
  /-- offset of the last slab image, for a reload (R270) -/
  image : Nat := 0
  /-- a macro whose parity has failed under the oldest accepted row, which waits for the image to be full, and since when (R270) -/
  reloading : Option (Nat × Nat) := none
  deriving DecidableEq, Repr

/-- A tile whose state lies in its save area (R266, R267). -/
structure Saved where
  key : BitVec 48
  save : Nat
  byMsave : Bool
  owner : Nat
  /-- offset of the last slab image (R270) -/
  image : Nat := 0
  deriving DecidableEq, Repr

/-- The matrix unit of a core (R250). -/
structure MUnit where
  caps : List CapEntry := []
  queue : List MCmd := []
  tile : Option Tile := none
  saved : List Saved := []
  /-- offsets of the slab images of the tiles that the unit has saved, by the offset of the save area (R270; the model's own) -/
  images : Sparse Nat := []
  /-- the commands that lie in the spill ring, by position (R268); the model's own: an entry's bytes do not name its task -/
  ring : Sparse MCmd := []
  /-- macros withdrawn, macro (a, b) at bit 4a + b -/
  broken : BitVec 8 := 0
  deriving DecidableEq, Repr

/-- A `kill` in progress (spec/13_traps.md R230, spec/14_traps_notes.md R247-R249): its handler and launch, the tasks it waits
for, the tasks it alone terminated, and the subject, with the cause that it had, when it is a target. -/
structure KillOp where
  handler : Nat
  launch : Nat
  waits : List Nat
  /-- the subject, if it is a target: its stores and offers are waited for (R247) -/
  settles : List Nat := []
  own : List Word
  subject : Option (Word × Nat)
  deriving DecidableEq, Repr

/-- A core's own state (spec/13_traps.md R223 and the chapters of its engines). -/
structure Core where
  hentry : Word := 0
  fpbase : Word := 0
  fplim : Word := 0
  fmap : Word := 0
  last : Nat := 5
  /-- the last cycle in which it issued -/
  issuedAt : Option Nat := none
  /-- the trap queue, oldest first: the cycle of the trap and the slot (R219) -/
  trapq : List (Nat × Nat) := []
  sfq : List FaultRec := []
  sfqLost : Nat := 0
  tlb : List Tlb := []
  /-- evictable frames, oldest mark first (R42) -/
  frames : List Nat := []
  copies : List Copy := []
  outq : List MCmd := []
  munit : MUnit := {}
  requests : List Request := []
  /-- `deleg` requests that wait for the queue (R210), and `amsg` requests in the sender's index engine (R297) -/
  waiting : List Request := []
  amsgs : Nat := 0
  deque : List (Word × Word) := []
  dequeOwner : Option Nat := none
  withdrawn : Bool := false
  serial : Sparse Nat := []
  handlerSince : Nat := 0
  killing : Option KillOp := none
  deriving DecidableEq, Repr

/-- An entry of a core's operand log (spec/05_scalar.md R88). -/
structure LogEntry where
  task : Nat
  reg : Reg
  value : Line
  deriving DecidableEq, Repr

/-! ### Memory -/

/-- A cached line with its byte masks, the version tag of a sealed page (R156), and the tasks whose writes made it dirty
(R159). -/
structure CLine where
  data : Line
  valid : ByteMask
  dirty : ByteMask
  ver : BitVec 32 := 0
  writers : List Nat := []
  deriving DecidableEq, Repr

/-- The page-state table (R153). -/
inductive PageState where
  | unowned | priv (core : Nat) | shared | sealed (v : BitVec 32)
  deriving DecidableEq, Repr

/-- The key under which a line was written (spec/23_host.md R351): `key` is `none` for an unencrypted line. -/
structure LineKey where
  key : Option (BitVec 512)
  tweak : Nat
  deriving DecidableEq, Repr

/-- An entry of a decline table (R178). -/
structure Decline where
  address : Nat
  ty : Option Ty
  stamp : Nat
  tid : Word
  written : Bool
  lease : Option Nat
  deriving DecidableEq, Repr

/-- A decline table and its stamp counter (R178). -/
structure DeclineTable where
  entries : List Decline := []
  counter : Nat := 0
  deriving DecidableEq, Repr

/-- Who asks for a guard object (R171, R200, R355). -/
inductive GuardWho where
  | task (key op : Nat)
  | launch (id : Nat)
  /-- a launch that failed before start without waiting for its object: a grant is given up at once (spec/21_launch_storage.md R323,
  R326) -/
  | ended
  | host (block : Nat)
  deriving DecidableEq, Repr

/-- A request that waits at a guard object's home. -/
structure GuardReq where
  who : GuardWho
  holder : BitVec 56
  shared : Bool
  scope : Scope
  /-- the home has met it; a request that finds the line leased waits for that first (R180) -/
  met : Bool := true
  deriving DecidableEq, Repr

/-- The memory system. DRAM cells lie at channel · 2^31 + offset within the channel (spec/01_machine.md R14, R16); local
store at core · 2^19 + offset (R19). Caches are keyed by line address, with the core (L1, instruction L1) or die (RDC)
above bit 40. -/
structure Mem where
  dram : List Host.Cell := []
  lineKey : Sparse LineKey := []
  chanKey : Sparse (BitVec 512) := []
  /-- full bits of DRAM words, keyed as DRAM cells / 8 (R161) -/
  full : Sparse Bool := []
  ls : List Host.Cell := []
  lsFull : Sparse Bool := []
  l1 : Sparse CLine := []
  ic : Sparse Line := []
  rdc : Sparse CLine := []
  l2 : Sparse CLine := []
  /-- keyed by physical page -/
  page : Sparse PageState := []
  /-- keyed by device channel, 256 + port for a PCIe port and 320 + peer for a Perold peer -/
  decl : Sparse DeclineTable := []
  guards : Sparse (List GuardReq) := []
  /-- poisoned lines (spec/13_traps.md R235) -/
  poison : List Nat := []
  /-- home request queues: entries that hold them against R177 BUSY, given by the agenda -/
  busy : Sparse Nat := []
  /-- 32-bit words of the frame pool that were written back with failing parity, by cell / 4 (spec/05_scalar.md R89) -/
  poisonWords : List Nat := []
  /-- lines of an instruction L1, by key, whose second reading after a parity failure waits (spec/03_encoding.md R52) -/
  icAgain : List Nat := []
  deriving DecidableEq, Repr

/-! ### Launches, actors, groups -/

/-- A launch record (spec/21_launch_storage.md R322). -/
structure LaunchRec where
  entry : Word := 0
  op : Nat := 0
  nteam : Nat := 0
  tsize : Nat := 0
  prio : BitVec 2 := 0
  place : Nat := 0
  die : Nat := 0
  vers : Bool := false
  fullch : Bool := false
  remap : Bool := false
  irq : Bool := false
  desc : Word := 0
  compl : Word := 0
  crec : Word := 0
  ihart : BitVec 32 := 0
  iid : BitVec 11 := 0
  dep0 : Option (Bool × Nat × BitVec 32) := none
  dep1 : Option (Bool × Nat × BitVec 32) := none
  reserved : Bool := false
  deriving DecidableEq, Repr

/-- An item: its bytes, the scope and TASKID of its sender, and the output FIFO it returns room to. -/
structure Item where
  data : Line
  scope : Scope
  sender : Word
  producer : Option (Nat × Nat) := none
  /-- the cycle in which it was delivered, and the long op that delivered it (R34) -/
  since : Nat := 0
  sent : Option (Nat × Nat) := none
  /-- its place among the items of its producer (spec/02_machine_notes.md R49) -/
  order : Nat := 0
  deriving DecidableEq, Repr

/-- A FIFO of an actor (spec/01_machine.md R33, R35). `items` are held in order; `reserved` is the room of a running
firing, `made` the items it has written, `unreturned` those the consumer has not removed. -/
structure Fifo where
  rate : Nat
  cap : Nat
  off : Nat
  items : List Item := []
  reserved : Nat := 0
  made : List Item := []
  held : List Item := []
  unreturned : Nat := 0
  /-- items removed so far: where the next item lies in local store (log entry 19) -/
  head : Nat := 0
  link : Option (Nat × Nat) := none
  deriving DecidableEq, Repr

inductive ActorState where
  | unplaced | placed | swapped | exited
  deriving DecidableEq, Repr

/-- An actor (R33-R37). -/
structure Actor where
  routine : Word
  team : Nat
  task : Nat
  prio : BitVec 2
  handler : Bool
  image : Word
  ins : List Fifo
  outs : List Fifo
  state : ActorState := .unplaced
  core : Nat := 0
  firing : Bool := false
  lastEnd : Nat := 0
  deriving DecidableEq, Repr

/-- A team (R38, R329). `cores` maps a task's index in the team to its core once placed. -/
structure Team where
  die : Option Nat := none
  cores : Sparse Nat := []
  live : Nat := 0
  open_ : Bool := true
  deriving DecidableEq, Repr

/-- A group's members and barrier state (spec/11_ordering_sync.md R204). -/
structure Group where
  members : List (Nat × Nat) := []
  home : Option Nat := none
  c : BitVec 16 := 0
  /-- teams of which a launched task has arrived since the launch began, however often C has come round (spec/01_machine.md R43) -/
  arrived : List Nat := []
  a : Sparse Nat := []
  deriving DecidableEq, Repr

/-- An entry of a task table (R325). -/
structure TaskEnt where
  entry : Word := 0
  g2 : Word := 0
  g3 : Word := 0
  core : Nat := 0
  deriving DecidableEq, Repr

/-- A bank-handler entry (spec/19_bank.md R306, R307): the launch, FMT, FRMODE and the fetch lines. -/
structure HEntry where
  launch : Nat
  fmts : List (BitVec 32)
  rm : BitVec 3
  lines : List Line
  deriving DecidableEq, Repr

inductive LaunchPhase where
  | consumed | waiting | object | running | finishing | done
  deriving DecidableEq, Repr

/-- A launch (R326-R332), from the moment its record is consumed. -/
structure Launch where
  queue : Nat := 0
  seq : BitVec 32 := 0
  root : Nat := 0
  part : Nat := 0
  record : LaunchRec := {}
  phase : LaunchPhase := .consumed
  failed : Option Nat := none
  ents : List TaskEnt := []
  arg2 : Word := 0
  arg3 : Word := 0
  feet : List (Word × Word × Nat × Nat × Bool) := []
  groups : List Group := []
  caps : List (Nat × Nat × Bool × Bool × Bool) := []
  keys : Sparse (BitVec 48) := []
  regions : List (Word × Word) := []
  /-- device channels that its compute regions lie on (R238, R352) -/
  regionChannels : List Nat := []
  handlers : List (Word × Nat) := []
  /-- the bank-handler entries that step 4 has checked and step 6 installs (R326), by number -/
  entries : Sparse HEntry := []
  actors : Sparse Actor := []
  dlq : Word := 0
  dlqLog : Nat := 0
  dlqCount : Nat := 0
  teams : Sparse Team := []
  /-- tasks not dispatched yet -/
  todo : List Nat := []
  liveTasks : Nat := 0
  nret : Nat := 0
  nkill : Nat := 0
  firstTask : Word := 0
  firstCause : Nat := 0
  begun : Option Nat := none
  /-- the cycle of the last retirement -/
  ended : Nat := 0
  dies : List Nat := []
  /-- dies whose owed flush was made for this dependant launch (spec/01_machine.md R46) -/
  reached : List Nat := []
  remoteDies : List Nat := []
  flushed : Bool := true
  objectAt : Option Nat := none
  aborted : Bool := false
  /-- step 6 of R326 is done: entries are installed and dispatch may begin -/
  formed : Bool := false
  /-- ABORT launches that wait for this one's completion record (R323) -/
  aborters : List Nat := []
  order : Nat := 0
  deriving DecidableEq, Repr

/-! ### Engines -/

/-- A gather or scatter job (spec/17_edge.md R298, R299). -/
structure IJob where
  op : Nat
  task : Nat
  core : Nat
  offset : Nat
  scatter : Bool
  tag : Nat
  /-- whose pages it walks -/
  root : Nat
  sys : Bool
  base : Word
  n : Nat
  limit : Nat
  idx : Nat
  data : Nat
  esz : Nat
  opc : Nat
  ity : Nat
  cursor : Nat
  deriving DecidableEq, Repr

/-- One eligible edge of a round (R286): what its activations receive, and how far it has come. Phases: 0 not begun, 1 edge
activation runs, 2 contribution known, 3 filter runs, 4 filter has decided, 5 finished. -/
structure EdgeJob where
  s : Nat
  d : Nat
  val : Word
  vval : Word
  dval : Word
  phase : Nat := 0
  contribution : Option Word := none
  task : Option Nat := none
  deriving DecidableEq, Repr

/-- A running round set (R284-R293), held at its coordinating engine. `desc` is the descriptor as the round began. -/
structure VetchSet where
  graph : Word
  launch : Nat
  core : Nat
  root : Nat
  part : Nat
  prio : BitVec 2
  rounds : Nat
  record : Nat
  arr : Option Nat
  grp : Nat
  clusters : List Nat
  /-- its coordinating cluster, which walks for it (the model's own) -/
  unit : Nat := 0
  desc : Nat := 0
  stop : Bool := false
  round : Nat := 0
  inRound : Bool := false
  pull : Bool := false
  pmode : BitVec 32 := 0
  jobs : List EdgeJob := []
  /-- jobs whose contribution has come, in the order in which it came to the owner engine (R291) -/
  arrived : List Nat := []
  /-- `run` of R286, per destination, in pull -/
  run : Sparse Word := []
  mass : Nat := 0
  finishes : List Nat := []
  edges : Nat := 0
  accepted : Nat := 0
  flast : Word := 0
  cause : Nat := 0
  inner : Nat := 0
  va : Word := 0
  fl : BitVec 7 := 0
  /-- a fault of an engine that has not ended the set yet (R292) -/
  fault : Option (Nat × Word) := none
  ended : Bool := false
  /-- its record is written, and its arrival waits for room (R293, spec/11_ordering_sync.md R204) -/
  closed : Bool := false
  deriving DecidableEq, Repr

structure Cluster where
  jobs : List IJob := []
  /-- the coordinating cluster of the set that has taken this engine -/
  taken : Option Nat := none
  vetch : Option VetchSet := none
  /-- rotation of activations over the member cores (R281) -/
  turn : Nat := 0
  deriving DecidableEq, Repr

/-- A queued `bcall` (R312). -/
structure BankReq where
  task : Nat
  op : Nat
  launch : Nat
  entry : Nat
  pa : Nat
  pageBase : Nat
  pageSize : Nat
  b : Word
  c : Word
  vdst : Bool
  deriving DecidableEq, Repr

structure Sorrel where
  entries : Sparse HEntry := []
  queue : List BankReq := []
  running : Option (BankReq × Nat) := none
  /-- command slots used since the last window of 16 (R315) -/
  slots : Nat := 0
  withdrawn : Bool := false
  deriving DecidableEq, Repr

/-- A team packed for migration (R44, R48). -/
structure Moving where
  launch : Nat
  team : Nat
  target : Nat
  deriving DecidableEq, Repr

/-- Registers and launch-engine state of a compute die. -/
structure Die where
  cxu : Nat := 0
  cxuHeld : Option Nat := none
  migen : Bool := true
  qthr : BitVec 16 := 0x0800
  thr : BitVec 4 := 0
  idle : BitVec 4 := 0
  hot : Bool := false
  temp : BitVec 8 := 0
  /-- the last write to DUTY: its cycle and core (spec/19_bank.md R315) -/
  dutyBy : Option (Nat × Nat) := none
  stack0 : BitVec 8 := 0
  stack1 : BitVec 8 := 0
  /-- free team slots that the die last advertised, and when (R43) -/
  advert : Option (Nat × Nat) := none
  /-- dies that refused a team of this die since their last advertisement (R48) -/
  refused : List Nat := []
  moving : Option Moving := none
  joined : Bool := false
  withdrawn : Bool := false
  deriving DecidableEq, Repr

/-- Who waits for a page service (spec/21_launch_storage.md R341, R342). -/
inductive Waiter where
  | task (key : Nat)
  | store (key op : Nat)
  /-- a copy or an index job by its operation; the launch engine, the Vetch engines and the engine of footprints by theirs, from 2^64 on
  (`engineNumber`) -/
  | engine (id : Nat)
  /-- an offer that was declined: nothing waits (R347) -/
  | offer
  deriving DecidableEq, Repr

/-- A service of a Teasel engine. -/
structure Service where
  id : Nat
  pteAt : Nat
  locator : BitVec 44
  part : Nat
  waiters : List Waiter
  /-- the frame, the PTE read at step 1, and the cycle of the Read, while it is on its way -/
  reading : Option (Nat × Word × Nat) := none
  /-- it found no frame, and waits for evictions (R341 step 2) -/
  hungry : Bool := false
  /-- an eviction that it waited for has reclaimed this frame, under this PTE (R344) -/
  evicted : Option (Nat × Word) := none
  /-- finished: the page of the frame whose requeued waiters have not reissued yet (R346) -/
  served : Option Nat := none
  /-- failed, with engines that have not met the cause yet (R345) -/
  failed : Option Nat := none
  deriving DecidableEq, Repr

/-- The eviction under way in an engine (R343): the PTE's address, the PTE read and the one that replaced it, and the cycle of
the Write, while it is on its way. -/
structure Evict where
  id : Nat
  pteAt : Nat
  old : Word
  new : Word
  part : Nat
  writing : Option Nat := none
  deriving DecidableEq, Repr

structure TeaselSlot where
  nsid : BitVec 32 := 0
  drv : Nat := 0
  lbas : Nat := 0
  pi : Bool := false
  nsv : Bool := false
  nblk : Word := 0
  deriving DecidableEq, Repr

structure TeaselDrive where
  sq : BitVec 52 := 0
  qlog : Nat := 0
  dv : Bool := false
  cq : BitVec 52 := 0
  gone : Bool := false
  deriving DecidableEq, Repr

/-- A Teasel engine's block (R340) and its work. -/
structure Teasel where
  ffbase : BitVec 52 := 0
  fflog : Nat := 0
  ffhead : BitVec 32 := 0
  fftail : BitVec 32 := 0
  evbase : BitVec 52 := 0
  evlog : Nat := 0
  evhead : BitVec 32 := 0
  evtail : BitVec 32 := 0
  lowat : BitVec 16 := 0
  tout : BitVec 24 := 0
  skip : BitVec 32 := 0
  /-- reclaimed frames, oldest first: RECL counts 32 of them at most, and those beyond follow as it falls -/
  reclaimed : List Nat := []
  ns : Sparse TeaselSlot := []
  drives : Sparse TeaselDrive := []
  services : List Service := []
  evict : Option Evict := none
  deriving DecidableEq, Repr

/-- RECL: reclaimed frames held, 0 to 32. Frames that services give back beyond them are kept, and follow as RECL falls (R343: no
reclaimed frame is dropped; log entry 23). -/
def Teasel.recl (t : Teasel) : Nat := min t.reclaimed.length 32

/-! ### Host, fabric, start -/

/-- The context of a work queue (R320). -/
structure QCtx where
  ring : BitVec 58 := 0
  root : BitVec 54 := 0
  rsz : Nat := 0
  head : BitVec 32 := 0
  en : Bool := false
  tail : BitVec 32 := 0
  deriving DecidableEq, Repr

/-- The ownership entry of a channel (spec/23_host.md R351). -/
structure ChanOwn where
  part : Nat := 0
  crm : Bool := false
  /-- scrub in progress: the new partition and when the scrub ends (R352) -/
  scrub : Option (Nat × Nat) := none
  deriving DecidableEq, Repr

structure HostBlock where
  gdone : Bool := true
  gop : Nat := 0
  gerr : Nat := 0
  phase : BitVec 16 := 0
  tva : Word := 0
  tpart : Nat := 0
  /-- a release that waits at the home of its held object -/
  release : Option Nat := none
  /-- `tlbinv` operations of the block that have not completed -/
  pending : List Nat := []
  deriving DecidableEq, Repr

/-- A `tlbinv` that has not completed (R243). -/
structure TlbInv where
  id : Nat
  task : Option Nat
  va : Word
  size : Nat
  all : Bool
  cores : List Nat
  /-- earlier stores of the activation that it waits for (R338) -/
  stores : List Nat
  deriving DecidableEq, Repr

/-- Perold peer entry (R359) and PCIe requester entry (R358). -/
structure Peer where
  v : Bool := false
  remp : Nat := 0
  locp : Nat := 0
  deriving DecidableEq, Repr

structure ReqEnt where
  v : Bool := false
  queue : Nat := 0
  deriving DecidableEq, Repr

/-- What a Yarrow hart's access ends in (R348, R349, R353, R362): its bytes, or the fault that it raises. -/
inductive HartAnswer where
  | bytes (bs : List Byte)
  | accessFault | pageFault | guestPageFault
  deriving DecidableEq, Repr

/-- Something that leaves the device over a port: a write, a read request, a reply, a version notice. Requests carry the partition
that they come from (R359). -/
inductive FabricOut where
  | write (part address : Nat) (data : List Byte)
  | read (part address : Nat) (bytes : Nat)
  | atomic (part address : Nat) (op : Atomic) (wide : Bool) (b c : Word)
  | reply (data : List Byte)
  | unsupported
  | notice (peer page : Nat)
  | msi (hart : BitVec 32) (identity : BitVec 11)
  | removePower
  | reset
  /-- what a Yarrow hart's access gives it -/
  | hart (h : Nat) (answer : HartAnswer)
  deriving DecidableEq, Repr

/-- A RAS record on its way to the ring (spec/13_traps.md R237): its bytes, and whether it interrupts whatever TEN says. -/
structure RasRec where
  bytes : List Byte
  interrupts : Bool
  deriving DecidableEq, Repr

/-- Device registers, tables and the start sequence (R355-R362). -/
structure Dev where
  cycle : Nat := 0
  stage : Nat := 0
  fail : Nat := 0
  svn : BitVec 16 := 0
  peerid : BitVec 6 := 0
  rbase : BitVec 52 := 0
  rlog : Nat := 0
  rhead : BitVec 32 := 0
  rtail : BitVec 32 := 0
  rhart : BitVec 32 := 0
  rlost : Nat := 0
  /-- records that wait for the line of the ring, oldest first (the model's own) -/
  rasq : List RasRec := []
  ten : Bool := false
  iid : BitVec 11 := 0
  /-- what the temperature sensors read: those of the compute dies by number, and of the I/O die as number 4 (R356) -/
  sensors : Sparse (BitVec 8) := []
  tlim : BitVec 8 := 105
  step : Nat := 0
  /-- when the clock step last changed or the temperature condition began: TMAX above TLIM, or 5 °C below it (R364) -/
  stepAt : Nat := 0
  starting : Bool := false
  stopped : Bool := false
  flash : List Byte := []
  digest : BitVec 768 := 0
  rollback : BitVec 16 := 0
  chan : Sparse ChanOwn := []
  corePart : Sparse Nat := []
  queuePart : Sparse Nat := []
  keys : Sparse (BitVec 512) := []
  queues : Sparse QCtx := []
  /-- the queue that was served last (R328) -/
  lastQueue : Nat := 131071
  /-- STATUS of consumed launches, keyed by queue · 2^32 + SEQ (R328) -/
  statuses : Sparse Nat := []
  host : Sparse HostBlock := []
  peers : Sparse Peer := []
  requesters : Sparse ReqEnt := []
  /-- peers that fetched a line of a sealed page, and notices not acknowledged: page, peer -/
  sealedAt : List (Nat × Nat) := []
  notices : List (Nat × Nat) := []
  /-- halves withdrawn, per channel: bit 0, bit 1 -/
  badChan : Sparse (BitVec 2) := []
  badLinks : List Nat := []
  out : List FabricOut := []
  /-- writes to PCIe and Perold space that the far side has not acknowledged, by the key of their task and
  the number of its operation (R159) -/
  unacked : List (Nat × Nat) := []
  /-- the buffer that BAR0 of the recovery endpoint exposes (R361) -/
  bar0 : Sparse Byte := []
  /-- port 0 is an endpoint, as the image states (R362) -/
  endpoint : Bool := false
  deriving DecidableEq, Repr

/-! ### The whole device -/

/-- One thing that may happen next. -/
inductive Act where
  /-- an event, a row of the table -/
  | ev (i : Instr)
  /-- the next single-copy atomic piece of a long op is performed before its result arrives (R158) -/
  | piece (task op : Nat)
  /-- one piece of it, by number, is performed before the others (R158) -/
  | pieceAt (task op i : Nat)
  /-- the next 64-byte unit of a copy is moved (R165) -/
  | copyUnit (core copy : Nat)
  /-- one piece of that unit is read or written before the others (R158) -/
  | copyPiece (core copy i : Nat)
  /-- the far side acknowledges a write of a task to PCIe or Perold space (R159) -/
  | farAck (task op : Nat)
  /-- a temperature sensor reads this many °C: of compute die 0 to 3, or, as number 4, of the I/O die (spec/23_host.md R356) -/
  | heat (sensor : Nat) (celsius : BitVec 8)
  /-- the far side answers a request of a long op, a store or a copy with a fault (spec/13_traps.md R218) -/
  | farFault (task op cause : Nat)
  /-- a cache gives up a line (R151) -/
  | evictL1 (core line : Nat)
  | evictL2 (line : Nat)
  | evictIc (core line : Nat)
  /-- the parity of a 32-bit word of a cached frame fails from now on (spec/05_scalar.md R88) -/
  | flip (task word : Nat)
  /-- the request queue of a home slice fills to this many requests (R177) -/
  | crowd (slice n : Nat)
  /-- cycles pass -/
  | idle (cycles : Nat)
  deriving DecidableEq, Repr

/-- The state of the device. `t` is the task in focus, whose key is `cur`; `tasks` holds every other live task. The focus is
where the machine keeps the task it is working for; it is the model's own (log entry 4). -/
structure State where
  t : Task := {}
  cur : Nat := 0
  tasks : Sparse Task := []
  /-- the operand logs, newest first, per core (R88) -/
  logs : Sparse (List LogEntry) := []
  cores : Sparse Core := []
  mem : Mem := {}
  launches : Sparse Launch := []
  clusters : Sparse Cluster := []
  sorrel : Sparse Sorrel := []
  dies : Sparse Die := []
  teasel : Sparse Teasel := []
  /-- bytes of the namespaces, by drive, namespace identifier, LBA and offset (`nvmeAt`) -/
  nvme : Sparse Byte := []
  dev : Dev := {}
  tlbinvs : List TlbInv := []
  /-- the model's own: what happens next, the number of events so far, the instructions the last issue chose, and the
  counters of operations, launches and free values -/
  agenda : List Act := []
  evs : Nat := 0
  plan : List Instr := []
  ops : Nat := 0
  free : Nat := 0
  deriving DecidableEq, Repr

/-- Why the machine stops. -/
inductive Fault where
  /-- raised by `step` after a thermal trip (spec/23_host.md R364: "the device stops every clock"): no step follows. Safe. -/
  | clocksStopped
  deriving DecidableEq, Repr

/-- Why the model gives no meaning. -/
inductive Refusal where
  /-- raised by `exec` for an instruction that has no meaning yet. Safe. -/
  | notModelled (mnemonic : String)
  deriving DecidableEq, Repr

/-- What a meaning answers. -/
abbrev Result := Host.Outcome State Fault Refusal

/-- The machine right after reset: every field at the value INVENTORY.md names (log entries 1 to 3). No task exists; the
focus holds a retired one. -/
def State.reset : State := {}

end Sys2Proof.Machine
end

