-- ==== Sys2Proof/Machine/Ops.lean ====
section
/-! DEFINITION. Operations on the state that every meaning shares: registers, tasks and cores by key, code addresses, waiting,
and taking and leaving a trap (spec/13_traps.md R219, R224). -/

namespace Sys2Proof.Machine

open Sys2Proof

/-! ### Registers (spec/03_encoding.md R57, spec/05_scalar.md R83) -/

/-- g registers; g0 reads zero. -/
def Regs.rg (r : Regs) (n : Fin 64) : Word := if n = 0 then 0 else r.g.get 0 n.val

def Regs.rv (r : Regs) (n : Fin 32) : Line := r.v.get 0 n.val

/-- p registers; p0 reads true. -/
def Regs.rp (r : Regs) (n : Fin 16) : Bool := n = 0 || r.p.getLsbD n.val

/-- m registers; m0 reads all ones. -/
def Regs.rm (r : Regs) (n : Fin 8) : Word := if n = 0 then BitVec.allOnes 64 else r.m.get 0 n.val

def Regs.rf (r : Regs) (n : Fin 8) : BitVec 32 := r.fmt.get 0 n.val

/-- The value of any register, zero-extended to a line. -/
def Regs.read (r : Regs) : Reg → Line
  | .g n => (r.rg n).setWidth 512
  | .v n => r.rv n
  | .p n => if r.rp n then 1 else 0
  | .m n => (r.rm n).setWidth 512
  | .fmt n => (r.rf n).setWidth 512

/-- A write; hard-wired registers discard it (R57). -/
def Regs.write (r : Regs) (x : Reg) (v : Line) : Regs :=
  match x with
  | .g n => if n = 0 then r else { r with g := r.g.set 0 n.val (v.setWidth 64) }
  | .v n => { r with v := r.v.set 0 n.val v }
  | .p n => if n = 0 then r else
      { r with p := if v.getLsbD 0 then r.p ||| BitVec.twoPow 16 n.val else r.p &&& ~~~ BitVec.twoPow 16 n.val }
  | .m n => if n = 0 then r else { r with m := r.m.set 0 n.val (v.setWidth 64) }
  | .fmt n => { r with fmt := r.fmt.set 0 n.val (v.setWidth 32) }

/-- The register is pending (R71); hard-wired registers never are. -/
def Regs.pending (r : Regs) (x : Reg) : Bool := !x.hardwired && r.pend.getLsbD x.spec

/-- Mark registers pending, but for hard-wired ones. -/
def Regs.mark (r : Regs) (xs : List Reg) : Regs :=
  { r with pend := xs.foldl (fun p x => if x.hardwired then p else p ||| BitVec.twoPow 128 x.spec) r.pend }

def Regs.unmark (r : Regs) (xs : List Reg) : Regs :=
  { r with pend := xs.foldl (fun p x => p &&& ~~~ BitVec.twoPow 128 x.spec) r.pend }

/-- The line of the frame that holds a register (spec/05_scalar.md R86). -/
def Reg.frameLine : Reg → Nat
  | .g n => n.val / 8
  | .v n => 8 + n.val
  | .m _ => 40
  | .p _ | .fmt _ => 41

/-- The 32-bit words of the frame that hold a register, by number (spec/05_scalar.md R86). -/
def Reg.frameWords : Reg → List Nat
  | .g n => [2 * n.val, 2 * n.val + 1]
  | .v n => (List.range 16).map (128 + 16 * n.val + ·)
  | .m n => [640 + 2 * n.val, 641 + 2 * n.val]
  | .fmt n => [656 + n.val]
  | .p _ => [664]

/-! ### Tasks -/

def Task.live (t : Task) : Bool := t.sched.status != .retired

/-- The iteration whose instruction issues, where the sequencer issues it (spec/07_arithmetic.md R143). -/
def Task.iteration (t : Task) : Option Nat := if t.seq.stream.isSome then some t.seq.j else none

/-- Registers as the current instruction sees them: the second instruction of a pair reads what stood before the first
(R70). -/
def Task.seen (t : Task) : Regs :=
  match t.view with
  | some v => v.regs
  | none => t.regs

/-- OUTCNT (R85). -/
def Task.outcnt (t : Task) : Nat := t.long.length

/-- System registers and OUTCNT as the current instruction reads them (R70). -/
def Task.seenSys (t : Task) : SysRegs :=
  match t.view with
  | some v => v.sys
  | none => t.sys

def Task.seenOutcnt (t : Task) : Nat :=
  match t.view with
  | some v => v.outcnt
  | none => t.outcnt

/-- What the second instruction of a pair will read, taken before the first (R70). -/
def Task.toView (t : Task) : View := { regs := t.seen, pc := t.pc, sys := t.seenSys, outcnt := t.seenOutcnt }

/-- A register write by a task: the line it lies in becomes dirty, and the parity of its words is set (spec/05_scalar.md R88). -/
def Task.setReg (t : Task) (x : Reg) (v : Line) : Task :=
  { t with regs := t.regs.write x v, dirty := t.dirty ||| BitVec.twoPow 48 (Reg.frameLine x),
           bad := t.bad.filter fun w => !(Reg.frameWords x).contains w }

def Task.orFlags (t : Task) (f : BitVec 7) : Task := { t with sys := { t.sys with flags := t.sys.flags ||| f } }

/-- The task with a key, in focus or not. -/
def State.task? (s : State) (k : Nat) : Option Task :=
  if s.cur = k then (if s.t.live then some s.t else none) else s.tasks.find? k

/-- Every live task with its key. -/
def State.allTasks (s : State) : List (Nat × Task) := if s.t.live then (s.cur, s.t) :: s.tasks else s.tasks

/-- Change the task with a key. -/
def State.onTask (s : State) (k : Nat) (f : Task → Task) : State :=
  if s.cur = k then { s with t := f s.t }
  else match s.tasks.find? k with
    | some t => { s with tasks := s.tasks.put k (f t) }
    | none => s

/-- Change the task in focus. -/
def State.onT (s : State) (f : Task → Task) : State := { s with t := f s.t }

/-- Put the focus on a task. -/
def State.focus (s : State) (k : Nat) : State :=
  if s.cur = k then s
  else
    let ts := if s.t.live then s.tasks.put s.cur s.t else s.tasks
    match ts.find? k with
    | some t => { s with t := t, cur := k, tasks := ts.erase k }
    | none => s

/-- Add a live task under a key that no live task has. -/
def State.addTask (s : State) (k : Nat) (t : Task) : State :=
  if s.cur = k then { s with t := t } else { s with tasks := s.tasks.put k t }

/-- Remove a task. In focus, it stays behind as a retired one. -/
def State.dropTask (s : State) (k : Nat) : State :=
  if s.cur = k then { s with t := { s.t with sched := { s.t.sched with status := .retired, slot := none } } }
  else { s with tasks := s.tasks.erase k }

/-! ### Cores and other units by number -/

def State.core (s : State) (n : Nat) : Core := s.cores.get {} n
def State.onCore (s : State) (n : Nat) (f : Core → Core) : State := { s with cores := s.cores.set {} n (f (s.core n)) }
def State.myCore (s : State) : Core := s.core s.t.sched.core
def State.die (s : State) (d : Nat) : Die := s.dies.get {} d
def State.onDie (s : State) (d : Nat) (f : Die → Die) : State := { s with dies := s.dies.set {} d (f (s.die d)) }
def State.cluster (s : State) (c : Nat) : Cluster := s.clusters.get {} c
def State.onCluster (s : State) (c : Nat) (f : Cluster → Cluster) : State :=
  { s with clusters := s.clusters.set {} c (f (s.cluster c)) }
def State.unit (s : State) (u : Nat) : Sorrel := s.sorrel.get {} u
def State.onUnit (s : State) (u : Nat) (f : Sorrel → Sorrel) : State := { s with sorrel := s.sorrel.set {} u (f (s.unit u)) }
def State.engine (s : State) (e : Nat) : Teasel := s.teasel.get {} e
def State.onEngine (s : State) (e : Nat) (f : Teasel → Teasel) : State := { s with teasel := s.teasel.set {} e (f (s.engine e)) }
def State.launch? (s : State) (l : Nat) : Option Launch := s.launches.find? l
def State.onLaunch (s : State) (l : Nat) (f : Launch → Launch) : State :=
  match s.launches.find? l with
  | some x => { s with launches := s.launches.put l (f x) }
  | none => s
def State.onDev (s : State) (f : Dev → Dev) : State := { s with dev := f s.dev }
def State.onMem (s : State) (f : Mem → Mem) : State := { s with mem := f s.mem }
def State.onUnitM (s : State) (core : Nat) (f : MUnit → MUnit) : State :=
  s.onCore core fun c => { c with munit := f c.munit }

/-- spec/01_machine.md R13: the die and the device cluster number of a core. -/
def dieOf (core : Nat) : Nat := core / 1024
def clusterOf (core : Nat) : Nat := core / 16
def dieOfCluster (c : Nat) : Nat := c / 64

/-- The next operation number: long ops, stores and commands take them in issue order. -/
def State.nextOp (s : State) : Nat × State := (s.ops, { s with ops := s.ops + 1 })

/-- A free value for a read that the model does not decide (log entry 7). -/
def State.freeBytes (s : State) (n : Nat) : List Byte × State :=
  ((List.range n).map fun i => Config.freeByte (s.free + i), { s with free := s.free + n })

/-! ### Register access of the running instruction -/

def State.rg (s : State) (n : Fin 64) : Word := s.t.seen.rg n
def State.read (s : State) (x : Reg) : Line := s.t.seen.read x

/-- The low 64 bits of a register operand. -/
def State.readW (s : State) (x : Reg) : Word := (s.read x).setWidth 64

/-- The operand log takes every register write that reaches the register cache, newest first, 64 of them (R88). -/
def State.logWrite (s : State) (core key : Nat) (x : Reg) (v : Line) : State :=
  if 4096 ≤ core then s
  else { s with logs := s.logs.put core (({ task := key, reg := x, value := v } :: s.logs.get [] core).take 64) }

/-- Write a register of the task in focus. -/
def State.write (s : State) (x : Reg) (v : Line) : State :=
  if x.hardwired then s
  else ({ s with t := s.t.setReg x v }).logWrite s.t.sched.core s.cur x v

def State.writeW (s : State) (x : Reg) (v : Word) : State := s.write x (v.setWidth 512)

def State.writeP (s : State) (n : Fin 16) (b : Bool) : State := s.write (.p n) (if b then 1 else 0)

def State.orFlags (s : State) (f : BitVec 7) : State := { s with t := s.t.orFlags f }

/-! ### Code addresses (spec/03_encoding.md R54) -/

/-- The code address that follows in sequence. -/
def nextPc (pc : Word) : Word := if pc.toNat % 8 ≥ 4 then BitVec.ofNat 64 (pc.toNat / 64 * 64 + 64) else pc + 1

/-- The line address of a code address. -/
def lineOf (pc : Word) : Word := pc &&& ~~~ (63 : Word)

/-- The instruction is done: execution goes on in sequence. -/
def State.advance (s : State) : State := { s with t := { s.t with pc := nextPc s.t.pc, view := none } }

/-- A taken transfer. -/
def State.jump (s : State) (target : Word) : State := { s with t := { s.t with pc := target, view := none } }

/-! ### Waiting (spec/01_machine.md R26) -/

/-- The task keeps its slot and tries the instruction again after the next event. -/
def State.hold (s : State) : State := s.onT fun t => { t with sched := { t.sched with heldAt := some s.evs } }

/-- The task can issue in this cycle. -/
def State.canIssue (s : State) (t : Task) : Bool :=
  t.sched.status == .issuing && t.sched.slot.isSome && t.sched.dying.isNone && t.sched.ableAt ≤ s.dev.cycle &&
  (match t.sched.heldAt with
    | some e => e != s.evs
    | none => true)

/-- The core may still issue in this cycle. -/
def State.mayIssue (s : State) (core : Nat) : Bool :=
  (s.core core).issuedAt != some s.dev.cycle && s.allTasks.any fun e => e.2.sched.core == core && s.canIssue e.2

/-- The task parks. -/
def State.park (s : State) (w : Wait) : State :=
  s.onT fun t => { t with sched := { t.sched with status := .parked, wait := some w } }

/-! ### Commands held under guard slots -/

/-- The copy tag that a command carries (spec/07_arithmetic.md R147, spec/09_memory_offers.md R165, spec/17_edge.md R297,
R299). -/
def Held.tag? (h : Held) : Option Nat :=
  match h.ins with
  | .copy o | .copyx o | .amsg o | .gath o | .scat o => some (o.imm.toNat % 64)
  | _ => none

/-- One completion of a copy tag: the count falls, and the bit is set when it reaches zero (R164). The slot's TAG event is
latched (R241). -/
def Task.completeTag (t : Task) (tag : Nat) : Task :=
  let n := t.tagCount.get 0 tag - 1
  let t := { t with tagCount := t.tagCount.set 0 tag n }
  let t := if n = 0 then { t with sys := { t.sys with tags := t.sys.tags ||| BitVec.twoPow 64 tag } } else t
  if t.sched.slot.isSome then { t with sched := { t.sched with latch := t.sched.latch ||| 1 } } else t

/-- Discard a held command (R147, spec/15_matrix.md R273): a copy sets its tag bit, a long op writes zero when it lands, an
`mcap` writes zero. -/
def Task.discard (t : Task) (h : Held) : Task :=
  let t := { t with long := t.long.map fun l => if l.op = h.op then { l with act := .ready 0, slot := none } else l }
  let t := match h.ins with
    | .mcap o => t.setReg o.dst 0
    | _ => t
  match h.tag? with
  | some tag => t.completeTag tag
  | none => t

/-- The commands that closing the open slots discards (R148): those held under them. -/
def Task.doomed (t : Task) : List Held := t.held.filter fun h => h.fixed != some true

/-- Open slots resolve false and their commands are discarded (R148). Commands that only stood behind them go on. -/
def Task.closeSlots (t : Task) : Task :=
  let t' := t.doomed.foldl Task.discard t
  { t' with held := t.held.filter fun h => h.fixed == some true,
            slots := t.slots.map fun e => (e.1, if e.2 = .opened then .no else e.2) }

/-- Registers that the discard of commands writes with zero: those of an `mcap` (spec/15_matrix.md R273). -/
def zeroedBy (hs : List Held) : List Reg := hs.filterMap fun h => match h.ins with
  | .mcap o => some o.dst
  | _ => none

/-- The discards of held commands, as the operand log sees them (spec/05_scalar.md R88). -/
def State.logZeros (s : State) (core key : Nat) (hs : List Held) : State :=
  (zeroedBy hs).foldl (fun s x => if x.hardwired then s else s.logWrite core key x 0) s

/-- Close the open slots of the task in focus. -/
def State.closeSlots (s : State) : State := (s.logZeros s.t.sched.core s.cur s.t.doomed).onT Task.closeSlots

/-! ### Taking a trap (spec/13_traps.md R219, spec/01_machine.md R39) -/

/-- A versioned task that traps loses its version and scratch (R39), and its open slots resolve false (R148). -/
def Task.discardVersion (t : Task) : Task :=
  if t.versioned then { t.closeSlots with version := [], scratch := [] } else t

/-- The trapping task: the trapped state, CAUSE, TRAPPC and the trap record. An issue that was resumed past its breakpoint and traps of
itself keeps its `bkDone`: it is not matched again when that trap's `eret` resumes it (spec/04_encoding_notes.md R82; log entry 48). -/
def Task.enterTrap (t : Task) (cause : Nat) (pc : Word) (r : TrapRec) : Task :=
  let v := t.versioned
  let t := if cause = 0x5C then t else t.discardVersion
  { t with
      sys := { t.sys with cause := BitVec.ofNat 64 cause, trappc := pc }
      tr := { r with cause := cause, vers := v, slot := t.sched.slot.getD 0, pc := pc }
      view := none
      recovered := []
      sched := { t.sched with status := .trapped, wait := none, heldAt := none, mquery := none, doneQueue := none,
                              yielded := false } }

/-- The discards that a trap makes (R39), as the operand log sees them. -/
def State.logTrap (s : State) (key : Nat) (t : Task) (cause : Nat) : State :=
  if t.versioned && cause != 0x5C then s.logZeros t.sched.core key t.doomed else s

/-- A trap queue with one more entry: oldest first, and traps of one cycle in slot order (R219). -/
def enqueueTrap (q : List (Nat × Nat)) (cycle slot : Nat) : List (Nat × Nat) :=
  let before (e : Nat × Nat) : Bool := decide (e.1 < cycle) || decide (e.2 < slot)
  q.filter before ++ (cycle, slot) :: q.filter fun e => !before e

/-- A trap from slots 0 to 6 enters the trap queue of its core. -/
def State.queueTrap (s : State) (core slot : Nat) : State :=
  if slot < 7 then s.onCore core fun c => { c with trapq := enqueueTrap c.trapq s.dev.cycle slot } else s

/-- Take a trap in the task in focus at a code address: it enters the trapped state and, from slots 0 to 6, its core's trap
queue. The trap of a handler activation is a handler fault, and that of a Sorrel handler ends the handler: both are
finished after the issue. -/
def State.trapAt (s : State) (cause : Nat) (pc : Word) (r : TrapRec) : State :=
  ((s.logTrap s.cur s.t cause).onT fun t => t.enterTrap cause pc r).queueTrap s.t.sched.core (s.t.sched.slot.getD 7)

/-- The precise trap of the current instruction. -/
def State.trapWith (s : State) (cause : Nat) (r : TrapRec) : State := s.trapAt cause s.t.pc r

def State.trap (s : State) (cause : Nat) : State := s.trapWith cause {}

/-- A trap with a faulting address. -/
def State.trapVa (s : State) (cause : Nat) (va : Word) : State := s.trapWith cause { g4 := va }

/-- A task traps that need not be in focus. -/
def State.trapTask (s : State) (key cause : Nat) (pc : Word) (r : TrapRec) : State :=
  match s.task? key with
  | none => s
  | some t =>
    ((s.logTrap key t cause).onTask key fun t => t.enterTrap cause pc r).queueTrap t.sched.core (t.sched.slot.getD 7)

/-- The trap record of a reply to a long op: one that the sequencer issued names its iteration (spec/07_arithmetic.md R145). -/
def LongOp.record (l : LongOp) (r : TrapRec) : TrapRec :=
  match l.iter with
  | some j => { r with seq := true, aux := BitVec.ofNat 16 j }
  | none => r

/-- A trap raised by a reply that lands (R219): at once if the task holds a slot and runs, else held with the task, behind those
that are held already. The terminated take none, nor those that run again from their entry. -/
def State.lateTrap (s : State) (key cause : Nat) (pc : Word) (r : TrapRec) : State :=
  match s.task? key with
  | none => s
  | some t =>
    if t.sched.dying.isSome || t.sched.rerun then s
    else match t.sched.status, t.sched.slot with
    | .issuing, some _ | .parked, some _ => s.trapTask key cause pc r
    | _, _ => s.onTask key fun t => { t with sched := { t.sched with late := t.sched.late ++ [(cause, pc, r)] } }

/-! ### Leaving a trap: resume (R224) -/

/-- The subject issues again from a code address and keeps its whole state. `bkDone` is the issue that a breakpoint does not match
again (spec/04_encoding_notes.md R82). -/
def Task.resume (t : Task) (pc : Word) (bkDone : Option (Word × Option Nat)) : Task :=
  { t with pc := pc, view := none,
           sched := { t.sched with status := .issuing, wait := none, heldAt := none, bkDone := bkDone } }

end Sys2Proof.Machine
end

