-- ==== Sys2Proof/Machine/Mem.lean ====
section
/-! DEFINITION. The levels of memory: channels, home slices, RDC slices, L1 and local store, with page states, recalls and
full bits (spec/01_machine.md R14-R20, spec/09_memory_offers.md R151-R161, R178, spec/23_host.md R351, R352). -/

namespace Sys2Proof.Machine

open Sys2Proof

/-! ### Bytes of lines -/

/-- Bytes from a number, least significant first (spec/00_scope.md R4). -/
def toBytes (n x : Nat) : List Byte := (List.range n).map fun i => BitVec.ofNat 8 (x / 256 ^ i)

/-- The number that bytes form, least significant first. -/
def ofBytes (bs : List Byte) : Nat := bs.foldr (fun b acc => b.toNat + 256 * acc) 0

/-- A mask of n bytes from byte k of a line on. -/
def maskOf (k n : Nat) : ByteMask := BitVec.ofNat 64 ((2 ^ n - 1) * 2 ^ k)

/-- The bit mask of a byte mask. -/
def bitsOf (m : ByteMask) : Line :=
  BitVec.ofNat 512 ((List.range 64).foldl (fun acc i => if m.getLsbD i then acc + 255 * 256 ^ i else acc) 0)

/-- Bytes of `a` under the mask, of `b` elsewhere. -/
def mergeLine (m : ByteMask) (a b : Line) : Line := (a &&& bitsOf m) ||| (b &&& ~~~ bitsOf m)

/-- n bytes of a line from byte k on, as a number. -/
def sliceLine (l : Line) (k n : Nat) : Nat := l.toNat / 256 ^ k % 256 ^ n

/-- A line that holds n bytes from byte k on. -/
def placeLine (x k n : Nat) : Line := BitVec.ofNat 512 (x % 256 ^ n * 256 ^ k)

def allBytes : ByteMask := BitVec.allOnes 64

/-! ### Physical addresses (spec/01_machine.md R14, R16, spec/23_host.md R348) -/

inductive Space where
  | dram | control | pcie (port : Nat) | perold (peer : Nat) | hole
  deriving DecidableEq, Repr

def spaceOf (pa : Nat) : Space :=
  if pa < 0x8000000000 then .dram
  else if pa < 0x8100000000 then (if 0x8000000000 ≤ pa then .control else .hole)
  else if 0x100000000000 ≤ pa ∧ pa < 0x100000000000 + 6 * 2 ^ 40 then .pcie ((pa - 0x100000000000) / 2 ^ 40)
  else if 0x200000000000 ≤ pa ∧ pa < 0x200000000000 + 64 * 2 ^ 40 then .perold ((pa - 0x200000000000) / 2 ^ 40)
  else .hole

/-- The home die of a DRAM address. -/
def homeDie (pa : Nat) : Nat := pa / 2 ^ 37 % 4

/-- R16: channel of the die and address within the channel, under a channel-exclusive size of `cxu` · 256 MiB. -/
def channelOf (cxu pa : Nat) : Nat × Nat :=
  let o := pa % 2 ^ 37
  let x := cxu * 2 ^ 28
  let b := 2 ^ 37 - 64 * x
  if o < b then (o / 1024 % 64, o / 65536 * 1024 + o % 1024)
  else ((o - b) / x, (2 ^ 31 - x) + (o - b) % x)

/-- The address lies in a channel-exclusive block (R16). -/
def inExclusive (cxu pa : Nat) : Bool := 2 ^ 37 - 64 * (cxu * 2 ^ 28) ≤ pa % 2 ^ 37

def State.cxuOf (s : State) (pa : Nat) : Nat := (s.die (homeDie pa)).cxu

/-- The device channel of a DRAM address (R14). -/
def State.devChannel (s : State) (pa : Nat) : Nat := 64 * homeDie pa + (channelOf (s.cxuOf pa) pa).1

/-- The DRAM cell of an address. -/
def State.cellOf (s : State) (pa : Nat) : Nat := s.devChannel pa * 2 ^ 31 + (channelOf (s.cxuOf pa) pa).2

def lineAt (pa : Nat) : Nat := pa / 64 * 64
def pageAt (pa : Nat) : Nat := pa / 4096

/-! ### Byte memories in canonical form -/

/-- What an unlisted address reads as (log entry 1). -/
def emptyByte : Byte := 0

/-- The canonical form: addresses strictly rising, no entry equal to what an unlisted address reads as. -/
abbrev Memory.wf (m : List Host.Cell) : Bool := Sparse.wf emptyByte m

/-- Read n bytes as a number. -/
def readCells (m : List Host.Cell) (a n : Nat) : Nat :=
  ofBytes ((List.range n).map fun i => Sparse.get emptyByte m (a + i))

/-- Write bytes. -/
def writeCells (m : List Host.Cell) (a : Nat) : List Byte → List Host.Cell
  | [] => m
  | b :: bs => writeCells (Sparse.set emptyByte m a b) (a + 1) bs

/-! ### Channels and keys (spec/23_host.md R351, R352) -/

def State.ownOf (s : State) (ch : Nat) : ChanOwn := s.dev.chan.get {} ch

/-- The key under which a line is now written and read: none in a compute region (spec/01_machine.md R21). -/
def State.keyNow (s : State) (pa : Nat) : LineKey :=
  let own := s.ownOf (s.devChannel pa)
  { key := if own.crm && inExclusive (s.cxuOf pa) pa then none else some (s.dev.keys.get 0 own.part), tweak := pa / 64 }

/-- What the channel holds of a line, or what its bytes are, under a key; a line under none is not encrypted (R351). -/
def LineKey.seal (k : LineKey) (x : Line) : Line := match k.key with
  | some key => xtsEncrypt key k.tweak x
  | none => x
def LineKey.unseal (k : LineKey) (x : Line) : Line := match k.key with
  | some key => xtsDecrypt key k.tweak x
  | none => x

/-- The bytes of a line at its channel. The model keeps them as they were before encryption, beside the key and the tweak: under
another key the line decrypts to what that key yields (R352). One that nothing has written reads as log entry 1 says. -/
def State.chanRead (s : State) (pa : Nat) : Line :=
  let c := s.cellOf (lineAt pa)
  let raw := BitVec.ofNat 512 (readCells s.mem.dram c 64)
  let written := match s.mem.lineKey.find? (c / 64) with
    | some k => some k
    | none => (s.mem.chanKey.find? (c / 2 ^ 31)).map fun k => { key := some k, tweak := lineAt pa / 64 }
  match written with
  | none => raw
  | some k =>
    let now := s.keyNow (lineAt pa)
    if k = now then raw else now.unseal (k.seal raw)

/-- Write a whole line at its channel. -/
def State.chanPut (s : State) (pa : Nat) (x : Line) : State :=
  let c := s.cellOf (lineAt pa)
  s.onMem fun m =>
    { m with dram := writeCells m.dram c (toBytes 64 x.toNat), lineKey := m.lineKey.put (c / 64) (s.keyNow (lineAt pa)) }

def State.chanWrite (s : State) (pa : Nat) (x : Line) (mask : ByteMask) : State :=
  if mask = 0 then s else s.chanPut pa (mergeLine mask x (s.chanRead pa))

/-! ### Decline tables (R178) -/

/-- The table of an address: of its home slice or of its fabric port; control space has none, and its key has no entries. -/
def State.declKey (s : State) (pa : Nat) : Nat :=
  match spaceOf pa with
  | .pcie p => 256 + p
  | .perold p => 320 + p
  | .control => 512
  | _ => s.devChannel pa

/-- Every write that reaches a line at its home sets the written bit of the line's entries. -/
def State.markWritten (s : State) (pa : Nat) : State :=
  let k := s.declKey pa
  match s.mem.decl.find? k with
  | none => s
  | some t =>
    let es := t.entries.map fun e => if lineAt e.address = lineAt pa then { e with written := true } else e
    s.onMem fun m => { m with decl := m.decl.put k { t with entries := es } }

/-- The line is leased (R180). -/
def State.leased (s : State) (pa : Nat) : Bool :=
  match s.mem.decl.find? (s.declKey pa) with
  | none => false
  | some t => t.entries.any fun e => e.lease.isSome && lineAt e.address == lineAt pa

/-! ### Home slices (R151) and room in the caches -/

/-- Lines that the caches hold (spec/00_scope.md R10, spec/01_machine.md R12, R13): the L1 data and the L1 instruction cache of a
core, a home slice, an RDC slice. -/
def l1Room : Nat := 1024
def icRoom : Nat := 1024
def l2Room : Nat := 24576
def rdcRoom : Nat := 8192

/-- The line that a full cache gives up: which one, the spec leaves open (log entry 42). -/
def State.pickVictim (s : State) (ls : List Nat) : Option Nat × State :=
  (ls[Config.victim s.free % ls.length]?, { s with free := s.free + 1 })

/-- The home slice gives up a line: dirty bytes go to the channel. -/
def State.evictHome (s : State) (line : Nat) : State :=
  match s.mem.l2.find? line with
  | none => s
  | some c => (s.chanWrite line c.data c.dirty).onMem fun m => { m with l2 := m.l2.erase line }

/-- A full home slice gives up a line that no lease holds, to take another. -/
def State.roomHome (s : State) (pa : Nat) : State :=
  if s.mem.l2.length < l2Room then s
  else
    let ls := (s.mem.l2.map (·.1)).filter fun l => s.devChannel l == s.devChannel pa
    if ls.length < l2Room then s
    else match s.pickVictim (ls.filter fun l => !s.leased l) with
    | (none, s) => s
    | (some l, s) => s.evictHome l

/-- A line read at its home slice, which then holds it. -/
def State.homeRead (s : State) (pa : Nat) : Line × State :=
  match s.mem.l2.find? (lineAt pa) with
  | some c => (c.data, s)
  | none =>
    let x := s.chanRead pa
    (x, (s.roomHome pa).onMem fun m => { m with l2 := m.l2.put (lineAt pa) { data := x, valid := allBytes, dirty := 0 } })

/-- Bytes written at the home slice. -/
def State.homeWrite (s : State) (pa : Nat) (x : Line) (mask : ByteMask) : State :=
  if mask = 0 then s
  else
    let (old, s) := s.homeRead pa
    let d := match s.mem.l2.find? (lineAt pa) with
      | some c => c.dirty
      | none => 0
    (s.onMem fun m =>
      { m with l2 := m.l2.put (lineAt pa) { data := mergeLine mask x old, valid := allBytes, dirty := d ||| mask } }).markWritten pa

/-- Dirty bytes of the home slice go to the channel and the line stays (R169). -/
def State.cleanHome (s : State) (line : Nat) : State :=
  match s.mem.l2.find? line with
  | none => s
  | some c => (s.chanWrite line c.data c.dirty).onMem fun m => { m with l2 := m.l2.put line { c with dirty := 0 } }

/-! ### RDC slices (R156) -/

def rdcKey (die line : Nat) : Nat := die * 2 ^ 40 + line

def State.pageState (s : State) (pa : Nat) : PageState := s.mem.page.get .unowned (pageAt pa)

def State.setPage (s : State) (page : Nat) (p : PageState) : State :=
  s.onMem fun m => { m with page := m.page.set .unowned page p }

/-- The version under which a copy of the line is tagged; 0 outside sealed pages. -/
def State.versionOf (s : State) (pa : Nat) : BitVec 32 :=
  match s.pageState pa with
  | .sealed v => v
  | _ => 0

/-- Dirty bytes of an RDC line go to its home and the line stays; to a leased line they go once the lease has ended (R180). -/
def State.rdcWriteThrough (s : State) (die line : Nat) : State :=
  match s.mem.rdc.find? (rdcKey die line) with
  | none => s
  | some c =>
    if c.dirty = 0 || s.leased line then s
    else (s.homeWrite line c.data c.dirty).onMem fun m =>
      { m with rdc := m.rdc.put (rdcKey die line) { c with dirty := 0, writers := [] } }

/-- R156: write through, then drop. Dirty bytes that wait for a lease to end stay, and only they. -/
def State.rdcDrop (s : State) (die line : Nat) : State :=
  let s := s.rdcWriteThrough die line
  match s.mem.rdc.find? (rdcKey die line) with
  | none => s
  | some c => s.onMem fun m =>
    { m with rdc := if c.dirty = 0 then m.rdc.erase (rdcKey die line) else m.rdc.put (rdcKey die line) { c with valid := c.dirty } }

/-- A full RDC slice gives up a line that no lease holds, to take another. -/
def State.roomRdc (s : State) (die pa : Nat) : State :=
  if s.mem.rdc.length < rdcRoom || (s.mem.rdc.find? (rdcKey die (lineAt pa))).isSome then s
  else
    let ls := ((s.mem.rdc.range (rdcKey die 0) (rdcKey (die + 1) 0)).map fun e => e.1 % 2 ^ 40).filter fun l =>
      s.devChannel l % 64 == s.devChannel pa % 64
    if ls.length < rdcRoom then s
    else match s.pickVictim (ls.filter fun l => !s.leased l) with
    | (none, s) => s
    | (some l, s) => s.rdcDrop die l

/-- A load served by the RDC slice of a die. -/
def State.rdcRead (s : State) (die pa : Nat) : Line × State :=
  let k := rdcKey die (lineAt pa)
  let c := s.mem.rdc.get { data := 0, valid := 0, dirty := 0 } k
  let v := s.versionOf pa
  let keep := if c.ver = v then c.valid else c.dirty
  if keep = allBytes then (c.data, s)
  else
    let (h, s) := s.homeRead pa
    let x := mergeLine keep c.data h
    (x, (s.roomRdc die pa).onMem fun m => { m with rdc := m.rdc.put k { c with data := x, valid := allBytes, ver := v } })

/-- A store absorbed by the RDC slice of a die, for a task. -/
def State.rdcWrite (s : State) (die pa : Nat) (x : Line) (mask : ByteMask) (writer : Nat) : State :=
  let k := rdcKey die (lineAt pa)
  let c := s.mem.rdc.get { data := 0, valid := 0, dirty := 0 } k
  let ws := if c.writers.contains writer then c.writers else c.writers ++ [writer]
  let keep := if c.ver = s.versionOf pa then c.valid else c.dirty
  let c : CLine := { data := mergeLine mask x c.data, valid := keep ||| mask, dirty := c.dirty ||| mask,
                     ver := s.versionOf pa, writers := ws }
  (s.roomRdc die pa).onMem fun m => { m with rdc := m.rdc.put k c }

/-! ### L1 data -/

def l1Key (core line : Nat) : Nat := core * 2 ^ 40 + line

/-- Dirty bytes of an L1 line go to its home and the line is dropped (R151, R155). -/
def State.l1Drop (s : State) (core line : Nat) : State :=
  match s.mem.l1.find? (l1Key core line) with
  | none => s
  | some c => (s.homeWrite line c.data c.dirty).onMem fun m => { m with l1 := m.l1.erase (l1Key core line) }

/-- Dirty bytes of an L1 line go to its home and the line stays clean. -/
def State.l1Clean (s : State) (core line : Nat) : State :=
  match s.mem.l1.find? (l1Key core line) with
  | none => s
  | some c => (s.homeWrite line c.data c.dirty).onMem fun m =>
      { m with l1 := m.l1.put (l1Key core line) { c with dirty := 0 } }

/-- The L1 lines that a core holds, as line addresses. -/
def State.l1Lines (s : State) (core : Nat) : List Nat :=
  (s.mem.l1.range (l1Key core 0) (l1Key (core + 1) 0)).map fun e => e.1 % 2 ^ 40

/-- A full L1 gives up a line, to take another. -/
def State.roomL1 (s : State) (core : Nat) : State :=
  if s.mem.l1.length < l1Room then s
  else
    let ls := s.l1Lines core
    if ls.length < l1Room then s
    else match s.pickVictim ls with
    | (none, s) => s
    | (some l, s) => s.l1Drop core l

/-- A dirty line of the RDC of a die cannot be written through yet: a lease holds it at its home (R180). -/
def State.rdcBlocked (s : State) (die : Nat) : Bool :=
  (s.mem.rdc.range (rdcKey die 0) (rdcKey (die + 1) 0)).any fun e => e.2.dirty != 0 && s.leased (e.1 % 2 ^ 40)

/-- The RDC lines that a die holds. -/
def State.rdcLines (s : State) (die : Nat) : List Nat :=
  (s.mem.rdc.range (rdcKey die 0) (rdcKey (die + 1) 0)).map fun e => e.1 % 2 ^ 40

/-- The caches of every core that hold a line. -/
def State.l1Holders (s : State) (line : Nat) : List Nat :=
  (s.mem.l1.filter fun e => e.1 % 2 ^ 40 == line).map fun e => e.1 / 2 ^ 40

/-! ### Page states and recalls (R153, R154) -/

/-- The RDC slice of a die gives up the lines of a page. -/
def State.rdcDropPage (s : State) (page die : Nat) : State :=
  ((s.rdcLines die).filter fun l => pageAt l == page).foldl (fun s l => s.rdcDrop die l) s

/-- R154: the private core writes its dirty lines of the page home and drops its copies; the page becomes shared. The access
that triggered the recall sees every store of that core, and so does every later load of that core's die (spec/11_ordering_sync.md
R190, R191): copies that the RDC slices of the two dies still hold from before the page was private are given up first. -/
def State.recall (s : State) (page : Nat) (die : Option Nat) : State :=
  match s.mem.page.get .unowned page with
  | .priv n =>
    let s := (dieOf n :: die.toList).foldl (fun s d => s.rdcDropPage page d) s
    let s := ((s.l1Lines n).filter fun l => pageAt l == page).foldl (fun s l => s.l1Drop n l) s
    s.setPage page .shared
  | _ => s

/-- The page would be recalled by an access of this core (`none`: a requester that is no core). -/
def State.needsRecall (s : State) (core : Option Nat) (pa : Nat) : Bool :=
  match s.pageState pa with
  | .priv n => core != some n
  | _ => false

/-- What an access does to the page state before it is performed (R153). -/
def State.classify (s : State) (core : Option Nat) (pa : Nat) : State :=
  match s.pageState pa with
  | .unowned => match core with
    | some n => s.setPage (pageAt pa) (.priv n)
    | none => s
  | .priv n => if core = some n then s else s.recall (pageAt pa) (core.map dieOf)
  | _ => s

/-! ### Loads and stores by a core (R151, R157) -/

/-- The line as the core's die sees it: the home slice on its own die, the RDC slice elsewhere. -/
def State.dieRead (s : State) (die pa : Nat) : Line × State :=
  if homeDie pa = die then s.homeRead pa else s.rdcRead die pa

/-- A load through the L1. With `alloc` the L1 keeps the line. -/
def State.l1Read (s : State) (core pa : Nat) (alloc : Bool) : Line × State :=
  match s.mem.l1.find? (l1Key core (lineAt pa)) with
  | some c =>
    if c.ver = s.versionOf pa then (c.data, s)
    else
      let (x, s) := s.dieRead (dieOf core) pa
      (x, s.onMem fun m => { m with l1 := m.l1.put (l1Key core (lineAt pa)) { c with data := x, ver := s.versionOf pa } })
  | none =>
    let (x, s) := match s.pageState pa with
      | .priv n => if n = core then s.homeRead pa else s.dieRead (dieOf core) pa
      | _ => s.dieRead (dieOf core) pa
    if alloc then
      (x, (s.roomL1 core).onMem fun m =>
        { m with l1 := m.l1.put (l1Key core (lineAt pa)) { data := x, valid := allBytes, dirty := 0, ver := s.versionOf pa } })
    else (x, s)

/-- The page is private to the core. -/
def State.isPrivate (s : State) (core pa : Nat) : Bool := s.pageState pa == .priv core

/-- A load by a core at a scope (R157). `nc` is a page that is not cached (spec/21_launch_storage.md R334 PBMT). -/
def State.coreRead (s : State) (core : Nat) (scope : Scope) (nc alloc : Bool) (pa : Nat) : Line × State :=
  let s := s.classify (some core) pa
  if nc then s.homeRead pa
  else if s.isPrivate core pa || scope == .core then s.l1Read core pa alloc
  else if scope == .cluster || scope == .die then s.dieRead (dieOf core) pa
  else (s.rdcDrop (dieOf core) (lineAt pa)).homeRead pa

/-- Stored bytes in the core's own L1 copy, where it has one. -/
def State.l1Update (s : State) (core pa : Nat) (x : Line) (mask : ByteMask) : State :=
  match s.mem.l1.find? (l1Key core (lineAt pa)) with
  | none => s
  | some c => s.onMem fun m =>
      { m with l1 := m.l1.put (l1Key core (lineAt pa)) { c with data := mergeLine mask x c.data } }

/-- A store by a core at a scope, for a task (R151, R157). -/
def State.coreWrite (s : State) (core : Nat) (scope : Scope) (nc : Bool) (pa : Nat) (x : Line) (mask : ByteMask)
    (writer : Nat) : State :=
  let s := s.classify (some core) pa
  if nc then s.homeWrite pa x mask
  else if s.isPrivate core pa then
    let s := (s.l1Read core pa true).2
    match s.mem.l1.find? (l1Key core (lineAt pa)) with
    | none => s
    | some c => s.onMem fun m =>
        { m with l1 := m.l1.put (l1Key core (lineAt pa)) { c with data := mergeLine mask x c.data, dirty := c.dirty ||| mask } }
  else
    let s := s.l1Update core pa x mask
    if homeDie pa = dieOf core then s.homeWrite pa x mask
    else if scope == .device || scope == .system then (s.rdcDrop (dieOf core) (lineAt pa)).homeWrite pa x mask
    else s.rdcWrite (dieOf core) pa x mask writer

/-! ### Accesses that are performed at the home slice -/

/-- R155: before core n's access at the home slice, its dirty bytes of the line go home and its L1 copy is dropped. The RDC slice
of its die does the same: its dirty bytes are earlier stores of the die, and a later load must find neither less than this access
read nor less than it wrote (spec/11_ordering_sync.md R190). -/
def State.atHome (s : State) (core pa : Nat) : State :=
  let s := (s.classify (some core) pa).l1Drop core (lineAt pa)
  if homeDie pa = dieOf core then s else s.rdcDrop (dieOf core) (lineAt pa)

/-- A read or a write at the home slice by a requester that is no core (R153). -/
def State.outerRead (s : State) (pa : Nat) : Line × State := (s.classify none pa).homeRead pa
def State.outerWrite (s : State) (pa : Nat) (x : Line) (mask : ByteMask) : State := (s.classify none pa).homeWrite pa x mask

/-- A write at the home by the engine of a core (copy, index, collective): the core's L1 copy and the die's RDC copy are
given up first, so that full bits never run ahead of the data (log entry 12). -/
def State.engineWrite (s : State) (core pa : Nat) (x : Line) (mask : ByteMask) : State :=
  (s.atHome core pa).homeWrite pa x mask

/-- A read by the engine of a core: it sees the stores of the core (R165). -/
def State.engineRead (s : State) (core pa : Nat) : Line × State :=
  let s := s.classify (some core) pa
  if s.isPrivate core pa then s.l1Read core pa false else s.dieRead (dieOf core) pa

/-- Bytes at a physical address read by an outside requester; they may cross lines. -/
def State.outerBytes (s : State) (pa : Nat) : Nat → List Byte × State
  | 0 => ([], s)
  | n + 1 =>
    let (l, s) := s.outerRead pa
    let (bs, s) := s.outerBytes (pa + 1) n
    (BitVec.ofNat 8 (sliceLine l (pa % 64) 1) :: bs, s)

/-- Bytes written by an outside requester. -/
def State.outerPut (s : State) (pa : Nat) : List Byte → State
  | [] => s
  | b :: bs => (s.outerWrite pa (placeLine b.toNat (pa % 64) 1) (maskOf (pa % 64) 1)).outerPut (pa + 1) bs

/-- A 64-bit word read at its home, and one written there. -/
def State.homeWord (s : State) (pa : Nat) : Word × State :=
  let (l, s) := s.outerRead pa
  (BitVec.ofNat 64 (sliceLine l (pa % 64) 8), s)

def State.putWordAt (s : State) (pa : Nat) (x : Word) : State :=
  s.outerWrite pa (placeLine x.toNat (pa % 64) 8) (maskOf (pa % 64) 8)

/-! ### Full bits (R161) -/

def State.isFull (s : State) (pa : Nat) : Bool := s.mem.full.get false (s.cellOf pa / 8)
def State.setFull (s : State) (pa : Nat) (b : Bool) : State :=
  s.onMem fun m => { m with full := m.full.set false (s.cellOf pa / 8) b }

def lsCell (core off : Nat) : Nat := core * 2 ^ 19 + off % 2 ^ 19

def State.lsIsFull (s : State) (core off : Nat) : Bool := s.mem.lsFull.get false (lsCell core off / 8)

/-- Latch an event in slots of a core, for tasks that hold one (R241). -/
def State.latchCore (s : State) (core bit : Nat) : State :=
  let f (t : Task) : Task :=
    if t.sched.core = core ∧ t.sched.slot.isSome ∧ t.live then
      { t with sched := { t.sched with latch := t.sched.latch ||| BitVec.twoPow 5 bit } }
    else t
  { s with t := f s.t, tasks := s.tasks.map fun e => (e.1, f e.2) }

/-- Set or clear a full bit of local store; setting one raises the FE event (R241). -/
def State.lsSetFull (s : State) (core off : Nat) (b : Bool) : State :=
  let s := s.onMem fun m => { m with lsFull := m.lsFull.set false (lsCell core off / 8) b }
  if b then s.latchCore core 1 else s

/-! ### Local store (R19, R152) -/

def State.lsRead (s : State) (core off n : Nat) : Nat := readCells s.mem.ls (lsCell core off) n

def State.lsWrite (s : State) (core off : Nat) (bs : List Byte) : State :=
  s.onMem fun m => { m with ls := writeCells m.ls (lsCell core off) bs }

/-- A write by an engine: every word touched becomes full. -/
def State.lsEngineWrite (s : State) (core off : Nat) (bs : List Byte) : State :=
  let s := s.lsWrite core off bs
  let ws := (List.range ((off % 8 + bs.length + 7) / 8)).map fun i => off / 8 * 8 + 8 * i
  ws.foldl (fun s w => s.lsSetFull core w true) s

/-! ### Withdrawn channels (spec/13_traps.md R236) -/

/-- The half-channel that holds a line. -/
def State.halfOf (s : State) (pa : Nat) : Nat := if Config.halfOf ((channelOf (s.cxuOf pa) pa).2 / 64) then 1 else 0

/-- The address lies in a withdrawn half-channel. -/
def State.withdrawnAt (s : State) (pa : Nat) : Bool :=
  let b := s.dev.badChan.get 0 (s.devChannel pa)
  b != 0 && (b == 3 || b.getLsbD (s.halfOf pa))

/-- Why DRAM cannot give a line: it is withdrawn, or poisoned (spec/13_traps.md R235, R236). -/
def State.lostAt (s : State) (pa : Nat) : Option Nat :=
  if s.withdrawnAt pa then some 0x75 else if s.mem.poison.contains (lineAt pa) then some 0x73 else none

/-- Accesses to the channel wait for its scrub (spec/23_host.md R352). -/
def State.scrubbing (s : State) (pa : Nat) : Bool := (s.ownOf (s.devChannel pa)).scrub.isSome

/-- The arrivals of the offers that wait at the home of a line (spec/09_memory_offers.md R180). -/
def State.waitingAt (s : State) (pa : Nat) : List Nat :=
  s.allTasks.flatMap fun e => e.2.long.filterMap fun l => match l.act with
    | .offer o => if o.reply.isNone && o.owner.isNone && lineAt o.pa == lineAt pa then o.arrived else none
    | _ => none

/-- Every access to the line waits: a lease or a scrub holds it, or accesses that have waited for the lease go first. -/
def State.heldLine (s : State) (pa : Nat) : Bool :=
  s.leased pa || (spaceOf pa == .dram && s.scrubbing pa) || !(s.waitingAt pa).isEmpty

end Sys2Proof.Machine
end

