-- ==== Sys2Proof/Machine/Guards.lean ====
section
/-! DEFINITION. What the device reports (spec/13_traps.md R237, spec/23_host.md R356) and the guard objects at their homes
(spec/09_memory_offers.md R170, R171, spec/11_ordering_sync.md R200). -/

namespace Sys2Proof.Machine

open Sys2Proof

/-! ### Reports -/

def State.emit (s : State) (o : FabricOut) : State := s.onDev fun d => { d with out := d.out ++ [o] }

/-- An interrupt; identity 0 means none (R356). -/
def State.msi (s : State) (hart : BitVec 32) (iid : BitVec 11) : State := if iid = 0 then s else s.emit (.msi hart iid)

/-- A field of a word. -/
def field (x : Nat) (hi lo : Nat) : Nat := x / 2 ^ lo % 2 ^ (hi - lo + 1)

/-- Where the next RAS record lies (R356). -/
def Dev.rasAt (d : Dev) : Nat := d.rbase.toNat * 4096 + 32 * (d.rhead.toNat % 2 ^ (d.rlog + 7))

/-- The next RAS record cannot be written yet: its line is held at its home (spec/09_memory_offers.md R180, spec/23_host.md R352). -/
def State.rasHeld (s : State) : Bool := s.dev.rbase != 0 && s.heldLine s.dev.rasAt

/-- Write the next RAS record, and interrupt if it asks for that. A record raised before RBASE is set has no place
(spec/24_host_notes.md: "nowhere to go: HEAD still counts it"). -/
def State.rasWrite (s : State) (r : RasRec) : State :=
  let s' := if s.dev.rbase = 0 then s else s.outerPut s.dev.rasAt r.bytes
  let s' := s'.onDev fun d => { d with rhead := d.rhead + 1 }
  if s.dev.rbase != 0 && (r.interrupts || s.dev.ten) then s'.msi s.dev.rhart s.dev.iid else s'

/-- A RAS record (R237): kind, cause, severity, unit, address and TASKID. -/
def rasRecord (kind cause sev unit addr : Nat) (task : Word) (cycle : Nat) : RasRec :=
  let w0 := kind * 2 ^ 56 + cause * 2 ^ 48 + sev * 2 ^ 46 + unit % 2 ^ 32
  { bytes := toBytes 8 w0 ++ toBytes 8 addr ++ toBytes 8 task.toNat ++ toBytes 8 (field cycle 41 10), interrupts := sev != 0 }

/-- Report an error (R237): the record is lost where the ring is full; one that finds its line held waits there, and those after it
behind it. -/
def State.ras (s : State) (kind cause sev unit addr : Nat) (task : Word) : State :=
  let r := rasRecord kind cause sev unit addr task s.dev.cycle
  if (s.dev.rhead - s.dev.rtail).toNat + s.dev.rasq.length = 2 ^ (s.dev.rlog + 7) then
    s.onDev fun d => { d with rlost := min 255 (d.rlost + 1) }
  else if !s.dev.rasq.isEmpty || s.rasHeld then s.onDev fun d => { d with rasq := d.rasq ++ [r] }
  else s.rasWrite r

/-- RAS records that have waited are written, oldest first. -/
def State.drainRas (s : State) : List RasRec → State
  | [] => s
  | r :: rs => if s.rasHeld then s else ((s.onDev fun d => { d with rasq := rs }).rasWrite r).drainRas rs

/-! ### Guard objects -/

/-- The first two words of a descriptor (R170). -/
structure Guard where
  w : Bool
  rdrs : Nat
  phase : BitVec 16
  holder : BitVec 56
  deriving DecidableEq, Repr

def Guard.ofWords (a b : Word) : Guard :=
  { w := a.getLsbD 63, rdrs := field a.toNat 62 48, phase := BitVec.ofNat 16 (field a.toNat 47 32),
    holder := b.setWidth 56 }

/-- The first word with new guard fields; its low half stays. -/
def Guard.word0 (g : Guard) (old : Word) : Word :=
  BitVec.ofNat 64 ((if g.w then 2 ^ 63 else 0) + g.rdrs * 2 ^ 48 + g.phase.toNat * 2 ^ 32 + old.toNat % 2 ^ 32)

def Guard.word1 (g : Guard) (old : Word) : Word := BitVec.ofNat 64 (old.toNat / 2 ^ 56 * 2 ^ 56 + g.holder.toNat)

/-- Before the home acts on a descriptor for a core, that core's dirty bytes of the line go home (R155); any other private
page is recalled (R153). -/
def State.guardTouch (s : State) (core : Option Nat) (pa : Nat) : State :=
  match core, s.pageState pa with
  | some n, .priv m => if n = m then s.l1Drop n (lineAt pa) else s.recall (pageAt pa) (some (dieOf n))
  | none, .priv _ => s.recall (pageAt pa) none
  | _, _ => s

def State.guardRead (s : State) (core : Option Nat) (pa : Nat) : Guard × State :=
  let s := s.guardTouch core pa
  let (l, s) := s.homeRead pa
  (Guard.ofWords (BitVec.ofNat 64 (sliceLine l 0 8)) (BitVec.ofNat 64 (sliceLine l 8 8)), s)

def State.guardWrite (s : State) (pa : Nat) (g : Guard) : State :=
  let (l, s) := s.homeRead pa
  let a := g.word0 (BitVec.ofNat 64 (sliceLine l 0 8))
  let b := g.word1 (BitVec.ofNat 64 (sliceLine l 8 8))
  s.homeWrite pa (placeLine a.toNat 0 8 ||| placeLine b.toNat 8 8) (maskOf 0 16)

/-- The ranges of a descriptor: offsets and lengths (R170). -/
def guardRanges (l : Line) : List (Int × Nat) :=
  (List.range 6).map fun j =>
    let w := sliceLine l (16 + 8 * j) 8
    ((BitVec.ofNat 32 (w / 2 ^ 32)).toInt, w % 2 ^ 32)

/-- The core that a request came from. -/
def State.guardCore (s : State) : GuardWho → Option Nat
  | .task k _ => (s.task? k).map fun t => t.sched.core
  | _ => none

/-- Change the guard request of a long op. -/
def State.onGuardOp (s : State) (key op : Nat) (f : Option (BitVec 16) × Bool → Option (BitVec 16) × Bool) : State :=
  s.onTask key fun t =>
    { t with long := t.long.map fun l =>
        match l.act with
        | .guard sh sc pa gr re =>
          if l.op = op then { l with act := .guard sh sc pa (f (gr, re)).1 (f (gr, re)).2 } else l
        | _ => l }

/-- The answer of the home to a request: a grant with PHASE, or a refusal. -/
def State.guardAnswer (s : State) (who : GuardWho) (answer : Option (BitVec 16)) : State :=
  match who, answer with
  | .task k op, some p => s.onGuardOp k op fun x => (some p, x.2)
  | .task k op, none => s.onGuardOp k op fun x => (x.1, true)
  | .launch l, _ => s.onLaunch l fun x => { x with phase := if x.failed.isSome then .finishing else .running }
  | .ended, _ => s
  | .host b, some p => s.onDev fun d =>
      { d with host := d.host.put b { d.host.get {} b with gdone := true, gerr := 0, phase := p } }
  | .host b, none => s.onDev fun d => { d with host := d.host.put b { d.host.get {} b with gdone := true, gerr := 0x64 } }

/-- The home meets a request: refused at once where its requester is already HOLDER, whatever the
rest of the descriptor holds, or where RDRS is full (R171), else it waits in arrival order. Launches share
one HOLDER value (R200) and wait for each other. -/
def State.guardMeet (s : State) (pa : Nat) (r : GuardReq) : State :=
  let (g, s) := s.guardRead (s.guardCore r.who) pa
  let engine := match r.who with
    | .launch _ | .ended => true
    | _ => false
  if (!engine && !r.shared && g.holder == r.holder) || (r.shared && g.rdrs == 32767) then s.guardAnswer r.who none
  else s.onMem fun m => { m with guards := m.guards.put pa (m.guards.get [] pa ++ [{ r with met := true }]) }

/-- A request reaches the home. While the line is held it waits there unread, and so do those behind it (R180). -/
def State.guardArrive (s : State) (pa : Nat) (r : GuardReq) : State :=
  if s.heldLine pa || (s.mem.guards.get [] pa).any fun q => !q.met then
    s.onMem fun m => { m with guards := m.guards.put pa (m.guards.get [] pa ++ [{ r with met := false }]) }
  else s.guardMeet pa r

/-- Requests that waited for their line are met once it is free. -/
def State.meetGuards (s : State) : State :=
  let unmet (e : Nat × List GuardReq) : Bool := e.2.any fun r => !r.met
  let meet (s : State) (e : Nat × List GuardReq) : State :=
    if s.heldLine e.1 then s
    else (e.2.filter fun r => !r.met).foldl (fun s r => s.guardMeet e.1 r)
      (s.onMem fun m => { m with guards := m.guards.set [] e.1 (e.2.filter fun r => r.met) })
  (s.mem.guards.filter unmet).foldl meet s

/-- The launch whose completion object this is and that still owes its flush (R200). -/
def State.owesFlush (s : State) (pa : Nat) : Option Nat :=
  (List.find? (fun (e : Nat × Launch) => e.2.objectAt == some pa && e.2.phase == .done && !e.2.flushed) s.launches).map (·.1)

/-- The request at the head can be granted now: R171, and R200 for an acquire at device or system scope. -/
def State.guardReady (s : State) (pa : Nat) : Bool :=
  match s.mem.guards.get [] pa with
  | [] => false
  | r :: _ =>
    let g := (s.guardRead (s.guardCore r.who) pa).1
    let free := !g.w && (r.shared || g.rdrs == 0)
    let wide := r.scope == .device || r.scope == .system
    let launch := match r.who with
      | .launch _ | .ended => true
      | _ => false
    r.met && free && !s.heldLine pa && (launch || !wide || (s.owesFlush pa).isNone)

/-- Grant the request at the head. What a launch that has ended was granted is given up as R200 does at completion. -/
def State.guardGrant (s : State) (pa : Nat) : State :=
  match s.mem.guards.get [] pa with
  | [] => s
  | r :: rest =>
    let (g, s) := s.guardRead (s.guardCore r.who) pa
    let g' := if r.who = .ended then { g with w := false, holder := 0, phase := g.phase + 1 }
      else if r.shared then { g with rdrs := g.rdrs + 1 } else { g with w := true, holder := r.holder }
    let s := (s.guardWrite pa g').onMem fun m => { m with guards := m.guards.set [] pa rest }
    s.guardAnswer r.who (some g.phase)

/-- What `rls` does at the home (R171): `none` where the guard state does not allow it. -/
def Guard.release (g : Guard) (holder : BitVec 56) : Option Guard :=
  if g.w && g.holder == holder then some { g with w := false, holder := 0, phase := g.phase + 1 }
  else if !g.w && 0 < g.rdrs then some { g with rdrs := g.rdrs - 1 }
  else none

end Sys2Proof.Machine
end

