-- ==== Sys2Proof/Machine/Control.lean ====
section
/-! DEFINITION. Control space: the registers at their offsets, who reaches them, and what a write does (spec/23_host.md
R349-R359, spec/13_traps.md R223, spec/21_launch_storage.md R320, R321, R340, spec/01_machine.md R15, R43, spec/24_host_notes.md
R365, R366). -/

namespace Sys2Proof.Machine

open Sys2Proof

/-- Who makes an access: a task of a partition, a hart, or a PCIe requester with its port and partition. -/
inductive Who where
  | task (part : Nat)
  | hart (h : Nat)
  | pcie (port part : Nat)
  deriving DecidableEq, Repr

def Who.ofRequester : Requester → Who
  | .hart h => .hart h
  | .pcie p q => .pcie p q

/-- Harts belong to partition 0, the management partition (R350). -/
def Who.part : Who → Nat
  | .task p => p
  | .hart _ => 0
  | .pcie _ p => p

/-- Partition 0's requesters as R350 lists them. -/
def Who.manages : Who → Bool
  | .task p => p = 0
  | .hart _ => true
  | .pcie port p => port = 0 && p = 0

/-- The parts of control space (R349), each with the number of the unit and the offset within its block. -/
inductive CtlReg where
  | core (n off : Nat)
  | teasel (e off : Nat)
  | device (off : Nat)
  | hostPort (b off : Nat)
  | context (q off : Nat)
  | doorbell (q off : Nat)
  | ownership (off : Nat)
  | peer (p : Nat)
  | requester (k bus : Nat)
  deriving DecidableEq, Repr

/-- What lies at an offset of control space; `none` is a hole. -/
def ctlReg (off : Nat) : Option CtlReg :=
  if off < 0x40000 then some (.core (off / 64) (off % 64))
  else if off < 0x40800 then some (.teasel ((off - 0x40000) / 256) (off % 256))
  else if 0x41000 ≤ off ∧ off < 0x41100 then some (.device (off - 0x41000))
  else if 0x42000 ≤ off ∧ off < 0x42000 + 64 * 48 then some (.hostPort ((off - 0x42000) / 64) (off % 64))
  else if 0x1000000 ≤ off ∧ off < 0x1000000 + 64 * 131072 then some (.context ((off - 0x1000000) / 64) (off % 64))
  else if 0x2000000 ≤ off ∧ off < 0x2000000 + 8 * 131072 then some (.doorbell ((off - 0x2000000) / 8) (off % 8))
  else if 0x3000000 ≤ off ∧ off < 0x3030000 then some (.ownership (off - 0x3000000))
  else if 0x4000000 ≤ off ∧ off < 0x4000000 + 8 * 64 then some (.peer ((off - 0x4000000) / 8))
  else if 0x5000000 ≤ off ∧ off < 0x5000000 + 2048 * 6 then
    some (.requester ((off - 0x5000000) / 2048) ((off - 0x5000000) % 2048 / 8))
  else none

def State.queuePart (s : State) (q : Nat) : Nat := s.dev.queuePart.get 0 q
def State.corePart (s : State) (n : Nat) : Nat := s.dev.corePart.get 0 n
def State.queue (s : State) (q : Nat) : QCtx := s.dev.queues.get {} q
def State.onQueue (s : State) (q : Nat) (f : QCtx → QCtx) : State :=
  s.onDev fun d => { d with queues := d.queues.set {} q (f (s.queue q)) }

/-- The requester is up (R362): in stage 0 none, in stage 1 hart 0 and port 0. -/
def State.isUp (s : State) (who : Who) : Bool :=
  match who with
  | .task _ => s.dev.stage = 2
  | .hart h => h < 32 && (s.dev.stage = 2 || (s.dev.stage = 1 && h = 0))
  | .pcie port _ => port < 6 && (s.dev.stage = 2 || (s.dev.stage = 1 && port = 0))

/-- R350, and R362 in stage 1. -/
def State.reaches (s : State) (who : Who) (r : CtlReg) : Bool :=
  let stage1 := s.dev.stage != 2
  s.isUp who && match r with
  | .device _ => who.manages
  | .hostPort b _ => if b = 0 then who.manages else !stage1 && (if b ≤ 32 then who.manages else who.part = b - 32)
  | .doorbell q _ => stage1 || who.part = s.queuePart q
  | .context q _ => !stage1 && who.part = s.queuePart q
  | _ => !stage1 && who.manages

/-- Why an access to control space fails. -/
inductive CtlError where
  | hole | misaligned | denied | otherQueue
  deriving DecidableEq, Repr

def State.ctlCheck (s : State) (who : Who) (off width : Nat) (write : Bool) : Option CtlError :=
  match ctlReg off with
  | none => some .hole
  | some r =>
    if !((width = 4 || width = 8) && off % width = 0) then some .misaligned
    else if s.reaches who r then none
    else match r with
      | .doorbell _ _ => if write then some .otherQueue else some .denied
      | _ => some .denied

/-! ### Reading -/

def bit (b : Bool) (i : Nat) : Nat := if b then 2 ^ i else 0

def coreRegRead (c : Core) (off : Nat) : Word :=
  if off = 0 then c.hentry else if off = 8 then c.fpbase else if off = 16 then c.fplim
  else if off = 24 then c.fmap else 0

def teaselRead (t : Teasel) (off : Nat) : Word :=
  BitVec.ofNat 64 <|
    if off = 0x00 then t.ffbase.toNat * 4096 + t.fflog
    else if off = 0x08 then t.ffhead.toNat * 2 ^ 32 + t.fftail.toNat
    else if off = 0x10 then t.evbase.toNat * 4096 + t.evlog
    else if off = 0x18 then t.evhead.toNat * 2 ^ 32 + t.evtail.toNat
    else if off = 0x20 then t.lowat.toNat * 2 ^ 32 + t.tout.toNat
    else if off = 0x28 then t.recl * 2 ^ 32 + t.skip.toNat
    else if off < 0xB0 then
      let x := t.ns.get {} ((off - 0x30) / 16)
      if off % 16 = 0 then
        x.nsid.toNat * 2 ^ 32 + x.drv * 2 ^ 30 + x.lbas * 2 ^ 26 + bit x.pi 25 + bit x.nsv 24
      else x.nblk.toNat
    else if off < 0xF0 then
      let x := t.drives.get {} ((off - 0xB0) / 16)
      if off % 16 = 0 then x.sq.toNat * 4096 + x.qlog * 256 + bit x.dv 0 else x.cq.toNat * 4096
    else 0

/-- TMAX: the hottest compute or I/O die sensor (R356). -/
def Dev.tmax (d : Dev) : Nat := (d.sensors.map fun e => e.2.toNat).foldl max 0

/-- The temperature condition (R364): above TLIM (2), 5 °C below it (1), between (0). -/
def Dev.heatClass (d : Dev) : Nat := if d.tlim.toNat < d.tmax then 2 else if d.tmax + 5 ≤ d.tlim.toNat then 1 else 0

/-- A change of a sensor or of TLIM: where the temperature condition changes, its 2^20 cycles begin. -/
def Dev.heated (d : Dev) (f : Dev → Dev) : Dev :=
  let e := f d
  if e.heatClass = d.heatClass then e else { e with stepAt := e.cycle }

def State.deviceRead (s : State) (off : Nat) : Word :=
  let d := s.dev
  BitVec.ofNat 64 <|
    if off = 0x00 then d.stage * 2 ^ 56 + d.fail * 2 ^ 48 + d.svn.toNat
    else if off = 0x10 then d.peerid.toNat
    else if off = 0x18 then d.rbase.toNat * 4096 + d.rlog
    else if off = 0x20 then d.rhead.toNat * 2 ^ 32 + d.rtail.toNat
    else if off = 0x28 then d.rhart.toNat * 2 ^ 32 + d.rlost * 2 ^ 24 + bit d.ten 11 + d.iid.toNat
    else if off = 0x30 then d.tmax * 2 ^ 16 + d.tlim.toNat * 2 ^ 8 + d.step
    else if 0x38 ≤ off ∧ off < 0x58 then
      let x := s.die ((off - 0x38) / 8)
      x.cxuHeld.getD x.cxu
    else if 0x58 ≤ off ∧ off < 0x78 then
      let x := s.die ((off - 0x58) / 8)
      bit x.migen 16 + x.qthr.toNat
    else 0

def hostRead (h : HostBlock) (off : Nat) : Word :=
  BitVec.ofNat 64 <|
    if off = 0x08 then bit h.gdone 63 + h.gerr * 2 ^ 16 + h.phase.toNat
    else if off = 0x10 then h.tva.toNat
    else if off = 0x20 then bit h.pending.isEmpty 63
    else 0

def contextRead (q : QCtx) (off : Nat) : Word :=
  BitVec.ofNat 64 <|
    if off = 0 then q.ring.toNat * 64 else if off = 8 then q.root.toNat * 1024
    else if off = 16 then q.rsz * 2 ^ 32 + q.head.toNat
    else if off = 24 then bit q.en 32 + q.tail.toNat
    else 0

def State.ownershipRead (s : State) (off : Nat) : Word :=
  if off < 0x400 then 0
  else if off < 0xC00 then
    let c := s.ownOf ((off - 0x400) / 8)
    BitVec.ofNat 64 (bit c.scrub.isSome 5 + bit c.crm 4 + c.part)
  else if off < 0x1C00 then
    BitVec.ofNat 64 (ofBytes ((List.range 8).map fun i => BitVec.ofNat 8 (s.corePart (off - 0xC00 + i))))
  else if off < 0x10000 then 0
  else BitVec.ofNat 64 (ofBytes ((List.range 8).map fun i => BitVec.ofNat 8 (s.queuePart (off - 0x10000 + i))))

/-- The 8-byte unit at an aligned offset of control space. Write-only fields and doorbells read zero (log entry 14). -/
def State.ctlUnit (s : State) (r : CtlReg) : Word :=
  match r with
  | .core n off => coreRegRead (s.core n) off
  | .teasel e off => teaselRead (s.engine e) off
  | .device off => s.deviceRead off
  | .hostPort b off => hostRead (s.dev.host.get {} b) off
  | .context q off => contextRead (s.queue q) off
  | .doorbell _ _ => 0
  | .ownership off => s.ownershipRead off
  | .peer p => let x := s.dev.peers.get {} p; BitVec.ofNat 64 (bit x.v 63 + x.remp * 16 + x.locp)
  | .requester k bus => let x := s.dev.requesters.get {} (k * 256 + bus); BitVec.ofNat 64 (bit x.v 17 + x.queue)

def State.ctlRead (s : State) (off width : Nat) : Nat :=
  match ctlReg (off / 8 * 8) with
  | some r => (s.ctlUnit r).toNat / 256 ^ (off % 8) % 256 ^ width
  | none => 0

/-! ### Units in use (R352) -/

/-- A launch of a partition is live. -/
def Launch.live (l : Launch) : Bool :=
  match l.phase with
  | .consumed | .waiting | .object | .running | .finishing => true
  | .done => false

def State.partLive (s : State) (p : Nat) : Bool := s.launches.any fun e => e.2.live && e.2.part == p

/-- The core holds a run-queue entry or a task of a team that has a team slot. -/
def State.coreInUse (s : State) (n : Nat) : Bool :=
  s.allTasks.any (fun e => e.2.sched.core == n && e.2.sched.status != .queued) ||
  s.launches.any fun e => e.2.live && e.2.teams.any fun t => t.2.die.isSome && t.2.cores.any fun c => c.2 == n

/-- A launch names a compute region on the channel. -/
def State.regionOn (s : State) (p ch : Nat) : Bool :=
  s.launches.any fun e => e.2.live && e.2.part == p && e.2.regionChannels.contains ch

/-! ### Writes that start something -/

/-- R321: the doorbell store. -/
def State.ringDoorbell (s : State) (q : Nat) (t : BitVec 32) : State :=
  let c := s.queue q
  if s.dev.stage = 2 ∧ c.en ∧ (t - c.head).toNat ≤ 2 ^ (c.rsz + 4) then s.onQueue q fun c => { c with tail := t } else s

/-- R15, R365: a write of MLAYOUT is held in stage 1 and ignored once FULL has been accepted. -/
def State.mlayoutWrite (s : State) (die : Nat) (v : BitVec 32) : State :=
  let x := v.toNat % 16
  if s.dev.stage = 1 ∧ !s.dev.starting ∧ die < 4 ∧ x ≤ 8 then s.onDie die fun d => { d with cxuHeld := some x } else s

/-- Apply the held layout of a die (R15, R365). Lines whose place changes are not carried along: what the new layout finds
in the cells of the channel-exclusive blocks reads as if never written (log entry 1). -/
def State.applyLayout (s : State) (die : Nat) : State :=
  match (s.die die).cxuHeld with
  | none => s
  | some x =>
    let s := s.onDie die fun d => { d with cxu := x, cxuHeld := none }
    let gone (c : Nat) : Bool := decide (64 * die ≤ c / 2 ^ 31) && decide (c / 2 ^ 31 < 64 * die + 64) &&
      decide (2 ^ 31 - x * 2 ^ 28 ≤ c % 2 ^ 31)
    let moved (pa : Nat) : Bool := decide (homeDie pa = die) && inExclusive x pa
    s.onMem fun m =>
      { m with dram := m.dram.filter (fun e => !gone e.1), lineKey := m.lineKey.filter (fun e => !gone (e.1 * 64)),
               full := m.full.filter (fun e => !gone (e.1 * 8)), l2 := m.l2.filter (fun e => !moved e.1),
               l1 := m.l1.filter (fun e => !moved (e.1 % 2 ^ 40)), rdc := m.rdc.filter (fun e => !moved (e.1 % 2 ^ 40)) }

/-- R362: the write of FULL is accepted in stage 1. Die 0 applies its layout at once; the dies then join. -/
def State.startFull (s : State) : State :=
  if s.dev.stage = 1 ∧ !s.dev.starting then
    let s := (s.applyLayout 0).onDev fun d => { d with starting := true, badChan := [], badLinks := [] }
    let s := (List.range 4).foldl (fun s d => s.onDie d fun x => { x with joined := false, withdrawn := false }) s
    { s with cores := s.cores.map fun e => (e.1, { e.2 with withdrawn := false, munit := { e.2.munit with broken := 0 } }),
             sorrel := s.sorrel.map fun e => (e.1, { e.2 with withdrawn := false }) }
  else s

/-- One byte entry of the ownership table: a core or a queue. -/
def State.ownByte (s : State) (off : Nat) (v : Nat) : State :=
  if 0xC00 ≤ off ∧ off < 0x1C00 then
    if s.coreInUse (off - 0xC00) then s
    else s.onDev fun d => { d with corePart := d.corePart.set 0 (off - 0xC00) (v % 16) }
  else if 0x10000 ≤ off ∧ off < 0x30000 then
    if (s.queue (off - 0x10000)).en then s
    else s.onDev fun d => { d with queuePart := d.queuePart.set 0 (off - 0x10000) (v % 16) }
  else s

/-- A write of a channel's entry (R352): PART starts a scrub of 2^22 cycles, CRM takes effect at once. -/
def State.ownChannel (s : State) (ch v : Nat) : State :=
  let c := s.ownOf ch
  let c := if c.part ≠ v % 16 ∧ !s.partLive c.part ∧ c.scrub.isNone then { c with scrub := some (v % 16, s.dev.cycle + 2 ^ 22) }
    else c
  let c := if s.regionOn c.part ch then c else { c with crm := v / 16 % 2 = 1 }
  s.onDev fun d => { d with chan := d.chan.set {} ch c }

/-- 8 bytes of a partition's key, under a byte mask (R351, R352). -/
def State.keyBytes (s : State) (p word : Nat) (v : Word) (mask : ByteMask) : State :=
  if s.partLive p then s
  else
    let old := s.dev.keys.get 0 p
    let m : ByteMask := BitVec.ofNat 64 (mask.toNat * 2 ^ (8 * word))
    s.onDev fun d => { d with keys := d.keys.set 0 p (mergeLine m (placeLine v.toNat (8 * word) 8) old) }

/-- HOLDER of a host-port block (R355). -/
def hostHolder (b : Nat) : BitVec 56 :=
  if b < 32 then BitVec.ofNat 56 (0xFFFFFFFFFFFFC0 + b) else BitVec.ofNat 56 (0xFFFFFFFFFFFFE0 + (b - 32))

/-- A release by a host port, at the home of its object; while the line is held it waits (spec/09_memory_offers.md R180, R352). -/
def State.hostRelease (s : State) (b object : Nat) : State :=
  let put (f : HostBlock → HostBlock) (s : State) : State := s.onDev fun d => { d with host := d.host.put b (f (d.host.get {} b)) }
  if s.heldLine object then put (fun h => { h with release := some object }) s
  else
    let (g, s) := s.guardRead none object
    match g.release (hostHolder b) with
    | some g => put (fun h => { h with gdone := true, gerr := 0, release := none }) (s.guardWrite object g)
    | none => put (fun h => { h with gdone := true, gerr := 0x64, release := none }) s

/-- Releases of host ports that waited go on. -/
def State.hostReleases (s : State) : State :=
  s.dev.host.foldl (fun s e => match e.2.release with
    | some object => if s.heldLine object then s else s.hostRelease e.1 object
    | none => s) s

/-- R355: a write of GOBJ starts a guard operation; ignored while one is running. -/
def State.hostGuard (s : State) (b : Nat) (object : Nat) (gop : Nat) : State :=
  let h := s.dev.host.get {} b
  if !h.gdone || gop = 3 then s
  else
    let put (f : HostBlock → HostBlock) (s : State) : State := s.onDev fun d => { d with host := d.host.put b (f (d.host.get {} b)) }
    let s := put (fun h => { h with gdone := false, gop := gop }) s
    if spaceOf object ≠ .dram then put (fun h => { h with gdone := true, gerr := 0x64 }) s
    else if gop = 2 then s.hostRelease b object
    else s.guardArrive object { who := .host b, holder := hostHolder b, shared := gop = 1, scope := .system }

/-- The cores that a `tlbinv` targets: IMM<4:3>, the core it starts from, its partition (R243). -/
def State.invCores (s : State) (sel core part : Nat) : List Nat :=
  ((if sel = 0 then [core] else if sel = 1 then (List.range 1024).map (· + core / 1024 * 1024) else List.range 4096)).filter
    fun n => s.corePart n = part

/-- A page size of `tlbinv`, as log2. -/
def invSize (sel : Nat) : Nat := if sel = 0 then 12 else if sel = 1 then 16 else if sel = 2 then 21 else 30

/-- The size of the page that a held translation covers, as log2. -/
def Tlb.log (t : Tlb) : Nat := if t.level = 2 then 30 else if t.level = 1 then 21 else 12

/-- The virtual address at which a held translation begins. -/
def Tlb.base (t : Tlb) : Nat := t.vpn * 2 ^ t.log

/-- A held translation lies in the range that a `tlbinv` names. -/
def Tlb.covered (t : Tlb) (va size : Nat) : Bool :=
  t.base / 2 ^ size = va / 2 ^ size || (size < t.log && va / 2 ^ t.log = t.vpn)

/-- The held translation names a physical page (R334: a 64 KiB page takes the low four bits from the address). -/
def Tlb.names (t : Tlb) (page : Nat) : Bool :=
  let ppn := field t.pte.toNat 53 10
  if t.level = 0 then page = (if t.pte.getLsbD 63 then ppn / 16 * 16 + t.vpn % 16 else ppn)
  else decide (ppn ≤ page) && decide (page < ppn + 2 ^ (t.log - 12))

/-- Remove translations from cores, and what R243 asks before a covered page returns to unowned: the page is recalled, its
L1 copies are dropped, and stores absorbed by RDC slices are delivered home. -/
def State.dropTranslations (s : State) (cores : List Nat) (gone : Tlb → Bool) : State :=
  let removed := cores.flatMap fun n => (s.core n).tlb.filter gone
  let names (page : Nat) : Bool := removed.any fun t => t.names page
  let drop (e : Nat × Core) : Nat × Core :=
    if cores.contains e.1 then (e.1, { e.2 with tlb := e.2.tlb.filter fun t => !gone t }) else e
  let s := { s with cores := s.cores.map drop }
  let s := (s.mem.rdc.filter fun e => names (pageAt (e.1 % 2 ^ 40))).foldl
    (fun s e => s.rdcWriteThrough (e.1 / 2 ^ 40) (e.1 % 2 ^ 40)) s
  let pages := (s.mem.page.filter fun e => names e.1).map (·.1)
  let s := pages.foldl (fun s p => s.recall p none) s
  let s := s.onMem fun m => { m with l1 := m.l1.filter fun e => !names (pageAt (e.1 % 2 ^ 40)) }
  pages.foldl (fun s p => s.setPage p .unowned) s

/-- The removal that a `tlbinv` makes. -/
def State.shootdown (s : State) (cores : List Nat) (all : Bool) (va : Nat) (size : Nat) : State :=
  s.dropTranslations cores fun t => all || t.covered va size

/-- Start a `tlbinv` (R243, R338): it waits for the activation's earlier stores and completes later. -/
def State.startTlbinv (s : State) (task : Option Nat) (cores : List Nat) (all : Bool) (va : Word) (size : Nat) : Nat × State :=
  let (id, s) := s.nextOp
  let stores := match task.bind s.task? with
    | some t => t.stores.map (·.op)
    | none => []
  let inv : TlbInv := { id := id, task := task, va := va, size := size, all := all, cores := cores, stores := stores }
  (id, { s with tlbinvs := s.tlbinvs ++ [inv] })

/-- R355: TCMD. Selector 00 names core 0 of TPART, the lowest-numbered core of the partition (log entry 15). -/
def State.hostTlb (s : State) (b part : Nat) (cmd : BitVec 5) : State :=
  let h := s.dev.host.get {} b
  let sel := cmd.toNat / 8
  if !h.pending.isEmpty || sel = 3 then s
  else
    let first := ((List.range 4096).find? fun n => s.corePart n = part).getD 0
    let all := cmd.getLsbD 2
    let (id, s) := s.startTlbinv none (s.invCores sel first part) all (if all then 0 else h.tva) (invSize (cmd.toNat % 4))
    s.onDev fun d => { d with host := d.host.put b { h with tpart := part, pending := h.pending ++ [id] } }

/-- R223, R234: a debug request for a live task. -/
def State.debugWrite (s : State) (op : Nat) (tid : BitVec 56) : State :=
  let ask : Option Debug := if op = 1 then some .halt else if op = 2 then some .step else none
  if tid = 0 then s
  else match ask, List.find? (fun (e : Nat × Task) => e.2.sys.tid == tid.setWidth 64) s.allTasks with
  | some d, some (k, _) => s.onTask k fun t => { t with sched := { t.sched with debug := some d } }
  | _, _ => s

/-! ### Writing -/

def coreRegWrite (c : Core) (off : Nat) (x : Word) : Core :=
  if off = 0 then { c with hentry := x &&& ~~~ (0x38 : Word) }
  else if off = 8 then { c with fpbase := BitVec.ofNat 64 (x.toNat / 4096 * 4096) }
  else if off = 16 then { c with fplim := BitVec.ofNat 64 (x.toNat / 4096 * 4096) }
  else if off = 24 then { c with fmap := BitVec.ofNat 64 (x.toNat / 16384 * 16384) }
  else c

def teaselWrite (t : Teasel) (off : Nat) (x : Nat) : Teasel :=
  if off = 0x00 then { t with ffbase := BitVec.ofNat 52 (x / 4096), fflog := x % 16 }
  else if off = 0x08 then { t with fftail := BitVec.ofNat 32 x }
  else if off = 0x10 then { t with evbase := BitVec.ofNat 52 (x / 4096), evlog := x % 16 }
  else if off = 0x18 then { t with evtail := BitVec.ofNat 32 x }
  else if off = 0x20 then { t with lowat := BitVec.ofNat 16 (x / 2 ^ 32), tout := BitVec.ofNat 24 x }
  else if off < 0x30 then t
  else if off < 0xB0 then
    let k := (off - 0x30) / 16
    let old := t.ns.get {} k
    let new := if off % 16 = 0 then
        { old with nsid := BitVec.ofNat 32 (x / 2 ^ 32), drv := field x 31 30, lbas := field x 29 26,
                   pi := field x 25 25 = 1, nsv := field x 24 24 = 1 }
      else { old with nblk := BitVec.ofNat 64 x }
    { t with ns := t.ns.set {} k new }
  else if off < 0xF0 then
    let k := (off - 0xB0) / 16
    let old := t.drives.get {} k
    let new := if off % 16 = 0 then
        { old with sq := BitVec.ofNat 52 (x / 4096), qlog := field x 11 8, dv := field x 0 0 = 1 }
      else { old with cq := BitVec.ofNat 52 (x / 4096) }
    { t with drives := t.drives.set {} k new }
  else t

/-- The device registers (R356, R366, R43); `mask` says which bytes are written. -/
def State.deviceWrite (s : State) (off : Nat) (x : Nat) (mask : ByteMask) : State :=
  if off = 0x08 then (if x % 2 = 1 && mask.getLsbD 0 then s.startFull else s)
  else if off = 0x10 then s.onDev fun d => { d with peerid := BitVec.ofNat 6 x }
  else if off = 0x18 then s.onDev fun d => { d with rbase := BitVec.ofNat 52 (x / 4096), rlog := x % 16 }
  else if off = 0x20 then s.onDev fun d => { d with rtail := BitVec.ofNat 32 x }
  else if off = 0x28 then s.onDev fun d =>
    { d with rhart := BitVec.ofNat 32 (x / 2 ^ 32) &&& 0x71F, ten := field x 11 11 = 1, iid := BitVec.ofNat 11 x }
  else if off = 0x30 then
    let l := field x 15 8
    if 85 ≤ l ∧ l ≤ 105 then s.onDev fun d => d.heated fun d => { d with tlim := BitVec.ofNat 8 l } else s
  else if 0x38 ≤ off ∧ off < 0x58 then
    if mask.getLsbD 0 then s.mlayoutWrite ((off - 0x38) / 8) (BitVec.ofNat 32 x) else s
  else if 0x58 ≤ off ∧ off < 0x78 then
    if mask.getLsbD 0 then
      s.onDie ((off - 0x58) / 8) fun d => { d with migen := field x 16 16 = 1, qthr := BitVec.ofNat 16 x }
    else s
  else s

def State.hostWrite (s : State) (b off : Nat) (x : Nat) (mask : ByteMask) : State :=
  if off = 0 then (if mask.getLsbD 0 then s.hostGuard b (x / 64 * 64) (x % 4) else s)
  else if off = 0x10 then s.onDev fun d => { d with host := d.host.put b { d.host.get {} b with tva := BitVec.ofNat 64 x } }
  else if off = 0x18 then (if mask.getLsbD 0 then s.hostTlb b (field x 23 20) (BitVec.ofNat 5 x) else s)
  else s

def contextWrite (q : QCtx) (off : Nat) (x : Nat) : QCtx :=
  if off = 0 then { q with ring := BitVec.ofNat 58 (x / 64) }
  else if off = 8 then { q with root := BitVec.ofNat 54 (x / 1024) }
  else if off = 16 then { q with rsz := field x 35 32 }
  else if off = 24 then { q with en := field x 32 32 = 1, tail := BitVec.ofNat 32 x }
  else q

def State.ownershipWrite (s : State) (off : Nat) (x : Word) (mask : ByteMask) : State :=
  if off < 0x400 then s.keyBytes (off / 64) (off % 64 / 8) x mask
  else if off < 0xC00 then (if mask.getLsbD 0 then s.ownChannel ((off - 0x400) / 8) (x.toNat % 256) else s)
  else (List.range 8).foldl (fun s i =>
    if mask.getLsbD i then s.ownByte (off + i) (x.toNat / 256 ^ i % 256) else s) s

/-- Write an aligned 8-byte unit of control space: bytes outside the mask keep what a read gives. -/
def State.ctlPut (s : State) (r : CtlReg) (value : Word) (mask : ByteMask) : State :=
  let x : Word := (mergeLine mask (value.setWidth 512) ((s.ctlUnit r).setWidth 512)).setWidth 64
  match r with
  | .core n off =>
    if off = 0x20 then s.debugWrite (field x.toNat 63 62) (x.setWidth 56)
    else if off = 0x28 then s.latchCore n 4
    else s.onCore n fun c => coreRegWrite c off x
  | .teasel e off => s.onEngine e fun t => teaselWrite t off x.toNat
  | .device off => s.deviceWrite off x.toNat mask
  | .hostPort b off => s.hostWrite b off x.toNat mask
  | .context q off => s.onQueue q fun c => contextWrite c off x.toNat
  | .doorbell q _ => if mask.getLsbD 0 then s.ringDoorbell q (value.setWidth 32) else s
  | .ownership off => s.ownershipWrite off x mask
  | .peer p => s.onDev fun d =>
    { d with peers := d.peers.set {} p { v := field x.toNat 63 63 = 1, remp := field x.toNat 7 4, locp := field x.toNat 3 0 } }
  | .requester k bus => s.onDev fun d =>
    { d with requesters := d.requesters.set {} (k * 256 + bus) { v := field x.toNat 17 17 = 1, queue := field x.toNat 16 0 } }

def State.ctlWrite (s : State) (off width : Nat) (value : Nat) : State :=
  match ctlReg (off / 8 * 8) with
  | some r => s.ctlPut r (BitVec.ofNat 64 (value % 256 ^ width * 256 ^ (off % 8))) (maskOf (off % 8) width)
  | none => s

/-- A write by a requester that is no task. One that is refused changes nothing: PCIe gets Unsupported Request (R350), a hart an
access fault (R349, R362). -/
def State.ctlStore (s : State) (who : Requester) (off width : Nat) (value : Word) : State :=
  match s.ctlCheck (Who.ofRequester who) off width true, who with
  | none, _ => s.ctlWrite off width value.toNat
  | some _, .pcie _ _ => s.emit .unsupported
  | some _, .hart h => s.emit (.hart h .accessFault)

end Sys2Proof.Machine
end

