-- ==== Sys2Proof/Machine/Translate.lean ====
section
/-! DEFINITION. Translation of virtual addresses (spec/21_launch_storage.md R333-R337, R339), the local-store ranges
(spec/01_machine.md R19, R20) and partitions (R21). -/

namespace Sys2Proof.Machine

open Sys2Proof

/-! ### Ranges that are never translated (R19) -/

inductive Window where
  /-- local store of a core, reached at an offset -/
  | ls (off : Nat)
  | dls (core off : Nat)
  | mapped
  deriving DecidableEq, Repr

def windowOf (va : Word) : Window :=
  let a := va.toNat
  if 0xFFFFFFFFFFF80000 ≤ a then .ls (a - 0xFFFFFFFFFFF80000)
  else if 0xFFFFFFFF00000000 ≤ a ∧ a < 0xFFFFFFFF80000000 then
    .dls ((a - 0xFFFFFFFF00000000) / 2 ^ 19) ((a - 0xFFFFFFFF00000000) % 2 ^ 19)
  else .mapped

/-- A DLS address of the executing core is an alias of its local store (R19). -/
def windowFor (core : Nat) (va : Word) : Window :=
  match windowOf va with
  | .dls n off => if n = core then .ls off else .dls n off
  | w => w

/-! ### Page-table entries (R334) -/

abbrev Pte := Word

def Pte.v (p : Pte) : Bool := p.getLsbD 0
def Pte.r (p : Pte) : Bool := p.getLsbD 1
def Pte.w (p : Pte) : Bool := p.getLsbD 2
def Pte.x (p : Pte) : Bool := p.getLsbD 3
def Pte.u (p : Pte) : Bool := p.getLsbD 4
def Pte.a (p : Pte) : Bool := p.getLsbD 6
def Pte.d (p : Pte) : Bool := p.getLsbD 7
def Pte.ppn (p : Pte) : Nat := field p.toNat 53 10
def Pte.fe (p : Pte) : Bool := p.getLsbD 54
def Pte.od (p : Pte) : Bool := p.getLsbD 55
def Pte.sb (p : Pte) : Bool := p.getLsbD 56
def Pte.cr (p : Pte) : Bool := p.getLsbD 57
def Pte.pbmt (p : Pte) : Nat := field p.toNat 62 61
def Pte.n (p : Pte) : Bool := p.getLsbD 63

def Pte.nonLeaf (p : Pte) : Bool := !Pte.r p && !Pte.w p && !Pte.x p

/-- What a walk finds wrong with an entry of a level (the first checks of R335); `none`: nothing. -/
def Pte.bad (level : Nat) (p : Pte) : Option Nat :=
  if !Pte.v p && !Pte.sb p then some 0x10
  else if level = 0 && !Pte.v p && Pte.nonLeaf p then some 0x10
  else if field p.toNat 60 58 != 0 || (Pte.w p && !Pte.r p) || Pte.pbmt p == 3 then some 0x17
  else if Pte.nonLeaf p then
    (if level = 0 then some 0x17
     else if Pte.n p || Pte.pbmt p != 0 || Pte.d p || Pte.a p || Pte.u p || field p.toNat 57 54 != 0 then some 0x17
     else none)
  else if 3 ≤ level then some 0x17
  else if level ≠ 0 && (Pte.n p || Pte.ppn p % 2 ^ (9 * level) != 0) then some 0x17
  else if level = 0 && Pte.n p && Pte.ppn p % 16 != 8 then some 0x17
  else none

/-- Forbidden combinations of device bits in a leaf (R335). -/
def Pte.deviceBad (level : Nat) (p : Pte) : Bool :=
  (Pte.cr p && Pte.sb p) || (Pte.cr p && Pte.fe p) || (Pte.fe p && Pte.pbmt p == 2) ||
  (Pte.sb p && (level != 0 || Pte.n p))

/-! ### Walks (R333, R337) -/

/-- The index of a level in an address, and the level's table (R333). -/
def vaIndex (level va : Nat) : Nat :=
  if level = 5 then va / 2 ^ 57 % 128 else va / 2 ^ (12 + 9 * level) % 512

/-- A leaf that a walk found. -/
structure Leaf where
  pte : Pte
  level : Nat
  pteAt : Nat
  deriving DecidableEq, Repr

inductive Walked where
  | leaf (l : Leaf)
  | fault (cause : Nat)
  /-- an entry's line is held at its home: the walk waits there (spec/09_memory_offers.md R180, spec/23_host.md R352) -/
  | wait
  deriving DecidableEq, Repr

/-- A page-table page that may not be read: lost, or outside the partition, in this order (R335). -/
def State.tableBad (s : State) (part : Nat) (pa : Nat) : Option Nat :=
  if spaceOf pa ≠ .dram then some 0x19
  else if (s.lostAt pa).isSome then some 0x18
  else if (s.ownOf (s.devChannel pa)).part ≠ part then some 0x1A
  else none

/-- One entry of a walk: the next table, or the end. -/
inductive Hop where
  | down (table : Nat)
  | done (w : Walked)
  deriving DecidableEq, Repr

def State.hop (s : State) (part va level table : Nat) : Hop × State :=
  let at_ := table + 8 * vaIndex level va
  match s.tableBad part at_ with
  | some c => (.done (.fault c), s)
  | none =>
    if s.heldLine at_ then (.done .wait, s)
    else
      let (p, s) := s.homeWord at_
      match Pte.bad level p with
      | some c => (.done (.fault c), s)
      | none =>
        if Pte.nonLeaf p then (.down (Pte.ppn p * 4096), s) else (.done (.leaf { pte := p, level := level, pteAt := at_ }), s)

/-- Walk from the table of a level down. -/
def State.walk (s : State) (part va : Nat) : Nat → Nat → Walked × State
  | 0, table =>
    match s.hop part va 0 table with
    | (.down _, s) => (.fault 0x17, s)
    | (.done w, s) => (w, s)
  | level + 1, table =>
    match s.hop part va (level + 1) table with
    | (.down t, s) => s.walk part va level t
    | (.done w, s) => (w, s)

/-! ### Checks of an access (R335) -/

/-- The kinds of access that R335 tells apart. -/
inductive Access where
  | load | store | offer | fetch
  deriving DecidableEq, Repr

/-- U clear: the cause of the access's kind. -/
def Access.uCause : Access → Nat
  | .load => 0x12
  | .store | .offer => 0x11
  | .fetch => 0x13

def Access.rights (k : Access) (p : Pte) : Option Nat :=
  match k with
  | .load => if Pte.r p then none else some 0x12
  | .store => if Pte.w p then none else some 0x11
  | .offer => if !Pte.r p then some 0x12 else if !Pte.w p then some 0x11 else none
  | .fetch => if Pte.x p then none else some 0x13

/-- The cause for another partition's channel (R21). -/
def Access.channelCause : Access → Nat
  | .load => 0x12
  | .store | .offer => 0x11
  | .fetch => 0x13

/-- What an access asks of its translation. `io` says that the instruction may reach a page with PBMT IO (R218 0x1F). -/
structure Ask where
  kind : Access
  sys : Bool
  io : Bool
  /-- a write that a sealed page refuses (R172) -/
  writes : Bool
  /-- a `bcall`: only pages with CR pass, checked in place of residence (spec/19_bank.md R312) -/
  bank : Bool := false
  deriving DecidableEq, Repr

inductive Xlat where
  | ok (pa : Nat) (pte : Pte)
  | fault (cause : Nat)
  /-- a non-resident storage-backed page (R339) -/
  | storage (pteAt : Nat) (pte : Pte)
  /-- the walk waits at the home of an entry -/
  | wait
  deriving DecidableEq, Repr

/-- The physical address under a leaf (R333). -/
def Leaf.address (l : Leaf) (va : Nat) : Nat :=
  let p := Pte.ppn l.pte
  if l.level = 0 then (if Pte.n l.pte then p / 16 * 16 + va / 4096 % 16 else p) * 4096 + va % 4096
  else p * 4096 + va % 2 ^ (12 + 9 * l.level)

/-- The checks of R335 on a leaf. -/
def State.checkLeaf (s : State) (part : Nat) (a : Ask) (va : Nat) (l : Leaf) : Xlat :=
  let p := l.pte
  let pa := l.address va
  if Pte.deviceBad l.level p then .fault 0x1D
  else if !Pte.u p && !a.sys then .fault a.kind.uCause
  else match a.kind.rights p with
    | some c => .fault c
    | none =>
      if Pte.v p && a.writes && spaceOf pa == .dram && (match s.pageState pa with
        | .sealed _ => true
        | _ => false) then .fault 0x1B
      else if a.bank && !(Pte.v p && Pte.cr p) then .fault 0x1C
      else if !Pte.v p then .storage l.pteAt p
      else if Pte.pbmt p = 2 && a.kind == .fetch then .fault 0x1E
      else if Pte.pbmt p = 2 && !a.io then .fault 0x1F
      else match spaceOf pa with
        | .hole => .fault 0x19
        | .dram => if (s.ownOf (s.devChannel pa)).part ≠ part then .fault a.kind.channelCause else .ok pa p
        | _ => .ok pa p

/-- Set A, and D for a write, by a swap at the PTE's home (R336). -/
def State.touchLeaf (s : State) (write : Bool) (l : Leaf) : Leaf × State :=
  let p : Pte := l.pte ||| 0x40 ||| (if write then 0x80 else 0)
  if p = l.pte then (l, s) else ({ l with pte := p }, s.putWordAt l.pteAt p)

/-- Translate without a translation cache: walk, check, set A and D. -/
def State.translateAt (s : State) (root part : Nat) (a : Ask) (va : Word) : Xlat × Option Leaf × State :=
  let (w, s) := s.walk part va.toNat 5 root
  match w with
  | .fault c => (.fault c, none, s)
  | .wait => (.wait, none, s)
  | .leaf l =>
    match s.checkLeaf part a va.toNat l with
    | .ok pa _ =>
      let (l, s) := s.touchLeaf a.writes l
      (.ok pa l.pte, some l, s)
    | x => (x, none, s)

/-- The translation that a core holds for an address. -/
def State.tlbLookup (s : State) (core root : Nat) (va : Word) : Option Leaf :=
  (List.find? (fun (t : Tlb) => t.root == root && t.vpn == va.toNat / 2 ^ t.log) (s.core core).tlb).map
    fun t => { pte := t.pte, level := t.level, pteAt := t.pteAt }

/-- Keep a translation in the core's cache; one with V clear is never kept (R336). -/
def State.tlbKeep (s : State) (core root : Nat) (va : Word) (l : Leaf) : State :=
  let log := if l.level = 2 then 30 else if l.level = 1 then 21 else 12
  let new : Tlb := { root := root, vpn := va.toNat / 2 ^ log, level := l.level, pte := l.pte, pteAt := l.pteAt }
  s.onCore core fun c =>
    { c with tlb := new :: c.tlb.filter fun t => !(t.root == root && t.vpn == va.toNat / 2 ^ t.log) }

/-- Translate for a core, through its translation cache (R335, R336). A held entry without D is walked again for a write. -/
def State.translate (s : State) (core root : Nat) (a : Ask) (va : Word) : Xlat × State :=
  let part := s.corePart core
  let walkNow (s : State) : Xlat × State :=
    match s.translateAt root part a va with
    | (x, some l, s) => (x, s.tlbKeep core root va l)
    | (x, none, s) => (x, s)
  match s.tlbLookup core root va with
  | none => walkNow s
  | some l =>
    match s.checkLeaf part a va.toNat l with
    | .ok pa p => if a.writes && !Pte.d p then walkNow s else (.ok pa p, s)
    | x => (x, s)

/-! ### Roots -/

/-- The root of a launch. -/
def State.launchRoot (s : State) (l : Nat) : Nat :=
  match s.launch? l with
  | some x => x.root
  | none => 0

/-- The root a task translates through: its launch's, and a handler activation's subject's (R221). -/
def State.rootOf (s : State) (t : Task) : Nat :=
  match t.kind with
  | .handler k => match s.task? k with
    | some u => s.launchRoot u.launch
    | none => s.launchRoot t.launch
  | _ => s.launchRoot t.launch

def Task.isHandler (t : Task) : Bool :=
  match t.kind with
  | .handler _ => true
  | _ => false

end Sys2Proof.Machine
end

