-- ==== Sys2Proof/Machine/Frame.lean ====
section
/-! DEFINITION. Frames: their 48 lines (spec/05_scalar.md R86), the frame map and the pool (spec/13_traps.md R232, R233), the
register cache (spec/01_machine.md R42, spec/05_scalar.md R87, R88) and the return stack (R103). -/

namespace Sys2Proof.Machine

open Sys2Proof

/-! ### The lines of a frame (R86) -/

/-- Sixteen return-stack entries, DEPTH and SPILL. -/
def Returns.word (r : Returns) : Nat := r.depth % 32 + r.spill % 512 * 32

/-- The sequencer position (spec/07_arithmetic.md R145). -/
def Sequencer.word (q : Sequencer) : Nat :=
  bit q.act 58 + q.st * 2 ^ 52 + q.sm * 2 ^ 49 + q.sv * 2 ^ 44 + q.k % 64 * 2 ^ 38 + q.i % 32 * 2 ^ 33 + q.j % 65536 * 2 ^ 17 +
  q.n % 131072

def Sequencer.ofWords (q : Sequencer) (base x : Nat) : Sequencer :=
  let same := q.base == BitVec.ofNat 64 base && q.k == field x 43 38
  { q with ins := if same then q.ins else [], base := BitVec.ofNat 64 base, act := field x 58 58 = 1, st := field x 57 52, sm := field x 51 49,
           sv := field x 48 44, k := field x 43 38, i := field x 37 33, j := field x 32 17, n := field x 16 0 }

def SlotState.code : SlotState → Nat
  | .free => 0 | .opened => 1 | .yes => 2 | .no => 3

def SlotState.ofCode (n : Nat) : SlotState :=
  if n = 0 then .free else if n = 1 then .opened else if n = 2 then .yes else .no

/-- The 8-byte entry of a guard slot (R146). HELD counts every command of the slot that has not gone, one that only stands behind another
command included (log entry 48). -/
def Task.slotWord (t : Task) (n : Nat) : Nat :=
  (t.held.filter fun h => h.slot == n).length % 256 * 256 + bit (t.attach == some n) 2 + (t.slots.get .free n).code

/-- 8-byte words of a frame line, in order. -/
def Task.lineWords (t : Task) (i : Nat) : List Nat :=
  let w8 (f : Nat → Nat) : List Nat := (List.range 8).map f
  if i < 8 then w8 fun j => if 8 * i + j = 0 then 0 else (t.regs.g.get 0 (8 * i + j)).toNat
  else if i < 40 then w8 fun j => laneWord (t.regs.v.get 0 (i - 8)) j
  else if i = 40 then w8 fun j => if j = 0 then 2 ^ 64 - 1 else (t.regs.m.get 0 j).toNat
  else if i = 41 then
    ((List.range 4).map fun j => (t.regs.fmt.get 0 (2 * j)).toNat + (t.regs.fmt.get 0 (2 * j + 1)).toNat * 2 ^ 32) ++
      [t.regs.p.toNat / 2 * 2 + 1, t.pc.toNat, t.regs.pend.toNat % 2 ^ 64, t.regs.pend.toNat / 2 ^ 64]
  else if i < 44 then w8 fun j => (t.rets.entry.get 0 (8 * (i - 42) + j)).toNat
  else if i = 44 then
    [t.rets.word, t.sys.tid.toNat, t.sys.cause.toNat, t.sys.trappc.toNat, t.sys.flags.toNat, t.sys.tags.toNat, t.outcnt,
     t.sys.prio.toNat]
  else if i = 45 then
    [t.sys.grps.toNat, t.sys.frmode.toNat, t.sys.bkpa.toNat, t.sys.bkpc.toNat, t.sys.bias.toNat, 0, t.seq.base.toNat,
     t.seq.word]
  else w8 fun j => t.slotWord (8 * (i - 46) + j)
where
  laneWord (x : Line) (j : Nat) : Nat := x.toNat / 2 ^ (64 * j) % 2 ^ 64

def Task.frameLine (t : Task) (i : Nat) : Line :=
  BitVec.ofNat 512 ((t.lineWords i).foldr (fun w acc => w % 2 ^ 64 + 2 ^ 64 * acc) 0)

/-- Take a frame line from its pool image. TASKID and OUTCNT stay what they are; reserved fields of registers read zero
(spec/00_scope.md R5, spec/04_encoding_notes.md R81). -/
def Task.loadLine (t : Task) (i : Nat) (x : Line) : Task :=
  let w (j : Nat) : Nat := x.toNat / 2 ^ (64 * j) % 2 ^ 64
  let put (m : Sparse Word) (k j : Nat) : Sparse Word := m.set 0 k (BitVec.ofNat 64 (w j))
  let r := t.regs
  if i < 8 then
    { t with regs := { r with g := (List.range 8).foldl (fun m j => if 8 * i + j = 0 then m else put m (8 * i + j) j) r.g } }
  else if i < 40 then { t with regs := { r with v := r.v.set 0 (i - 8) x } }
  else if i = 40 then { t with regs := { r with m := (List.range 8).foldl (fun m j => if j = 0 then m else put m j j) r.m } }
  else if i = 41 then
    let f := (List.range 8).foldl (fun m j => Sparse.set 0 m j (BitVec.ofNat 32 (x.toNat / 2 ^ (32 * j)))) r.fmt
    { t with regs := { r with fmt := f, p := BitVec.ofNat 16 (w 4 / 2 * 2), pend := BitVec.ofNat 128 (w 6 + w 7 * 2 ^ 64) },
             pc := BitVec.ofNat 64 (w 5) }
  else if i < 44 then
    { t with rets := { t.rets with entry := (List.range 8).foldl (fun m j => put m (8 * (i - 42) + j) j) t.rets.entry } }
  else if i = 44 then
    { t with rets := { t.rets with depth := w 0 % 32, spill := w 0 / 32 % 512 },
             sys := { t.sys with cause := BitVec.ofNat 64 (w 2), trappc := BitVec.ofNat 64 (w 3), flags := BitVec.ofNat 7 (w 4),
                                 tags := BitVec.ofNat 64 (w 5), prio := BitVec.ofNat 2 (w 7) } }
  else if i = 45 then
    { t with sys := { t.sys with grps := BitVec.ofNat 36 (w 0), frmode := BitVec.ofNat 3 (w 1), bkpa := BitVec.ofNat 64 (w 2) &&& ~~~ (0x38 : Word),
                                 bkpc := BitVec.ofNat 64 (w 3) &&& 0x3FFFF, bias := BitVec.ofNat 64 (w 4) },
             seq := t.seq.ofWords (w 6) (w 7) }
  else
    let slots := (List.range 8).foldl (fun m j => Sparse.set .free m (8 * (i - 46) + j) (SlotState.ofCode (w j % 4))) t.slots
    let att := ((List.range 8).find? fun j => w j / 4 % 2 = 1).map fun j => 8 * (i - 46) + j
    let here : Bool := match t.attach with
      | some a => decide (a / 8 = i - 46)
      | none => false
    { t with slots := slots, attach := if att.isSome then att else if here then none else t.attach }

/-! ### The frame map (R232) -/

/-- The frame-map entry of a task: of its run-queue entry, of the server, or of the handler. -/
def Task.mapEntry (t : Task) : Nat :=
  match t.kind with
  | .delegated => 256
  | .handler _ => 257
  | _ => t.sched.entry

/-- An area of the pool: DRAM bytes wholly within [FPBASE, FPLIM). -/
def State.inPool (s : State) (core a n : Nat) : Bool :=
  let c := s.core core
  c.fpbase.toNat ≤ a && a + n ≤ c.fplim.toNat && spaceOf a == .dram && spaceOf (a + n - 1) == .dram

/-- Where a frame-map entry lies. -/
def State.mapAt (s : State) (core entry : Nat) : Nat := (s.core core).fmap.toNat + 32 * entry

/-- Word j of a frame-map entry. One on a withdrawn or poisoned line cannot be read (R235, R236). -/
def State.mapWord (s : State) (core entry j : Nat) : Word × State :=
  let a := s.mapAt core entry + 8 * j
  if s.inPool core a 8 && (s.lostAt a).isNone then s.homeWord a else (0, s)

/-- The cause where an entry gives no area: its line is lost (R236), else 0x72 (R233). -/
def State.noArea (s : State) (core entry : Nat) : Nat :=
  let a := s.mapAt core entry
  if s.inPool core a 8 then (s.lostAt a).getD 0x72 else 0x72

/-- An area that an entry names, if it is valid: the frame (j = 0), the spill block (1) or the scratch area (2). -/
def State.area (s : State) (core entry j : Nat) : Option Nat × State :=
  let (w, s) := s.mapWord core entry j
  let align := if j = 0 then 4096 else if j = 1 then 2048 else 32768
  let size := if j = 0 then 3072 else if j = 1 then 2048 else 32768
  let a := w.toNat / align * align
  (if w.getLsbD 0 && s.inPool core a size then some a else none, s)

/-! ### The register cache (spec/01_machine.md R42) -/

def allLines48 : BitVec 48 := BitVec.allOnes 48

/-- The number of a 32-bit word of the pool, under which it is marked poisoned (spec/05_scalar.md R89). -/
def State.poolKey (s : State) (frame w : Nat) : Nat := s.cellOf (frame + 4 * w) / 4

/-- 32-bit words of the pool are written: no mark of poison stays on them. -/
def State.healWords (s : State) (frame : Nat) (ws : List Nat) : State :=
  s.onMem fun m => { m with poisonWords := m.poisonWords.filter fun k => !(ws.map (s.poolKey frame)).contains k }

/-- The 32-bit words of a line of a frame. -/
def lineWords32 (i : Nat) : List Nat := (List.range 16).map (16 * i + ·)

/-- Write lines of a frame to the pool. Words whose parity fails are written poisoned (spec/05_scalar.md R89). -/
def State.poolLines (s : State) (t : Task) (frame : Nat) (is : List Nat) : State :=
  let s := is.foldl (fun s i => (s.outerWrite (frame + 64 * i) (t.frameLine i) allBytes).healWords frame (lineWords32 i)) s
  let bad := t.bad.filter fun w => is.contains (w / 16)
  if bad.isEmpty then s else s.onMem fun m => { m with poisonWords := bad.map (s.poolKey frame) ++ m.poisonWords }

/-- Take a line of a frame from the pool: a poisoned word comes back with failing parity. -/
def State.fillLine (s : State) (key frame i : Nat) : State :=
  let (x, s) := s.outerRead (frame + 64 * i)
  let bad := if s.mem.poisonWords.isEmpty then []
    else (lineWords32 i).filter fun w => s.mem.poisonWords.contains (s.poolKey frame w)
  s.onTask key fun t =>
    { t.loadLine i x with bad := bad ++ t.bad.filter fun w => w / 16 != i }

/-- Lines 41 to 47 hold what the machine itself keeps of a task (the next code address, marks, the return stack, system registers,
the sequencer, guard slots), which changes all the time: they are always written back. -/
def systemLines : BitVec 48 := 0xFE0000000000

def linesOf (m : BitVec 48) : List Nat := (List.range 48).filter fun i => m.getLsbD i

/-- Frames of a core that the register cache holds. -/
def State.cachedFrames (s : State) (core : Nat) : Nat :=
  (s.allTasks.filter fun e => e.2.sched.core == core && e.2.cached != 0).length

/-- Evict a frame: what has changed goes to the pool. Without a valid entry it is lost, and its owner is marked: it is
terminated in the run queue with 0x72 (R233), or with the cause of a lost entry (R236). -/
def State.evictFrame (s : State) (core key : Nat) : State :=
  let s := s.onCore core fun c => { c with frames := c.frames.filter (· != key) }
  match s.task? key with
  | none => s
  | some t =>
    let (a, s) := s.area core t.mapEntry 0
    match a with
    | some frame =>
      (s.poolLines t frame (linesOf (t.cached &&& (t.dirty ||| systemLines)))).onTask key fun t =>
        { t with cached := 0, dirty := 0, bad := [] }
    | none =>
      s.onTask key fun t =>
        { t with cached := 0, dirty := 0, bad := [],
                 sched := if t.cached = 0 then t.sched else { t.sched with lostFrame := some (s.noArea core t.mapEntry) } }

/-- Room for one more frame in the register cache: the oldest evictable frame goes (R42). -/
def State.frameRoom (s : State) (core : Nat) : State :=
  if s.cachedFrames core < 16 then s
  else match (s.core core).frames with
    | [] => s
    | k :: _ => s.evictFrame core k

/-- The first line of a frame's image, of those named, that DRAM cannot give: why (R235, R236). -/
def State.imageLost (s : State) (frame : Nat) (is : List Nat) : Option Nat := is.findSome? fun i => s.lostAt (frame + 64 * i)

/-- Bring the whole frame of a task into the register cache. A cause: a line must be filled through an invalid entry
(R233), or is lost (R236). A frame created at the task's start is dirty until it is written out (R88). -/
def State.fillFrame (s : State) (key : Nat) : Option Nat × State :=
  match s.task? key with
  | none => (none, s)
  | some t =>
    let core := t.sched.core
    let s := s.onCore core fun c => { c with frames := c.frames.filter (· != key) }
    if t.cached = allLines48 then (none, s)
    else
      let s := if t.cached = 0 then s.frameRoom core else s
      if !t.sched.started then (none, s.onTask key fun t => { t with cached := allLines48, dirty := allLines48 })
      else
        let (a, s) := s.area core t.mapEntry 0
        match a with
        | none => (some (s.noArea core t.mapEntry), s)
        | some frame => match s.imageLost frame (linesOf (~~~ t.cached)) with
          | some c => (some c, s)
          | none =>
            let s := (linesOf (~~~ t.cached)).foldl (fun s i => s.fillLine key frame i) s
            (none, s.onTask key fun t => { t with cached := allLines48 })

/-- Mark a frame evictable (R41). -/
def State.unpinFrame (s : State) (core key : Nat) : State :=
  s.onCore core fun c => { c with frames := c.frames.filter (· != key) ++ [key] }

/-- The 8-byte words of the frame that hold a register. -/
def Reg.frameDwords (x : Reg) : List Nat := ((Reg.frameWords x).map (· / 2)).eraseDups

/-- The 8-byte words of the frame that hold the pending marks, FLAGS, TAGS and OUTCNT (R86). -/
def marksAt : List Nat := [334, 335]
def flagsAt : Nat := 356
def tagsAt : Nat := 357
def outcntAt : Nat := 358
def grpsAt : Nat := 360

/-- Change named 8-byte words of a task's frame. Lines that lie in the pool are read there, changed, and only those words are
written back, directly (R27, R87); through an invalid entry they cannot be, and the task traps 0x72 (R233), and on lost lines neither
(R236). -/
def State.onFrame (s : State) (key : Nat) (words : List Nat) (f : Task → Task) : State :=
  match s.task? key with
  | none => s
  | some t =>
    let away := (words.filter fun w => !t.cached.getLsbD (w / 8)).eraseDups
    let dirtyOnly (t : Task) : Task := { t with dirty := t.dirty &&& t.cached }
    if away.isEmpty || !t.sched.started then s.onTask key fun t => dirtyOnly (f t)
    else
      let (a, s) := s.area t.sched.core t.mapEntry 0
      let lines := (away.map (· / 8)).eraseDups
      match a with
      | none => (s.onTask key fun t => dirtyOnly (f t)).lateTrap key (s.noArea t.sched.core t.mapEntry) t.pc {}
      | some frame => match s.imageLost frame lines with
        | some c => (s.onTask key fun t => dirtyOnly (f t)).lateTrap key c t.pc {}
        | none =>
          let s := lines.foldl (fun s i => s.fillLine key frame i) s
          let s := s.onTask key fun u =>
            { dirtyOnly (f u) with bad := u.bad.filter fun w => t.cached.getLsbD (w / 16) }
          let word (w : Nat) : Word := match s.task? key with
            | some t => BitVec.ofNat 64 ((t.lineWords (w / 8)).getD (w % 8) 0)
            | none => 0
          away.foldl (fun s w => (s.putWordAt (frame + 8 * w) (word w)).healWords frame [2 * w, 2 * w + 1]) s

/-- Write registers of any task by a result that lands (R71, R27): the marks fall. Writes that reach the register cache enter the
operand log (R88). -/
def State.landRegs (s : State) (key : Nat) (dsts : List Reg) (vals : List Line) (flags : BitVec 7) : State :=
  match s.task? key with
  | none => s
  | some t =>
    let writes := (dsts.zip vals).filter fun e => !e.1.hardwired
    let land (t : Task) : Task :=
      let t := writes.foldl (fun t e => t.setReg e.1 e.2) t
      { t with regs := t.regs.unmark dsts }.orFlags flags
    let s := s.onFrame key ((writes.map fun e => Reg.frameDwords e.1).flatten ++ marksAt ++ [flagsAt]) land
    writes.foldl (fun s e =>
      if t.cached.getLsbD (Reg.frameLine e.1) then s.logWrite t.sched.core key e.1 e.2 else s) s

/-- A value that a unit writes to a register of any task, into the pool where the frame line lies there (R87); only a write to the register
cache enters the operand log (R88). -/
def State.unitWrite (s : State) (key : Nat) (r : Reg) (x : Line) : State :=
  match s.task? key with
  | none => s
  | some t =>
    if r.hardwired then s
    else
      let s' := s.onFrame key (Reg.frameDwords r) fun t => t.setReg r x
      if t.cached.getLsbD (Reg.frameLine r) then s'.logWrite t.sched.core key r x else s'

/-- One completion of a copy tag of any task (R164): TAGS follows the task (R84), into the pool too. -/
def State.completeTag (s : State) (key tag : Nat) : State := s.onFrame key [tagsAt] fun t => t.completeTag tag

/-- OUTCNT of a task whose frame lies in the pool has changed. -/
def State.syncOutcnt (s : State) (key : Nat) : State := s.onFrame key [outcntAt] id

/-! ### The return stack (R103) -/

/-- What a push or a pop answers. -/
inductive Stack where
  | ok (t : Returns) (target : Word)
  | trap (cause : Nat)
  deriving DecidableEq, Repr

/-- Push a return address; a full stack spills its oldest eight entries first. -/
def State.pushReturn (s : State) (ret : Word) : Stack × State :=
  let r := s.t.rets
  let core := s.t.sched.core
  let put (r : Returns) : Returns := { r with entry := r.entry.set 0 r.depth ret, depth := r.depth + 1 }
  if r.depth < 16 then (.ok (put r) ret, s)
  else if 256 < r.spill + 8 then (.trap 0x08, s)
  else
    let (a, s) := s.area core s.t.mapEntry 1
    match a with
    | none => (.trap (s.noArea core s.t.mapEntry), s)
    | some b =>
      let s := (List.range 8).foldl (fun s i => s.putWordAt (b + 8 * (r.spill + i)) (r.entry.get 0 i)) s
      let down := (List.range 8).foldl (fun m i => Sparse.set 0 m i (r.entry.get 0 (i + 8))) r.entry
      (.ok (put { entry := down, depth := 8, spill := r.spill + 8 }) ret, s)

/-- The stack with its newest eight entries refilled, if it is empty, and the entry on top. -/
def State.topReturn (s : State) : Stack × State :=
  let r := s.t.rets
  let core := s.t.sched.core
  if r.depth ≠ 0 then (.ok r (r.entry.get 0 (r.depth - 1)), s)
  else if r.spill = 0 then (.trap 0x09, s)
  else
    let (a, s) := s.area core s.t.mapEntry 1
    match a with
    | none => (.trap (s.noArea core s.t.mapEntry), s)
    | some b => match (List.range 8).findSome? fun i => s.lostAt (b + 8 * (r.spill - 8 + i)) with
      | some c => (.trap c, s)
      | none =>
      let fill (x : Returns × State) (i : Nat) : Returns × State :=
        let (w, s) := x.2.homeWord (b + 8 * (r.spill - 8 + i))
        ({ x.1 with entry := x.1.entry.set 0 i w }, s)
      let (r', s) := (List.range 8).foldl fill (r, s)
      (.ok { r' with depth := 8, spill := r.spill - 8 } (r'.entry.get 0 7), s)

end Sys2Proof.Machine
end

