-- ==== Sys2Proof/Machine/Fetch.lean ====
section
/-! DEFINITION. Fetch lines: how they are read (spec/03_encoding.md R50-R55, spec/09_memory_offers.md R151) and when a code
address is a legal target. -/

namespace Sys2Proof.Machine

open Sys2Proof

/-- The line word (R51). -/
def lineWord (l : Line) : Nat := l.toNat % 2 ^ 32

/-- The instruction word of a slot (R50). -/
def slotWord (l : Line) (s : Nat) : BitVec 96 := BitVec.ofNat 96 (l.toNat / 2 ^ (32 + 96 * s))

def parityOf (n x : Nat) : Nat := (List.range n).foldl (fun acc i => (acc + x / 2 ^ i) % 2) 0

/-- All sixteen parity bits hold (R51). -/
def lineParity (l : Line) : Bool :=
  let w := lineWord l
  (w % 2 == parityOf 16 (w / 2 ^ 16)) &&
  (List.range 15).all fun k =>
    w / 2 ^ (1 + k) % 2 == parityOf 32 ((slotWord l (k / 3)).toNat / 2 ^ (32 * (k % 3)) % 2 ^ 32)

def lineTgt (l : Line) (s : Nat) : Bool := lineWord l / 2 ^ (27 + s) % 2 = 1
def linePair (l : Line) : Nat := lineWord l / 2 ^ 24 % 8
def lineReserved (l : Line) : Nat := lineWord l / 2 ^ 16 % 256

/-- The template pairs a slot with the next (R53). -/
def pairsAt (t s : Nat) : Bool :=
  (s == 0 && (t == 1 || t == 5 || t == 7)) || (s == 1 && (t == 2 || t == 6)) || (s == 2 && (t == 3 || t == 5)) ||
  (s == 3 && (t == 4 || t == 6 || t == 7))

/-- What a fetch answers. -/
inductive Fetched where
  | line (l : Line)
  | fault (cause : Nat) (va : Word)
  | storage (pteAt : Nat) (pte : Pte)
  | wait
  deriving DecidableEq, Repr

def icKey (core line : Nat) : Nat := core * 2 ^ 40 + line

/-- A full instruction L1 gives up a line, to take another. -/
def State.roomIc (s : State) (core : Nat) : State :=
  if s.mem.ic.length < icRoom then s
  else
    let ls := (s.mem.ic.range (icKey core 0) (icKey (core + 1) 0)).map fun e => e.1
    if ls.length < icRoom then s
    else match s.pickVictim ls with
    | (none, s) => s
    | (some k, s) => s.onMem fun m => { m with ic := m.ic.erase k }

/-- A line from L2 or the RDC, without any effect on page states (R151, R153); once more after a parity failure, from L2 or memory
(R52). A page that is not cached (`nc`) is served at the home slice and no cache keeps it (spec/21_launch_storage.md R334). -/
def State.icFill (s : State) (core pa : Nat) (again nc : Bool) : Line × State :=
  let (x, s) := if again || nc then s.homeRead pa else s.dieRead (dieOf core) pa
  (x, if nc then s else (s.roomIc core).onMem fun m => { m with ic := m.ic.put (icKey core (lineAt pa)) x })

/-- What a fetched line that has been fetched twice answers (R52). -/
def lastFetch (l : Line) : Fetched := if lineParity l then .line l else .fault 0x71 0

/-- A fetch parity error is detected: it is reported, and retried (spec/13_traps.md R235, R237). -/
def State.fetchError (s : State) (core pa : Nat) : State := s.ras 0 0x71 0 core (lineAt pa) s.t.sys.tid

/-- Fetch the line of a code address for the task in focus on a core: translation, then the instruction L1. A line whose parity fails
is dropped and fetched once more (R52); where its line is held at its home, that second reading waits. -/
def State.fetchLine (s : State) (core root : Nat) (sys : Bool) (pc : Word) : Fetched × State :=
  let va := lineOf pc
  match windowOf va with
  | .ls _ | .dls _ _ => (.fault 0x1E va, s)
  | .mapped =>
    let (x, s) := s.translate core root { kind := .fetch, sys := sys, io := false, writes := false } va
    match x with
    | .fault c => (.fault c va, s)
    | .storage a p => (.storage a p, s)
    | .wait => (.wait, s)
    | .ok pa pte =>
      match spaceOf pa with
      | .dram =>
        if (s.lostAt pa).isSome then (.fault ((s.lostAt pa).getD 0) va, s)
        else
          let k := icKey core (lineAt pa)
          let again := s.t.refetch == some k || s.mem.icAgain.contains k
          let held := if Pte.pbmt pte = 1 then none else s.mem.ic.find? k
          if (again || held.isNone) && s.heldLine pa then (.wait, s)
          else if again then
            let (l, s) := (s.onT fun t => { t with refetch := none }).icFill core pa true (Pte.pbmt pte == 1)
            (lastFetch l, s.onMem fun m => { m with icAgain := m.icAgain.filter (· != k) })
          else
            let (l, s) := match held with
              | some l => (l, s)
              | none => s.icFill core pa false (Pte.pbmt pte == 1)
            if lineParity l then (.line l, s)
            else
              let s := (s.fetchError core pa).onMem fun m => { m with ic := m.ic.erase k }
              if s.heldLine pa then (.wait, s.onT fun t => { t with refetch := some k })
              else
                let (l, s) := s.icFill core pa true (Pte.pbmt pte == 1)
                (lastFetch l, s)
      | .control => (.fault 0x13 va, s)
      | _ =>
        let (bs, s) := s.freeBytes 64
        let l : Line := BitVec.ofNat 512 (ofBytes bs)
        if lineParity l then (.line l, s)
        else
          let (bs, s) := (s.fetchError core pa).freeBytes 64
          (lastFetch (BitVec.ofNat 512 (ofBytes bs)), s)

/-- The shape of a code address (R55): bits 5:3 zero and a slot of 0 to 4. -/
def pcShape (pc : Word) : Bool := pc.toNat / 8 % 8 = 0 && pc.toNat % 8 < 5

/-- What the check of a transfer answers. -/
inductive Target where
  | ok
  | bad
  | fault (cause : Nat) (va : Word)
  | storage (pteAt : Nat) (pte : Pte)
  | wait
  deriving DecidableEq, Repr

/-- The checks of R55 on a target. -/
def State.checkTarget (s : State) (core root : Nat) (sys : Bool) (target : Word) : Target × State :=
  if !pcShape target then (.bad, s)
  else
    match s.fetchLine core root sys target with
    | (.line l, s) => (if lineTgt l (target.toNat % 8) then .ok else .bad, s)
    | (.fault c va, s) => (.fault c va, s)
    | (.storage a p, s) => (.storage a p, s)
    | (.wait, s) => (.wait, s)

/-- The cause that a decoding error raises (R74). -/
def DecodeError.cause : DecodeError → Nat
  | .illegal => 0x01
  | .reservedField => 0x02

def wordMaj (w : BitVec 96) : Nat := w.toNat / 2 ^ 82 % 256
def wordFn (w : BitVec 96) : Nat := w.toNat / 2 ^ 78 % 16

/-- Major and function are assigned (R75 step 3). -/
def assigned (w : BitVec 96) : Bool := (opcode (wordMaj w) (wordFn w)).isSome

/-- The classes of majors that R69 counts: vector, memory and above, control. -/
def majVector (m : Nat) : Bool := m == 0x33 || m == 0x34 || (0x50 ≤ m && m ≤ 0x7F)
def majMemory (m : Nat) : Bool := 0x80 ≤ m
def majControl (m : Nat) : Bool := 0x20 ≤ m && m ≤ 0x2F

/-- R69: the two words may form a pair. -/
def pairOk (a b : BitVec 96) : Bool :=
  let x := wordMaj a
  let y := wordMaj b
  !(majVector x && majVector y) && !(majMemory x && majMemory y) && !majControl x

end Sys2Proof.Machine
end

