-- ==== Sys2Proof/Machine/Access.lean ====
section
/-! DEFINITION. Accesses of tasks: translation and its outcomes, the order of one task's accesses (spec/11_ordering_sync.md
R190, R195, spec/12_ordering_notes.md R215), units of loads and stores (spec/09_memory_offers.md R158), versions
(spec/01_machine.md R39, R40) and waiting for storage (spec/21_launch_storage.md R341, R342). -/

namespace Sys2Proof.Machine

open Sys2Proof

/-! ### Storage services (R341, R342) -/

/-- The service has neither ended nor failed. -/
def Service.open_ (v : Service) : Bool := v.served.isNone && v.failed.isNone

/-- A service request; requests for one PTE join one service. -/
def State.requestService (s : State) (part pteAt : Nat) (pte : Pte) (w : Waiter) : State :=
  let loc : BitVec 44 := BitVec.ofNat 44 (field pte.toNat 53 10)
  let e := loc.toNat / 2 ^ 41
  let (id, s) := s.nextOp
  s.onEngine e fun t =>
    if t.services.any fun v => v.pteAt == pteAt && v.open_ then
      { t with services := t.services.map fun v =>
          if v.pteAt = pteAt ∧ v.open_ ∧ !v.waiters.contains w then { v with waiters := v.waiters ++ [w] } else v }
    else { t with services := t.services ++ [{ id := id, pteAt := pteAt, locator := loc, part := part, waiters := [w] }] }

/-- Take a waiter off the finished services that a test picks; those without waiters are over. -/
def State.leaveService (s : State) (w : Waiter) (pick : Service → Bool) : State :=
  let drop (v : Service) : Service := if pick v then { v with waiters := v.waiters.filter (· != w) } else v
  let passed (v : Service) : Bool := !v.open_ && v.waiters.isEmpty
  if s.teasel.any fun e => e.2.services.any pick then
    { s with teasel := s.teasel.map fun e => (e.1, { e.2 with services := (e.2.services.map drop).filter fun v => !passed v }) }
  else s

/-- An engine meets a non-resident page: the cause with which its service has failed (R345), else it waits for a service. -/
def State.engineMeets (s : State) (part pteAt : Nat) (pte : Pte) (id : Nat) : Option Nat × State :=
  let hit (v : Service) : Bool := v.pteAt == pteAt && v.failed.isSome && v.waiters.contains (.engine id)
  match (s.teasel.findSome? fun e => (e.2.services.find? hit).bind Service.failed) with
  | some c => (some c, s.leaveService (.engine id) hit)
  | none => (none, s.requestService part pteAt pte (.engine id))

/-- An engine has reached a page: a service that it waited for is over for it (R346). -/
def State.engineServed (s : State) (page id : Nat) : State :=
  s.leaveService (.engine id) fun v => v.served == some page && v.waiters.contains (.engine id)

/-- An engine has ended what it did: nothing waits for it any more (R346). -/
def State.engineLeaves (s : State) (id : Nat) : State :=
  s.leaveService (.engine id) fun v => !v.open_ && v.waiters.contains (.engine id)

/-- The task in focus gives up its slot before the access (R342); its frame is evictable. -/
def State.suspend (s : State) : State :=
  let s := s.onT fun t => { t with sched := { t.sched with status := .suspended, slot := none, heldAt := none } }
  s.unpinFrame s.t.sched.core s.cur

/-- The issue is the one that a service suspended (R346): its code address, and its iteration where the sequencer issues it. -/
def Task.reissues (t : Task) : Bool := t.sched.metAt == some (t.pc, t.iteration)

/-- A precise access meets a non-resident page: the task is suspended, or it traps where its service has failed (R345). -/
def State.meetStorage (s : State) (va : Word) (pteAt : Nat) (pte : Pte) : State :=
  match (if s.t.reissues then s.t.sched.storage else none) with
  | some (c, st) =>
    (s.onT fun t => { t with sched := { t.sched with storage := none } }).trapWith c { g4 := va, g5 := st.setWidth 64 }
  | none =>
    let s := s.onT fun t => { t with sched := { t.sched with metAt := some (t.pc, t.iteration) } }
    (s.requestService (s.corePart s.t.sched.core) pteAt pte (.task s.cur)).suspend

/-! ### Translating for the task in focus -/

def Task.asks (t : Task) (kind : Access) (io writes : Bool) : Ask :=
  { kind := kind, sys := t.isHandler, io := io, writes := writes }

def CtlError.cause (write : Bool) : CtlError → Nat
  | .hole => 0x19
  | .misaligned => 0x0A
  | .denied => if write then 0x11 else 0x12
  | .otherQueue => 0x2F

/-- What the place behind a translation refuses: withdrawn channels (spec/13_traps.md R236), control space (R349, R350),
peers with no path (R359). -/
def State.placeFault (s : State) (core pa len : Nat) (pte : Pte) (write : Bool) : Option Nat :=
  match spaceOf pa with
  | .dram => s.lostAt pa
  | .control =>
    if Pte.pbmt pte ≠ 2 then some (if write then 0x11 else 0x12)
    else (s.ctlCheck (.task (s.corePart core)) (pa - 0x8000000000) len write).map (CtlError.cause write)
  | .perold p => if (s.dev.peers.get {} p).v then none else some 0x28
  | .pcie _ => none
  | .hole => some 0x19

/-- Translate an access of a task and check the place. 0x2F is for a store to a doorbell (spec/23_host.md R350). -/
def State.reach (s : State) (t : Task) (a : Ask) (va : Word) (len : Nat) : Xlat × State :=
  let (x, s) := s.translate t.sched.core (s.rootOf t) a va
  match x with
  | .ok pa p =>
    match s.placeFault t.sched.core pa len p a.writes with
    | some c => (.fault (if a.kind = .offer && c = 0x2F then 0x11 else c), s)
    | none => (.ok pa p, s)
  | x => (x, s)

/-- A page that L1 and RDC do not hold (R334). -/
def Pte.uncached (p : Pte) : Bool := Pte.pbmt p == 1 || Pte.pbmt p == 2

/-! ### The order of one task's accesses -/

/-- How an access counts among the strong accesses (spec/11_ordering_sync.md R189). -/
inductive Strength where
  | weak | read | both | fill
  deriving DecidableEq, Repr

/-- An access that is not performed yet: where it lies (with `ls`, in the core's own local store, at that offset), and its strength
if its bytes are homed on the task's die. -/
structure Span where
  op : Nat
  va : Nat
  len : Nat
  strength : Strength
  ls : Bool := false
  /-- it leaves every byte as it is -/
  reads : Bool := false
  /-- an `ldf` that waits at its core's bank for a full word (spec/09_memory_offers.md R162) -/
  waiter : Bool := false
  deriving DecidableEq, Repr

/-- Bytes of translated addresses that may be the same (compared within a page, since one page may have several names). -/
def overlapMod (a la b lb : Nat) : Bool := (b + 4096 - a % 4096) % 4096 < la || (a + 4096 - b % 4096) % 4096 < lb

/-- An offer, or a commit: a bank request is none (spec/11_ordering_sync.md R189). -/
def Offer.isBank (o : Offer) : Bool :=
  match o.op with
  | .bank _ _ _ => true
  | _ => false

/-- The accesses of a long op that are not performed yet. Offers of core and cluster scope are strong between parties that their
scope covers; they are ordered for every party, which is stronger (log entry 44). -/
def LongOp.spans (core : Nat) (l : LongOp) : List Span :=
  match l.act with
  | .load _ _ _ _ us => (us.filter fun u => u.data.isNone).map fun u =>
      { op := l.op, va := u.va.toNat, len := u.len, strength := .weak, ls := u.pa.isNone, reads := true }
  | .ldf _ va (some pa) _ | .ldft _ va (some pa) _ =>
    if l.vals.isEmpty then [{ op := l.op, va := va.toNat, len := 8, strength := if homeDie pa = dieOf core then .read else .weak }]
    else []
  | .ldf _ va none told =>
    if l.vals.isEmpty then
      [{ op := l.op, va := va.toNat, len := 8, strength := .weak, ls := true, reads := true, waiter := told }]
    else []
  | .ldft _ va none _ =>
    if l.vals.isEmpty then [{ op := l.op, va := va.toNat, len := 8, strength := .weak, ls := true, reads := true }] else []
  | .offer o =>
    if o.reply.isNone && !o.isBank then
      [{ op := l.op, va := o.va.toNat, len := 64,
         strength := if o.owner.isNone && homeDie o.pa == dieOf core then .both else .weak, ls := o.owner == some core }]
    else []
  | _ => []

/-- A store that is not resolved yet, as an access. Where translation at issue did not find its home, it counts as homed on the
task's die. -/
def Store.span (core : Nat) (st : Store) : Span :=
  { op := st.op, va := st.ls.getD st.va.toNat, len := st.data.length.max 8, ls := st.ls.isSome
    strength := match st.kind with
      | .stf | .clrf => if st.ls.isNone && st.home.all fun d => d = dieOf core then .fill else .weak
      | _ => .weak }

/-- What the task still has to perform, loads, offers and stores. -/
def Task.spans (t : Task) : List Span :=
  t.long.flatMap (LongOp.spans t.sched.core) ++ t.stores.map (Store.span t.sched.core)

/-- An earlier access of the task to the same bytes of a translated address is not performed yet (R190). -/
def Task.clash (t : Task) (op va len : Nat) : Bool :=
  t.spans.any fun x => !x.ls && x.op < op && overlapMod x.va x.len va len

/-- The same for bytes of the core's own local store. -/
def Task.lsClash (t : Task) (op off len : Nat) : Bool :=
  t.spans.any fun x => x.ls && x.op < op && overlapMod x.va x.len off len

/-- Bytes of local-store offsets that are the same. -/
def lsOverlap (a la b lb : Nat) : Bool := (b + 2 ^ 19 - a % 2 ^ 19) % 2 ^ 19 < la || (a + 2 ^ 19 - b % 2 ^ 19) % 2 ^ 19 < lb

/-- An earlier write of the task to these bytes of the core's own local store is held: an instruction that reads them at issue waits
for it (R215, R190). -/
def Task.lsOwed (t : Task) (op off len : Nat) : Bool :=
  t.spans.any fun x => x.ls && !x.reads && x.op < op && lsOverlap x.va x.len off len

/-- An earlier access of the task to the core's own local store is held. Such accesses take effect in issue order
(spec/09_memory_offers.md R152, spec/11_ordering_sync.md R191), so a later one is held behind it (R215). An `ldf` that waits at the bank
has been there: only accesses to its bytes wait for it (R190). -/
def Task.lsBehind (t : Task) (op off len : Nat) : Bool :=
  t.spans.any fun x => x.ls && x.op < op && (!x.waiter || lsOverlap x.va x.len off len)

/-- An earlier acquire of a guard is outstanding: every later access is held (R215). -/
def Task.acquiring (t : Task) (op : Nat) : Bool :=
  t.long.any fun l => l.op < op && match l.act with
    | .guard _ _ _ _ _ => true
    | _ => false

/-- An earlier acquire of any kind is outstanding: every later load is held (spec/11_ordering_sync.md R188). -/
def Task.loadsHeld (t : Task) (op : Nat) : Bool :=
  t.long.any fun l => l.op < op && match l.act with
    | .guard _ _ _ _ _ | .recv _ _ | .deleg _ _ _ => true
    | _ => false

/-- An access to the core's own local store must wait: an acquire is outstanding (R215, R188), or an earlier such access waits. -/
def Task.lsHeld (t : Task) (op off len : Nat) (load : Bool) : Bool :=
  t.acquiring op || (load && t.loadsHeld op) || t.lsBehind op off len

/-- An earlier strong access on the task's own die is not performed yet (R195): a strong read may pass earlier fills to other bytes
(same bytes: R190). -/
def Task.strongWait (t : Task) (op : Nat) (k : Strength) : Bool :=
  k != .weak && t.spans.any fun x => x.op < op && x.strength != .weak && (k == .fill || x.strength != .fill)

/-- A load, an offer or a full/empty load may be performed now. -/
def State.mayPerform (s : State) (t : Task) (op va len : Nat) (pa : Option Nat) (k : Strength) : Bool :=
  !t.loadsHeld op && !t.clash op va len && !t.strongWait op k && match pa with
    | some a => !s.heldLine a
    | none => true

/-! ### Units (R158) -/

/-- Bytes of the task's version over a line (spec/01_machine.md R39). -/
def Task.overVersion (t : Task) (pa : Nat) (x : Line) : Line :=
  match t.version.find? (lineAt pa) with
  | some v => mergeLine v.mask v.data x
  | none => x

/-- A unit of a load outside local store: its bytes as a number. -/
def State.readUnit (s : State) (key core : Nat) (scope : Scope) (nc alloc : Bool) (pa len : Nat) : Nat × State :=
  match spaceOf pa with
  | .dram =>
    let (x, s) := s.coreRead core scope nc alloc pa
    let x := match s.task? key with
      | some t => t.overVersion pa x
      | none => x
    (sliceLine x (pa % 64) len, s)
  | .control => (s.ctlRead (pa - 0x8000000000) len, s)
  | _ =>
    let s := s.emit (.read (s.corePart core) pa len)
    let (bs, s) := s.freeBytes len
    (ofBytes bs, s)

/-- A write that leaves the device over a port: the line's decline entries see it there (spec/09_memory_offers.md R178), and it is
outstanding at system scope until the far side acknowledges it (R159). -/
def State.writeFar (s : State) (part key op pa : Nat) (bs : List Byte) : State :=
  ((s.emit (.write part pa bs)).markWritten pa).onDev fun d => { d with unacked := d.unacked ++ [(key, op)] }

/-- A unit of a store outside local store. -/
def State.writeUnit (s : State) (key op core : Nat) (scope : Scope) (nc : Bool) (pa : Nat) (bs : List Byte) : State :=
  match spaceOf pa with
  | .dram => s.coreWrite core scope nc pa (placeLine (ofBytes bs) (pa % 64) bs.length) (maskOf (pa % 64) bs.length) key
  | .control => s.ctlWrite (pa - 0x8000000000) bs.length (ofBytes bs)
  | _ => s.writeFar (s.corePart core) key op pa bs

/-! ### Local store, with the scratch of a versioned task (R39) -/

def State.lsLoad (s : State) (t : Task) (off n : Nat) : Nat :=
  let core := t.sched.core
  if t.versioned then
    ofBytes ((List.range n).map fun i =>
      match t.scratch.find? ((off + i) % 2 ^ 19) with
      | some b => b
      | none => BitVec.ofNat 8 (s.lsRead core (off + i) 1))
  else s.lsRead core off n

def Task.putScratch (t : Task) (off : Nat) (bs : List Byte) : Task :=
  { t with scratch := (List.range bs.length).foldl (fun m i => m.put ((off + i) % 2 ^ 19) (bs.getD i 0)) t.scratch }

/-! ### Versions (R39, R40) -/

/-- Put bytes into the version; `full` says that publishing them makes their words full (spec/09_memory_offers.md R161). -/
def Task.putVersion (t : Task) (pa : Nat) (bs : List Byte) (full : Bool := false) : Task :=
  let v := t.version.get { data := 0, mask := 0 } (lineAt pa)
  let m := maskOf (pa % 64) bs.length
  { t with version := t.version.put (lineAt pa) { data := mergeLine m (placeLine (ofBytes bs) (pa % 64) bs.length) v.data,
                                                  mask := v.mask ||| m, full := if full then v.full ||| m else v.full } }

/-- Lines that the store would add take the version past 256 KiB (R40). -/
def Task.versionFull (t : Task) (pas : List Nat) : Bool :=
  let new := ((pas.map lineAt).eraseDups).filter fun l => (t.version.find? l).isNone
  !new.isEmpty && 4096 < t.version.length + new.length

/-- The store would take the scratch past 32 KiB (R40). The spec gives the scratch no granularity and its area no layout: distinct
bytes are counted, and the bytes stay with the task, whose area in the pool is never written (log entry 43). -/
def Task.scratchFull (t : Task) (off n : Nat) : Bool :=
  32768 < t.scratch.length + ((List.range n).filter fun i => (t.scratch.find? ((off + i) % 2 ^ 19)).isNone).length

/-- The release of R188 that a publication makes at device scope: the die's dirty RDC lines are written through. -/
def State.writeThroughAll (s : State) (die : Nat) : State := (s.rdcLines die).foldl (fun s l => s.rdcWriteThrough die l) s

/-- Words of a published line that a copy engine wrote become full (spec/09_memory_offers.md R161). -/
def State.fullWords (s : State) (line : Nat) (m : ByteMask) : State :=
  (List.range 8).foldl (fun s i => if m &&& maskOf (8 * i) 8 = 0 then s else s.setFull (line + 8 * i) true) s

/-- Publish the version and the scratch of the task in focus as one release at device scope. -/
def State.publish (s : State) : State :=
  let core := s.t.sched.core
  let line (s : State) (e : Nat × VLine) : State :=
    (s.coreWrite core .device false e.1 e.2.data e.2.mask s.cur).fullWords e.1 e.2.full
  let s := s.t.version.foldl line s
  let s := s.t.scratch.foldl (fun s e => s.lsWrite core e.1 [e.2]) s
  (s.onT fun t => { t with version := [], scratch := [] }).writeThroughAll (dieOf core)

/-- Some line of the version is held at its home, or an RDC line that the release writes through is. -/
def State.publishWaits (s : State) : Bool :=
  (s.t.version.any fun e => s.heldLine e.1) || s.rdcBlocked (dieOf s.t.sched.core)

/-- R40: publish, make the task plain, trap 0x5C. -/
def State.versionOverflow (s : State) (va : Word) : State :=
  if s.publishWaits then s.hold
  else ((s.publish).onT fun t => { t with versioned := false }).trapVa 0x5C va

/-- The first local-store write of a versioned task, by a store or a copy, needs a scratch area (spec/13_traps.md R233). -/
def State.scratchMissing (s : State) (t : Task) : Option Nat × State :=
  if t.scratch.isEmpty then
    let (a, s) := s.area t.sched.core t.mapEntry 2
    (if a.isNone then some (s.noArea t.sched.core t.mapEntry) else none, s)
  else (none, s)

/-! ### Stores -/

/-- A store of a plain task that is not performed at issue: it stays unresolved for now (spec/13_traps.md R225). -/
def State.addStore (s : State) (kind : StoreKind) (va : Word) (lane : Nat) (bs : List Byte) (scope : Scope)
    (home : Option Nat := none) (found : Option Nat := none) (ls : Option Nat := none) (unit : Nat := 8)
    (places : List (Nat × Bool) := []) : State :=
  let (op, s) := s.nextOp
  s.onT fun t => { t with stores := t.stores ++
    [{ op := op, kind := kind, va := va, pc := t.pc, lane := lane, data := bs, scope := scope, dist := 0, home := home,
       found := found, ls := ls, unit := unit, places := places }] }

/-- Write local store for the task in focus: its scratch if it is versioned, and after the acquire that holds it (R215). -/
def State.lsStore (s : State) (va : Word) (off lane : Nat) (bs : List Byte) (k : State → State) : State :=
  if s.t.versioned then
    if s.t.lsClash s.ops off bs.length then s.hold
    else
      let (missing, s) := s.scratchMissing s.t
      if missing.isSome then s.trap (missing.getD 0x72)
      else if s.t.scratchFull off bs.length then s.versionOverflow 0
      else k (s.onT fun t => t.putScratch off bs)
  else if s.t.lsHeld s.ops off bs.length false then k (s.addStore .plain va lane bs .core (ls := some off))
  else k (s.lsWrite s.t.sched.core off bs)

/-- What a versioned task's store to a translated address meets before anything is written: the answer at once, or where it
goes. -/
inductive Placed where
  | stop (s : State)
  | at_ (pa : Nat) (s : State)

/-- Where a store of a versioned task goes. -/
def State.placeVersion (s : State) (va : Word) (len : Nat) (io : Bool) : Placed :=
  let (x, s) := s.reach s.t (s.t.asks .store io true) va len
  match x with
  | .fault c => .stop (s.trapVa c va)
  | .storage a p => .stop (s.meetStorage va a p)
  | .wait => .stop s.hold
  | .ok pa _ => if s.t.clash s.ops va.toNat len then .stop s.hold else .at_ pa s

/-- Bytes of a store to a translated address by a versioned task: precise, into the version. -/
def State.versionStore (s : State) (va : Word) (bs : List Byte) (io : Bool) (k : State → State) : State :=
  match s.placeVersion va bs.length io with
  | .stop s => s
  | .at_ pa s => match spaceOf pa with
    | .dram => if s.t.versionFull [pa] then s.versionOverflow va else k (s.onT fun t => t.putVersion pa bs)
    | _ => k (s.writeUnit s.cur s.ops s.t.sched.core .system true pa bs)

/-- Record a faulting store (R225, R227); those of a task that is terminated, or that a `kill` has marked, are dropped
(spec/14_traps_notes.md R247). -/
def State.recordFault (s : State) (key : Nat) (st : Store) (cause : Nat) : State :=
  match s.task? key with
  | none => s
  | some t =>
    let core := t.sched.core
    let r : FaultRec := { va := st.va, pc := st.pc, tid := t.sys.tid, grps := t.sys.grps, cause := cause, kind := st.kind,
                          lane := st.lane, data := st.data }
    let far (t : Task) : Task := { t with faulted := t.faulted ++ [st.dist] }
    let ended := t.sched.dying.isSome || t.sched.killed
    let s := if ended then s else s.onTask key far
    if ended then s
    else if (s.core core).sfq.length < 16 then s.onCore core fun c => { c with sfq := c.sfq ++ [r] }
    else (s.onCore core fun c => { c with sfqLost := min 255 (c.sfqLost + 1) }).onTask key fun t => { t with lost := true }

/-- Remove an unresolved store. -/
def State.dropStore (s : State) (key op : Nat) : State :=
  s.onTask key fun t => { t with stores := t.stores.filter fun x => x.op != op }

/-- The pieces in which a store is performed, each single-copy atomic (R158): whole for the narrow ones, 16-byte quarters for a line at
a 16-byte-aligned address, lanes of `w` bytes for a line elsewhere; every piece lies in one line. -/
def storePieces (w va : Nat) (bs : List Byte) : List (Nat × List Byte) :=
  let n := if va % 16 = 0 then 16 else w
  if bs.length ≤ 8 then [(0, bs)] else (List.range (bs.length / n)).map fun i => (n * i, (bs.drop (n * i)).take n)

/-- Translate every page that a store touches: addresses of its pieces, or the first that fails. -/
def State.reachAll (s : State) (t : Task) (a : Ask) (va : Word) (len : Nat) :
    List (Nat × List Byte) → (Xlat × List (Nat × Pte × List Byte)) × State
  | [] => ((.ok 0 0, []), s)
  | (o, bs) :: rest =>
    let (x, s) := s.reach t a (va + BitVec.ofNat 64 o) (min len bs.length)
    match x with
    | .ok pa p =>
      match s.reachAll t a va len rest with
      | ((.ok _ _, xs), s) => ((.ok pa p, (pa, p, bs) :: xs), s)
      | (r, s) => (r, s)
    | x => ((x, []), s)

/-- The access that a store makes, and the bytes that it writes: a `clrf` touches its word and writes none. -/
def Store.ask (t : Task) (st : Store) : Ask :=
  { kind := .store, sys := t.isHandler, io := st.data.length ≤ 8 && st.kind != .lane, writes := true }

def Store.bytes (st : Store) : List Byte := if st.kind = .clrf then [0] else st.data

/-- The held store to the core's own local store is performed. -/
def State.performLs (s : State) (core : Nat) (st : Store) (off : Nat) : State :=
  match st.kind with
  | .stf => (s.lsWrite core off st.data).lsSetFull core off true
  | .clrf => s.lsSetFull core off false
  | _ => s.lsWrite core off st.data

/-- A full/empty store is performed at the home of its word (R155, R162). A `clrf` counts as a write for the written bit of R178, though it
leaves the data as it was (log entry 48). -/
def State.performFill (s : State) (core pa : Nat) (st : Store) : State :=
  let s := s.atHome core pa
  let s := if st.kind = .stf then
      s.homeWrite pa (placeLine (ofBytes st.data) (pa % 64) st.data.length) (maskOf (pa % 64) st.data.length)
    else s.markWritten pa
  s.setFull pa (st.kind == .stf)

/-- A store may not be performed yet: an acquire holds it (R215), or an earlier access of the task comes first: to the same bytes, or in
local store any. -/
def Store.early (t : Task) (st : Store) : Bool :=
  t.acquiring st.op || match st.ls with
    | some off => t.lsBehind st.op off (st.data.length.max 1)
    | none => t.clash st.op st.va.toNat (st.data.length.max 1)

/-- The pieces of a store with their physical addresses, and whether their pages are uncached. One that has been translated keeps its
translation: it is performed under it, and meets no fault any more (R225, R243). -/
def State.placeStore (s : State) (t : Task) (st : Store) : Xlat × List (Nat × Bool × List Byte) × State :=
  let ps := storePieces st.unit st.va.toNat st.bytes
  if st.places.isEmpty then
    let ((x, qs), s) := s.reachAll t (st.ask t) st.va st.bytes.length ps
    (x, qs.map (fun q => (q.1, Pte.uncached q.2.1, q.2.2)), s)
  else (.ok 0 0, (st.places.zip ps).map fun e => (e.1.1, e.1.2, e.2.2), s)

/-- Resolve a store of a plain task (R225): translate, then perform what is not performed yet, or record. A fault that its issue
met already stands (R162). `none`: it must still wait. -/
def State.resolveStore (s : State) (key : Nat) (st : Store) : Option State :=
  match s.task? key with
  | none => none
  | some t =>
    let core := t.sched.core
    if st.early t then none
    else match st.ls, st.found with
    | some off, _ => some ((s.performLs core st off).dropStore key st.op)
    | none, some c => some ((s.recordFault key st c).dropStore key st.op)
    | none, none =>
      let (x, ps, s) := s.placeStore t st
      match x with
      | .fault c => some ((s.recordFault key st c).dropStore key st.op)
      | .wait => none
      | .storage pteAt p =>
        if st.waits then none
        else
          let s := s.requestService (s.corePart core) pteAt p (.store key st.op)
          some (s.onTask key fun t =>
            { t with stores := t.stores.map fun x => if x.op = st.op then { x with waits := true } else x })
      | .ok _ _ =>
        let pa0 := (ps.head?.map (·.1)).getD 0
        if ps.any fun q => s.heldLine q.1 then none
        else match st.kind with
          | .plain | .lane =>
            let write (s : State) (i : Nat) : State := match ps[i]? with
              | some q => if st.done.contains i then s else s.writeUnit key st.op core st.scope q.2.1 q.1 q.2.2
              | none => s
            some (((List.range ps.length).foldl write s).dropStore key st.op)
          | _ =>
            if homeDie pa0 = dieOf core ∧ t.strongWait st.op .fill then none
            else some ((s.performFill core pa0 st).dropStore key st.op)

/-- One piece of a store is performed before the others: they are not atomic with each other (R158). All of it is translated and
checked by then. -/
def State.storePieceNow (s : State) (key op i : Nat) : State :=
  match s.task? key with
  | none => s
  | some t => match t.stores.find? fun st => st.op == op with
    | none => s
    | some st =>
      let early := st.early t || st.ls.isSome || st.found.isSome || st.done.contains i || !(st.kind == .plain || st.kind == .lane)
      let (x, ps, s') := s.placeStore t st
      let places := ps.map fun q => (q.1, q.2.1)
      match early, x, ps[i]? with
      | false, .ok _ _, some (pa, nc, bs) =>
        if s'.heldLine pa then s
        else (s'.writeUnit key op t.sched.core st.scope nc pa bs).onTask key fun t =>
          { t with stores := t.stores.map fun x => if x.op = op then { x with done := i :: x.done, places := places } else x }
      | _, _, _ => s

end Sys2Proof.Machine
end

