-- ==== Sys2Proof/Machine/Fp.lean ====
section
/-! DEFINITION. Floating point: exact values, the rounding function of spec/07_arithmetic.md R113, the operations of R126 to
R130 and the destination forms of spec/03_encoding.md R68. -/

namespace Sys2Proof

/-! ### Flags (spec/05_scalar.md R85) -/

abbrev Flags := BitVec 7

def fNV : Flags := 0x01
def fDZ : Flags := 0x02
def fOF : Flags := 0x04
def fUF : Flags := 0x08
def fNX : Flags := 0x10
def fSAT : Flags := 0x20
def fWL : Flags := 0x40

def flagIf (c : Bool) (f : Flags) : Flags := if c then f else 0

/-! ### Exact values -/

/-- A decoded value. `fin neg m e tail` has magnitude m · 2^e, or, where `tail` holds, a magnitude strictly between
m · 2^e and (m + 1) · 2^e. -/
inductive Val where
  | nan (signalling : Bool)
  | inf (neg : Bool)
  | fin (neg : Bool) (m : Nat) (e : Int) (tail : Bool)
  deriving DecidableEq, Repr

def Val.zero (neg : Bool) : Val := .fin neg 0 0 false

def Val.ofInt (x : Int) : Val := .fin (x < 0) x.natAbs 0 false

def Val.isZero : Val → Bool
  | .fin _ m _ tail => m == 0 && !tail
  | _ => false

def Val.isNan : Val → Bool
  | .nan _ => true
  | _ => false

def Val.isSnan : Val → Bool
  | .nan s => s
  | _ => false

def Val.sign : Val → Bool
  | .nan _ => false
  | .inf n => n
  | .fin n _ _ _ => n

/-- Modifiers on a value (R67): absolute, then negate. -/
def Val.modify (neg abs : Bool) : Val → Val
  | .nan s => .nan s
  | .inf n => .inf (xor (n && !abs) neg)
  | .fin n m e t => .fin (xor (n && !abs) neg) m e t

/-- Multiplication by 2^k. -/
def Val.scale (k : Int) : Val → Val
  | .fin n m e t => .fin n m (e + k) t
  | v => v

/-! ### IEEE formats (R111, R112) -/

/-- An IEEE format: exponent and fraction widths. -/
structure FpFmt where
  eb : Nat
  mb : Nat

def FpFmt.bias (f : FpFmt) : Nat := 2 ^ (f.eb - 1) - 1
def FpFmt.width (f : FpFmt) : Nat := 1 + f.eb + f.mb
def FpFmt.qnan (f : FpFmt) : Nat := (2 ^ f.eb - 1) * 2 ^ f.mb + 2 ^ (f.mb - 1)
def FpFmt.infBits (f : FpFmt) (neg : Bool) : Nat := (if neg then 2 ^ (f.eb + f.mb) else 0) + (2 ^ f.eb - 1) * 2 ^ f.mb
def FpFmt.maxBits (f : FpFmt) (neg : Bool) : Nat := f.infBits neg - 1
def FpFmt.oneBits (f : FpFmt) (neg : Bool) : Nat := (if neg then 2 ^ (f.eb + f.mb) else 0) + f.bias * 2 ^ f.mb

def fmtF16 : FpFmt := { eb := 5, mb := 10 }
def fmtBf16 : FpFmt := { eb := 8, mb := 7 }
def fmtF32 : FpFmt := { eb := 8, mb := 23 }
def fmtF64 : FpFmt := { eb := 11, mb := 52 }

/-- The format of an FP type. -/
def Ty.fp : Ty → FpFmt
  | .f16 => fmtF16
  | .bf16 => fmtBf16
  | .f64 => fmtF64
  | _ => fmtF32

def FpFmt.decode (f : FpFmt) (x : Nat) : Val :=
  let x := x % 2 ^ f.width
  let neg := x / 2 ^ (f.eb + f.mb) == 1
  let e := x / 2 ^ f.mb % 2 ^ f.eb
  let m := x % 2 ^ f.mb
  if e == 2 ^ f.eb - 1 then
    if m == 0 then .inf neg else .nan (m < 2 ^ (f.mb - 1))
  else if e == 0 then .fin neg m (1 - (f.bias : Int) - f.mb) false
  else .fin neg (2 ^ f.mb + m) ((e : Int) - f.bias - f.mb) false

/-! ### Rounding (R113) -/

/-- The five modes. -/
inductive Mode where
  | rne | rtz | rna | rup | rdn
  deriving DecidableEq, Repr

/-- FRMODE's coding (spec/05_scalar.md R85). -/
def Mode.ofBits (x : BitVec 3) : Mode :=
  match x.toNat with
  | 1 => .rtz
  | 2 => .rna
  | 3 => .rup
  | 4 => .rdn
  | _ => .rne

/-- A magnitude rounded to a multiple of 2^q: the multiple, and whether it differs from the exact value. -/
def roundTo (mode : Mode) (neg : Bool) (m : Nat) (e : Int) (tail : Bool) (q : Int) : Nat × Bool :=
  if q ≤ e then (m * 2 ^ (e - q).toNat + (if tail && ((mode == .rup && !neg) || (mode == .rdn && neg)) then 1 else 0), tail)
  else
    let s := (q - e).toNat
    let hi := m / 2 ^ s
    let lo := m % 2 ^ s
    let half := 2 ^ (s - 1)
    let exact := lo == 0 && !tail
    let above := lo > half || (lo == half && tail)
    let tie := lo == half && !tail
    let up := match mode with
      | .rne => above || (tie && hi % 2 == 1)
      | .rna => above || tie
      | .rtz => false
      | .rup => !exact && !neg
      | .rdn => !exact && neg
    (if up then hi + 1 else hi, !exact)

/-- The exponent of the last place that p significant bits leave to m · 2^e. -/
def lastPlace (m : Nat) (e : Int) (p : Nat) : Int := e + (Nat.log2 m + 1 : Nat) - p

/-- The IEEE bits of m · 2^q, which the format holds. -/
def FpFmt.assemble (f : FpFmt) (neg : Bool) (m : Nat) (q : Int) : Nat :=
  let s := if neg then 2 ^ (f.eb + f.mb) else 0
  if m == 0 then s
  else
    let qmin : Int := 1 - (f.bias : Int) - f.mb
    if m < 2 ^ f.mb then s + m * 2 ^ (q - qmin).toNat
    else
      let (m, q) := if m == 2 ^ (f.mb + 1) then (2 ^ f.mb, q + 1) else (m, q)
      s + ((q - qmin).toNat + 1) * 2 ^ f.mb + (m - 2 ^ f.mb)

/-- The result that overflow gives (R113). -/
def FpFmt.overflow (f : FpFmt) (mode : Mode) (neg : Bool) : Nat :=
  match mode with
  | .rne | .rna => f.infBits neg
  | .rtz => f.maxBits neg
  | .rup => if neg then f.maxBits true else f.infBits false
  | .rdn => if neg then f.infBits true else f.maxBits false

/-- round_T(x, mode) with the flags of the rounding (R113, R114). A NaN gives the canonical NaN (R112). -/
def FpFmt.round (f : FpFmt) (mode : Mode) : Val → Nat × Flags
  | .nan _ => (f.qnan, 0)
  | .inf neg => (f.infBits neg, 0)
  | .fin neg m e tail =>
    if m == 0 && !tail then (f.assemble neg 0 0, 0)
    else
      let qmin : Int := 1 - (f.bias : Int) - f.mb
      let q' := lastPlace m e (f.mb + 1)
      let q := max q' qmin
      let (r, inexact) := roundTo mode neg m e tail q
      let (r', _) := roundTo mode neg m e tail q'
      let tiny := (Nat.log2 r' : Int) + q' < 1 - (f.bias : Int)
      if (Nat.log2 r : Int) + q > f.bias && r != 0 then (f.overflow mode neg, fOF ||| fNX)
      else (f.assemble neg r q, flagIf inexact fNX ||| flagIf (inexact && tiny) fUF)

/-! ### Clamps and destinations (spec/03_encoding.md R68) -/

/-- The magnitude comparison of two finite values: a < b, for values without a tail. -/
def magLt (m : Nat) (e : Int) (m' : Nat) (e' : Int) : Bool :=
  let k := min e e'
  m * 2 ^ (e - k).toNat < m' * 2 ^ (e' - k).toNat

/-- Numeric order of two values that are no NaN; zeros are equal. -/
def Val.lt (a b : Val) : Bool :=
  match a, b with
  | .fin na ma ea _, .fin nb mb eb _ =>
    if ma == 0 then !nb && mb != 0
    else if mb == 0 then na
    else match na, nb with
      | true, false => true
      | false, true => false
      | false, false => magLt ma ea mb eb
      | true, true => magLt mb eb ma ea
  | .inf na, .inf nb => na && !nb
  | .inf na, .fin .. => na
  | .fin .., .inf nb => !nb
  | _, _ => false

def Val.eq (a b : Val) : Bool :=
  match a, b with
  | .nan _, _ | _, .nan _ => false
  | _, _ => !a.lt b && !b.lt a

def Val.one (neg : Bool) : Val := .fin neg 1 0 false

/-- clamp_fp: the clamped bits and whether `csat` changed the value. -/
def FpFmt.clamp (f : FpFmt) (cl : Clamp) (y : Nat) : Nat × Flags :=
  let v := f.decode y
  if v.isNan then (y, 0)
  else match cl with
    | .none => (y, 0)
    | .c01 => if v.lt (.zero false) then (0, 0) else if (Val.one false).lt v then (f.oneBits false, 0) else (y, 0)
    | .c11 =>
      if v.lt (.one true) then (f.oneBits true, 0) else if (Val.one false).lt v then (f.oneBits false, 0) else (y, 0)
    | .cpos => if v.lt (.zero false) then (0, 0) else (y, 0)
    | .csat => match v with
      | .inf n => (f.maxBits n, fSAT)
      | _ => (y, 0)

/-- The destination scale as a number, −8 to 7 (R56). -/
def scaleOf (k : BitVec 4) : Int := k.toInt

/-- An FP destination formed from the exact result (R68). -/
def FpFmt.form (f : FpFmt) (mode : Mode) (cl : Clamp) (k : BitVec 4) (x : Val) : Nat × Flags :=
  let (y, fl) := f.round mode (x.scale (scaleOf k))
  let (z, fl') := f.clamp cl y
  (z, fl ||| fl')

/-- A value rounded to an integer. -/
def Val.toInt (mode : Mode) : Val → Int × Bool
  | .fin neg m e tail =>
    let (r, inexact) := roundTo mode neg m e tail 0
    (if neg then -(r : Int) else r, inexact)
  | _ => (0, false)

/-- The range of an integer type. -/
def Ty.minInt (t : Ty) : Int := if t.isI then -(2 ^ (t.width - 1) : Nat) else 0
def Ty.maxInt (t : Ty) : Int := if t.isI then (2 ^ (t.width - 1) - 1 : Nat) else (2 ^ t.width - 1 : Nat)

/-- An integer destination formed from the exact result (R68): the w bits and the flags. -/
def intForm (t : Ty) (cl : Clamp) (k : BitVec 4) (x : Int) : Nat × Flags :=
  let y : Int := (Val.toInt .rne ((Val.ofInt x).scale (scaleOf k))).1
  let z : Int := match cl with
    | .none => y
    | .c01 => min (max y 0) 1
    | .c11 => min (max y (-1)) 1
    | .cpos => max y 0
    | .csat => min (max y t.minInt) t.maxInt
  ((z % (2 ^ t.width : Nat)).toNat, flagIf (cl == .csat && z != y) fSAT)

/-! ### Exact operations (R126, R127) -/

/-- The sign of an exact zero sum (R113). -/
def zeroSign (mode : Mode) : Bool := mode == .rdn

/-- a + b, exact, with NV. -/
def Val.add (mode : Mode) (a b : Val) : Val × Flags :=
  match a, b with
  | .nan s, .nan t => (.nan false, flagIf (s || t) fNV)
  | .nan s, _ => (.nan false, flagIf s fNV)
  | _, .nan t => (.nan false, flagIf t fNV)
  | .inf n, .inf n' => if n == n' then (.inf n, 0) else (.nan false, fNV)
  | .inf n, _ => (.inf n, 0)
  | _, .inf n => (.inf n, 0)
  | .fin na ma ea _, .fin nb mb eb _ =>
    let k := min ea eb
    let x : Int := (ma * 2 ^ (ea - k).toNat : Nat)
    let y : Int := (mb * 2 ^ (eb - k).toNat : Nat)
    let z := (if na then -x else x) + (if nb then -y else y)
    if z == 0 then (.zero (if na == nb then na else zeroSign mode), 0)
    else (.fin (z < 0) z.natAbs k false, 0)

def Val.neg (v : Val) : Val := v.modify true false

/-- a × b, exact, with NV. -/
def Val.mul (a b : Val) : Val × Flags :=
  match a, b with
  | .nan s, .nan t => (.nan false, flagIf (s || t) fNV)
  | .nan s, _ => (.nan false, flagIf s fNV)
  | _, .nan t => (.nan false, flagIf t fNV)
  | .inf n, .inf n' => (.inf (xor n n'), 0)
  | .inf n, .fin n' m _ _ => if m == 0 then (.nan false, fNV) else (.inf (xor n n'), 0)
  | .fin n m _ _, .inf n' => if m == 0 then (.nan false, fNV) else (.inf (xor n n'), 0)
  | .fin na ma ea _, .fin nb mb eb _ => (.fin (xor na nb) (ma * mb) (if ma * mb == 0 then 0 else ea + eb) false, 0)

/-- a × b + c with one rounding to come. A product 0 × Inf gives NaN and NV even beside a quiet NaN (R127). -/
def Val.fma (mode : Mode) (a b c : Val) : Val × Flags :=
  let (p, f1) := a.mul b
  let (r, f2) := p.add mode c
  (r, f1 ||| f2)

/-- Significant bits that a quotient or root carries beside its tail. -/
def workBits : Nat := 140

/-- a / b. -/
def Val.div (a b : Val) : Val × Flags :=
  match a, b with
  | .nan s, .nan t => (.nan false, flagIf (s || t) fNV)
  | .nan s, _ => (.nan false, flagIf s fNV)
  | _, .nan t => (.nan false, flagIf t fNV)
  | .inf _, .inf _ => (.nan false, fNV)
  | .inf n, .fin n' .. => (.inf (xor n n'), 0)
  | .fin n .., .inf n' => (.zero (xor n n'), 0)
  | .fin na ma ea _, .fin nb mb eb _ =>
    if mb == 0 then
      if ma == 0 then (.nan false, fNV) else (.inf (xor na nb), fDZ)
    else
      let x := ma * 2 ^ workBits
      if ma == 0 then (.zero (xor na nb), 0)
      else (.fin (xor na nb) (x / mb) (ea - eb - workBits) (x % mb != 0), 0)

/-- The integer square root, bit by bit from bit `n` − 1 down. -/
def isqrtAux (x : Nat) : Nat → Nat → Nat
  | 0, r => r
  | n + 1, r =>
    let c := r + 2 ^ n
    if c * c ≤ x then isqrtAux x n c else isqrtAux x n r

def isqrt (x : Nat) : Nat := isqrtAux x (Nat.log2 x / 2 + 1) 0

/-- √a (R127: −0 gives −0). -/
def Val.sqrt : Val → Val × Flags
  | .nan s => (.nan false, flagIf s fNV)
  | .inf n => if n then (.nan false, fNV) else (.inf false, 0)
  | .fin n m e _ =>
    if m == 0 then (.zero n, 0)
    else if n then (.nan false, fNV)
    else
      let odd := e % 2 != 0
      let x := m * 2 ^ (2 * workBits + if odd then 1 else 0)
      let h := (e - if odd then 1 else 0) / 2
      let r := isqrt x
      (.fin false r (h - workBits) (r * r != x), 0)

/-- 1 / √a. -/
def Val.rsqrt : Val → Val × Flags
  | .nan s => (.nan false, flagIf s fNV)
  | .inf n => if n then (.nan false, fNV) else (.zero false, 0)
  | .fin n m e _ =>
    if m == 0 then (.inf n, fDZ)
    else if n then (.nan false, fNV)
    else
      -- a = m · 2^e with e even; 1/√a = √(2^(2s) / m) · 2^(−s − e/2)
      let odd := e % 2 != 0
      let m := if odd then m * 2 else m
      let h := (e - if odd then 1 else 0) / 2
      let s := workBits + Nat.log2 m
      let r := isqrt (2 ^ (2 * s) / m)
      (.fin false r (-(s : Int) - h) (r * r * m != 2 ^ (2 * s)), 0)

/-- ln 2 · 2^400, truncated. -/
def ln2 : Nat := 1789879222497203190815761498240779176894896805856420935579692301363062920687047601279850318367644315849030039181347319086

/-- The Taylor sum of e^x − terms in x^i / i! with x = y / 2^400, from term i of value `term`. -/
def expAux (y : Nat) : Nat → Nat → Nat → Nat → Nat
  | 0, _, _, acc => acc
  | fuel + 1, i, term, acc =>
    let term' := term * y / 2 ^ 400 / i
    expAux y fuel (i + 1) term' (acc + term')

/-- 2^(f / 2^300) for f < 2^300, as a number of 2^−340 units, truncated with at least 250 correct bits. -/
def exp2Frac (f : Nat) : Nat := expAux (f * ln2 / 2 ^ 300) 120 1 (2 ^ 400) (2 ^ 400) / 2 ^ 60

/-- 2^a (R126, R127). The result is irrational unless a is an integer, so the tail always holds there: log entry 11. -/
def Val.exp2 : Val → Val × Flags
  | .nan s => (.nan false, flagIf s fNV)
  | .inf n => (if n then .zero false else .inf false, 0)
  | .fin n m e _ =>
    if m == 0 then (.one false, 0)
    else
      let top : Int := (Nat.log2 m : Int) + e
      if top ≥ 12 then (.fin false 1 (if n then -8000 else 8000) false, 0)
      else if top < -200 then
        (if n then .fin false (2 ^ 300 - 1) (-300) true else .fin false (2 ^ 300) (-300) true, 0)
      else
        -- a in units of 2^−300
        let x : Int := if -300 ≤ e then (m * 2 ^ (e + 300).toNat : Nat) else (m / 2 ^ (-300 - e).toNat : Nat)
        let x := if n then -x else x
        let i := x / (2 ^ 300 : Nat)
        let f := (x % (2 ^ 300 : Nat)).toNat
        if f == 0 then (.fin false 1 i false, 0) else (.fin false (exp2Frac f) (i - 340) true, 0)

/-- Bits of log2 r, most significant first, for r = x / 2^700 in [1, 2). -/
def log2Aux : Nat → Nat → Nat → Nat
  | 0, _, acc => acc
  | fuel + 1, x, acc =>
    let y := x * x / 2 ^ 700
    if y < 2 ^ 701 then log2Aux fuel y (2 * acc) else log2Aux fuel (y / 2) (2 * acc + 1)

/-- log2 a (R126, R127). The result is irrational unless a is a power of two: log entry 11. -/
def Val.log2 : Val → Val × Flags
  | .nan s => (.nan false, flagIf s fNV)
  | .inf n => if n then (.nan false, fNV) else (.inf false, 0)
  | .fin n m e _ =>
    if m == 0 then (.inf true, fDZ)
    else if n then (.nan false, fNV)
    else
      let k : Int := (Nat.log2 m : Int) + e
      if m == 2 ^ Nat.log2 m then
        (if k == 0 then .zero false else .ofInt k, 0)
      else
        let fr := log2Aux 300 (m * 2 ^ (700 - Nat.log2 m)) 0
        let x : Int := k * (2 ^ 300 : Nat) + (fr : Int)
        if x < 0 then (.fin true (x.natAbs - 1) (-300) true, 0) else (.fin false x.natAbs (-300) true, 0)

/-! ### Operations on codes -/

/-- fmin and fmax (R129) on bits after modifiers: the returned operand keeps its bits. -/
def FpFmt.minmax (f : FpFmt) (isMax : Bool) (x y : Nat) : Nat × Flags :=
  let a := f.decode x
  let b := f.decode y
  let nv := flagIf (a.isSnan || b.isSnan) fNV
  if a.isNan && b.isNan then (f.qnan, nv)
  else if a.isNan then (y, nv)
  else if b.isNan then (x, nv)
  else
    let aLess := a.lt b || (a.eq b && a.sign && !b.sign)
    (if aLess != isMax then x else y, 0)

/-- fclass of a value with its subnormal mark (R130). -/
def classBit (v : Val) (subnormal : Bool) : Nat :=
  match v with
  | .nan s => if s then 8 else 9
  | .inf n => if n then 0 else 7
  | .fin n m _ _ =>
    if m == 0 then (if n then 3 else 4)
    else if subnormal then (if n then 2 else 5)
    else if n then 1 else 6

/-- An IEEE value is subnormal. -/
def FpFmt.isSub (f : FpFmt) (x : Nat) : Bool := x / 2 ^ f.mb % 2 ^ f.eb == 0

/-- Source modifiers on IEEE bits (R67): they act on the sign bit, NaNs included. -/
def FpFmt.modify (f : FpFmt) (neg abs : Bool) (x : Nat) : Nat :=
  let x := x % 2 ^ f.width
  let s := 2 ^ (f.width - 1)
  let mag := x % s
  let sg := x / s == 1
  mag + (if xor (sg && !abs) neg then s else 0)

/-- A compare (R100): the condition and NV. -/
def fpCompare (c : Cond) (a b : Val) : Bool × Flags :=
  let un := a.isNan || b.isNan
  let quiet := flagIf (a.isSnan || b.isSnan) fNV
  match c with
  | .eq => (!un && a.eq b, quiet)
  | .ne => (un || !a.eq b, quiet)
  | .uo => (un, quiet)
  | .ord => (!un, quiet)
  | .lt => (!un && a.lt b, flagIf un fNV)
  | .le => (!un && !b.lt a, flagIf un fNV)
  | .gt => (!un && b.lt a, flagIf un fNV)
  | .ge => (!un && !a.lt b, flagIf un fNV)

/-- Integer compares (R99). -/
def intCompare (c : Cond) (a b : Int) : Bool :=
  match c with
  | .eq => a == b
  | .ne => a != b
  | .lt => a < b
  | .le => a ≤ b
  | .gt => b < a
  | .ge => b ≤ a
  | .uo => false
  | .ord => true

end Sys2Proof
end

