-- ==== Sys2Proof/Machine/Narrow.lean ====
section
/-! DEFINITION. Narrow formats: format registers, decode and encode (spec/07_arithmetic.md R115-R118). -/

namespace Sys2Proof

/-- The fields of a format register (R115). -/
structure NFmt where
  wid : Nat
  sgn : Nat
  exp : Nat
  ebias : Int
  spec : Nat
  rnd : Nat
  sub : Bool
  blk : Nat
  top : Nat

def NFmt.ofBits (x : BitVec 32) : NFmt :=
  let n := x.toNat
  { wid := n % 16, sgn := n / 16 % 2, exp := n / 32 % 8, ebias := (BitVec.ofNat 8 (n / 256)).toInt, spec := n / 65536 % 4,
    rnd := n / 262144 % 4, sub := n / 1048576 % 2 == 1, blk := n / 2097152 % 8, top := n / 16777216 }

/-- The check of R58 (spec/03_encoding.md): 0x40 otherwise. -/
def NFmt.valid (f : NFmt) : Bool :=
  4 ≤ f.wid && f.wid ≤ 8 && f.sgn + f.exp ≤ f.wid && f.spec != 3 && 4 ≤ f.blk && f.top == 0

/-- The mantissa width M = W − S − E. -/
def NFmt.man (f : NFmt) : Nat := f.wid - f.sgn - f.exp

/-- Width of the magnitude field. -/
def NFmt.magBits (f : NFmt) : Nat := f.wid - f.sgn

def NFmt.magOf (f : NFmt) (c : Nat) : Nat := c % 2 ^ f.magBits
def NFmt.negOf (f : NFmt) (c : Nat) : Bool := f.sgn == 1 && c / 2 ^ f.magBits % 2 == 1

/-- SPEC 2 with a proper exponent and mantissa (R116). -/
def NFmt.ieeeLike (f : NFmt) : Bool := f.spec == 2 && f.exp != 0 && f.man != 0

/-- The magnitude is a NaN (R116). -/
def NFmt.nanMag (f : NFmt) (mag : Nat) : Bool :=
  if f.spec == 0 then false
  else if f.ieeeLike then mag / 2 ^ f.man == 2 ^ f.exp - 1 && mag % 2 ^ f.man != 0
  else mag == 2 ^ f.magBits - 1

def NFmt.infMag (f : NFmt) (mag : Nat) : Bool := f.ieeeLike && mag / 2 ^ f.man == 2 ^ f.exp - 1 && mag % 2 ^ f.man == 0

/-- The written NaN code, where the format has one (R116). -/
def NFmt.nanCode (f : NFmt) : Option Nat :=
  if f.spec == 0 then none
  else if f.ieeeLike then some ((2 ^ f.exp - 1) * 2 ^ f.man + 2 ^ (f.man - 1))
  else some (2 ^ f.magBits - 1)

/-- The finite magnitude of a code, as m · 2^q (R116). -/
def NFmt.magVal (f : NFmt) (mag : Nat) : Nat × Int :=
  let e := mag / 2 ^ f.man
  let m := mag % 2 ^ f.man
  if f.exp == 0 then (m, -f.ebias)
  else if e == 0 then (if f.sub then m else 0, 1 - f.ebias - f.man)
  else (2 ^ f.man + m, (e : Int) - f.ebias - f.man)

/-- The value of a code (R116), before any scale. A zero keeps its sign. -/
def NFmt.decode (f : NFmt) (c : Nat) : Val :=
  let mag := f.magOf c
  let neg := f.negOf c
  if f.nanMag mag then .nan false
  else if f.infMag mag then .inf neg
  else
    let (m, q) := f.magVal mag
    .fin neg m q false

/-- Search downward for the largest finite magnitude. -/
def NFmt.maxAux (f : NFmt) : Nat → Nat → Nat
  | 0, mag => mag
  | fuel + 1, mag => if f.nanMag mag || f.infMag mag then NFmt.maxAux f fuel (mag - 1) else mag

/-- The magnitude code of max (R116). -/
def NFmt.maxMag (f : NFmt) : Nat := f.maxAux (2 ^ f.magBits) (2 ^ f.magBits - 1)

/-- The code of sign and magnitude m · 2^q, which the format holds. -/
def NFmt.assemble (f : NFmt) (neg : Bool) (m : Nat) (q : Int) : Nat :=
  let s := if neg && f.sgn == 1 then 2 ^ f.magBits else 0
  if m == 0 then s
  else if f.exp == 0 then s + m
  else
    let qmin : Int := 1 - f.ebias - f.man
    let (m, q) := if m == 2 ^ (f.man + 1) then (2 ^ f.man, q + 1) else (m, q)
    if m < 2 ^ f.man then s + m * 2 ^ (q - qmin).toNat
    else s + ((q - qmin).toNat + 1) * 2 ^ f.man + (m - 2 ^ f.man)

/-- The conversion mode of a format: RND, or FRMODE when RND = 3 (R117), unless FN names one. -/
def NFmt.mode (f : NFmt) (frmode : Mode) : Mode :=
  match f.rnd with
  | 0 => .rne
  | 1 => .rtz
  | 2 => .rna
  | _ => frmode

/-- encode(x, F, mode) of R117. Where M = 0 every significand is odd, and a tie under RNE takes the larger power of two: the spec does not
say which (log entry 48). -/
def NFmt.encode (f : NFmt) (mode : Mode) : Val → Nat × Flags
  | .nan s =>
    match f.nanCode with
    | some c => (c, flagIf s fNV)
    | none => (0, fNV)
  | .inf neg =>
    if f.sgn == 0 && neg then (0, fSAT ||| fNX)
    else
      let s := if neg then 2 ^ f.magBits else 0
      if f.ieeeLike then (s + (2 ^ f.exp - 1) * 2 ^ f.man, 0) else (s + f.maxMag, fSAT)
  | .fin neg m e tail =>
    if m == 0 && !tail then (f.assemble neg 0 0, 0)
    else if f.sgn == 0 && neg then (0, fSAT ||| fNX)
    else
      let qmin : Int := if f.exp == 0 then -f.ebias else 1 - f.ebias - f.man
      let q' := lastPlace m e (f.man + 1)
      let q := if f.exp == 0 then qmin else max q' qmin
      let (r, inexact) := roundTo mode neg m e tail q
      let (mm, mq) := f.magVal f.maxMag
      let s := if neg then 2 ^ f.magBits else 0
      if magLt mm mq r q then
        if f.ieeeLike then
          let toInf := match mode with
            | .rne | .rna => true
            | .rtz => false
            | .rup => !neg
            | .rdn => neg
          (s + if toInf then (2 ^ f.exp - 1) * 2 ^ f.man else f.maxMag, fOF ||| fNX)
        else (s + f.maxMag, fSAT ||| fNX)
      else
        let flush := !f.sub && f.exp != 0 && r != 0 && magLt r q 1 (1 - f.ebias)
        let tiny :=
          if f.exp == 0 then magLt m e 1 (-f.ebias) && !(m == 0 && !tail)
          else
            let (r', _) := roundTo mode neg m e tail q'
            magLt r' q' 1 (1 - f.ebias)
        if flush then (f.assemble neg 0 0, fUF ||| fNX)
        else (f.assemble neg r q, flagIf inexact fNX ||| flagIf (inexact && tiny) fUF)

/-- fclass of a narrow code counts as subnormal when E ≥ 1 and its exponent field is zero (R130). -/
def NFmt.isSub (f : NFmt) (c : Nat) : Bool := f.exp != 0 && f.magOf c / 2 ^ f.man == 0

/-- The zero test of R150 (spec/08_arithmetic_notes.md): before any scale or bias. -/
def NFmt.isZero (f : NFmt) (c : Nat) : Bool := (f.decode c).isZero

/-- A signed byte: block scales and biases (R118). -/
def sbyte (x : Nat) : Int := (BitVec.ofNat 8 x).toInt

end Sys2Proof
end

