-- ==== Sys2Proof/Machine/Operands.lean ====
section
/-! DEFINITION. What every instruction does before its own effect: spec/03_encoding.md R75 steps 7 to 11 (privilege, guard,
narrow formats, hazards), and the values of its operands (spec/03_encoding.md R59, R61, R67, spec/05_scalar.md R83). -/

namespace Sys2Proof

/-! ### Fields and types -/

def Flds.hd : Flds → Head
  | .a o => o.hd
  | .p o => o.hd
  | .m o => o.hd
  | .b o => o.hd
  | .e o => o.hd
  | .s o => o.hd

def Flds.ty : Flds → Option Ty
  | .a o => o.ty
  | .p o => o.ty
  | .m o => o.ty
  | .e o => o.ty
  | _ => none

/-- An integer operand of a type: the low w bits, extended by the signedness (R83). -/
def Ty.intOf (t : Ty) (x : Nat) : Int :=
  if t.isI then (BitVec.ofNat t.width x).toInt else (x % 2 ^ t.width : Nat)

/-- An integer result of a type, extended to 64 bits (R83). -/
def Ty.extend (t : Ty) (x : Nat) : Word :=
  if t.isI then (BitVec.ofNat t.width x).signExtend 64 else (BitVec.ofNat t.width x).setWidth 64

/-- Integer source modifiers (R67): two's complement in the operand's width. Absolute leaves an unsigned value as it is (DEDUCED,
log entry 41). -/
def Ty.intMod (t : Ty) (neg abs : Bool) (x : Int) : Int :=
  let wrap (y : Int) : Int := t.intOf (y % (2 ^ t.width : Nat)).toNat
  let y := if abs && x < 0 then wrap (-x) else x
  if neg then wrap (-y) else y

def Rnd.mode (r : Rnd) (dflt : Mode) : Mode :=
  match r with
  | .frmode => dflt
  | .rne => .rne
  | .rtz => .rtz
  | .rna => .rna
  | .rup => .rup
  | .rdn => .rdn

end Sys2Proof

namespace Sys2Proof.Machine

open Sys2Proof

/-! ### Registers an instruction reads and writes (R73) -/

def keep (b : Bool) (x : List Reg) : List Reg := if b then x else []

/-- A mask operand m1-m7: inactive lanes keep the destination, which is then an implicit source (R132). -/
def masked (x : Reg) : Bool :=
  match x with
  | .m n => n != 0
  | _ => false

/-- R139: a narrowing `vcvt` keeps the other destination lanes. -/
def cvtNarrows (o : OpA) : Bool :=
  match o.ty, srcTy o.imm with
  | some d, some s => d.width < s.width
  | _, _ => false

/-- The destination of an instruction of format A is a source too. -/
def dstReadA (r : Row) (o : OpA) : Bool :=
  match r.dstRead with
  | .never => false
  | .always => true
  | .ifMask => masked o.c.reg
  | .cvt => cvtNarrows o || masked o.c.reg
  | .tsum => o.ty == some .pair32 || masked o.c.reg

/-- The n g registers from a first one on (R210). -/
def argRegs (c : Reg) (n : Nat) : List Reg := (List.range n).map fun i => .g (Fin.ofNat 64 (gIndex c + i))

/-- Registers read, the guard apart: sources, bases, indexes, store data, and implicit sources (R73). -/
def readsOf (r : Row) : Flds → List Reg
  | .a o => keep r.a.used [o.a.reg] ++ keep (r.a.used && r.extra == .vtsum && o.ty == some .f32) [o.a.reg.next] ++
      keep r.b.used [o.b.reg] ++ keep r.c.used [o.c.reg] ++ keep (dstReadA r o) [o.dst] ++
      keep (r.extra == .vtsum && o.ty == some .pair32) [o.dst.next]
  | .p o => keep r.a.used [o.a.reg] ++ keep r.b.used [o.b.reg] ++ keep (o.comb != .set) [o.p1, .p o.p2]
  | .m o => keep r.a.used [o.base] ++ keep r.b.used [o.index] ++ keep (r.dst.used && !r.dstWrite) [o.data]
  | .b o => keep r.a.used [o.sa]
  | .e o => keep r.a.used [o.a] ++ keep r.b.used [o.b.reg] ++
      (match r.extra with
       | .deleg => argRegs o.c.reg (o.imm.toNat % 8)
       | .amsg => argRegs o.c.reg (o.imm.toNat / 64 % 4)
       | _ => keep r.c.used [o.c.reg]) ++
      keep (r.dstRead == .always) [o.dst, o.dst.next]
  | .s o => keep r.a.used [o.sa]

/-- Registers written, implicit destinations included. -/
def writesOf (r : Row) : Flds → List Reg
  | .a o => keep r.dst.used [o.dst] ++ keep (r.extra == .vtsum && o.ty == some .pair32) [o.dst.next]
  | .p o => [o.p1, .p o.p2]
  | .m o => keep (r.dst.used && r.dstWrite) [o.data] ++ keep r.pidx [.p o.pidx]
  | .b o => keep r.aWrite [o.sa]
  | .e o => keep r.dst.used [o.dst] ++ keep r.pair [o.dst.second] ++ keep r.pidx [.p o.pE] ++ keep r.pD [.p o.pD] ++
      keep (r.extra == .mrd && o.ty == some .pair32) [o.dst.next]
  | .s o => keep r.dst.used [o.dst] ++ keep (r.extra == .sfqpop) [o.dst.next]

/-- Narrow format registers that an instruction uses (R58). -/
def narrowsOf (r : Row) (f : Flds) : List (Fin 8) :=
  let one : Option Ty → List (Fin 8)
    | some (.nf k) => [k]
    | _ => []
  one (f.ty) ++
    match f with
    | .a o => if r.extra == .cvt || r.extra == .pack || r.extra == .unpack then one (srcTy o.imm) else []
    | _ => []

/-! ### Guards and the checks before the effect -/

/-- The guard holds (R66). -/
def Regs.guard (r : Regs) (h : Head) : Bool := xor (r.rp h.gp) h.gi

/-- What the checks of R75 steps 7 to 11 decide. -/
inductive Check where
  | pass
  | skip
  | trap (cause : Nat)
  deriving DecidableEq, Repr

/-- `hret`, `hrow` and `hwr` belong to Sorrel handlers, † instructions to the system-handler slot (R74). -/
def Task.mayRun (t : Task) (r : Row) : Bool :=
  if r.maj = 0xE9 then (match t.kind with | .sorrel _ => true | _ => false)
  else !r.priv || (match t.kind with | .handler _ => true | _ => false)

/-- Steps 7 to 11 of R75. -/
def checkBefore (r : Row) (f : Flds) (t : Task) : Check :=
  let rg := t.seen
  if !t.mayRun r then .trap 0x06
  else if rg.pending (.p f.hd.gp) then .trap 0x04
  else if !rg.guard f.hd then .skip
  else if (narrowsOf r f).any fun k => !(NFmt.ofBits (rg.rf k)).valid then .trap 0x40
  else if (readsOf r f).any rg.pending then .trap 0x04
  else if (writesOf r f).any rg.pending then .trap 0x05
  else .pass

/-- Run the effect of an instruction after the checks; a false guard only goes on (R66). -/
def gated (r : Row) (f : Flds) (s : State) (effect : State → State) : State :=
  match checkBefore r f s.t with
  | .trap c => s.trap c
  | .skip => s.advance
  | .pass => effect s

/-! ### Operand values -/

/-- An FP32 code widened to f64. The conversion is exact; a NaN stays quiet or signalling (R59, R129). -/
def widen64 (x : Nat) : Nat :=
  match fmtF32.decode x with
  | .nan _ => x / 2 ^ 31 % 2 * 2 ^ 63 + 0x7FF * 2 ^ 52 + x % 2 ^ 23 * 2 ^ 29
  | v => (fmtF64.round .rne v).1

/-- The immediate as the bits of an operand of a type (R59). -/
def immBits (t : Ty) (imm : BitVec 32) : Nat :=
  match t with
  | .f64 => widen64 imm.toNat
  | .f16 | .bf16 => imm.toNat % 65536
  | .i8 | .i16 | .i32 | .i64 => (imm.signExtend 64).toNat
  | .nf _ => imm.toNat % 256
  | _ => imm.toNat

/-- Source B as bits: with SB = 0x00 the immediate, else the register (R59). -/
def State.bitsB (s : State) (t : Ty) (o : OpA) : Nat :=
  if o.b.reg = .zero then immBits t o.imm else (s.readW o.b.reg).toNat

/-- A signalling immediate keeps its class where an FP32 immediate is widened. -/
def State.valB (s : State) (t : Ty) (o : OpA) : Val :=
  if o.b.reg = .zero && t == .f64 then (fmtF32.decode o.imm.toNat).modify o.b.neg o.b.abs
  else (t.fp.decode (s.bitsB t o)).modify o.b.neg o.b.abs

/-- An FP source after modifiers. -/
def State.valOf (s : State) (t : Ty) (x : Src) : Val := (t.fp.decode (s.readW x.reg).toNat).modify x.neg x.abs

/-- An integer source after modifiers. -/
def State.intSrc (s : State) (t : Ty) (x : Src) : Int := t.intMod x.neg x.abs (t.intOf (s.readW x.reg).toNat)

def State.intB (s : State) (t : Ty) (o : OpA) : Int := t.intMod o.b.neg o.b.abs (t.intOf (s.bitsB t o))

/-- Source B of a typeless instruction: 64 bits, the immediate sign-extended (R83). -/
def State.wordB (s : State) (x : Src) (imm : BitVec 32) : Word :=
  if x.reg = .zero then imm.signExtend 64 else s.readW x.reg

/-- The effective address of format M (R61). -/
def State.ea (s : State) (o : OpM) : Word :=
  s.readW o.base + (s.readW o.index <<< o.shift.val) + o.imm.signExtend 64

/-- The address of format E (R173). -/
def State.eaE (s : State) (o : OpE) : Word := s.readW o.a + o.imm.signExtend 64

/-- The relative target (R62). -/
def State.relTarget (s : State) (o : OpB) : Word :=
  BitVec.ofNat 64 (((s.t.pc.toNat / 64 : Nat) + o.off.toInt) * 64 % (2 ^ 64 : Nat) + o.slot.toNat).toNat

/-- The rounding mode of an instruction whose destination is no narrow format (R76). -/
def SysRegs.mode (x : SysRegs) : Mode := Mode.ofBits x.frmode

/-- The bias of a format register (spec/07_arithmetic.md R118). -/
def SysRegs.biasOf (x : SysRegs) (k : Fin 8) : Int := sbyte (x.bias.toNat / 256 ^ k.val % 256)

/-! ### Long ops (R71) -/

/-- Issue a long op: OUTCNT rises, its destinations become pending, and execution goes on. A long op that would raise OUTCNT
above 64 parks first (R72). -/
def State.issueLong (s : State) (dsts : List Reg) (vals : List Line) (act : LongAct) : State :=
  if 64 ≤ s.t.outcnt then s.park .outcnt
  else
    let (op, s) := s.nextOp
    (s.onT fun t =>
      { t with regs := t.regs.mark dsts,
               long := t.long ++ [{ op := op, pc := t.pc, dsts := dsts, vals := vals, act := act, since := s.dev.cycle,
                                    iter := t.iteration }] }).advance

end Sys2Proof.Machine
end

