-- ==== Sys2Proof/Machine/Flags.lean ====
section
/-! DEFINITION. How a result reaches its destination and which FLAGS it sets (spec/03_encoding.md R68, spec/05_scalar.md R83,
R98, spec/07_arithmetic.md R114, R132). -/

namespace Sys2Proof.Machine

open Sys2Proof

/-- The type of an instruction that takes one. -/
def OpA.type (o : OpA) : Ty := o.ty.getD .i64
def OpP.type (o : OpP) : Ty := o.ty.getD .i64

/-- Write an integer destination formed from the exact result (R68, R83, R90) and go on. -/
def State.putInt (s : State) (o : OpA) (t : Ty) (x : Int) : State :=
  let r := intForm t o.clamp o.scale x
  ((s.writeW o.dst (t.extend r.1)).orFlags r.2).advance

/-- Write a plain 64-bit value and go on. -/
def State.putWord (s : State) (d : Reg) (x : Word) : State := (s.writeW d x).advance

/-- The rounding mode that FN selects (R76). -/
def State.modeOf (s : State) (r : Rnd) : Mode := r.mode s.t.seenSys.mode

/-- Write a scalar FP destination formed from the exact result (R68, R83), with the flags of the operation. -/
def State.putFp (s : State) (o : OpA) (t : Ty) (x : Val × Flags) : State :=
  let r := t.fp.form (s.modeOf o.rnd) o.clamp o.scale x.1
  ((s.writeW o.dst (BitVec.ofNat 64 r.1)).orFlags (x.2 ||| r.2)).advance

/-- Write the two predicates of a format P instruction under its combine mode (R98). -/
def State.putPred (s : State) (o : OpP) (c : Bool) : State :=
  let p1 := s.t.seen.rp (match o.p1 with | .p n => n | _ => 0)
  let p2 := s.t.seen.rp o.p2
  let (a, b) := match o.comb with
    | .set => (c, !c)
    | .conj => (p1 && c, p2 || !c)
    | .disj => (p1 || c, p2 && !c)
  ((s.write o.p1 (if a then 1 else 0)).writeP o.p2 b).advance

/-! ### Lanes (R119, R132) -/

/-- Lanes of width w in a v register. -/
def lanes (w : Nat) : Nat := 512 / w

/-- Lane i of width w. -/
def laneOf (x : Line) (w i : Nat) : Nat := x.toNat / 2 ^ (w * i) % 2 ^ w

/-- A v register from its lanes, lane 0 first. -/
def ofLanes (w : Nat) (xs : List Nat) : Line :=
  BitVec.ofNat 512 (xs.foldr (fun x acc => x % 2 ^ w + 2 ^ w * acc) 0)

/-- All lanes of a v register. -/
def allLanes (w : Nat) (x : Line) : List Nat := (List.range (lanes w)).map (laneOf x w)

/-- Lane i is active under the mask operand SC (R132): 0x00 means every lane. -/
def State.active (s : State) (c : Reg) (i : Nat) : Bool :=
  match c with
  | .m n => (s.t.seen.rm n).getLsbD i
  | _ => true

/-- Lane i of source B: a v register, a g register broadcast, or the immediate (R132). -/
def State.laneB (s : State) (t : Ty) (o : OpA) (i : Nat) : Nat :=
  match o.b.reg with
  | .v n => laneOf (s.t.seen.rv n) t.width i
  | .g n => if n = 0 then immBits t o.imm % 2 ^ t.width else (s.rg n).toNat % 2 ^ t.width
  | _ => 0

/-- Lane i of a source that is a v or a g register. -/
def State.laneSrc (s : State) (w : Nat) (x : Reg) (i : Nat) : Nat :=
  match x with
  | .v n => laneOf (s.t.seen.rv n) w i
  | .g n => (s.rg n).toNat % 2 ^ w
  | _ => 0

/-- Write a v destination lane by lane: active lanes take the value and raise its flags, the others keep theirs. -/
def State.putLanes (s : State) (d c : Reg) (w : Nat) (f : Nat → Nat × Flags) : State :=
  let old := s.read d
  let rs := (List.range (lanes w)).map fun i => if s.active c i then f i else (laneOf old w i, 0)
  ((s.write d (ofLanes w (rs.map (·.1)))).orFlags (rs.foldl (fun acc r => acc ||| r.2) 0)).advance

end Sys2Proof.Machine
end

