-- ==== Sys2Proof/Machine/LoadStore.lean ====
section
/-! DEFINITION. Loads, stores and prefetch, majors 0x80 and 0x81 (spec/05_scalar.md R97, spec/09_memory_offers.md R157-R160),
and the full/empty instructions, major 0x88 (R161, R162). -/

namespace Sys2Proof.Machine

open Sys2Proof

def OpM.type (o : OpM) : Ty := o.ty.getD .i64

/-- The value that a load of a type writes to a g register (R97). -/
def loadValue (t : Ty) (x : Nat) : Line := (t.extend (x % 2 ^ t.width)).setWidth 512

/-- A message handler (spec/01_machine.md R31): declared ones, server tasks and handler activations. -/
def Task.isMessage (t : Task) : Bool :=
  t.handler || t.isHandler || (match t.kind with
    | .delegated => true
    | _ => false)

/-! ### Loads -/

/-- The units of a load before translation: address, length, place in the result. -/
abbrev Units := List (Word × Nat × Nat)

/-- The units of `ldv` and `stv` (R158). -/
def lineUnits (va : Word) (w : Nat) : Units :=
  if va.toNat % 16 = 0 then (List.range 4).map fun i => (va + BitVec.ofNat 64 (16 * i), 16, 16 * i)
  else (List.range (512 / w)).map fun i => (va + BitVec.ofNat 64 (i * (w / 8)), w / 8, i * (w / 8))

/-- The lanes of `ldg` and `stg` (R160). -/
def State.gatherUnits (s : State) (o : OpM) : Units :=
  let w := (OpM.type o).width
  let x := s.read o.index
  (List.range (512 / w)).map fun i =>
    let idx : Word := (BitVec.ofNat w (laneOf x w i)).signExtend 64
    (s.readW o.base + (idx <<< o.shift.val) + o.imm.signExtend 64, w / 8, i * (w / 8))

/-- Another core's DLS address (R20). -/
def isForeign (core : Nat) (va : Word) : Bool :=
  match windowFor core va with
  | .dls _ _ => true
  | _ => false

inductive Built where
  | ok (ps : List Piece)
  | fault (cause : Nat) (va : Word)
  | storage (va : Word) (pteAt : Nat) (pte : Pte)
  | wait
  deriving DecidableEq, Repr

/-- Translate the units of a load; local-store units are read at issue (R152) unless an earlier acquire holds them
(spec/12_ordering_notes.md R215). -/
def State.buildLoad (s : State) (io : Bool) : Units → Built × State
  | [] => (.ok [], s)
  | (va, n, pos) :: us =>
    match windowFor s.t.sched.core va with
    | .dls _ _ => (.fault 0x14 va, s)
    | .ls off =>
      let x := if s.t.lsHeld s.ops off n true then none else some (BitVec.ofNat 512 (s.lsLoad s.t off n))
      let p : Piece := { va := va, pa := none, len := n, pos := pos, data := x }
      match s.buildLoad io us with
      | (.ok ps, s) => (.ok (p :: ps), s)
      | r => r
    | .mapped =>
      match s.reach s.t (s.t.asks .load io false) va n with
      | (.fault c, s) => (.fault c va, s)
      | (.storage a q, s) => (.storage va a q, s)
      | (.wait, s) => (.wait, s)
      | (.ok pa q, s) =>
        let p : Piece := { va := va, pa := some pa, len := n, pos := pos, data := none, nc := Pte.uncached q }
        match s.buildLoad io us with
        | (.ok ps, s) => (.ok (p :: ps), s)
        | r => r

/-- Issue a load of these units. -/
def State.load (s : State) (o : OpM) (vec io : Bool) (us : Units) : State :=
  match us.find? fun u => u.1.toNat % u.2.1 != 0 && !(vec && u.2.1 == 16) with
  | some u => s.trapVa 0x0A u.1
  | none => match us.find? fun u => isForeign s.t.sched.core u.1 with
    | some u => s.trapVa 0x14 u.1
    | none =>
      match s.buildLoad io us with
      | (.fault c va, s) => s.trapVa c va
      | (.storage va a p, s) => s.meetStorage va a p
      | (.wait, s) => s.hold
      | (.ok ps, s) => s.issueLong [o.data] [] (.load (OpM.type o) vec o.scope (o.hint != .noL1) ps)

def execLd (o : OpM) (s : State) : Result :=
  .next (gated Rows.ld (.m o) s fun s => s.load o false true [(s.ea o, (OpM.type o).width / 8, 0)])

def execLdv (o : OpM) (s : State) : Result :=
  .next (gated Rows.ldv (.m o) s fun s =>
    if (s.ea o).toNat % ((OpM.type o).width / 8) ≠ 0 then s.trapVa 0x0A (s.ea o)
    else s.load o true false (lineUnits (s.ea o) (OpM.type o).width))

def execLdg (o : OpM) (s : State) : Result :=
  .next (gated Rows.ldg (.m o) s fun s => s.load o true false (s.gatherUnits o))

/-- `pf` brings a line nearer where that changes no page state, and is dropped otherwise (R160). -/
def execPf (o : OpM) (s : State) : Result :=
  .next (gated Rows.pf (.m o) s fun s =>
    let core := s.t.sched.core
    match windowFor core (s.ea o) with
    | .mapped =>
      match s.reach s.t (s.t.asks .load false false) (s.ea o) 1 with
      | (.ok pa p, s) =>
        if spaceOf pa ≠ .dram || s.heldLine pa || Pte.uncached p then s.advance
        else
          let near := match s.pageState pa with
            | .priv n => n = core
            | .shared | .sealed _ => true
            | .unowned => false
          if o.hint = .noL1 || !near then (s.dieRead (dieOf core) pa).2.advance
          else (s.l1Read core pa true).2.advance
      | (.wait, s) => s.hold
      | (_, _) => s.advance
    | _ => s.advance)

/-! ### Stores -/

/-- Store bytes at one address that lies within one window. A plain task's store to a translated address is resolved later, but for a
width or alignment that control space does not take: 0x0A is delivered precisely only (spec/13_traps.md R218, spec/23_host.md R349). -/
def State.storeAt (s : State) (kind : StoreKind) (va : Word) (lane : Nat) (bs : List Byte) (scope : Scope) (io : Bool)
    (k : State → State) : State :=
  match windowFor s.t.sched.core va with
  | .dls _ _ => s.trapVa 0x14 va
  | .ls off => s.lsStore va off lane bs k
  | .mapped =>
    if s.t.versioned then s.versionStore va bs io k
    else match (if io then (s.reach s.t (s.t.asks .store io true) va bs.length).1 else .wait) with
      | .fault 0x0A => s.trapVa 0x0A va
      | _ => k (s.addStore kind va lane bs scope)

/-- Store several units in increasing order. -/
def State.storeEach (s : State) (kind : StoreKind) (scope : Scope) (k : State → State) :
    List (Word × Nat × List Byte) → State
  | [] => k s
  | (va, lane, bs) :: us => s.storeAt kind va lane bs scope false fun s => s.storeEach kind scope k us

/-- The DRAM addresses that the units of a versioned task's store go to, or what stops it before any is written. -/
def State.placeUnits (s : State) : List (Word × Nat × List Byte) → Placed × List Nat
  | [] => (.at_ 0 s, [])
  | (va, _, bs) :: us =>
    if windowFor s.t.sched.core va ≠ .mapped then s.placeUnits us
    else match s.placeVersion va bs.length false with
    | .stop s => (.stop s, [])
    | .at_ pa s => match s.placeUnits us with
      | (r, ps) => (r, if spaceOf pa = .dram then pa :: ps else ps)

/-- The local-store bytes that the units of a store write. -/
def scratchBytes (core : Nat) (us : List (Word × Nat × List Byte)) : List Nat :=
  (us.flatMap fun u => match windowFor core u.1 with
    | .ls off => (List.range u.2.2.length).map fun i => (off + i) % 2 ^ 19
    | _ => []).eraseDups

/-- Store several units. The whole store of a versioned task overflows its version or scratch before any of it is performed
(spec/01_machine.md R40). -/
def State.storeUnits (s : State) (kind : StoreKind) (scope : Scope) (k : State → State) (us : List (Word × Nat × List Byte)) :
    State :=
  if !s.t.versioned then s.storeEach kind scope k us
  else match s.placeUnits us with
  | (.stop s, _) => s
  | (.at_ _ s, pas) =>
    let new := (scratchBytes s.t.sched.core us).filter fun a => (s.t.scratch.find? a).isNone
    if s.t.versionFull pas || 32768 < s.t.scratch.length + new.length then s.versionOverflow ((us.head?.map (·.1)).getD 0)
    else s.storeEach kind scope k us

def execSt (o : OpM) (s : State) : Result :=
  .next (gated Rows.st (.m o) s fun s =>
    let n := (OpM.type o).width / 8
    if (s.ea o).toNat % n ≠ 0 then s.trapVa 0x0A (s.ea o)
    else s.storeAt .plain (s.ea o) 0 (toBytes n (s.readW o.data).toNat) o.scope true State.advance)

/-- Bytes from position k on of a register. -/
def lineBytes (x : Line) (k n : Nat) : List Byte := toBytes n (sliceLine x k n)

def execStv (o : OpM) (s : State) : Result :=
  .next (gated Rows.stv (.m o) s fun s =>
    let va := s.ea o
    let core := s.t.sched.core
    let x := s.read o.data
    let us := lineUnits va (OpM.type o).width
    if va.toNat % ((OpM.type o).width / 8) ≠ 0 then s.trapVa 0x0A va
    else match us.find? fun u => isForeign core u.1 with
      | some u => s.trapVa 0x14 u.1
      | none =>
        if windowFor core va = .mapped && windowFor core (va + 63) = .mapped && !s.t.versioned then
          (s.addStore .plain va 0 (lineBytes x 0 64) o.scope (unit := (OpM.type o).width / 8)).advance
        else s.storeUnits .plain o.scope State.advance (us.map fun u => (u.1, 0, lineBytes x u.2.2 u.2.1)))

def execStg (o : OpM) (s : State) : Result :=
  .next (gated Rows.stg (.m o) s fun s =>
    let x := s.read o.data
    let us := s.gatherUnits o
    match us.find? fun u => u.1.toNat % u.2.1 != 0 with
    | some u => s.trapVa 0x0A u.1
    | none => match us.find? fun u => isForeign s.t.sched.core u.1 with
      | some u => s.trapVa 0x14 u.1
      | none => s.storeUnits .lane o.scope State.advance (us.map fun u => (u.1, u.2.2 / u.2.1, lineBytes x u.2.2 u.2.1)))

/-! ### Full/empty bits -/

/-- A full/empty load after its checks: at issue in local store, at the home slice in DRAM (R162). -/
def State.fullEmpty (s : State) (o : OpM) (ls : Nat → State → State) (home : Nat → State → State) : State :=
  let va := s.ea o
  let n := (OpM.type o).width / 8
  if va.toNat % n ≠ 0 then s.trapVa 0x0A va
  else match windowFor s.t.sched.core va with
    | .dls _ _ => s.trapVa 0x14 va
    | .ls off => ls off s
    | .mapped =>
      match s.reach s.t (s.t.asks .load true false) va n with
      | (.fault c, s) => s.trapVa c va
      | (.storage a p, s) => s.meetStorage va a p
      | (.wait, s) => s.hold
      | (.ok pa p, s) => if Pte.fe p && spaceOf pa == .dram then home pa s else s.trapVa 0x15 va

def execLdf (o : OpM) (s : State) : Result :=
  .next (gated Rows.ldf (.m o) s fun s =>
    if s.t.isMessage then s.trap 0x63
    else
      let t := OpM.type o
      s.fullEmpty o
        (fun off s =>
          if s.t.lsHeld s.ops off 8 true then s.issueLong [o.data] [] (.ldf t (s.ea o) none false)
          else if s.lsIsFull s.t.sched.core off then
            s.issueLong [o.data] [loadValue t (s.lsLoad s.t off (t.width / 8))] (.ready 0)
          else s.issueLong [o.data] [] (.ldf t (s.ea o) none true))
        (fun pa s => s.issueLong [o.data] [] (.ldf t (s.ea o) (some pa) false)))

def execLdft (o : OpM) (s : State) : Result :=
  .next (gated Rows.ldft (.m o) s fun s =>
    let t := OpM.type o
    let ds := [o.data, .p o.pidx]
    s.fullEmpty o
      (fun off s =>
        if s.t.lsHeld s.ops off 8 true then s.issueLong ds [] (.ldft t (s.ea o) none o.pidx.val)
        else if s.lsIsFull s.t.sched.core off then
          s.issueLong ds [loadValue t (s.lsLoad s.t off (t.width / 8)), 1] (.ready 0)
        else s.issueLong ds [0, 0] (.ready 0))
      (fun pa s => s.issueLong ds [] (.ldft t (s.ea o) (some pa) o.pidx.val)))

/-- `stf` and `clrf`: `full` is the bit they leave, `bs` the bytes that `stf` stores. Whether the address has a bit is known at
issue, and one without traps 0x15 (R162); in a versioned task one with a bit, which is DRAM, traps 0x0C (R173). Other faults of
translation wait for the store to be resolved, but for those delivered precisely only. -/
def State.storeFill (s : State) (o : OpM) (kind : StoreKind) (bs : List Byte) (n : Nat) : State :=
  let va := s.ea o
  let full := kind == .stf
  if va.toNat % n ≠ 0 then s.trapVa 0x0A va
  else match windowFor s.t.sched.core va with
    | .dls _ _ => s.trapVa 0x14 va
    | .ls off =>
      if s.t.lsHeld s.ops off n false then
        (if s.t.versioned then s.hold else (s.addStore kind va 0 bs o.scope (ls := some off)).advance)
      else if full then s.lsStore va off 0 bs fun s => (s.lsSetFull s.t.sched.core off true).advance
      else (s.lsSetFull s.t.sched.core off false).advance
    | .mapped =>
      match s.reach s.t (s.t.asks .store true true) va n with
      | (.ok pa p, s) =>
        if !(Pte.fe p && spaceOf pa == .dram) then s.trapVa 0x15 va
        else if s.t.versioned then s.trapVa 0x0C va
        else (s.addStore kind va 0 bs o.scope (home := some (homeDie pa)) (places := [(pa, true)])).advance
      | (.storage _ p, s) =>
        if !Pte.fe p then s.trapVa 0x15 va
        else if s.t.versioned then s.trapVa 0x0C va
        else (s.addStore kind va 0 bs o.scope).advance
      | (.wait, s) => s.hold
      | (.fault c, s) =>
        if s.t.versioned || c = 0x0A then s.trapVa c va else (s.addStore kind va 0 bs o.scope (found := some c)).advance

def execStf (o : OpM) (s : State) : Result :=
  .next (gated Rows.stf (.m o) s fun s =>
    let n := (OpM.type o).width / 8
    s.storeFill o .stf (toBytes n (s.readW o.data).toNat) n)

def execClrf (o : OpM) (s : State) : Result :=
  .next (gated Rows.clrf (.m o) s fun s => s.storeFill o .clrf (toBytes 8 0) 8)

end Sys2Proof.Machine
end

