-- ==== Sys2Proof/Machine/Groups.lean ====
section
/-! DEFINITION. Groups and their barriers (spec/11_ordering_sync.md R204), outstanding writes and the effects of fences
(spec/09_memory_offers.md R159, spec/11_ordering_sync.md R188). -/

namespace Sys2Proof.Machine

open Sys2Proof

/-! ### Groups -/

/-- The core of a member, once its team is placed (spec/21_launch_storage.md R329). -/
def Launch.coreOf (l : Launch) (m : Nat × Nat) : Option Nat := (l.teams.find? m.1).bind fun t => t.cores.find? m.2

/-- The member cores of a group in increasing order; `none` while a member is not placed. -/
def Launch.memberCores (l : Launch) (g : Group) : Option (List Nat) :=
  let cs := g.members.map l.coreOf
  if cs.any Option.isNone then none else some (sortNats (cs.filterMap id).eraseDups)

/-- The core belongs to the group, as far as it is placed. -/
def Launch.hasMember (l : Launch) (g : Group) (core : Nat) : Bool := g.members.any fun m => l.coreOf m == some core

/-- GRPS of a core in a launch (spec/05_scalar.md R85): its groups in increasing index, at most four. -/
def Launch.grpsOf (l : Launch) (core : Nat) : BitVec 36 :=
  let gs := ((List.range l.groups.length).filter fun i => match l.groups[i]? with
    | some g => l.hasMember g core
    | none => false).take 4
  BitVec.ofNat 36 ((List.range gs.length).foldl (fun acc j => acc + gs.getD j 0 * 256 ^ j + 2 ^ (32 + j)) 0)

/-- A valid field of GRPS names the group. -/
def inGrps (x : BitVec 36) (g : Nat) : Bool :=
  (List.range 4).any fun j => x.getLsbD (32 + j) && x.toNat / 256 ^ j % 256 == g

/-- One completed phase: every A falls by one and C rises. -/
def Group.passPhase (g : Group) (cores : List Nat) : Group :=
  { g with c := g.c + 1, a := cores.foldl (fun a c => a.set 0 c (a.get 0 c - 1)) g.a }

/-- Phases complete while every member has an arrival (R204): at most as many as the smallest count. -/
def Group.passAll (g : Group) (cores : List Nat) : Nat → Group
  | 0 => g
  | n + 1 => if cores.isEmpty || !(cores.all fun c => 0 < g.a.get 0 c) then g else (g.passPhase cores).passAll cores n

def State.onGroup (s : State) (launch g : Nat) (f : Group → Group) : State :=
  s.onLaunch launch fun l => { l with groups := l.groups.modify g f }

/-- Complete the phases of a group that can complete, and raise GRP on its members' cores (spec/13_traps.md R241). -/
def State.completePhases (s : State) (launch g : Nat) : State :=
  match s.launch? launch with
  | none => s
  | some l =>
    match l.groups[g]?, l.groups[g]?.bind l.memberCores with
    | some x, some cores =>
      let y := x.passAll cores 257
      if y = x then s else cores.foldl (fun s c => s.latchCore c 3) (s.onGroup launch g fun _ => y)
    | _, _ => s

/-- The team of a launched task. -/
def Task.ownTeam (t : Task) : Option Nat := if t.kind = .launched then some t.team else none

/-- An arrival of a core, made by a task of a team: the phase it belongs to. -/
def State.arrive (s : State) (launch g core : Nat) (team : Option Nat) : Nat × State :=
  match (s.launch? launch).bind fun l => l.groups[g]? with
  | none => (0, s)
  | some x =>
    let ph := (x.c.toNat + x.a.get 0 core) % 65536
    let teams := x.arrived ++ team.toList.filter fun t => !x.arrived.contains t
    (ph, (s.onGroup launch g fun x => { x with a := x.a.set 0 core (x.a.get 0 core + 1), arrived := teams }).completePhases launch g)

/-- The core holds 256 arrivals not yet absorbed. -/
def State.arrivalFull (s : State) (launch g core : Nat) : Bool :=
  match (s.launch? launch).bind fun l => l.groups[g]? with
  | none => false
  | some x => 256 ≤ x.a.get 0 core

/-! ### Outstanding writes and fences -/

def Scope.rank : Scope → Nat
  | .core => 0 | .cluster => 1 | .die => 2 | .device => 3 | .system => 4

/-- A copy command, or a scatter job, is held under a guard slot: its writes count from its issue (R217). -/
def Held.writes (h : Held) : Bool :=
  match h.ins with
  | .copy _ | .copyx _ | .scat _ => true
  | _ => false

/-- A long op whose write counts at a scope: an offer, or a commit at its own scope and the narrower ones (R179). -/
def LongOp.writesAt (l : LongOp) (scope : Scope) : Bool :=
  match l.act with
  | .offer o => o.reply.isNone && match o.op with
    | .commit _ _ => decide (Scope.rank scope ≤ Scope.rank o.scope)
    | _ => true
  | _ => false

/-- Writes that the task issued before an operation and that have not reached the level of the scope (R159, R188, R217). At core
scope too a copy's writes and an offer's count: R192, R194 and R205 give the next task of the core every write. -/
def State.writesOut (s : State) (key : Nat) (scope : Scope) (before : Nat) : Bool :=
  match s.task? key with
  | none => false
  | some t =>
    let core := t.sched.core
    let early (op : Nat) : Bool := decide (op < before)
    let inRdc := (s.mem.rdc.range (rdcKey (dieOf core) 0) (rdcKey (dieOf core + 1) 0)).any
      fun e => e.2.dirty != 0 && e.2.writers.contains key
    (t.stores.any fun x => early x.op) || (t.long.any fun l => early l.op && l.writesAt scope) ||
    (t.held.any fun h => early h.op && h.writes) ||
    ((s.core core).copies.any fun c => c.task == key && early c.op) ||
    ((s.cluster (clusterOf core)).jobs.any fun j => j.task == key && j.scatter && early j.op) ||
    (decide (3 ≤ Scope.rank scope) && inRdc) || (scope == .system && s.dev.unacked.any fun u => u.1 == key && decide (u.2 < before))

/-- The `fence.w` effect at a scope (R159), as far as it can be made now; `false`: the task still waits. -/
def State.fenceW (s : State) (scope : Scope) : Bool × State :=
  let s := if 3 ≤ Scope.rank scope then s.writeThroughAll (dieOf s.t.sched.core) else s
  (!s.writesOut s.cur scope s.ops, s)

/-- Loads that the task issued before an operation and that have not returned, strong reads included (R159, R189). -/
def Task.loadsBefore (t : Task) (op : Nat) : Bool :=
  t.long.any fun l => l.op < op && match l.act with
    | .load _ _ _ _ _ | .ldf _ _ _ _ | .ldft _ _ _ _ | .offer _ => true
    | _ => false

/-- The loads of the task that have not returned. -/
def Task.loadsOut (t : Task) : Bool :=
  t.long.any fun l => match l.act with
    | .load _ _ _ _ _ | .ldf _ _ _ _ | .ldft _ _ _ _ | .offer _ => true
    | _ => false

/-- Drop the core's L1 copies of shared-page lines; with `rdc`, the die's RDC lines too, but for sealed pages with a
matching version (R156, R159). -/
def State.selfInvalidate (s : State) (core : Nat) (rdc : Bool) : State :=
  let dropL1 (s : State) (l : Nat) : State := match s.pageState l with
    | .shared => s.l1Drop core l
    | _ => s
  let s := (s.l1Lines core).foldl dropL1 s
  if !rdc then s
  else
    let dropRdc (s : State) (l : Nat) : State :=
      let keep := match s.pageState l, s.mem.rdc.find? (rdcKey (dieOf core) l) with
        | .sealed v, some c => c.ver == v
        | _, _ => false
      if keep then s else s.rdcDrop (dieOf core) l
    (s.rdcLines (dieOf core)).foldl dropRdc s

/-- The `fence.r` effect at a scope once every earlier load has returned. -/
def State.fenceR (s : State) (core : Nat) (scope : Scope) : State :=
  if scope = .core then s else s.selfInvalidate core (3 ≤ Scope.rank scope)

end Sys2Proof.Machine
end

