-- ==== Sys2Proof/Machine/CopyTags.lean ====
section
/-! DEFINITION. The copy engine and its tags, majors 0x8C and 0x8D (spec/09_memory_offers.md R164-R168), and what becomes of
a command that carries a guard slot (spec/07_arithmetic.md R147). -/

namespace Sys2Proof.Machine

open Sys2Proof

/-! ### Commands under guard slots -/

/-- The engine that a command goes to; an `ecmd` goes to the one that its unit word names (spec/17_edge.md R283). -/
def Held.engine (h : Held) : Nat :=
  match h.ins with
  | .copy _ | .copyx _ => 0
  | .ecmd _ => if field h.x.toNat 15 14 = 2 then 2 else 1
  | .amsg _ | .gath _ | .scat _ | .deleg _ | .delegt _ => 3
  | _ => 2

/-- What happens to a command now. -/
inductive Fate where
  | go | wait | drop
  deriving DecidableEq, Repr

/-- The fate of a command under a slot; 16 stands for no slot. Behind held commands of its engine it waits too. -/
def Task.fate (t : Task) (slot : Nat) (behind : Bool) : Fate :=
  let st := if slot < 16 then t.slots.get .free slot else .yes
  if st = .no then .drop
  else if behind || st == .opened then .wait
  else .go

/-- The engine has room for one more command: 32 copies (R164), 16 commands of the outbound matrix queue (spec/15_matrix.md R254), 64
requests (spec/17_edge.md R297), 16 jobs of the cluster (R299). -/
def State.engineRoom (s : State) (h : Held) : Bool :=
  match h.ins with
  | .amsg _ => s.myCore.amsgs < 64
  | .gath _ | .scat _ => (s.cluster (clusterOf s.t.sched.core)).jobs.length < 16
  | .copy _ | .copyx _ => s.myCore.copies.length < 32
  | _ => h.engine ≠ 2 || s.myCore.outq.length < 16

/-- The fate of a held command: what its slot resolved to, its turn, and a place at its engine. -/
def State.heldFate (s : State) (h : Held) (behind : Bool) : Fate :=
  match h.fixed with
  | some false => .drop
  | none => .wait
  | some true => if behind || !s.engineRoom h then .wait else .go

/-- Send a command: it is performed, held, or discarded. -/
def State.sendCommand (s : State) (h : Held) (perform : Held → State → State) : State :=
  let slot := s.t.attach.getD 16
  let h := { h with slot := slot, fixed := if slot < 16 && s.t.slots.get .free slot == .opened then none else some true }
  match s.t.fate h.slot (s.t.held.any fun x => x.engine == h.engine) with
  | .go => perform h s
  | .wait => s.onT fun t => { t with held := t.held ++ [h] }
  | .drop => (s.logZeros s.t.sched.core s.cur [h]).onT fun t => t.discard h

/-! ### Copies -/

/-- A two-dimensional copy as its descriptor says (R166); a plain `copy` is one row. -/
structure Desc where
  rowb : Nat
  rows : Nat
  sstr : Word
  dstr : Word
  arr : Option Nat
  deriving DecidableEq, Repr

def Desc.toLine (d : Desc) : Line :=
  BitVec.ofNat 512 (d.rowb + d.rows * 2 ^ 32 + d.sstr.toNat * 2 ^ 64 + d.dstr.toNat * 2 ^ 128 +
    (match d.arr with
     | some g => 256 + g
     | none => 0) * 2 ^ 192)

def Desc.ofNat (x : Nat) : Desc :=
  { rowb := x % 2 ^ 32, rows := x / 2 ^ 32 % 2 ^ 32, sstr := BitVec.ofNat 64 (x / 2 ^ 64), dstr := BitVec.ofNat 64 (x / 2 ^ 128),
    arr := if x / 2 ^ 200 % 2 = 1 then some (x / 2 ^ 192 % 256) else none }

/-- The bounding range of the rows from an address on (R166): first byte and length. -/
def boundingRange (a : Word) (stride : Word) (rows rowb : Nat) : Int × Nat :=
  let last : Int := ((rows : Int) - 1) * stride.toInt
  let lo : Int := min 0 last
  ((a.toNat : Int) + lo, ((max 0 last) - lo).toNat + rowb)

/-- Some row of `rowb` bytes, of those that begin `stride` apart from `a` on, meets the addresses from `lo` up to `hi`: there is a row
number i with lo - rowb < a + i · stride < hi. -/
def rowsMeet (a stride : Int) (rows rowb : Nat) (lo hi : Int) : Bool :=
  let low := lo - rowb + 1 - a
  let high := hi - 1 - a
  let up (x d : Int) : Int := -((-x) / d)
  let first := if 0 < stride then up low stride else up (-high) (-stride)
  let last := if 0 < stride then high / stride else (-low) / (-stride)
  lo < hi && rowb != 0 && rows != 0 &&
    if stride = 0 then low ≤ 0 && 0 ≤ high else decide (max 0 first ≤ min ((rows : Int) - 1) last)

/-- Some row meets the local store of another core (R20): rows are copied as R165 copies one range. -/
def rowsForeign (core : Nat) (a stride : Word) (rows rowb : Nat) : Bool :=
  let b : Int := 0xFFFFFFFF00000000
  let own : Int := b + core * 2 ^ 19
  rowsMeet a.toNat stride.toInt rows rowb b own || rowsMeet a.toNat stride.toInt rows rowb (own + 2 ^ 19) (b + 2 ^ 31)

/-- Give a command to the copy engine. A copy of no bytes completes at once, unless it has an arrival to make. -/
def State.startCopy (h : Held) (s : State) : State :=
  let d := Desc.ofNat h.line.toNat
  let tag := h.tag?.getD 0
  let t := s.t
  let empty := d.rowb = 0 || d.rows = 0
  if empty && d.arr.isNone then s.completeTag s.cur tag
  else
    let c : Copy := { op := h.op, task := s.cur, tag := tag, dst := h.x, src := h.y, rowBytes := d.rowb, rows := if empty then 0 else d.rows,
                      dstStride := d.dstr, srcStride := d.sstr, scope := (match Scope.ofCode h.z.toNat with
                        | some x => x
                        | none => .core),
                      arrive := d.arr, root := s.rootOf t, sys := t.isHandler, versioned := t.versioned, launch := t.launch }
    s.onCore t.sched.core fun k => { k with copies := k.copies ++ [c] }

/-- The tag becomes outstanding once more (R164). -/
def Task.useTag (t : Task) (tag : Nat) : Task :=
  { t with tagCount := t.tagCount.set 0 tag (t.tagCount.get 0 tag + 1),
           sys := { t.sys with tags := t.sys.tags &&& ~~~ BitVec.twoPow 64 tag } }

/-- Issue a copy after its checks (R164, R165). -/
def State.issueCopy (s : State) (o : OpE) (ins : Instr) (d : Desc) : State :=
  let core := s.t.sched.core
  let dst := s.readW o.a
  let src := s.readW o.b.reg
  let tag := o.imm.toNat % 64
  let (dl, dn) := boundingRange dst d.dstr d.rows d.rowb
  let (sl, sn) := boundingRange src d.sstr d.rows d.rowb
  let empty := d.rowb = 0 || d.rows = 0
  if isForeign core dst || rowsForeign core dst d.dstr d.rows d.rowb then s.trapVa 0x14 dst
  else if isForeign core src || rowsForeign core src d.sstr d.rows d.rowb then s.trapVa 0x14 src
  else if !empty && decide (dl < sl + sn) && decide (sl < dl + dn) then s.trap 0x50
  else if d.arr.isSome && s.t.versioned then s.trap 0x0C
  else if 255 ≤ s.t.tagCount.get 0 tag || 32 ≤ (s.core core).copies.length then s.hold
  else
    let (op, s) := s.nextOp
    let s := s.onT fun t => t.useTag tag
    (s.sendCommand { slot := 16, pc := s.t.pc, ins := ins, op := op, x := dst, y := src, z := BitVec.ofNat 64 o.scope.code,
                     line := d.toLine } State.startCopy).advance

def execCopy (o : OpE) (s : State) : Result :=
  .next (gated Rows.copy (.e o) s fun s =>
    s.issueCopy o (.copy o)
      { rowb := (s.readW o.c.reg).toNat % 2 ^ 32, rows := 1, sstr := 0, dstr := 0, arr := none })

def execCopyx (o : OpE) (s : State) : Result :=
  .next (gated Rows.copyx (.e o) s fun s =>
    let va := s.readW o.c.reg
    match windowFor s.t.sched.core va with
    | .ls off =>
      let x := s.lsLoad s.t off 32
      if s.t.lsOwed s.ops off 32 then s.hold
      else if va.toNat % 32 ≠ 0 || x / 2 ^ 201 ≠ 0 then s.trapVa 0x52 va else s.issueCopy o (.copyx o) (Desc.ofNat x)
    | _ => s.trapVa 0x52 va)

/-! ### The engine's work (R165) -/

/-- The addresses of the next unit and its length: it ends where its 64-byte source unit or its row ends. -/
def Copy.next (c : Copy) : Word × Word × Nat :=
  let src := c.src + BitVec.ofNat 64 c.row * c.srcStride + BitVec.ofNat 64 c.pos
  let dst := c.dst + BitVec.ofNat 64 c.row * c.dstStride + BitVec.ofNat 64 c.pos
  (src, dst, min (64 - src.toNat % 64) (c.rowBytes - c.pos))

def Copy.finished (c : Copy) : Bool := c.fault.isSome || c.rows ≤ c.row

def Copy.move (c : Copy) (n : Nat) : Copy :=
  if c.rowBytes ≤ c.pos + n then { c with row := c.row + 1, pos := 0, got := [], put := [] }
  else { c with pos := c.pos + n, got := [], put := [] }

/-- What an engine meets at an address. -/
inductive Met where
  | bytes (bs : List Byte)
  | done
  | fault (cause : Nat)
  | wait
  deriving DecidableEq, Repr

/-- Translate for an engine of a core; a non-resident page starts its service and the engine waits (R167). The service stays in
progress for the engine until its access to the page is over (spec/22_launch_notes.md R346). -/
def State.engineReach (s : State) (core root : Nat) (sys : Bool) (id : Nat) (kind : Access) (va : Word)
    (n : Nat) : Except Met (Nat × Pte) × State :=
  let (x, s) := s.translate core root { kind := kind, sys := sys, io := false, writes := kind == .store } va
  match x with
  | .fault c => (.error (.fault c), s)
  | .wait => (.error .wait, s)
  | .storage a p => match s.engineMeets (s.corePart core) a p id with
    | (some c, s) => (.error (.fault c), s)
    | (none, s) => (.error .wait, s)
  | .ok pa p =>
    match s.placeFault core pa n p (kind == .store) with
    | some c => (.error (.fault c), s)
    | none => if s.heldLine pa then (.error .wait, s) else (.ok (pa, p), s)

/-- Read n bytes of one line for a copy. -/
def State.copyRead (s : State) (core : Nat) (c : Copy) (va : Word) (n : Nat) : Met × State :=
  match windowFor core va with
  | .dls _ _ => (.fault 0x14, s)
  | .ls off => (.bytes (toBytes n (match s.task? c.task with
      | some t => s.lsLoad t off n
      | none => s.lsRead core off n)), s)
  | .mapped =>
    match s.engineReach core c.root c.sys c.op .load va n with
    | (.error m, s) => (m, s)
    | (.ok (pa, p), s) =>
      match spaceOf pa with
      | .dram =>
        let (x, s) := if Pte.uncached p then s.outerRead pa else s.engineRead core pa
        let x := match s.task? c.task with
          | some t => t.overVersion pa x
          | none => x
        (.bytes (lineBytes x (pa % 64) n), s)
      | _ =>
        let (v, s) := s.readUnit c.task core .system true false pa n
        (.bytes (toBytes n v), s)

/-- Write bytes of one line for a copy, with their full bits (R161). What a copy of a versioned task writes after the task has
gone is discarded with its version. -/
def State.copyWrite (s : State) (core : Nat) (c : Copy) (va : Word) (bs : List Byte) : Met × State :=
  let n := bs.length
  let live := (s.task? c.task).any fun t => t.versioned
  match windowFor core va with
  | .dls _ _ => (.fault 0x14, s)
  | .ls off =>
    if c.versioned && (s.task? c.task).isNone then (.done, s)
    else if c.versioned && live then
      match s.task? c.task with
      | some t =>
        let (missing, s) := s.scratchMissing t
        match missing with
        | some f => (.fault f, s.lateTrap c.task f t.pc {})
        | none =>
        if t.scratchFull off n then (.wait, s.onTask c.task fun t => { t with sched := { t.sched with overflow := true } })
        else
          let s := s.onTask c.task fun t => t.putScratch off bs
          (.done, (List.range ((off % 8 + n + 7) / 8)).foldl (fun s i => s.lsSetFull core (off / 8 * 8 + 8 * i) true) s)
      | none => (.done, s)
    else (.done, s.lsEngineWrite core off bs)
  | .mapped =>
    match s.engineReach core c.root c.sys c.op .store va n with
    | (.error m, s) => (m, s)
    | (.ok (pa, p), s) =>
      match spaceOf pa with
      | .dram =>
        if c.versioned && (s.task? c.task).isNone then (.done, s)
        else if c.versioned && live then
          match s.task? c.task with
          | some t =>
            if t.versionFull [pa] then (.wait, s.onTask c.task fun t => { t with sched := { t.sched with overflow := true } })
            else (.done, s.onTask c.task fun t => t.putVersion pa bs (Pte.fe p))
          | none => (.done, s)
        else
          let s := s.engineWrite core pa (placeLine (ofBytes bs) (pa % 64) n) (maskOf (pa % 64) n)
          if Pte.fe p then
            (.done, (List.range ((pa % 8 + n + 7) / 8)).foldl (fun s i => s.setFull (pa / 8 * 8 + 8 * i) true) s)
          else (.done, s)
      | _ => (.done, s.writeUnit c.task c.op core .system true pa bs)

/-- Write bytes that may lie in two lines; the address is that of the part which the answer is about. -/
def State.copyWrite2 (s : State) (core : Nat) (c : Copy) (va : Word) (bs : List Byte) : Met × Word × State :=
  let k := 64 - va.toNat % 64
  if bs.length ≤ k then
    match s.copyWrite core c va bs with
    | (m, s) => (m, va, s)
  else
    match s.copyWrite core c va (bs.take k) with
    | (.done, s) => match s.copyWrite core c (va + BitVec.ofNat 64 k) (bs.drop k) with
      | (m, s) => (m, va + BitVec.ofNat 64 k, s)
    | (m, s) => (m, va, s)

def State.setCopy (s : State) (core : Nat) (c : Copy) : State :=
  s.onCore core fun k => { k with copies := k.copies.map fun x => if x.op = c.op then c else x }

/-- Where an engine's access lies, where its core holds the translation. -/
def State.enginePa (s : State) (core root : Nat) (va : Word) : Option Nat :=
  match windowFor core va with
  | .mapped => (s.tlbLookup core root va).map fun l => l.address va.toNat
  | _ => none

/-- A copy has moved a unit: of the pages that it waited for, it is done with those where it has no more to move (R346). -/
def State.copyMoved (s : State) (core : Nat) (c : Copy) : State :=
  let (src, dst, n) := c.next
  let ends : List Word := if c.finished then [] else [src, dst, dst + BitVec.ofNat 64 (n - 1)]
  let pages := ends.filterMap fun a => (s.enginePa core c.root a).map pageAt
  (s.setCopy core c).leaveService (.engine c.op) fun v => v.waiters.contains (.engine c.op) && match v.served with
    | some p => !pages.contains p
    | none => false

def State.copy? (s : State) (core op : Nat) : Option Copy := List.find? (fun (c : Copy) => c.op == op) (s.core core).copies

/-- The copy waits for an acquire (spec/12_ordering_notes.md R215), or for earlier stores of its task, which it must see. -/
def State.copyWaits (s : State) (c : Copy) : Bool :=
  match s.task? c.task with
  | some t => t.acquiring c.op || t.stores.any fun x => x.op < c.op
  | none => false

/-- The single-copy atomic pieces of a unit (R158), as offset and length: aligned 16-byte pieces where source and destination share
their low address bits, bytes elsewhere. -/
def unitPieces (src dst : Word) (n : Nat) : List (Nat × Nat) :=
  if src.toNat % 16 = dst.toNat % 16 then
    ((List.range n).filter fun o => o = 0 || (src.toNat + o) % 16 = 0).map fun o => (o, min (16 - (src.toNat + o) % 16) (n - o))
  else (List.range n).map fun o => (o, 1)

/-- One piece of the next unit of a copy is read or, once the whole unit has been read, written (R158, R165). -/
def State.copyPiece (s : State) (core op i : Nat) : State :=
  match s.copy? core op with
  | none => s
  | some c =>
    let (src, dst, n) := c.next
    let ps := unitPieces src dst n
    match ps[i]? with
    | none => s
    | some (o, k) =>
      let from_ := src + BitVec.ofNat 64 o
      let dest := dst + BitVec.ofNat 64 o
      if c.finished || s.copyWaits c then s
      else if (c.got.find? o).isNone then
        match s.copyRead core c from_ k with
        | (.bytes bs, s) =>
          s.setCopy core { c with got := (List.range k).foldl (fun m j => m.put (o + j) (bs.getD j 0)) c.got }
        | (.fault f, s) => s.setCopy core { c with fault := some { va := from_, cause := f } }
        | (_, s) => s
      else if c.got.length < n || c.put.contains i then s
      else
        match s.copyWrite core c dest ((List.range k).map fun j => c.got.get 0 (o + j)) with
        | (.done, s) =>
          let c := { c with put := i :: c.put }
          if c.put.length = ps.length then s.copyMoved core (c.move n) else s.setCopy core c
        | (.fault f, s) => s.setCopy core { c with fault := some { va := dest, cause := f } }
        | (_, s) => s

/-- What is left of a unit that has begun piece by piece. -/
def State.copyRest (s : State) (core op : Nat) (c : Copy) : State :=
  let (src, dst, n) := c.next
  let is := List.range (unitPieces src dst n).length
  let unread := is.filter fun i => ((unitPieces src dst n)[i]?).any fun p => (c.got.find? p.1).isNone
  let s := unread.foldl (fun s i => s.copyPiece core op i) s
  (is.filter fun i => !c.put.contains i).foldl (fun s i => s.copyPiece core op i) s

/-- Move the next unit of a copy. A fault stops the copy; writes already made stand (R167). -/
def State.copyUnit (s : State) (core op : Nat) : State :=
  match s.copy? core op with
  | none => s
  | some c =>
    if c.finished || s.copyWaits c then s
    else if !c.got.isEmpty then s.copyRest core op c
    else
      let (src, dst, n) := c.next
      match s.copyRead core c src n with
      | (.bytes bs, s) =>
        match s.copyWrite2 core c dst bs with
        | (.done, _, s) => s.copyMoved core (c.move n)
        | (.fault k, va, s) => s.setCopy core { c with fault := some { va := va, cause := k } }
        | (_, _, s) => s
      | (.fault k, s) => s.setCopy core { c with fault := some { va := src, cause := k } }
      | (_, s) => s

/-- The units that a copy has left, at most. -/
def Copy.unitsLeft (c : Copy) : Nat := (c.rows - c.row) * (c.rowBytes / 64 + 2)

def State.copyUnits (s : State) (core op : Nat) : Nat → State
  | 0 => s
  | n + 1 => (s.copyUnit core op).copyUnits core op n

/-! ### Tag waits (R168) -/

def State.tagMask (s : State) (o : OpA) : Word := s.wordB o.b o.imm

/-- The lowest tag of the mask with a recorded fault. -/
def Task.faultIn (t : Task) (mask : Word) : Option (Nat × CopyFault) :=
  List.find? (fun (e : Nat × CopyFault) => mask.getLsbD e.1) t.copyFaults

/-- Report a recorded fault: the record is cleared. -/
def State.reportCopyFault (s : State) (e : Nat × CopyFault) : State :=
  let s := s.onT fun t => { t with copyFaults := t.copyFaults.erase e.1 }
  s.trapWith (if e.2.cause = 0x60 then 0x60 else 0x51)
    { g4 := e.2.va, g5 := if e.2.cause = 0x60 then 0 else BitVec.ofNat 64 (e.2.cause * 256 + e.1) }

/-- A tag wait that would complete with this value. -/
def State.tagDone (s : State) (o : OpA) (mask : Word) (x : Word) : State :=
  match s.t.faultIn mask with
  | some e => s.reportCopyFault e
  | none => s.putWord o.dst x

def execWany (o : OpA) (s : State) : Result :=
  .next (gated Rows.wany (.a o) s fun s =>
    let mask := s.tagMask o
    if s.t.isMessage then s.trap 0x63
    else if mask = 0 || s.t.seenSys.tags &&& mask ≠ 0 then s.tagDone o mask (s.t.sys.tags &&& mask)
    else s.park (.tags true mask))

def execWall (o : OpA) (s : State) : Result :=
  .next (gated Rows.wall (.a o) s fun s =>
    let mask := s.tagMask o
    if s.t.isMessage then s.trap 0x63
    else if s.t.seenSys.tags &&& mask = mask then s.tagDone o mask (s.t.sys.tags &&& mask)
    else s.park (.tags false mask))

def execFfr (o : OpA) (s : State) : Result :=
  .next (gated Rows.ffr (.a o) s fun s =>
    let mask := s.tagMask o
    let x := (s.t.seenSys.tags &&& mask).toNat
    s.tagDone o mask (BitVec.ofNat 64 (((List.range 64).find? fun i => x / 2 ^ i % 2 = 1).getD 64)))

def execTagclr (o : OpA) (s : State) : Result :=
  .next (gated Rows.tagclr (.a o) s fun s =>
    let mask := s.tagMask o
    (s.onT fun t => { t with sys := { t.sys with tags := t.sys.tags &&& ~~~ mask } }).advance)

end Sys2Proof.Machine
end

