-- ==== Sys2Proof/Machine/Fences.lean ====
section
/-! DEFINITION. Maintenance by range, fences, guard instructions and `seal`, majors 0x90 to 0x96 (spec/09_memory_offers.md
R159, R169-R172, spec/11_ordering_sync.md R188, R197, R200). -/

namespace Sys2Proof.Machine

open Sys2Proof

/-! ### Maintenance by range (R169) -/

/-- Every copy of a line becomes clean: dirty bytes in L1, RDC and L2 go to the channel. -/
def State.cleanLine (s : State) (line : Nat) : State :=
  let s := (s.l1Holders line).foldl (fun s n => s.l1Clean n line) s
  let s := (List.range 4).foldl (fun s d => s.rdcWriteThrough d line) s
  s.cleanHome line

/-- Every copy of a line is dropped without being written. -/
def State.invLine (s : State) (line : Nat) : State :=
  s.onMem fun m =>
    { m with l1 := m.l1.filter (fun e => e.1 % 2 ^ 40 != line), ic := m.ic.filter (fun e => e.1 % 2 ^ 40 != line),
             rdc := m.rdc.filter (fun e => e.1 % 2 ^ 40 != line), l2 := m.l2.erase line }

/-- The effect on one line; lines of sealed pages with matching versions are unaffected. -/
def State.maintainLine (s : State) (clean inv : Bool) (line : Nat) : State :=
  match s.pageState line with
  | .sealed v =>
    if inv then s.onMem fun m =>
      { m with l1 := m.l1.filter (fun e => e.1 % 2 ^ 40 != line || e.2.ver == v),
               rdc := m.rdc.filter (fun e => e.1 % 2 ^ 40 != line || e.2.ver == v) }
    else s
  | _ =>
    let s := if clean then s.cleanLine line else s
    if inv then s.invLine line else s

/-- The lines of a page that overlap [lo, hi) of an address range whose page begins at `page`. -/
def linesIn (page lo hi : Nat) : List Nat :=
  (List.range 64).filter fun i => decide (lo < page + 64 * i + 64) && decide (page + 64 * i < hi)

/-- Work through the pages of a range in increasing address order. -/
def State.maintainPages (s : State) (kind : Access) (clean inv : Bool) (lo hi : Nat) : Nat → Nat → State
  | 0, _ => s.advance
  | n + 1, page =>
    let va : Word := BitVec.ofNat 64 page
    match windowOf va with
    | .ls _ | .dls _ _ => s.maintainPages kind clean inv lo hi n (page + 4096)
    | .mapped =>
      let (x, s) := s.reach s.t (s.t.asks kind true false) va 8
      match x with
      | .fault c => s.trapVa c va
      | .storage _ _ => s.maintainPages kind clean inv lo hi n (page + 4096)
      | .wait => s.hold
      | .ok pa _ =>
        if spaceOf pa ≠ .dram then s.maintainPages kind clean inv lo hi n (page + 4096)
        else
          let ls := (linesIn page lo hi).map fun i => lineAt pa + 64 * i
          if ls.any fun l => s.heldLine l then s.hold
          else (ls.foldl (fun s l => s.maintainLine clean inv l) s).maintainPages kind clean inv lo hi n (page + 4096)

/-- Bank offers of the task that have not replied. -/
def Task.bankOut (t : Task) : Bool :=
  t.long.any fun l => match l.act with
    | .offer o => o.isBank
    | _ => false

def maintain (r : Row) (o : OpE) (kind : Access) (clean inv : Bool) (s : State) : Result :=
  .next (gated r (.e o) s fun s =>
    let lo := (s.readW o.a).toNat
    let n := (s.readW o.b.reg).toNat
    if s.t.bankOut || !s.t.stores.isEmpty then s.hold
    else if n = 0 then s.advance
    else s.maintainPages kind clean inv lo (lo + n) ((lo + n - 1) / 4096 - lo / 4096 + 1) (lo / 4096 * 4096))

def execCleanR (o : OpE) (s : State) : Result := maintain Rows.cleanR o .load true false s
def execInvR (o : OpE) (s : State) : Result := maintain Rows.invR o .store false true s
def execFlushR (o : OpE) (s : State) : Result := maintain Rows.flushR o .load true true s

/-! ### Completion of copies (R164, R166) -/

/-- The arrival that a finished copy owes: `none`, none; a fault, where its task's core is no member of the group. A task that has
retired or been terminated makes none (spec/11_ordering_sync.md R204, spec/13_traps.md R231). -/
def State.copyArrival (s : State) (core : Nat) (c : Copy) : Option (Except CopyFault Nat) :=
  match c.arrive, c.fault, s.task? c.task with
  | some g, none, some t =>
    if t.sched.dying.isSome then none
    else
      let member := (s.launch? c.launch).any fun l => (l.groups[g]?).any fun x => l.hasMember x core
      some (if member then .ok g else .error { va := 0, cause := 0x60 })
  | _, _, _ => none

/-- A copy leaves the engine, with the fault that it recorded, and its tag completes. -/
def State.endCopy (s : State) (core : Nat) (c : Copy) (fault : Option CopyFault) : State :=
  let s := s.onCore core fun k => { k with copies := k.copies.filter fun x => x.op != c.op }
  let s := match fault with
    | some f => s.onTask c.task fun t => { t with copyFaults := t.copyFaults.put c.tag f }
    | none => s
  (s.engineLeaves c.op).completeTag c.task c.tag

/-- A copy at system scope whose writes to PCIe or Perold space the far side has not all acknowledged (R159, R165). -/
def State.copyUnacked (s : State) (c : Copy) : Bool := c.scope == .system && s.dev.unacked.contains (c.task, c.op)

/-- A copy completes. Its arrival is a release at its scope over the writes of its task that are older, and waits for them, and while
its core holds 256 arrivals (spec/11_ordering_sync.md R201, R204); its tag completes with the arrival (log entry 44). -/
def State.finishCopy (s : State) (core : Nat) (c : Copy) : State :=
  if c.fault.isNone && s.copyUnacked c then s
  else match s.copyArrival core c with
  | none => s.endCopy core c c.fault
  | some (.error f) => s.endCopy core c (some f)
  | some (.ok g) =>
    let s := if 3 ≤ Scope.rank c.scope then s.writeThroughAll (dieOf core) else s
    if s.writesOut c.task c.scope c.op || s.arrivalFull c.launch g core then s
    else ((s.arrive c.launch g core ((s.task? c.task).bind Task.ownTeam)).2).endCopy core c none

/-- COPY_COMPLETION: the copy moves what it has left and, when every write is performed, it completes. -/
def execCopyCompletion (core copy : Nat) (s : State) : Result :=
  .next <|
    match s.copy? core copy with
    | none => s
    | some c =>
      let s := s.copyUnits core copy c.unitsLeft
      match s.copy? core copy with
      | none => s
      | some c => if c.finished then s.finishCopy core c else s

/-! ### Fences (R159) -/

def execFenceR (o : OpM) (s : State) : Result :=
  .next (gated Rows.fenceR (.m o) s fun s =>
    if s.t.loadsOut then s.hold else (s.fenceR s.t.sched.core o.scope).advance)

def execFenceW (o : OpM) (s : State) : Result :=
  .next (gated Rows.fenceW (.m o) s fun s =>
    match s.fenceW o.scope with
    | (true, s) => s.advance
    | (false, s) => s.hold)

def execFenceRw (o : OpM) (s : State) : Result :=
  .next (gated Rows.fenceRw (.m o) s fun s =>
    match s.fenceW o.scope with
    | (true, s) => if s.t.loadsOut then s.hold else (s.fenceR s.t.sched.core o.scope).advance
    | (false, s) => s.hold)

/-- A commit of the task is outstanding. -/
def Task.commitOut (t : Task) : Bool :=
  t.long.any fun l => match l.act with
    | .offer o => o.reply.isNone && (match o.op with
      | .commit _ _ => true
      | _ => false)
    | _ => false

/-- `fence.b` holds the task itself, and with it every later bank offer; `clean.r` and `flush.r` hold theirs. -/
def execFenceB (o : OpM) (s : State) : Result :=
  .next (gated Rows.fenceB (.m o) s fun s => if s.t.commitOut || !s.t.stores.isEmpty then s.hold else s.advance)

/-! ### Ranges of guard objects (R171) -/

/-- Apply `f` to the lines of a range, page by page; pages that are not mapped, not readable or not resident are skipped. -/
def State.rangeLines (s : State) (t : Task) (f : State → Nat → State) (lo hi : Nat) : Nat → Nat → State
  | 0, _ => s
  | n + 1, page =>
    let va : Word := BitVec.ofNat 64 page
    match windowOf va with
    | .ls _ | .dls _ _ => s.rangeLines t f lo hi n (page + 4096)
    | .mapped =>
      match s.translate t.sched.core (s.rootOf t) (t.asks .load true false) va with
      | (.ok pa _, s) =>
        if spaceOf pa ≠ .dram then s.rangeLines t f lo hi n (page + 4096)
        else (((linesIn page lo hi).map fun i => lineAt pa + 64 * i).foldl f s).rangeLines t f lo hi n (page + 4096)
      | (_, s) => s.rangeLines t f lo hi n (page + 4096)

/-- Apply `f` to the lines of every range of a descriptor at a virtual address. -/
def State.allRanges (s : State) (t : Task) (va : Word) (rs : List (Int × Nat)) (f : State → Nat → State) : State :=
  rs.foldl (fun s r =>
    if r.2 = 0 then s
    else
      let lo := (va + BitVec.ofInt 64 r.1).toNat
      s.rangeLines t f lo (lo + r.2) ((lo + r.2 - 1) / 4096 - lo / 4096 + 1) (lo / 4096 * 4096)) s

/-- The translation of some page of a range waits at its home. -/
def State.rangeWaits (s : State) (t : Task) : Nat → Nat → Bool
  | 0, _ => false
  | n + 1, page =>
    let va : Word := BitVec.ofNat 64 page
    (match windowOf va with
      | .mapped => (s.translate t.sched.core (s.rootOf t) (t.asks .load true false) va).1 == .wait
      | _ => false) || s.rangeWaits t n (page + 4096)

/-- The same for the ranges of a descriptor at a virtual address: what acts on the ranges waits too. -/
def State.rangesWait (s : State) (t : Task) (va : Word) (rs : List (Int × Nat)) : Bool :=
  rs.any fun r =>
    let lo := (va + BitVec.ofInt 64 r.1).toNat
    r.2 != 0 && s.rangeWaits t ((lo + r.2 - 1) / 4096 - lo / 4096 + 1) (lo / 4096 * 4096)

/-- A grant of a guard whose descriptor names no range is an acquire like any other: earlier loads return first (R188, R200). Ranges
are dropped once they can be translated. -/
def State.grantWaits (s : State) (t : Task) (op : Nat) (va : Word) (pa : Nat) : Bool :=
  let rs := guardRanges (s.homeRead pa).1
  (t.loadsBefore op && rs.all fun r => r.2 = 0) || s.rangesWait t va rs

/-- The self-invalidations of a grant, at the acquirer's core (R171, R200). -/
def State.grantDrops (s : State) (t : Task) (va : Word) (pa : Nat) (scope : Scope) : State :=
  let core := t.sched.core
  let rs := guardRanges (s.guardTouch (some core) pa |>.homeRead pa).1
  let wide := 3 ≤ Scope.rank scope
  if rs.all fun r => r.2 = 0 then s.fenceR core scope
  else
    let drop (s : State) (l : Nat) : State :=
      let s := match s.pageState l with
        | .shared => if scope = .core then s else s.l1Drop core l
        | _ => s
      let keep := match s.pageState l, s.mem.rdc.find? (rdcKey (dieOf core) l) with
        | .sealed v, some c => c.ver == v
        | _, _ => false
      if wide && !keep then s.rdcDrop (dieOf core) l else s
    s.allRanges t va rs drop

/-- The checks that `acq`, `acqs` and `rls` share, then the descriptor's address (R171). A descriptor that translates to PCIe, Perold or
control space traps 0x64 like one in local store (log entry 48). -/
def State.guardAt (s : State) (o : OpM) (k : Nat → State → State) : State :=
  let va := s.ea o
  if s.t.versioned then s.trapVa 0x0C va
  else match windowOf va with
    | .ls _ | .dls _ _ => s.trapVa 0x64 va
    | .mapped =>
      if va.toNat % 64 ≠ 0 then s.trapVa 0x0A va
      else match s.reach s.t (s.t.asks .offer true true) va 8 with
        | (.fault c, s) => s.trapVa c va
        | (.storage a p, s) => s.meetStorage va a p
        | (.wait, s) => s.hold
        | (.ok pa _, s) => if spaceOf pa = .dram then k pa s else s.trapVa 0x64 va

/-- `acq` and `acqs`: a long op whose request goes to the home at once. -/
def acquire (r : Row) (o : OpM) (shared : Bool) (s : State) : Result :=
  .next (gated r (.m o) s fun s =>
    if s.t.isMessage then s.trap 0x63
    else if 64 ≤ s.t.outcnt then s.park .outcnt
    else s.guardAt o fun pa s =>
      let op := s.ops
      let tid := s.t.sys.tid.setWidth 56
      (s.issueLong [o.data] [(s.ea o).setWidth 512] (.guard shared o.scope pa none false)).guardArrive pa
        { who := .task s.cur op, holder := tid, shared := shared, scope := o.scope })

def execAcq (o : OpM) (s : State) : Result := acquire Rows.acq o false s
def execAcqs (o : OpM) (s : State) : Result := acquire Rows.acqs o true s

/-- `rls` (R171): the writes it owes, the wait, then the descriptor. -/
def execRls (o : OpM) (s : State) : Result :=
  .next (gated Rows.rls (.m o) s fun s =>
    s.guardAt o fun pa s =>
      let core := s.t.sched.core
      if s.heldLine pa then s.hold
      else
        let (g, s) := s.guardRead (some core) pa
        match g.release (s.t.sys.tid.setWidth 56) with
        | none => s.trapVa 0x64 (s.ea o)
        | some g' =>
          let rs := guardRanges (s.homeRead pa).1
          let empty := rs.all fun r => r.2 = 0
          if g.w && s.rangesWait s.t (s.ea o) rs then s.hold
          else if g.w || empty then
            let push (s : State) (l : Nat) : State :=
              let s := if s.isPrivate core l then s.l1Clean core l else s
              if 3 ≤ Scope.rank o.scope then s.rdcWriteThrough (dieOf core) l else s
            let s := if empty then s else s.allRanges s.t (s.ea o) rs push
            match (if empty || g.w then s.fenceW o.scope else (true, s)) with
            | (true, s) => (s.guardWrite pa g').advance
            | (false, s) => s.hold
          else (s.guardWrite pa g').advance)

/-! ### Sealed buffers (R172, R197) -/

/-- What the pages of a range answer to `seal`: their physical pages, or why it does not go on. -/
inductive Sealed where
  | pages (ps : List Nat)
  | fault (cause : Nat) (va : Word)
  | storage (va : Word) (pteAt : Nat) (pte : Pte)
  | wait
  deriving DecidableEq, Repr

/-- Translate every page of the range for `seal`. -/
def State.sealPages (s : State) : Nat → Word → Sealed × State
  | 0, _ => (.pages [], s)
  | n + 1, va =>
    match windowOf va with
    | .ls _ | .dls _ _ => (.fault 0x16 va, s)
    | .mapped =>
      match s.reach s.t (s.t.asks .store true false) va 8 with
      | (.fault c, s) => (.fault c va, s)
      | (.storage a p, s) => (.storage va a p, s)
      | (.wait, s) => (.wait, s)
      | (.ok pa _, s) =>
        if spaceOf pa ≠ .dram then (.fault 0x16 va, s)
        else match s.sealPages n (va + 4096) with
          | (.pages ps, s) => (.pages (pageAt pa :: ps), s)
          | r => r

/-- Seal or unseal one page; peers that fetched it under an older version are told (R197). -/
def State.sealPage (s : State) (v : BitVec 32) (page : Nat) : State :=
  let old := s.mem.page.get .unowned page
  let new : PageState := if v = 0 then .shared else .sealed v
  let s := s.recall page none
  let s := if v = 0 then s else (List.range 64).foldl (fun s i => s.cleanLine (page * 4096 + 64 * i)) s
  let s := s.setPage page new
  match old with
  | .sealed w =>
    if new = .sealed w then s
    else
      let peers := (s.dev.sealedAt.filter fun e => e.1 == page).map (·.2)
      let s := peers.foldl (fun s p => s.emit (.notice p page)) s
      s.onDev fun d => { d with sealedAt := d.sealedAt.filter (fun e => e.1 != page),
                                notices := d.notices ++ peers.map fun p => (page, p) }
  | _ => s

/-- `seal` (R172). With a version it cleans as `clean.r` does, and waits as that does for bank offers (R169). -/
def execSealR (o : OpE) (s : State) : Result :=
  .next (gated Rows.sealR (.e o) s fun s =>
    let base := s.readW o.a
    let n := (s.readW o.b.reg).toNat
    if s.t.versioned then s.trap 0x0C
    else if base.toNat % 4096 ≠ 0 || n % 4096 ≠ 0 then s.trapVa 0x0A base
    else if !s.t.stores.isEmpty || ((s.readW o.c.reg).setWidth 32 != (0 : BitVec 32) && s.t.bankOut) then s.hold
    else match s.sealPages (n / 4096) base with
      | (.fault c va, s) => s.trapVa c va
      | (.storage va a p, s) => s.meetStorage va a p
      | (.wait, s) => s.hold
      | (.pages ps, s) =>
        if ps.any fun p => (List.range 64).any fun i => s.heldLine (p * 4096 + 64 * i) then s.hold
        else
          let s := ps.foldl (fun s p => s.sealPage ((s.readW o.c.reg).setWidth 32) p) s
          if s.dev.notices.any fun e => ps.contains e.1 then
            (s.onT fun t => { t with sched := { t.sched with
              sealSince := t.sched.sealSince <|> some s.dev.cycle } }).hold
          else (s.onT fun t => { t with sched := { t.sched with sealSince := none } }).advance)

/-- SEAL_NOTICE: a version notice of a `seal` is unacknowledged after 2^20 cycles (spec/13_traps.md R218 0x2A); the page
state has changed, and records name the peers. -/
def execSealNotice (task : Nat) (s : State) : Result :=
  .next <|
    match (s.task? task).bind fun t => t.sched.sealSince.map fun c => (t, c) with
    | none => s
    | some (t, since) =>
      if since + 2 ^ 20 ≤ s.dev.cycle && !s.dev.notices.isEmpty then
        let s := s.dev.notices.foldl (fun s e => s.ras 3 0x2A 2 e.2 (e.1 * 4096) t.sys.tid) s
        let s := s.onDev fun d => { d with notices := [] }
        let s := s.onTask task fun t => { t with sched := { t.sched with sealSince := none } }
        s.lateTrap task 0x2A t.pc {}
      else s

end Sys2Proof.Machine
end

