-- ==== Sys2Proof/Machine/Float.lean ====
section
/-! DEFINITION. Scalar floating point, majors 0x40 to 0x4A, and the scalar conversion 0x70 (spec/07_arithmetic.md
R125-R131). -/

namespace Sys2Proof.Machine

open Sys2Proof

/-- A short two-source FP instruction: `f` gives the exact result and the flags of its operands (R126, R127). -/
def float2 (r : Row) (o : OpA) (f : Mode → Val → Val → Val × Flags) (s : State) : Result :=
  .next (gated r (.a o) s fun s =>
    let t := OpA.type o
    s.putFp o t (f (s.modeOf o.rnd) (s.valOf t o.a) (s.valB t o)))

/-- A long FP instruction: the value and its flags land together (R71, R125). -/
def floatLong (r : Row) (o : OpA) (f : Val → Val → Val × Flags) (s : State) : Result :=
  .next (gated r (.a o) s fun s =>
    let t := OpA.type o
    let x := f (s.valOf t o.a) (s.valB t o)
    let y := t.fp.form (s.modeOf o.rnd) o.clamp o.scale x.1
    s.issueLong [o.dst] [BitVec.ofNat 512 y.1] (.ready (x.2 ||| y.2)))

def execFadd (o : OpA) (s : State) : Result := float2 Rows.fadd o (fun md a b => a.add md b) s
def execFsub (o : OpA) (s : State) : Result := float2 Rows.fsub o (fun md a b => a.add md b.neg) s
def execFmul (o : OpA) (s : State) : Result := float2 Rows.fmul o (fun _ a b => a.mul b) s

def execFfma (o : OpA) (s : State) : Result :=
  .next (gated Rows.ffma (.a o) s fun s =>
    let t := OpA.type o
    s.putFp o t (Val.fma (s.modeOf o.rnd) (s.valOf t o.a) (s.valB t o) (s.valOf t o.c)))

def execFdiv (o : OpA) (s : State) : Result := floatLong Rows.fdiv o (fun a b => a.div b) s
def execFsqrt (o : OpA) (s : State) : Result := floatLong Rows.fsqrt o (fun a _ => a.sqrt) s
def execFrcp (o : OpA) (s : State) : Result := floatLong Rows.frcp o (fun a _ => (Val.one false).div a) s
def execFrsq (o : OpA) (s : State) : Result := floatLong Rows.frsq o (fun a _ => a.rsqrt) s
def execFexp2 (o : OpA) (s : State) : Result := floatLong Rows.fexp2 o (fun a _ => a.exp2) s
def execFlog2 (o : OpA) (s : State) : Result := floatLong Rows.flog2 o (fun a _ => a.log2) s

/-- fmin and fmax return an operand's bits after modifiers (R129). -/
def floatMinMax (r : Row) (o : OpA) (isMax : Bool) (s : State) : Result :=
  .next (gated r (.a o) s fun s =>
    let t := OpA.type o
    let a := t.fp.modify o.a.neg o.a.abs (s.readW o.a.reg).toNat
    let b := t.fp.modify o.b.neg o.b.abs (s.bitsB t o)
    let y := t.fp.minmax isMax a b
    ((s.writeW o.dst (BitVec.ofNat 64 y.1)).orFlags y.2).advance)

def execFmin (o : OpA) (s : State) : Result := floatMinMax Rows.fmin o false s
def execFmax (o : OpA) (s : State) : Result := floatMinMax Rows.fmax o true s

/-- R130: one of bits 9:0. -/
def execFclass (o : OpA) (s : State) : Result :=
  .next (gated Rows.fclass (.a o) s fun s =>
    let x := (s.readW o.a.reg).toNat
    let k := match OpA.type o with
      | .nf k =>
        let f := NFmt.ofBits (s.t.seen.rf k)
        let v := (f.decode x).modify o.a.neg o.a.abs
        if v.isNan then 9 else classBit v (f.isSub x)
      | t => classBit ((t.fp.decode x).modify o.a.neg o.a.abs) (t.fp.isSub x)
    s.putWord o.dst (BitVec.twoPow 64 k))

/-! ### Conversions (R131), also lane by lane (R139) -/

/-- What a conversion needs of the task: its format registers, biases and FRMODE. -/
structure CvtEnv where
  regs : Regs
  sys : SysRegs

def State.cvtEnv (s : State) : CvtEnv := { regs := s.t.seen, sys := s.t.seenSys }

def CvtEnv.fmt (e : CvtEnv) (k : Fin 8) : NFmt := NFmt.ofBits (e.regs.rf k)

/-- The value of a source code (R131), and whether it is a signalling NaN operand. A narrow source takes its bias. -/
def CvtEnv.decode (e : CvtEnv) (t : Ty) (x : Nat) : Val :=
  match t with
  | .nf k => ((e.fmt k).decode x).scale (e.sys.biasOf k)
  | t => if t.isInt then .ofInt (t.intOf x) else t.fp.decode x

/-- The mode of a conversion: FN, else FRMODE, or the format's own rounding for a narrow destination (R76). -/
def CvtEnv.mode (e : CvtEnv) (rnd : Rnd) (dst : Ty) : Mode :=
  match dst with
  | .nf k => rnd.mode ((e.fmt k).mode e.sys.mode)
  | _ => rnd.mode e.sys.mode

/-- One conversion: the bits of the destination and the flags (R131). -/
def CvtEnv.convert (e : CvtEnv) (rnd : Rnd) (cl : Clamp) (k : BitVec 4) (dst src : Ty) (neg abs : Bool) (x : Nat) :
    Nat × Flags :=
  let v := if src.isInt then .ofInt (src.intMod neg abs (src.intOf x)) else (e.decode src x).modify neg abs
  let md := e.mode rnd dst
  let nv := flagIf v.isSnan fNV
  match dst with
  | .nf j =>
    let y := (e.fmt j).encode md (v.scale (scaleOf k - e.sys.biasOf j))
    (y.1, nv ||| y.2)
  | dst =>
    if dst.isInt then
      match v with
      | .nan _ => (0, fNV)
      | .inf n => (((if n then dst.minInt else dst.maxInt) % (2 ^ dst.width : Nat)).toNat, fNV)
      | v =>
        let r := (v.scale (scaleOf k)).toInt md
        if r.1 < dst.minInt then ((dst.minInt % (2 ^ dst.width : Nat)).toNat, fNV)
        else if dst.maxInt < r.1 then (dst.maxInt.toNat, fNV)
        else ((r.1 % (2 ^ dst.width : Nat)).toNat, flagIf r.2 fNX)
    else
      let y := dst.fp.form md cl k v
      (y.1, nv ||| y.2)

def execFcvt (o : OpA) (s : State) : Result :=
  .next (gated Rows.fcvt (.a o) s fun s =>
    let dst := OpA.type o
    let src := (srcTy o.imm).getD .i64
    let y := s.cvtEnv.convert o.rnd o.clamp o.scale dst src o.a.neg o.a.abs (s.readW o.a.reg).toNat
    ((s.writeW o.dst (if dst.isInt then dst.extend y.1 else BitVec.ofNat 64 y.1)).orFlags y.2).advance)

end Sys2Proof.Machine
end

