-- ==== Sys2Proof/Machine/Integer.lean ====
section
/-! DEFINITION. Integer and address instructions, majors 0x01 to 0x0B (spec/05_scalar.md R90-R96). -/

namespace Sys2Proof.Machine

open Sys2Proof

/-- An instruction of two integer sources whose exact result is `f a b` (R92). -/
def arith (r : Row) (o : OpA) (f : Nat → Int → Int → Int) (s : State) : Result :=
  .next (gated r (.a o) s fun s =>
    s.putInt o (OpA.type o) (f (OpA.type o).width (s.intSrc (OpA.type o) o.a) (s.intB (OpA.type o) o)))

/-- An instruction on the w-bit values of two sources (R93, R94); the result is extended by the type. -/
def logic (r : Row) (o : OpA) (f : Nat → Nat → Nat → Nat) (s : State) : Result :=
  .next (gated r (.a o) s fun s =>
    let t := OpA.type o
    s.putWord o.dst (t.extend (f t.width ((s.readW o.a.reg).toNat % 2 ^ t.width) (s.bitsB t o % 2 ^ t.width))))

/-- A division: a long op whose result is formed from the operands read at issue (R91, R92). -/
def divide (r : Row) (o : OpA) (f : Ty → Int → Int → Int) (s : State) : Result :=
  .next (gated r (.a o) s fun s =>
    let t := OpA.type o
    let x := f t (s.intSrc t o.a) (s.intB t o)
    s.issueLong [o.dst] [(t.extend (x % (2 ^ t.width : Nat)).toNat).setWidth 512] (.ready 0))

/-- R92: the quotient truncated toward zero, with its two borderline cases. -/
def quotient (t : Ty) (a b : Int) : Int :=
  if b = 0 then (if t.isI then -1 else (2 ^ t.width - 1 : Nat)) else Int.tdiv a b

def remainder (_t : Ty) (a b : Int) : Int := if b = 0 then a else a - Int.tdiv a b * b

def execAdd (o : OpA) (s : State) : Result := arith Rows.add o (fun _ a b => a + b) s
def execSub (o : OpA) (s : State) : Result := arith Rows.sub o (fun _ a b => a - b) s

def execMadd (o : OpA) (s : State) : Result :=
  .next (gated Rows.madd (.a o) s fun s =>
    let t := OpA.type o
    s.putInt o t (s.intSrc t o.a * s.intB t o + s.intSrc t o.c))

def execMul (o : OpA) (s : State) : Result := arith Rows.mul o (fun _ a b => a * b) s
def execMulh (o : OpA) (s : State) : Result := arith Rows.mulh o (fun w a b => (a * b) / (2 ^ w : Nat)) s
def execMulhn (o : OpA) (s : State) : Result := arith Rows.mulhn o (fun w a b => (a * b) / (2 ^ w : Nat)) s

def execDiv (o : OpA) (s : State) : Result := divide Rows.div o quotient s
def execDivn (o : OpA) (s : State) : Result := divide Rows.divn o quotient s
def execRem (o : OpA) (s : State) : Result := divide Rows.rem o remainder s
def execRemn (o : OpA) (s : State) : Result := divide Rows.remn o remainder s

def execAnd (o : OpA) (s : State) : Result := logic Rows.and o (fun _ a b => a &&& b) s
def execOr (o : OpA) (s : State) : Result := logic Rows.or o (fun _ a b => a ||| b) s
def execXor (o : OpA) (s : State) : Result := logic Rows.xor o (fun _ a b => a ^^^ b) s
def execAndn (o : OpA) (s : State) : Result := logic Rows.andn o (fun w a b => a &&& (2 ^ w - 1 - b)) s

/-- R93: the shift count b<5:0> mod w. -/
def shiftCount (w b : Nat) : Nat := b % 64 % w

def shiftLeft (w a b : Nat) : Nat := a * 2 ^ shiftCount w b % 2 ^ w
def shiftRight (w a b : Nat) : Nat := a / 2 ^ shiftCount w b

/-- R93: copies of bit w − 1 come in, whatever the signedness of the type. -/
def shiftArith (w a b : Nat) : Nat := ((BitVec.ofNat w a).sshiftRight (shiftCount w b)).toNat

def rotLeft (w a b : Nat) : Nat := ((BitVec.ofNat w a).rotateLeft (shiftCount w b)).toNat
def rotRight (w a b : Nat) : Nat := ((BitVec.ofNat w a).rotateRight (shiftCount w b)).toNat

/-- R93: a shift count is b<5:0> of the whole operand; an immediate count is IMM zero-extended. -/
def shift (r : Row) (o : OpA) (f : Nat → Nat → Nat → Nat) (s : State) : Result :=
  .next (gated r (.a o) s fun s =>
    let t := OpA.type o
    let n := if o.b.reg = .zero then o.imm.toNat else (s.readW o.b.reg).toNat
    s.putWord o.dst (t.extend (f t.width ((s.readW o.a.reg).toNat % 2 ^ t.width) n)))

def execShl (o : OpA) (s : State) : Result := shift Rows.shl o shiftLeft s
def execShr (o : OpA) (s : State) : Result := shift Rows.shr o shiftRight s
def execSra (o : OpA) (s : State) : Result := shift Rows.sra o shiftArith s
def execRol (o : OpA) (s : State) : Result := shift Rows.rol o rotLeft s
def execRor (o : OpA) (s : State) : Result := shift Rows.ror o rotRight s

def execMin (o : OpA) (s : State) : Result := arith Rows.min o (fun _ a b => if a ≤ b then a else b) s
def execMax (o : OpA) (s : State) : Result := arith Rows.max o (fun _ a b => if b ≤ a then a else b) s
def execMinn (o : OpA) (s : State) : Result := arith Rows.minn o (fun _ a b => if a ≤ b then a else b) s
def execMaxn (o : OpA) (s : State) : Result := arith Rows.maxn o (fun _ a b => if b ≤ a then a else b) s

/-- Zeros below the lowest set bit of the low n bits, n if none. -/
def ctzBits (x : Nat) : Nat → Nat
  | 0 => 0
  | n + 1 => if x % 2 = 1 then 0 else ctzBits (x / 2) n + 1

/-- Ones among the low n bits. -/
def popBits (x : Nat) : Nat → Nat
  | 0 => 0
  | n + 1 => x % 2 + popBits (x / 2) n

/-- Zeros above the highest set bit of a w-bit value, w for zero. -/
def clzBits (x w : Nat) : Nat := if x = 0 then w else w - 1 - Nat.log2 x

/-- A bit count: an unsigned 64-bit value, whatever the type (R94). -/
def bitCount (r : Row) (o : OpA) (f : Nat → Nat → Nat) (s : State) : Result :=
  .next (gated r (.a o) s fun s =>
    let w := (OpA.type o).width
    s.putWord o.dst (BitVec.ofNat 64 (f ((s.readW o.a.reg).toNat % 2 ^ w) w)))

def execClz (o : OpA) (s : State) : Result := bitCount Rows.clz o clzBits s
def execCtz (o : OpA) (s : State) : Result := bitCount Rows.ctz o ctzBits s
def execPopc (o : OpA) (s : State) : Result := bitCount Rows.popc o popBits s

/-- R94: the bits of a where b holds ones, packed low. -/
def extractBits (a b : Nat) : Nat → Nat
  | 0 => 0
  | n + 1 => if b % 2 = 1 then a % 2 + 2 * extractBits (a / 2) (b / 2) n else extractBits (a / 2) (b / 2) n

/-- R94: the low bits of a, in order, where b holds ones. -/
def depositBits (a b : Nat) : Nat → Nat
  | 0 => 0
  | n + 1 => if b % 2 = 1 then a % 2 + 2 * depositBits (a / 2) (b / 2) n else 2 * depositBits a (b / 2) n

def execBext (o : OpA) (s : State) : Result := logic Rows.bext o (fun w a b => extractBits a b w) s
def execBdep (o : OpA) (s : State) : Result := logic Rows.bdep o (fun w a b => depositBits a b w) s

/-- R95. -/
def execSel (o : OpA) (s : State) : Result :=
  .next (gated Rows.sel (.a o) s fun s =>
    let c := match o.c.reg with
      | .p n => s.t.seen.rp n
      | _ => false
    s.putWord o.dst (if c then s.readW o.a.reg else s.wordB o.b o.imm))

/-- A write to a format register that an outstanding `mfmt` will capture traps 0x46 (spec/15_matrix.md R255), an `mfmt` that an
`ecmd` carries too (spec/17_edge.md R283). -/
def State.fmtBusy (s : State) (x : Reg) : Bool :=
  match x with
  | .fmt k => (s.cores.any fun c => (c.2.munit.queue ++ c.2.outq).any fun m =>
      m.task == s.cur && m.maj == 0xD0 && m.fn == 1 && (m.imm / 32 == k.val + 12 || m.imm % 32 == k.val + 12)) ||
      s.t.held.any fun h => match h.ins with
        | .mfmt _ => h.z.toNat / 32 == k.val + 12 || h.z.toNat % 32 == k.val + 12
        | .ecmd _ => s.t.long.any fun l => l.op == h.op && match l.act with
          | .ecmd _ _ _ (some m) _ => m.maj == 0xD0 && m.fn == 1 && (m.imm / 32 == k.val + 12 || m.imm % 32 == k.val + 12)
          | _ => false
        | _ => false
  | _ => false

/-- R95. -/
def execMov (o : OpA) (s : State) : Result :=
  .next (gated Rows.mov (.a o) s fun s =>
    if s.fmtBusy o.dst then s.trap 0x46 else s.putWord o.dst (s.readW o.a.reg))

def execMovi (o : OpA) (s : State) : Result :=
  .next (gated Rows.movi (.a o) s fun s => s.putWord o.dst (o.imm.signExtend 64))

def execMovh (o : OpA) (s : State) : Result :=
  .next (gated Rows.movh (.a o) s fun s =>
    s.putWord o.dst ((o.imm.setWidth 64 <<< 32) ||| ((s.readW o.a.reg).setWidth 32).setWidth 64))

/-- R96: no access and no translation. -/
def execLea (o : OpM) (s : State) : Result :=
  .next (gated Rows.lea (.m o) s fun s => s.putWord o.data (s.ea o))

end Sys2Proof.Machine
end

