-- ==== Sys2Proof/Machine/Vector.lean ====
section
/-! DEFINITION. The vector unit, majors 0x33, 0x34 and 0x50 to 0x74 (spec/07_arithmetic.md R132-R141). -/

namespace Sys2Proof.Machine

open Sys2Proof

/-! ### Lane arithmetic (R133) -/

/-- An FP lane of source A or C after modifiers. -/
def State.laneVal (s : State) (t : Ty) (x : Src) (i : Nat) : Val := (t.fp.decode (s.laneSrc t.width x.reg i)).modify x.neg x.abs

def State.laneValB (s : State) (t : Ty) (o : OpA) (i : Nat) : Val := (t.fp.decode (s.laneB t o i)).modify o.b.neg o.b.abs

/-- An integer lane after modifiers. -/
def State.laneInt (s : State) (t : Ty) (x : Src) (i : Nat) : Int :=
  t.intMod x.neg x.abs (t.intOf (s.laneSrc t.width x.reg i))

def State.laneIntB (s : State) (t : Ty) (o : OpA) (i : Nat) : Int := t.intMod o.b.neg o.b.abs (t.intOf (s.laneB t o i))

/-- One FP lane: the destination formed from the exact result (R68), with all its flags. -/
def formLane (t : Ty) (md : Mode) (o : OpA) (x : Val × Flags) : Nat × Flags :=
  let y := t.fp.form md o.clamp o.scale x.1
  (y.1, x.2 ||| y.2)

/-- A short FP lane instruction of two sources. -/
def vfloat (r : Row) (o : OpA) (f : Mode → Val → Val → Val × Flags) (s : State) : Result :=
  .next (gated r (.a o) s fun s =>
    let t := OpA.type o
    let md := s.modeOf o.rnd
    s.putLanes o.dst o.c.reg t.width fun i => formLane t md o (f md (s.laneVal t o.a i) (s.laneValB t o i)))

/-- A long FP lane instruction: inactive lanes keep what the destination held (R132). -/
def vfloatLong (r : Row) (o : OpA) (f : Val → Val → Val × Flags) (s : State) : Result :=
  .next (gated r (.a o) s fun s =>
    let t := OpA.type o
    let md := s.modeOf o.rnd
    let old := s.read o.dst
    let rs := (List.range (lanes t.width)).map fun i =>
      if s.active o.c.reg i then formLane t md o (f (s.laneVal t o.a i) (s.laneValB t o i)) else (laneOf old t.width i, 0)
    s.issueLong [o.dst] [ofLanes t.width (rs.map (·.1))] (.ready (rs.foldl (fun acc r => acc ||| r.2) 0)))

/-- An integer lane instruction whose exact result is `f w a b`, formed under R68. -/
def vint (r : Row) (o : OpA) (f : Nat → Int → Int → Int) (s : State) : Result :=
  .next (gated r (.a o) s fun s =>
    let t := OpA.type o
    s.putLanes o.dst o.c.reg t.width fun i =>
      intForm t o.clamp o.scale (f t.width (s.laneInt t o.a i) (s.laneIntB t o i)))

/-- A lane instruction on w-bit values. -/
def vlogic (r : Row) (o : OpA) (f : Nat → Nat → Nat → Nat) (s : State) : Result :=
  .next (gated r (.a o) s fun s =>
    let t := OpA.type o
    s.putLanes o.dst o.c.reg t.width fun i => (f t.width (s.laneSrc t.width o.a.reg i) (s.laneB t o i), 0))

def execVfadd (o : OpA) (s : State) : Result := vfloat Rows.vfadd o (fun md a b => a.add md b) s
def execVfsub (o : OpA) (s : State) : Result := vfloat Rows.vfsub o (fun md a b => a.add md b.neg) s
def execVfmul (o : OpA) (s : State) : Result := vfloat Rows.vfmul o (fun _ a b => a.mul b) s

/-- Without a mask: SC is a source (R133). -/
def execVffma (o : OpA) (s : State) : Result :=
  .next (gated Rows.vffma (.a o) s fun s =>
    let t := OpA.type o
    let md := s.modeOf o.rnd
    s.putLanes o.dst .zero t.width fun i =>
      formLane t md o (Val.fma md (s.laneVal t o.a i) (s.laneValB t o i) (s.laneVal t o.c i)))

def execVfdiv (o : OpA) (s : State) : Result := vfloatLong Rows.vfdiv o (fun a b => a.div b) s
def execVfsqrt (o : OpA) (s : State) : Result := vfloatLong Rows.vfsqrt o (fun a _ => a.sqrt) s
def execVfrcp (o : OpA) (s : State) : Result := vfloatLong Rows.vfrcp o (fun a _ => (Val.one false).div a) s

def vfloatMinMax (r : Row) (o : OpA) (isMax : Bool) (s : State) : Result :=
  .next (gated r (.a o) s fun s =>
    let t := OpA.type o
    s.putLanes o.dst o.c.reg t.width fun i =>
      t.fp.minmax isMax (t.fp.modify o.a.neg o.a.abs (s.laneSrc t.width o.a.reg i))
        (t.fp.modify o.b.neg o.b.abs (s.laneB t o i)))

def execVfmin (o : OpA) (s : State) : Result := vfloatMinMax Rows.vfmin o false s
def execVfmax (o : OpA) (s : State) : Result := vfloatMinMax Rows.vfmax o true s

def execVadd (o : OpA) (s : State) : Result := vint Rows.vadd o (fun _ a b => a + b) s
def execVsub (o : OpA) (s : State) : Result := vint Rows.vsub o (fun _ a b => a - b) s
def execVmul (o : OpA) (s : State) : Result := vint Rows.vmul o (fun _ a b => a * b) s
def execVmulh (o : OpA) (s : State) : Result := vint Rows.vmulh o (fun w a b => (a * b) / (2 ^ w : Nat)) s

def execVmadd (o : OpA) (s : State) : Result :=
  .next (gated Rows.vmadd (.a o) s fun s =>
    let t := OpA.type o
    s.putLanes o.dst .zero t.width fun i =>
      intForm t o.clamp o.scale (s.laneInt t o.a i * s.laneIntB t o i + s.laneInt t o.c i))

def execVand (o : OpA) (s : State) : Result := vlogic Rows.vand o (fun _ a b => a &&& b) s
def execVor (o : OpA) (s : State) : Result := vlogic Rows.vor o (fun _ a b => a ||| b) s
def execVxor (o : OpA) (s : State) : Result := vlogic Rows.vxor o (fun _ a b => a ^^^ b) s
def execVshl (o : OpA) (s : State) : Result := vlogic Rows.vshl o shiftLeft s
def execVshr (o : OpA) (s : State) : Result := vlogic Rows.vshr o shiftRight s
def execVsra (o : OpA) (s : State) : Result := vlogic Rows.vsra o shiftArith s
def execVmin (o : OpA) (s : State) : Result := vint Rows.vmin o (fun _ a b => if a ≤ b then a else b) s
def execVmax (o : OpA) (s : State) : Result := vint Rows.vmax o (fun _ a b => if b ≤ a then a else b) s

/-! ### Compares (R134) -/

/-- Bit i of the m destination is lane i's condition for active lanes; every other bit is 0. -/
def State.putMask (s : State) (d c : Reg) (n : Nat) (f : Nat → Bool × Flags) : State :=
  let rs := (List.range n).map fun i => if s.active c i then f i else (false, 0)
  let x := rs.foldr (fun r acc => (if r.1 then 1 else 0) + 2 * acc) 0
  ((s.writeW d (BitVec.ofNat 64 x)).orFlags (rs.foldl (fun acc r => acc ||| r.2) 0)).advance

def execVcmp (o : OpA) (s : State) : Result :=
  .next (gated Rows.vcmp (.a o) s fun s =>
    let t := OpA.type o
    s.putMask o.dst o.c.reg (lanes t.width) fun i => (intCompare o.cond (s.laneInt t o.a i) (s.laneIntB t o i), 0))

def execVfcmp (o : OpA) (s : State) : Result :=
  .next (gated Rows.vfcmp (.a o) s fun s =>
    let t := OpA.type o
    s.putMask o.dst o.c.reg (lanes t.width) fun i => fpCompare o.cond (s.laneVal t o.a i) (s.laneValB t o i))

/-! ### Lane movement (R135) -/

def execVsel (o : OpA) (s : State) : Result :=
  .next (gated Rows.vsel (.a o) s fun s =>
    let t := OpA.type o
    s.putLanes o.dst .zero t.width fun i =>
      (if s.active o.c.reg i then s.laneSrc t.width o.a.reg i else s.laneB t o i, 0))

def execVperm (o : OpA) (s : State) : Result :=
  .next (gated Rows.vperm (.a o) s fun s =>
    let t := OpA.type o
    s.putLanes o.dst o.c.reg t.width fun i => (s.laneSrc t.width o.a.reg (s.laneB t o i % lanes t.width), 0))

/-- The lane index l of R135, taken mod n. -/
def laneIndex (o : OpA) (w : Nat) : Nat := o.imm.toNat % 64 % lanes w

def execVbcast (o : OpA) (s : State) : Result :=
  .next (gated Rows.vbcast (.a o) s fun s =>
    let w := (OpA.type o).width
    s.putLanes o.dst o.c.reg w fun _ => (s.laneSrc w o.a.reg (laneIndex o w), 0))

def execVext (o : OpA) (s : State) : Result :=
  .next (gated Rows.vext (.a o) s fun s =>
    let t := OpA.type o
    s.putWord o.dst (t.extend (s.laneSrc t.width o.a.reg (laneIndex o t.width))))

def execVins (o : OpA) (s : State) : Result :=
  .next (gated Rows.vins (.a o) s fun s =>
    let w := (OpA.type o).width
    let old := s.read o.dst
    s.putLanes o.dst .zero w fun i =>
      (if i = laneIndex o w then (s.readW o.a.reg).toNat % 2 ^ w else laneOf old w i, 0))

/-! ### Reductions and scans (R136) -/

/-- One combine of two lane values, as bits. -/
def combineLanes (t : Ty) (md : Mode) (isAdd isMax : Bool) (x y : Nat) : Nat × Flags :=
  if t.isInt then
    let a := t.intOf x
    let b := t.intOf y
    let z := if isAdd then a + b else if isMax then max a b else min a b
    ((z % (2 ^ t.width : Nat)).toNat, 0)
  else if isAdd then
    let z := (t.fp.decode x).add md (t.fp.decode y)
    let r := t.fp.round md z.1
    (r.1, z.2 ||| r.2)
  else t.fp.minmax isMax x y

/-- One level of the fixed tree: neighbours combine, an absent entry gives the other. -/
def treeLevel (f : Nat → Nat → Nat × Flags) : List (Option Nat) → List (Option Nat) × Flags
  | x :: y :: rest =>
    let r := treeLevel f rest
    match x, y with
    | some a, some b =>
      let z := f a b
      (some z.1 :: r.1, z.2 ||| r.2)
    | some a, none => (some a :: r.1, r.2)
    | none, b => (b :: r.1, r.2)
  | xs => (xs, 0)

/-- The tree, level by level. -/
def tree (f : Nat → Nat → Nat × Flags) : Nat → List (Option Nat) → Option Nat × Flags
  | 0, xs => (xs.headD none, 0)
  | fuel + 1, xs =>
    match xs with
    | [] => (none, 0)
    | [x] => (x, 0)
    | xs =>
      let r := treeLevel f xs
      let q := tree f fuel r.1
      (q.1, r.2 ||| q.2)

/-- The result when every lane is absent (R136). -/
def emptyReduction (t : Ty) (isAdd isMax : Bool) : Nat :=
  if t.isInt then
    if isAdd then 0 else ((if isMax then t.minInt else t.maxInt) % (2 ^ t.width : Nat)).toNat
  else if isAdd then 0 else t.fp.infBits isMax

/-- Lane i of source A: the bits after the modifiers, which only FP types take (R132). -/
def State.laneMod (s : State) (t : Ty) (x : Src) (i : Nat) : Nat :=
  let b := s.laneSrc t.width x.reg i
  if t.isInt then b else t.fp.modify x.neg x.abs b

def reduction (r : Row) (o : OpA) (isAdd isMax : Bool) (s : State) : Result :=
  .next (gated r (.a o) s fun s =>
    let t := OpA.type o
    let xs := (List.range (lanes t.width)).map fun i =>
      if s.active o.c.reg i then some (s.laneMod t o.a i) else none
    let r := tree (combineLanes t s.t.seenSys.mode isAdd isMax) 7 xs
    ((s.writeW o.dst (t.extend (r.1.getD (emptyReduction t isAdd isMax)))).orFlags r.2).advance)

def execVredAdd (o : OpA) (s : State) : Result := reduction Rows.vredAdd o true false s
def execVredMin (o : OpA) (s : State) : Result := reduction Rows.vredMin o false false s
def execVredMax (o : OpA) (s : State) : Result := reduction Rows.vredMax o false true s

/-- The running sums of the active lanes, from lane 0 up; the first active lane meets no addition. -/
def scanLanes (f : Nat → Nat → Nat × Flags) : Option Nat → List (Option Nat × Nat) → List Nat × Flags
  | _, [] => ([], 0)
  | acc, (none, old) :: rest =>
    let r := scanLanes f acc rest
    (old :: r.1, r.2)
  | none, (some x, _) :: rest =>
    let r := scanLanes f (some x) rest
    (x :: r.1, r.2)
  | some a, (some x, _) :: rest =>
    let z := f a x
    let r := scanLanes f (some z.1) rest
    (z.1 :: r.1, z.2 ||| r.2)

def execVscan (o : OpA) (s : State) : Result :=
  .next (gated Rows.vscan (.a o) s fun s =>
    let t := OpA.type o
    let old := s.read o.dst
    let xs := (List.range (lanes t.width)).map fun i =>
      (if s.active o.c.reg i then some (s.laneMod t o.a i) else none, laneOf old t.width i)
    let r := scanLanes (combineLanes t s.t.seenSys.mode true false) none xs
    ((s.write o.dst (ofLanes t.width r.1)).orFlags r.2).advance)

/-! ### Packing of non-zero lanes (R137, R150) -/

/-- A lane value is zero: ±0 for FP types, a code that decodes to ±0 for narrow types. -/
def State.laneZero (s : State) (t : Ty) (x : Nat) : Bool :=
  match t with
  | .nf k => (NFmt.ofBits (s.t.seen.rf k)).isZero x
  | t => if t.isFp then (t.fp.decode x).isZero else x == 0

def execVzpack (o : OpA) (s : State) : Result :=
  .next (gated Rows.vzpack (.a o) s fun s =>
    let t := OpA.type o
    let start := o.imm.toNat % 64
    let base := (s.readW o.b.reg).toNat % 65536
    if start % 16 ≠ 0 || lanes t.width ≤ start then s.trap 0x02
    else
    let ws := ((List.range 16).map (start + ·)).filterMap fun i =>
      let x := s.laneSrc t.width o.a.reg i
      let x := match t with
        | .nf k => x % 2 ^ (NFmt.ofBits (s.t.seen.rf k)).wid
        | _ => x
      if s.active o.c.reg i && !s.laneZero t x then some ((base + i) % 65536 * 65536 + x) else none
    (s.write o.dst (ofLanes 32 ws)).advance)

/-- One word of `vexpand`. -/
def expandWord (w n base : Nat) (lanes : Sparse Nat) (word : Nat) : Sparse Nat :=
  let x := word % 65536
  let l := (word / 65536 + 65536 - base) % 65536
  if x != 0 && l < n then lanes.put l (x % 2 ^ w) else lanes

def execVexpand (o : OpA) (s : State) : Result :=
  .next (gated Rows.vexpand (.a o) s fun s =>
    let t := OpA.type o
    let w := t.width
    let n := lanes w
    let base := (if o.b.reg = .zero then o.imm.toNat else (s.readW o.b.reg).toNat) % 65536
    let m := (allLanes 32 (s.read o.a.reg)).foldl (expandWord w n base) []
    (s.write o.dst (ofLanes w ((List.range n).map fun i => m.get 0 i))).advance)

/-! ### Masks (R138) -/

def maskOp (r : Row) (o : OpA) (f : Word → Word → Word) (s : State) : Result :=
  .next (gated r (.a o) s fun s => s.putWord o.dst (f (s.readW o.a.reg) (s.readW o.b.reg)))

def execMand (o : OpA) (s : State) : Result := maskOp Rows.mand o (fun a b => a &&& b) s
def execMor (o : OpA) (s : State) : Result := maskOp Rows.mor o (fun a b => a ||| b) s
def execMnot (o : OpA) (s : State) : Result := maskOp Rows.mnot o (fun a _ => ~~~ a) s

def execMpopc (o : OpA) (s : State) : Result :=
  .next (gated Rows.mpopc (.a o) s fun s =>
    s.putWord o.dst (BitVec.ofNat 64 (popBits (s.readW o.a.reg).toNat (lanes (OpA.type o).width))))

def execMffs (o : OpA) (s : State) : Result :=
  .next (gated Rows.mffs (.a o) s fun s =>
    s.putWord o.dst (BitVec.ofNat 64 (ctzBits (s.readW o.a.reg).toNat (lanes (OpA.type o).width))))

/-! ### Conversion and packing (R139, R140) -/

/-- The source type of a conversion. -/
def OpA.source (o : OpA) : Ty := (srcTy o.imm).getD .f32

def execVcvt (o : OpA) (s : State) : Result :=
  .next (gated Rows.vcvt (.a o) s fun s =>
    let dst := OpA.type o
    let src := OpA.source o
    let wd := dst.width
    let ws := src.width
    let p := OpA.part o
    let old := s.read o.dst
    if partLimit wd ws ≤ p then s.trap 0x02
    else
    let one (i : Nat) : Nat × Flags :=
      s.cvtEnv.convert o.rnd o.clamp o.scale dst src o.a.neg o.a.abs (s.laneSrc ws o.a.reg i)
    s.putLanes o.dst o.c.reg wd fun j =>
      if wd = ws then one j
      else if ws < wd then one (p * lanes wd + j)
      else if p * lanes ws ≤ j && j < (p + 1) * lanes ws then one (j - p * lanes ws)
      else (laneOf old wd j, 0))

/-- The scale byte of byte lane L (R140). -/
def scaleByte (f : NFmt) (scales : Nat) (lane : Nat) : Nat := scales / 256 ^ (lane / min (2 ^ f.blk) 64) % 256

def execVpack (o : OpA) (s : State) : Result :=
  .next (gated Rows.vpack (.a o) s fun s =>
    let src := OpA.source o
    let k := match OpA.type o with | .nf k => k | _ => 0
    let f := s.cvtEnv.fmt k
    let ns := lanes src.width
    let p := OpA.part o
    let scales := (s.readW o.b.reg).toNat
    let old := s.read o.dst
    if src.width / 8 ≤ p then s.trap 0x02
    else s.putLanes o.dst o.c.reg 8 fun j =>
      if p * ns ≤ j && j < (p + 1) * ns then
        let t := scaleByte f scales j
        if t = 0x80 then (f.nanCode.getD 0, 0)
        else
          let v := (src.fp.decode (s.laneSrc src.width o.a.reg (j - p * ns))).modify o.a.neg o.a.abs
          f.encode (o.rnd.mode (f.mode s.t.seenSys.mode)) (v.scale (-(sbyte t + s.t.seenSys.biasOf k)))
      else (laneOf old 8 j, 0))

def execVunpack (o : OpA) (s : State) : Result :=
  .next (gated Rows.vunpack (.a o) s fun s =>
    let dst := OpA.type o
    let k := match OpA.source o with | .nf k => k | _ => 0
    let f := s.cvtEnv.fmt k
    let nd := lanes dst.width
    let p := OpA.part o
    let scales := (s.readW o.b.reg).toNat
    if dst.width / 8 ≤ p then s.trap 0x02
    else s.putLanes o.dst o.c.reg dst.width fun i =>
      let j := p * nd + i
      let t := scaleByte f scales j
      if t = 0x80 then (dst.fp.qnan, 0)
      else
        let v := (f.decode (s.laneSrc 8 o.a.reg j)).modify o.a.neg o.a.abs
        dst.fp.round s.t.seenSys.mode (v.scale (sbyte t + s.t.seenSys.biasOf k)))

/-! ### Accumulator pairs (R122, R123, R141) -/

/-- One rounded FP32 addition with flags. -/
def add32 (md : Mode) (x y : Nat) : Nat × Flags :=
  let z := (fmtF32.decode x).add md (fmtF32.decode y)
  let r := fmtF32.round md z.1
  (r.1, z.2 ||| r.2)

def neg32 (x : Nat) : Nat := fmtF32.modify true false x

/-- The two-sum step of R122: hi, lo and the flags it names. -/
def twoSum (hi lo x : Nat) : Nat × Nat × Flags :=
  let s := add32 .rne hi x
  let f1 := s.2 &&& (fNV ||| fOF ||| (if s.2 &&& fOF != 0 then fNX else 0))
  match fmtF32.decode s.1 with
  | .fin .. =>
    let bp := (add32 .rne s.1 (neg32 hi)).1
    let e := (add32 .rne (add32 .rne hi (neg32 (add32 .rne s.1 (neg32 bp)).1)).1 (add32 .rne x (neg32 bp)).1).1
    let l := add32 .rne lo e
    (s.1, l.1, f1 ||| l.2)
  | _ => (s.1, 0, f1)

/-- collapse(hi, lo, mode) (R123): the f32 sum, rounded once, with its flags. -/
def collapse (md : Mode) (hi lo : Nat) : Nat × Flags :=
  let v := (fmtF32.decode hi).add md (fmtF32.decode lo)
  let r := fmtF32.round md v.1
  (r.1, v.2 ||| r.2)

/-- R141. Source A names a pair, and the specification does not say what negate and absolute on it act on: here on hi and on lo, each
(log entry 43). -/
def execVtsum (o : OpA) (s : State) : Result :=
  .next (gated Rows.vtsum (.a o) s fun s =>
    if o.ty = some .pair32 then
      let hi := s.read o.dst
      let lo := s.read o.dst.next
      let rs := (List.range 16).map fun i =>
        if s.active o.c.reg i then
          let a := if o.a.reg = .zero then immBits .f32 o.imm else s.laneSrc 32 o.a.reg i
          twoSum (laneOf hi 32 i) (laneOf lo 32 i) (fmtF32.modify o.a.neg o.a.abs a)
        else (laneOf hi 32 i, laneOf lo 32 i, 0)
      (((s.write o.dst (ofLanes 32 (rs.map (·.1)))).write o.dst.next (ofLanes 32 (rs.map (·.2.1)))).orFlags
        (rs.foldl (fun acc r => acc ||| r.2.2) 0)).advance
    else
      let md := s.modeOf o.rnd
      let hi := s.read o.a.reg
      let lo := s.read o.a.reg.next
      s.putLanes o.dst o.c.reg 32 fun i =>
        let x := collapse md (fmtF32.modify o.a.neg o.a.abs (laneOf hi 32 i)) (fmtF32.modify o.a.neg o.a.abs (laneOf lo 32 i))
        formLane .f32 md o (fmtF32.decode x.1, x.2))

end Sys2Proof.Machine
end

