-- ==== Sys2Proof/Machine/Matrix.lean ====
section
/-! DEFINITION. The matrix unit: capabilities, tiles, row closes, the save area and the spill ring (spec/15_matrix.md R250-R271,
spec/16_matrix_notes.md R277-R279, spec/07_arithmetic.md R120-R124, spec/08_arithmetic_notes.md R150). -/

namespace Sys2Proof.Machine

open Sys2Proof

/-! ### Capabilities (R252) -/

def capCore (cap : Word) : Nat := cap.toNat / 2 ^ 52
def capKey (cap : Word) : BitVec 48 := cap.setWidth 48

/-- The entry of a unit that a capability matches for a right (50 READ, 49 STREAM, 48 LOAD). -/
def MUnit.entry? (u : MUnit) (cap : Word) (right : Nat) : Option CapEntry :=
  u.caps.find? fun e => e.key == capKey cap && !cap.getLsbD 51 && cap.getLsbD right && (!cap.getLsbD 50 || e.read) &&
    (!cap.getLsbD 49 || e.stream) && (!cap.getLsbD 48 || e.load)

def MCmd.right (c : MCmd) : Nat := if c.maj = 0xD1 ∧ c.fn ≠ 0 then 49 else if c.maj = 0xD2 ∧ c.fn = 1 then 50 else 48
def MCmd.isRead (c : MCmd) : Bool := c.maj == 0xD2 && c.fn == 1
def MCmd.isFmt (c : MCmd) : Bool := c.maj == 0xD0
def MCmd.isSave (c : MCmd) : Bool := c.maj == 0xD3 && c.fn == 0
def MCmd.isRest (c : MCmd) : Bool := c.maj == 0xD3 && c.fn == 1

/-- A command for the tile of its entry, which can be spilled (R268). -/
def MCmd.regular (c : MCmd) : Bool := c.maj == 0xD1 || c.maj == 0xD2

/-- The matrix fault record keeps the first error (R253). -/
def State.mrecord (s : State) (cause : Nat) (c : MCmd) : State :=
  s.onTask c.task fun t => { t with mfault := t.mfault <|> some { cause := cause, cap := c.cap, maj := c.maj, fn := c.fn } }

/-- The reply of an `mrd`: two lines, flags and a cause (R263). -/
def State.mreply (s : State) (c : MCmd) (hi lo : Line) (fl : BitVec 7) (cause : Nat) : State :=
  s.onTask c.task fun t => { t with long := t.long.map fun l =>
    if l.op = c.op then match l.act with
      | .mrd cap row col ty mode _ => { l with act := .mrd cap row col ty mode (some (hi, lo, fl, cause)) }
      | _ => l
    else l }

/-- A command that its target refuses: recorded with its sender, but for an `mrd`, whose reply carries the cause. -/
def State.mrefuse (s : State) (cause : Nat) (c : MCmd) : State :=
  if c.isRead then s.mreply c 0 0 0 cause else s.mrecord cause c

/-! ### Elements and row closes (R120-R124, R150, R251, R261) -/

/-- The value of an element before its scale. -/
def codeValue (ty : Ty) (fmt : BitVec 32) (code : Nat) : Val :=
  match ty with
  | .f16 | .bf16 => ty.fp.decode code
  | .nf _ => (NFmt.ofBits fmt).decode code
  | _ => Val.ofInt (ty.intOf code)

/-- The value of an element under its scale byte and captured bias. -/
def elemValue (ty : Ty) (fmt : BitVec 32) (bias : BitVec 8) (code scale : Nat) : Val :=
  match ty with
  | .nf _ => if scale = 0x80 then .nan false else (codeValue ty fmt code).scale (sbyte scale + bias.toInt)
  | _ => codeValue ty fmt code

/-- Parts of a finite value: sign, magnitude and exponent. -/
def Val.parts : Val → Option (Bool × Nat × Int)
  | .fin neg m e _ => if m = 0 then none else some (neg, m, e)
  | _ => none

def Val.isInf (neg : Bool) : Val → Bool
  | .inf n => n == neg
  | _ => false

/-- The window sum of a group (R121): the update as FP32 bits, and the flags. -/
def groupSum (ps : List Val) : Option Nat × Flags :=
  if ps.any Val.isNan then (some fmtF32.qnan, 0)
  else if ps.any (Val.isInf true) && ps.any (Val.isInf false) then (some fmtF32.qnan, fNV)
  else if ps.any (Val.isInf true) then (some (fmtF32.infBits true), 0)
  else if ps.any (Val.isInf false) then (some (fmtF32.infBits false), 0)
  else
    let fs := ps.filterMap Val.parts
    match fs with
    | [] => (none, 0)
    | f :: _ =>
      let top (x : Bool × Nat × Int) : Int := (Nat.log2 x.2.1 : Int) + x.2.2
      let u : Int := fs.foldl (fun a x => max a (top x)) (top f) - 95
      let part (x : Bool × Nat × Int) : Nat := if u ≤ x.2.2 then x.2.1 * 2 ^ (x.2.2 - u).toNat else x.2.1 / 2 ^ (u - x.2.2).toNat
      let lost := fs.any fun x => x.2.2 < u && x.2.1 % 2 ^ (u - x.2.2).toNat != 0
      let q := fs.foldl (fun a x => if x.1 then a - (part x : Int) else a + (part x : Int)) 0
      if q = 0 then (none, flagIf lost fWL)
      else
        let r := fmtF32.round .rne (.fin (q < 0) q.natAbs u false)
        (some r.1, flagIf lost fWL ||| r.2)

/-- One update of a pair by a group's products. -/
def pairStep (p : Nat × Nat × Flags) (ps : List (Val × Flags)) : Nat × Nat × Flags :=
  let fl := ps.foldl (fun a x => a ||| x.2) p.2.2
  match groupSum (ps.map (·.1)) with
  | (none, f) => (p.1, p.2.1, fl ||| f)
  | (some x, f) =>
    let (hi, lo, f') := twoSum p.1 p.2.1 x
    (hi, lo, fl ||| f ||| f')

/-- The elements of a row that are not zero: position and value. -/
def Tile.elements (t : Tile) (r : OpenRow) : List (Nat × Val) :=
  (r.words.filter fun w => !(codeValue t.aty t.afmt (w.2.toNat % 65536)).isZero).map fun w =>
    (w.1, elemValue t.aty t.afmt t.abias (w.2.toNat % 65536) (r.scales.get 0 (w.1 / 16)).toNat)

/-- The value of B at a position of the slab. -/
def Tile.bValue (t : Tile) (k n : Nat) : Val :=
  elemValue t.bty t.bfmt t.bbias (t.bcode.get 0 (256 * k + n)).toNat (t.bscale.get 0 (256 * (k / 16) + n)).toNat

/-- The pair of a column after a row's updates, in increasing group order. KB is a multiple of 32, so positions and indices
group alike. -/
def Tile.closePair (t : Tile) (es : List (Nat × Val)) (n hi lo : Nat) : Nat × Nat × Flags :=
  (List.range (t.ks / 32)).foldl (fun p g =>
    pairStep p ((es.filter fun e => e.1 / 32 == g).map fun e => Val.mul e.2 (t.bValue e.1 n))) (hi, lo, 0)

/-- The local-store offset of a pair (R257). -/
def Tile.pairAt (t : Tile) (row n : Nat) : Nat := t.acc + 8 * (row * t.n + n)

def State.onTile (s : State) (core : Nat) (f : Tile → Tile) : State :=
  s.onUnitM core fun u => { u with tile := u.tile.map f }

/-- Close a row (R261): every pair is written and marked full. -/
def State.closeRow (s : State) (core : Nat) (t : Tile) (r : OpenRow) : State :=
  let row := r.row - t.row0
  let es := t.elements r
  let ps := (List.range t.n).map fun n =>
    t.closePair es n (s.lsRead core (t.pairAt row n) 4) (s.lsRead core (t.pairAt row n + 4) 4)
  let s := s.lsEngineWrite core (t.pairAt row 0) (ps.flatMap fun p => toBytes 4 p.1 ++ toBytes 4 p.2.1)
  s.onTile core fun t =>
    { t with closed := t.closed ||| BitVec.twoPow 128 row, rows := t.rows + 1,
             tflags := ps.foldl (fun a p => a ||| p.2.2) t.tflags }

/-! ### Descriptors (R255) -/

/-- A 32-byte descriptor, as a number. -/
structure TileDesc where
  aty : Option Ty
  bty : Option Ty
  ks : Nat
  n : Nat
  m : Nat
  acc : Nat
  save : Nat
  row0 : Nat
  col0 : Nat
  shape : Bool

def TileDesc.ofNat (x : Nat) : TileDesc :=
  let m := field x 15 8
  let row0 := field x 111 96
  let col0 := field x 127 112
  { aty := Ty.ofCode (field x 31 27), bty := Ty.ofCode (field x 26 22), ks := 32 * (field x 21 20 + 1),
    n := 64 * (field x 19 18 + 1), m := m, acc := field x 63 32, save := field x 95 64, row0 := row0, col0 := col0,
    shape := field x 17 16 = 0 && field x 7 0 = 0 && field x 255 128 = 0 && 1 ≤ m && m ≤ 128 && row0 % 128 = 0 &&
      row0 ≤ 1920 && col0 % 256 = 0 && col0 ≤ 768 }

/-- A type of the unit (R251); a narrow format has at most five exponent bits. -/
def matType (isA : Bool) (ty : Option Ty) (fmt : BitVec 32) : Bool :=
  match ty with
  | some .i8 | some .n8 => true
  | some .f16 | some .bf16 => isA
  | some (.nf _) => (NFmt.ofBits fmt).exp ≤ 5
  | _ => false

def isNarrow : Option Ty → Bool
  | some (.nf _) => true
  | _ => false

/-- The first check of R255, from the third on, that a descriptor fails under these formats. -/
def TileDesc.fault (d : TileDesc) (fa fb : BitVec 32) (broken : BitVec 8) : Option Nat :=
  if !d.shape then some 0x42
  else if (isNarrow d.aty && !(NFmt.ofBits fa).valid) || (isNarrow d.bty && !(NFmt.ofBits fb).valid) then some 0x40
  else if !matType true d.aty fa || !matType false d.bty fb then some 0x41
  else if d.acc % 8 ≠ 0 || d.save % 64 ≠ 0 || 2 ^ 19 < d.acc + 8 * d.m * d.n || 2 ^ 19 < d.save + 40960 ||
      (d.acc < d.save + 40960 && d.save < d.acc + 8 * d.m * d.n) then some 0x43
  else if (List.range 8).any fun i => i / 4 < (d.ks + 63) / 64 && i % 4 < d.n / 64 && broken.getLsbD i then some 0x5F
  else none

/-- The slab uses a withdrawn macro. -/
def Tile.usesBroken (t : Tile) (broken : BitVec 8) : Bool :=
  (List.range 8).any fun i => i / 4 < (t.ks + 63) / 64 && i % 4 < t.n / 64 && broken.getLsbD i

/-- A fresh tile. -/
def TileDesc.tile (d : TileDesc) (key : BitVec 48) (owner : Nat) (fa fb : BitVec 32) (ba bb : BitVec 8) : Tile :=
  { key := key, owner := owner, aty := d.aty.getD .i8, bty := d.bty.getD .i8, ks := d.ks, n := d.n, m := d.m, acc := d.acc,
    save := d.save, row0 := d.row0, col0 := d.col0, afmt := fa, abias := ba, bfmt := fb, bbias := bb }

/-- The format register and bias that a type captures; zero where it names none. -/
def Task.capture (t : Task) (ty : Option Ty) : BitVec 32 × BitVec 8 :=
  match ty with
  | some (.nf k) => (t.seen.rf k, BitVec.ofInt 8 (t.seenSys.biasOf k))
  | _ => (0, 0)

/-! ### The save area (R266) -/

/-- Words 0x0000 to 0x00FF of the save area but for the open-row table, as bytes. -/
def Tile.head (t : Tile) (byMsave : Bool) : List Byte :=
  let w0 := t.aty.code * 2 ^ 27 + t.bty.code * 2 ^ 22 + (t.ks / 32 - 1) * 2 ^ 20 + (t.n / 64 - 1) * 2 ^ 18 + t.m * 2 ^ 8
  let terr := match t.terr with
    | some (cause, core, row) => row % 2048 * 2 ^ 20 + core * 2 ^ 8 + cause
    | none => 0
  toBytes 4 w0 ++ toBytes 4 t.acc ++ toBytes 4 t.save ++ toBytes 2 t.row0 ++ toBytes 2 t.col0 ++ toBytes 16 0 ++
  toBytes 8 t.afmt.toNat ++ toBytes 8 t.abias.toNat ++ toBytes 8 t.bfmt.toNat ++ toBytes 8 t.bbias.toNat ++
  toBytes 8 t.kb ++ toBytes 8 t.knext ++ toBytes 8 t.rows ++ toBytes 8 t.tflags.toNat ++ toBytes 8 terr ++
  toBytes 8 (bit t.loaded 0 + bit byMsave 1) ++ toBytes 8 t.key.toNat ++ toBytes 8 0 ++ toBytes 16 t.closed.toNat

/-- One entry of the open-row table. -/
def OpenRow.entry (r : OpenRow) : List Byte :=
  toBytes 2 r.row ++ toBytes 2 r.words.length ++ (List.range 8).map (fun j => r.scales.get 0 j) ++
  toBytes 2 ((List.range 8).foldl (fun a j => a + bit (r.scales.find? j).isSome j) 0)

/-- Write the save area. -/
def State.saveTile (s : State) (core : Nat) (t : Tile) (byMsave : Bool) : State :=
  let slots := (List.range 8).map fun i => t.openRows[i]?
  let table := slots.flatMap fun r => match r with
    | some r => r.entry
    | none => toBytes 14 0
  let words := slots.flatMap fun r => (List.range 128).flatMap fun p => match r with
    | some r => toBytes 4 (r.words.get 0 p).toNat
    | none => toBytes 4 0
  let body := (List.range 32768).map (fun i => t.bcode.get 0 i) ++ (List.range 2048).map (fun i => t.bscale.get 0 i)
  s.lsEngineWrite core t.save (t.head byMsave ++ table ++ body ++ words ++ toBytes 1792 0)

/-- The tile that a save area holds, with the fault of its descriptor. -/
def State.savedTile (s : State) (core off owner : Nat) : Tile × TileDesc :=
  let w (a n : Nat) : Nat := s.lsRead core (off + a) n
  let d := TileDesc.ofNat (w 0 32)
  let t := d.tile (BitVec.ofNat 48 (w 0x70 8)) owner (BitVec.ofNat 32 (w 0x20 8)) (BitVec.ofNat 32 (w 0x30 8))
    (BitVec.ofNat 8 (w 0x28 8)) (BitVec.ofNat 8 (w 0x38 8))
  let terr := w 0x60 8
  let present (i : Nat) : Bool := w (0x90 + 14 * i + 2) 2 != 0
  let row (i : Nat) : OpenRow :=
    { row := w (0x90 + 14 * i) 2,
      words := (List.range 128).foldl (fun m p => m.set 0 p (BitVec.ofNat 32 (w (0x8900 + 512 * i + 4 * p) 4))) [],
      scales := (List.range 8).foldl (fun m j =>
        if w (0x90 + 14 * i + 12) 2 / 2 ^ j % 2 = 1 then m.put j (BitVec.ofNat 8 (w (0x90 + 14 * i + 4 + j) 1)) else m) [] }
  let bytes (base n : Nat) : Sparse Byte :=
    (List.range n).foldl (fun m i => m.set 0 i (BitVec.ofNat 8 (w (base + i) 1))) []
  ({ t with kb := w 0x40 8, knext := w 0x48 8, rows := w 0x50 1, tflags := BitVec.ofNat 7 (w 0x58 1),
            terr := if terr % 256 = 0 then none else some (terr % 256, field terr 19 8, field terr 30 20),
            loaded := w 0x68 1 % 2 = 1, closed := BitVec.ofNat 128 (w 0x80 16),
            openRows := ((List.range 8).filter present).map row, bcode := bytes 0x100 32768, bscale := bytes 0x8100 2048 }, d)

/-- What `mrest` checks in a save area: an aligned offset within local store, a descriptor that a tile may have, and a KEY
that matches a valid entry. -/
def State.restFault (s : State) (core off : Nat) : Option Nat :=
  if off % 64 ≠ 0 || 2 ^ 19 < off + 40960 then some 0x54
  else
    let (t, d) := s.savedTile core off 0
    if !((s.core core).munit.caps.any fun e => e.key == t.key) then some 0x53
    else match d.fault t.afmt t.bfmt (s.core core).munit.broken with
      | none => none
      | some 0x5F => some 0x5F
      | some _ => some 0x54

/-! ### The spill ring (R268, R278, R279) -/

/-- An area named in FRAME of a frame-map entry, if it is valid. -/
def State.ringArea (s : State) (core entry size : Nat) : Option Nat × State :=
  let (w, s) := s.mapWord core entry 0
  let a := w.toNat / 4096 * 4096
  (if w.getLsbD 0 && s.inPool core a size then some a else none, s)

/-- The ring: base, control block, oldest index and count. -/
def State.ringHead (s : State) (core : Nat) : Option (Nat × Nat × Nat × Nat) × State :=
  match s.ringArea core 258 131072 with
  | (none, s) => (none, s)
  | (some base, s) =>
    match s.ringArea core 259 64 with
    | (none, s) => (none, s)
    | (some ctl, s) =>
      let (o, s) := s.homeWord ctl
      let (n, s) := s.homeWord (ctl + 8)
      (some (base, ctl, o.toNat % 256, min 256 n.toNat), s)

/-- The 512 bytes of an entry. -/
def MCmd.entryBytes (c : MCmd) : List Byte :=
  toBytes 8 (c.ty * 2 ^ 16 + c.maj % 4 * 2 ^ 14 + c.fn % 4 * 2 ^ 12 + c.core) ++ toBytes 8 ((capKey c.cap).toNat / 2 ^ 32) ++
  toBytes 8 ((capKey c.cap).toNat % 2 ^ 32 * 2 ^ 32) ++ toBytes 8 c.b.toNat ++ toBytes 8 c.c.toNat ++
  toBytes 8 (if c.maj = 0xD1 ∧ c.fn = 1 then c.imm % 4 else 0) ++ toBytes 16 0 ++ (c.payload ++ toBytes 448 0).take 448

/-- Append a command to the ring, or drop it with 0x55. -/
def State.spill (s : State) (core : Nat) (c : MCmd) : State :=
  let full (s : State) : State := (s.mrecord 0x55 c).mreply c 0 0 0 0
  match s.ringHead core with
  | (none, s) => full s
  | (some (base, ctl, o, n), s) =>
    if 256 ≤ n then full s
    else
      let p := (o + n) % 256
      let s := (s.outerPut (base + 512 * p) c.entryBytes).putWordAt (ctl + 8) (BitVec.ofNat 64 (n + 1))
      s.onUnitM core fun u => { u with ring := u.ring.put p { c with since := 0 } }

/-- The oldest command of the ring that a test accepts, with its position. -/
def State.ringFind (s : State) (core : Nat) (f : MCmd → Bool) : Option (Nat × MCmd) × State :=
  match s.ringHead core with
  | (none, s) => (none, s)
  | (some (_, _, o, n), s) =>
    (((List.range n).filterMap fun i => ((s.core core).munit.ring.find? ((o + i) % 256)).map fun c => ((o + i) % 256, c)).find?
      (fun e => f e.2), s)

/-- Positions that the oldest index passes: those that hold no command any more. -/
def passed (ring : Sparse MCmd) (o : Nat) : Nat → Nat
  | 0 => 0
  | n + 1 => if (ring.find? (o % 256)).isNone then 1 + passed ring (o + 1) n else 0

/-- Remove an entry: the head advances the oldest index; one behind an entry that stays is marked by bit 63 of its first word (the
oldest index never rests on a marked entry). -/
def State.ringRemove (s : State) (core p : Nat) : State :=
  let s := s.onUnitM core fun u => { u with ring := u.ring.erase p }
  match s.ringHead core with
  | (none, s) => s
  | (some (base, ctl, o, n), s) =>
    if p ≠ o then
      let (w, s) := s.homeWord (base + 512 * p)
      s.putWordAt (base + 512 * p) (w ||| BitVec.twoPow 64 63)
    else
      let k := passed (s.core core).munit.ring o n
      (s.putWordAt ctl (BitVec.ofNat 64 ((o + k) % 256))).putWordAt (ctl + 8) (BitVec.ofNat 64 (n - k))

/-- Remove every command of the ring that a test accepts, in ring order. -/
def State.ringPurge (s : State) (core : Nat) (f : MCmd → Bool) : State :=
  let hit (p : Nat) : Bool := ((s.core core).munit.ring.find? p).any f
  if !(s.core core).munit.ring.any fun e => f e.2 then s
  else
    let (h, s) := s.ringHead core
    let o := match h with
      | some (_, _, o, _) => o
      | none => 0
    (((List.range 256).map fun i => (o + i) % 256).filter hit).foldl (fun s p => s.ringRemove core p) s

/-- The ring holds commands of a tile. -/
def State.ringHas (s : State) (core : Nat) (key : BitVec 48) : Bool :=
  (s.core core).munit.ring.any fun e => capKey e.2.cap == key

/-! ### Applying commands (R256-R263) -/

def State.holdsSlot (s : State) (key : Nat) : Bool := (s.task? key).any fun t => t.sched.slot.isSome

/-- The first tile error is kept (R256). -/
def State.tileErr (s : State) (core cause : Nat) (c : MCmd) (row : Nat) : State :=
  s.onTile core fun t => { t with terr := t.terr <|> some (cause, c.core, row) }

/-- Every 8-byte word of a local-store range is full. -/
def State.lsFullRange (s : State) (core off n : Nat) : Bool :=
  (List.range ((n + 7) / 8)).all fun i => s.lsIsFull core (off + 8 * i)

/-- Bytes of a slab image (R258). -/
def Tile.slabBytes (t : Tile) : Nat := t.ks * t.n + (if isNarrow (some t.bty) then t.ks / 16 * t.n else 0)

/-- The error of an `mldb`. -/
def Tile.slabFault (t : Tile) (c : MCmd) : Option Nat :=
  let kb := c.c.toNat
  let off := c.b.toNat % 2 ^ 19
  if kb % 32 ≠ 0 || kb < t.knext || 65536 < kb + t.ks || !t.openRows.isEmpty then some 0x54
  else if off % 64 ≠ 0 || 2 ^ 19 < off + t.slabBytes then some 0x43
  else none

/-- The command may start now. -/
def State.mReady (s : State) (core : Nat) (t : Tile) (c : MCmd) : Bool :=
  if c.maj = 0xD1 ∧ c.fn = 1 then t.closing.length < 4 && t.closing.all (fun r => r.dense)
  else t.closing.isEmpty && (!(c.maj = 0xD1 ∧ c.fn = 0) || (t.slabFault c).isSome ||
    s.lsFullRange core (c.b.toNat % 2 ^ 19) t.slabBytes)

/-- Read the slab image (R258). -/
def State.readSlab (s : State) (core : Nat) (t : Tile) (off : Nat) : Tile :=
  let byte (a : Nat) : Byte := BitVec.ofNat 8 (s.lsRead core (off + a) 1)
  let code := (List.range (t.ks * t.n)).foldl (fun m i => Sparse.set 0 m (256 * (i / t.n) + i % t.n) (byte i)) []
  let scale := if isNarrow (some t.bty) then
      (List.range (t.ks / 16 * t.n)).foldl (fun m i => Sparse.set 0 m (256 * (i / t.n) + i % t.n) (byte (t.ks * t.n + i))) []
    else []
  { t with bcode := code, bscale := scale, image := off }

/-- The row is closed or about to be closed in this slab. -/
def Tile.rowClosed (t : Tile) (row : Nat) : Bool :=
  t.closed.getLsbD (row - t.row0) || t.closing.any fun r => r.row.row == row

def Tile.hasRow (t : Tile) (row : Nat) : Bool := t.row0 ≤ row && row < t.row0 + t.m

/-- A row is accepted: it waits to be closed. -/
def Tile.accept (t : Tile) (c : MCmd) (dense : Bool) (row : OpenRow) : Tile :=
  { t with closing := t.closing ++ [{ op := c.op, core := c.core, dense := dense, row := row }] }

/-- A dense row from its image (R259). -/
def Tile.denseRow (t : Tile) (row : Nat) (image : List Byte) : OpenRow :=
  let e := if t.aty = .f16 || t.aty = .bf16 then 2 else 1
  let code (k : Nat) : BitVec 32 := BitVec.ofNat 32 (ofBytes ((image.drop (k * e)).take e) + (t.kb + k) % 65536 * 65536)
  { row := row, words := (List.range t.ks).map fun k => (k, code k),
    scales := if isNarrow (some t.aty) then (List.range (t.ks / 16)).map fun j => (j, image.getD (t.ks * e + j) 0) else [] }

/-- The words of an `mnz` that count, as position and word; or the error (R260). -/
def Tile.keptWords (t : Tile) (scale : Byte) (old : OpenRow) : List (BitVec 32) → Except Unit (List (Nat × BitVec 32))
  | [] => .ok []
  | w :: ws =>
    let code := w.toNat % 65536
    let k := w.toNat / 65536
    let wide := t.aty == .f16 || t.aty == .bf16
    if code = 0 || (codeValue t.aty t.afmt (if wide then code else code % 256)).isZero then t.keptWords scale old ws
    else if !wide && 256 ≤ code then .error ()
    else if k < t.kb || t.kb + t.ks ≤ k then .error ()
    else if isNarrow (some t.aty) && (match old.scales.find? ((k - t.kb) / 16) with
      | some x => x != scale
      | none => false) then .error ()
    else match t.keptWords scale old ws with
      | .ok xs => .ok ((k - t.kb, w) :: xs)
      | .error e => .error e

/-- Apply an `mnz` (R260). -/
def State.applyMnz (s : State) (core : Nat) (t : Tile) (c : MCmd) : State :=
  let x := c.c.toNat
  let row := field x 10 0
  let scale := BitVec.ofNat 8 (field x 23 16)
  let words := (List.range 16).map fun i => BitVec.ofNat 32 (ofBytes ((c.payload.drop (4 * i)).take 4))
  let isOpen := t.openRows.any fun r => r.row == row
  let old : OpenRow := (t.openRows.find? fun r => r.row == row).getD { row := row }
  if c.ty ≠ t.aty.code then s.tileErr core 0x54 c row
  else if field x 63 24 ≠ 0 || field x 14 11 ≠ 0 then s.tileErr core 0x44 c row
  else if !t.loaded then s.tileErr core 0x54 c row
  else if !t.hasRow row then s.tileErr core 0x44 c row
  else if t.rowClosed row then s.tileErr core 0x54 c row
  else match t.keptWords scale old words with
    | .error _ => s.tileErr core 0x44 c row
    | .ok ws =>
      if !ws.isEmpty && !isOpen && 8 ≤ t.openRows.length then s.tileErr core 0x54 c row
      else
        let new : OpenRow :=
          { old with words := ws.foldl (fun m w => m.put w.1 w.2) old.words,
                     scales := if isNarrow (some t.aty) then ws.foldl (fun m w => m.put (w.1 / 16) scale) old.scales
                       else old.scales }
        s.onTile core fun t =>
          if field x 15 15 = 1 then
            ({ t with openRows := t.openRows.filter (fun r => r.row != row) }).accept c false new
          else if ws.isEmpty then t
          else if isOpen then { t with openRows := t.openRows.map fun r => if r.row = row then new else r }
          else { t with openRows := t.openRows ++ [new] }

/-- Apply an `mrow` (R259). -/
def State.applyMrow (s : State) (core : Nat) (t : Tile) (c : MCmd) : State :=
  let row := c.c.toNat
  let named := row % 2048
  if c.ty ≠ t.aty.code || 32 * (c.imm % 4 + 1) ≠ t.ks || !t.loaded || t.openRows.any (fun r => r.row == row) ||
      (t.hasRow row && t.rowClosed row) then s.tileErr core 0x54 c named
  else if !t.hasRow row then s.tileErr core 0x44 c named
  else s.onTile core fun t => t.accept c true (t.denseRow row c.payload)

/-- Answer an `mrd` (R263). -/
def State.applyMrd (s : State) (core : Nat) (t : Tile) (c : MCmd) : State :=
  let x := c.b.toNat
  let row := field x 10 0
  let col := field x 25 16
  if field x 63 26 ≠ 0 || field x 15 11 ≠ 0 || !t.hasRow row || col % 16 ≠ 0 || t.n ≤ col then s.mreply c 0 0 0 0x44
  else
    let at_ (i : Nat) : Nat := t.pairAt (row - t.row0) (col + i)
    let ps := (List.range 16).map fun i => (s.lsRead core (at_ i) 4, s.lsRead core (at_ i + 4) 4)
    if c.ty = 20 then s.mreply c (ofLanes 32 (ps.map (·.1))) (ofLanes 32 (ps.map (·.2))) 0 0
    else
      let md := Mode.ofBits (BitVec.ofNat 3 c.imm)
      let rs := ps.map fun p => collapse md p.1 p.2
      s.mreply c (ofLanes 32 (rs.map (·.1))) 0 (rs.foldl (fun a r => a ||| r.2) 0) 0

/-- Apply a command of the bound tile that may start. One of a tile that uses a withdrawn macro records 0x5F, an `mrd` too (R270). -/
def State.applyCmd (s : State) (core : Nat) (t : Tile) (c : MCmd) : State :=
  if t.usesBroken (s.core core).munit.broken then
    let row := if c.isRead then c.b.toNat % 2048 else if c.maj = 0xD1 ∧ c.fn ≠ 0 then c.c.toNat % 2048 else 0
    let s := s.tileErr core 0x5F c row
    if c.isRead then s.mreply c 0 0 0 0x5F else s
  else if c.maj = 0xD1 ∧ c.fn = 0 then
    match t.slabFault c with
    | some f => s.tileErr core f c 0
    | none =>
      s.onTile core fun t =>
        { s.readSlab core t (c.b.toNat % 2 ^ 19) with loaded := true, kb := c.c.toNat, knext := c.c.toNat + t.ks, closed := 0, rows := 0 }
  else if c.maj = 0xD1 ∧ c.fn = 1 then s.applyMrow core t c
  else if c.maj = 0xD1 then s.applyMnz core t c
  else if c.isRead then s.applyMrd core t c
  else
    let n := t.m * t.n
    let s := s.lsWrite core t.acc (toBytes (8 * n) 0)
    let s := (List.range n).foldl (fun s i => s.lsSetFull core (t.acc + 8 * i) false) s
    s.onTile core fun t => { t with knext := 0, closed := 0, rows := 0, tflags := 0 }

/-! ### Binding, saving, and the command queue (R254, R255, R266, R267) -/

def State.setTile (s : State) (core : Nat) (t : Option Tile) : State := s.onUnitM core fun u => { u with tile := t }

/-- The tile of an entry and an owner whose state lies in its save area. -/
def MUnit.saved? (u : MUnit) (key : BitVec 48) (owner : Nat) : Option Saved :=
  u.saved.find? fun v => v.key == key && v.owner == owner

/-- A tile becomes the unit's; what its owner had saved of the entry before is no tile any more. Another owner's is (R267). -/
def State.bindTile (s : State) (core : Nat) (t : Tile) : State :=
  s.onUnitM core fun u => { u with tile := some t, saved := u.saved.filter fun v => !(v.key == t.key && v.owner == t.owner) }

/-- Apply an `mfmt` or an `mrest` whose conditions hold. -/
def State.applyBind (s : State) (core : Nat) (c : MCmd) : State :=
  match s.task? c.task with
  | none => s
  | some t =>
    if c.isFmt then
      let d := TileDesc.ofNat (ofBytes c.payload)
      let (fa, ba) := t.capture d.aty
      let (fb, bb) := t.capture d.bty
      s.bindTile core (d.tile (capKey c.cap) c.task fa fb ba bb)
    else
      let off := c.b.toNat % 2 ^ 19
      match s.restFault core off with
      | some f => s.mrecord f c
      | none =>
        let x := (s.savedTile core off c.task).1
        let image := ((s.core core).munit.images.find? off).getD (64 * (Config.slabImage off).toNat)
        s.bindTile core { x with image := image }

/-- Commands of a tile in the ring wait no more for the image of a slab: their tile is not in the unit (R269). -/
def MUnit.resetWaits (u : MUnit) (key : BitVec 48) : MUnit :=
  { u with ring := u.ring.map fun e => (e.1, if capKey e.2.cap = key then { e.2 with since := 0 } else e.2) }

/-- Save the bound tile and free the unit. -/
def State.unbindSaved (s : State) (core : Nat) (t : Tile) (byMsave : Bool) : State :=
  let s := s.saveTile core t byMsave
  let v : Saved := { key := t.key, save := t.save, byMsave := byMsave, owner := t.owner, image := t.image }
  s.onUnitM core fun u =>
    { u.resetWaits t.key with tile := none, saved := v :: u.saved.filter (fun x => !(x.key == t.key && x.owner == t.owner)),
                              images := u.images.put t.save t.image }

/-- A tile that hardware saved waits for the restore that its owner is due. -/
def State.restoreDue (s : State) (core : Nat) (f : Saved → Bool) : Option Saved :=
  (s.core core).munit.saved.find? fun v => !v.byMsave && f v && s.holdsSlot v.owner

/-- A bind may be applied (R255): the unit is free or bound to the same task, whose earlier commands are done. -/
def State.canBind (s : State) (core : Nat) (c : MCmd) (stuck : Bool) : Bool :=
  match (s.core core).munit.tile with
  | none => (s.restoreDue core fun v => v.owner == c.task).isNone
  | some t => t.owner == c.task && !stuck && t.closing.isEmpty

/-- The ring holds commands of a tile that reached the unit before a point. -/
def State.ringBefore (s : State) (core : Nat) (key : BitVec 48) (n : Nat) : Bool :=
  (s.core core).munit.ring.any fun e => capKey e.2.cap == key && e.2.arrived < n

/-- An `msave` may be applied (R266): every earlier command of the tile is complete, the spilled ones too; one whose tile hardware has
saved waits for the restore. -/
def State.canSave (s : State) (core : Nat) (c : MCmd) (stuck : Bool) : Bool :=
  let u := (s.core core).munit
  match u.tile.filter fun t => t.key == capKey c.cap && t.owner == c.task with
  | some t => !stuck && t.closing.isEmpty && !s.ringBefore core t.key c.arrived
  | none => (u.saved? (capKey c.cap) c.task).all Saved.byMsave

/-- A bind or a save of the bound tile's owner that waits: no later command of the tile passes it (R254). -/
def State.blocksTile (s : State) (core : Nat) (c : MCmd) : Bool :=
  (s.core core).munit.tile.any fun t => t.owner == c.task && (!c.isSave || t.key == capKey c.cap)

/-- The first command of the queue that may be applied: commands of the bound tile in order, none past one that waits, whichever
tasks sent them; binds and saves when their conditions hold, and nothing of a task past a bind or save of its own that waits. -/
def State.mPick (s : State) (core : Nat) : List MCmd → List Nat → Bool → Option MCmd
  | [], _, _ => none
  | c :: cs, waits, stuck =>
    if waits.contains c.task then s.mPick core cs waits stuck
    else if c.isFmt || c.isRest then
      if s.canBind core c stuck then some c else s.mPick core cs (c.task :: waits) (stuck || s.blocksTile core c)
    else if c.isSave then
      if s.canSave core c stuck then some c else s.mPick core cs (c.task :: waits) (stuck || s.blocksTile core c)
    else match (s.core core).munit.tile with
      | some t =>
        if t.key ≠ capKey c.cap then some c
        else if !stuck && s.mReady core t c then some c
        else s.mPick core cs waits true
      | none => some c

/-- Apply one picked command: one whose tile is not bound is spilled. -/
def State.mApply (s : State) (core : Nat) (c : MCmd) : State :=
  let s := s.onUnitM core fun u => { u with queue := u.queue.filter fun x => x.op != c.op }
  if c.isFmt || c.isRest then s.applyBind core c
  else match (s.core core).munit.tile with
    | some t =>
      if c.isSave then
        if t.key = capKey c.cap ∧ t.owner = c.task then s.unbindSaved core t true else s
      else if t.key = capKey c.cap then s.applyCmd core t c
      else s.spill core c
    | none => if c.isSave then s else s.spill core c

/-- Apply commands of the queue as far as they can be applied now. -/
def State.mRun (s : State) (core : Nat) : Nat → State
  | 0 => s
  | n + 1 =>
    match s.mPick core (s.core core).munit.queue [] false with
    | none => s
    | some c => (s.mApply core c).mRun core n

/-- The unit works on. -/
def State.unitRun (s : State) (core : Nat) : State := s.mRun core ((s.core core).munit.queue.length + 1)

/-- The tile is active: its owner holds a slot, and has not passed the step of `done` that fixes the commands it waits for (R267,
R271). -/
def State.activeTile (s : State) (t : Tile) : Bool :=
  (s.task? t.owner).any fun o => o.sched.slot.isSome && o.sched.doneQueue.isNone

/-- A regular command goes to the queue when its tile is bound and active and nothing of it lies in the ring (R268). -/
def State.direct (s : State) (core : Nat) (c : MCmd) : Bool :=
  match (s.core core).munit.tile with
  | some t => t.key == capKey c.cap && s.activeTile t && !s.ringHas core t.key
  | none => false

/-! ### Errors that reach the owner, and the end of an owner (R256, R271) -/

/-- The save area of a task's tile that hardware saved. -/
def MUnit.ownSaved (u : MUnit) (key : Nat) : Option Nat :=
  (u.saved.find? fun v => !v.byMsave && v.owner == key).map Saved.save

def MUnit.ownTile (u : MUnit) (key : Nat) : Option Tile := u.tile.filter fun t => t.owner == key

/-- The TERR of a tile that a task owns in the unit of its core, bound or saved by hardware. -/
def State.ownTerr (s : State) (key core : Nat) : Option (Nat × Nat × Nat) :=
  let u := (s.core core).munit
  match u.ownTile key, u.ownSaved key with
  | some t, _ => t.terr
  | none, some a =>
    let x := s.lsRead core (a + 0x60) 8
    if x % 256 = 0 then none else some (x % 256, field x 19 8, field x 30 20)
  | none, none => none

def State.clearTerr (s : State) (key core : Nat) : State :=
  let u := (s.core core).munit
  match u.ownTile key, u.ownSaved key with
  | some _, _ => s.onTile core fun t => { t with terr := none }
  | none, some a => s.lsWrite core (a + 0x60) (toBytes 8 0)
  | none, none => s

/-- The trap that a pending matrix fault record or, for the owner, TERR makes (R253, R256); `terr` says that TERR counts. -/
def State.matrixTrap (s : State) (record terr : Bool) (k : State → State) : State :=
  match (if record then s.t.mfault else none) with
  | some f =>
    (s.onT fun t => { t with mfault := none }).trapWith f.cause
      { g4 := f.cap, g5 := BitVec.ofNat 64 (f.maj % 16 + f.fn % 16 * 16), prec := false }
  | none =>
    match (if terr then s.ownTerr s.cur s.t.sched.core else none) with
    | some (cause, core, row) =>
      (s.clearTerr s.cur s.t.sched.core).trapWith cause { g4 := BitVec.ofNat 64 core, g5 := BitVec.ofNat 64 row, prec := false }
    | none => k s

/-- The saves of its tile that a task has queued: those behind a bind of its own are for a later tile. -/
def MUnit.ownSaves (u : MUnit) (key : Nat) : List MCmd :=
  (u.queue.takeWhile fun c => !(c.task == key && (c.isFmt || c.isRest))).filter fun c => c.task == key && c.isSave

/-- The commands of a task's tile that wait in its unit, rows that are accepted and not closed and the `msave` of the tile among
them. -/
def State.ownQueue (s : State) (key core : Nat) : List Nat :=
  let u := (s.core core).munit
  let saves := (u.ownSaves key).map MCmd.op
  match u.ownTile key, u.ownSaved key with
  | some t, _ => (u.queue.filter fun c => c.regular && capKey c.cap == t.key).map (·.op) ++ t.closing.map Closing.op ++ saves
  | none, some _ => saves
  | none, none => []

/-- A task retires: its tile is unbound and the queued commands of the tile go (after a `done`, which waited for them, none are left:
later ones have been spilled), and so do its own binds and saves (R271). -/
def State.retireTiles (s : State) (key core : Nat) : State :=
  let gone (u : MUnit) (c : MCmd) : Bool :=
    (c.task == key && !c.regular) || (u.ownTile key).any fun t => c.regular && capKey c.cap == t.key
  (s.onUnitM core fun u =>
    let ring := match u.ownTile key with
      | some t => (u.resetWaits t.key).ring
      | none => u.ring
    { u with ring := ring, queue := u.queue.filter (fun c => !gone u c), tile := u.tile.filter (fun t => t.owner != key),
             saved := u.saved.filter fun v => v.byMsave || v.owner != key }).unitRun core

end Sys2Proof.Machine
end

