-- ==== Sys2Proof/Machine/MatrixOps.lean ====
section
/-! DEFINITION. The matrix instructions, majors 0xD0 to 0xD3, and the matrix unit's events (spec/15_matrix.md R253-R271,
spec/16_matrix_notes.md R277). -/

namespace Sys2Proof.Machine

open Sys2Proof

/-! ### Sending a command (R253, R254) -/

/-- A command as its instruction or block gives it: row of A, image offset, payload (R258-R266). -/
def mcmdOf (maj fn ty imm task core op : Nat) (pc cap y z : Word) (line : Line) : MCmd :=
  let row := maj == 0xD1 && fn == 1
  { maj := maj, fn := fn, ty := ty, task := task, core := core, pc := pc, cap := cap, b := y,
    c := if maj = 0xD0 ∨ (maj = 0xD2 ∧ fn = 1) then 0 else z, op := op,
    imm := if row then imm % 4 else if maj = 0xD0 ∨ maj = 0xD2 then z.toNat else 0,
    payload := if maj = 0xD0 then toBytes 32 line.toNat else if maj = 0xD1 ∧ fn = 2 then toBytes 64 line.toNat else [],
    image := if row then some (y.toNat % 2 ^ 19) else none }

/-- The outbound queue of a core takes a command. -/
def State.pushCmd (s : State) (c : MCmd) : State := s.onCore c.core fun k => { k with outq := k.outq ++ [c] }

/-- The outbound queue takes the command of an instruction. -/
def State.pushMatrix (h : Held) (s : State) : State :=
  match h.ins.info with
  | some (r, .e o) =>
    let fn := match r.fn with
      | .one n => n
      | _ => 0
    s.pushCmd (mcmdOf r.maj fn ((o.ty.map Ty.code).getD 0) o.imm.toNat s.cur s.t.sched.core h.op h.pc h.x h.y h.z h.line)
  | _ => s

/-- The checks at issue of a command with its capability (R253): `own` for those that only their own core takes. -/
def State.capCheck (s : State) (cap : Word) (right : Nat) (own : Bool) (k : State → State) : State :=
  let mine := capCore cap = s.t.sched.core
  if own && !mine then s.trap 0x54
  else if mine && (s.myCore.munit.entry? cap right).isNone then s.trap 0x53
  else k s

/-- Issue a command that is no long op, after its checks. -/
def State.issueMatrix (s : State) (ins : Instr) (x y z : Word) (line : Line) : State :=
  if 16 ≤ s.myCore.outq.length then s.hold
  else
    let (op, s) := s.nextOp
    (s.sendCommand { slot := 16, pc := s.t.pc, ins := ins, op := op, x := x, y := y, z := z, line := line } State.pushMatrix).advance

/-! ### Instructions -/

/-- Capability j of a launch (R252, R265): zero beyond the list, and while its task is not placed. -/
def Launch.capWord (l : Launch) (j : Nat) : Word :=
  match l.caps[j]? with
  | none => 0
  | some (team, task, rd, st, ld) =>
    match l.coreOf (team, task) with
    | none => 0
    | some core => BitVec.ofNat 64 (core * 2 ^ 52 + bit rd 50 + bit st 49 + bit ld 48 + (l.keys.get 0 core).toNat)

/-- A held `mcap` goes: its task's frame may lie in the pool by then. -/
def State.performMcap (h : Held) (s : State) : State :=
  match h.ins with
  | .mcap o => s.unitWrite s.cur o.dst (h.x.setWidth 512)
  | _ => s

/-- R265, R273. -/
def execMcap (o : OpE) (s : State) : Result :=
  .next (gated Rows.mcap (.e o) s fun s =>
    let x := match s.launch? s.t.launch with
      | some l => l.capWord (o.imm.toNat % 256)
      | none => 0
    let (op, s) := s.nextOp
    (s.sendCommand { slot := 16, pc := s.t.pc, ins := .mcap o, op := op, x := x, y := 0, z := 0, line := 0 }
      fun _ s => s.writeW o.dst x).advance)

/-- The checks at issue of `mfmt` (R255), then what the command carries. -/
def State.mfmtCheck (s : State) (cap addr : Word) (k : Word → Word → Line → State → State) : State :=
  s.capCheck cap 48 true fun s =>
    match windowFor s.t.sched.core addr with
    | .ls off =>
      if off % 32 ≠ 0 then s.trapVa 0x43 addr
      else if s.t.lsOwed s.ops off 32 then s.hold
      else
        let x := s.lsLoad s.t off 32
        let d := TileDesc.ofNat x
        let code (t : Option Ty) : Nat := (t.map Ty.code).getD 31
        match d.fault (s.t.capture d.aty).1 (s.t.capture d.bty).1 s.myCore.munit.broken with
        | some f => s.trap f
        | none => k 0 (BitVec.ofNat 64 (code d.aty * 32 + code d.bty)) (BitVec.ofNat 512 x) s
    | _ => s.trapVa 0x43 addr

/-- Bytes of a row image (R259). -/
def rowImage (ty : Option Ty) (ks : Nat) : Nat :=
  (if ty = some .f16 ∨ ty = some .bf16 then 2 * ks else ks) + (if isNarrow ty then ks / 16 else 0)

/-- The checks at issue of `mrow` (R259). -/
def State.mrowCheck (s : State) (cap b c : Word) (ty : Option Ty) (imm : Nat) (k : Word → Word → Line → State → State) : State :=
  s.capCheck cap 49 false fun s =>
    let off := b.toNat % 2 ^ 19
    if off % 8 ≠ 0 then s.trapVa 0x0A b
    else if 2 ^ 19 < off + rowImage ty (32 * (imm % 4 + 1)) then s.trapVa 0x43 b
    else k (BitVec.ofNat 64 off) c 0 s

/-- The checks at issue of `mrest` (R266). -/
def State.mrestCheck (s : State) (cap b : Word) (k : Word → Word → Line → State → State) : State :=
  s.capCheck cap 48 true fun s =>
    match s.restFault s.t.sched.core (b.toNat % 2 ^ 19) with
    | some f => s.trap f
    | none => k b 0 0 s

def State.msaveCheck (s : State) (cap : Word) (k : Word → Word → Line → State → State) : State :=
  s.capCheck cap 48 true fun s => s.matrixTrap false true fun s => k 0 0 0 s

/-- R255. -/
def execMfmt (o : OpE) (s : State) : Result :=
  .next (gated Rows.mfmt (.e o) s fun s =>
    let cap := s.readW o.a
    s.mfmtCheck cap (s.readW o.b.reg) fun y z l s => s.issueMatrix (.mfmt o) cap y z l)

/-- R258. -/
def execMldb (o : OpE) (s : State) : Result :=
  .next (gated Rows.mldb (.e o) s fun s =>
    s.capCheck (s.readW o.a) 48 false fun s =>
      s.issueMatrix (.mldb o) (s.readW o.a) (s.readW o.b.reg) (s.readW o.c.reg) 0)

/-- R259. -/
def execMrow (o : OpE) (s : State) : Result :=
  .next (gated Rows.mrow (.e o) s fun s =>
    let cap := s.readW o.a
    s.mrowCheck cap (s.readW o.b.reg) (s.readW o.c.reg) o.ty o.imm.toNat fun y z l s => s.issueMatrix (.mrow o) cap y z l)

/-- R260. -/
def execMnz (o : OpE) (s : State) : Result :=
  .next (gated Rows.mnz (.e o) s fun s =>
    s.capCheck (s.readW o.a) 49 false fun s =>
      s.issueMatrix (.mnz o) (s.readW o.a) 0 (s.readW o.c.reg) (s.read o.b.reg))

/-- R262. -/
def execMclr (o : OpE) (s : State) : Result :=
  .next (gated Rows.mclr (.e o) s fun s =>
    s.capCheck (s.readW o.a) 48 false fun s => s.issueMatrix (.mclr o) (s.readW o.a) 0 0 0)

/-- R263: the only long op among the matrix commands; mode 5 is the issuer's FRMODE as it stands at issue. -/
def execMrd (o : OpE) (s : State) : Result :=
  .next (gated Rows.mrd (.e o) s fun s =>
    let cap := s.readW o.a
    s.capCheck cap 50 false fun s =>
      if 64 ≤ s.t.outcnt then s.park .outcnt
      else if 16 ≤ s.myCore.outq.length then s.hold
      else
        let md := if o.imm.toNat % 8 = 5 then s.t.seenSys.frmode.toNat else o.imm.toNat % 8
        let h : Held := { slot := 16, pc := s.t.pc, ins := .mrd o, op := s.ops, x := cap, y := s.readW o.b.reg,
                          z := BitVec.ofNat 64 md, line := 0 }
        let pair := o.ty == some .pair32
        let row := field h.y.toNat 10 0
        (s.issueLong (o.dst :: keep pair [o.dst.next]) [] (.mrd cap row (field h.y.toNat 25 16) (o.ty.getD .f32) md none)).sendCommand h
          State.pushMatrix)

/-- R266. -/
def execMsave (o : OpE) (s : State) : Result :=
  .next (gated Rows.msave (.e o) s fun s =>
    let cap := s.readW o.a
    s.msaveCheck cap fun y z l s => s.issueMatrix (.msave o) cap y z l)

/-- R266: the area is checked at issue, and again when it is applied. -/
def execMrest (o : OpE) (s : State) : Result :=
  .next (gated Rows.mrest (.e o) s fun s =>
    let cap := s.readW o.a
    s.mrestCheck cap (s.readW o.b.reg) fun y z l s => s.issueMatrix (.mrest o) cap y z l)

def State.onQuery (s : State) (q : Option MQuery) : State := s.onT fun t => { t with sched := { t.sched with mquery := q } }

/-- R264: the query goes to the unit, and the task holds its slot until the answer lands; then it parks, traps or goes on. -/
def execMwait (o : OpE) (s : State) : Result :=
  .next (gated Rows.mwait (.e o) s fun s =>
    let cap := s.readW o.a
    let n := s.readW o.b.reg
    let t := o.imm.getLsbD 0
    let ask (s : State) : State :=
      (s.onQuery (some { cap := cap, n := n, since := s.ops })).hold
    if !t && s.t.isMessage then s.trap 0x63
    else s.matrixTrap true (capCore cap = s.t.sched.core) fun s =>
      match s.t.sched.mquery with
      | none => ask s
      | some q =>
        if q.cap ≠ cap ∨ q.n ≠ n then ask s
        else match q.answer with
          | none => s.hold
          | some (cause, rows, cond, fl) =>
            if cause ≠ 0 then s.trap cause
            else if !cond && !t then (s.onQuery (some { q with answer := none })).park (.rows cap n)
            else
              let s := ((s.onQuery none).writeW o.dst (BitVec.ofNat 64 rows)).writeP o.pE cond
              (if cond then s.orFlags fl else s).advance)

/-! ### Answers (R264, R268, R277) -/

/-- ROWS and TFLAGS of the tile of a KEY, wherever its state lies; zero where there is none. -/
def State.tileState (s : State) (core : Nat) (key : BitVec 48) : Nat × BitVec 7 :=
  let u := (s.core core).munit
  match u.tile.filter (fun t => t.key == key), u.saved.find? fun v => v.key == key with
  | some t, _ => (t.rows, t.tflags)
  | none, some v => (s.lsRead core (v.save + 0x50) 1, BitVec.ofNat 7 (s.lsRead core (v.save + 0x58) 1))
  | none, none => (0, 0)

/-- The owner of the tile of a KEY that a query is about: the bound one's, else that of the first saved. -/
def MUnit.tileOwner (u : MUnit) (key : BitVec 48) : Option Nat :=
  ((u.tile.filter fun t => t.key == key).map Tile.owner) <|> ((u.saved.find? fun v => v.key == key).map Saved.owner)

/-- Queued commands of the tile: binds and saves of another task than its owner and the one that asks are for another tile, and so is
what such a task has queued behind one. -/
def ofTile (key : BitVec 48) (mine : List Nat) : List MCmd → List Nat → List MCmd
  | [], _ => []
  | c :: cs, others =>
    if capKey c.cap ≠ key then ofTile key mine cs others
    else if !c.regular && !mine.contains c.task then ofTile key mine cs (c.task :: others)
    else if others.contains c.task then ofTile key mine cs others
    else c :: ofTile key mine cs others

/-- Commands of the tile of an entry that are accepted and not complete, as a task asks: queued, spilled, or a row that is not closed
(R264). -/
def MUnit.accepted (u : MUnit) (key : BitVec 48) (task : Nat) : List Nat :=
  (ofTile key (task :: (u.tileOwner key).toList) u.queue []).map (·.op) ++
  (u.ring.filter fun e => capKey e.2.cap == key).map (fun e => e.2.op) ++
  (match u.tile.filter (fun t => t.key == key) with
   | some t => t.closing.map Closing.op
   | none => [])

/-- What the unit answers to a task's query: cause, ROWS, condition, TFLAGS, and the commands accepted before it. -/
def State.mwaitAnswer (s : State) (task : Nat) (q : MQuery) : (Nat × Nat × Bool × BitVec 7) × List Nat :=
  let core := capCore q.cap
  let u := (s.core core).munit
  if (s.core core).withdrawn then ((0x5F, 0, false, 0), [])
  else if (u.entry? q.cap 50).isNone then ((0x53, 0, false, 0), [])
  else
    let now := u.accepted (capKey q.cap) task
    let before := q.accepted.getD now
    let (rows, fl) := s.tileState core (capKey q.cap)
    ((0, rows, q.n.toNat ≤ rows && before.all fun x => !now.contains x, fl), before)

/-- MWAIT_QUERY: the query, behind the task's own earlier commands to the unit, is answered. -/
def execMwaitQuery (task : Nat) (s : State) : Result :=
  .next <|
    match s.task? task with
    | none => s
    | some t =>
      match t.sched.mquery with
      | none => s
      | some q =>
        let behind := (s.core t.sched.core).outq.any fun c => c.task == task && c.op < q.since && capCore c.cap == capCore q.cap
        if q.answer.isSome || behind || t.sched.status != .issuing then s
        else
          let (a, before) := s.mwaitAnswer task q
          s.onTask task fun t =>
            { t with sched := { t.sched with mquery := some { q with answer := some a, accepted := some before } } }

/-- A parked `mwait` would now complete (spec/01_machine.md R26). -/
def State.rowsMet (s : State) (key : Nat) (t : Task) : Bool :=
  match t.sched.mquery with
  | some q => (let a := (s.mwaitAnswer key q).1; a.1 != 0 || a.2.2.1)
  | none => true

/-! ### Arrival, closes, replay -/

/-- The command can leave the outbound queue: a row once its image is full (R259). -/
def State.formed (s : State) (core : Nat) (c : MCmd) : Bool :=
  match c.image with
  | some off => s.lsFullRange core off (rowImage (Ty.ofCode c.ty) (32 * (c.imm % 4 + 1)))
  | none => true

/-- The first command of an outbound queue that can leave: none passes an earlier one of its task. -/
def State.outPick (s : State) (core : Nat) : List MCmd → List Nat → Option MCmd
  | [], _ => none
  | c :: cs, waits =>
    if !waits.contains c.task && s.formed core c then some c else s.outPick core cs (c.task :: waits)

/-- The image that a formed row carries: the bytes as its task sees them. -/
def State.carry (s : State) (core : Nat) (c : MCmd) : MCmd :=
  match c.image with
  | some off =>
    let n := rowImage (Ty.ofCode c.ty) (32 * (c.imm % 4 + 1))
    let x := match s.task? c.task with
      | some t => s.lsLoad t off n
      | none => s.lsRead core off n
    { c with payload := toBytes n x, image := none, since := 0 }
  | none => c

/-- A command at its target unit: matched, then queued, spilled or refused. `none`: the unit's queue is full, and it waits. -/
def State.reachUnit (s : State) (c : MCmd) : Option State :=
  let n := capCore c.cap
  let u := (s.core n).munit
  if (s.core n).withdrawn then some (s.mrefuse 0x5F c)
  else if (u.entry? c.cap c.right).isNone then some (s.mrefuse 0x53 c)
  else
    let (k, s) := s.nextOp
    let c := { c with arrived := k }
    if c.regular && !s.direct n c then some (s.spill n c)
    else if 32 ≤ u.queue.length then none
    else some ((s.onUnitM n fun u => { u with queue := u.queue ++ [c] }).unitRun n)

/-- Rows of an outbound queue whose image is not full note since when they wait for it (R269); the others wait for something else. -/
def State.outWaits (s : State) (core : Nat) : State :=
  let note (c : MCmd) : MCmd :=
    if s.formed core c then { c with since := 0 } else if c.since != 0 then c else { c with since := s.dev.cycle + 1 }
  s.onCore core fun k => { k with outq := k.outq.map note }

/-- MATRIX_COMMAND_ARRIVAL: the next command that can leave a core's outbound queue reaches its unit (R253, R254). -/
def execMatrixCommandArrival (core : Nat) (s : State) : Result :=
  .next <|
    match s.outPick core (s.core core).outq [] with
    | none => s.outWaits core
    | some c =>
      match s.reachUnit (s.carry core c) with
      | none => s
      | some s => (s.onCore core fun k => { k with outq := k.outq.filter fun x => x.op != c.op }).outWaits core

/-- A row is dropped with a cause, recorded with its sender (R256, R270). -/
def Tile.dropRow (t : Tile) (cause : Nat) (r : Closing) (rest : List Closing) : Tile :=
  { t with closing := rest, reloading := none, terr := t.terr <|> some (cause, r.core, r.row.row % 2048) }

/-- The `mldb` of the bound tile that waits for its image, where one does. -/
def State.slabWaiting (s : State) (core : Nat) : Option MCmd :=
  match (s.core core).munit.tile with
  | some t =>
    ((s.core core).munit.queue.find? fun c => c.regular && capKey c.cap == t.key).filter fun c =>
      c.maj == 0xD1 && c.fn == 0 && t.closing.isEmpty && !s.mReady core t c
  | none => none

/-- SLAB_FULL_WAIT: the image of the first `mldb` is found full and the slab is read; while it is not, the wait is timed. -/
def execSlabFullWait (core : Nat) (s : State) : Result :=
  .next <|
    match s.slabWaiting core with
    | some c => s.onUnitM core fun u => { u with queue := u.queue.map fun x =>
        if x.op = c.op && x.since = 0 then { x with since := s.dev.cycle + 1 } else x }
    | none => s.unitRun core

/-- Reload the part of B that one macro holds, with its scales, from the last slab image. -/
def Tile.reload (t fresh : Tile) (cim : Nat) : Tile :=
  let mine (k n : Nat) : Bool := k / 64 == cim / 4 && n / 64 == cim % 4
  let pick (old new : Sparse Byte) : Sparse Byte :=
    (List.range 32768).foldl (fun m i => if mine (i / 256) (i % 256) then m.set 0 i (new.get 0 i) else m) old
  let scales := (List.range 2048).foldl (fun m i => if mine (16 * (i / 256)) (i % 256) then m.set 0 i (fresh.bscale.get 0 i) else m) t.bscale
  { t with bcode := pick t.bcode fresh.bcode, bscale := scales }

/-- The macro whose parity failed is reloaded, once every word of its image is full; until then the row waits (R270). -/
def State.reloadMacro (s : State) (core : Nat) (t : Tile) : Option State :=
  match t.reloading with
  | none => some s
  | some (cim, _) =>
    if s.lsFullRange core t.image t.slabBytes then
      some (s.onTile core fun t => { t.reload (s.readSlab core t t.image) cim with reloading := none })
    else none

/-- ROW_CLOSE: the oldest accepted row is closed (R261), and the unit goes on. A row of a tile that uses a withdrawn macro is
dropped; one that waits for a reload waits on (R270). -/
def execRowClose (core : Nat) (s : State) : Result :=
  .next <|
    match (s.core core).munit.tile with
    | some t =>
      match t.closing with
      | r :: rest =>
        if t.usesBroken (s.core core).munit.broken then (s.onTile core fun t => t.dropRow 0x5F r rest).unitRun core
        else match s.reloadMacro core t with
          | none => s
          | some s =>
            let t := ((s.core core).munit.tile).getD t
            ((s.closeRow core t r.row).onTile core fun t => { t with closing := rest }).unitRun core
      | [] => s
    | none => s

/-- A command of the ring may be replayed: its tile is active, or it is one that a queued `msave` of the tile's owner waits for
(R266, R271). -/
def State.replays (s : State) (core : Nat) (t : Tile) (c : MCmd) : Bool :=
  capKey c.cap == t.key && (s.activeTile t || (s.holdsSlot t.owner &&
    ((s.core core).munit.ownSaves t.owner).any fun m => capKey m.cap == t.key && c.arrived < m.arrived))

/-- SPILL_REPLAY: the bound and active tile takes its oldest command from the ring, once its queued commands are done
(R267, R268). -/
def execSpillReplay (core : Nat) (s : State) : Result :=
  .next <|
    match (s.core core).munit.tile with
    | none => s
    | some t =>
      let queued := (s.core core).munit.queue.any fun c => c.regular && capKey c.cap == t.key
      if queued then s
      else match s.ringFind core (s.replays core t) with
        | (none, s) => s.unitRun core
        | (some (p, c), s) =>
          if s.mReady core t c then ((s.ringRemove core p).applyCmd core t c).unitRun core
          else if c.maj == 0xD1 && c.fn == 0 && t.closing.isEmpty && c.since == 0 then
            s.onUnitM core fun u => { u with ring := u.ring.put p { c with since := s.dev.cycle + 1 } }
          else s

/-- Commands of a tile in the queue, but for those that wait behind a bind or a save of their own task (R255). -/
def tileQueue (key : BitVec 48) : List MCmd → List Nat → List MCmd
  | [], _ => []
  | c :: cs, waits =>
    if !c.regular then tileQueue key cs (c.task :: waits)
    else if capKey c.cap == key && !waits.contains c.task then c :: tileQueue key cs waits
    else tileQueue key cs waits

/-- The tile in the unit is dormant and has nothing left to complete (R267). -/
def State.dormantIdle (s : State) (core : Nat) (t : Tile) : Bool :=
  !s.holdsSlot t.owner && t.closing.isEmpty && (tileQueue t.key (s.core core).munit.queue []).isEmpty

/-- Another tile must be bound: a bind waits, or a restore is due. -/
def State.unitWanted (s : State) (core : Nat) (t : Tile) : Bool :=
  ((s.core core).munit.queue.any fun c => (c.isFmt || c.isRest) && c.task != t.owner) || (s.restoreDue core fun _ => true).isSome

/-- HARDWARE_SAVE (R255, R267). -/
def execHardwareSave (core : Nat) (s : State) : Result :=
  .next <|
    match (s.core core).munit.tile with
    | some t => if s.dormantIdle core t && s.unitWanted core t then (s.unbindSaved core t false).unitRun core else s
    | none => s

/-- HARDWARE_RESTORE (R267): the unit is free and an owner holds a slot again. -/
def execHardwareRestore (core : Nat) (s : State) : Result :=
  .next <|
    match (s.core core).munit.tile, s.restoreDue core fun _ => true with
    | none, some v => (s.bindTile core { (s.savedTile core v.save v.owner).1 with key := v.key, image := v.image }).unitRun core
    | _, _ => s

/-! ### Time-outs and parity (R269, R270) -/

/-- The engine long ops of cause 0x57. -/
def LongOp.ofEngine (l : LongOp) : Bool :=
  match l.act with
  | .mrd _ _ _ _ _ none | .ecmd _ _ _ _ false | .ijob _ | .dqsteal _ => true
  | _ => false

/-- A long op of an engine ends unanswered: its results are zero and it leaves OUTCNT (spec/13_traps.md R218 0x57). -/
def State.dropLong (s : State) (key : Nat) (l : LongOp) : State :=
  let s := s.onTask key fun t => { t with long := t.long.filter fun x => x.op != l.op }
  (s.landRegs key l.dsts (l.dsts.map fun _ => 0) 0).lateTrap key 0x57 l.pc (l.record {})

def late24 (cycle since : Nat) : Bool := since != 0 && since + 2 ^ 24 ≤ cycle

/-- What has waited too long at the unit for full bits: an `mldb` of the bound tile, or the row whose reload waits. It is dropped, with
0x57 in TERR (R269). -/
def State.unitTimeout (s : State) (core now : Nat) : State :=
  let u := (s.core core).munit
  match u.tile with
  | none => s
  | some t =>
    let late (c : MCmd) : Bool := capKey c.cap == t.key && late24 now c.since && !s.mReady core t c
    let slabs := u.queue.filter late ++ (u.ring.filter fun e => late e.2).map (·.2)
    let s := slabs.foldl (fun s c => s.tileErr core 0x57 c 0) s
    let s := s.ringPurge core late
    let s := s.onUnitM core fun u => { u with queue := u.queue.filter fun c => !late c }
    let s := match t.reloading, t.closing with
      | some (_, since), r :: rest => if late24 now since then s.onTile core fun t => t.dropRow 0x57 r rest else s
      | _, _ => s
    s.unitRun core

/-- ENGINE_TIMEOUT: what has waited more than 2^24 cycles on this core is dropped. -/
def execEngineTimeout (core : Nat) (s : State) : Result :=
  .next <|
    let now := s.dev.cycle
    let late (c : MCmd) : Bool := late24 now c.since && !s.formed core c
    let outs := (s.core core).outq.filter late
    let s := outs.foldl (fun s c => s.mrecord 0x57 c) s
    let s := s.onCore core fun k => { k with outq := k.outq.filter fun c => !late c }
    let s := s.unitTimeout core now
    let longs := (s.allTasks.filter fun e => e.2.sched.core == core).flatMap fun e =>
      (e.2.long.filter fun l => l.ofEngine && l.slot.isNone && l.since + 2 ^ 24 < now).map fun l => (e.1, l)
    longs.foldl (fun s e => s.dropLong e.1 e.2) s

/-- MACRO_PARITY: the broadcast of the oldest accepted row finds a parity error in a macro (R270). The first time the macro is
reloaded, once its image is full (the row waits for that), and the row is broadcast again; the second time the macro is withdrawn and the row dropped. -/
def execMacroParity (core cim : Nat) (second : Bool) (s : State) : Result :=
  .next <|
    match (s.core core).munit.tile with
    | some t =>
      match t.closing with
      | r :: rest =>
        if second then
          let s := s.onUnitM core fun u => { u with broken := u.broken ||| BitVec.twoPow 8 (cim % 8) }
          let s := s.onTile core fun t => t.dropRow 0x5F r rest
          (s.ras 2 0x5F 3 (8 * core + cim % 8) 0 0).unitRun core
        else
          let s := s.onTile core fun t => { t with reloading := some (cim % 8, s.dev.cycle + 1) }
          let s := (((s.core core).munit.tile).bind (s.reloadMacro core)).getD s
          s.ras 2 0x5F 0 (8 * core + cim % 8) 0 0
      | [] => s
    | none => s

end Sys2Proof.Machine
end

