-- ==== Sys2Proof/Machine/Tasks.lean ====
section
/-! DEFINITION. Creating tasks (spec/01_machine.md R23, R28, spec/05_scalar.md R85, R86, spec/21_launch_storage.md R330) and
writes of the launch engine through a launch's page tables. -/

namespace Sys2Proof.Machine

open Sys2Proof

/-! ### Accesses of the launch engine -/

/-- What a read or write by an engine of a launch comes to. -/
inductive Engine (α : Type) where
  | ok (x : α)
  | fault (cause : Nat) (va : Word)
  | wait
  deriving DecidableEq, Repr

/-- Go on with what was read. -/
def afterE {α β : Type} (x : Engine α × State) (k : α → State → Engine β × State) : Engine β × State :=
  match x with
  | (.ok a, s) => k a s
  | (.fault c va, s) => (.fault c va, s)
  | (.wait, s) => (.wait, s)

/-- How an engine of a launch goes to memory (R335): the table and the partition through which it walks, and the number under which
it waits for storage services. -/
structure Via where
  root : Nat
  part : Nat
  id : Nat
  deriving DecidableEq, Repr

/-- The numbers of the engines that walk: the launch engine for a launch, a Vetch engine for a round set, and the fill and write-back
of a task's footprints (spec/22_launch_notes.md R346). Copies and index jobs have those of their operations. -/
def engineNumber (kind n : Nat) : Nat := 2 ^ 64 + 4 * n + kind

/-- The launch engine, for a launch. -/
def Launch.via (l : Launch) : Via := { root := l.root, part := l.part, id := engineNumber 0 (l.queue * 2 ^ 32 + l.seq.toNat) }

/-- The launch engine, for the footprints of a task. -/
def Launch.viaTask (l : Launch) (key : Nat) : Via := { root := l.root, part := l.part, id := engineNumber 2 key }

/-- What a place that is not DRAM refuses an engine: control space is not for it, a hole traps 0x19, a peer needs a path (R335,
R350, spec/23_host.md R359). -/
def State.farRefused (s : State) (write : Bool) (pa : Nat) : Option Nat :=
  match spaceOf pa with
  | .dram => s.lostAt pa
  | .control => some (if write then 0x11 else 0x12)
  | .hole => some 0x19
  | .perold p => if (s.dev.peers.get {} p).v then none else some 0x28
  | .pcie _ => none

/-- Translate for an engine of a launch, with a task's rights; a non-resident page starts its service. -/
def State.launchReach (s : State) (w : Via) (write : Bool) (va : Word) : Engine (Nat × Pte) × State :=
  match windowOf va with
  | .ls _ | .dls _ _ => (.fault 0x14 va, s)
  | .mapped =>
    match s.translateAt w.root w.part { kind := if write then .store else .load, sys := false, io := false, writes := write } va with
    | (.fault c, _, s) => (.fault c va, s)
    | (.wait, _, s) => (.wait, s)
    | (.storage a p, _, s) => match s.engineMeets w.part a p w.id with
      | (some c, s) => (.fault c va, s)
      | (none, s) => (.wait, s)
    | (.ok pa p, _, s) => match s.farRefused write pa with
      | some c => (.fault c va, s)
      | none => if spaceOf pa == .dram && s.heldLine pa then (.wait, s) else (.ok (pa, p), s)

/-- One byte read for an engine: from DRAM, or from outside the device (log entry 7). -/
def State.engineByte (s : State) (w : Via) (pa : Nat) : Byte × State :=
  match spaceOf pa with
  | .dram =>
    let (l, s) := s.outerRead pa
    (BitVec.ofNat 8 (sliceLine l (pa % 64) 1), s)
  | _ =>
    let (bs, s) := (s.emit (.read w.part pa 1)).freeBytes 1
    (bs.headD 0, s)

/-- The places of n bytes, for reading or for writing. -/
def State.enginePlaces (s : State) (w : Via) (write : Bool) (va : Word) : Nat → Engine (List (Nat × Bool)) × State
  | 0 => (.ok [], s)
  | n + 1 => afterE (s.launchReach w write va) fun (pa, p) s =>
    afterE (s.enginePlaces w write (va + 1) n) fun ps s => (.ok ((pa, Pte.fe p) :: ps), s)

/-- The engine's access to the bytes has completed, or has failed: services of the pages that it reached are over for it (R346). -/
def State.engineDone (w : Via) (x : Engine (List (Nat × Bool)) × State) : Engine (List (Nat × Bool)) × State :=
  match x with
  | (.ok ps, s) => (.ok ps, ((ps.map fun p => pageAt p.1).eraseDups).foldl (fun s page => s.engineServed page w.id) s)
  | (.fault c va, s) => (.fault c va, s.engineLeaves w.id)
  | (.wait, s) => (.wait, s)

/-- Read n bytes, least significant first, once all of them can be reached. -/
def State.launchRead (s : State) (w : Via) (va : Word) (n : Nat) : Engine (List Byte) × State :=
  afterE (State.engineDone w (s.enginePlaces w false va n)) fun ps s =>
    let r := ps.foldl (fun (acc : List Byte × State) p => (let (b, s) := acc.2.engineByte w p.1; (acc.1 ++ [b], s))) ([], s)
    (.ok r.1, r.2)

/-- Translate every byte of a range for a write: addresses, and whether their words have full bits. -/
def State.launchPlaces (s : State) (w : Via) (va : Word) (n : Nat) : Engine (List (Nat × Bool)) × State :=
  State.engineDone w (s.enginePlaces w true va n)

def State.outerByte (s : State) (pa : Nat) (b : Byte) : State := s.outerWrite pa (placeLine b.toNat (pa % 64) 1) (maskOf (pa % 64) 1)

/-- One byte written for an engine, in DRAM or outside the device. -/
def State.enginePut (s : State) (w : Via) (pa : Nat) (b : Byte) : State :=
  match spaceOf pa with
  | .dram => s.outerByte pa b
  | _ => (s.emit (.write w.part pa [b])).markWritten pa

/-- Write bytes, all or none; `full` sets the full bits (spec/09_memory_offers.md R161). -/
def State.launchWrite (s : State) (w : Via) (va : Word) (bs : List Byte) (full : Bool := false) : Engine Unit × State :=
  afterE (s.launchPlaces w va bs.length) fun ps s =>
    let s := (ps.zip bs).foldl (fun s e => s.enginePut w e.1.1 e.2) s
    (.ok (), if full then ps.foldl (fun s p => if p.2 then s.setFull p.1 true else s) s else s)

/-! ### Run-queue entries (R28, R232) -/

/-- The task holds one of its core's run-queue entries 0 to 255. -/
def Task.holdsEntry (t : Task) : Bool :=
  match t.kind with
  | .launched | .firing _ | .edge _ _ => true
  | _ => false

def State.entriesOf (s : State) (core : Nat) : List Nat :=
  (s.allTasks.filter fun e => e.2.sched.core == core && e.2.holdsEntry).map fun e => e.2.sched.entry

/-- The lowest free entry. -/
def State.freeEntry (s : State) (core : Nat) : Option Nat :=
  let used := s.entriesOf core
  (List.range 256).find? fun e => !used.contains e

def Kind.code : Kind → Nat
  | .launched => 0
  | .firing _ => 1
  | .delegated => 2
  | .edge _ _ => 3
  | _ => 0

/-- TASKID (R85). -/
def taskId (launch core kind serial : Nat) : Word :=
  BitVec.ofNat 64 (launch * 2 ^ 24 + core % 4096 * 2 ^ 12 + kind * 2 ^ 10 + serial % 1024)

/-! ### The deferred flush (spec/01_machine.md R46) -/

/-- Lines that a launch left dirty in the L1s and RDC slices of its dies go home. -/
def State.flushDies (s : State) (dies : List Nat) : State :=
  let lines := s.mem.l1.filter fun e => e.2.dirty != 0 && dies.contains (dieOf (e.1 / 2 ^ 40))
  let s := lines.foldl (fun s e => s.l1Clean (e.1 / 2 ^ 40) (e.1 % 2 ^ 40)) s
  dies.foldl State.writeThroughAll s

/-- Perform the flush that a completed launch owes; nothing else keeps it in the table. It is owed until a lease holds back no dirty
line of the dies (spec/09_memory_offers.md R180). -/
def State.flushLaunch (s : State) (id : Nat) : State :=
  match s.launch? id with
  | some l =>
    if l.phase = .done ∧ !l.flushed then
      let s := s.flushDies l.dies
      if l.dies.any s.rdcBlocked then s else { s with launches := s.launches.erase id }
    else s
  | none => s

/-- The launches that a launch depends on and that are still in the table. -/
def State.dependsOn (s : State) (l : Launch) : List (Nat × Launch) :=
  s.launches.filter fun e => [l.record.dep0, l.record.dep1].any fun d => match d with
    | some (_, q, seq) => e.2.queue == q && e.2.seq == seq && e.2.phase == .done
    | none => false

/-- The launches whose flush the first task of a launch on a die owes: those it depends on, of which some task ran on another die. -/
def State.owedFor (s : State) (l : Launch) (die : Nat) : List (Nat × Launch) :=
  if l.reached.contains die || (l.record.dep0.isNone && l.record.dep1.isNone) then []
  else (s.dependsOn l).filter fun e => e.2.dies.any fun d => d != die

/-- The flushes that are owed before the first task of a launch goes to a die wait: nothing goes there until they can be made. -/
def State.owedBlocked (s : State) (launch die : Nat) : Bool :=
  (s.launch? launch).any fun l => (s.owedFor l die).any fun e => e.2.dies.any s.rdcBlocked

/-- The first task of a launch goes to a die: the flushes that are owed are made. -/
def State.owedFlush (s : State) (launch die : Nat) : State :=
  match s.launch? launch with
  | none => s
  | some l =>
    ((s.owedFor l die).foldl (fun s e => s.flushLaunch e.1) s).onLaunch launch fun l =>
      if l.reached.contains die || (l.record.dep0.isNone && l.record.dep1.isNone) then l else { l with reached := die :: l.reached }

/-- What a creator gives a task. -/
structure Birth where
  launch : Nat
  core : Nat
  kind : Kind
  team : Nat := 0
  index : Nat := 0
  entry : Word
  regs : Regs := {}
  frmode : BitVec 3 := 0
  prio : BitVec 2 := 0
  handler : Bool := false
  versioned : Bool := false
  foot : List Footprint := []
  request : Option Request := none

/-- Create a task: `none` while its core has no free entry for it or its TASKID would equal a live task's. A task without
footprints is ready at once. -/
def State.create (s : State) (b : Birth) : Option (Nat × State) :=
  let serial := (s.core b.core).serial.get 0 b.launch
  let tid := taskId b.launch b.core b.kind.code serial
  let entry : Option Nat := match b.kind with
    | .delegated => some 256
    | _ => s.freeEntry b.core
  match entry with
  | none => none
  | some e =>
    if s.owedBlocked b.launch (dieOf b.core) || s.allTasks.any fun x => x.2.sys.tid == tid then none
    else
      let grps := match s.launch? b.launch with
        | some l => l.grpsOf b.core
        | none => 0
      let sched : Sched :=
        { status := if b.foot.isEmpty then .ready else .queued, core := b.core, entry := e, entryTime := s.dev.cycle, level := b.prio,
          ableAt := s.dev.cycle }
      let t : Task :=
        { regs := b.regs, sys := { tid := tid, prio := b.prio, grps := grps, frmode := b.frmode }, pc := b.entry, kind := b.kind,
          launch := b.launch, team := b.team, index := b.index, handler := b.handler, versioned := b.versioned, foot := b.foot,
          request := b.request, sched := sched,
          creation := { entry := b.entry, regs := b.regs, frmode := b.frmode, prio := b.prio } }
      let s := s.owedFlush b.launch (dieOf b.core)
      let s := s.onCore b.core fun c => { c with serial := c.serial.set 0 b.launch ((serial + 1) % 1024) }
      let s := s.onLaunch b.launch fun l =>
        { l with liveTasks := l.liveTasks + 1, begun := l.begun <|> some s.dev.cycle,
                 dies := if l.dies.contains (dieOf b.core) then l.dies else l.dies ++ [dieOf b.core],
                 teams := match b.kind, l.teams.find? b.team with
                   | .launched, some x => l.teams.put b.team { x with live := x.live + 1 }
                   | _, _ => l.teams }
      some (tid.toNat, s.addTask tid.toNat t)

end Sys2Proof.Machine
end

