-- ==== Sys2Proof/Machine/Actors.lean ====
section
/-! DEFINITION. Actors and their FIFOs (spec/01_machine.md R33-R37, spec/02_machine_notes.md R49, spec/21_launch_storage.md
R325). -/

namespace Sys2Proof.Machine

open Sys2Proof

def State.actor? (s : State) (launch a : Nat) : Option Actor := (s.launch? launch).bind fun l => l.actors.find? a

def State.onActor (s : State) (launch a : Nat) (f : Actor → Actor) : State :=
  s.onLaunch launch fun l => match l.actors.find? a with
    | some x => { l with actors := l.actors.put a (f x) }
    | none => l

def Actor.onIn (x : Actor) (k : Nat) (f : Fifo → Fifo) : Actor := { x with ins := x.ins.modify k f }
def Actor.onOut (x : Actor) (k : Nat) (f : Fifo → Fifo) : Actor := { x with outs := x.outs.modify k f }

/-! ### Where items lie (log entry 19) -/

/-- The local-store range of a FIFO. -/
def Fifo.range (f : Fifo) : Nat × Nat := (f.off, 64 * f.cap)

/-- The ranges of an actor's FIFOs (R36). -/
def Actor.ranges (x : Actor) : List (Nat × Nat) := (x.ins ++ x.outs).map Fifo.range

/-- Item i of a placed FIFO is written to its place in local store, with full bits. -/
def State.putItem (s : State) (core : Nat) (f : Fifo) (i : Nat) (d : Line) : State :=
  s.lsEngineWrite core (f.off + 64 * ((f.head + i) % f.cap)) (toBytes 64 d.toNat)

/-- The address of the image of a FIFO within the actor's memory FIFO image: the FIFOs before it take their capacities. -/
def imageOffset : List Fifo → Nat → Nat
  | [], _ => 0
  | _, 0 => 0
  | f :: fs, k + 1 => 64 * f.cap + imageOffset fs k

/-- Write an item to the memory FIFO image. An image that cannot be written keeps the count and the item (log entry 19). -/
def State.imageItem (s : State) (launch : Nat) (image : Word) (off i : Nat) (d : Line) : State :=
  match s.launch? launch with
  | some l => (s.launchWrite l.via (image + BitVec.ofNat 64 (off + 64 * i)) (toBytes 64 d.toNat)).2
  | none => s

/-! ### Firing (R33) -/

/-- Room in an output FIFO: what its unreturned items leave. -/
def Fifo.room (f : Fifo) : Nat := f.cap - f.unreturned - f.reserved

/-- The firing condition. -/
def Actor.ready (x : Actor) : Bool :=
  !x.firing && (x.ins.all fun f => f.rate ≤ f.items.length) && (x.outs.all fun f => f.rate ≤ f.room)

/-- Test the firing condition of a placed actor; if it holds, reserve the output room and create the firing. -/
def State.tryFire (s : State) (launch a : Nat) : State :=
  match s.launch? launch, s.actor? launch a with
  | some l, some x =>
    if x.state = .placed ∧ x.ready ∧ !l.aborted ∧ !(s.core x.core).withdrawn then
      match s.create { launch := launch, core := x.core, kind := .firing a, team := x.team, index := x.task, entry := x.routine,
                       prio := x.prio, handler := x.handler, versioned := l.record.vers } with
      | some (_, s) =>
        s.onActor launch a fun x => { x with firing := true, outs := x.outs.map fun f => { f with reserved := f.rate, made := [] } }
      | none => s
    else s
  | _, _ => s

/-- Test every actor of a core again: a run-queue entry or a TASKID may have become free. -/
def State.tryFireCore (s : State) (core : Nat) : State :=
  s.launches.foldl (fun s e => e.2.actors.foldl (fun s x => if x.2.core = core then s.tryFire e.1 x.1 else s) s) s

/-! ### Delivery (R34, R35) -/

/-- A dead letter (R325). -/
def State.deadLetter (s : State) (launch : Nat) (handle : Word) (x : Item) : State :=
  match s.launch? launch with
  | none => s
  | some l =>
    let size := 2 ^ (l.dlqLog + 4)
    if size ≤ l.dlqCount then s.ras 6 0x68 2 l.queue l.dlq.toNat x.sender
    else
      let bs := toBytes 64 x.data.toNat ++ toBytes 8 handle.toNat ++ toBytes 8 x.sender.toNat ++ toBytes 8 0 ++
        toBytes 8 (l.dlqCount + 1) ++ toBytes 32 0
      let s := (s.launchWrite l.via (l.dlq + BitVec.ofNat 64 (128 * (l.dlqCount % size))) bs).2
      s.onLaunch launch fun l => { l with dlqCount := l.dlqCount + 1 }

inductive Delivered where
  | ok | full | noactor
  deriving DecidableEq, Repr

/-- The handle of an input FIFO (R207). -/
def fifoHandle (a f : Nat) : Word := BitVec.ofNat 64 (a * 256 + f)

/-- Deliver an item to an input FIFO, per the actor's state. -/
def State.deliver (s : State) (launch a f : Nat) (x : Item) : Delivered × State :=
  let x : Item := { x with since := s.dev.cycle }
  match s.actor? launch a with
  | none => (.noactor, s)
  | some act =>
    if act.state = .exited then (.noactor, s.deadLetter launch (fifoHandle a f) x)
    else match act.ins[f]? with
      | none => (.noactor, s)
      | some q =>
        if q.cap ≤ q.items.length then (.full, s)
        else
          let s := s.onActor launch a fun y => y.onIn f fun q => { q with items := q.items ++ [x] }
          if act.state = .placed then
            (.ok, ((s.putItem act.core q q.items.length x.data).latchCore act.core 2).tryFire launch a)
          else (.ok, s.imageItem launch act.image (imageOffset (act.ins ++ act.outs) f) q.items.length x.data)

/-- The output FIFO, of those of an actor that are linked to one input FIFO, whose first held item was written first. -/
def Actor.nextHeld (x : Actor) (link : Nat × Nat) : Option (Nat × Item) :=
  let heads := (List.range x.outs.length).filterMap fun o => (x.outs[o]?).bind fun q =>
    if q.link = some link then q.held.head?.map fun i => (o, i) else none
  heads.foldl (fun best h => match best with
    | some b => if h.2.order < b.2.order then some h else best
    | none => some h) none

/-- Deliver the held items of an actor for one input FIFO, in the order in which they were written, as long as there is room (R35,
spec/02_machine_notes.md R49). -/
def State.deliverHeld (s : State) (launch a : Nat) (link : Nat × Nat) : Nat → State
  | 0 => s
  | n + 1 =>
    match (s.actor? launch a).bind fun x => x.nextHeld link with
    | none => s
    | some (o, x) =>
      match s.deliver launch link.1 link.2 { x with producer := some (a, o) } with
      | (.full, s) => s
      | (_, s) => (s.onActor launch a fun y => y.onOut o fun q => { q with held := q.held.tail }).deliverHeld launch a link n

def State.retryHeld (s : State) (launch a o : Nat) : State :=
  match s.actor? launch a with
  | some x => match x.outs[o]?.bind fun q => q.link with
    | some link => s.deliverHeld launch a link (x.outs.map fun q => q.held.length).sum
    | none => s
  | none => s

/-- Retry the held deliveries of every output FIFO linked to an input FIFO, in the producers' order. -/
def State.retryInto (s : State) (launch a f : Nat) : State :=
  match s.launch? launch with
  | none => s
  | some l =>
    l.actors.foldl (fun s e => (List.range e.2.outs.length).foldl (fun s o =>
      if (e.2.outs[o]?.bind fun q => q.link) = some (a, f) then s.retryHeld launch e.1 o else s) s) s

/-- A delivered item could still lose to its actor's exit in this cycle (R34): the actor fires, and the long op that delivered the item
must not be told yet. -/
def State.exposed (s : State) (launch key op : Nat) : Bool :=
  (s.launch? launch).any fun l => l.actors.any fun a => a.2.firing &&
    a.2.ins.any fun q => q.items.any fun x => x.sent == some (key, op) && x.since == s.dev.cycle

/-- The sender of an item learns that it found no actor (R34). -/
def State.loseSent (s : State) (x : Item) : State :=
  match x.sent with
  | none => s
  | some (key, op) => s.onTask key fun t =>
    { t with long := t.long.map fun l => if l.op = op then { l with vals := [2, 0] } else l,
             sched := if t.sched.sent = some op then { t.sched with sentLost := true } else t.sched }

/-- The exit is taken before the messages of its cycle: those that were delivered in it go to the dead-letter queue (R34). -/
def State.exitFirst (s : State) (launch a : Nat) (act : Actor) : State :=
  let now (q : Fifo) : List Item := q.items.filter fun x => x.since == s.dev.cycle
  (List.range act.ins.length).foldl (fun s f => match act.ins[f]? with
    | some q => (now q).foldl (fun s x => (s.deadLetter launch (fifoHandle a f) x).loseSent x) s
    | none => s) s

/-- Room returns to a producer's output FIFO, and its firing condition is tested (R35). -/
def State.returnRoom (s : State) (launch : Nat) (p : Nat × Nat) : State :=
  (s.onActor launch p.1 fun x => x.onOut p.2 fun q => { q with unreturned := q.unreturned - 1 }).tryFire launch p.1

/-- An actor exits (R37): its input items are discarded and its ranges are free; held deliveries are still made. -/
def State.exitActor (s : State) (launch a : Nat) : State :=
  match s.actor? launch a with
  | none => s
  | some act =>
    if act.state = .exited then s
    else
      let s := (s.exitFirst launch a act).onActor launch a fun x =>
        { x with state := .exited, firing := false, ins := x.ins.map fun q => { q with items := [] },
                 outs := x.outs.map fun q => { q with reserved := 0, made := [] } }
      let s := (List.range act.outs.length).foldl (fun s o => s.retryHeld launch a o) s
      (List.range act.ins.length).foldl (fun s f => s.retryInto launch a f) s

/-- A firing ends with `done`: the rate is removed from each input, the items written are delivered, each as a release at device scope
(R35), and the condition is tested again; with `done.exit` the actor exits instead (spec/05_scalar.md R107). -/
def State.endFiring (s : State) (launch a : Nat) (exit : Bool) : State :=
  match s.actor? launch a with
  | none => s
  | some act =>
    let gone := act.ins.map fun q => q.items.take q.rate
    let took (q : Fifo) : Fifo := { q with items := q.items.drop q.rate, head := q.head + min q.rate q.items.length }
    let gave (q : Fifo) : Fifo :=
      { q with reserved := 0, made := [], held := q.held ++ q.made.map fun x => { x with scope := .device }, unreturned := q.unreturned + q.made.length,
               head := q.head + q.made.length }
    let s := s.onActor launch a fun x =>
      { x with firing := exit, lastEnd := s.dev.cycle, ins := x.ins.map took, outs := x.outs.map gave }
    let s := (gone.flatMap fun xs => xs.filterMap Item.producer).foldl (fun s p => s.returnRoom launch p) s
    let s := (List.range act.outs.length).foldl (fun s o => s.retryHeld launch a o) s
    let s := (List.range act.ins.length).foldl (fun s f => s.retryInto launch a f) s
    if exit then s.exitActor launch a else s.tryFire launch a

/-! ### Swapping (R36) -/

def rangesMeet (a b : Nat × Nat) : Bool := a.1 < b.1 + b.2 && b.1 < a.1 + a.2

/-- Local-store ranges of a core that footprints of resident tasks hold. -/
def State.footRanges (s : State) (core : Nat) : List (Nat × Nat) :=
  (s.allTasks.filter fun e => e.2.sched.core == core && e.2.holdsEntry).flatMap fun e => e.2.foot.map fun f => (f.off, f.len)

/-- Ranges of the actors placed on a core. -/
def State.actorRanges (s : State) (core : Nat) : List (Nat × Nat) :=
  s.launches.flatMap fun e =>
    (e.2.actors.filter fun x => x.2.core == core && x.2.state == .placed).flatMap fun x => x.2.ranges

/-- Ranges that a footprint on the core may not overlap (R331). -/
def State.takenRanges (s : State) (core : Nat) : List (Nat × Nat) := s.footRanges core ++ s.actorRanges core

def anyMeet (xs ys : List (Nat × Nat)) : Bool := xs.any fun x => ys.any fun y => rangesMeet x y

/-- ACTOR_SWAP_IN: a swapped-out actor whose firing condition holds comes back when its ranges are free; the condition is
tested there. -/
def execActorSwapIn (launch actor : Nat) (s : State) : Result :=
  .next <|
    match s.actor? launch actor with
    | none => s
    | some x =>
      if x.state = .swapped ∧ x.ready ∧ !anyMeet x.ranges (s.takenRanges x.core) then
        let fs := x.ins ++ x.outs
        let put (s : State) (f : Fifo) : State :=
          (List.range f.items.length).foldl (fun s i => s.putItem x.core { f with head := 0 } i ((f.items[i]?.map Item.data).getD 0)) s
        ((fs.foldl put s).onActor launch actor fun x =>
          { x with state := .placed, ins := x.ins.map fun f => { f with head := 0 }, outs := x.outs.map fun f => { f with head := 0 } }).tryFire
            launch actor
      else s

/-- HELD_DELIVERY_RETRY: held items go to an input FIFO that has room again (R35). -/
def execHeldDeliveryRetry (launch actor fifo : Nat) (s : State) : Result :=
  .next ((s.retryInto launch actor fifo).tryFire launch actor)

end Sys2Proof.Machine
end

