-- ==== Sys2Proof/Machine/Jumps.lean ====
section
/-! DEFINITION. Transfers of control, majors 0x20 to 0x24 (spec/05_scalar.md R102-R106, R108, spec/03_encoding.md R54, R55,
R79). -/

namespace Sys2Proof.Machine

open Sys2Proof

/-- The TGT bit of a slot of a Sorrel handler's image (spec/19_bank.md R307); line i of the image lies at code address 64·i. -/
def State.imageTarget (s : State) (u : Nat) (target : Word) : Bool :=
  match (s.unit u).running with
  | none => false
  | some (r, _) =>
    match ((s.unit u).entries.find? r.entry).bind fun e => e.lines[target.toNat / 64]? with
    | some l => pcShape target && lineTgt l (target.toNat % 8)
    | none => false

/-- The check of a transfer by the task in focus (R55). -/
def State.myTarget (s : State) (target : Word) : Target × State :=
  match s.t.kind with
  | .sorrel u => (if s.imageTarget u target then .ok else .bad, s)
  | _ => s.checkTarget s.t.sched.core (s.rootOf s.t) s.t.isHandler target

/-- Check a target and go on with `k` if it passes; the rejected target goes into the trap record. -/
def State.toTarget (s : State) (target : Word) (k : State → State) : State :=
  match s.myTarget target with
  | (.ok, s) => k s
  | (.bad, s) => s.trapVa 0x03 target
  | (.fault c va, s) => s.trapVa c va
  | (.storage a p, s) => s.meetStorage (lineOf target) a p
  | (.wait, s) => s.hold

def State.transfer (s : State) (target : Word) : State := s.toTarget target fun s => s.jump target

/-- R79. -/
def execNop (o : OpS) (s : State) : Result := .next (gated Rows.nop (.s o) s State.advance)

/-- R106: the code goes into AUX; resume continues after the `brk`. -/
def execBrk (o : OpS) (s : State) : Result :=
  .next (gated Rows.brk (.s o) s fun s => s.trapWith 0x78 { aux := o.imm.setWidth 16, passed := true })

/-- R102. -/
def execBr (o : OpB) (s : State) : Result := .next (gated Rows.br (.b o) s fun s => s.transfer (s.relTarget o))

/-- R102: as `br`; the two differ in fetch prediction alone. -/
def execJmp (o : OpB) (s : State) : Result := .next (gated Rows.jmp (.b o) s fun s => s.transfer (s.relTarget o))

/-- R103: the target is checked, then the return address is pushed. -/
def execCall (o : OpB) (s : State) : Result :=
  .next (gated Rows.call (.b o) s fun s =>
    s.toTarget (s.relTarget o) fun s =>
      match s.pushReturn (nextPc s.t.pc) with
      | (.ok r _, s) => (s.onT fun t => { t with rets := r }).jump (s.relTarget o)
      | (.trap c, s) => s.trap c)

/-- R103: the top entry is checked, then popped. -/
def execRet (o : OpB) (s : State) : Result :=
  .next (gated Rows.ret (.b o) s fun s =>
    match s.topReturn with
    | (.ok r target, s) =>
      s.toTarget target fun s => (s.onT fun t => { t with rets := { r with depth := r.depth - 1 } }).jump target
    | (.trap c, s) => s.trap c)

/-- R104. -/
def execJr (o : OpB) (s : State) : Result := .next (gated Rows.jr (.b o) s fun s => s.transfer (s.readW o.sa))

/-- R105. -/
def execLoop (o : OpB) (s : State) : Result :=
  .next (gated Rows.loop (.b o) s fun s =>
    let x := s.readW o.sa
    if x = 0 then s.advance
    else if x = 1 then (s.writeW o.sa 0).advance
    else s.toTarget (s.relTarget o) fun s => (s.writeW o.sa (x - 1)).jump (s.relTarget o))

end Sys2Proof.Machine
end

