-- ==== Sys2Proof/Machine/Retire.lean ====
section
/-! DEFINITION. How tasks end: `done` and `done.exit` (spec/05_scalar.md R107), retirement and termination
(spec/13_traps.md R231, spec/14_traps_notes.md R247), the write-back of footprints (spec/21_launch_storage.md R331), and store
faults at trap points (spec/13_traps.md R226-R228). -/

namespace Sys2Proof.Machine

open Sys2Proof

/-! ### Store faults at a trap point (R226, R227) -/

/-- The records of a task in its core's store-fault queue, oldest first. -/
def State.faultsOf (s : State) (t : Task) : List FaultRec := (s.core t.sched.core).sfq.filter fun r => r.tid == t.sys.tid

/-- Trap 0x30 or 0x31 if the task has records or lost one. -/
def State.storeTrap (s : State) (k : State → State) : State :=
  let rs := s.faultsOf s.t
  let s := s.onT fun t => { t with faulted := [] }
  let r : TrapRec := { prec := false, g4 := (rs.head?.map FaultRec.va).getD 0, g5 := BitVec.ofNat 64 rs.length }
  if s.t.lost then (s.onT fun t => { t with lost := false }).trapWith 0x31 r
  else if rs.isEmpty then k s
  else s.trapWith 0x30 r

/-- The task waits with its unresolved stores for a page service: it is suspended in place of holding its slot (R342). -/
def State.waitStores (s : State) : State :=
  let ops := (s.t.stores.filter Store.waits).map Store.op
  let mine (v : Service) : Bool := v.open_ && v.waiters.any fun w => ops.any fun op => w == .store s.cur op
  let join (v : Service) : Service :=
    if mine v && !v.waiters.contains (.task s.cur) then { v with waiters := v.waiters ++ [.task s.cur] } else v
  if s.teasel.any fun e => e.2.services.any mine then
    let joined (e : Nat × Teasel) : Nat × Teasel := (e.1, { e.2 with services := e.2.services.map join })
    ({ s with teasel := s.teasel.map joined }).suspend
  else s.hold

/-- Wait until the task's stores are resolved, then report a failed service that one of them met (R345), then their faults. -/
def State.drained (s : State) (k : State → State) : State :=
  match s.t.sched.storeFail with
  | some (c, va, st) =>
    (s.onT fun t => { t with sched := { t.sched with storeFail := none } }).trapWith c { g4 := va, g5 := st.setWidth 64 }
  | none => if s.t.stores.isEmpty then s.storeTrap k else if s.t.stores.any Store.waits then s.waitStores else s.hold

/-! ### Answers (spec/11_ordering_sync.md R210, R211, spec/17_edge.md R297) -/

/-- Answer a request: a `deleg` keeps the answer until it lands; the tag of an `amsg` completes, with a copy fault where the
server task failed. STATUS 0 is DONE, 1 REFUSED, 2 FAILED; `ran` says that the routine ran. -/
def State.answer (s : State) (r : Request) (value : Word) (status cause : Nat) (ran : Bool) : State :=
  match r.op, r.tag with
  | some op, _ => s.onTask r.task fun t =>
      { t with long := t.long.map fun l => match l.act with
        | .deleg c sc none => if l.op = op then { l with act := .deleg c sc (some (value, status, cause, ran)) } else l
        | _ => l }
  | none, some tag =>
    let s := s.onCore r.core fun c => { c with amsgs := c.amsgs - 1 }
    let s := if status = 0 then s
      else s.onTask r.task fun t => { t with copyFaults := t.copyFaults.put tag { va := r.address, cause := cause } }
    s.completeTag r.task tag
  | none, none => s

/-! ### Edge activations (spec/17_edge.md R288, R292) -/

/-- An activation has ended: its phase moves on. Ended otherwise than by `ecomb`, it contributes nothing, or rejects, and the
record takes its cause. The contribution of an edge activation arrives then (R291). -/
def VetchSet.activationEnd (v : VetchSet) (key : Nat) (cause : Option Nat) : VetchSet :=
  if v.jobs.any fun j => j.task == some key then
    let passed (j : EdgeJob) : EdgeJob :=
      { j with task := none, phase := j.phase + 1, contribution := if cause.isSome then none else j.contribution }
    let came (i : Nat) : Bool := (v.jobs[i]?).any fun j => j.task == some key && j.phase == 1
    let arrived := v.arrived ++ (List.range v.jobs.length).filter came
    let v := { v with arrived := arrived, jobs := v.jobs.map fun j => if j.task = some key then passed j else j }
    match cause with
    | some c => if v.cause = 0 then { v with cause := 0x5E, inner := c } else v
    | none => v
  else v

def State.endEdge (s : State) (key : Nat) (cause : Option Nat) : State :=
  { s with clusters := s.clusters.map fun e => (e.1, { e.2 with vetch := e.2.vetch.map fun v => v.activationEnd key cause }) }

/-! ### Retirement -/

/-- A retirement that counts in NKILL, and in FIRSTTASK and FIRSTCAUSE if FIRSTTASK is still zero (R231, R45, R248). -/
def Launch.noteKilled (l : Launch) (tid : Word) (cause : Nat) : Launch :=
  let l := { l with nkill := min 255 (l.nkill + 1) }
  if l.firstTask = 0 then { l with firstTask := tid, firstCause := cause } else l

/-- Tasks of a team that are not dispatched yet. -/
def Launch.teamTodo (l : Launch) (team : Nat) : Bool := l.todo.any fun i => i / l.record.tsize.max 1 == team

/-- The team loses a task; with its last one it frees its team slot (spec/21_launch_storage.md R329). -/
def Launch.leaveTeam (l : Launch) (team : Nat) (live : Bool) : Launch :=
  match l.teams.find? team with
  | none => l
  | some x =>
    let x := if live then { x with live := x.live - 1 } else x
    let x := if x.live = 0 && !l.teamTodo team then { x with die := none, open_ := false } else x
    { l with teams := l.teams.put team x }

/-- Count a retirement in the launch. Those that a `kill` made are entered when the `kill` completes (R248). -/
def State.countRetired (s : State) (t : Task) (cause : Option (Nat × Bool)) : State :=
  s.onLaunch t.launch fun l =>
    let l := { l with nret := l.nret + 1, liveTasks := l.liveTasks - 1, ended := s.dev.cycle }
    let l := match cause with
      | some (c, false) => l.noteKilled t.sys.tid c
      | _ => l
    if t.kind = .launched then l.leaveTeam t.team true else l

/-- Retire a task: its slot, frame and tile are free, and what waits for it goes on. -/
def State.retireTask (s : State) (key : Nat) (cause : Option (Nat × Bool)) (exit : Bool := false) : State :=
  match s.task? key with
  | none => s
  | some t =>
    let core := t.sched.core
    let s := s.retireTiles key core
    let s := s.onCore core fun c =>
      { c with trapq := c.trapq.filter (fun x => some x.2 != t.sched.slot), frames := c.frames.filter (· != key) }
    let s := (s.dropTask key).countRetired t cause
    let s := match t.kind, cause with
      | .firing a, none => s.endFiring t.launch a exit
      | .firing a, some _ => s.exitActor t.launch a
      | .edge _ _, c => s.endEdge key (c.map Prod.fst)
      | .delegated, some (c, _) => match t.request with
        | some r => s.answer r 0 2 c true
        | none => s
      | _, _ => s
    s.tryFireCore core

/-! ### Footprints with WB (R331) -/

/-- The places and bytes of the footprints to be copied back. -/
def State.backPlaces (s : State) (w : Via) (t : Task) : List Footprint → Engine (List (Nat × Byte)) × State
  | [] => (.ok [], s)
  | f :: fs => afterE (s.launchPlaces w f.src f.len) fun ps s =>
    let bs := toBytes f.len (s.lsLoad t f.off f.len)
    afterE (s.backPlaces w t fs) fun rest s => (.ok ((ps.map Prod.fst).zip bs ++ rest), s)

/-- Copy the write-back footprints of a task: a plain task's to their source ranges, a versioned task's into its version. -/
def State.copyBack (s : State) (key : Nat) : Engine Unit × State :=
  match s.task? key with
  | none => (.ok (), s)
  | some t =>
    match s.launch? t.launch, t.filled && t.foot.any fun f => f.wb with
    | some l, true => afterE (s.backPlaces (l.viaTask key) t (t.foot.filter fun f => f.wb)) fun ps s =>
      let put (s : State) (e : Nat × Byte) : State :=
        if t.versioned && spaceOf e.1 == .dram then s.onTask key fun t => t.putVersion e.1 [e.2]
        else s.enginePut (l.viaTask key) e.1 e.2
      (.ok (), ps.foldl put s)
    | _, _ => (.ok (), s)

/-! ### Termination (R231, R247) -/

/-- The subject of the handler activation on a core. -/
def State.subjectOn (s : State) (core : Nat) : Option Nat :=
  (s.task? (2 ^ 64 + core)).bind fun t => match t.kind with
    | .handler k => some k
    | _ => none

/-- A long op whose reply a terminated task waits out: every one (R231), but for an arrival that is not made any more
(spec/11_ordering_sync.md R204). -/
def LongOp.waitedOut (l : LongOp) : Bool :=
  match l.act with
  | .barv _ none => false
  | _ => true

/-- What a terminated task still waits for: its stores, its commands that go on, and the replies of its long ops. -/
def Task.busy (t : Task) : Bool := !t.stores.isEmpty || !t.held.isEmpty || t.long.any LongOp.waitedOut

/-- A terminated task retires once its stores are resolved and its replies have arrived; the subject of an activation waits
for its end. -/
def State.reap (s : State) (key : Nat) : State :=
  match s.task? key with
  | none => s
  | some t =>
    match t.sched.dying with
    | none => s
    | some (c, byKill) =>
      if t.busy || s.subjectOn t.sched.core = some key then s
      else if t.versioned then s.retireTask key (some (c, byKill))
      else match s.copyBack key with
        | (.wait, s) => s
        | (_, s) => s.retireTask key (some (c, byKill))

/-- Terminate a task with a cause, from any state. -/
def State.terminate (s : State) (key cause : Nat) (byKill : Bool) : State :=
  match s.task? key with
  | none => s
  | some t =>
    if t.sched.dying.isSome then s
    else
      let s := s.onCore t.sched.core fun c =>
        { c with trapq := c.trapq.filter (fun x => some x.2 != t.sched.slot), sfq := c.sfq.filter fun r => r.tid != t.sys.tid }
      let s := (s.logZeros t.sched.core key t.doomed).onTask key fun t =>
        let t := t.closeSlots
        { t with version := [], scratch := [], lost := false, copyFaults := [], mfault := none, view := none,
                 sched := { t.sched with dying := some (cause, byKill), wait := none, heldAt := none, late := [],
                                         mquery := none, doneQueue := none, debug := none, sealSince := none,
                                         sent := none } }
      s.reap key

/-- Reap every terminated task that can retire now. -/
def State.reapAll (s : State) : State :=
  (s.allTasks.filter fun e => e.2.sched.dying.isSome).foldl (fun s e => s.reap e.1) s

/-! ### `done` (R107) -/

/-- Steps 1 to 3 of R107: OUTCNT, stores, copies; then the tile's queued commands (spec/15_matrix.md R271). -/
def State.ending (s : State) (matrix : Bool) (k : State → State) : State :=
  if 0 < s.t.outcnt then s.closeSlots.park .outcnt
  else s.matrixTrap matrix matrix fun s => s.drained fun s =>
    let s := s.closeSlots
    if !s.t.held.isEmpty || s.t.tagCount.any fun e => e.2 != 0 then s.hold
    else match s.t.faultIn (BitVec.allOnes 64) with
      | some e => s.reportCopyFault e
      | none =>
        let core := s.t.sched.core
        let q := s.t.sched.doneQueue.getD (s.ownQueue s.cur core)
        let s := s.onT fun t => { t with sched := { t.sched with doneQueue := some q } }
        let u := (s.core core).munit
        let waits := u.queue.any (fun c => q.contains c.op) || u.tile.any fun t => t.closing.any fun r => q.contains r.op
        if waits then s.hold else k s

/-- The firing has items to deliver: its end is a release at device scope (spec/01_machine.md R35). -/
def State.delivers (s : State) : Bool :=
  match s.t.kind with
  | .firing a => (s.actor? s.t.launch a).any fun x => x.outs.any fun q => !q.made.isEmpty
  | _ => false

/-- Step 4: the release of what a firing delivers, the footprints, the version, and the retirement. -/
def State.finish (exit : Bool) (s : State) : State :=
  match (if s.delivers then s.fenceW .device else (true, s)) with
  | (false, s) => s.hold
  | (true, s) => match s.copyBack s.cur with
    | (.wait, s) => s.hold
    | (.fault c _, s) => s.terminate s.cur c false
    | (.ok (), s) =>
      if s.t.versioned then if s.publishWaits then s.hold else s.publish.retireTask s.cur none exit
      else s.retireTask s.cur none exit

/-- What `done` traps by the kind of its task (R107, spec/17_edge.md R287). -/
def Kind.doneTrap : Kind → Option Nat
  | .launched | .firing _ => none
  | .edge _ _ => some 0x5B
  | _ => some 0x01

def execDone (o : OpS) (s : State) : Result :=
  .next (gated Rows.done (.s o) s fun s =>
    match s.t.kind.doneTrap with
    | some c => s.trap c
    | none => s.ending true (State.finish false))

/-- R107: the firing ends, then its actor exits. -/
def execDoneExit (o : OpS) (s : State) : Result :=
  .next (gated Rows.doneExit (.s o) s fun s =>
    match s.t.kind with
    | .firing _ => s.ending true (State.finish true)
    | _ => s.trap 0x01)

/-! ### Taking a slot (spec/01_machine.md R25, R27, R42) -/

/-- A task takes a slot: its frame comes into the register cache, its event latch is clear, and it can issue from the next
cycle on. A line that cannot be filled traps 0x72 (spec/13_traps.md R233), a lost one with its cause (R236). -/
def State.takeSlot (s : State) (key slot : Nat) : State :=
  let now := s.dev.cycle
  let s := s.onTask key fun t =>
    { t with sched := { t.sched with status := .issuing, slot := some slot, slotTime := now, latch := 0, ableAt := now + 1,
                                     wait := none, heldAt := none, yielded := false } }
  match s.fillFrame key with
  | (none, s) => s.onTask key fun t => { t with sched := { t.sched with started := true } }
  | (some c, s) => match s.task? key with
    | some t => s.lateTrap key c t.pc {}
    | none => s

end Sys2Proof.Machine
end

