-- ==== Sys2Proof/Machine/Barriers.lean ====
section
/-! DEFINITION. Barriers and group queries, majors 0xB0 and 0xB1 (spec/11_ordering_sync.md R204-R206), and the release and
acquire that instructions make (R188). -/

namespace Sys2Proof.Machine

open Sys2Proof

/-- Release at a scope, then go on; the task holds until its writes have reached it (R188). -/
def State.releaseThen (s : State) (scope : Scope) (k : State → State) : State :=
  match s.fenceW scope with
  | (true, s) => k s
  | (false, s) => s.hold

/-- Acquire at a scope, then go on, once the earlier loads have returned (R159, R188). -/
def State.acquireThen (s : State) (scope : Scope) (k : State → State) : State :=
  if s.t.loadsOut then s.hold else k (s.fenceR s.t.sched.core scope)

/-! ### Tokens (R204) -/

def token (g phase : Nat) : Word := BitVec.ofNat 64 (g % 256 * 65536 + phase % 65536)

def Group.passed (g : Group) (phase : Nat) : Bool := (g.c.toNat + 65536 - phase - 1) % 65536 < 32768

def State.group? (s : State) (launch g : Nat) : Option Group := (s.launch? launch).bind fun l => l.groups[g]?

/-- The token has passed. -/
def State.tokenPassed (s : State) (launch : Nat) (t : Word) : Bool :=
  (s.group? launch (field t.toNat 23 16)).any fun g => g.passed (t.toNat % 65536)

/-- The check of a token. -/
def State.checkToken (s : State) (t : Word) (k : State → State) : State :=
  if t.toNat / 2 ^ 24 ≠ 0 then s.trap 0x61
  else if (s.group? s.t.launch (field t.toNat 23 16)).isNone then s.trap 0x65
  else k s

/-- The arrival of a long op `barv`, once its core holds fewer than 256. None is made for a task that has been terminated (R204,
spec/13_traps.md R231). -/
def State.barvArrive (s : State) (key op : Nat) : State :=
  match s.task? key with
  | none => s
  | some t =>
    match List.find? (fun (l : LongOp) => l.op == op) t.long with
    | some l => match l.act with
      | .barv g none =>
        if t.sched.dying.isSome || s.arrivalFull t.launch g t.sched.core then s
        else
          let (ph, s) := s.arrive t.launch g t.sched.core t.ownTeam
          s.onTask key fun t => { t with long := t.long.map fun l =>
            if l.op = op then { l with vals := [(token g ph).setWidth 512], act := .barv g (some ph) } else l }
      | _ => s
    | none => s

def execBarv (o : OpE) (s : State) : Result :=
  .next (gated Rows.barv (.e o) s fun s =>
    let g := o.imm.toNat % 256
    if s.t.versioned then s.trap 0x0C
    else if (s.group? s.t.launch g).isNone then s.trap 0x65
    else if !inGrps s.t.sys.grps g then s.trap 0x60
    else if 64 ≤ s.t.outcnt then s.park .outcnt
    else s.releaseThen o.scope fun s =>
      let op := s.ops
      (s.issueLong [o.dst] [] (.barv g none)).barvArrive s.cur op)

def execBwait (o : OpE) (s : State) : Result :=
  .next (gated Rows.bwait (.e o) s fun s =>
    let t := s.readW o.a
    if s.t.isMessage then s.trap 0x63
    else s.checkToken t fun s =>
      if s.tokenPassed s.t.launch t then s.acquireThen o.scope State.advance else s.park (.token t))

/-- `btest`: whether the token has passed is read when the reply is formed. -/
def execBtest (o : OpE) (s : State) : Result :=
  .next (gated Rows.btest (.e o) s fun s =>
    let t := s.readW o.a
    s.checkToken t fun s => s.issueLong [.p o.pE] [] (.btest t))

/-! ### `grpq` (R206) -/

/-- The member cores that are placed, in increasing order. -/
def Launch.placedCores (l : Launch) (g : Group) : List Nat :=
  sortNats (g.members.filterMap l.coreOf).eraseDups

/-- A value about a group, as the home cluster has it for a core. -/
def State.groupItem (s : State) (launch core g item j : Nat) : Word :=
  match s.launch? launch, s.group? launch g with
  | some l, some x =>
    let cs := l.placedCores x
    let n := if (l.memberCores x).isSome then cs.length else x.members.length
    match item with
    | 0 => BitVec.ofNat 64 n
    | 1 => x.c.setWidth 64
    | 2 => if cs.contains core then BitVec.ofNat 64 (x.a.get 0 core) else 0
    | 3 => BitVec.ofNat 64 (x.home.getD 0)
    | 4 => (cs[j]?.map fun c => BitVec.ofNat 64 c).getD (BitVec.allOnes 64)
    | _ => if cs.contains core then 1 else 0
  | _, _ => 0

def execGrpq (o : OpE) (s : State) : Result :=
  .next (gated Rows.grpq (.e o) s fun s =>
    let g := o.imm.toNat % 256
    if (s.group? s.t.launch g).isNone then s.trap 0x65
    else s.issueLong [o.dst] [] (.grpq g (o.imm.toNat / 256 % 8) (o.imm.toNat / 2048 % 256)))

end Sys2Proof.Machine
end

