-- ==== Sys2Proof/Machine/Offers.lean ====
section
/-! DEFINITION. Offers, commits and abandons, majors 0xA0 to 0xA2 (spec/09_memory_offers.md R173-R183,
spec/10_offers_notes.md R186, R187, spec/22_launch_notes.md R347). -/

namespace Sys2Proof.Machine

open Sys2Proof

/-! ### What an offer computes (R174) -/

/-- The new value of a location of a type, with the flags of the operation. -/
def offerValue (op : Atomic) (t : Ty) (old b c : Nat) : Nat × Flags :=
  let w := 2 ^ t.width
  let fp (x : Val × Flags) : Nat × Flags :=
    let y := t.fp.form .rne .none 0 x.1
    (y.1, x.2 ||| y.2)
  match op with
  | .add => ((old + b) % w, 0)
  | .min => (if t.intOf old ≤ t.intOf b then old % w else b % w, 0)
  | .max => (if t.intOf old ≥ t.intOf b then old % w else b % w, 0)
  | .and => (old &&& b, 0)
  | .or => (old ||| b, 0)
  | .xor => (old ^^^ b, 0)
  | .swp => (b % w, 0)
  | .cas => (if old % w = b % w then c % w else old % w, 0)
  | .fadd => fp ((t.fp.decode old).add .rne (t.fp.decode b))
  | .fmin => t.fp.minmax false old b
  | .fmax => t.fp.minmax true old b
  | .ffma => fp (Val.fma .rne (t.fp.decode b) (t.fp.decode c) (t.fp.decode old))

/-- `ored`: every lane (R174). -/
def redValue (t : Ty) (old b : Line) : Line × Flags :=
  let lane (i : Nat) : Nat × Flags :=
    offerValue (if t.isInt then .add else .fadd) t (laneOf old t.width i) (laneOf b t.width i) 0
  let xs := (List.range (lanes t.width)).map lane
  (ofLanes t.width (xs.map (·.1)), xs.foldl (fun acc x => acc ||| x.2) 0)

/-- The value that an offer writes, as a line whose low bytes are the location. -/
def OfferOp.value (op : OfferOp) (t : Ty) (old b c : Line) : Line × Flags :=
  match op with
  | .atomic a =>
    let r := offerValue a t (old.toNat % 2 ^ t.width) (b.toNat % 2 ^ t.width) (c.toNat % 2 ^ t.width)
    (BitVec.ofNat 512 r.1, r.2)
  | .red => redValue t old b
  | .commit _ _ => (b, 0)
  | .bank _ _ _ => (old, 0)

/-! ### Operands -/

/-- Operand b or c with its modifiers (R67, R173). -/
def State.offerOperand (s : State) (t : Ty) (x : Src) : Line :=
  match x.reg with
  | .v n =>
    let f (y : Nat) : Nat :=
      if t.isInt then ((t.intMod x.neg x.abs (t.intOf y)) % (2 ^ t.width : Nat)).toNat else t.fp.modify x.neg x.abs y
    ofLanes t.width ((allLanes t.width (s.t.seen.rv n)).map f)
  | _ =>
    let y := (s.readW x.reg).toNat % 2 ^ t.width
    BitVec.ofNat 512
      (if t.isInt then ((t.intMod x.neg x.abs (t.intOf y)) % (2 ^ t.width : Nat)).toNat else t.fp.modify x.neg x.abs y)

/-! ### Replies (R176) -/

/-- The reply word. -/
def Reply.word (r : Reply) : Word :=
  BitVec.ofNat 64 (r.chain * 2 ^ 40 + r.fl.toNat * 2 ^ 32 + r.stamp * 2 ^ 16 + r.cause * 2 ^ 8 + r.reason * 4 + r.kind)

/-- The values of r1, r2, pE and pD. -/
def Reply.values (r : Reply) : List Line :=
  [r.r1, r.word.setWidth 512, if r.kind = 0 || r.kind = 3 then 1 else 0, if r.kind = 1 then 1 else 0]

/-- What r1 receives of an old value: extended by its type in a g register, the line in a v register (R83, R176). -/
def oldValue (t : Ty) (line : Bool) (x : Line) : Line :=
  if line then x
  else if t.isInt then (t.extend (x.toNat % 2 ^ t.width)).setWidth 512
  else BitVec.ofNat 512 (x.toNat % 2 ^ t.width)

/-- The registers that a reply writes. -/
def replyRegs (o : OpE) : List Reg := [o.dst, o.dst.second, .p o.pE, .p o.pD]

/-! ### Decline tables (R178, R180) -/

/-- The next stamp: it skips 0 and those of live entries. -/
def nextStamp (t : DeclineTable) : Nat → Nat → Nat
  | 0, c => c
  | n + 1, c =>
    let c := (c + 1) % 65536
    if c = 0 || t.entries.any fun e => e.stamp == c then nextStamp t n c else c

/-- Make an entry for a decline, in place of the oldest that holds no lease when the table is full. The stamp is 0 where no
entry can be made. -/
def DeclineTable.add (t : DeclineTable) (address : Nat) (ty : Option Ty) (tid : Word) (lease : Option Nat) :
    Nat × DeclineTable :=
  let old := t.entries.findIdx? fun e => e.lease.isNone
  let room := t.entries.length < 64
  if !room && old.isNone then (0, t)
  else
    let es := if room then t.entries else t.entries.eraseIdx (old.getD 0)
    let c := nextStamp { t with entries := es } 66 t.counter
    let e : Decline := { address := address, ty := ty, stamp := c, tid := tid, written := false, lease := lease }
    (c, { entries := es ++ [e], counter := c })

def State.decline (s : State) (pa : Nat) (ty : Option Ty) (tid : Word) (lease : Option Nat) : Nat × State :=
  let k := s.declKey pa
  let (c, t) := (s.mem.decl.get {} k).add pa ty tid lease
  (c, s.onMem fun m => { m with decl := m.decl.set {} k t })

/-- Remove the entry that matches, if one does. -/
def State.undecline (s : State) (pa : Nat) (ty : Option Ty) (stamp : Nat) (tid : Word) : Option Decline × State :=
  let k := s.declKey pa
  let t := s.mem.decl.get {} k
  let hit (e : Decline) : Bool :=
    e.address == pa && e.stamp == stamp && e.tid == tid && (ty.isNone || e.ty == ty) && stamp != 0
  match List.find? hit t.entries with
  | none => (none, s)
  | some e => (some e, s.onMem fun m => { m with decl := m.decl.set {} k { t with entries := t.entries.filter (· != e) } })

/-- The line is held by a lease of this commit's own entry (R180). -/
def State.holdsLease (s : State) (pa : Nat) (ty : Option Ty) (stamp : Nat) (tid : Word) : Bool :=
  (s.mem.decl.get {} (s.declKey pa)).entries.any fun e =>
    e.address == pa && e.stamp == stamp && e.tid == tid && e.ty == ty && stamp != 0 && e.lease.isSome

/-! ### Deciding an offer at its level (R175, R177) -/

/-- Types that a level holds (R175). -/
def levelHolds (scope : Scope) (dram : Bool) (op : OfferOp) (t : Ty) : Bool :=
  if !dram then
    (t == .n32 || t == .n64) && (match op with
      | .atomic .add | .atomic .and | .atomic .or | .atomic .xor | .atomic .swp | .atomic .cas => true
      | .commit _ _ => true
      | _ => false)
  else if scope = .cluster then t.isInt || t == .f32
  else true

/-- The physical address of a store that has not been performed, where its core holds the translation. -/
def State.storePa (s : State) (t : Task) (st : Store) : Option Nat :=
  if st.ls.isSome then none
  else (s.tlbLookup t.sched.core (s.rootOf t) st.va).map fun l => l.address st.va.toNat

/-- The index of an element: n32, i32, n64, i64 (spec/17_edge.md R298). -/
def State.jobIndex (s : State) (j : IJob) : Int :=
  let n := if j.ity < 2 then 4 else 8
  let x := s.lsRead j.core (j.idx + n * j.cursor) n
  if j.ity % 2 = 1 then (BitVec.ofNat (8 * n) x).toInt else x

/-- The address of the next element of a job. -/
def State.jobAddress (s : State) (j : IJob) : Word := j.base + BitVec.ofInt 64 (s.jobIndex j * (2 ^ j.esz : Nat))

/-- The address that a copy reads or writes next. -/
def Copy.awaits (c : Copy) : Word := if c.got.isEmpty then c.next.1 else c.next.2.1

/-- Requests in the queue of the home of an address: those that the agenda puts there, and the accesses that wait there for a lease
(R177, R180). -/
def State.homeQueue (s : State) (pa : Nat) : Nat :=
  let here (a : Nat) : Bool := s.declKey a == s.declKey pa && s.leased a
  let one (t : Task) : Nat :=
    (t.stores.filter fun st => (s.storePa t st).any here).length +
    (t.long.map fun l => match l.act with
      | .load _ _ _ _ us => (us.filter fun u => u.data.isNone && u.pa.any here).length
      | .ldf _ _ (some a) _ | .ldft _ _ (some a) _ => if l.vals.isEmpty && here a then 1 else 0
      | .offer o => if o.reply.isNone && o.owner.isNone && o.arrived.isSome && here o.pa then 1 else 0
      | _ => 0).sum
  let copies (e : Nat × Core) : Nat := (e.2.copies.filter fun c => (s.enginePa e.1 c.root c.awaits).any here).length
  let jobs (e : Nat × Cluster) : Nat := (e.2.jobs.filter fun j => (s.enginePa j.core j.root (s.jobAddress j)).any here).length
  let guards (e : Nat × List GuardReq) : Nat := if here e.1 then (e.2.filter fun r => !r.met).length else 0
  s.mem.busy.get 0 (s.devChannel pa) + (s.allTasks.map fun e => one e.2).sum + (s.cores.map copies).sum +
    (s.clusters.map jobs).sum + (s.mem.guards.map guards).sum +
    if s.dev.rasq.isEmpty || !here s.dev.rasAt then 0 else s.dev.rasq.length

/-- The reason for which an offer to DRAM is declined, in the order of R177. One that OD sends to the home meets its queue first. -/
def State.declineReason (s : State) (core : Nat) (o : Offer) (t : Ty) : Option Nat :=
  let atHomeSlice := o.scope == .die || o.scope == .device || o.scope == .system
  if !levelHolds o.scope true o.op t then some 2
  else if (atHomeSlice || o.od) && o.arrived.isNone && 32 ≤ s.homeQueue o.pa then some 1
  else if o.od then some 11
  else if o.scope = .die && homeDie o.pa ≠ dieOf core then some 4
  else if (o.scope == .die || o.scope == .device) && s.needsRecall (some core) o.pa then some 3
  else none

/-- The location as the home has it, for a core: its dirty bytes are sent home first, and another die's RDC copy of the
issuing die is self-invalidated. -/
def State.offerHome (s : State) (core pa : Nat) : Line × State :=
  (s.atHome core pa).homeRead pa

/-- Bytes of the location, at the bottom of a line. -/
def locOf (t : Ty) (wide : Bool) (pa : Nat) (l : Line) : Line :=
  if wide then l else BitVec.ofNat 512 (sliceLine l (pa % 64) (t.width / 8))

def State.putLoc (s : State) (t : Ty) (wide : Bool) (pa : Nat) (x : Line) : State :=
  if wide then s.homeWrite pa x allBytes
  else s.homeWrite pa (placeLine x.toNat (pa % 64) (t.width / 8)) (maskOf (pa % 64) (t.width / 8))

/-- An offer to DRAM. -/
def State.decideDram (s : State) (key core : Nat) (tid : Word) (o : Offer) (t : Ty) (wide : Bool) : Reply × State :=
  match s.declineReason core o t with
  | some r =>
    let (l, s) := s.offerHome core o.pa
    let (c, s) := s.decline o.pa (some t) tid none
    ({ kind := 1, reason := r, stamp := c, r1 := oldValue t wide (locOf t wide o.pa l) }, s)
  | none =>
    if o.scope = .core then
      let (l, s) := s.coreRead core .core o.nc true o.pa
      let old := locOf t wide o.pa l
      let (x, f) := o.op.value t old o.b o.c
      let n := if wide then 64 else t.width / 8
      let s := s.coreWrite core .core o.nc o.pa (placeLine x.toNat (o.pa % 64) n) (maskOf (o.pa % 64) n) key
      ({ fl := f, r1 := oldValue t wide old }, s)
    else
      let (l, s) := s.offerHome core o.pa
      let old := locOf t wide o.pa l
      let (x, f) := o.op.value t old o.b o.c
      ({ fl := f, r1 := oldValue t wide old }, s.putLoc t wide o.pa x)

/-- A commit at the home or port that holds its stamp (R179, R180). `old` is the location now. -/
def State.decideCommit (s : State) (tid : Word) (o : Offer) (t : Ty) (wide : Bool) (stamp : BitVec 16) (chain : Nat)
    (old : Line) (write : Line → State → State) : Reply × State :=
  let (e, s) := s.undecline o.pa (some t) stamp.toNat tid
  let same := locOf t wide 0 old == locOf t wide 0 o.old
  let good := match e with
    | some d => (!d.written && same) || d.lease.isSome
    | none => false
  if good then ({ kind := 3, chain := chain, r1 := oldValue t wide o.b }, write o.b s)
  else
    let lease := chain = 3
    let (c, s) := s.decline o.pa (some t) tid (if lease then some (s.dev.cycle + 4096) else none)
    ({ kind := 1, reason := if lease then 10 else 9, stamp := c, chain := if lease then 3 else chain + 1,
       r1 := oldValue t wide old }, s)

/-- An offer at a bank of local store: it always executes; a commit compares (R173, R179). -/
def bankOffer (o : Offer) (t : Ty) (wide : Bool) (old : Line) : Reply × Option Line :=
  match o.op with
  | .commit _ chain =>
    if locOf t wide 0 old = locOf t wide 0 o.old then
      ({ kind := 3, chain := chain, r1 := oldValue t wide o.b }, some o.b)
    else ({ kind := 1, reason := 9, chain := min 3 (chain + 1), r1 := oldValue t wide old }, none)
  | op =>
    let (x, f) := op.value t old o.b o.c
    ({ fl := f, r1 := oldValue t wide old }, some x)

/-- The location behind a fabric port: control registers, or what the far side answers (log entry 7). -/
def State.portRead (s : State) (space : Space) (pa n : Nat) : Line × State :=
  match space with
  | .control => (BitVec.ofNat 512 (s.ctlRead (pa - 0x8000000000) n), s)
  | _ =>
    let (bs, s) := s.freeBytes n
    (BitVec.ofNat 512 (ofBytes bs), s)

def State.portWrite (s : State) (part key op : Nat) (space : Space) (pa : Nat) (bs : List Byte) : State :=
  match space with
  | .control => s.ctlWrite (pa - 0x8000000000) bs.length (ofBytes bs)
  | _ => s.writeFar part key op pa bs

/-- An offer behind a fabric port (R175). -/
def State.decidePort (s : State) (key op core : Nat) (space : Space) (tid : Word) (o : Offer) (ty : Ty) (wide : Bool) : Reply × State :=
  let n := if wide then 64 else ty.width / 8
  let (x, s) := s.portRead space o.pa n
  let part := s.corePart core
  match o.op with
  | .commit stamp chain =>
    s.decideCommit tid o ty wide stamp chain x fun y s => s.portWrite part key op space o.pa (toBytes n y.toNat)
  | what =>
    if !levelHolds o.scope false what ty then
      let (c, s) := s.decline o.pa (some ty) tid none
      ({ kind := 1, reason := 2, stamp := c, r1 := oldValue ty wide x }, s)
    else
      let (y, f) := what.value ty x o.b o.c
      let s := match space, what with
        | .control, _ => s.portWrite part key op space o.pa (toBytes n y.toNat)
        | _, .atomic a => (s.emit (.atomic part o.pa a (ty == .n64) (o.b.setWidth 64) (o.c.setWidth 64))).markWritten o.pa
        | _, _ => s
      ({ fl := f, r1 := oldValue ty wide x }, s)

/-- An offer waits at its home: the line is held, or others that have waited longer go first (R180). -/
def State.offerWaits (s : State) (o : Offer) : Bool :=
  s.leased o.pa || (spaceOf o.pa == .dram && s.scrubbing o.pa) ||
    (s.waitingAt o.pa).any fun n => match o.arrived with
      | some m => n < m
      | none => true

/-- The task may send its offer now: no earlier access of its own holds it (R190, R195, spec/12_ordering_notes.md R215). -/
def Task.offerSent (t : Task) (l : LongOp) (o : Offer) (n : Nat) : Bool :=
  let core := t.sched.core
  let strength : Strength := if o.owner.isNone && homeDie o.pa == dieOf core then .both else .weak
  !(t.loadsHeld l.op || (if o.owner = some core then t.lsBehind l.op o.pa n else t.clash l.op o.va.toNat n) ||
    t.strongWait l.op strength)

/-- Decide an offer of a task; `none`: it must still wait. -/
def State.decideOffer (s : State) (key : Nat) (l : LongOp) (o : Offer) (wide : Bool) : Option (Reply × State) :=
  match s.task? key with
  | none => none
  | some t =>
    let core := t.sched.core
    let tid := t.sys.tid
    let ty := o.ty.getD .n64
    let n := if wide then 64 else ty.width / 8
    if !t.offerSent l o n then none
    else match o.owner with
      | some owner =>
        let old := BitVec.ofNat 512 (s.lsRead owner o.pa n)
        let (r, x) := bankOffer o ty wide old
        some (r, match x with
          | some y => s.lsWrite owner o.pa (toBytes n y.toNat)
          | none => s)
      | none =>
        match spaceOf o.pa, o.op with
        | .dram, .commit stamp chain =>
          if s.offerWaits o && !(!s.scrubbing o.pa && s.holdsLease o.pa (some ty) stamp.toNat tid) then none
          else
            let (line, s) := s.offerHome core o.pa
            some (s.decideCommit tid o ty wide stamp chain (locOf ty wide o.pa line) fun x s => s.putLoc ty wide o.pa x)
        | .dram, _ =>
          if s.offerWaits o then
            if s.declineReason core o ty = some 1 then
              let (c, s) := s.decline o.pa (some ty) tid none
              some ({ kind := 1, reason := 1, stamp := c, r1 := oldValue ty wide (locOf ty wide o.pa (s.offerHome core o.pa).1) }, s)
            else none
          else some (s.decideDram key core tid o ty wide)
        | space, .commit stamp _ =>
          if s.offerWaits o && !s.holdsLease o.pa (some ty) stamp.toNat tid then none
          else some (s.decidePort key l.op core space tid o ty wide)
        | space, _ => if s.offerWaits o then none else some (s.decidePort key l.op core space tid o ty wide)

/-- The result of a long op is a line. -/
def LongOp.wide (l : LongOp) : Bool := l.dsts.any fun d => match d with
  | .v _ => true
  | _ => false

/-- The offer of a long op is performed: the reply is kept until it lands. One that finds its line leased has arrived at the home
and waits there. -/
def State.performOffer (s : State) (key : Nat) (l : LongOp) (o : Offer) : Option Reply × State :=
  let set (o : Offer) (s : State) : State := s.onTask key fun t =>
    { t with long := t.long.map fun x => if x.op = l.op then { x with act := .offer o } else x }
  match o.reply, s.decideOffer key l o l.wide with
  | some r, _ => (some r, s)
  | none, some (r, s) => (some r, set { o with reply := some r } s)
  | none, none =>
    let n := if l.wide then 64 else (o.ty.getD .n64).width / 8
    let waits := o.owner.isNone && o.arrived.isNone && s.offerWaits o && (s.task? key).any fun t => t.offerSent l o n
    (none, if waits then set { o with arrived := some s.evs } s else s)

/-! ### Issue -/

/-- A reply that is known at issue. -/
def State.replyNow (s : State) (o : OpE) (r : Reply) : State :=
  s.issueLong (replyRegs o) r.values (.ready (if r.kind = 0 then r.fl else 0))

/-- Local store of another core: its partition and its withdrawal are checked first (spec/13_traps.md R218 0x2D, 0x2E). -/
def State.ownerFault (s : State) (core owner : Nat) : Option Nat :=
  if s.corePart owner ≠ s.corePart core then some 0x2D
  else if (s.core owner).withdrawn then some 0x2E
  else none

/-- Issue an offer or a commit after the checks of R173. A `.nt` offer to another core's local store traps where the owner's fault (0x2D, 0x2E)
is met at issue, and replies FAULT where it is met on the way: the spec does not say which (R183; log entry 48). -/
def State.issueOffer (s : State) (o : OpE) (op : OfferOp) (nt : Bool) (b c old : Line) : State :=
  let ty := o.ty.getD .n64
  let wide := match o.dst with
    | .v _ => true
    | _ => false
  let n := if wide then 64 else ty.width / 8
  let va := s.eaE o
  let core := s.t.sched.core
  let commit := match op with
    | .commit _ _ => true
    | _ => false
  let x : Offer := { op := op, scope := o.scope, ty := o.ty, va := va, pa := 0, owner := none, b := b, c := c, old := old,
                     nt := nt, pE := o.pE.val, pD := o.pD.val }
  if va.toNat % n ≠ 0 then s.trapVa 0x0A va
  else if commit && s.t.versioned then s.trapVa 0x0C va
  else if 64 ≤ s.t.outcnt then s.park .outcnt
  else match windowFor core va with
    | .ls off =>
      if s.t.lsHeld s.ops off n true then
        (if s.t.versioned then s.hold else s.issueLong (replyRegs o) [] (.offer { x with owner := some core, pa := off }))
      else
        let (r, y) := bankOffer x ty wide (BitVec.ofNat 512 (s.lsLoad s.t off n))
        match y with
        | some y => s.lsStore va off 0 (toBytes n y.toNat) fun s => s.replyNow o r
        | none => s.replyNow o r
    | .dls owner off =>
      match s.ownerFault core owner with
      | some f => s.trapVa f va
      | none => s.issueLong (replyRegs o) [] (.offer { x with owner := some owner, pa := off })
    | .mapped =>
      if s.t.versioned then s.trapVa 0x0C va
      else
        let io := o.scope == .system && (ty == .n32 || ty == .n64)
        match s.reach s.t (s.t.asks .offer io true) va n with
        | (.fault f, s) => if nt then s.replyNow o { kind := 2, cause := f } else s.trapVa f va
        | (.storage a p, s) =>
          (s.requestService (s.corePart core) a p .offer).replyNow o { kind := 1, reason := 5 }
        | (.wait, s) => s.hold
        | (.ok pa p, s) => s.issueLong (replyRegs o) [] (.offer { x with pa := pa, od := Pte.od p, nc := Pte.uncached p })

def offerOp (r : Row) (o : OpE) (op : OfferOp) (nt : Bool) (s : State) : Result :=
  .next (gated r (.e o) s fun s =>
    let ty := o.ty.getD .n64
    s.issueOffer o op nt (s.offerOperand ty o.b) (s.offerOperand ty o.c) 0)

def execOadd (o : OpE) (s : State) : Result := offerOp Rows.oadd o (.atomic .add) false s
def execOmin (o : OpE) (s : State) : Result := offerOp Rows.omin o (.atomic .min) false s
def execOmax (o : OpE) (s : State) : Result := offerOp Rows.omax o (.atomic .max) false s
def execOand (o : OpE) (s : State) : Result := offerOp Rows.oand o (.atomic .and) false s
def execOor (o : OpE) (s : State) : Result := offerOp Rows.oor o (.atomic .or) false s
def execOxor (o : OpE) (s : State) : Result := offerOp Rows.oxor o (.atomic .xor) false s
def execOswp (o : OpE) (s : State) : Result := offerOp Rows.oswp o (.atomic .swp) false s
def execOcas (o : OpE) (s : State) : Result := offerOp Rows.ocas o (.atomic .cas) false s
def execOfadd (o : OpE) (s : State) : Result := offerOp Rows.ofadd o (.atomic .fadd) false s
def execOfmin (o : OpE) (s : State) : Result := offerOp Rows.ofmin o (.atomic .fmin) false s
def execOfmax (o : OpE) (s : State) : Result := offerOp Rows.ofmax o (.atomic .fmax) false s
def execOffma (o : OpE) (s : State) : Result := offerOp Rows.offma o (.atomic .ffma) false s
def execOred (o : OpE) (s : State) : Result := offerOp Rows.ored o .red false s
def execOaddNt (o : OpE) (s : State) : Result := offerOp Rows.oaddNt o (.atomic .add) true s
def execOminNt (o : OpE) (s : State) : Result := offerOp Rows.ominNt o (.atomic .min) true s
def execOmaxNt (o : OpE) (s : State) : Result := offerOp Rows.omaxNt o (.atomic .max) true s
def execOandNt (o : OpE) (s : State) : Result := offerOp Rows.oandNt o (.atomic .and) true s
def execOorNt (o : OpE) (s : State) : Result := offerOp Rows.oorNt o (.atomic .or) true s
def execOxorNt (o : OpE) (s : State) : Result := offerOp Rows.oxorNt o (.atomic .xor) true s
def execOswpNt (o : OpE) (s : State) : Result := offerOp Rows.oswpNt o (.atomic .swp) true s
def execOcasNt (o : OpE) (s : State) : Result := offerOp Rows.ocasNt o (.atomic .cas) true s
def execOfaddNt (o : OpE) (s : State) : Result := offerOp Rows.ofaddNt o (.atomic .fadd) true s
def execOfminNt (o : OpE) (s : State) : Result := offerOp Rows.ofminNt o (.atomic .fmin) true s
def execOfmaxNt (o : OpE) (s : State) : Result := offerOp Rows.ofmaxNt o (.atomic .fmax) true s
def execOffmaNt (o : OpE) (s : State) : Result := offerOp Rows.offmaNt o (.atomic .ffma) true s
def execOredNt (o : OpE) (s : State) : Result := offerOp Rows.oredNt o .red true s

/-- `ocmt` (R179): r1 holds the operand received, r2 the reply word received. -/
def execOcmt (o : OpE) (s : State) : Result :=
  .next (gated Rows.ocmt (.e o) s fun s =>
    let word := (s.read o.dst.next).toNat
    s.issueOffer o (.commit (BitVec.ofNat 16 (field word 31 16)) (field word 41 40)) false (s.offerOperand (o.ty.getD .n64) o.b)
      0 (s.read o.dst))

/-- `oabn` (R181): the matching entry goes, with its lease. That it needs read permission, and has no effect on a page that is not resident,
is the model's choice (log entry 48). -/
def execOabn (o : OpE) (s : State) : Result :=
  .next (gated Rows.oabn (.e o) s fun s =>
    let va := s.eaE o
    if s.t.versioned then s.trapVa 0x0C va
    else match windowOf va with
      | .ls _ | .dls _ _ => s.advance
      | .mapped =>
        match s.reach s.t (s.t.asks .load true false) va 1 with
        | (.fault c, s) => s.trapVa c va
        | (.storage _ _, s) => s.advance
        | (.wait, s) => s.hold
        | (.ok pa _, s) => (s.undecline pa none (field (s.readW o.b.reg).toNat 31 16) s.t.sys.tid).2.advance)

/-- LEASE_EXPIRY: a lease whose 4096 cycles have passed ends, and its entry is removed (R180). -/
def execLeaseExpiry (line : Nat) (s : State) : Result :=
  .next <|
    let k := s.declKey line
    let t := s.mem.decl.get {} k
    let passed (e : Decline) : Bool := lineAt e.address == lineAt line && (match e.lease with
      | some d => d ≤ s.dev.cycle
      | none => false)
    s.onMem fun m => { m with decl := m.decl.set {} k { t with entries := t.entries.filter fun e => !passed e } }

end Sys2Proof.Machine
end

