-- ==== Sys2Proof/Machine/Messages.lean ====
section
/-! DEFINITION. Messages and delegation, majors 0xB2 and 0xB3 (spec/11_ordering_sync.md R207-R212). -/

namespace Sys2Proof.Machine

open Sys2Proof

/-! ### Handles (R207) -/

/-- What a handle names: an output FIFO of the sending firing's actor, or an input FIFO of an actor. -/
inductive Handle where
  | out (actor fifo : Nat)
  | inp (actor fifo : Nat)
  deriving DecidableEq, Repr

/-- `none` is a bad handle. -/
def State.handle (s : State) (h : Word) : Option Handle :=
  let x := h.toNat
  let a := field x 23 8
  let f := x % 8
  if x / 2 ^ 25 ≠ 0 || field x 7 3 ≠ 0 then none
  else if field x 24 24 = 1 then
    match s.t.kind with
    | .firing me => match s.actor? s.t.launch me with
      | some y => if a = 0 && f < y.outs.length then some (.out me f) else none
      | none => none
    | _ => none
  else match s.actor? s.t.launch a with
    | some y => if f < y.ins.length then some (.inp a f) else none
    | none => none

/-- Append an item to the room that the firing reserved (R208): the core has a new item (spec/13_traps.md R241). -/
def State.makeItem (s : State) (a f : Nat) (d : Line) (scope : Scope) (k : State → State) : State :=
  match (s.actor? s.t.launch a).bind fun y => y.outs[f]? with
  | none => s.trap 0x67
  | some q =>
    if q.rate ≤ q.made.length then s.trap 0x67
    else
      let (n, s) := s.nextOp
      let x : Item := { data := d, scope := scope, sender := s.t.sys.tid, order := n }
      let s := s.onActor s.t.launch a fun y => y.onOut f fun q => { q with made := q.made ++ [x] }
      k ((s.putItem s.t.sched.core q q.made.length d).latchCore s.t.sched.core 2)

/-- A `sendt` of the task to the same FIFO is still on its way: messages of one sender stay in order (spec/02_machine_notes.md
R49). -/
def Task.sending (t : Task) (h : Word) (op : Nat) : Bool :=
  t.long.any fun l => l.op < op && l.vals.isEmpty && match l.act with
    | .sendt h' _ _ => h' == h
    | _ => false

/-- A `send` that delivered to an actor with a firing goes on, or finds that the actor has exited in the same cycle
(spec/01_machine.md R34). -/
def State.awaitSent (s : State) (op : Nat) : State :=
  if s.t.sched.sentLost then (s.onT fun t => { t with sched := { t.sched with sent := none, sentLost := false } }).trap 0x62
  else if s.exposed s.t.launch s.cur op then s.hold
  else (s.onT fun t => { t with sched := { t.sched with sent := none } }).advance

def execSend (o : OpE) (s : State) : Result :=
  .next (gated Rows.send (.e o) s fun s =>
    let h := s.readW o.a
    let d := s.read o.b.reg
    if s.t.versioned then s.trap 0x0C
    else if s.t.isMessage then s.trap 0x63
    else match s.handle h with
      | none => s.trap 0x67
      | some (.out a f) => s.releaseThen o.scope fun s => s.makeItem a f d o.scope State.advance
      | some (.inp a f) =>
        match s.t.sched.sent with
        | some op => s.awaitSent op
        | none =>
        if s.t.sending h s.ops then s.hold
        else s.releaseThen o.scope fun s =>
          let op := s.ops
          match s.deliver s.t.launch a f { data := d, scope := o.scope, sender := s.t.sys.tid, sent := some (s.cur, op) } with
          | (.ok, s) =>
            if s.exposed s.t.launch s.cur op then (s.nextOp.2.onT fun t => { t with sched := { t.sched with sent := some op } }).hold
            else s.advance
          | (.full, s) => s.park (.room s.t.launch a f)
          | (.noactor, s) => s.trap 0x62)

def execSendt (o : OpE) (s : State) : Result :=
  .next (gated Rows.sendt (.e o) s fun s =>
    let h := s.readW o.a
    let d := s.read o.b.reg
    let ds := [o.dst, .p o.pE]
    if s.t.versioned then s.trap 0x0C
    else match s.handle h with
      | none => s.trap 0x67
      | some (.out a f) =>
        if 64 ≤ s.t.outcnt then s.park .outcnt
        else s.releaseThen o.scope fun s => s.makeItem a f d o.scope fun s => s.issueLong ds [0, 1] (.ready 0)
      | some (.inp _ _) =>
        if 64 ≤ s.t.outcnt then s.park .outcnt
        else s.releaseThen o.scope fun s => s.issueLong ds [] (.sendt h d o.scope))

/-- The message of a `sendt` reaches its actor: the status is known. -/
def State.sendtArrive (s : State) (key op : Nat) : State :=
  match s.task? key with
  | none => s
  | some t =>
    match List.find? (fun (l : LongOp) => l.op == op) t.long with
    | some l => match l.act with
      | .sendt h d sc =>
        if !l.vals.isEmpty || t.sending h op then s
        else
          let (r, s) := s.deliver t.launch (field h.toNat 23 8) (h.toNat % 8) { data := d, scope := sc, sender := t.sys.tid, sent := some (key, op) }
          let vals : List Line := match r with
            | .ok => [0, 1]
            | .full => [1, 0]
            | .noactor => [2, 0]
          s.onTask key fun t => { t with long := t.long.map fun l => if l.op = op then { l with vals := vals } else l }
      | _ => s
    | none => s

/-- ACTOR_MESSAGE_ARRIVAL (spec/01_machine.md R34). -/
def execActorMessageArrival (task op : Nat) (s : State) : Result := .next (s.sendtArrive task op)

/-! ### Reading (R209) -/

/-- The input FIFO that a firing reads; an index at or above the capacity is refused too. -/
def State.readFifo (s : State) (o : OpE) (k : Nat → Nat → Bool → State → State) : State :=
  let f := o.imm.toNat % 8
  let i := (s.readW o.b.reg).toNat
  match s.t.kind with
  | .firing a => match (s.actor? s.t.launch a).bind fun y => y.ins[f]? with
    | some q => if q.cap ≤ i then s.trap 0x67 else k f i (decide (i < q.items.length)) s
    | none => s.trap 0x67
  | _ => s.trap 0x67

def execRecv (o : OpE) (s : State) : Result :=
  .next (gated Rows.recv (.e o) s fun s =>
    if s.t.isMessage then s.trap 0x63
    else s.readFifo o fun f i there s =>
      if there then s.issueLong [o.dst] [] (.recv f i) else s.park (.item f i))

def execRecvt (o : OpE) (s : State) : Result :=
  .next (gated Rows.recvt (.e o) s fun s =>
    s.readFifo o fun f i there s =>
      let ds := [o.dst, .p o.pE]
      if there then s.issueLong ds [] (.recv f i) else s.issueLong ds [0, 0] (.ready 0))

/-! ### Delegation (R210, R211) -/

/-- A request reaches its owner's queue of 32; beyond it waits in arrival order. -/
def State.queueRequest (s : State) (owner : Nat) (r : Request) : State :=
  s.onCore owner fun c =>
    if c.requests.length < 32 then { c with requests := c.requests ++ [r] } else { c with waiting := c.waiting ++ [r] }

/-- The oldest request leaves the queue, and a waiting one takes its place. -/
def Core.takeRequest (c : Core) : Option (Request × Core) :=
  match c.requests with
  | [] => none
  | r :: rest => match c.waiting with
    | [] => some (r, { c with requests := rest })
    | w :: ws => some (r, { c with requests := rest ++ [w], waiting := ws })

/-- The owner that a delegation address names, after its checks (R210, spec/13_traps.md R218 0x2D, 0x2E). -/
def State.delegOwner (s : State) (va : Word) (k : Nat → State → State) : State :=
  match windowOf va with
  | .dls owner _ => match s.ownerFault s.t.sched.core owner with
    | some c => s.trapVa c va
    | none => k owner s
  | _ => s.trap 0x66

/-- The server slot of a core runs this task. -/
def Task.serves (t : Task) (core : Nat) : Bool := t.kind == .delegated && t.sched.core == core

/-- A held command whose request goes to this owner: an `amsg`, or a delegation that waits behind one. -/
def Held.sendsTo (h : Held) (owner : Nat) : Bool :=
  (match h.ins with
   | .amsg _ | .deleg _ | .delegt _ => true
   | _ => false) && (match windowOf h.x with
   | .dls n _ => n == owner
   | _ => false)

/-- A delegation as it leaves its task: the address, the routine and the arguments. -/
def State.delegHeld (s : State) (o : OpE) (ins : Instr) (op : Nat) : Held :=
  let args := ((argRegs o.c.reg (o.imm.toNat % 8)).map s.readW).map BitVec.toNat
  { slot := 16, pc := s.t.pc, ins := ins, op := op, x := s.readW o.a, y := s.readW o.b.reg, z := 0,
    line := BitVec.ofNat 512 (args.foldr (fun a x => a + 2 ^ 64 * x) 0), fixed := some true }

/-- The request that a delegation makes. -/
def State.delegRequest (s : State) (o : OpE) (h : Held) : Request :=
  { task := s.cur, tid := s.t.sys.tid, core := s.t.sched.core, launch := s.t.launch, op := some h.op, tag := none,
    address := h.x, routine := h.y, args := (List.range (o.imm.toNat % 8)).map fun i => BitVec.ofNat 64 (sliceLine h.line (8 * i) 8),
    scope := o.scope }

/-- The owner refuses a `delegt`: its queue is full, or its slot 6 is the issuer. -/
def State.delegFull (s : State) (owner : Nat) : Bool := 32 ≤ (s.core owner).requests.length || s.t.serves owner

/-- A delegation that waited behind `amsg` requests of its task to the same owner reaches that owner (spec/17_edge.md R297). -/
def State.performDeleg (h : Held) (s : State) : State :=
  let reach (o : OpE) (twin : Bool) : State := match windowOf h.x with
    | .dls owner _ =>
      if twin && s.delegFull owner then s.onT fun t => { t with long := t.long.map fun l => match l.act with
        | .deleg core sc none => if l.op = h.op then { l with act := .deleg core sc (some (0, 1, 0, false)) } else l
        | _ => l }
      else s.queueRequest owner (s.delegRequest o h)
    | _ => s
  match h.ins with
  | .deleg o => reach o false
  | .delegt o => reach o true
  | _ => s

def delegate (r : Row) (o : OpE) (ins : Instr) (twin : Bool) (s : State) : Result :=
  .next (gated r (.e o) s fun s =>
    let va := s.readW o.a
    if s.t.versioned then s.trap 0x0C
    else if !twin && s.t.isMessage then s.trap 0x63
    else s.delegOwner va fun owner s =>
      if 64 ≤ s.t.outcnt then s.park .outcnt
      else s.releaseThen o.scope fun s =>
        let ds := replyRegs o
        let h := s.delegHeld o ins s.ops
        if s.t.held.any fun x => x.sendsTo owner then
          (s.issueLong ds [] (.deleg owner o.scope none)).onT fun t => { t with held := t.held ++ [h] }
        else if twin && s.delegFull owner then s.issueLong ds [0, 1, 0, 1] (.ready 0)
        else (s.issueLong ds [] (.deleg owner o.scope none)).queueRequest owner (s.delegRequest o h))

def execDeleg (o : OpE) (s : State) : Result := delegate Rows.deleg o (.deleg o) false s
def execDelegt (o : OpE) (s : State) : Result := delegate Rows.delegt o (.delegt o) true s

/-- The registers of a server task. -/
def Request.regs (r : Request) : Regs :=
  let vs := r.address :: ((List.range 4).map fun i => r.args.getD i 0) ++ [r.tid]
  (List.range 6).foldl (fun x i => x.write (.g (Fin.ofNat 64 (i + 1))) ((vs.getD i 0).setWidth 512)) {}

/-- DELEGATION_REQUEST: slot 6 of a core takes the oldest request. The server task begins with the acquire of the request. -/
def execDelegationRequest (core : Nat) (s : State) : Result :=
  .next <|
    let c := s.core core
    if c.withdrawn || s.allTasks.any fun e => e.2.serves core then s
    else match c.takeRequest with
      | none => s
      | some (r, c') =>
        match (s.onCore core fun _ => c').create
            { launch := r.launch, core := core, kind := .delegated, entry := r.routine, regs := r.regs, handler := true,
              request := some r } with
        | none => s
        | some (key, s) => (s.fenceR core r.scope).takeSlot key 6

/-- `dret` (R211): steps 1 to 3 of `done`, the release, the answer. -/
def execDret (o : OpE) (s : State) : Result :=
  .next (gated Rows.dret (.e o) s fun s =>
    match s.t.kind, s.t.request with
    | .delegated, some r =>
      let x := s.readW o.b.reg
      s.ending false fun s => s.releaseThen r.scope fun s => (s.answer r x 0 0 true).retireTask s.cur none
    | _, _ => s.trap 0x01)

end Sys2Proof.Machine
end

