-- ==== Sys2Proof/Machine/Bank.lean ====
section
/-! DEFINITION. Bank compute: `bcall`, the Sorrel units and their handlers, majors 0xE8 and 0xE9, and DUTY
(spec/19_bank.md R305-R315). -/

namespace Sys2Proof.Machine

open Sys2Proof

/-! ### The handler subset and the load of an image (R307, R308) -/

/-- Majors of the subset; of 0x20 only `nop`. -/
def inSubset (maj fn : Nat) : Bool :=
  maj == 0x01 || maj == 0x02 || (0x04 ≤ maj && maj ≤ 0x0B) || (maj == 0x20 && fn == 0) || maj == 0x21 || maj == 0x24 ||
  (0x30 ≤ maj && maj ≤ 0x34) || (0x40 ≤ maj && maj ≤ 0x43) || maj == 0x4A || (0x50 ≤ maj && maj ≤ 0x53) ||
  (0x57 ≤ maj && maj ≤ 0x63) || (0x70 ≤ maj && maj ≤ 0x74) || maj == 0xE9

/-- The canonical `nop` (spec/03_encoding.md R79). -/
def isNop (w : BitVec 96) : Bool := w == BitVec.ofNat 96 (0x04800000 * 2 ^ 64)

/-- A relative branch stays within the image. -/
def branchWithin (nl line : Nat) : Instr → Bool
  | .br o | .jmp o | .loop o =>
    decide (0 ≤ (line : Int) + o.off.toInt) && decide ((line : Int) + o.off.toInt < nl) && decide (o.slot.toNat < 5)
  | _ => true

/-- One slot of an image passes the load. -/
def slotLoads (nl line : Nat) (w : BitVec 96) : Bool :=
  match decode w with
  | .ok i => inSubset (wordMaj w) (wordFn w) && branchWithin nl line i
  | .error _ => false

/-- An image passes the load: the header, then its fetch lines. -/
def imageLoads (header : Line) (ls : List Line) : Bool :=
  let nl := sliceLine header 32 1
  decide (1 ≤ nl) && decide (nl ≤ 13) && ls.length == nl && decide (sliceLine header 33 1 < 5) && sliceLine header 34 30 == 0 &&
  ls.all (fun l => lineParity l && lineReserved l == 0) &&
  ((List.range ls.length).all fun i => (List.range 5).all fun j => slotLoads nl i (slotWord (ls.getD i 0) j)) &&
  (nl != 13 || isNop (slotWord (ls.getD 12 0) 4))

/-- The entry that an image makes. -/
def entryOf (launch : Nat) (header : Line) (ls : List Line) : HEntry :=
  { launch := launch, fmts := (List.range 8).map fun k => BitVec.ofNat 32 (sliceLine header (4 * k) 4),
    rm := BitVec.ofNat 3 (sliceLine header 33 1), lines := ls }

/-! ### Units -/

/-- The model's key of the context of a running handler. -/
def sorrelKey (u : Nat) : Nat := 2 ^ 64 + 4096 + u

/-- The stack of a channel is above the threshold of its die (R315). -/
def State.stackHot (s : State) (u : Nat) : Bool :=
  let d := s.die (u / 64)
  85 + 2 * d.thr.toNat < (if u % 64 < 32 then d.stack0 else d.stack1).toNat

/-- IDLE as it acts on a unit. -/
def State.idleSlots (s : State) (u : Nat) : Nat := if s.stackHot u then (s.die (u / 64)).idle.toNat else 0

/-- The unit holds the request of a long op. -/
def Sorrel.holds (x : Sorrel) (task op : Nat) : Bool :=
  (x.queue.any fun r => r.task == task && r.op == op) || x.running.any fun r => r.1.task == task && r.1.op == op

/-- The answer to a `bcall` is known; it lands with OFFER_REPLY. -/
def State.bankAnswer (s : State) (task op : Nat) (r : Reply) : State :=
  s.onTask task fun t => { t with long := t.long.map fun l =>
    match l.act with
    | .offer o => if l.op = op then { l with act := .offer { o with reply := some r } } else l
    | _ => l }

/-- The page lies wholly within one channel's exclusive block (R312, R16). -/
def State.oneBlock (s : State) (page size : Nat) : Bool :=
  let x := s.cxuOf page
  spaceOf page == .dram && homeDie page == homeDie (page + size - 1) && inExclusive x page &&
    (channelOf x page).1 == (channelOf x (page + size - 1)).1

/-- The first condition of R312 that declines the request, as a reason of R177. -/
def State.bankDecline (s : State) (u : Nat) (o : Offer) (page size : Nat) : Option Nat :=
  let q := (s.unit u).queue.length
  if o.od then some 11
  else if !s.oneBlock page size then some 8
  else if (s.keyNow o.pa).key.isSome then some 7
  else if 8 ≤ q then some 1
  else if s.idleSlots u ≠ 0 && 4 ≤ q then some 6
  else none

/-- An earlier `bcall` of the task to the same unit has not reached it (R309). -/
def State.bankBehind (s : State) (t : Task) (key op u : Nat) : Bool :=
  t.long.any fun l => l.op < op && match l.act with
    | .offer o => o.reply.isNone && s.devChannel o.pa == u && !(s.unit u).holds key l.op && (match o.op with
      | .bank _ _ _ => true
      | _ => false)
    | _ => false

/-- The request of a `bcall` reaches its unit: answered with a decline, or queued. A lease on the line holds it (R314). -/
def State.bankArrive (s : State) (key : Nat) (l : LongOp) (o : Offer) (entry page size : Nat) : State :=
  let u := s.devChannel o.pa
  match s.task? key with
  | none => s
  | some t =>
    if o.reply.isSome || (s.unit u).holds key l.op || t.loadsHeld l.op || s.heldLine o.pa || s.bankBehind t key l.op u then s
    else if (s.unit u).withdrawn then s.bankAnswer key l.op { kind := 2, cause := 0x5F }
    else match s.bankDecline u o page size with
      | some r => s.bankAnswer key l.op { kind := 1, reason := r }
      | none =>
        let v := l.dsts.any fun d => match d with
          | .v _ => true
          | _ => false
        let r : BankReq := { task := key, op := l.op, launch := t.launch, entry := entry, pa := o.pa, pageBase := page,
                             pageSize := size, b := o.b.setWidth 64, c := o.c.setWidth 64, vdst := v }
        s.onUnit u fun x => { x with queue := x.queue ++ [r] }

/-! ### `bcall` (R312) -/

/-- The page of an address, once its translation is held: where it begins and its size. -/
def State.pageOf (s : State) (core root : Nat) (va : Word) (pa : Nat) : Nat × Nat :=
  let size := match s.tlbLookup core root va with
    | some l => if l.level = 0 then (if Pte.n l.pte then 65536 else 4096) else 2 ^ (12 + 9 * l.level)
    | none => 4096
  (pa / size * size, size)

/-- `bcall`. A withdrawn unit is tested before what its channel has lost: bank offers to it trap 0x5F (R312, spec/13_traps.md R236). -/
def execBcall (o : OpE) (s : State) : Result :=
  .next (gated Rows.bcall (.e o) s fun s =>
    let va := s.readW o.a
    let core := s.t.sched.core
    if va.toNat % 64 ≠ 0 then s.trapVa 0x0A va
    else if s.t.versioned then s.trapVa 0x0C va
    else match windowOf va with
      | .ls _ | .dls _ _ => s.trapVa 0x1C va
      | .mapped =>
        if 64 ≤ s.t.outcnt then s.park .outcnt
        else
          let asks : Ask := { kind := .offer, sys := s.t.isHandler, io := false, writes := true, bank := true }
          match s.translate core (s.rootOf s.t) asks va with
          | (.fault c, s) => s.trapVa c va
          | (.storage _ _, s) => s.trapVa 0x1C va
          | (.wait, s) => s.hold
          | (.ok pa p, s) =>
            if spaceOf pa ≠ .dram then s.trapVa 0x1C va
            else if (s.unit (s.devChannel pa)).withdrawn then s.trapVa 0x5F va
            else match s.lostAt pa with
            | some c => s.trapVa c va
            | none =>
              let (page, size) := s.pageOf core (s.rootOf s.t) va pa
              let x : Offer :=
                { op := .bank (o.imm.toNat % 16) page size, scope := .core, ty := none, va := va, pa := pa, owner := none,
                  b := (s.readW o.b.reg).setWidth 512, c := (s.readW o.c.reg).setWidth 512, old := 0, nt := false,
                  pE := o.pE.val, pD := o.pD.val, od := Pte.od p }
              s.issueLong (replyRegs o) [] (.offer x))

/-! ### Handlers (R309, R310) -/

/-- A handler ends: its context goes and its `bcall` is answered. -/
def State.endHandler (s : State) (u : Nat) (reply : Reply) : State :=
  match (s.unit u).running with
  | none => s
  | some (r, _) =>
    ((s.dropTask (sorrelKey u)).onUnit u fun x => { x with running := none }).bankAnswer r.task r.op reply

/-- The fault of a handler: its cause, and the core cause behind it. -/
def State.handlerFault (s : State) (u cause inner : Nat) : State := s.endHandler u { kind := 4, cause := cause, reason := inner }

/-- How a trap inside a handler ends it (R310). -/
def handlerCause (cause : Nat) : Nat × Nat :=
  if cause = 0x03 then (0x49, 0)
  else if cause = 0x40 then (0x4C, 0)
  else if cause = 0x4B ∨ cause = 0x4F then (cause, 0)
  else (0x49, cause)

/-- A handler whose instruction trapped ends. -/
def State.endTrapped (s : State) (u : Nat) : State :=
  match s.task? (sorrelKey u) with
  | some t =>
    if t.sched.status = .trapped then
      let (c, i) := handlerCause t.sys.cause.toNat
      s.handlerFault u c i
    else s
  | none => s

/-- The registers of a fresh handler context. -/
def handlerRegs (r : BankReq) (e : HEntry) : Regs :=
  let gs : List Word := [BitVec.ofNat 64 (r.pa - r.pageBase), r.b, r.c, BitVec.ofNat 64 (r.pageSize / 64)]
  let x : Regs := (List.range 4).foldl (fun x i => x.write (.g (Fin.ofNat 64 (i + 1))) ((gs.getD i 0).setWidth 512)) {}
  (List.range 8).foldl (fun x k => x.write (.fmt (Fin.ofNat 8 k)) ((e.fmts.getD k 0).setWidth 512)) x

/-- The unit takes its oldest request. -/
def State.startHandler (s : State) (u : Nat) : State :=
  match (s.unit u).queue with
  | [] => s
  | r :: rest =>
    let s := s.onUnit u fun x => { x with queue := rest, running := some (r, s.dev.cycle) }
    match (s.unit u).entries.find? r.entry with
    | none => s.handlerFault u 0x48 0
    | some e =>
      if e.launch ≠ r.launch then s.handlerFault u 0x48 0
      else
        let sched : Sched := { status := .issuing, core := 4096 + u, ableAt := s.dev.cycle, started := true, entered := true }
        let t : Task := { regs := handlerRegs r e, sys := { tid := BitVec.allOnes 64, frmode := e.rm }, kind := .sorrel u,
                          launch := r.launch, sched := sched }
        s.addTask (sorrelKey u) t

/-- The instruction at a code address of the running image. -/
def State.handlerFetch (s : State) (u : Nat) (pc : Word) : Option Instr :=
  match (s.unit u).running with
  | none => none
  | some (r, _) =>
    match ((s.unit u).entries.find? r.entry).bind fun e => e.lines[pc.toNat / 64]? with
    | none => none
    | some l => match decode (slotWord l (pc.toNat % 8)) with
      | .ok i => some i
      | .error _ => none

/-- The handler has run for 2048 cycles. -/
def State.overBound (s : State) (u : Nat) : Bool :=
  match (s.unit u).running with
  | some (_, c) => c + 2048 ≤ s.dev.cycle
  | none => false

/-- Choose the next instruction of the running handler, at most one each cycle. -/
def State.issueHandler (s : State) (u : Nat) : State :=
  match s.task? (sorrelKey u) with
  | none => s
  | some t =>
    if s.dev.cycle < t.sched.ableAt then s
    else if s.overBound u then s.handlerFault u 0x4A 0
    else match s.handlerFetch u t.pc with
      | none => s.handlerFault u 0x49 0
      | some i =>
        let s := s.focus (sorrelKey u)
        { s with plan := [i], t := { s.t with sched := { s.t.sched with ableAt := s.dev.cycle + 1 } } }

/-- SORREL_HANDLER: a unit starts its oldest request, and its running handler issues its next instruction. -/
def execSorrelHandler (unit : Nat) (s : State) : Result :=
  .next <|
    let s := if (s.unit unit).running.isNone then s.startHandler unit else s
    s.issueHandler unit

/-- H_BOUND. -/
def execHBound (unit : Nat) (s : State) : Result :=
  .next (if s.overBound unit then s.handlerFault unit 0x4A 0 else s)

/-! ### Handler instructions (R311) -/

/-- How far the line that an instruction of a handler names lies from the beginning of the page. -/
def BankReq.lineOff (r : BankReq) (o : OpE) (x : Word) : Int :=
  (r.pa - r.pageBase : Nat) + 64 * (x + (o.imm.setWidth 16).signExtend 64).toInt

/-- The line that an instruction of a handler names. -/
def State.handlerLine (s : State) (o : OpE) (k : Nat → Nat → State → State) : State :=
  match s.t.kind with
  | .sorrel u => match (s.unit u).running with
    | some (r, _) =>
      let off := r.lineOff o (s.readW o.a)
      if 0 ≤ off ∧ off < r.pageSize then k u (r.pageBase + off.toNat) s else s.trap 0x4B
    | none => s
  | _ => s.trap 0x06

/-- A bank command uses a slot; in a hot stack IDLE of every 16 stay idle, and do not count against the bound (R315). -/
def State.useSlot (s : State) (u : Nat) : State :=
  let idle := s.idleSlots u
  let n := (s.unit u).slots + 1
  if n + idle < 16 then s.onUnit u fun x => { x with slots := n }
  else
    let s := s.onUnit u fun x => { x with slots := 0, running := x.running.map fun r => (r.1, r.2 + idle) }
    s.onT fun t => { t with sched := { t.sched with ableAt := t.sched.ableAt + idle } }

/-- `hrow` reads the channel, and no cache (R316). -/
def execHrow (o : OpE) (s : State) : Result :=
  .next (gated Rows.hrow (.e o) s fun s =>
    s.handlerLine o fun u pa s => ((s.useSlot u).write o.dst (s.chanRead pa)).advance)

/-- `hwr` writes the channel; cached copies and full bits stay, the decline table notes the write. -/
def execHwr (o : OpE) (s : State) : Result :=
  .next (gated Rows.hwr (.e o) s fun s =>
    s.handlerLine o fun u pa s => (((s.useSlot u).chanPut pa (s.read o.b.reg)).markWritten pa).advance)

/-- `hret`: the result goes into the reply. -/
def execHret (o : OpE) (s : State) : Result :=
  .next (gated Rows.hret (.e o) s fun s =>
    match s.t.kind with
    | .sorrel u => match (s.unit u).running with
      | some (r, _) =>
        let v := match o.b.reg with
          | .v _ => true
          | _ => false
        if v && !r.vdst then s.trap 0x4F
        else s.endHandler u { fl := s.t.sys.flags, r1 := s.read o.b.reg }
      | none => s
    | _ => s.trap 0x06)

/-! ### DUTY (R315) -/

/-- TEMP_REFRESH: every 2^16 cycles, with what the sensors of the two stacks read. -/
def execTempRefresh (die : Nat) (low high : BitVec 8) (s : State) : Result :=
  .next <|
    if s.dev.cycle % 65536 ≠ 0 then s
    else
      let top : BitVec 8 := if low.toNat < high.toNat then high else low
      s.onDie die fun d =>
        { d with stack0 := low, stack1 := high, temp := top, hot := decide (85 + 2 * d.thr.toNat < top.toNat) }

end Sys2Proof.Machine
end

