-- ==== Sys2Proof/Machine/Deques.lean ====
section
/-! DEFINITION. The deques of coordinate ranges, major 0xE1 (spec/17_edge.md R294-R296). -/

namespace Sys2Proof.Machine

open Sys2Proof

/-- Entries of a deque as a launch finds them, oldest first: those of another launch are not there. -/
def Core.dequeFor (c : Core) (launch : Nat) : List (Word × Word) := if c.dequeOwner = some launch then c.deque else []

/-- The results of a deque instruction: a range, or failure. -/
def rangeVals (r : Option (Word × Word)) : List Line :=
  match r with
  | some (a, b) => [a.setWidth 512, b.setWidth 512, 1]
  | none => [0, 0, 0]

/-- Write the results of a deque instruction of format E. -/
def State.putRange (s : State) (o : OpE) (r : Option (Word × Word)) : State :=
  (([o.dst, o.dst.second, .p o.pE].zip (rangeVals r)).foldl (fun s e => s.write e.1 e.2) s).advance

def State.setDeque (s : State) (core : Nat) (q : List (Word × Word)) : State := s.onCore core fun c => { c with deque := q }

def execDqpush (o : OpE) (s : State) : Result :=
  .next (gated Rows.dqpush (.e o) s fun s =>
    let a := s.readW o.b.reg
    let b := s.readW o.c.reg
    let c := s.myCore
    if b.toNat < a.toNat then s.trap 0x59
    else if !c.deque.isEmpty && c.dequeOwner ≠ some s.t.launch then s.trap 0x58
    else if a = b then s.advance
    else if 64 ≤ c.deque.length then s.trap 0x58
    else
      (s.onCore s.t.sched.core fun c => { c with deque := c.deque ++ [(a, b)], dequeOwner := some s.t.launch }).advance)

def execDqpop (o : OpE) (s : State) : Result :=
  .next (gated Rows.dqpop (.e o) s fun s =>
    let q := s.myCore.dequeFor s.t.launch
    match q.getLast? with
    | some r => (s.setDeque s.t.sched.core q.dropLast).putRange o (some r)
    | none => s.putRange o none)

def execDqsplit (o : OpE) (s : State) : Result :=
  .next (gated Rows.dqsplit (.e o) s fun s =>
    let q := s.myCore.dequeFor s.t.launch
    let n := s.readW o.b.reg
    match q.getLast? with
    | some (a, b) =>
      if n = 0 || (b - a).toNat ≤ n.toNat then (s.setDeque s.t.sched.core q.dropLast).putRange o (some (a, b))
      else (s.setDeque s.t.sched.core (q.dropLast ++ [(a + n, b)])).putRange o (some (a, a + n))
    | none => s.putRange o none)

/-- A steal takes effect at the victim: the upper half of its top entry. -/
def State.steal (s : State) (launch part victim : Nat) : Option (Word × Word) × State :=
  if (s.core victim).withdrawn || s.corePart victim ≠ part then (none, s)
  else match (s.core victim).dequeFor launch with
    | [] => (none, s)
    | (a, b) :: rest =>
      let m := a + BitVec.ofNat 64 ((b - a).toNat / 2)
      (some (m, b), s.setDeque victim (if m = a then rest else (a, m) :: rest))

/-- A steal takes effect when it reaches the victim, or at issue where the victim is the core itself, whose operations take effect in
issue order (R296). -/
def execDqsteal (o : OpE) (s : State) : Result :=
  .next (gated Rows.dqsteal (.e o) s fun s =>
    let v := (s.readW o.a).toNat
    let core := s.t.sched.core
    let ds := [o.dst, o.dst.second, .p o.pE]
    if 4096 ≤ v then s.trap 0x02
    else if v ≠ core then s.issueLong ds [] (.dqsteal v)
    else if 64 ≤ s.t.outcnt then s.park .outcnt
    else
      let (r, s) := s.steal s.t.launch (s.corePart core) v
      s.issueLong ds (rangeVals r) (.ready 0))

end Sys2Proof.Machine
end

