-- ==== Sys2Proof/Machine/Edge.lean ====
section
/-! DEFINITION. Edge programs: the graph, round sets of the Vetch engines, and the instructions `ecmd`, `ecomb` and `eact` with
the command blocks (spec/17_edge.md R280-R293, spec/18_edge_notes.md R304). -/

namespace Sys2Proof.Machine

open Sys2Proof

/-! ### The graph descriptor (R280) -/

/-- A field of the descriptor, bits hi to lo of its 8-byte word at byte w. -/
def descField (desc w hi lo : Nat) : Nat := field (desc / 256 ^ w % 2 ^ 64) hi lo

def descWord (desc w : Nat) : Word := BitVec.ofNat 64 (desc / 256 ^ w)

def descNV (d : Nat) : Nat := descField d 0 31 0
def descNE (d : Nat) : Nat := descField d 0 63 32
def descGrp (d : Nat) : Nat := descField d 112 23 16
def descVB (d : Nat) : Nat := descField d 112 15 11
def descComb (d : Nat) : Nat := descField d 112 10 8
def descMode (d : Nat) : Nat := descField d 112 7 6
def descCur (d : Nat) : Nat := descField d 112 5 5
def descAuto (d : Nat) : Bool := descField d 112 4 4 = 1
def descLast (d : Nat) : Nat := descField d 112 3 3
def descFin (d : Nat) : Word := descWord d 88

/-- The bitmap of the current frontier, and the other. -/
def descFront (d cur : Nat) : Word := descWord d (72 + 8 * cur)

/-- A field that must be zero is not, VB is above 20, or MODE is 11. -/
def descBad (d : Nat) : Bool :=
  descField d 112 63 48 ≠ 0 || descField d 112 31 24 ≠ 0 || descField d 112 2 0 ≠ 0 || 20 < descVB d || descMode d = 3

/-- An array lies in local store or in the DLS window. -/
def descLocal (d : Nat) : Bool :=
  [8, 16, 24, 32, 40, 48, 56, 64, 72, 80, 88].any fun w => windowOf (descWord d w) != .mapped

/-- The type of the combine operation and the operation (R290). -/
def combType (comb : Nat) : Ty := if comb = 1 ∨ comb = 3 ∨ comb = 4 then .i64 else if comb = 7 then .f32 else .n64

def combine (comb : Nat) (old c : Word) : Word × Flags :=
  let op : Atomic := match comb with
    | 0 | 1 => .min
    | 2 | 3 => .max
    | 4 => .add
    | 5 => .or
    | 6 => .and
    | _ => .fadd
  let t := combType comb
  let (x, f) := offerValue op t (old.toNat % 2 ^ t.width) (c.toNat % 2 ^ t.width) 0
  (BitVec.ofNat 64 x, f)

/-! ### Reads and writes at the home slices (R304) -/

/-- The engine of the coordinating cluster, for a round set. -/
def VetchSet.via (v : VetchSet) : Via := { root := v.root, part := v.part, id := engineNumber 1 v.unit }

def State.graphRead (s : State) (v : VetchSet) (va : Word) (n : Nat) : Engine Nat × State :=
  afterE (s.launchRead v.via va n) fun bs s => (.ok (ofBytes bs), s)

def State.graphWrite (s : State) (v : VetchSet) (va : Word) (bs : List Byte) : Engine Unit × State :=
  s.launchWrite v.via va bs true

def State.graphWord (s : State) (v : VetchSet) (base : Word) (i : Nat) : Engine Word × State :=
  afterE (s.graphRead v (base + BitVec.ofNat 64 (8 * i)) 8) fun x s => (.ok (BitVec.ofNat 64 x), s)

/-- An element of an array that may be absent. -/
def State.graphOpt (s : State) (v : VetchSet) (base : Word) (i : Nat) : Engine Word × State :=
  if base = 0 then (.ok 0, s) else s.graphWord v base i

/-- An n32 element, which must lie below a limit. -/
def State.graphId (s : State) (v : VetchSet) (base : Word) (i limit : Nat) : Engine Nat × State :=
  let va := base + BitVec.ofNat 64 (4 * i)
  afterE (s.graphRead v va 4) fun x s => if limit ≤ x then (.fault 0x02 va, s) else (.ok x, s)

def State.graphBit (s : State) (v : VetchSet) (base : Word) (i : Nat) : Engine Bool × State :=
  afterE (s.graphRead v (base + BitVec.ofNat 64 (i / 8)) 1) fun x s => (.ok (x / 2 ^ (i % 8) % 2 = 1), s)

def State.graphFin (s : State) (v : VetchSet) (i : Nat) : Engine Bool × State :=
  if descFin v.desc = 0 then (.ok false, s) else s.graphBit v (descFin v.desc) i

/-- Set a bit of a bitmap: was it clear? -/
def State.graphSet (s : State) (v : VetchSet) (base : Word) (i : Nat) : Engine Bool × State :=
  let va := base + BitVec.ofNat 64 (i / 8)
  afterE (s.graphRead v va 1) fun x s =>
    if x / 2 ^ (i % 8) % 2 = 1 then (.ok false, s)
    else afterE (s.graphWrite v va [BitVec.ofNat 8 (x + 2 ^ (i % 8))]) fun _ s => (.ok true, s)

/-- The offsets of a vertex in an offset array: they neither decrease nor exceed NE (R292). -/
def State.graphSpan (s : State) (v : VetchSet) (base : Word) (i : Nat) : Engine (Nat × Nat) × State :=
  afterE (s.graphWord v base i) fun lo s =>
  afterE (s.graphWord v base (i + 1)) fun hi s =>
    if descNE v.desc < lo.toNat then (.fault 0x02 (base + BitVec.ofNat 64 (8 * i)), s)
    else if hi.toNat < lo.toNat || descNE v.desc < hi.toNat then (.fault 0x02 (base + BitVec.ofNat 64 (8 * (i + 1))), s)
    else (.ok (lo.toNat, hi.toNat), s)

/-- Go through a list, gathering. -/
def gatherE {α β : Type} (xs : List α) (f : α → State → Engine (List β) × State) (s : State) : Engine (List β) × State :=
  match xs with
  | [] => (.ok [], s)
  | x :: xs => afterE (f x s) fun a s => afterE (gatherE xs f s) fun b s => (.ok (a ++ b), s)

/-! ### Walks (R286) -/

def State.edgeJob (s : State) (v : VetchSet) (x d e : Nat) : Engine EdgeJob × State :=
  afterE (s.graphOpt v (descWord v.desc 24) e) fun val s =>
  afterE (s.graphOpt v (descWord v.desc 56) x) fun vval s =>
  afterE (s.graphOpt v (descWord v.desc 56) d) fun dval s =>
    (.ok { s := x, d := d, val := val, vval := vval, dval := dval }, s)

/-- The edges out of a vertex of the frontier. -/
def State.pushEdges (v : VetchSet) (x : Nat) (s : State) : Engine (List EdgeJob) × State :=
  afterE (s.graphBit v (descFront v.desc (descCur v.desc)) x) fun on s =>
    if !on then (.ok [], s)
    else afterE (s.graphSpan v (descWord v.desc 8) x) fun (lo, hi) s =>
      gatherE ((List.range (hi - lo)).map fun i => lo + i) (fun e s =>
        afterE (s.graphId v (descWord v.desc 16) e (descNV v.desc)) fun d s =>
        afterE (s.graphFin v d) fun fin s =>
          if fin then (.ok [], s) else afterE (s.edgeJob v x d e) fun j s => (.ok [j], s)) s

/-- The eligible edges into an unfinished vertex, with its destination state. -/
def State.pullEdges (v : VetchSet) (d : Nat) (s : State) : Engine (List (EdgeJob ⊕ (Nat × Word))) × State :=
  afterE (s.graphFin v d) fun fin s =>
    if fin then (.ok [], s)
    else
      afterE (s.graphWord v (descWord v.desc 64) d) fun run s =>
      afterE (s.graphSpan v (descWord v.desc 32) d) fun (lo, hi) s =>
      afterE (gatherE ((List.range (hi - lo)).map fun i => lo + i) (fun j s =>
        afterE (s.graphId v (descWord v.desc 40) j (descNV v.desc)) fun x s =>
        afterE (s.graphBit v (descFront v.desc (descCur v.desc)) x) fun on s =>
          if !on then (.ok [], s)
          else afterE (s.graphId v (descWord v.desc 48) j (descNE v.desc)) fun e s =>
            afterE (s.edgeJob v x d e) fun j s => (.ok [Sum.inl j], s)) s) fun js s =>
      (.ok (Sum.inr (d, run) :: js), s)

/-- The current frontier has a bit set. -/
def State.graphAny (s : State) (v : VetchSet) : Engine Bool × State :=
  afterE (gatherE (List.range (descNV v.desc)) (fun x s =>
    afterE (s.graphBit v (descFront v.desc (descCur v.desc)) x) fun on s => (.ok (if on then [x] else []), s)) s) fun xs s =>
    (.ok !xs.isEmpty, s)

/-! ### Sets -/

def State.vetch? (s : State) (cl : Nat) : Option VetchSet := (s.cluster cl).vetch
def State.setVetch (s : State) (cl : Nat) (v : VetchSet) : State := s.onCluster cl fun c => { c with vetch := some v }

/-- Keep what a failed attempt did to the memory system's services; the attempt itself is made again later. -/
def State.retryLater (s s' : State) : State := { s with teasel := s'.teasel, ops := s'.ops }

/-- A fault of an engine, to end the set (R292). -/
def State.vetchFault (s : State) (cl : Nat) (cause : Nat) (va : Word) : State :=
  s.onCluster cl fun c => { c with vetch := c.vetch.map fun v => { v with fault := v.fault <|> some (cause, va) } }

/-- Run an engine's attempt: on a fault the set is to end, on a wait nothing has happened. -/
def State.attempt {α : Type} (s : State) (cl : Nat) (x : Engine α × State) (k : α → State → State) : State :=
  match x with
  | (.ok a, s') => k a s'
  | (.fault c va, s') => s'.vetchFault cl c va
  | (.wait, s') => s.retryLater s'

/-- The owner cluster of a vertex (R281). -/
def VetchSet.owner (v : VetchSet) (x : Nat) : Nat := v.clusters.getD (x / 2 ^ descVB v.desc % v.clusters.length.max 1) 0

/-- `eact` with FIN 0 on a vertex of the round: nxt and the gathered mass (R289). -/
def State.activate (s : State) (cl : Nat) (x : Nat) : Engine Unit × State :=
  match s.vetch? cl with
  | none => (.ok (), s)
  | some v =>
    if descNV v.desc ≤ x then (.ok (), s)
    else
      afterE (s.graphSpan v (descWord v.desc 8) x) fun (lo, hi) s =>
      afterE (s.graphSet v (descFront v.desc (1 - descCur v.desc)) x) fun clear s =>
        (.ok (), if clear then s.setVetch cl { v with mass := v.mass + (hi - lo) } else s)

/-- Write a destination state that has changed, and activate under AUTO. -/
def State.putState (s : State) (cl : Nat) (v : VetchSet) (d : Nat) (x : Word) : Engine Unit × State :=
  afterE (s.graphWrite v (descWord v.desc 64 + BitVec.ofNat 64 (8 * d)) (toBytes 8 x.toNat)) fun _ s =>
    if descAuto v.desc then s.activate cl d else (.ok (), s)

/-- Combine an accepted contribution into its destination (R286, R290). -/
def State.accept (s : State) (cl : Nat) (d : Nat) (c : Word) : Engine Unit × State :=
  match s.vetch? cl with
  | none => (.ok (), s)
  | some v =>
    let more (f : Flags) (v : VetchSet) : VetchSet := { v with accepted := v.accepted + 1, fl := v.fl ||| f }
    let note (f : Flags) (s : State) : State := s.onCluster cl fun k => { k with vetch := k.vetch.map (more f) }
    if v.pull then
      let (x, f) := combine (descComb v.desc) (v.run.get 0 d) c
      (.ok (), note f (s.setVetch cl { v with run := v.run.put d x }))
    else
      afterE (s.graphWord v (descWord v.desc 64) d) fun old s =>
        let (x, f) := combine (descComb v.desc) old c
        if x = old then (.ok (), note f s) else afterE (s.putState cl v d x) fun _ s => (.ok (), note f s)

/-! ### Activations (R281, R287) -/

def edgeRegs (vs : List Word) : Regs :=
  (List.range 7).foldl (fun x i => x.write (.g (Fin.ofNat 64 (i + 1))) ((vs.getD i 0).setWidth 512)) {}

/-- Member cores of the graph's group in a cluster. -/
def State.edgeCores (s : State) (v : VetchSet) (cl : Nat) : List Nat :=
  match s.launch? v.launch, s.group? v.launch v.grp with
  | some l, some g => (l.placedCores g).filter fun c => clusterOf c == cl && !(s.core c).withdrawn
  | _, _ => []

/-- Create a task on the first core of a list that takes it: how many were passed over, and its key. -/
def State.firstBirth (s : State) (b : Nat → Birth) : List Nat → Nat → Option (Nat × Nat × State)
  | [], _ => none
  | c :: cs, n => match s.create (b c) with
    | some (k, s) => some (n, k, s)
    | none => s.firstBirth b cs (n + 1)

/-- Create an activation for a vertex's work, on the cores of its owner's cluster in rotation. -/
def State.birthEdge (s : State) (cl : Nat) (v : VetchSet) (vertex : Nat) (filter : Bool) (entry : Word) (regs : Regs) :
    Option (Nat × State) :=
  let at_ := v.owner vertex
  let cores := s.edgeCores v at_
  let turn := (s.cluster at_).turn % cores.length.max 1
  let birth (c : Nat) : Birth :=
    { launch := v.launch, core := c, kind := .edge cl filter, entry := entry, regs := regs, prio := v.prio, handler := true }
  match s.firstBirth birth (cores.drop turn ++ cores.take turn) 0 with
  | some (n, k, s) => some (k, s.onCluster at_ fun c => { c with turn := (turn + n + 1) % cores.length.max 1 })
  | none => none

/-- Change a job of a set. -/
def State.onJob (s : State) (cl i : Nat) (f : EdgeJob → EdgeJob) : State :=
  s.onCluster cl fun c => { c with vetch := c.vetch.map fun v => { v with jobs := v.jobs.modify i f } }

/-- The job may take its turn at its destination: no filter runs there, and every job before it is finished, in pull the earlier
in-edges, in push those whose contributions came earlier (R286, R291). -/
def VetchSet.turnOf (v : VetchSet) (i : Nat) (j : EdgeJob) : Bool :=
  let before := if v.pull then v.jobs.take i else (v.arrived.takeWhile fun k => k != i).filterMap fun k => v.jobs[k]?
  !(v.jobs.any fun x => x.d == j.d && (x.phase == 3 || x.phase == 4)) && before.all fun x => x.d != j.d || x.phase == 5

/-- Take a job one phase on, if it can go. -/
def State.stepJob (s : State) (cl i : Nat) : State :=
  match s.vetch? cl, (s.vetch? cl).bind fun v => v.jobs[i]? with
  | some v, some j =>
    let finish (s : State) : State := s.onJob cl i fun j => { j with phase := 5 }
    let passed := (s.launch? v.launch).any fun l => l.aborted
    match j.phase, j.contribution with
    | 0, _ =>
      if passed then finish s else
      let regs := edgeRegs [BitVec.ofNat 64 j.s, BitVec.ofNat 64 j.d, j.val, j.vval]
      match s.birthEdge cl v (if v.pull then j.d else j.s) false (descWord v.desc 96) regs with
      | some (k, s) =>
        let counted (v : VetchSet) : VetchSet := { v with edges := v.edges + 1 }
        (s.onJob cl i fun j => { j with phase := 1, task := some k }).onCluster cl fun c => { c with vetch := c.vetch.map counted }
      | none => s
    | 2, none => finish s
    | 2, some c =>
      if passed then finish s
      else if !v.turnOf i j then s
      else if descWord v.desc 104 = 0 then s.attempt cl (s.accept cl j.d c) fun _ s => finish s
      else
        let state := if v.pull then (.ok (v.run.get 0 j.d), s) else s.graphWord v (descWord v.desc 64) j.d
        s.attempt cl state fun old s =>
          let regs := edgeRegs [BitVec.ofNat 64 j.s, BitVec.ofNat 64 j.d, j.val, j.vval, old, c, j.dval]
          match s.birthEdge cl v j.d true (descWord v.desc 104) regs with
          | some (k, s) => s.onJob cl i fun j => { j with phase := 3, task := some k, contribution := none }
          | none => s
    | 4, none => finish s
    | 4, some c => s.attempt cl (s.accept cl j.d c) fun _ s => finish s
    | _, _ => s
  | _, _ => s

/-- Let every job of a running round go on. -/
def State.pumpSet (s : State) (cl : Nat) : State :=
  match s.vetch? cl with
  | some v =>
    if v.inRound && !v.ended && v.fault.isNone then
      (v.arrived ++ List.range v.jobs.length).foldl (fun s i => s.stepJob cl i) s
    else s
  | none => s

def State.pumpAll (s : State) : State := s.clusters.foldl (fun s e => s.pumpSet e.1) s

/-! ### Rounds and sets (R285, R286, R293) -/

/-- The mode of the next round. -/
def roundPull (d : Nat) : Bool :=
  let f := (descWord d 120).toNat
  let alpha := if descField d 112 47 40 = 0 then 4 else descField d 112 47 40
  let beta := if descField d 112 39 32 = 0 then 1 else descField d 112 39 32
  if descComb d = 7 ∨ descMode d = 2 then true
  else if descMode d = 1 then false
  else if descLast d = 0 ∧ alpha * descNE d < 64 * f then true
  else if descLast d = 1 ∧ 64 * f < beta * descNE d then false
  else descLast d = 1

/-- ROUND_START: the set ends, or the engines walk the graph and the round's activations begin. -/
def execRoundStart (cluster : Nat) (s : State) : Result :=
  .next <|
    match s.vetch? cluster with
    | none => s
    | some v =>
      if v.inRound || v.ended || v.fault.isSome then s
      else if v.rounds ≤ v.round || v.stop then s.setVetch cluster { v with ended := true }
      else s.attempt cluster (s.graphRead v v.graph 128) fun d s =>
        let v := { v with desc := d }
        s.attempt cluster (s.graphAny v) fun any s =>
          if !any then s.setVetch cluster { v with ended := true }
          else if roundPull d then
            s.attempt cluster (gatherE (List.range (descNV d)) (State.pullEdges v) s) fun xs s =>
              let jobs := xs.filterMap fun x => match x with
                | .inl j => some j
                | .inr _ => none
              let run := xs.foldl (fun m x => match x with
                | .inr (d, w) => Sparse.put m d w
                | .inl _ => m) []
              (s.setVetch cluster { v with inRound := true, pull := true, jobs := jobs, run := run }).pumpSet cluster
          else
            s.attempt cluster (gatherE (List.range (descNV d)) (State.pushEdges v) s) fun jobs s =>
              (s.setVetch cluster { v with inRound := true, pull := false, jobs := jobs, run := [] }).pumpSet cluster

/-- The final writes of `run` in pull. -/
def State.writeRuns (s : State) (cl : Nat) : List (Nat × Word) → Engine Unit × State
  | [] => (.ok (), s)
  | (d, x) :: rest => match s.vetch? cl with
    | none => (.ok (), s)
    | some v => afterE (s.graphWord v (descWord v.desc 64) d) fun old s =>
      afterE (if x = old then (.ok (), s) else s.putState cl v d x) fun _ s => s.writeRuns cl rest

/-- The end of a round: destination states, finishes, cur, CUR, LAST and F. -/
def State.closeRound (s : State) (cl : Nat) (v : VetchSet) : Engine VetchSet × State :=
  let d := v.desc
  afterE (s.writeRuns cl (if v.pull then v.run else [])) fun _ s =>
  let v := (s.vetch? cl).getD v
  afterE (gatherE (if descFin d = 0 then [] else v.finishes) (fun x s =>
    afterE (s.graphSet v (descFin d) x) fun _ s => (.ok ([] : List Unit), s)) s) fun _ s =>
  afterE (s.graphWrite v (descFront d (descCur d)) (List.replicate ((descNV d + 7) / 8) 0)) fun _ s =>
  afterE (s.graphRead v (v.graph + 112) 1) fun b s =>
  let byte := field b 7 6 * 64 + (1 - descCur d) * 32 + field b 4 4 * 16 + (if v.pull then 8 else 0) + field b 2 0
  afterE (s.graphWrite v (v.graph + 112) [BitVec.ofNat 8 byte]) fun _ s =>
  afterE (s.graphWrite v (v.graph + 120) (toBytes 8 v.mass)) fun _ s => (.ok v, s)

/-- ROUND_END: every walk, activation, filter and combine of the round is complete. -/
def execRoundEnd (cluster : Nat) (s : State) : Result :=
  .next <|
    match s.vetch? cluster with
    | none => s
    | some v =>
      if v.inRound && !v.ended && v.fault.isNone && v.jobs.all fun j => j.phase == 5 then
        s.attempt cluster (s.closeRound cluster v) fun v s =>
          s.setVetch cluster
            { v with inRound := false, jobs := [], arrived := [], run := [], finishes := [], mass := 0, round := v.round + 1,
                     flast := BitVec.ofNat 64 v.mass,
                     pmode := if v.pull && v.round < 32 then v.pmode ||| BitVec.twoPow 32 v.round else v.pmode }
      else s

/-- ENGINE_FAULT: the set ends at once (R292). -/
def execEngineFault (cluster : Nat) (s : State) : Result :=
  .next <|
    match s.vetch? cluster with
    | none => s
    | some v => match v.fault with
      | some (c, va) =>
        s.setVetch cluster { v with ended := true, inRound := false, jobs := [], cause := 0x5E, inner := c, va := va, fault := none }
      | none => s

/-- The round record (R293). -/
def VetchSet.words (v : VetchSet) : List Nat :=
  [v.cause * 2 ^ 56 + v.inner * 2 ^ 48 + v.round % 65536 * 2 ^ 32 + v.pmode.toNat, v.edges, v.accepted, v.flast.toNat,
   v.va.toNat, v.fl.toNat, 0, 1]

/-- The dies of the set's engines, and of the activations that run on their cores. -/
def VetchSet.dies (v : VetchSet) : List Nat := (v.clusters.map dieOfCluster).eraseDups

/-- An activation of the set is still live: its writes are to come before DONEW. -/
def State.setRuns (s : State) (cl : Nat) (v : VetchSet) : Bool :=
  s.allTasks.any fun e => e.2.launch == v.launch && match e.2.kind with
    | .edge c _ => c == cl
    | _ => false

/-- The round record is written, DONEW last (R293, R304). -/
def State.writeRecord (s : State) (v : VetchSet) : State :=
  (List.range 8).foldl (fun s i => s.lsEngineWrite v.core (v.record + 8 * i) (toBytes 8 (v.words.getD i 0))) s

/-- The set's engines become free. -/
def State.freeSet (s : State) (cl : Nat) (v : VetchSet) : State :=
  v.clusters.foldl (fun s c => s.onCluster c fun k => { k with taken := none }) (s.onCluster cl fun c => { c with vetch := none })

/-- A set has ended. The writes of the set and of its activations reach the device, the record is written, the arrival is made and the
engines become free (R293). The record waits for the activations and for lines that a lease holds (spec/09_memory_offers.md R180), the
arrival while the core holds 256 (spec/11_ordering_sync.md R204). -/
def State.closeSet (s : State) (cl : Nat) (v : VetchSet) : State :=
  let s := if v.closed then s else v.dies.foldl State.writeThroughAll s
  if !v.closed && (s.setRuns cl v || v.dies.any s.rdcBlocked) then s
  else
    let s := if v.closed then s else s.writeRecord v
    match v.arr with
    | some g =>
      if s.arrivalFull v.launch g v.core then s.setVetch cl { v with closed := true }
      else ((s.arrive v.launch g v.core none).2).freeSet cl v
    | none => s.freeSet cl v

/-- SET_END. -/
def execSetEnd (cluster : Nat) (s : State) : Result :=
  .next <|
    match s.vetch? cluster with
    | some v => if v.ended then s.closeSet cluster v else s
    | none => s

/-! ### `ecmd` (R282, R283) -/

/-- The `ecmd` of a task that waits for its reply. -/
def State.pendingEcmd (s : State) (o : OpBlock) (cls : Nat) : Option (Task × LongOp × Line × Option MCmd) :=
  match s.task? o.task with
  | none => none
  | some t =>
    match List.find? (fun (l : LongOp) => l.op == o.op) t.long with
    | some l => match l.act with
      | .ecmd u off b c false =>
        if l.slot.isNone && field u.toNat 15 14 == cls && u.toNat % 4096 == o.unit && off == o.offset then some (t, l, b, c) else none
      | _ => none
    | none => none

/-- A reply word: STATUS 0 ACCEPTED, 1 BUSY, 2 REFUSED with a cause. -/
def ecmdVals (status cause : Nat) : List Line := [BitVec.ofNat 512 (cause * 256 + status), if status = 0 then 1 else 0]

def State.ecmdReply (s : State) (key op status cause : Nat) : State :=
  s.onTask key fun t => { t with long := t.long.map fun l => match l.act with
    | .ecmd u off b c false => if l.op = op then { l with vals := ecmdVals status cause, act := .ecmd u off b c true } else l
    | _ => l }

/-- Fields of the block for a matrix unit. -/
def blockWord (b : Line) (w : Nat) : Nat := sliceLine b w 8

/-- MAJ and FN that a block may name. -/
def blockMatrix (maj fn : Nat) : Bool :=
  (maj == 0xD0 && fn == 1) || (maj == 0xD1 && (fn == 0 || fn == 1)) || (maj == 0xD2 && fn == 0) || (maj == 0xD3 && fn ≤ 1)

/-- Why a block for a matrix unit is refused: it names another instruction, or a type that the instruction does not accept and
with which it is none (log entry 46). Reserved fields are ignored (spec/00_scope.md R5). -/
def blockRefused (b : Line) : Option Nat :=
  let w := blockWord b 8
  let maj := field w 15 8
  let fn := field w 3 0
  if !blockMatrix maj fn then some 0x01
  else match opcode maj fn with
    | some (r, _) =>
      let ty := if r.types.isEmpty then none else Ty.ofCode (field w 20 16)
      if tyOk r ty then none else some 0x01
    | none => some 0x01

/-- The checks at issue of the command in a block, then the command. -/
def State.blockCheck (s : State) (b : Line) (op : Nat) (k : MCmd → State → State) : State :=
  let w := blockWord b 8
  let maj := field w 15 8
  let fn := field w 3 0
  let cap := BitVec.ofNat 64 (blockWord b 0)
  let x := BitVec.ofNat 64 (blockWord b 16)
  let y := BitVec.ofNat 64 (blockWord b 24)
  let imm := sliceLine b 32 4
  let ty := field w 20 16
  let go (p q : Word) (l : Line) (s : State) : State :=
    k (mcmdOf maj fn ty imm s.cur s.t.sched.core op s.t.pc cap p q l) s
  if maj = 0xD0 then s.mfmtCheck cap x go
  else if maj = 0xD1 ∧ fn = 0 then s.capCheck cap 48 false fun s => go x y 0 s
  else if maj = 0xD1 then s.mrowCheck cap x y (Ty.ofCode ty) imm go
  else if maj = 0xD2 then s.capCheck cap 48 false fun s => go 0 0 0 s
  else if fn = 0 then s.msaveCheck cap go
  else s.mrestCheck cap x go

/-- The command of an `ecmd` leaves the core; one for a matrix unit enters the outbound queue in its turn (R254, R283). -/
def State.performEcmd (h : Held) (s : State) : State :=
  let s := s.onT fun t => { t with long := t.long.map fun l => if l.op = h.op then { l with slot := none } else l }
  match (List.find? (fun (l : LongOp) => l.op == h.op) s.t.long).map LongOp.act with
  | some (.ecmd _ _ _ (some c) _) => s.pushCmd c
  | _ => s

/-- Some core of the cluster belongs to the partition. -/
def State.clusterPart (s : State) (cl part : Nat) : Bool := (List.range 16).any fun i => s.corePart (16 * cl + i) == part

def execEcmd (o : OpE) (s : State) : Result :=
  .next (gated Rows.ecmd (.e o) s fun s =>
    let u := s.readW o.a
    let va := s.readW o.b.reg
    let cls := field u.toNat 15 14
    let unit := u.toNat % 4096
    let core := s.t.sched.core
    let ds := [o.dst, .p o.pE]
    if s.t.versioned then s.trap 0x0C
    else if u.toNat / 2 ^ 16 ≠ 0 || field u.toNat 13 12 ≠ 0 then s.trap 0x02
    else if cls % 2 = 1 || (cls = 0 && 256 ≤ unit) then s.trap 0x56
    else if !(if cls = 0 then s.clusterPart unit (s.corePart core) else s.corePart unit == s.corePart core) then s.trap 0x56
    else match windowFor core va with
      | .ls off =>
        if off % 64 ≠ 0 then s.trapVa 0x0A va
        else if 64 ≤ s.t.outcnt then s.park .outcnt
        else
          let b : Line := BitVec.ofNat 512 (s.lsLoad s.t off 64)
          let send (c : Option MCmd) (s : State) : State :=
            let h : Held := { slot := 16, pc := s.t.pc, ins := .ecmd o, op := s.ops, x := u, y := va, z := 0, line := b }
            let s := (s.issueLong ds [] (.ecmd u off b c false)).sendCommand h State.performEcmd
            if s.t.held.any fun x => x.op == h.op then
              s.onT fun t => { t with long := t.long.map fun l => if l.op = h.op then { l with slot := some (t.attach.getD 16) } else l }
            else s
          if s.t.lsOwed s.ops off 64 then s.hold
          else if cls = 2 then
            match blockRefused b with
            | some c => s.issueLong ds (ecmdVals 2 c) (.ready 0)
            | none => s.blockCheck b s.ops fun c s => if 16 ≤ s.myCore.outq.length then s.hold else send (some c) s
          else s.releaseThen .device fun s => send none s
      | _ => s.trap 0x56)

/-- ECMD_MATRIX: the command has entered the outbound queue of its core, and the reply is ACCEPTED. -/
def execEcmdMatrix (o : OpBlock) (s : State) : Result :=
  .next <|
    match s.pendingEcmd o 2 with
    | some (_, l, _, some _) => s.ecmdReply o.task l.op 0 0
    | _ => s

/-! ### Blocks for a Vetch engine (R284) -/

/-- The checks of R284 in the order of its table. -/
def State.vetchCheck (s : State) (t : Task) (l : Launch) (unit : Nat) (b : Line) : Engine (Except Nat VetchSet) × State :=
  let w1 := blockWord b 8
  let w2 := blockWord b 16
  let w3 := blockWord b 24
  let cmd := field w1 31 24
  let graph := BitVec.ofNat 64 (blockWord b 0)
  let arr := field w3 8 8 = 1
  let bgrp := w3 % 256
  let v : VetchSet := { graph := graph, launch := t.launch, core := t.sched.core, root := l.root, part := l.part,
                        prio := t.sys.prio, rounds := w1 % 65536, record := w2, arr := if arr then some bgrp else none, grp := 0,
                        clusters := [], unit := unit }
  let no (c : Nat) (s : State) : Engine (Except Nat VetchSet) × State := (.ok (.error c), s)
  if !(cmd == 1 || cmd == 2) || w1 / 2 ^ 32 ≠ 0 || field w1 23 16 ≠ 0 || w2 % 64 ≠ 0 || 2 ^ 19 < w2 + 64 || w3 / 2 ^ 9 ≠ 0 ||
      sliceLine b 32 32 ≠ 0 then no 0x02 s
  else if graph.toNat % 64 ≠ 0 then no 0x0A s
  else match s.graphRead v graph 128 with
    | (.wait, s) => (.wait, s)
    | (.fault c _, s) => no c s
    | (.ok d, s) =>
      let clusters := match l.groups[descGrp d]? with
        | some g => ((l.placedCores g).map clusterOf).eraseDups
        | none => []
      let bMember := match l.groups[bgrp]? with
        | some g => l.hasMember g t.sched.core
        | none => false
      let other := s.clusters.any fun e => e.2.vetch.any fun x => x.graph == graph && x.root == l.root && x.launch != t.launch
      if descBad d then no 0x02 s
      else if descLocal d then no 0x14 s
      else if l.groups.length ≤ descGrp d || (arr && l.groups.length ≤ bgrp) then no 0x65 s
      else if arr && !bMember then no 0x60 s
      else if !clusters.contains unit then no 0x56 s
      else if descComb d = 7 ∧ descMode d = 1 then no 0x45 s
      else if descWord d 96 = 0 then no 0x5B s
      else if other then no 0x56 s
      else (.ok (.ok { v with grp := descGrp d, clusters := clusters, desc := d, flast := descWord d 120 }), s)

/-- STOP: the running set of the graph ends after its current round. -/
def State.stopSet (s : State) (graph : Word) (launch : Nat) : State :=
  { s with clusters := s.clusters.map fun e =>
      (e.1, { e.2 with vetch := e.2.vetch.map fun x => if x.graph = graph ∧ x.launch = launch then { x with stop := true } else x }) }

/-- RUN on engines that are free: the record is emptied and the engines are taken. -/
def State.startSet (s : State) (unit : Nat) (v : VetchSet) : State :=
  let s := (List.range 8).foldl (fun s i => s.lsSetFull v.core (v.record + 8 * i) false) s
  let s := v.clusters.foldl (fun s c => s.onCluster c fun k => { k with taken := some unit }) s
  if v.rounds = 0 then s.closeSet unit v else s.setVetch unit v

/-- The coordinating engine answers a block; `stop` says which of the two commands it names. -/
def State.vetchBlock (s : State) (o : OpBlock) (stop : Bool) : State :=
  match s.pendingEcmd o 0 with
  | none => s
  | some (t, l, b, _) =>
    if (field (blockWord b 8) 31 24 == 2) != stop then s
    else match s.launch? t.launch with
      | none => s
      | some la =>
        match s.vetchCheck t la o.unit b with
        | (.wait, s') => s.retryLater s'
        | (.fault c _, s) => s.ecmdReply o.task l.op 2 c
        | (.ok (.error c), s) => s.ecmdReply o.task l.op 2 c
        | (.ok (.ok v), s) =>
          if stop then (s.stopSet v.graph t.launch).ecmdReply o.task l.op 0 0
          else if v.clusters.any fun c => (s.cluster c).taken.isSome then s.ecmdReply o.task l.op 1 0
          else (s.ecmdReply o.task l.op 0 0).startSet o.unit v

def execVetchRun (o : OpBlock) (s : State) : Result := .next (s.vetchBlock o false)
def execVetchStop (o : OpBlock) (s : State) : Result := .next (s.vetchBlock o true)

/-! ### `ecomb` and `eact` (R288, R289) -/

/-- The set that an activation works for, if it still runs. -/
def State.mySet (s : State) : Option (Nat × VetchSet) :=
  match s.t.kind with
  | .edge cl _ => (s.vetch? cl).bind fun v =>
      if v.jobs.any fun j => j.task == some s.cur then some (cl, v) else none
  | _ => none

def Kind.isEdge : Kind → Bool
  | .edge _ _ => true
  | _ => false

def execEcomb (o : OpE) (s : State) : Result :=
  .next (gated Rows.ecomb (.e o) s fun s =>
    if !s.t.kind.isEdge then s.trap 0x5B
    else
      let bad := match s.mySet with
        | some (_, v) => o.ty != some (combType (descComb v.desc))
        | none => false
      if bad then s.trap 0x45
      else
        let x := s.readW o.b.reg
        s.ending false fun s =>
          let s := match s.mySet with
            | some (cl, v) =>
              let c := if o.imm.getLsbD 0 then none else some x
              let mine (j : EdgeJob) : EdgeJob := if j.task = some s.cur then { j with contribution := c } else j
              s.setVetch cl { v with jobs := v.jobs.map mine }
            | none => s
          s.retireTask s.cur none)

/-- `eact` within a round. -/
def State.eactRound (s : State) (x : Nat) (fin : Bool) : State :=
  match s.mySet with
  | none => s.advance
  | some (cl, v) =>
    if fin then
      (if x < descNV v.desc then s.setVetch cl { v with finishes := if v.finishes.contains x then v.finishes else v.finishes ++ [x] }
       else s).advance
    else match s.activate cl x with
      | (.ok _, s) => s.advance
      | (.fault c va, s) => (s.vetchFault cl c va).advance
      | (.wait, s') => (s.retryLater s').hold

/-- Translate an access of the running task for `eact`, with the rights of an offer or a load, to its home. -/
def State.eactReach (s : State) (write : Bool) (va : Word) (n : Nat) (k : Nat → State → State) : State :=
  match windowOf va with
  | .ls _ | .dls _ _ => s.trapVa 0x14 va
  | .mapped =>
    match s.reach s.t (s.t.asks (if write then .offer else .load) false write) va n with
    | (.fault c, s) => s.trapVa c va
    | (.storage a p, s) => s.meetStorage va a p
    | (.wait, s) => s.hold
    | (.ok pa _, s) =>
      if spaceOf pa ≠ .dram then s.trapVa 0x1F va
      else if !s.mayPerform s.t s.ops va.toNat n (some pa) .both then s.hold
      else k pa (s.atHome s.t.sched.core pa)

def State.eactRead (s : State) (va : Word) (n : Nat) (k : Nat → State → State) : State :=
  s.eactReach false va n fun pa s =>
    let (l, s) := s.homeRead pa
    k (sliceLine l (pa % 64) n) s

/-- `eact` on a descriptor: device-scope offers performed at home. -/
def State.eactGraph (s : State) (graph : Word) (x : Nat) (fin : Bool) : State :=
  if s.t.versioned then s.trapVa 0x0C graph
  else s.eactRead graph 4 fun nv s =>
    if nv ≤ x then s.advance
    else s.eactRead (graph + 112) 8 fun w s =>
      s.eactRead (graph + (if fin then 88 else 72 + 8 * BitVec.ofNat 64 (field w 5 5))) 8 fun base s =>
        if fin && base = 0 then s.advance
        else s.eactReach true (BitVec.ofNat 64 (base + x / 8)) 1 fun pa s =>
          let (l, s) := s.homeRead pa
          let b := sliceLine l (pa % 64) 1
          let set (s : State) : State := s.homeWrite pa (placeLine (b ||| 2 ^ (x % 8)) (pa % 64) 1) (maskOf (pa % 64) 1)
          if fin || b / 2 ^ (x % 8) % 2 = 1 then (set s).advance
          else s.eactRead (graph + 8) 8 fun outoff s =>
            s.eactRead (BitVec.ofNat 64 (outoff + 8 * x)) 8 fun lo s =>
              s.eactRead (BitVec.ofNat 64 (outoff + 8 * x + 8)) 8 fun hi s =>
                s.eactReach true (graph + 120) 8 fun pf s =>
                  let (l, s) := s.homeRead pf
                  let f := (sliceLine l (pf % 64) 8 + 2 ^ 64 + hi - lo) % 2 ^ 64
                  (set (s.homeWrite pf (placeLine f (pf % 64) 8) (maskOf (pf % 64) 8))).advance

def execEact (o : OpE) (s : State) : Result :=
  .next (gated Rows.eact (.e o) s fun s =>
    let x := (s.readW o.a).toNat
    let fin := o.imm.getLsbD 0
    if o.b.reg = .zero then if s.t.kind.isEdge then s.eactRound x fin else s.trap 0x5B
    else s.eactGraph (s.readW o.b.reg) x fin)

end Sys2Proof.Machine
end

