-- ==== Sys2Proof/Machine/Index.lean ====
section
/-! DEFINITION. Active messages and index jobs, major 0xE2 (spec/17_edge.md R297-R301). -/

namespace Sys2Proof.Machine

open Sys2Proof

/-! ### Active messages (R297) -/

/-- The request of a held or issued `amsg` is queued at its owner. -/
def State.performAmsg (h : Held) (s : State) : State :=
  match windowOf h.x, h.ins with
  | .dls owner _, .amsg o =>
    let n := o.imm.toNat / 64 % 4
    let args := (List.range n).map fun i => BitVec.ofNat 64 (sliceLine h.line (8 * i) 8)
    let core := s.t.sched.core
    let r : Request := { task := s.cur, tid := s.t.sys.tid, core := core, launch := s.t.launch, op := none, tag := h.tag?,
                         address := h.x, routine := h.y, args := args, scope := o.scope }
    (s.onCore core fun c => { c with amsgs := c.amsgs + 1 }).queueRequest owner r
  | _, _ => s

def execAmsg (o : OpE) (s : State) : Result :=
  .next (gated Rows.amsg (.e o) s fun s =>
    let va := s.readW o.a
    let tag := o.imm.toNat % 64
    if s.t.versioned then s.trap 0x0C
    else s.delegOwner va fun _ s =>
      if 255 ≤ s.t.tagCount.get 0 tag || 64 ≤ s.myCore.amsgs then s.hold
      else s.releaseThen o.scope fun s =>
        let args := ((argRegs o.c.reg (o.imm.toNat / 64 % 4)).map s.readW).map BitVec.toNat
        let (op, s) := s.nextOp
        let h : Held := { slot := 16, pc := s.t.pc, ins := .amsg o, op := op, x := va, y := s.readW o.b.reg, z := 0,
                          line := BitVec.ofNat 512 (args.foldr (fun a x => a + 2 ^ 64 * x) 0) }
        ((s.onT fun t => t.useTag tag).sendCommand h State.performAmsg).advance)

/-! ### Index jobs (R298-R300) -/

/-- The fields of a job record; STATE 0 idle, 1 running, 2 complete, 3 suspended. -/
structure JobRec where
  base : Word
  n : Nat
  limit : Nat
  idx : Nat
  data : Nat
  cursor : Nat
  esz : Nat
  opc : Nat
  ity : Nat
  state : Nat
  deriving DecidableEq, Repr

def JobRec.ofLine (l : Line) : JobRec :=
  let w (i : Nat) : Nat := sliceLine l i 4
  { base := BitVec.ofNat 64 (sliceLine l 0 8), n := w 8, limit := w 12, idx := w 16, data := w 20, cursor := w 24,
    esz := field (w 28) 31 24, opc := field (w 28) 23 20, ity := field (w 28) 19 18, state := field (w 28) 17 16 }

/-- The record is malformed for this instruction (R299). -/
def JobRec.bad (r : JobRec) (l : Line) (scatter : Bool) : Bool :=
  3 < r.esz || sliceLine l 28 1 ≠ 0 || sliceLine l 40 24 ≠ 0 || 7 < r.opc || (!scatter && r.opc ≠ 0) ||
  (r.opc == 7 && r.esz ≠ 2) || r.base.toNat % 2 ^ r.esz ≠ 0 || r.state == 1

/-- Bytes 24 to 31 of a record: CURSOR, ESZ, OP, ITYPE, STATE and CAUSE. -/
def IJob.word (j : IJob) (cursor state cause : Nat) : Nat :=
  cursor + 2 ^ 32 * (j.esz * 2 ^ 24 + j.opc * 2 ^ 20 + j.ity * 2 ^ 18 + state * 2 ^ 16 + cause * 2 ^ 8)

/-- The job goes to the cluster's index engine; its record says that it runs. -/
def State.performJob (h : Held) (s : State) : State :=
  let core := s.t.sched.core
  let r := JobRec.ofLine h.line
  let scatter := match h.ins with
    | .scat _ => true
    | _ => false
  let j : IJob := { op := h.op, task := s.cur, core := core, offset := h.y.toNat % 2 ^ 19, scatter := scatter,
                    tag := h.tag?.getD 0, root := s.rootOf s.t, sys := s.t.isHandler, base := r.base,
                    n := r.n, limit := r.limit, idx := r.idx, data := r.data, esz := r.esz, opc := r.opc, ity := r.ity,
                    cursor := if r.state = 3 then r.cursor else 0 }
  let s := s.lsEngineWrite core (j.offset + 24) (toBytes 8 (j.word j.cursor 1 0))
  s.onCluster (clusterOf core) fun c => { c with jobs := c.jobs ++ [j] }

def issueJob (r : Row) (o : OpE) (ins : Instr) (scatter : Bool) (s : State) : Result :=
  .next (gated r (.e o) s fun s =>
    let va := s.readW o.b.reg
    let tag := o.imm.toNat % 64
    let core := s.t.sched.core
    if s.t.versioned then s.trap 0x0C
    else match windowFor core va with
      | .ls off =>
        let l : Line := BitVec.ofNat 512 (s.lsLoad s.t off 64)
        if s.t.lsOwed s.ops off 64 then s.hold
        else if off % 64 ≠ 0 || (JobRec.ofLine l).bad l scatter then s.trapVa 0x5A va
        else if 255 ≤ s.t.tagCount.get 0 tag || 16 ≤ (s.cluster (clusterOf core)).jobs.length then s.hold
        else
          let (op, s) := s.nextOp
          let h : Held := { slot := 16, pc := s.t.pc, ins := ins, op := op, x := 0, y := BitVec.ofNat 64 off, z := 0, line := l }
          ((s.onT fun t => t.useTag tag).sendCommand h State.performJob).advance
      | _ => s.trapVa 0x5A va)

def execGath (o : OpE) (s : State) : Result := issueJob Rows.gath o (.gath o) false s
def execScat (o : OpE) (s : State) : Result := issueJob Rows.scat o (.scat o) true s

def execIjob (o : OpE) (s : State) : Result :=
  .next (gated Rows.ijob (.e o) s fun s =>
    let va := s.readW o.b.reg
    match windowFor s.t.sched.core va with
    | .ls off => if off % 64 ≠ 0 then s.trapVa 0x5A va else s.issueLong [o.dst] [] (.ijob off)
    | _ => s.trapVa 0x5A va)

/-- What `ijob` answers (R301). -/
def State.jobWord (s : State) (core off : Nat) : Nat :=
  match List.find? (fun (j : IJob) => j.core == core && j.offset == off) (s.cluster (clusterOf core)).jobs with
  | some j => j.word j.cursor 1 0
  | none => s.lsRead core (off + 24) 8

/-- The new value of an element of w bits (R298). -/
def scatterValue (opc w old x : Nat) : Nat :=
  let a := (BitVec.ofNat w old).toInt
  let b := (BitVec.ofNat w x).toInt
  match opc with
  | 0 => x
  | 1 => (old + x) % 2 ^ w
  | 2 => if b < a then x else old
  | 3 => if a < b then x else old
  | 4 => min old x
  | 5 => max old x
  | 6 => old ||| x
  | _ => (offerValue .fadd .f32 old x 0).1

/-- The job leaves the engine: its record is written and its tag completes. -/
def State.endJob (s : State) (j : IJob) (cursor state cause : Nat) (fva : Option Word) : State :=
  let s := s.onCluster (clusterOf j.core) fun c => { c with jobs := c.jobs.filter fun x => x.op != j.op }
  let s := s.lsEngineWrite j.core (j.offset + 24) (toBytes 8 (j.word cursor state cause))
  let s := match fva with
    | some va => s.lsEngineWrite j.core (j.offset + 32) (toBytes 8 va.toNat)
    | none => s
  (s.engineLeaves j.op).completeTag j.task j.tag

/-- The element is performed: read into DATA, or updated from it. -/
def State.jobElement (s : State) (j : IJob) (old : Nat) (put : Nat → State → State) : State :=
  let n := 2 ^ j.esz
  let at_ := j.data + n * j.cursor
  if j.scatter then put (scatterValue j.opc (8 * n) old (s.lsRead j.core at_ n)) s
  else s.lsEngineWrite j.core at_ (toBytes n old)

/-- The job goes on past an element. -/
def State.jobNext (s : State) (j : IJob) : State :=
  if j.n ≤ j.cursor + 1 then s.endJob j j.n 2 0 none
  else (s.engineLeaves j.op).onCluster (clusterOf j.core) fun c =>
    { c with jobs := c.jobs.map fun x => if x.op = j.op then { x with cursor := x.cursor + 1 } else x }

/-- INDEX_ELEMENT: the next element of a job. -/
def execIndexElement (cluster job : Nat) (s : State) : Result :=
  .next <|
    match List.find? (fun (j : IJob) => j.op == job) (s.cluster cluster).jobs with
    | none => s
    | some j =>
      let waits := match s.task? j.task with
        | some t => t.loadsHeld j.op || t.stores.any fun x => x.op < j.op
        | none => false
      if waits then s
      else if j.n ≤ j.cursor then s.endJob j j.n 2 0 none
      else
        let n : Nat := 2 ^ j.esz
        let i := s.jobIndex j
        let va := s.jobAddress j
        if j.limit ≠ 0 && decide ((j.limit : Int) ≤ i) then s.endJob j j.cursor 3 0x5A (some va)
        else match windowFor j.core va with
          | .ls off => (s.jobElement j (s.lsRead j.core off n) fun x s => s.lsWrite j.core off (toBytes n x)).jobNext j
          | .dls owner off => match s.ownerFault j.core owner with
            | some c => s.endJob j j.cursor 3 c (some va)
            | none => (s.jobElement j (s.lsRead owner off n) fun x s => s.lsWrite owner off (toBytes n x)).jobNext j
          | .mapped =>
            match s.engineReach j.core j.root j.sys j.op (if j.scatter then .store else .load) va n with
            | (.error (.fault c), s) => s.endJob j j.cursor 3 c (some va)
            | (.error _, s) => s
            | (.ok (pa, _), s) =>
              if spaceOf pa ≠ .dram then s.endJob j j.cursor 3 0x1F (some va)
              else
                let (l, s) := (s.atHome j.core pa).homeRead pa
                (s.jobElement j (sliceLine l (pa % 64) n) fun x s =>
                  s.homeWrite pa (placeLine x (pa % 64) n) (maskOf (pa % 64) n)).jobNext j

end Sys2Proof.Machine
end

