-- ==== Sys2Proof/Machine/Sequence.lean ====
section
/-! DEFINITION. Decoding at a code address (spec/03_encoding.md R75 steps 1 to 6), the repetition sequencer (major 0xC0,
spec/07_arithmetic.md R142-R145) and guard slots (major 0xC1, R146-R148). -/

namespace Sys2Proof.Machine

open Sys2Proof

/-! ### Decoding at a code address -/

/-- What a decode at a code address answers. -/
inductive Got where
  | ins (l : Line) (i : Instr)
  | trap (cause : Nat) (va : Word)
  | storage (pteAt : Nat) (pte : Pte)
  | wait
  deriving DecidableEq, Repr

/-- Steps 1 to 3, then the pair constraints if `pairs`, then steps 5 and 6, for the task in focus. -/
def State.decodeAt (s : State) (pairs : Bool) (pc : Word) : Got × State :=
  match s.fetchLine s.t.sched.core (s.rootOf s.t) s.t.isHandler pc with
  | (.fault c va, s) => (.trap c va, s)
  | (.storage a p, s) => (.storage a p, s)
  | (.wait, s) => (.wait, s)
  | (.line l, s) =>
    let k := pc.toNat % 8
    let w := slotWord l k
    (if lineReserved l ≠ 0 then .trap 0x02 0
     else if !assigned w then .trap 0x01 0
     else if pairs && pairsAt (linePair l) k && !pairOk w (slotWord l (k + 1)) then .trap 0x07 0
     else match decode w with
       | .ok i => .ins l i
       | .error e => .trap (DecodeError.cause e) 0, s)

/-! ### Renumbering (R143) -/

/-- What an iteration adds: vector, mask and tag strides. -/
structure Shift where
  v : Nat
  m : Nat
  t : Nat
  deriving DecidableEq, Repr

def Sequencer.shift (q : Sequencer) (j : Nat) : Shift := { v := j * q.sv, m := j * q.sm, t := j * q.st }

def Reg.renumber (k : Shift) : Reg → Reg
  | .v n => .v (Fin.ofNat 32 (n.val + k.v))
  | .m n => if n = 0 then .m 0 else .m (Fin.ofNat 8 (1 + (n.val - 1 + k.m) % 7))
  | r => r

def Src.renumber (k : Shift) (x : Src) : Src := { x with reg := Reg.renumber k x.reg }

/-- Copy tags stand in IMM<5:0> of major 0x8C (spec/09_memory_offers.md R165). -/
def Flds.renumber (maj : Nat) (k : Shift) : Flds → Flds
  | .a o => .a { o with dst := Reg.renumber k o.dst, a := Src.renumber k o.a, b := Src.renumber k o.b, c := Src.renumber k o.c }
  | .p o => .p { o with p1 := Reg.renumber k o.p1, a := Src.renumber k o.a, b := Src.renumber k o.b }
  | .m o => .m o
  | .b o => .b o
  | .e o =>
    let tag := (o.imm.toNat % 64 + k.t) % 64
    let imm := if maj = 0x8C then BitVec.ofNat 28 (o.imm.toNat / 64 * 64 + tag) else o.imm
    .e { o with dst := Reg.renumber k o.dst, a := Reg.renumber k o.a, b := Src.renumber k o.b, c := Src.renumber k o.c, imm := imm }
  | .s o => .s o

/-- The function code of a row with these fields. -/
def rowFn (r : Row) : Flds → Nat
  | .a o => r.fn.code o.rnd o.cond
  | .p o => r.fn.code .frmode o.cond
  | _ => r.fn.code .frmode .eq

/-- The instruction of a row with these fields. -/
def remake (r : Row) (f : Flds) : Option Instr :=
  match opcode r.maj (rowFn r f), f with
  | some (_, .a mk), .a o => some (mk o)
  | some (_, .p mk), .p o => some (mk o)
  | some (_, .m mk), .m o => some (mk o)
  | some (_, .b mk), .b o => some (mk o)
  | some (_, .e mk), .e o => some (mk o)
  | some (_, .s mk), .s o => some (mk o)
  | _, _ => none

/-- An instruction as iteration j issues it. -/
def Sequencer.at (q : Sequencer) (j : Nat) (i : Instr) : Instr :=
  match i.info with
  | some (r, f) => (remake r (Flds.renumber r.maj (q.shift j) f)).getD i
  | none => i

/-! ### `rpt` (R142) -/

/-- Instructions that a sequence may hold. -/
def sequenced (maj fn : Nat) : Bool :=
  maj == 0x33 || maj == 0x34 || (0x50 ≤ maj && maj ≤ 0x74) || maj == 0x8C || maj == 0xC2 || (0xD0 ≤ maj && maj ≤ 0xD2) ||
  (maj == 0xD3 && fn ≤ 1)

def Instr.sequenced (i : Instr) : Bool :=
  match i.info with
  | some (r, f) => Machine.sequenced r.maj (rowFn r f)
  | none => false

/-- What capturing the instructions of a sequence comes to. -/
inductive Captured where
  | ok (ins : List (Word × Instr))
  /-- a trap at a captured instruction -/
  | trap (cause : Nat) (pc va : Word)
  /-- an instruction that no sequence may hold -/
  | invalid
  | storage (pc : Word) (pteAt : Nat) (pte : Pte)
  | wait
  deriving DecidableEq, Repr

/-- Fetch and decode k instructions from a code address on; the first that fails decides. -/
def State.capture (s : State) : Nat → Word → Captured × State
  | 0, _ => (.ok [], s)
  | n + 1, pc =>
    match s.decodeAt false pc with
    | (.trap c va, s) => (.trap c pc va, s)
    | (.storage a p, s) => (.storage pc a p, s)
    | (.wait, s) => (.wait, s)
    | (.ins _ i, s) =>
      if !Instr.sequenced i then (.invalid, s)
      else match s.capture n (nextPc pc) with
        | (.ok is, s) => (.ok ((pc, i) :: is), s)
        | r => r

/-- The code address after k instructions. -/
def pcAfter : Nat → Word → Word
  | 0, pc => pc
  | n + 1, pc => pcAfter n (nextPc pc)

/-- R142. The specification does not order its checks among themselves: here N above 65536 comes first, then instruction by instruction
its decoding and its class; and N = 0 captures, and can trap, like any other (log entry 43). -/
def execRpt (o : OpE) (s : State) : Result :=
  .next (gated Rows.rpt (.e o) s fun s =>
    let n := (s.readW o.a).toNat
    let x := o.imm.toNat
    let k := x % 64
    if s.t.seq.act then s.hold
    else if 65536 < n then s.trap 0x0B
    else
      let base := nextPc s.t.pc
      match s.capture k base with
      | (.trap c pc va, s) => s.trapAt c pc { g4 := va }
      | (.invalid, s) => s.trap 0x0B
      | (.storage pc a p, s) => s.meetStorage (lineOf pc) a p
      | (.wait, s) => s.hold
      | (.ok ins, s) =>
        let s := s.jump (pcAfter k base)
        if n = 0 then s
        else
          s.onT fun t => { t with seq :=
            { base := base, act := true, sv := field x 10 6, sm := field x 13 11, st := field x 19 14, k := k, n := n, ins := ins,
              attach := t.attach, since := s.ops } })

/-! ### Interlocks (R144) -/

def Reg.isVM : Reg → Bool
  | .v _ | .m _ => true
  | _ => false

/-- v and m registers that the remaining iterations write. Their numbers repeat after 32 · 7 iterations. -/
def Sequencer.willWrite (q : Sequencer) : List Reg :=
  let of (j : Nat) (is : List (Word × Instr)) : List Reg := is.flatMap fun e => match (q.at j e.2).info with
    | some (r, f) => (writesOf r f).filter Reg.isVM
    | none => []
  if !q.act then []
  else of q.j (q.ins.drop q.i) ++ (List.range (min (q.n - q.j - 1) 224)).flatMap fun d => of (q.j + 1 + d) q.ins

/-- v and m registers that long ops of the running sequence have still to write: a read or write of one by the stream waits for it
(R144). -/
def Task.seqOwes (t : Task) : List Reg :=
  t.long.flatMap fun l => if l.iter.isSome && t.seq.since ≤ l.op then l.dsts.filter Reg.isVM else []

/-- An instruction of the stream waits for the running sequence. -/
def Task.seqWaits (t : Task) (r : Row) (f : Flds) : Bool :=
  t.seq.act && (sequenced r.maj (rowFn r f) || r.maj == 0xC0 ||
    (let ws := t.seq.willWrite ++ t.seqOwes
     (readsOf r f ++ writesOf r f).any fun x => Reg.isVM x && !x.hardwired && ws.contains x))

/-- The end of a task waits for its sequence (R144, R107). -/
def Instr.ends : Instr → Bool
  | .done _ | .doneExit _ | .dret _ | .ecomb _ => true
  | _ => false

/-- A pending register makes a sequenced instruction wait (R144). -/
def Task.seqPending (t : Task) (r : Row) (f : Flds) : Bool :=
  t.regs.pending (.p f.hd.gp) || (t.regs.guard f.hd && (readsOf r f ++ writesOf r f).any t.regs.pending)

/-! ### Sequenced issue (R143, R145) -/

/-- The captured instructions, taken again after the position came back from a frame image. -/
def State.recapture (s : State) : State :=
  if s.t.seq.act && s.t.seq.ins.isEmpty then
    match s.capture s.t.seq.k s.t.seq.base with
    | (.ok is, s) => s.onT fun t => { t with seq := { t.seq with ins := is } }
    | (_, s) => s
  else s

/-- The next sequenced instruction: its code address, and the instruction as the iteration issues it. -/
def Sequencer.next (q : Sequencer) : Option (Word × Instr) :=
  if q.act then (q.ins[q.i]?).map fun e => (e.1, q.at q.j e.2) else none

/-- The breakpoint of the task matches an issue (spec/04_encoding_notes.md R82). -/
def Task.breakAt (t : Task) (pc : Word) (iter : Option Nat) : Bool :=
  let c := t.sys.bkpc.toNat
  field c 16 16 == 1 && t.sys.bkpa == pc && t.sched.bkDone != some (pc, iter) && (field c 17 17 == 0 || iter == some (c % 65536))

/-- The issue that `eret` resumed past its breakpoint has gone: the next one is matched again (R82). -/
def Task.passBreak (t : Task) (pc : Word) (iter : Option Nat) : Task :=
  { t with sched := { t.sched with bkDone := t.sched.bkDone.filter fun b => b != (pc, iter) } }

/-- The instruction in focus went through: the task neither waits nor traps nor has ended. -/
def Task.went (t : Task) : Bool :=
  t.sched.status == .issuing && t.sched.heldAt.isNone && t.sched.dying.isNone

/-- The position after an issue. -/
def Sequencer.moved (q : Sequencer) : Sequencer :=
  let q := { q with stream := none }
  if q.i + 1 < q.k then { q with i := q.i + 1 }
  else if q.j + 1 < q.n then { q with i := 0, j := q.j + 1 }
  else { q with act := false, i := 0, j := 0, ins := [] }

/-- Begin to issue a sequenced instruction: the code address and the attach slot are those of the sequence. -/
def State.seqBegin (s : State) (pc : Word) (i : Instr) : State :=
  let t := { s.t with seq := { s.t.seq with stream := some (s.t.pc, s.t.attach) }, pc := pc, attach := s.t.seq.attach }
  { s with t := t, plan := [i] }

/-- A sequenced instruction has been tried: the stream's own address comes back. On a trap the record names the iteration; unless
the instruction went, the position stays. -/
def State.seqBack (s : State) (moved : Bool) : State :=
  match s.t.seq.stream with
  | none => s
  | some (pc, att) =>
    let t := { s.t with pc := pc, attach := att }
    let stay := { t.seq with stream := none }
    { s with t :=
        if moved then { t with seq := t.seq.moved }
        else if t.sched.status = .trapped then
          { t with seq := stay, tr := { t.tr with seq := true, aux := BitVec.ofNat 16 t.seq.j } }
        else { t with seq := stay } }

def State.seqEnd (s : State) : State := s.seqBack s.t.went

/-- A sequenced instruction that carries S is a trap point for the task's stores (spec/13_traps.md R226, spec/14_traps_notes.md
R246): it begins once they are resolved. -/
def State.seqDrained (s : State) (pc : Word) (i : Instr) : State :=
  let s := (s.seqBegin pc i).drained id
  if s.t.went then s else { s with plan := [] }.seqBack false

/-! ### Guard slots -/

/-- The command under a slot is given to its engine. -/
def State.performHeld (h : Held) (s : State) : State :=
  match h.ins with
  | .copy _ | .copyx _ => State.startCopy h s
  | .ecmd _ => State.performEcmd h s
  | .amsg _ => State.performAmsg h s
  | .deleg _ | .delegt _ => State.performDeleg h s
  | .gath _ | .scat _ => State.performJob h s
  | .mcap _ => State.performMcap h s
  | _ => State.pushMatrix h s

/-- Work through held commands in order: each goes, stays, or is discarded. -/
def State.drainHeld (s : State) : List Held → List Held → State
  | [], kept => s.onT fun t => { t with held := kept }
  | h :: hs, kept =>
    match s.heldFate h (kept.any fun x => x.engine == h.engine) with
    | .go => (State.performHeld h s).drainHeld hs kept
    | .wait => s.drainHeld hs (kept ++ [h])
    | .drop => ((s.logZeros s.t.sched.core s.cur [h]).onT fun t => t.discard h).drainHeld hs kept

/-- Commands of a task whose slots have resolved, and that only wait for their turn or for a queue, go on. -/
def State.pumpHeld (s : State) (key : Nat) : State :=
  let s := s.focus key
  if s.cur = key then s.drainHeld s.t.held [] else s

/-- R146. -/
def execGslot (o : OpE) (s : State) : Result :=
  .next (gated Rows.gslot (.e o) s fun s =>
    let n := o.imm.toNat % 16
    if o.imm.getLsbD 4 then (s.onT fun t => { t with attach := none }).advance
    else
      (s.onT fun t =>
        { t with attach := some n,
                 slots := if t.slots.get .free n = .opened then t.slots else t.slots.set .free n .opened }).advance)

/-- R146, R147: the slot resolves and its commands go or are discarded. -/
def execGset (o : OpE) (s : State) : Result :=
  .next (gated Rows.gset (.e o) s fun s =>
    let n := o.imm.toNat % 16
    let b := (s.read o.b.reg).getLsbD 0
    let fix (h : Held) : Held := if h.slot = n ∧ h.fixed = none then { h with fixed := some b } else h
    let s := s.onT fun t => { t with slots := t.slots.set .free n (if b then .yes else .no), held := t.held.map fix }
    (s.drainHeld s.t.held []).advance)

end Sys2Proof.Machine
end

