-- ==== Sys2Proof/Machine/System.lean ====
section
/-! DEFINITION. System instructions, majors 0xF0 to 0xF4, and handler activations (spec/13_traps.md R219-R249,
spec/14_traps_notes.md R247-R249, spec/05_scalar.md R84, R85). -/

namespace Sys2Proof.Machine

open Sys2Proof

/-! ### Leaving slots -/

/-- The model's key of the handler activation of a core. -/
def handlerKey (core : Nat) : Nat := 2 ^ 64 + core

/-- Commands of a task that go on without it: their completions reach no task (R231). -/
def State.orphan (s : State) (key core : Nat) : State :=
  let free (c : Copy) : Copy := if c.task = key then { c with task := 0 } else c
  let freeJob (j : IJob) : IJob := if j.task = key then { j with task := 0 } else j
  let s := s.onCore core fun c => { c with copies := c.copies.map free }
  let s := s.onCluster (clusterOf core) fun c => { c with jobs := c.jobs.map freeJob }
  { s with tlbinvs := s.tlbinvs.map fun v => if v.task = some key then { v with task := none } else v }

/-- Pre-emption (spec/01_machine.md R41): a parked task keeps its wait. -/
def State.preempt (s : State) (key : Nat) : State :=
  match s.task? key with
  | none => s
  | some t =>
    (s.onTask key fun t =>
      { t with sched := { t.sched with status := .ready, slot := none, heldAt := none, level := t.sys.prio } }).unpinFrame
        t.sched.core key

/-- The task in focus gives up its slot of itself (spec/13_traps.md R240): it enters the run queue anew. -/
def State.giveSlot (s : State) : State :=
  (s.preempt s.cur).onT fun t => { t with sched := { t.sched with yielded := false, entryTime := s.dev.cycle } }

/-! ### Re-run (R224, R242) -/

/-- The task as it was created (R224), for another run. -/
def Task.again (t : Task) (now : Nat) : Task :=
  let old := t.sched
  let sched : Sched :=
    { status := .ready, core := old.core, entry := old.entry, entryTime := old.entryTime, level := t.creation.prio, ableAt := now,
      debug := old.debug }
  { regs := t.creation.regs,
    sys := { tid := t.sys.tid, prio := t.creation.prio, grps := t.sys.grps, frmode := t.creation.frmode },
    pc := t.creation.entry, versioned := t.versioned, sched := sched, kind := t.kind, launch := t.launch, team := t.team,
    index := t.index, handler := t.handler, creation := t.creation, foot := t.foot, filled := t.filled, request := t.request }

/-- The re-run of a task begins once OUTCNT is 0, its stores are resolved and its commands have gone. A server task keeps slot 6. -/
def State.finishRerun (s : State) (key : Nat) : State :=
  match s.task? key with
  | none => s
  | some t =>
    if !t.sched.rerun || !t.long.isEmpty || !t.stores.isEmpty || !t.held.isEmpty || t.sched.dying.isSome then s
    else
      let s := s.onCore t.sched.core fun c => { c with sfq := c.sfq.filter fun r => r.tid != t.sys.tid }
      let s := (s.orphan key t.sched.core).onTask key fun t => t.again s.dev.cycle
      if t.kind = .delegated then s.takeSlot key 6 else s

/-- R224 action 01: version, scratch and records go, open slots resolve false and their commands are discarded
(spec/07_arithmetic.md R148), the slot is free, and the tile is unbound (spec/15_matrix.md R271). Commands that only stood behind
those go on, and the re-run waits for them. -/
def State.rerun (s : State) (key : Nat) : State :=
  match s.task? key with
  | none => s
  | some t =>
    let core := t.sched.core
    let s := s.onCore core fun c =>
      { c with sfq := c.sfq.filter (fun r => r.tid != t.sys.tid), frames := c.frames.filter (· != key),
               trapq := c.trapq.filter (fun x => some x.2 != t.sched.slot) }
    let s := (s.retireTiles key core).logZeros core key t.doomed
    let s := s.onTask key fun t =>
      let t := t.closeSlots
      { t with version := [], scratch := [], seq := {}, attach := none, lost := false, faulted := [], view := none, cached := 0, dirty := 0,
               sched := { t.sched with status := .suspended, slot := none, rerun := true, wait := none, heldAt := none, late := [],
                                       mquery := none, doneQueue := none, sealSince := none } }
    s.finishRerun key

/-! ### Handler activations (R219-R221) -/

/-- The task of a core that holds a slot. -/
def State.slotTask (s : State) (core slot : Nat) : Option (Nat × Task) :=
  List.find? (fun (e : Nat × Task) => e.2.sched.core == core && e.2.sched.slot == some slot) s.allTasks

/-- The registers of an activation (R220). -/
def activationRegs (t : Task) (records : Nat) : Regs :=
  let r := t.tr
  let g2 := r.aux.toNat * 2 ^ 16 + bit r.seq 13 + bit r.vers 12 + bit r.prec 11 + r.slot % 8 * 256 + r.cause % 256
  let g5 : Word := if r.cause = 0x30 ∨ r.cause = 0x31 then BitVec.ofNat 64 records else r.g5
  let gs : List Word := [t.sys.tid, BitVec.ofNat 64 g2, t.sys.trappc, r.g4, g5, t.sys.grps.setWidth 64]
  (List.range 6).foldl (fun x i => x.write (.g (Fin.ofNat 64 (i + 1))) ((gs.getD i 0).setWidth 512)) {}

/-- A `kill` enters what it has terminated (spec/14_traps_notes.md R248), and the subject first where it is its own to enter. -/
def State.enterKill (s : State) (op : KillOp) (withSubject : Bool) : State :=
  s.onLaunch op.launch fun l =>
    let l := match op.subject, withSubject with
      | some (tid, c), true => l.noteKilled tid c
      | _, _ => l
    op.own.foldl (fun l tid => l.noteKilled tid 0x6A) l

/-- The activation of a core is over: its frame and its records go, and slot 7 is free. -/
def State.endActivation (s : State) (core : Nat) : State :=
  let s := s.orphan (handlerKey core) core
  let s := s.onCore core fun c => { c with killing := none, sfq := c.sfq.filter (fun r => r.tid != 0),
                                           frames := c.frames.filter (· != handlerKey core) }
  s.dropTask (handlerKey core)

/-- Terminate the subject of an activation that has ended. -/
def State.endSubject (s : State) (key cause : Nat) (byKill : Bool) : State := (s.terminate key cause byKill).reap key

/-- The activation goes down (R221). A `kill` of its own that has not completed enters what it has terminated; its subject, if something
else has terminated it meanwhile, counts by itself (spec/14_traps_notes.md R248). -/
def State.handlerDown (s : State) (core key : Nat) : State :=
  let c := s.core core
  let mine := c.killing.bind KillOp.subject
  let s := match c.killing with
    | some op => s.enterKill op false
    | none => s
  let s := if mine.isNone then s
    else s.onTask key fun t => { t with sched := { t.sched with dying := t.sched.dying.map fun d => (d.1, false) } }
  let s := s.endActivation core
  let s := match s.task? key with
    | some t => s.ras 5 0x76 2 core 0 t.sys.tid
    | none => s
  match s.task? key with
  | some t => if t.sched.killed && mine.isNone then s.endSubject key 0x6A true else s.endSubject key 0x76 false
  | none => s

/-- The activation of a core whose own instruction trapped, or that overran, ends once its stores are resolved and its replies
have arrived (spec/14_traps_notes.md R247). -/
def State.handlerTrapped (s : State) (core : Nat) : State :=
  match s.task? (handlerKey core) with
  | some h => match h.kind with
    | .handler k =>
      if h.sched.status == .trapped then
        let s := (s.logZeros core (handlerKey core) h.doomed).onTask (handlerKey core) Task.closeSlots
        if (s.task? (handlerKey core)).any Task.busy then s else s.handlerDown core k
      else s
    | _ => s
  | none => s

/-- HANDLER_ACTIVATION: slot 7 takes the oldest entry of the trap queue. -/
def execHandlerActivation (core : Nat) (s : State) : Result :=
  .next <|
    let c := s.core core
    match c.trapq with
    | [] => s
    | (_, slot) :: rest =>
      if (s.task? (handlerKey core)).isSome || c.withdrawn then s
      else
        let s := s.onCore core fun c => { c with trapq := rest }
        match s.slotTask core slot with
        | none => s
        | some (key, t) =>
          let (a, s) := s.area core 257 0
          if a.isNone then (s.ras 5 0x76 2 core 0 t.sys.tid).endSubject key 0x76 false
          else
            let sched : Sched := { status := .ready, core := core, entryTime := s.dev.cycle }
            let h : Task := { regs := activationRegs t (s.faultsOf t).length, sys := { grps := t.sys.grps }, pc := c.hentry,
                              kind := .handler key, launch := t.launch, handler := true, sched := sched }
            ((s.addTask (handlerKey core) h).onCore core fun c => { c with handlerSince := s.dev.cycle }).takeSlot (handlerKey core) 7

/-- HANDLER_OVERRUN: `eret` is not reached within 2^20 cycles. -/
def execHandlerOverrun (core : Nat) (s : State) : Result :=
  .next <|
    match s.subjectOn core with
    | some _ =>
      if (s.core core).handlerSince + 2 ^ 20 ≤ s.dev.cycle then
        s.onTask (handlerKey core) fun h => { h with sched := { h.sched with status := .trapped, wait := none, heldAt := none } }
      else s
    | none => s

/-- The subject of the running handler activation. -/
def State.subject (s : State) : Option Nat :=
  match s.t.kind with
  | .handler k => some k
  | _ => none

/-! ### `eret` (R224) -/

/-- The frame state of a subject is consistent (R218 0x0F). -/
def Task.frameOk (t : Task) : Bool :=
  t.rets.depth ≤ 16 && t.rets.spill ≤ 256 && !(t.seq.act && (t.seq.k ≤ t.seq.i || t.seq.n ≤ t.seq.j))

/-- The resume is not permitted. -/
def Task.noResume (t : Task) (skip : Bool) : Bool :=
  (t.tr.vers && t.tr.cause != 0x5C) || (skip && (t.tr.cause == 0x30 || t.tr.cause == 0x31))

/-- A subject traps again at its resume. -/
def State.trapAgain (s : State) (key cause : Nat) (pc : Word) (r : TrapRec) : State :=
  match s.task? key with
  | none => s
  | some t => (s.onTask key fun t => t.enterTrap cause pc r).queueTrap t.sched.core (t.sched.slot.getD 7)

/-- Resume a subject at its stream's code address; `from_` is the TRAPPC of a resume whose target is still to be checked (R55). -/
def State.goOn (s : State) (key : Nat) (pc : Word) (bk : Option (Word × Option Nat)) (from_ : Option Word) : State :=
  s.onTask key fun t =>
    let t := t.resume pc bk
    { t with sched := { t.sched with ableAt := s.dev.cycle + 1, resumeFrom := from_ } }

/-- The issue that no breakpoint matches after a resume: the one that a breakpoint trapped, where it is the one that goes on
(spec/04_encoding_notes.md R82). After any other trap it is the one that was resumed before and has not gone through yet, if the
resume does not lead past it: a debug halt or a store fault was taken before it issued, and an issue that trapped of itself is not
matched again either (log entry 48). -/
def Task.resumedBreak (t : Task) (skip : Bool) (pc : Word) : Option (Word × Option Nat) :=
  if skip then none
  else if t.tr.cause = 0x78 && !t.tr.passed then
    if t.tr.seq then some (t.tr.pc, some t.seq.j) else if t.sys.trappc = t.tr.pc then some (t.tr.pc, none) else none
  else t.sched.bkDone.filter fun b => b.2.isSome || b.1 == pc

/-- Resume (action 00). A trap of a sequenced instruction resumes the sequence at its position and the stream at its own code address
(spec/07_arithmetic.md R145); SKIP passes over the trapped issue, where the position is still there. A target whose check must wait is
checked before the first issue. -/
def State.resumeSubject (s : State) (key : Nat) (t : Task) (skip : Bool) : State :=
  let again := t.tr.cause = 0x30 ∨ t.tr.cause = 0x31
  let rs := s.faultsOf t
  if t.tr.seq then
    let at_ := (t.seq.next.map (·.1)) == some t.tr.pc && t.seq.j % 65536 == t.tr.aux.toNat
    let s := if skip && at_ then s.onTask key fun t => { t with seq := t.seq.moved } else s
    s.goOn key t.pc (t.resumedBreak skip t.pc) none
  else
    let pc := if skip || t.tr.passed then nextPc t.sys.trappc else t.sys.trappc
    let bk := t.resumedBreak skip pc
    let go (from_ : Option Word) (s : State) : State :=
      if again && !rs.isEmpty then
        s.trapAgain key 0x30 pc { prec := false, g4 := (rs.head?.map FaultRec.va).getD 0, g5 := BitVec.ofNat 64 rs.length }
      else s.goOn key pc bk from_
    match s.checkTarget t.sched.core (s.rootOf t) false pc with
    | (.ok, s) => go none s
    | (.bad, s) => s.trapAgain key 0x03 t.sys.trappc { g4 := pc }
    | (.fault c va, s) => s.trapAgain key c t.sys.trappc { g4 := va }
    | (_, s) => go (some t.sys.trappc) s

/-- Dispose of the subject of an activation that has ended. -/
def State.dispose (s : State) (key : Nat) (action : Nat) (skip : Bool) : State :=
  match s.task? key with
  | none => s
  | some t =>
    let cause := t.sys.cause.toNat % 256
    if t.sched.dying.isSome then s.reap key
    else if t.sched.killed then s.endSubject key 0x6A true
    else if (t.tr.cause == 0x70 && !t.tr.vers) || t.tr.cause == 0x72 || t.tr.cause == 0x76 then s.endSubject key t.tr.cause false
    else match action with
      | 0 =>
        if t.noResume skip then s.endSubject key 0x0E false
        else if !t.frameOk then s.endSubject key 0x0F false
        else s.resumeSubject key t skip
      | 1 => s.rerun key
      | 2 => s.endSubject key cause false
      | _ => s.endSubject key 0x0E false

def execEret (o : OpS) (s : State) : Result :=
  .next (gated Rows.eret (.s o) s fun s =>
    match s.subject with
    | none => s.trap 0x06
    | some key =>
      let core := s.t.sched.core
      s.drained fun s =>
        if 0 < s.t.outcnt then s.hold
        else (s.endActivation core).dispose key (o.imm.toNat % 4) (o.imm.getLsbD 2))

/-- R239. -/
def execTrap (o : OpS) (s : State) : Result :=
  .next (gated Rows.trap (.s o) s fun s => s.trapWith (0x78 + o.imm.toNat % 8) { aux := o.imm.setWidth 16, passed := true })

/-! ### System registers (R84, R85, R222) -/

/-- SFQ (R225). -/
def State.sfqWord (s : State) (core : Nat) (t : Task) : Word :=
  let c := s.core core
  BitVec.ofNat 64 (c.sfqLost * 2 ^ 16 + (s.faultsOf t).length * 2 ^ 8 + c.sfq.length)

/-- DUTY (spec/19_bank.md R315). -/
def dutyWord (d : Die) : Word :=
  BitVec.ofNat 64 (d.temp.toNat * 2 ^ 16 + d.thr.toNat * 2 ^ 8 + d.idle.toNat * 2 ^ 4 + bit d.hot 0)

/-- Writes of one cycle take effect in core-index order; HOT follows the new threshold (spec/19_bank.md R315). -/
def Die.putDuty (d : Die) (cycle core : Nat) (v : Word) : Die :=
  let later := d.dutyBy.any fun b => b.1 == cycle && decide (core < b.2)
  let thr : BitVec 4 := (v >>> 8).setWidth 4
  if later then d
  else
    { d with thr := thr, idle := (v >>> 4).setWidth 4, dutyBy := some (cycle, core),
             hot := decide (85 + 2 * thr.toNat < d.temp.toNat) }

/-- A register by number; `none` for a number that names none. `t` is the task whose registers the numbers name. -/
def State.sysRead (s : State) (core : Nat) (t : Task) (n : Nat) : Option Word :=
  let x := t.seenSys
  match n with
  | 0x000 => some x.tid
  | 0x001 => some x.cause
  | 0x002 => some x.trappc
  | 0x003 => some (x.flags.setWidth 64)
  | 0x004 => some x.tags
  | 0x005 => some (BitVec.ofNat 64 t.seenOutcnt)
  | 0x006 => some (x.prio.setWidth 64)
  | 0x007 => some (x.grps.setWidth 64)
  | 0x008 => some (s.sfqWord core t)
  | 0x009 => some (x.frmode.setWidth 64)
  | 0x00A => some (dutyWord (s.die (dieOf core)))
  | 0x00B => some x.bkpa
  | 0x00C => some x.bkpc
  | _ => if 0x010 ≤ n ∧ n < 0x018 then some (BitVec.ofNat 64 (x.bias.toNat / 256 ^ (n - 0x010) % 256)) else none

/-- The register may be written, by a task or by the system handler. -/
def sysWritable (handler : Bool) (n : Nat) : Bool :=
  n == 0x003 || n == 0x006 || n == 0x009 || n == 0x00B || n == 0x00C || (0x010 ≤ n && n < 0x018) ||
  (handler && (n == 0x001 || n == 0x002 || n == 0x00A))

/-- A write to a register that a task holds. Reserved fields ignore it (spec/00_scope.md R5). R84 refers to a field map of CAUSE that the
spec does not have: all 64 bits are kept (log entry 43). -/
def SysRegs.put (x : SysRegs) (handler : Bool) (n : Nat) (v : Word) : SysRegs :=
  match n with
  | 0x001 => { x with cause := v }
  | 0x002 => { x with trappc := v }
  | 0x003 => { x with flags := v.setWidth 7 }
  | 0x006 => if handler || x.prio.toNat ≤ v.toNat % 4 then { x with prio := v.setWidth 2 } else x
  | 0x009 => if v.toNat % 8 < 5 then { x with frmode := v.setWidth 3 } else x
  | 0x00B => { x with bkpa := v &&& ~~~ (0x38 : Word) }
  | 0x00C => { x with bkpc := v &&& 0x3FFFF }
  | _ =>
    let k := n - 0x010
    let byte : Word := 0xFF <<< (8 * k)
    { x with bias := (x.bias &&& ~~~ byte) ||| (((v &&& 0xFF) <<< (8 * k))) }

def execSysr (o : OpS) (s : State) : Result :=
  .next (gated Rows.sysr (.s o) s fun s =>
    let n := o.imm.toNat % 4096
    let t := match s.subject.bind s.task? with
      | some t => t
      | none => s.t
    match s.sysRead s.t.sched.core t n with
    | some x => s.putWord o.dst x
    | none => s.trap 0x01)

/-- R84. A write to a register that is read-only traps 0x06 after the guard and the hazards: R75 does not place that check (log
entry 43). -/
def execSysw (o : OpS) (s : State) : Result :=
  .next (gated Rows.sysw (.s o) s fun s =>
    let n := o.imm.toNat % 4096
    let v := s.readW o.sa
    let h := s.t.isHandler
    let core := s.t.sched.core
    if (s.sysRead core s.t n).isNone then s.trap 0x01
    else if !sysWritable h n then s.trap 0x06
    else if n = 0x00A then
      (s.onDie (dieOf core) fun d => d.putDuty s.dev.cycle core v).advance
    else match s.subject with
      | some k => (s.onTask k fun t => { t with sys := t.sys.put true n v }).advance
      | none =>
        if 0x010 ≤ n && s.fmtBusy (.fmt (Fin.ofNat 8 (n - 0x010))) then s.trap 0x46
        else (s.onT fun t => { t with sys := t.sys.put false n v }).advance)

/-! ### Other system instructions -/

/-- R240: the slot goes when the issue is over, which a pair ends with its second instruction (spec/03_encoding.md R70). -/
def execYieldT (o : OpS) (s : State) : Result :=
  .next (gated Rows.yieldT (.s o) s fun s =>
    let core := s.t.sched.core
    let other := s.allTasks.any fun e => e.1 != s.cur && e.2.sched.core == core && e.2.sched.status == .ready && e.2.holdsEntry
    let s := s.advance
    if (match s.t.sched.slot with
      | some k => k < 6
      | none => false) && !s.t.isMessage && other then
      s.onT fun t => { t with sched := { t.sched with yielded := true } }
    else s)

/-- R228. -/
def execDrain (o : OpS) (s : State) : Result := .next (gated Rows.drain (.s o) s fun s => s.drained State.advance)

/-- OP of a store-fault record (R225). -/
def StoreKind.code : StoreKind → Nat
  | .plain => 0 | .lane => 1 | .stf => 2 | .clrf => 3

/-- A record as `sfqpop` lays it out: the data, then v(d+1). -/
def FaultRec.lines (r : FaultRec) : Line × Line :=
  let w := 2 ^ 63 + r.cause % 256 * 2 ^ 16 + StoreKind.code r.kind * 2 ^ 14 + (r.data.length - 1) % 64 * 2 ^ 8 + r.lane % 64
  (BitVec.ofNat 512 (ofBytes r.data),
   placeLine r.va.toNat 0 8 ||| placeLine r.pc.toNat 8 8 ||| placeLine r.tid.toNat 16 7 ||| placeLine r.grps.toNat 24 8 |||
     placeLine w 32 8)

/-- R229. -/
def execSfqpop (o : OpS) (s : State) : Result :=
  .next (gated Rows.sfqpop (.s o) s fun s =>
    let core := s.t.sched.core
    match (s.subject.bind s.task?).bind fun t => (s.faultsOf t).head? with
    | some r =>
      let (a, b) := r.lines
      (((s.onCore core fun c => { c with sfq := c.sfq.erase r }).write o.dst a).write o.dst.next b).advance
    | none => ((s.write o.dst 0).write o.dst.next 0).advance)

/-! ### `kill` (R230, R231, R247-R249) -/

/-- A task of the kinds that `kill` terminates. -/
def Kind.killable : Kind → Bool
  | .handler _ | .sorrel _ => false
  | _ => true

/-- The cores that a `kill` names: `none` is every core. -/
def Launch.killCores (l : Launch) (group : Option Nat) : Nat → Bool :=
  match group with
  | none => fun _ => true
  | some g => fun n => match l.groups[g]? with
    | some x => l.hasMember x n
    | none => false

/-- Tasks that are queued at the launch engine for one of these cores. -/
def Launch.queuedOn (l : Launch) (all : Bool) (hit : Nat → Bool) : List Nat :=
  l.todo.filter fun i =>
    let n := l.record.tsize.max 1
    all || ((l.teams.find? (i / n)).bind fun t => t.cores.find? (i % n)).any hit

/-- Retire tasks that were never dispatched: their TASKID reads zero (log entry 16). -/
def Launch.dropQueued (l : Launch) (is : List Nat) : Launch :=
  let l := { l with todo := l.todo.filter (fun i => !is.contains i), nret := l.nret + is.length }
  (is.map fun i => i / l.record.tsize.max 1).eraseDups.foldl (fun l t => l.leaveTeam t false) l

/-- Start a `kill` in the activation in focus. -/
def State.startKill (s : State) (key : Nat) (u : Task) (all : Bool) (hit : Nat → Bool) (queued : List Nat) : State :=
  let core := s.t.sched.core
  let named := s.allTasks.filter fun e => e.2.launch == u.launch && Kind.killable e.2.kind && (all || hit e.2.sched.core)
  let targets := named.filter fun e => e.2.sched.dying.isNone
  let others := targets.filter fun e => e.1 != key
  let fresh := others.filter fun e => !e.2.sched.killed
  let held := fresh.filter fun e => s.subjectOn e.2.sched.core == some e.1
  let mine := targets.any (fun e => e.1 == key) && !u.sched.killed
  let op : KillOp :=
    { handler := handlerKey core, launch := u.launch, waits := (named.filter fun e => e.1 != key).map (·.1),
      settles := (targets.filter fun e => e.1 == key).map (·.1),
      own := queued.map (fun _ => 0) ++ fresh.map (fun e => e.2.sys.tid),
      subject := if mine then some (u.sys.tid, u.sys.cause.toNat % 256) else none }
  let s := s.onCore core fun c => { c with killing := some op }
  let mark (s : State) (k : Nat) : State := s.onTask k fun t => { t with sched := { t.sched with killed := true } }
  let s := if mine then mark s key else s
  let s := held.foldl (fun s e => mark s e.1) s
  let s := (fresh.filter fun e => s.subjectOn e.2.sched.core != some e.1).foldl (fun s e => s.terminate e.1 0x6A true) s
  s.onLaunch u.launch fun l => l.dropQueued queued

def execKill (o : OpS) (s : State) : Result :=
  .next (gated Rows.kill (.s o) s fun s =>
    let all := o.imm.getLsbD 8
    let g := o.imm.toNat % 256
    match s.subject, s.subject.bind s.task? with
    | some key, some u =>
      match s.launch? u.launch with
      | none => s.advance
      | some l =>
        if !all && l.groups.length ≤ g then s.trap 0x65
        else if s.myCore.killing.isSome then s.hold
        else
          let hit := l.killCores (if all then none else some g)
          (s.startKill key u all hit (l.queuedOn all hit)).hold
    | _, _ => s.trap 0x06)

/-- Stores are unresolved, or the replies of offers are on their way. -/
def Task.unsettled (t : Task) : Bool :=
  !t.stores.isEmpty || t.long.any fun l => match l.act with
    | .offer _ => true
    | _ => false

/-- KILL_COMPLETE: every target is gone, and the subject, which goes with `eret`, has its stores resolved and its offers answered
(R247); the terminations are entered together and the handler goes on. -/
def execKillComplete (core : Nat) (s : State) : Result :=
  .next <|
    match (s.core core).killing with
    | none => s
    | some op =>
      if op.waits.any (fun k => (s.task? k).isSome) || op.settles.any (fun k => (s.task? k).any Task.unsettled) then s
      else
        let s := (s.enterKill op true).onCore core fun c => { c with killing := none }
        s.onTask op.handler fun h =>
          { h with pc := nextPc h.pc, view := none, sched := { h.sched with heldAt := none, ableAt := s.dev.cycle + 1 } }

/-! ### Translations (R243, spec/22_launch_notes.md) -/

def execTlbinv (o : OpS) (s : State) : Result :=
  .next (gated Rows.tlbinv (.s o) s fun s =>
    let core := s.t.sched.core
    let va := s.readW o.sa
    let all := o.imm.getLsbD 2
    let size := invSize (o.imm.toNat % 4)
    if !all && va.toNat % 2 ^ size ≠ 0 then s.trapVa 0x0A va
    else (s.startTlbinv (some s.cur) (s.invCores (o.imm.toNat / 8 % 4) core (s.corePart core)) all va size).2.advance)

def execTlbsync (o : OpS) (s : State) : Result :=
  .next (gated Rows.tlbsync (.s o) s fun s =>
    if s.tlbinvs.any fun v => v.task == some s.cur then s.hold else s.advance)

/-! ### `vabort` (R242) and `wfe` (R241) -/

def execVabort (o : OpS) (s : State) : Result :=
  .next (gated Rows.vabort (.s o) s fun s =>
    if !s.t.versioned then s.trap 0x0D
    else if 0 < s.t.outcnt then s.hold
    else if o.imm.getLsbD 0 then s.terminate s.cur 0x6F false
    else s.rerun s.cur)

/-- The result of a wait that is over: the latched events of the mask are taken. -/
def State.takeEvents (s : State) (d : Reg) (mask : BitVec 5) : State :=
  let hit := s.t.sched.latch &&& mask
  let late := s.t.sched.timedOut
  let s := s.onT fun t => { t with sched := { t.sched with latch := t.sched.latch &&& ~~~ mask, timedOut := false } }
  s.putWord d (hit.setWidth 64 ||| (if late then 0x20 else 0))

def execWfe (o : OpS) (s : State) : Result :=
  .next (gated Rows.wfe (.s o) s fun s =>
    let mask : BitVec 5 := o.imm.setWidth 5
    let n := (s.readW o.sa).toNat % 2 ^ 32
    if s.t.isMessage && n = 0 then s.trap 0x63
    else if s.t.sched.latch &&& mask ≠ 0 || s.t.sched.timedOut then s.takeEvents o.dst mask
    else s.park (.event mask (if n = 0 then none else some (s.dev.cycle + n))))

/-- WFE_TIMEOUT: the time of a parked `wfe` has passed. -/
def execWfeTimeout (task : Nat) (s : State) : Result :=
  .next <|
    match s.task? task with
    | none => s
    | some t => match t.sched.wait with
      | some (.event _ (some d)) =>
        if d ≤ s.dev.cycle then
          s.onTask task fun t =>
            { t with sched := { t.sched with timedOut := true, wait := none,
                                             status := if t.sched.status = .parked then .issuing else t.sched.status,
                                             ableAt := s.dev.cycle + 1 } }
        else s
      | _ => s

/-! ### Requests from outside (R223, R234, R241) -/

def execDebugHalt (core : Nat) (tid : BitVec 56) (s : State) : Result := .next (if core < 4096 then s.debugWrite 1 tid else s)
def execDebugStep (core : Nat) (tid : BitVec 56) (s : State) : Result := .next (if core < 4096 then s.debugWrite 2 tid else s)
def execEvtset (core : Nat) (s : State) : Result := .next (s.latchCore core 4)

end Sys2Proof.Machine
end

