-- ==== Sys2Proof/Machine/Landing.lean ====
section
/-! DEFINITION. How long ops perform and land (spec/03_encoding.md R71, spec/01_machine.md R27), offers' replies
(spec/09_memory_offers.md R176), waiting full/empty loads (R162), and stores that resolve (spec/13_traps.md R225). -/

namespace Sys2Proof.Machine

open Sys2Proof

/-! ### Landing -/

/-- A long op leaves OUTCNT and its results are written; those of a task that ends or runs again are dropped (R231, R224). -/
def State.land (s : State) (key : Nat) (l : LongOp) (vals : List Line) (f : Flags) : State :=
  match s.task? key with
  | none => s
  | some t =>
    let s := s.onTask key fun t => { t with long := t.long.filter fun x => x.op != l.op }
    if t.sched.dying.isSome || t.sched.rerun then s
    else (s.landRegs key l.dsts (vals ++ (List.range (l.dsts.length - vals.length)).map fun _ => 0) f).syncOutcnt key

/-- Land with a trap that the reply raises (spec/13_traps.md R219). -/
def State.landTrap (s : State) (key : Nat) (l : LongOp) (vals : List Line) (f : Flags) (cause : Nat) (r : TrapRec) : State :=
  (s.land key l vals f).lateTrap key cause l.pc (l.record r)

/-- The long op of a task. -/
def State.longOp? (s : State) (key op : Nat) : Option (Task × LongOp) :=
  (s.task? key).bind fun t => (List.find? (fun (l : LongOp) => l.op == op) t.long).map fun l => (t, l)

def State.setAct (s : State) (key op : Nat) (act : LongAct) : State :=
  s.onTask key fun t => { t with long := t.long.map fun l => if l.op = op then { l with act := act } else l }

/-! ### Loads (spec/09_memory_offers.md R157, R158) -/

/-- The line of an access in flight, or the core whose local store it reaches, has been withdrawn or lost meanwhile
(spec/13_traps.md R236). -/
def State.lostNow (s : State) (pa : Nat) : Option Nat := if spaceOf pa = .dram then s.lostAt pa else none

/-- Perform piece i of a load, if it may be performed now. Pieces in the core's own local store that waited for an acquire are read
here (spec/12_ordering_notes.md R215). -/
def State.loadPiece (s : State) (key : Nat) (l : LongOp) (ty : Ty) (vec : Bool) (scope : Scope) (alloc : Bool)
    (us : List Piece) (i : Nat) : State :=
  match s.task? key, us[i]? with
  | some t, some u =>
    let put (x : Nat) (s : State) : State :=
      s.setAct key l.op (.load ty vec scope alloc (us.modify i fun u => { u with data := some (BitVec.ofNat 512 x) }))
    if u.data.isSome then s
    else match u.pa with
      | none =>
        let off := u.va.toNat % 2 ^ 19
        if t.lsHeld l.op off u.len true then s else put (s.lsLoad t off u.len) s
      | some pa => match s.lostNow pa with
        | some c => s.landTrap key l [] 0 c { g4 := u.va }
        | none =>
          if s.mayPerform t l.op u.va.toNat u.len (some pa) .weak then
            let (x, s) := s.readUnit key t.sched.core scope u.nc alloc pa u.len
            put x s
          else s
  | _, _ => s

/-- Perform a piece of a long op by its number: an act of its own, before the result arrives (R158). -/
def State.performPieceAt (s : State) (key op i : Nat) : State :=
  match s.longOp? key op with
  | some (_, l) => match l.act with
    | .load ty vec scope alloc us => s.loadPiece key l ty vec scope alloc us i
    | _ => s
  | none => s

/-- The same for the next piece that has not been performed. -/
def State.performPiece (s : State) (key op : Nat) : State :=
  match s.longOp? key op with
  | some (_, l) => match l.act with
    | .load _ _ _ _ us => match us.findIdx? fun u => u.data.isNone with
      | some i => s.performPieceAt key op i
      | none => s
    | _ => s
  | none => s

def State.performPieces (s : State) (key op : Nat) : Nat → State
  | 0 => s
  | n + 1 => (s.performPiece key op).performPieces key op n

/-- The value of a load whose pieces are all performed. -/
def loadResult (ty : Ty) (vec : Bool) (us : List Piece) : Option Line :=
  if us.any fun u => u.data.isNone then none
  else
    let x : Line := us.foldl (fun acc u =>
      let d : Line := u.data.getD 0
      acc ||| (d <<< (8 * u.pos))) 0
    some (if vec then x else loadValue ty x.toNat)

def State.landLoad (s : State) (key op : Nat) (units : Nat) : State :=
  let s := s.performPieces key op units
  match s.longOp? key op with
  | some (_, l) => match l.act with
    | .load ty vec _ _ us => match loadResult ty vec us with
      | some x => s.land key l [x] 0
      | none => s
    | _ => s
  | none => s

/-! ### Full/empty loads (R162) -/

/-- The word of an `ldf` or `ldft`, if it is full: at its core's bank, or at the home slice. -/
def State.fullValue (s : State) (t : Task) (ty : Ty) (va : Word) (pa : Option Nat) : Option Nat × State :=
  let n := ty.width / 8
  let core := t.sched.core
  match pa with
  | none =>
    let off := va.toNat % 2 ^ 19
    (if s.lsIsFull core off then some (s.lsLoad t off n) else none, s)
  | some a =>
    let s := s.atHome core a
    if s.isFull a then
      let (l, s) := s.homeRead a
      (some (sliceLine (t.overVersion a l) (a % 64) n), s)
    else (none, s)

/-- The access may be performed at its home. -/
def State.mayFull (s : State) (t : Task) (op : Nat) (va : Word) (pa : Option Nat) (n : Nat) : Bool :=
  match pa with
  | some a => s.mayPerform t op va.toNat n pa (if homeDie a = dieOf t.sched.core then .read else .weak)
  | none => !t.lsHeld op (va.toNat % 2 ^ 19) 8 true

/-- An `ldf` reaches its word: the load is performed if it is full, and the task is told if it is empty. -/
def State.ldfTry (s : State) (key : Nat) (t : Task) (l : LongOp) (ty : Ty) (va : Word) (pa : Option Nat) : State :=
  match pa.bind s.lostNow with
  | some c => s.landTrap key l [] 0 c { g4 := va }
  | none =>
  if !s.mayFull t l.op va pa (ty.width / 8) then s
  else match s.fullValue t ty va pa with
    | (some x, s) => s.land key l [loadValue ty x] 0
    | (none, s) => s.setAct key l.op (.ldf ty va pa true)

/-- An `ldft` reaches its word (R162). -/
def State.ldftTry (s : State) (key : Nat) (t : Task) (l : LongOp) (ty : Ty) (va : Word) (pa : Option Nat) : State :=
  match pa.bind s.lostNow with
  | some c => s.landTrap key l [] 0 c { g4 := va }
  | none =>
  if !s.mayFull t l.op va pa (ty.width / 8) then s
  else match s.fullValue t ty va pa with
    | (some x, s) => s.land key l [loadValue ty x, 1] 0
    | (none, s) => s.land key l [0, 0] 0

/-- The place of a waiter among those that its home slice, or its core's bank, holds: the oldest first. -/
def State.waiterRank (s : State) (t : Task) (op : Nat) (pa : Option Nat) : Nat :=
  (s.allTasks.flatMap fun e => e.2.long.filter fun l => l.op < op && match l.act, pa with
    | .ldf _ _ (some b) true, some a => s.devChannel a == s.devChannel b
    | .ldf _ _ none true, none => e.2.sched.core == t.sched.core
    | _, _ => false).length

/-- A waiting `ldf` whose word has become full is performed: at once for the 64 waiters that a home slice holds, at the next
poll for those beyond. -/
def State.ldfServe (s : State) (key op : Nat) (poll : Bool) : State :=
  match s.longOp? key op with
  | some (t, l) => match l.act with
    | .ldf ty va pa true =>
      let held := pa.isNone || s.waiterRank t op pa < 64
      if held || (poll && s.dev.cycle % 256 == 0) then s.ldfTry key t l ty va pa else s
    | _ => s
  | none => s

def execLdfWake (task op : Nat) (s : State) : Result := .next (s.ldfServe task op false)
def execLdfRepoll (task op : Nat) (s : State) : Result := .next (s.ldfServe task op true)

/-! ### Guards (R171) -/

/-- The reply of a guard request lands: a grant with its self-invalidations, where they are those of a whole acquire once earlier loads
have returned (spec/11_ordering_sync.md R188), or the refusal's trap. The specification states no result for a refused request: a
free value (log entry 7). -/
def State.landGuard (s : State) (key : Nat) (t : Task) (l : LongOp) (scope : Scope) (pa : Nat) (granted : Option (BitVec 16))
    (refused : Bool) : State :=
  let va : Word := (l.vals.headD 0).setWidth 64
  match granted with
  | some p => if s.grantWaits t l.op va pa then s else (s.grantDrops t va pa scope).land key l [p.setWidth 512] 0
  | none =>
    if refused then
      let (bs, s) := s.freeBytes 8
      s.landTrap key l [BitVec.ofNat 512 (ofBytes bs)] 0 0x64 { g4 := va }
    else s

/-- GUARD_GRANT: the request at the head of an object's queue is granted, and the reply to a task lands. -/
def execGuardGrant (object : Nat) (s : State) : Result :=
  .next <|
    if !s.guardReady object then s
    else
      let who := (s.mem.guards.get [] object).head?.map GuardReq.who
      let s := s.guardGrant object
      match who with
      | some (.task k op) => match s.longOp? k op with
        | some (t, l) => match l.act with
          | .guard _ scope pa granted refused => s.landGuard k t l scope pa granted refused
          | _ => s
        | none => s
      | _ => s

/-! ### Offers (R176, spec/19_bank.md R314) -/

/-- A decided reply lands. That of a `bcall` whose unit is withdrawn on its way is a trap (spec/13_traps.md R236). -/
def State.landReply (s : State) (key : Nat) (l : LongOp) (r : Reply) : State :=
  let bank : Option Offer := match l.act with
    | .offer o => if o.isBank then some o else none
    | _ => none
  if r.kind = 4 then
    s.landTrap key l [] 0 0x5D { g5 := BitVec.ofNat 64 (r.reason * 2 ^ 16 + r.cause * 2 ^ 8) }
  else if r.kind = 2 && bank.isSome then s.landTrap key l [] 0 r.cause { g4 := (bank.map Offer.va).getD 0 }
  else s.land key l r.values (if r.kind = 0 then r.fl else 0)

/-- Why an offer on its way can be performed no more: its line is lost, or the core whose local store it reaches is withdrawn. -/
def State.offerLost (s : State) (core : Nat) (o : Offer) : Option Nat :=
  match o.owner with
  | some w => if w = core then none else s.ownerFault core w
  | none => s.lostNow o.pa

/-- A fault that meets an offer: in its reply, for the forms that report faults there (R173), or as a trap. -/
def State.offerFault (s : State) (key : Nat) (l : LongOp) (o : Offer) (cause : Nat) : State :=
  if o.nt then s.landReply key l { kind := 2, cause := cause } else s.landTrap key l [] 0 cause { g4 := o.va }

/-- The reply of an offer, once it is known. -/
def State.landOffer (s : State) (key op : Nat) : State :=
  match s.longOp? key op with
  | some (_, l) => match l.act with
    | .offer o => match o.reply with
      | some r => s.landReply key l r
      | none => s
    | _ => s
  | none => s

/-- OFFER_REPLY: the offer is performed at its level, if it has not been, and its reply lands. -/
def execOfferReply (task op : Nat) (s : State) : Result :=
  .next <|
    match s.longOp? task op with
    | some (t, l) => match l.act with
      | .offer o => match o.op, o.reply with
        | _, some r => s.landReply task l r
        | .bank entry page size, none => (s.bankArrive task l o entry page size).landOffer task op
        | _, none => match s.offerLost t.sched.core o with
          | some c => s.offerFault task l o c
          | none => match s.performOffer task l o with
            | (some r, s) => s.landReply task l r
            | (none, s) => s
      | _ => s
    | none => s

/-- NOTRES_DECLINE: the reply that the issuing die made for a non-resident page lands (spec/22_launch_notes.md R347). -/
def execNotresDecline (task op : Nat) (s : State) : Result :=
  .next <|
    match s.longOp? task op with
    | some (_, l) => match l.act with
      | .ready f => if l.vals[1]? = some 0x15 then s.land task l l.vals f else s
      | _ => s
    | none => s

/-! ### Every other long op -/

/-- An item that a firing reads: its bytes, with an acquire at the sender's scope, once earlier loads have returned
(spec/11_ordering_sync.md R188, R209). -/
def State.landItem (s : State) (key : Nat) (t : Task) (l : LongOp) (fifo index : Nat) : State :=
  if t.loadsBefore l.op then s
  else match t.kind with
    | .firing a => match (s.actor? t.launch a).bind fun y => y.ins[fifo]?.bind fun q => q.items[index]? with
      | some x => (s.fenceR t.sched.core x.scope).land key l [x.data, 1] 0
      | none => s
    | _ => s

/-- The values of an answered `deleg`: value, STATUS and CAUSE, and the predicates: the request ran and was answered, or was refused
(R210). -/
def answerVals (a : Word × Nat × Nat × Bool) : List Line :=
  [a.1.setWidth 512, BitVec.ofNat 512 (a.2.1 + a.2.2.1 * 256), if a.2.2.2 then 1 else 0, if a.2.1 = 1 then 1 else 0]

/-- LONG_RESULT_ARRIVAL: what a long op still has to do is done, if it can be, and its result lands. A steal takes effect after the
local operations of its cycle (spec/17_edge.md R296). -/
def execLongResultArrival (task op : Nat) (s : State) : Result :=
  .next <|
    match s.longOp? task op with
    | none => s
    | some (t, l) =>
      if l.slot.isSome then s
      else match l.act with
        | .ready f => s.land task l l.vals f
        | .load _ _ _ _ us => s.landLoad task op us.length
        | .ldf ty va pa told => if told then s.ldfServe task op true else s.ldfTry task t l ty va pa
        | .ldft ty va pa _ => s.ldftTry task t l ty va pa
        | .offer _ => s.landOffer task op
        | .guard _ scope pa granted refused => s.landGuard task t l scope pa granted refused
        | .barv g phase => match phase with
          | some ph => s.land task l [(token g ph).setWidth 512] 0
          | none =>
            let s := s.barvArrive task op
            match s.longOp? task op with
            | some (_, l) => match l.act with
              | .barv g (some ph) => s.land task l [(token g ph).setWidth 512] 0
              | _ => s
            | none => s
        | .btest tok => s.land task l [if s.tokenPassed t.launch tok then 1 else 0] 0
        | .grpq g item j => s.land task l [(s.groupItem t.launch t.sched.core g item j).setWidth 512] 0
        | .sendt _ _ _ => if l.vals.isEmpty || s.exposed t.launch task op then s else s.land task l l.vals 0
        | .recv f i => s.landItem task t l f i
        | .deleg _ scope answer => match answer with
          | some a => if t.loadsBefore op then s else (s.fenceR t.sched.core scope).land task l (answerVals a) 0
          | none => s
        | .ecmd _ _ _ _ answered => if answered then s.land task l l.vals 0 else s
        | .mrd _ _ _ _ _ reply => match reply with
          | some (a, b, f, c) =>
            if c = 0 then s.land task l [a, b] f else s.landTrap task l [a, b] f c { prec := false }
          | none => s
        | .dqsteal victim =>
          if s.mayIssue victim then s
          else
            let (r, s) := s.steal t.launch (s.corePart t.sched.core) victim
            s.land task l (rangeVals r) 0
        | .ijob off => s.land task l [BitVec.ofNat 512 (s.jobWord t.sched.core off)] 0

/-! ### Stores -/

/-- STORE_RESOLVE. -/
def execStoreResolve (task store : Nat) (s : State) : Result :=
  .next <|
    match (s.task? task).bind fun t => List.find? (fun (x : Store) => x.op == store) t.stores with
    | some st => (s.resolveStore task st).getD s
    | none => s

/-! ### Pages, lines -/

/-- A long op goes as far as the memory system takes it; an offer whose line is lost goes nowhere (spec/13_traps.md R236). -/
def State.performLong (s : State) (key op : Nat) : State :=
  match s.longOp? key op with
  | some (t, l) => match l.act with
    | .ldf ty va pa false => s.ldfTry key t l ty va pa
    | .ldft ty va pa _ => s.ldftTry key t l ty va pa
    | .offer o => if o.isBank || (s.offerLost t.sched.core o).isSome then s else (s.performOffer key l o).2
    | _ => s
  | none => s

/-- The accesses under way, each with the number of its op and what performs it or a piece of it. -/
def State.underWay (s : State) : List (Nat × (State → State)) :=
  let long (key : Nat) (l : LongOp) : List (Nat × (State → State)) := match l.act with
    | .load _ _ _ _ us => (List.range us.length).map fun i => (l.op, fun s => s.performPieceAt key l.op i)
    | _ => [(l.op, fun s => s.performLong key l.op)]
  (s.allTasks.flatMap fun e =>
    e.2.long.flatMap (long e.1) ++ e.2.stores.map fun st => (st.op, fun s => (s.resolveStore e.1 st).getD s)) ++
  s.cores.flatMap fun e => e.2.copies.map fun c => (c.op, fun s => s.copyUnit e.1 c.op)

/-- PAGE_RECALL (spec/09_memory_offers.md R154, spec/10_offers_notes.md R186): the oldest access that starts the recall of a private
page is performed, and the recall with it, so that no other access comes between: those that wait follow it. -/
def execPageRecall (page : Nat) (s : State) : Result :=
  .next <|
    match s.mem.page.get .unowned page with
    | .priv n =>
      let old := sortBy (fun a b => decide (a.1 ≤ b.1)) s.underWay
      let recalled (x : Nat × (State → State)) : Option State :=
        let s' := x.2 s
        if s'.mem.page.get .unowned page = .priv n then none else some s'
      (old.findSome? recalled).getD s
    | _ => s

/-- RDC_WRITE_THROUGH (R156): an evicted line is written through, then dropped. -/
def execRdcWriteThrough (die line : Nat) (s : State) : Result := .next (s.rdcDrop die line)

/-- FETCH_PARITY_REFETCH (spec/03_encoding.md R52): the line is invalidated in the instruction cache and fetched once more. -/
def execFetchParityRefetch (core line : Nat) (s : State) : Result :=
  .next <|
    match s.mem.ic.find? (icKey core (lineAt line)) with
    | none => s
    | some _ =>
      let k := icKey core (lineAt line)
      let s := (s.fetchError core line).onMem fun m => { m with ic := m.ic.erase k }
      if s.heldLine line then s.onMem fun m => { m with icAgain := k :: m.icAgain } else (s.icFill core line true false).2

/-! ### Faults of the far side (spec/13_traps.md R218 0x28, 0x29, 0x2B, 0x2C) -/

/-- The far side of a port may answer an access to this address with the cause: the Perold link with 0x28 and 0x29, a PCIe port with
0x2B and, to a read, 0x2C. -/
def farCause (pa cause : Nat) (read : Bool) : Bool :=
  match spaceOf pa with
  | .perold _ => cause == 0x28 || cause == 0x29
  | .pcie _ => cause == 0x2B || (read && cause == 0x2C)
  | _ => false

/-- The far side answers a read or an offer of a long op with a fault. -/
def State.longFault (s : State) (key op cause : Nat) : State :=
  match s.longOp? key op with
  | none => s
  | some (_, l) => match l.act with
    | .load _ _ _ _ us => match us.find? fun u => u.data.isNone && u.pa.any fun a => farCause a cause true with
      | some u => s.landTrap key l [] 0 cause { g4 := u.va }
      | none => s
    | .offer o => if o.owner.isNone && o.reply.isNone && farCause o.pa cause true then s.offerFault key l o cause else s
    | _ => s

/-- The same for a store that is not resolved yet: it is recorded, unless a piece of it is performed, since a recorded store has no other
effect (R225). -/
def State.storeFault (s : State) (key op cause : Nat) : State :=
  match s.task? key with
  | none => s
  | some t => match t.stores.find? fun st => st.op == op with
    | none => s
    | some st =>
      if st.early t || st.ls.isSome || st.found.isSome || !st.done.isEmpty then s
      else match s.placeStore t st with
        | (.ok _ _, ps, s') =>
          if ps.any fun q => farCause q.1 cause false then (s'.recordFault key st cause).dropStore key st.op else s
        | _ => s

/-- The same for the unit that a copy of the task has in hand. -/
def State.copyFault (s : State) (core op cause : Nat) : State :=
  match s.copy? core op with
  | none => s
  | some c =>
    let (src, dst, n) := c.next
    let hits (write : Bool) (va : Word) : Bool :=
      match s.engineReach core c.root c.sys c.op (if write then .store else .load) va n with
      | (.ok (pa, _), _) => farCause pa cause (!write)
      | _ => false
    if c.finished || s.copyWaits c then s
    else if hits false src then s.setCopy core { c with fault := some { va := src, cause := cause } }
    else if hits true dst then s.setCopy core { c with fault := some { va := dst, cause := cause } }
    else s

/-- The far side answers the request of an op of a task with a fault. -/
def State.farFault (s : State) (key op cause : Nat) : State :=
  let core := match s.task? key with
    | some t => t.sched.core
    | none => 0
  ((s.longFault key op cause).storeFault key op cause).copyFault core op cause

/-- The far side acknowledges a write of an operation of a task (spec/09_memory_offers.md R159). -/
def State.farAck (s : State) (key op : Nat) : State := s.onDev fun d => { d with unacked := d.unacked.erase (key, op) }

/-- PCIE_COMPLETION_TIMEOUT: the requester faults with 0x2B. -/
def execPcieCompletionTimeout (task op : Nat) (s : State) : Result := .next (s.farFault task op 0x2B)

end Sys2Proof.Machine
end

