-- ==== Sys2Proof/Machine/Launches.lean ====
section
/-! DEFINITION. Work queues, launch records and how a launch is formed (spec/21_launch_storage.md R320-R330, spec/01_machine.md
R38, spec/19_bank.md R305-R307, spec/15_matrix.md R252). -/

namespace Sys2Proof.Machine

open Sys2Proof

/-! ### Records (R322) -/

/-- Word k of an entry. -/
def wordAt (x k : Nat) : Nat := x / 2 ^ (64 * k) % 2 ^ 64

/-- A dependence word. -/
def depOf (w : Nat) : Option (Bool × Nat × BitVec 32) :=
  if field w 63 63 = 1 then some (field w 62 62 = 1, field w 61 45, BitVec.ofNat 32 w) else none

def LaunchRec.ofNat (x : Nat) : LaunchRec :=
  let w1 := wordAt x 1
  let w5 := wordAt x 5
  let op := field w1 63 56
  let bad := field w1 55 48 ≠ 0 || field w1 14 0 ≠ 0 || field w5 31 11 ≠ 0 || field (wordAt x 6) 44 32 ≠ 0 ||
    field (wordAt x 7) 44 32 ≠ 0
  let badAbort := wordAt x 0 ≠ 0 || w1 % 2 ^ 56 ≠ 0 || wordAt x 2 ≠ 0 || wordAt x 3 ≠ 0 || w5 ≠ 0 || wordAt x 7 ≠ 0
  { entry := BitVec.ofNat 64 (wordAt x 0), op := op, nteam := field w1 47 32, tsize := field w1 31 26 + 1,
    prio := BitVec.ofNat 2 (field w1 25 24), place := field w1 23 22, die := field w1 21 19, vers := field w1 18 18 = 1,
    fullch := field w1 17 17 = 1, remap := field w1 16 16 = 1, irq := field w1 15 15 = 1, desc := BitVec.ofNat 64 (wordAt x 2),
    compl := BitVec.ofNat 64 (wordAt x 3), crec := BitVec.ofNat 64 (wordAt x 4), ihart := BitVec.ofNat 32 (w5 / 2 ^ 32),
    iid := BitVec.ofNat 11 w5, dep0 := depOf (wordAt x 6), dep1 := depOf (wordAt x 7),
    reserved := bad || (op = 2 && badAbort) }

/-- Tasks of the launch. -/
def LaunchRec.tasks (r : LaunchRec) : Nat := r.nteam * r.tsize

/-- DOORBELL (R321), from a hart or over PCIe. -/
def execDoorbell (who : Requester) (queue : Nat) (value : BitVec 32) (s : State) : Result :=
  .next (if queue < 131072 then s.ctlStore who (0x2000000 + 8 * queue) 4 (value.setWidth 64) else s)

/-! ### Dependences (R328) -/

/-- The launch of a queue with a sequence number that has not completed. -/
def State.liveLaunch (s : State) (q : Nat) (seq : BitVec 32) : Option (Nat × Launch) :=
  List.find? (fun (e : Nat × Launch) => e.2.queue == q && e.2.seq == seq && e.2.live) s.launches

/-- STATUS of a launch by queue and sequence number; `none` while it has not completed. SEQ values up to 2^31 - 1 ahead of HEAD
count as not yet consumed (log entry 21). -/
def State.statusOf (s : State) (q : Nat) (seq : BitVec 32) : Option Nat :=
  let back := ((s.queue q).head - 1 - seq).toNat
  if 2 ^ 31 ≤ back then none
  else if 1024 ≤ back then some 1
  else match s.dev.statuses.find? (q * 2 ^ 32 + seq.toNat) with
    | some x => some x
    | none => if (s.liveLaunch q seq).isSome then none else some 1

/-- A dependence is met: `some true`; has completed but not as OK demands: `some false`. -/
def State.depMet (s : State) (d : Option (Bool × Nat × BitVec 32)) : Option Bool :=
  match d with
  | none => some true
  | some (ok, q, seq) => (s.statusOf q seq).map fun st => !ok || st == 1

/-! ### Consuming a record (R321, R323, R328) -/

/-- A launch of the queue is being formed, up to step 6: it holds back the later records. -/
def State.forming (s : State) (q : Nat) : Bool :=
  s.launches.any fun e => e.2.queue == q && e.2.record.op != 2 && (match e.2.phase with
    | .consumed | .waiting | .object => true
    | .running => !e.2.formed
    | _ => false)

/-- Where the record at HEAD lies. -/
def QCtx.recordAt (c : QCtx) : Nat := c.ring.toNat * 64 + 64 * (c.head.toNat % 2 ^ (c.rsz + 4))

/-- The queue has a record to form. -/
def State.queueReady (s : State) (q : Nat) : Bool :=
  let c := s.queue q
  c.en && c.head != c.tail && !s.forming q && !s.heldLine c.recordAt

/-- How far a queue is behind the one that was served last: queues with records to form are served in rotation (R328). -/
def State.queueRank (s : State) (q : Nat) : Nat := (q + 2 * 131072 - (s.dev.lastQueue + 1)) % 131072

/-- An identifier that no launch in the table has; never 0. -/
def State.newLaunchId (s : State) : Nat :=
  ((List.range (s.launches.length + 1)).find? fun i => (s.launches.find? (i + 1)).isNone).getD 0 + 1

/-- One more than every launch's place in the order of formation. -/
def State.nextOrder (s : State) : Nat := (s.launches.foldl (fun n e => max n e.2.order) 0) + 1

/-- The ABORT records that wait for a launch to be consumed. -/
def State.heldAborts (s : State) (q : Nat) (seq : BitVec 32) : List Nat :=
  (s.launches.filter fun e => e.2.record.op == 2 && e.2.phase == .waiting && (match e.2.record.dep0 with
    | some (_, q', seq') => q' == q && seq' == seq
    | none => false)).map (·.1)

/-- SERIAL counts the tasks of one launch (spec/05_scalar.md R85): an identifier that is given again begins anew. -/
def State.forgetSerials (s : State) (id : Nat) : State :=
  let forget (e : Nat × Core) : Nat × Core := (e.1, { e.2 with serial := e.2.serial.erase id })
  { s with cores := s.cores.map forget }

/-- RECORD_CONSUME: the next record of the queue whose turn it is is read at its home and HEAD rises. -/
def execRecordConsume (queue : Nat) (s : State) : Result :=
  .next <|
    let c := s.queue queue
    let pa := c.recordAt
    let turn := s.dev.queues.all fun e => !s.queueReady e.1 || decide (s.queueRank queue ≤ s.queueRank e.1)
    if s.dev.stage ≠ 2 || !s.queueReady queue || !turn then s
    else
      let (x, s) := if spaceOf pa = .dram then s.outerRead pa else (0, s)
      let id := s.newLaunchId
      let held := s.heldAborts queue c.head
      let r := LaunchRec.ofNat x.toNat
      let l : Launch :=
        { queue := queue, seq := c.head, root := c.root.toNat * 1024, part := s.queuePart queue, record := r, aborters := held,
          aborted := !held.isEmpty && r.op != 2, failed := if held.isEmpty || r.op == 2 then none else some 0x6B,
          order := s.nextOrder }
      let s := s.onQueue queue fun c => { c with head := c.head + 1 }
      let s := (s.forgetSerials id).onDev fun d => { d with lastQueue := queue }
      { s with launches := s.launches.put id l }

/-! ### Step 1 (R326, R327) -/

def Launch.step1 (l : Launch) : Option Nat :=
  let r := l.record
  if !(r.op == 1 || r.op == 2) || r.reserved || r.crec.toNat % 64 ≠ 0 then some 0x02
  else if r.op = 2 then (if r.dep0.isNone then some 0x02 else none)
  else if r.place = 3 || 3 < r.die || r.desc.toNat % 64 ≠ 0 || r.nteam = 0 then some 0x02
  else if r.place = 2 && r.desc = 0 then some 0x02
  else if r.compl.toNat % 64 ≠ 0 || windowOf r.compl ≠ .mapped then some 0x6C
  else none

/-- PLACE 10 with TTAB 0 fails step 1 too: the word is read for that. One that cannot be read leaves the cause to step 3. `none`: the
read waits. -/
def State.step1At (s : State) (l : Launch) : Option (Option Nat) × State :=
  if l.step1 = some 0x02 || l.record.op ≠ 1 || l.record.place ≠ 2 then (some l.step1, s)
  else match s.launchRead l.via l.record.desc 8 with
    | (.ok bs, s) => (some (if ofBytes bs = 0 then some 0x02 else l.step1), s)
    | (.fault _ _, s) => (some l.step1, s)
    | (.wait, s) => (none, s)

/-- A failure before start: the object is still requested, if it has been translated (R326). -/
def State.failLaunch (s : State) (id cause : Nat) : State :=
  let s := s.onLaunch id fun l => { l with failed := l.failed <|> some cause, phase := .object }
  match (s.launch? id).bind fun l => l.objectAt with
  | some pa => s.guardArrive pa { who := .launch id, holder := BitVec.allOnes 56, shared := false, scope := .system }
  | none => s.onLaunch id fun l => { l with phase := .finishing }

/-! ### Reading the descriptor and the lists (R324, R325) -/

/-- Entries of a list, each as a number. -/
def State.readList (s : State) (l : Launch) (base : Word) (size n : Nat) : Engine (List Nat) × State :=
  gatherE (List.range n) (fun i s =>
    afterE (s.launchRead l.via (base + BitVec.ofNat 64 (size * i)) size) fun bs s => (.ok [ofBytes bs], s)) s

/-- The lists of a launch as they lie in memory. -/
structure Lists where
  desc : Nat := 0
  ents : List Nat := []
  groups : List Nat := []
  members : List (List Nat) := []
  feet : List Nat := []
  caps : List Nat := []
  regions : List Nat := []
  handlers : List Nat := []
  actors : List Nat := []
  deriving DecidableEq, Repr

def descCount (d hi lo : Nat) : Nat := field (wordAt d 10) hi lo

/-- Read everything that the descriptor names; no descriptor means no lists. -/
def State.readLists (s : State) (l : Launch) : Engine Lists × State :=
  if l.record.desc = 0 then (.ok {}, s)
  else
    afterE (s.launchRead l.via l.record.desc 128) fun bs s =>
      let d := ofBytes bs
      let at_ (k : Nat) : Word := BitVec.ofNat 64 (wordAt d k)
      afterE (s.readList l (at_ 0) 32 (if at_ 0 = 0 then 0 else l.record.tasks)) fun ents s =>
      afterE (s.readList l (at_ 3) 16 (descCount d 63 55)) fun groups s =>
      afterE (gatherE groups (fun g s =>
        afterE (s.readList l (BitVec.ofNat 64 (wordAt g 0)) 4 (min (wordAt g 1 % 8192) 4096)) fun ms s => (.ok [ms], s)) s) fun members s =>
      afterE (s.readList l (at_ 4) 32 (descCount d 54 51)) fun feet s =>
      afterE (s.readList l (at_ 5) 8 (descCount d 50 43)) fun caps s =>
      afterE (s.readList l (at_ 6) 16 (descCount d 42 39)) fun regions s =>
      afterE (s.readList l (at_ 7) 16 (descCount d 38 34)) fun handlers s =>
      afterE (s.readList l (at_ 8) 128 (descCount d 31 16)) fun actors s =>
        (.ok { desc := d, ents := ents, groups := groups, members := members, feet := feet, caps := caps, regions := regions,
               handlers := handlers, actors := actors }, s)

/-! ### Checks of step 3 -/

/-- Word k of 4 bytes. -/
def halfAt (x k : Nat) : Nat := x / 2 ^ (32 * k) % 2 ^ 32

def footOf (x : Nat) : Word × Word × Nat × Nat × Bool :=
  (BitVec.ofNat 64 (wordAt x 0), BitVec.ofNat 64 (wordAt x 1), halfAt x 4, halfAt x 5, wordAt x 3 % 2 = 1)

def footBad (x : Nat) : Bool :=
  let off := halfAt x 4
  let len := halfAt x 5
  off % 8 ≠ 0 || len % 8 ≠ 0 || len < 8 || 2 ^ 19 < off + len || 1 < wordAt x 3

/-- Two ranges of a list meet. -/
def someMeet : List (Nat × Nat) → Bool
  | [] => false
  | x :: xs => xs.any (rangesMeet x) || someMeet xs

/-- A reserved field of a list is not zero, a count is out of range, or the footprints do not fit. The descriptor's own reserved fields are
ignored (spec/00_scope.md R5). -/
def Lists.bad02 (x : Lists) : Bool :=
  let d := x.desc
  256 < descCount d 63 55 || 8 < descCount d 54 51 ||
  16 < descCount d 38 34 ||
  x.ents.any (fun e => 4095 < wordAt e 3) ||
  x.groups.any (fun g => wordAt g 1 = 0 || 4096 < wordAt g 1) ||
  x.members.any (fun ms => ms.any fun m => field m 15 6 ≠ 0) ||
  x.feet.any footBad || someMeet (x.feet.map fun f => (halfAt f 4, halfAt f 5)) ||
  x.caps.any (fun c => field c 41 3 ≠ 0) ||
  x.regions.any (fun r => wordAt r 0 % 4096 ≠ 0 || wordAt r 1 % 4096 ≠ 0) ||
  x.handlers.any (fun h => 15 < wordAt h 1) ||
  x.actors.any (fun a => wordAt a 1 % 2 ^ 31 ≠ 0 || wordAt a 3 ≠ 0 ||
    (List.range 16).any (fun k => field (halfAt a (8 + k)) 19 19 ≠ 0) || (List.range 8).any fun k => field (halfAt a (24 + k)) 30 19 ≠ 0)

/-- A group member: team and task index. -/
def memberOf (m : Nat) : Nat × Nat := (m / 65536, m % 64)

/-- The core of a task under PLACE 10. -/
def Lists.coreOf (x : Lists) (r : LaunchRec) (m : Nat × Nat) : Option Nat :=
  if r.place = 2 then (x.ents[m.1 * r.tsize + m.2]?).map fun e => wordAt e 3 else none

def inLaunch (r : LaunchRec) (m : Nat × Nat) : Bool := m.1 < r.nteam && m.2 < r.tsize

/-- How often a task (or its core under PLACE 10) is listed. -/
def Lists.place (x : Lists) (r : LaunchRec) (m : Nat × Nat) : Nat :=
  match x.coreOf r m with
  | some c => c
  | none => 4096 + m.1 * 64 + m.2

/-- 0x6E: a member beyond the launch, or a core in more than four groups. -/
def Lists.badGroups (x : Lists) (r : LaunchRec) : Bool :=
  let gs := x.members.map fun ms => (ms.map fun m => x.place r (memberOf m)).eraseDups
  x.members.any (fun ms => ms.any fun m => !inLaunch r (memberOf m)) ||
  (gs.flatten.eraseDups).any fun c => 4 < (gs.filter fun g => g.contains c).length

def actorTeam (a : Nat) : Nat × Nat := (field (wordAt a 1) 63 48, field (wordAt a 1) 47 42)
def actorNin (a : Nat) : Nat := field (wordAt a 1) 38 35
def actorNout (a : Nat) : Nat := field (wordAt a 1) 34 31

def fifoBad (w : Nat) : Bool :=
  let log := field w 23 20
  field w 31 24 = 0 || log = 0 || 12 < log || w % 2 ^ 19 % 64 ≠ 0 || 2 ^ 19 < w % 2 ^ 19 + 64 * 2 ^ log

/-- 0x69: an actor's FIFOs or links are invalid, or a core has more than 16 actors. -/
def Lists.badActors (x : Lists) (r : LaunchRec) : Bool :=
  let bad (a : Nat) : Bool :=
    8 < actorNin a || 8 < actorNout a || !inLaunch r (actorTeam a) ||
    (List.range (actorNin a)).any (fun k => fifoBad (halfAt a (8 + k))) ||
    (List.range (actorNout a)).any (fun k => fifoBad (halfAt a (16 + k))) ||
    (List.range 8).any fun k =>
      let w := halfAt a (24 + k)
      let v := field w 31 31 = 1
      if k < actorNout a then
        !v || (match x.actors[field w 18 3]? with
          | some c => actorNin c ≤ w % 8
          | none => true)
      else v
  let ps := x.actors.map fun a => x.place r (actorTeam a)
  x.actors.any bad || ps.any fun p => 16 < (ps.filter (· == p)).length

/-- 0x02: a CORE outside the partition or withdrawn, or a team on two dies. -/
def State.badCores (s : State) (l : Launch) (x : Lists) : Bool :=
  let r := l.record
  r.place = 2 &&
  (x.ents.length ≠ r.tasks ||
   x.ents.any (fun e => s.corePart (wordAt e 3) ≠ l.part || (s.core (wordAt e 3)).withdrawn) ||
   (List.range r.tasks).any fun i =>
     dieOf (wordAt (x.ents.getD i 0) 3) ≠ dieOf (wordAt (x.ents.getD (i / r.tsize * r.tsize) 0) 3))

def capTeam (c : Nat) : Nat × Nat := (field c 63 48, field c 47 42)

def State.step3 (s : State) (l : Launch) (x : Lists) : Option Nat :=
  let r := l.record
  if x.bad02 then some 0x02
  else if x.badGroups r then some 0x6E
  else if x.badActors r then some 0x69
  else if s.badCores l x then some 0x02
  else if x.caps.any fun c => !inLaunch r (capTeam c) then some 0x53
  else none

/-! ### Step 4: channels, capabilities, handlers -/

/-- The channel is withdrawn or narrowed. -/
def State.channelHurt (s : State) (ch : Nat) : Bool := s.dev.badChan.get 0 ch ≠ 0

/-- Where a page of a region lies: `none` where it is no DRAM. Its bytes are not read. -/
def State.regionAt (s : State) (l : Launch) (va : Word) : Engine (Option Nat) × State :=
  match windowOf va with
  | .ls _ | .dls _ _ => (.ok none, s)
  | .mapped =>
    match s.translateAt l.root l.part { kind := .load, sys := false, io := false, writes := false } va with
    | (.fault _, _, s) => (.ok none, s)
    | (.wait, _, s) => (.wait, s)
    | (.storage a p, _, s) => match s.engineMeets l.part a p l.via.id with
      | (some _, s) => (.ok none, s)
      | (none, s) => (.wait, s)
    | (.ok pa _, _, s) => (.ok (if spaceOf pa = .dram then some pa else none), s.engineServed (pageAt pa) l.via.id)

/-- The channels of a region's pages; `none` where a page fails R305. -/
def State.regionPages (s : State) (l : Launch) : Nat → Word → Engine (Option (List Nat)) × State
  | 0, _ => (.ok (some []), s)
  | n + 1, va =>
    match s.regionAt l va with
    | (.wait, s) => (.wait, s)
    | (.fault c va, s) => (.fault c va, s)
    | (.ok none, s) => (.ok none, s)
    | (.ok (some pa), s) =>
      let ch := s.devChannel pa
      let own := s.ownOf ch
      if !own.crm || own.part ≠ l.part || !inExclusive (s.cxuOf pa) pa then (.ok none, s)
      else match s.regionPages l n (va + 4096) with
        | (.ok (some cs), s) => (.ok (some (if cs.contains ch then cs else ch :: cs)), s)
        | r => r

def State.allRegions (s : State) (l : Launch) : List (Word × Word) → Engine (Option (List Nat)) × State
  | [] => (.ok (some []), s)
  | (base, len) :: rs =>
    match s.regionPages l (len.toNat / 4096) base with
    | (.ok (some a), s) => match s.allRegions l rs with
      | (.ok (some b), s) => (.ok (some ((a ++ b).eraseDups)), s)
      | r => r
    | r => r

/-- R238, R305: the channels of the regions, or the cause. -/
def State.checkChannels (s : State) (l : Launch) (regions : List (Word × Word)) : Engine (Except Nat (List Nat)) × State :=
  let mine := (List.range 256).filter fun c => (s.ownOf c).part == l.part
  if l.record.fullch && !l.record.remap && mine.any s.channelHurt then (.ok (.error 0x6D), s)
  else match s.allRegions l regions with
    | (.ok none, s) => (.ok (.error 0x1C), s)
    | (.ok (some cs), s) => if cs.any s.channelHurt then (.ok (.error 0x6D), s) else (.ok (.ok cs), s)
    | (.fault c va, s) => (.fault c va, s)
    | (.wait, s) => (.wait, s)

/-- A launch that has passed step 4 is owed an entry on the core: its PLACE 10 task there has a capability that is not installed
yet. -/
def Launch.owedCap (l : Launch) (core : Nat) : Bool :=
  l.record.place == 2 && (l.phase == .object || l.phase == .running) && (l.keys.find? core).isNone &&
  l.caps.any fun c => (l.ents[c.1 * l.record.tsize + c.2.1]?).any fun e => e.core == core

/-- Entries of a core's capability table that are valid, or promised to a launch that has been formed so far (R252). -/
def State.capsOn (s : State) (core : Nat) : Nat :=
  (s.core core).munit.caps.length + (s.launches.filter fun e => e.2.owedCap core).length

/-- R252: a core named by the capability list has no room for an entry. -/
def State.capsFull (s : State) (cores : List Nat) : Bool := cores.any fun c => 8 ≤ s.capsOn c

/-- The address lies in DRAM, as far as its translation says where it lies. -/
def State.inDram (s : State) (l : Launch) (va : Word) : Bool :=
  match windowOf va with
  | .mapped => match s.translateAt l.root l.part { kind := .load, sys := false, io := false, writes := false } va with
    | (.ok pa _, _, _) => spaceOf pa == .dram
    | _ => true
  | _ => false

/-- Read a handler image: its header and its fetch lines; `none` where a line does not lie in DRAM or is misaligned (R307). -/
def State.readImage (s : State) (l : Launch) (va : Word) : Engine (Option (Line × List Line)) × State :=
  if va.toNat % 64 ≠ 0 || !s.inDram l va then (.ok none, s)
  else afterE (s.launchRead l.via va 64) fun h s =>
    let h := BitVec.ofNat 512 (ofBytes h)
    let lines := (List.range (min (sliceLine h 32 1) 13)).map fun i => va + BitVec.ofNat 64 (64 + 64 * i)
    if lines.any fun a => !s.inDram l a then (.ok none, s)
    else afterE (gatherE lines (fun a s =>
      afterE (s.launchRead l.via a 64) fun bs s => (.ok [BitVec.ofNat 512 (ofBytes bs)], s)) s) fun ls s =>
        (.ok (some (h, ls)), s)

/-- A launch that has passed step 4 is owed the entry of the unit at step 6. -/
def Launch.owedEntry (l : Launch) (u k : Nat) : Bool :=
  (l.phase == .object || (l.phase == .running && !l.formed)) && l.failed.isNone && l.regionChannels.contains u &&
    (l.entries.find? k).isSome

/-- Another launch holds the entry of the unit, or is owed it (R306). -/
def State.entryTaken (s : State) (id u k : Nat) : Bool :=
  ((s.unit u).entries.find? k).any (fun e => e.launch != id) || s.launches.any fun e => e.1 != id && e.2.owedEntry u k

/-- R306, R307: the entries that the handler list makes, or the cause. -/
def State.checkHandlers (s : State) (l : Launch) (id : Nat) (chans : List Nat) :
    List (Word × Nat) → Engine (Except Nat (List (Nat × HEntry))) × State
  | [] => (.ok (.ok []), s)
  | (va, k) :: hs =>
    if chans.any fun u => s.entryTaken id u k then (.ok (.error 0x48), s)
    else afterE (s.readImage l va) fun image s =>
      match image with
      | none => (.ok (.error 0x49), s)
      | some (h, ls) =>
        if !imageLoads h ls then (.ok (.error 0x49), s)
        else afterE (s.checkHandlers l id chans hs) fun r s =>
          (.ok (match r with
            | .ok es => .ok ((k, entryOf id h ls) :: es)
            | .error c => .error c), s)

/-! ### What a formed launch holds -/

def fifoOf (w : Nat) (link : Option (Nat × Nat)) : Fifo :=
  { rate := field w 31 24, cap := 2 ^ field w 23 20, off := w % 2 ^ 19, link := link }

def actorOf (a : Nat) : Actor :=
  let w := wordAt a 1
  { routine := BitVec.ofNat 64 (wordAt a 0), team := field w 63 48, task := field w 47 42, prio := BitVec.ofNat 2 (field w 41 40),
    handler := field w 39 39 = 1, image := BitVec.ofNat 64 (wordAt a 2),
    ins := (List.range (actorNin a)).map fun k => fifoOf (halfAt a (8 + k)) none,
    outs := (List.range (actorNout a)).map fun k =>
      fifoOf (halfAt a (16 + k)) (some (field (halfAt a (24 + k)) 18 3, halfAt a (24 + k) % 8)) }

/-- The launch with its lists. -/
def Launch.withLists (l : Launch) (x : Lists) (chans : List Nat) : Launch :=
  let ent (e : Nat) : TaskEnt :=
    { entry := BitVec.ofNat 64 (wordAt e 0), g2 := BitVec.ofNat 64 (wordAt e 1), g3 := BitVec.ofNat 64 (wordAt e 2), core := wordAt e 3 }
  let grp (ms : List Nat) : Group := { members := ms.map memberOf }
  { l with
      ents := x.ents.map ent, arg2 := BitVec.ofNat 64 (wordAt x.desc 1), arg3 := BitVec.ofNat 64 (wordAt x.desc 2),
      feet := x.feet.map footOf, groups := x.members.map grp,
      caps := x.caps.map fun c => ((capTeam c).1, (capTeam c).2, field c 2 2 = 1, field c 1 1 = 1, c % 2 = 1),
      regions := x.regions.map fun r => (BitVec.ofNat 64 (wordAt r 0), BitVec.ofNat 64 (wordAt r 1)),
      regionChannels := chans, handlers := x.handlers.map fun h => (BitVec.ofNat 64 (wordAt h 0), wordAt h 1),
      actors := (List.range x.actors.length).map fun i => (i, actorOf (x.actors.getD i 0)),
      dlq := BitVec.ofNat 64 (wordAt x.desc 9), dlqLog := descCount x.desc 15 12,
      todo := List.range l.record.tasks }

/-- Steps 3 and 4; the launch then requests its completion object (step 5). -/
def State.formLists (s : State) (id : Nat) (l : Launch) : State :=
  match s.readLists l with
  | (.wait, s') => s.retryLater s'
  | (.fault c _, s) => s.failLaunch id c
  | (.ok x, s) =>
    match s.step3 l x with
    | some c => s.failLaunch id c
    | none =>
      let l' := l.withLists x []
      match s.checkChannels l l'.regions with
      | (.wait, s') => s.retryLater s'
      | (.fault c _, s) => s.failLaunch id c
      | (.ok (.error c), s) => s.failLaunch id c
      | (.ok (.ok chans), s) =>
        let cores := (x.caps.filterMap fun c => x.coreOf l.record (capTeam c)).eraseDups
        if s.capsFull cores then s.failLaunch id 0x53
        else match s.checkHandlers l id chans l'.handlers with
          | (.wait, s') => s.retryLater s'
          | (.fault c _, s) => s.failLaunch id c
          | (.ok (.error c), s) => s.failLaunch id c
          | (.ok (.ok es), s) =>
            let entries : Sparse HEntry := es.foldl (fun m e => m.put e.1 e.2) []
            let s := s.onLaunch id fun _ => { l.withLists x chans with phase := .object, entries := entries }
            match l.objectAt with
            | some pa => s.guardArrive pa { who := .launch id, holder := BitVec.allOnes 56, shared := false, scope := .system }
            | none => s

/-! ### Steps 1, 2 and 6 -/

/-- R329: free team slots of a die. -/
def State.freeTeams (s : State) (die : Nat) : Nat :=
  1024 - (s.launches.map fun e => (e.2.teams.filter fun t => t.2.die == some die).length).foldl (· + ·) 0

def State.dieUp (s : State) (d : Nat) : Bool := (s.die d).joined && !(s.die d).withdrawn

/-- The die that a team takes now, if one has a free slot. Of dies with equally many an open team takes the lowest-numbered: the spec does
not say which (spec/01_machine.md R38; log entry 48). -/
def State.teamDie (s : State) (l : Launch) (team : Nat) : Option Nat :=
  let r := l.record
  match r.place with
  | 0 =>
    let ds := (List.range 4).filter fun d => s.dieUp d && 0 < s.freeTeams d
    ds.foldl (fun best d => match best with
      | none => some d
      | some b => if s.freeTeams b < s.freeTeams d then some d else some b) none
  | 1 => if 0 < s.freeTeams r.die then some r.die else none
  | _ =>
    let d := dieOf (l.ents.getD (team * r.tsize) {}).core
    if 0 < s.freeTeams d then some d else none

/-- The cores of a team that are known as it is formed: those of PLACE 10. -/
def Launch.teamCores (l : Launch) (team : Nat) : Sparse Nat :=
  let r := l.record
  if r.place = 2 then (List.range r.tsize).map fun i => (i, (l.ents.getD (team * r.tsize + i) {}).core) else []

/-- A group's home is fixed once every member has its core (R38). -/
def Launch.fixHomes (l : Launch) : Launch :=
  { l with groups := l.groups.map fun g =>
      match g.home, l.memberCores g with
      | none, some (c :: _) => { g with home := some (clusterOf c) }
      | _, _ => g }

/-- A key that no valid entry of the device holds: the launch engine chooses it (R252), so it is a free value (log entry 10). -/
def State.newKey (s : State) : BitVec 48 :=
  let used := s.cores.flatMap fun e => e.2.munit.caps.map CapEntry.key
  let key := Config.freeKey s.free
  let k := ((List.range (used.length + 1)).find? fun k => !used.contains (key + BitVec.ofNat 48 k)).getD 0
  key + BitVec.ofNat 48 k

/-- The capability-table entry for a core of the launch: the launch's entries that name the core share it, and its RIGHTS are the union
of theirs (R252, R325). -/
def State.installCap (s : State) (id core : Nat) : State :=
  match s.launch? id with
  | none => s
  | some l =>
    let mine := l.caps.filter fun c => l.coreOf (c.1, c.2.1) == some core
    let entry (key : BitVec 48) : CapEntry :=
      { key := key, read := mine.any fun c => c.2.2.1, stream := mine.any fun c => c.2.2.2.1,
        load := mine.any fun c => c.2.2.2.2, launch := id }
    if mine.isEmpty then s
    else match l.keys.find? core with
      | some key => s.onUnitM core fun u => { u with caps := u.caps.map fun e => if e.key = key then entry key else e }
      | none =>
        let key := s.newKey
        let s := { s with free := s.free + 1 }
        let s := s.onUnitM core fun u => { u with caps := u.caps ++ [entry key] }
        s.onLaunch id fun l => { l with keys := l.keys.put core key }

/-- The actors of a task whose core has become known are placed there (R36): an actor whose ranges are taken begins swapped
out. -/
def State.placeActors (s : State) (id team task core : Nat) : State :=
  match s.launch? id with
  | none => s
  | some l =>
    (l.actors.filter fun a => a.2.team == team && a.2.task == task && a.2.state == .unplaced).foldl (fun s a =>
      let taken := anyMeet a.2.ranges (s.takenRanges core)
      let s := s.onActor id a.1 fun x => { x with core := core, state := if taken then .swapped else .placed }
      if taken then s
      else
        let put (s : State) (f : Fifo) : State :=
          (List.range f.items.length).foldl (fun s i => s.putItem core f i ((f.items[i]?.map Item.data).getD 0)) s
        (a.2.ins.foldl put s).tryFire id a.1) s

/-- Homes, entries and actors of a core that a team's task has taken. -/
def State.coreKnown (s : State) (id team task core : Nat) : State :=
  let s := s.onLaunch id Launch.fixHomes
  (s.installCap id core).placeActors id team task core

/-- Form the teams that find a slot, in order; the others wait (R329). -/
def State.formTeams (s : State) (id : Nat) : List Nat → State
  | [] => s
  | t :: ts =>
    match s.launch? id with
    | none => s
    | some l =>
      if (l.teams.find? t).isSome then s.formTeams id ts
      else match s.teamDie l t with
        | none => s.formTeams id ts
        | some d =>
          let cs := l.teamCores t
          let s := s.onLaunch id fun l => { l with teams := l.teams.put t { die := some d, cores := cs } }
          (cs.foldl (fun s c => s.coreKnown id t c.1 c.2) s).formTeams id ts

/-- Step 1, and the translation of COMPL and CREC (R327). -/
def State.formStart (s : State) (id : Nat) (l : Launch) : State :=
  match s.step1At l with
  | (none, s') => s.retryLater s'
  | (some (some c), s) =>
    if l.record.compl.toNat % 64 = 0 && windowOf l.record.compl == .mapped && l.record.op != 2 then
      match s.launchReach l.via true l.record.compl with
      | (.ok (pa, _), s) => (s.onLaunch id fun l => { l with objectAt := some pa }).failLaunch id c
      | (.wait, s') => s.retryLater s'
      | (.fault _ _, s) => s.failLaunch id c
    else s.failLaunch id c
  | (some none, s) =>
    match s.launchReach l.via true l.record.compl with
    | (.wait, s') => s.retryLater s'
    | (.fault c _, s) => s.failLaunch id c
    | (.ok (pa, _), s) =>
      let s := s.onLaunch id fun l => { l with objectAt := some pa }
      match s.launchReach l.via true l.record.crec with
      | (.wait, s') => s.retryLater s'
      | (.fault c _, s) => s.failLaunch id c
      | (.ok _, s) =>
        match l.failed, s.depMet l.record.dep0, s.depMet l.record.dep1 with
        | some c, _, _ => s.failLaunch id c
        | none, some a, some b =>
          if a && b then s.formLists id { l with objectAt := some pa } else s.failLaunch id 0x6B
        | none, some false, none | none, none, some false => s.failLaunch id 0x6B
        | none, _, _ => s.onLaunch id fun l => { l with phase := .waiting }

/-- The bank-handler entries of a launch are written into the units of its regions' channels (R306, R326 step 6). -/
def State.installEntries (s : State) (l : Launch) : State :=
  l.regionChannels.foldl (fun s u =>
    s.onUnit u fun v => { v with entries := l.entries.foldl (fun m e => m.put e.1 e.2) v.entries }) s

/-- LAUNCH_FORMATION: steps 1 to 5 of a consumed record, and step 6 once its object is granted. -/
def execLaunchFormation (launch : Nat) (s : State) : Result :=
  .next <|
    match s.launch? launch with
    | none => s
    | some l =>
      if l.record.op = 2 && l.step1.isNone then s
      else match l.phase with
        | .consumed => s.formStart launch l
        | .running =>
          if l.formed then s
          else ((s.installEntries l).onLaunch launch fun l => { l with formed := true, order := s.nextOrder }).formTeams launch
            (List.range l.record.nteam)
        | _ => s

/-- DEPENDENCE_MET: a launch that waited at step 2 goes on, or fails. -/
def execDependenceMet (launch : Nat) (s : State) : Result :=
  .next <|
    match s.launch? launch with
    | none => s
    | some l =>
      let passed := match s.depMet l.record.dep0, s.depMet l.record.dep1 with
        | some false, _ | _, some false => true
        | some _, some _ => true
        | _, _ => false
      if l.phase = .waiting && l.record.op != 2 && (passed || l.failed.isSome) then
        s.onLaunch launch fun l => { l with phase := .consumed }
      else s

end Sys2Proof.Machine
end

