-- ==== Sys2Proof/Machine/Schedule.lean ====
section
/-! DEFINITION. Footprint fills, dispatch, ageing, and team migration (spec/21_launch_storage.md R330-R332,
spec/01_machine.md R28-R32, R43, R44, R46, spec/02_machine_notes.md R48). -/

namespace Sys2Proof.Machine

open Sys2Proof

/-! ### Who is packed for migration (R48) -/

/-- The team is packed: none of its tasks can be chosen. -/
def State.packed (s : State) (launch team : Nat) : Bool :=
  s.dies.any fun d => match d.2.moving with
    | some m => m.launch == launch && m.team == team
    | none => false

/-! ### Footprint fills (R331) -/

/-- The bytes of the footprints, each with its local-store offset. -/
def State.readFeet (s : State) (w : Via) : List Footprint → Engine (List (Nat × List Byte)) × State
  | [] => (.ok [], s)
  | f :: fs => afterE (s.launchRead w f.src f.len) fun bs s =>
    afterE (s.readFeet w fs) fun rest s => (.ok ((f.off, bs) :: rest), s)

/-- FOOTPRINT_FILL: the task's footprints are filled and it becomes ready; a fault terminates it. -/
def execFootprintFill (task : Nat) (s : State) : Result :=
  .next <|
    match s.task? task with
    | none => s
    | some t =>
      match s.launch? t.launch with
      | none => s
      | some l =>
        if t.sched.status != .queued || t.sched.dying.isSome || s.packed t.launch t.team then s
        else match s.readFeet (l.viaTask task) t.foot with
          | (.wait, s') => s.retryLater s'
          | (.fault c _, s) => s.terminate task c false
          | (.ok xs, s) =>
            let s := xs.foldl (fun s x => s.lsEngineWrite t.sched.core x.1 x.2) s
            let now := s.dev.cycle
            s.onTask task fun t =>
              { t with filled := true,
                       sched := { t.sched with status := .ready, entryTime := now, level := t.sys.prio, ableAt := now + 1 } }

/-! ### The run queue and the progress promise (R29, R30) -/

/-- The run queue of its core can choose the task. -/
def State.choosable (s : State) (core : Nat) (t : Task) : Bool :=
  t.sched.core == core && t.sched.status == .ready && t.holdsEntry && t.sched.slot.isNone &&
  t.sched.dying.isNone && t.sched.ableAt ≤ s.dev.cycle && !s.packed t.launch t.team

def State.waitingOn (s : State) (core : Nat) : List (Nat × Task) :=
  s.allTasks.filter fun e => s.choosable core e.2 && e.2.sched.wait.isNone

/-- It has waited 4096 cycles since its entry time. -/
def Task.aged (t : Task) (now : Nat) : Bool := t.sched.entryTime + 4096 ≤ now

/-- The better of two entries, by a strict order; the first wins a tie. -/
def pickBest {α : Type} (better : α → α → Bool) : List α → Option α
  | [] => none
  | x :: xs => match pickBest better xs with
    | none => some x
    | some y => if better y x then some y else some x

/-- How long a task has waited: by entry time, and among tasks that entered together by when each last took a slot, so that
slots are granted in turn (R29, R32; log entry 27). -/
def Task.waitKey (t : Task) : List Nat := [t.sched.entryTime, t.sched.slotTime]

/-- R29: the task that a free slot among 0 to 5 takes. -/
def State.runChoice (s : State) (core : Nat) : Option (Nat × Task) :=
  let ws := s.waitingOn core
  let old := ws.filter fun e => e.2.aged s.dev.cycle
  match pickBest (fun a b => a.2.waitKey < b.2.waitKey) old with
  | some e => some e
  | none => pickBest (fun a b => a.2.sched.level.toNat :: a.2.waitKey < b.2.sched.level.toNat :: b.2.waitKey) ws

/-- The lowest free slot among 0 to 5. -/
def State.freeSlot (s : State) (core : Nat) : Option Nat := (List.range 6).find? fun i => (s.slotTask core i).isNone

/-- R30: the slot task that is pre-empted. -/
def State.victim (s : State) (core : Nat) : Option (Nat × Task) :=
  let able (t : Task) : Bool :=
    t.sched.core == core && (match t.sched.slot with
      | some i => i < 6
      | none => false) && !t.handler && t.sched.dying.isNone && (t.sched.status == .issuing || t.sched.status == .parked)
  let key (t : Task) : List Nat :=
    [if t.sched.status = .parked then 1 else 0, t.sched.level.toNat, t.sched.slotTime, t.sched.slot.getD 0]
  pickBest (fun a b => key b.2 < key a.2) (s.allTasks.filter fun e => able e.2)

/-- A task of the core has waited 4096 cycles and no slot among 0 to 5 is free (R30). -/
def State.ageWants (s : State) (core : Nat) : Bool :=
  (s.freeSlot core).isNone && (s.waitingOn core).any fun e => e.2.aged s.dev.cycle

/-- AGE_LIMIT_EXPIRY: the victim is at an instruction boundary between two acts, unless it is in the middle of a pair (R70). -/
def execAgeLimitExpiry (core : Nat) (s : State) : Result :=
  .next <|
    if !s.ageWants core then s
    else match s.victim core with
      | some (k, t) => if t.view.isNone then s.preempt k else s
      | none => s

/-- The victim that goes at once: it is parked, or it waits while it holds its slot, and so is at an instruction boundary. -/
def State.agesNow (s : State) (core : Nat) : Option Nat :=
  if !s.ageWants core then none
  else (s.victim core).bind fun e =>
    if e.2.sched.status = .parked || (e.2.sched.heldAt.isSome && e.2.view.isNone) then some e.1 else none

/-- R30, R32, before an issue. -/
def State.ageWaiting (s : State) (core : Nat) : State :=
  match s.agesNow core with
  | some k => s.preempt k
  | none => s

/-- The same after an issue: a victim that issues goes when its next instruction, or its pair, has issued. -/
def State.ageIssued (s : State) : State :=
  let core := s.t.sched.core
  if s.ageWants core && s.t.view.isNone && (s.victim core).any (fun e => e.1 == s.cur) then s.preempt s.cur else s

/-! ### The deferred flush (R46) -/

/-- COMPLETION_FLUSH: an acquire at device or system scope waits for it. -/
def execCompletionFlush (launch : Nat) (s : State) : Result :=
  .next <|
    match (s.launch? launch).bind fun l => l.objectAt with
    | none => s
    | some pa =>
      let wanted := (s.mem.guards.get [] pa).any fun r => 3 ≤ Scope.rank r.scope && (match r.who with
        | .launch _ | .ended => false
        | _ => true)
      if wanted then s.flushLaunch launch else s

/-! ### Dispatch (R331, R332) -/

/-- The footprints of a task. -/
def Launch.feetOf (l : Launch) (i : Nat) : List Footprint :=
  l.feet.map fun f => { off := f.2.2.1, len := f.2.2.2.1, src := f.1 + BitVec.ofNat 64 i * f.2.1, wb := f.2.2.2.2 }

/-- The launch with a task of a team on a core. -/
def Launch.onCore (l : Launch) (team j core : Nat) : Launch :=
  match l.teams.find? team with
  | some t => { l with teams := l.teams.put team { t with cores := t.cores.put j core } }
  | none => l

/-- Groups of the launch that hold the core. -/
def Launch.groupsWith (l : Launch) (core : Nat) : Nat := (l.groups.filter fun g => l.hasMember g core).length

def State.actorsOn (s : State) (core : Nat) : Nat :=
  (s.launches.map fun e => (e.2.actors.filter fun a =>
    a.2.core == core && (a.2.state == .placed || a.2.state == .swapped)).length).foldl (· + ·) 0

/-- The core can take the task, beside these ranges: a free run-queue entry, footprints that fit, and room for what the task's lists
name. -/
def State.takesAmong (s : State) (taken : List (Nat × Nat)) (l : Launch) (i core : Nat) : Bool :=
  let n := l.record.tsize.max 1
  let feet := (l.feetOf i).map fun f => (f.off, f.len)
  let caps := l.caps.any fun c => c.1 == i / n && c.2.1 == i % n
  let acts := (l.actors.filter fun a => a.2.team == i / n && a.2.task == i % n && a.2.state == .unplaced).length
  s.corePart core == l.part && !(s.core core).withdrawn && (s.freeEntry core).isSome && !anyMeet feet taken &&
  (!caps || (l.keys.find? core).isSome || s.capsOn core < 8) &&
  (l.onCore (i / n) (i % n) core).groupsWith core ≤ 4 && s.actorsOn core + acts ≤ 16

def State.takesTask (s : State) (l : Launch) (i core : Nat) : Bool := s.takesAmong (s.takenRanges core) l i core

/-- The core that a task of a team on the die goes to: its CORE under PLACE 10, else the eligible core whose run queue holds the
fewest tasks. -/
def State.coreFor (s : State) (l : Launch) (die i : Nat) : Option Nat :=
  let n := l.record.tsize.max 1
  match l.coreOf (i / n, i % n) with
  | some c => if s.takesTask l i c then some c else none
  | none =>
    let cs := ((List.range 1024).map (· + 1024 * die)).filter fun c => s.takesTask l i c
    pickBest (fun a b => (s.entriesOf a).length < (s.entriesOf b).length) cs

/-- The first task of a launch that a die can dispatch, with its core. -/
def State.nextTask (s : State) (id : Nat) (l : Launch) (die : Nat) : Option (Nat × Nat) :=
  let n := l.record.tsize.max 1
  l.todo.findSome? fun i =>
    if (l.teams.find? (i / n)).any (fun t => t.die == some die) && !s.packed id (i / n) then (s.coreFor l die i).map fun c => (i, c)
    else none

/-- Formed launches in the order of dispatch. -/
def State.dispatchOrder (s : State) : List (Nat × Launch) :=
  sortBy (fun a b => decide (a.2.record.prio.toNat < b.2.record.prio.toNat) ||
      (a.2.record.prio == b.2.record.prio && decide (a.2.order ≤ b.2.order)))
    (s.launches.filter fun e => e.2.phase == .running && e.2.formed && !e.2.aborted)

/-! ### Swapping out (spec/01_machine.md R36) -/

/-- A task of a running launch waits for a core only because its footprints overlap these ranges of the actors placed there
(spec/01_machine.md R36). -/
def State.taskWants (s : State) (core : Nat) (ranges : List (Nat × Nat)) : Bool :=
  s.dispatchOrder.any fun e => e.2.todo.any fun i =>
    let n := e.2.record.tsize.max 1
    anyMeet ((e.2.feetOf i).map fun f => (f.off, f.len)) ranges &&
    (e.2.teams.find? (i / n)).any (fun t => t.die == some (dieOf core)) && !s.packed e.1 (i / n) &&
    (match e.2.coreOf (i / n, i % n) with
     | some c => c == core
     | none => (s.coreFor e.2 (dieOf core) i).isNone) &&
    s.takesAmong (s.footRanges core) e.2 i core && !s.takesTask e.2 i core

/-- The ranges of an actor are needed: by a task, or by the swap-in of another actor whose firing condition holds (R36). -/
def State.swapWanted (s : State) (launch actor : Nat) (x : Actor) : Bool :=
  x.state == .placed && !x.firing &&
  (s.taskWants x.core x.ranges || s.launches.any fun e => e.2.actors.any fun a =>
    (e.1, a.1) != (launch, actor) && a.2.core == x.core && a.2.state == .swapped && a.2.ready && anyMeet a.2.ranges x.ranges)

/-- No other actor whose ranges are needed on the core ended its last firing earlier. -/
def State.swapsFirst (s : State) (x : Actor) : Bool :=
  s.launches.all fun e => e.2.actors.all fun a =>
    !(a.2.core == x.core && s.swapWanted e.1 a.1 a.2) || decide (x.lastEnd ≤ a.2.lastEnd)

/-- ACTOR_SWAP_OUT: the FIFOs of a placed actor without a firing, whose ranges are needed, are written to its image. -/
def execActorSwapOut (launch actor : Nat) (s : State) : Result :=
  .next <|
    match s.actor? launch actor with
    | none => s
    | some x =>
      if s.swapWanted launch actor x && s.swapsFirst x then
        let fs := x.ins ++ x.outs
        let put (s : State) (k : Nat) : State := match fs[k]? with
          | some f => (List.range f.items.length).foldl (fun s i =>
              s.imageItem launch x.image (imageOffset fs k) i ((f.items[i]?.map Item.data).getD 0)) s
          | none => s
        ((List.range fs.length).foldl put s).onActor launch actor fun x => { x with state := .swapped }
      else s

/-- Create task i of a launch on a core (R330). -/
def State.birthTask (s : State) (id : Nat) (l : Launch) (i core : Nat) : State :=
  let n := l.record.tsize.max 1
  let team := i / n
  let e := l.ents.getD i {}
  let plain := l.ents.isEmpty
  let gs : List Word := [BitVec.ofNat 64 i, if plain then l.arg2 else e.g2, if plain then l.arg3 else e.g3]
  let regs : Regs := (List.range 3).foldl (fun x k => x.write (.g (Fin.ofNat 64 (k + 1))) ((gs.getD k 0).setWidth 512)) {}
  let known := (l.coreOf (team, i % n)).isSome
  let s' := s.onLaunch id fun l => ({ l with todo := l.todo.filter (· != i) }).onCore team (i % n) core
  match s'.create { launch := id, core := core, kind := .launched, team := team, index := i % n,
                    entry := if e.entry = 0 then l.record.entry else e.entry, regs := regs, prio := l.record.prio,
                    versioned := l.record.vers, foot := l.feetOf i } with
  | none => s
  | some (_, s) => if known then s else s.coreKnown id team (i % n) core

/-- TASK_DISPATCH: teams that wait for a slot are formed where one is free; then one task of a formed launch is placed on a core
of the die. -/
def execTaskDispatch (die : Nat) (s : State) : Result :=
  .next <|
    if !s.dieUp die then s
    else
      let s := s.dispatchOrder.foldl (fun s e => s.formTeams e.1 (List.range e.2.record.nteam)) s
      match List.findSome? (fun (e : Nat × Launch) => (s.nextTask e.1 e.2 die).map fun x => (e.1, e.2, x.1, x.2)) s.dispatchOrder with
      | some (id, l, i, c) => s.birthTask id l i c
      | none => s

/-! ### Team migration (R43, R44, R48) -/

/-- SLOT_ADVERTISEMENT: once every 1024 cycles. -/
def execSlotAdvertisement (die : Nat) (s : State) : Result :=
  .next <|
    let due := match (s.die die).advert with
      | none => true
      | some (_, at_) => at_ + 1024 ≤ s.dev.cycle
    if die < 4 && s.dieUp die && due then
      let heard (e : Nat × Die) : Nat × Die := (e.1, { e.2 with refused := e.2.refused.filter (· != die) })
      let s := { s with dies := s.dies.map heard }
      s.onDie die fun d => { d with advert := some (s.freeTeams die, s.dev.cycle) }
    else s

/-- Run-queue occupancy of a die. -/
def State.occupancy (s : State) (die : Nat) : Nat := (s.allTasks.filter fun e => dieOf e.2.sched.core == die && e.2.holdsEntry).length

/-- The live tasks of a team. -/
def State.teamTasks (s : State) (launch team : Nat) : List (Nat × Task) :=
  s.allTasks.filter fun e => e.2.launch == launch && e.2.team == team && e.2.kind == .launched

/-- A tile of the core, bound, dormant or saved, belongs to the task. -/
def State.hasTile (s : State) (key core : Nat) : Bool :=
  let u := (s.core core).munit
  u.tile.any (fun t => t.owner == key) || u.saved.any fun e => e.owner == key

/-- The task may move: queued, ready without having issued, or suspended with nothing under way. -/
def State.movable (s : State) (key : Nat) (t : Task) : Bool :=
  t.sched.dying.isNone && !t.sched.rerun &&
  (match t.sched.status with
    | .queued => true
    | .ready => !t.sched.entered
    | .suspended => t.outcnt == 0 && t.held.isEmpty && t.tagCount.all (fun e => e.2 == 0) && !s.hasTile key t.sched.core
    | _ => false)

/-- A task of the team has arrived, since the launch began, at a barrier of a group that reaches beyond the team: C comes round to zero
after 2^16 phases, and does not tell (R43). -/
def Launch.teamArrived (l : Launch) (team : Nat) : Bool :=
  l.groups.any fun g =>
    g.arrived.contains team && g.members.any fun m => m.1 != team

/-- The conditions of R43 on a team. -/
def State.mayMigrate (s : State) (die launch team : Nat) : Bool :=
  match s.launch? launch with
  | none => false
  | some l =>
    l.phase == .running && l.formed && l.record.place == 0 && (l.teams.find? team).any (fun t => t.die == some die) &&
    (s.teamTasks launch team).all (fun e => s.movable e.1 e.2) && !l.teamArrived team &&
    !l.caps.any (fun c => c.1 == team) && !l.actors.any fun a => a.2.team == team

/-- The advertising die with the most free slots that has not refused since it advertised; of several, the lowest-numbered: the spec does not
say which (spec/01_machine.md R43; log entry 48). -/
def State.migrationTarget (s : State) (die : Nat) : Option Nat :=
  let ds := (List.range 4).filter fun d =>
    d != die && s.dieUp d && (s.die d).advert.isSome && !(s.die die).refused.contains d
  let slots (d : Nat) : Nat := ((s.die d).advert.map Prod.fst).getD 0
  pickBest (fun a b => slots b < slots a) ds

/-- TEAM_MIGRATION: a die over its threshold packs a team and offers it. The spec does not say how many teams a die may have packed at
once: here it is one (log entry 43). -/
def execTeamMigration (die launch team : Nat) (s : State) : Result :=
  .next <|
    let d := s.die die
    if die < 4 && s.dieUp die && d.migen && d.moving.isNone && d.qthr.toNat < s.occupancy die && s.mayMigrate die launch team then
      match s.migrationTarget die with
      | some target => s.onDie die fun d => { d with moving := some { launch := launch, team := team, target := target } }
      | none => s
    else s

/-- A core of the receiving die takes the tasks of a source core. It may be a member of more than four groups of the launch afterwards, of
which GRPS names the first four: the spec does not say what happens then (spec/01_machine.md R44; log entry 48). -/
def State.takesCore (s : State) (l : Launch) (source : List (Nat × Task)) (core : Nat) : Bool :=
  let feet := source.flatMap fun e => e.2.foot.map fun f => (f.off, f.len)
  s.corePart core == l.part && !(s.core core).withdrawn && (s.entriesOf core).length + source.length ≤ 256 &&
  !anyMeet feet (s.takenRanges core)

/-- Map source cores to cores of a die, one to one: each in turn to the lowest-numbered core that fits. The spec does not name the map;
a team is refused where this one fails, though another may exist (log entry 43). -/
def State.mapCores (s : State) (l : Launch) (tasks : List (Nat × Task)) (die : Nat) : List Nat → List (Nat × Nat) →
    Option (List (Nat × Nat))
  | [], done => some done
  | c :: cs, done =>
    let mine := tasks.filter fun e => e.2.sched.core == c
    match ((List.range 1024).map (· + 1024 * die)).find? fun x => !done.any (fun p => p.2 == x) && s.takesCore l mine x with
    | some x => s.mapCores l tasks die cs (done ++ [(c, x)])
    | none => none

/-- Copy lines of the pool. One that is lost leaves a poisoned line (spec/13_traps.md R235, R236). -/
def State.copyLines (s : State) (a b : Nat) (n : Nat) : State :=
  (List.range n).foldl (fun s i =>
    let lost := (s.lostAt (a + 64 * i)).isSome
    let (x, s) := s.outerRead (a + 64 * i)
    let s := s.outerWrite (b + 64 * i) x allBytes
    if lost then s.onMem fun m => { m with poison := lineAt (b + 64 * i) :: m.poison } else s) s

/-- Line i of a frame is written to another area of the pool, from the register cache or from its area, with the marks of the words
whose parity fails (spec/05_scalar.md R88, R89). -/
def State.carryLine (s : State) (t : Task) (from_ : Option Nat) (to_ i : Nat) : State :=
  let (x, bad, s) : Line × List Nat × State :=
    if t.cached.getLsbD i then (t.frameLine i, t.bad.filter fun w => w / 16 == i, s)
    else match from_ with
      | some a =>
        let bad := (lineWords32 i).filter fun w => s.mem.poisonWords.contains (s.poolKey a w)
        let (x, s) := s.outerRead (a + 64 * i)
        (x, bad, s)
      | none => (0, [], s)
  let s := (s.outerWrite (to_ + 64 * i) x allBytes).healWords to_ (lineWords32 i)
  if bad.isEmpty then s else s.onMem fun m => { m with poisonWords := bad.map (s.poolKey to_) ++ m.poisonWords }

/-- Carry the frame, with its failing words, the spill block, and the footprints of a task to another core. -/
def State.carryTask (s : State) (key : Nat) (t : Task) (core : Nat) : State :=
  let old := t.sched.core
  let entry := (s.freeEntry core).getD 0
  let moved : Task := { t with sched := { t.sched with core := core, entry := entry } }
  let s := s.onCore old fun c => { c with frames := c.frames.filter (· != key) }
  let (from_, s) := s.area old t.mapEntry 0
  let (to_, s) := s.area core moved.mapEntry 0
  let lost : Option Nat :=
    if !t.sched.started then none
    else match to_, from_ with
      | none, _ => some (s.noArea core moved.mapEntry)
      | some _, none => if t.cached = allLines48 then none else some (s.noArea old t.mapEntry)
      | some _, some a => s.imageLost a (linesOf (~~~ t.cached))
  let s : State := match to_, t.sched.started && lost.isNone with
    | some a, true => (List.range 48).foldl (fun s i => s.carryLine t from_ a i) s
    | _, _ => s
  let (spillFrom, s) := s.area old t.mapEntry 1
  let (spillTo, s) := s.area core moved.mapEntry 1
  let s : State := match spillFrom, spillTo with
    | some a, some b => if 0 < t.rets.spill then s.copyLines a b 32 else s
    | _, _ => s
  let feet := if t.filled then t.foot else []
  let s := feet.foldl (fun s f =>
    let bs := toBytes f.len (s.lsRead old f.off f.len)
    let full := (List.range (f.len / 8)).map fun i => s.lsIsFull old (f.off + 8 * i)
    let s := s.lsWrite core f.off bs
    (List.range (f.len / 8)).foldl (fun s i => s.lsSetFull core (f.off + 8 * i) (full.getD i false)) s) s
  let records := (s.core old).sfq.filter fun r => r.tid == t.sys.tid
  let s := s.onCore old fun c => { c with sfq := c.sfq.filter fun r => r.tid != t.sys.tid }
  let s := s.onCore core fun c => { c with sfq := c.sfq ++ records }
  s.onTask key fun t =>
    { t with cached := 0, dirty := 0, bad := [],
             sched := { t.sched with core := core, entry := entry, lostFrame := t.sched.lostFrame <|> lost } }

/-- The launch after its team has moved: cores by the map, arrivals carried along (R44). -/
def Launch.moveTeam (l : Launch) (team die : Nat) (map : List (Nat × Nat)) : Launch :=
  let dest (c : Nat) : Nat := ((List.find? (fun (p : Nat × Nat) => p.1 == c) map).map Prod.snd).getD c
  let carry (a : Sparse Nat) : Sparse Nat :=
    map.foldl (fun a p => if a.get 0 p.1 = 0 then a else (a.set 0 p.2 (a.get 0 p.2 + a.get 0 p.1)).set 0 p.1 0) a
  let mine (g : Group) : Bool := g.members.any fun m => m.1 == team
  { l with
      teams := match l.teams.find? team with
        | some t => l.teams.put team { t with die := some die, cores := t.cores.map fun e => (e.1, dest e.2) }
        | none => l.teams
      groups := l.groups.map fun g => if mine g then { g with a := carry g.a } else g
      dies := if l.dies.contains die || map.isEmpty then l.dies else l.dies ++ [die] }

/-- The die that has a team on its way to another. -/
def State.senderTo (s : State) (die : Nat) : Option (Nat × Moving) :=
  (List.range 4).findSome? fun d => match (s.die d).moving with
    | some m => if m.target = die then some (d, m) else none
    | none => none

/-- Unpack a team on its new die. GRPS follows in the frame, wherever it lies (spec/05_scalar.md R84, R87). -/
def State.unpackTeam (s : State) (m : Moving) (die : Nat) (tasks : List (Nat × Task)) (map : List (Nat × Nat)) : State :=
  let dest (c : Nat) : Nat := ((List.find? (fun (p : Nat × Nat) => p.1 == c) map).map Prod.snd).getD c
  let s := if tasks.isEmpty then s else s.owedFlush m.launch die
  let s := tasks.foldl (fun s e => match s.task? e.1 with
    | some t => s.carryTask e.1 t (dest t.sched.core)
    | none => s) s
  let s := s.onLaunch m.launch fun l => l.moveTeam m.team die map
  match s.launch? m.launch with
  | some l => tasks.foldl (fun s e => s.onFrame e.1 [grpsAt] fun t =>
      { t with sys := { t.sys with grps := l.grpsOf t.sched.core } }) s
  | none => s

/-- The run queues of the die have room for the whole team: its created tasks where the map puts them, and those still to be
dispatched in what is left (R48). -/
def State.roomFor (s : State) (l : Launch) (m : Moving) (die : Nat) (tasks : List (Nat × Task)) (map : List (Nat × Nat)) : Bool :=
  let todo := (l.todo.filter fun i => i / l.record.tsize.max 1 == m.team).length
  let coming (c : Nat) : Nat := (tasks.filter fun e => map.contains (e.2.sched.core, c)).length
  let free (c : Nat) : Nat :=
    if s.corePart c == l.part && !(s.core c).withdrawn then 256 - (s.entriesOf c).length - coming c else 0
  todo = 0 || todo ≤ ((List.range 1024).map fun c => free (c + 1024 * die)).sum

/-- TEAM_ACCEPT: the receiving die takes the team, or refuses it. -/
def execTeamAccept (die : Nat) (s : State) : Result :=
  .next <|
    match s.senderTo die with
    | none => s
    | some (d, m) =>
      let refuse (s : State) : State := s.onDie d fun x => { x with moving := none, refused := x.refused ++ [die] }
      match s.launch? m.launch with
      | none => s.onDie d fun x => { x with moving := none }
      | some l =>
        let tasks := s.teamTasks m.launch m.team
        let sources := sortNats (tasks.map fun e => e.2.sched.core).eraseDups
        if !(l.teams.find? m.team).any (fun t => t.die == some d) then s.onDie d fun x => { x with moving := none }
        else if !s.dieUp die || s.freeTeams die = 0 then refuse s
        else match s.mapCores l tasks die sources [] with
          | some map =>
            if !tasks.isEmpty && s.owedBlocked m.launch die then s
            else if s.roomFor l m die tasks map then (s.unpackTeam m die tasks map).onDie d fun x => { x with moving := none } else refuse s
          | none => refuse s

end Sys2Proof.Machine
end

