-- ==== Sys2Proof/Machine/Completion.lean ====
section
/-! DEFINITION. How launches end: completion records, ABORT records; and walks made by themselves (spec/01_machine.md R45-R47,
spec/21_launch_storage.md R323, R326, R327, R333, R336, spec/11_ordering_sync.md R200). -/

namespace Sys2Proof.Machine

open Sys2Proof

/-! ### Completion (R45, R326) -/

/-- STATUS of the record. -/
def Launch.status (l : Launch) : Nat := if l.failed.isSome then 3 else if 0 < l.nkill then 2 else 1

/-- The 64 bytes of the completion record. -/
def Launch.completionRecord (l : Launch) : List Byte :=
  let span := match l.begun with
    | some b => l.ended - b
    | none => 0
  let w0 := l.seq.toNat * 2 ^ 32 + l.nkill * 256 + l.status
  let w3 := match l.failed with
    | some c => c
    | none => l.firstTask.toNat * 256 + l.firstCause
  toBytes 8 w0 ++ toBytes 8 l.nret ++ toBytes 8 span ++ toBytes 8 w3 ++ List.replicate 32 0

/-- Requests and round sets of the launch that are not over. -/
def State.launchBusy (s : State) (id : Nat) : Bool :=
  s.cores.any (fun e => (e.2.requests ++ e.2.waiting).any fun r => r.launch == id) ||
  s.clusters.any (fun e => e.2.vetch.any fun v => v.launch == id) ||
  s.cores.any fun e => e.2.killing.any fun k => k.launch == id

/-- The last task has retired and every actor has exited, or the launch failed before start. -/
def State.completes (s : State) (id : Nat) (l : Launch) : Bool :=
  match l.phase with
  | .finishing => true
  | .running => l.formed && l.todo.isEmpty && l.liveTasks == 0 && l.actors.all (fun a => a.2.state == .exited) && !s.launchBusy id
  | _ => false

/-- Keep the STATUS of the last 1024 launches of the queue (R328). -/
def State.keepStatus (s : State) (q : Nat) (seq : BitVec 32) (status : Nat) : State :=
  let head := (s.queue q).head
  let fresh (e : Nat × Nat) : Bool := e.1 / 2 ^ 32 != q || (head - 1 - BitVec.ofNat 32 e.1).toNat < 1024
  s.onDev fun d => { d with statuses := Sparse.put (d.statuses.filter fresh) (q * 2 ^ 32 + seq.toNat) status }

/-- What a unit holds for the launch goes: its capability-table entries (R252), and the commands left in the spill ring under their keys
(spec/15_matrix.md R268). -/
def State.freeCaps (s : State) (id core : Nat) : State :=
  let gone := ((s.core core).munit.caps.filter fun c => c.launch == id).map CapEntry.key
  let s := s.ringPurge core fun c => gone.contains (capKey c.cap)
  s.onUnitM core fun u => { u with caps := u.caps.filter fun c => c.launch != id }

/-- The entries that the launch holds in capability tables and bank units go (R252, R306), and its deques are emptied
(spec/17_edge.md R294). -/
def State.freeEntries (s : State) (id : Nat) : State :=
  let empty (e : Nat × Core) : Nat × Core :=
    (e.1, if e.2.dequeOwner = some id then { e.2 with deque := [], dequeOwner := none } else e.2)
  let bank (e : Nat × Sorrel) : Nat × Sorrel := (e.1, { e.2 with entries := e.2.entries.filter fun h => h.2.launch != id })
  let holders := (s.cores.filter fun e => e.2.munit.caps.any fun c => c.launch == id).map Prod.fst
  let s := holders.foldl (fun s core => s.freeCaps id core) s
  { s with cores := s.cores.map empty, sorrel := s.sorrel.map bank }

/-- The completion object: PHASE rises, HOLDER and W are zero (R200). Where the request still waits, it is granted in its turn and given
up at once (R326). -/
def State.releaseObject (s : State) (id : Nat) (l : Launch) : State :=
  match l.objectAt with
  | none => s
  | some pa =>
    let rs := s.mem.guards.get [] pa
    if rs.any fun r => r.who == .launch id then
      s.onMem fun m => { m with guards := m.guards.set [] pa (rs.map fun r => if r.who = .launch id then { r with who := .ended } else r) }
    else
      let (g, s) := s.guardRead none pa
      s.guardWrite pa { g with w := false, holder := 0, phase := g.phase + 1 }

/-- After the record: the interrupt, the object, the STATUS kept for dependences, and the ABORT records that wait. -/
def State.closeLaunch (s : State) (id : Nat) (l : Launch) (written : Bool) : State :=
  let s := if written && l.record.irq then s.msi l.record.ihart l.record.iid else s
  let s := ((s.releaseObject id l).keepStatus l.queue l.seq l.status).freeEntries id
  let s := l.aborters.foldl (fun s a => s.onLaunch a fun x => { x with phase := .finishing }) s
  if l.dies.isEmpty || l.objectAt.isNone then { s with launches := s.launches.erase id }
  else s.onLaunch id fun l => { l with phase := .done, flushed := false }

/-- LAUNCH_COMPLETION. A record that cannot be written is reported (R327). -/
def execLaunchCompletion (launch : Nat) (s : State) : Result :=
  .next <|
    match s.launch? launch with
    | none => s
    | some l =>
      let unwritten (c : Nat) (s : State) : State := (s.ras 6 c 2 l.queue l.record.crec.toNat 0).closeLaunch launch l false
      if !s.completes launch l || l.objectAt.any s.heldLine then s
      else if l.record.crec.toNat % 64 ≠ 0 then unwritten 0x02 s
      else match s.launchWrite l.via l.record.crec l.completionRecord with
        | (.wait, s') => s.retryLater s'
        | (.fault c _, s) => unwritten c s
        | (.ok (), s) => s.closeLaunch launch l true

/-! ### ABORT (R323) -/

/-- Requests leave a queue, and those that wait take their places in order (spec/12_ordering_notes.md R216). -/
def Core.dropRequests (c : Core) (mine : Request → Bool) : Core :=
  let rs := c.requests.filter fun r => !mine r
  let ws := c.waiting.filter fun r => !mine r
  { c with requests := rs ++ ws.take (32 - rs.length), waiting := ws.drop (32 - rs.length) }

/-- Queued requests of an aborted launch end without a server. -/
def State.dropRequests (s : State) (id : Nat) : State :=
  let mine (r : Request) : Bool := r.launch == id
  let rs := s.cores.flatMap fun e => (e.2.requests ++ e.2.waiting).filter mine
  let kept (e : Nat × Core) : Nat × Core := (e.1, e.2.dropRequests mine)
  rs.foldl (fun s r => s.answer r 0 2 0x6B false) { s with cores := s.cores.map kept }

/-- Abort a launch that has formed: nothing more starts, every live task is terminated, every actor exits. A task that a `kill` has marked
is entered by it (spec/14_traps_notes.md R248). -/
def State.abortFormed (s : State) (id : Nat) (l : Launch) : State :=
  let teams := (l.todo.map fun i => i / l.record.tsize.max 1).eraseDups
  let s := s.onLaunch id fun l =>
    teams.foldl (fun l t => l.leaveTeam t false) { l with aborted := true, todo := [], ended := s.dev.cycle }
  let stopSet (v : VetchSet) : VetchSet := if v.launch = id then { v with stop := true } else v
  let stopOf (e : Nat × Cluster) : Nat × Cluster := (e.1, { e.2 with vetch := e.2.vetch.map stopSet })
  let s := { s with clusters := s.clusters.map stopOf }
  let live := s.allTasks.filter fun e => e.2.launch == id && Kind.killable e.2.kind
  let s := live.foldl (fun s e => s.terminate e.1 0x6B e.2.sched.killed) s
  (l.actors.foldl (fun s a => s.exitActor id a.1) s).dropRequests id

/-- Abort a launch in whatever phase it is in. One that has not formed fails before start: at once where it waits for its object
(step 5), else when it next goes on. -/
def State.abortTarget (s : State) (id : Nat) (l : Launch) : State :=
  match l.phase with
  | .running =>
    if l.formed then s.abortFormed id l
    else s.onLaunch id fun l => { l with aborted := true, failed := l.failed <|> some 0x6B, phase := .finishing }
  | .object => s.onLaunch id fun l => { l with aborted := true, failed := l.failed <|> some 0x6B, phase := .finishing }
  | .consumed | .waiting => s.onLaunch id fun l => { l with aborted := true, failed := l.failed <|> some 0x6B }
  | _ => s

/-- ABORT: a consumed ABORT record acts on its target, waits for it, or has nothing to do. A record that is itself an ABORT is
no launch. -/
def execAbort (launch : Nat) (s : State) : Result :=
  .next <|
    match s.launch? launch with
    | none => s
    | some a =>
      if a.record.op ≠ 2 || a.phase != .consumed || a.step1.isSome then s
      else match a.record.dep0 with
        | none => s
        | some (_, q, seq) =>
          let set (p : LaunchPhase) (s : State) : State := s.onLaunch launch fun l => { l with phase := p }
          match s.liveLaunch q seq, s.statusOf q seq with
          | some (id, l), _ =>
            if l.record.op = 2 then set .finishing s
            else (set .waiting s).onLaunch id (fun l => { l with aborters := l.aborters ++ [launch] }) |>.abortTarget id l
          | none, none => set .waiting s
          | none, some _ => set .finishing s

/-! ### Walks (R333, R336, R337) -/

/-- PAGE_WALK: a walk for a load by a core, through the root of one of its partition's launches; what it finds is held (log
entry 22). -/
def execPageWalk (core root : Nat) (va : BitVec 64) (s : State) : Result :=
  .next <|
    let mine := s.launches.any fun e => e.2.live && e.2.root == root && e.2.part == s.corePart core
    if core < 4096 && mine && windowOf va == .mapped && (s.tlbLookup core root va).isNone then
      (s.translate core root { kind := .load, sys := false, io := true, writes := false } va).2
    else s

end Sys2Proof.Machine
end

