-- ==== Sys2Proof/Machine/Storage.lean ====
section
/-! DEFINITION. Storage-backed pages: the services and evictions of the Teasel engines (spec/21_launch_storage.md R339-R345,
spec/22_launch_notes.md R346). An engine's NVMe commands end by events; the entries of its submission and completion queues in
memory are not modelled (log entry 23). -/

namespace Sys2Proof.Machine

open Sys2Proof

/-! ### PTEs and locators (R339) -/

def Service.ns (v : Service) : Nat := field v.locator.toNat 40 38
def Service.blk (v : Service) : Nat := v.locator.toNat % 2 ^ 38

/-- A resident storage-backed page, or one that is not resident. -/
def Pte.storageLeaf (resident : Bool) (p : Pte) : Bool := Pte.sb p && Pte.v p == resident

def Pte.locator (p : Pte) : BitVec 44 := BitVec.ofNat 44 (field p.toNat 53 10)

/-- The PTE with a frame, valid, with A and D as given (R341 step 4, R344). -/
def Pte.withFrame (p : Pte) (frame : Nat) (a d : Bool) : Pte :=
  let kept : Word := p &&& 0xFFC00000000003FF &&& ~~~ (0xC1 : Word)
  kept ||| BitVec.ofNat 64 (frame / 4096 % 2 ^ 44 * 1024 + bit a 6 + bit d 7 + 1)

/-- Where byte i of a page lies in `nvme`: the slot names the drive, the namespace and the LBA size, and the page the LBA, which is
BLK × 4096 / 2^LBAS for its first byte (R341). Drive d of engine e is drive 4e + d. -/
def nvmeAt (e : Nat) (x : TeaselSlot) (blk i : Nat) : Nat :=
  let lba := (blk * 4096 + i) / 2 ^ x.lbas
  (((4 * e + x.drv) * 2 ^ 32 + x.nsid.toNat) * 2 ^ 64 + lba) * 2 ^ 15 + (blk * 4096 + i) % 2 ^ x.lbas

def State.onService (s : State) (e id : Nat) (f : Service → Service) : State :=
  s.onEngine e fun t => { t with services := t.services.map fun v => if v.id = id then f v else v }

def State.service? (s : State) (e id : Nat) : Option Service := List.find? (fun (v : Service) => v.id == id) (s.engine e).services

/-! ### Requeueing (R341 step 5, R342, R345) -/

/-- A suspended task goes back to its run queue, keeping its entry time (R28); a server task and a handler activation take their
slots. -/
def State.requeue (s : State) (key : Nat) (failure : Option (Nat × BitVec 16)) : State :=
  match s.task? key with
  | none => s
  | some t =>
    if t.sched.status != .suspended || t.sched.rerun || t.sched.dying.isSome then s
    else
      let s := s.onTask key fun t =>
        { t with sched := { t.sched with status := .ready, storage := failure, level := t.sys.prio, ableAt := s.dev.cycle + 1 } }
      match t.kind with
      | .delegated => s.takeSlot key 6
      | .handler _ => s.takeSlot key 7
      | _ => s

/-- An unresolved store of a plain task: performed, or dropped with a cause for the trap point. -/
def State.storeGoesOn (s : State) (key op : Nat) (failure : Option (Nat × BitVec 16)) : State :=
  match (s.task? key).bind fun t => List.find? (fun (x : Store) => x.op == op) t.stores with
  | none => s
  | some st =>
    match failure with
    | some (c, st') => (s.dropStore key op).onTask key fun t =>
        { t with sched := { t.sched with storeFail := t.sched.storeFail <|> some (c, st.va, st') } }
    | none =>
      let free (x : Store) : Store := if x.op = op then { x with waits := false } else x
      let s := s.onTask key fun t => { t with stores := t.stores.map free }
      (s.resolveStore key { st with waits := false }).getD s

/-- The waiters of a service go on: stores first, then tasks in arrival order. -/
def State.wake (s : State) (ws : List Waiter) (failure : Option (Nat × BitVec 16)) : State :=
  let store (s : State) (w : Waiter) : State := match w with
    | .store k op => s.storeGoesOn k op failure
    | _ => s
  let task (s : State) (w : Waiter) : State := match w with
    | .task k => s.requeue k failure
    | _ => s
  ws.foldl task (ws.foldl store s)

def Waiter.isEngine : Waiter → Bool
  | .engine _ => true
  | _ => false

/-- A waiter that will access the page: an offer has been declined. -/
def Waiter.returns : Waiter → Bool
  | .offer => false
  | _ => true

/-- The page is there, or its PTE has changed: every waiter goes on. With a frame, the service stays in progress for it until each of
them has made its access or has gone (R346). -/
def State.endService (s : State) (e id : Nat) (frame : Option Nat) : State :=
  match s.service? e id with
  | none => s
  | some v =>
    let left := v.waiters.filter Waiter.returns
    let s := match frame with
      | some f => if left.isEmpty then s.onEngine e fun t => { t with services := t.services.filter fun x => x.id != id }
                  else s.onService e id fun v => { v with waiters := left, served := some (pageAt f), reading := none, hungry := false }
      | none => s.onEngine e fun t => { t with services := t.services.filter fun x => x.id != id }
    s.wake v.waiters none

/-- The service fails (R345): the page stays non-resident, and a frame that it had taken is reclaimed. -/
def State.failService (s : State) (e id cause : Nat) (status : BitVec 16) : State :=
  match s.service? e id with
  | none => s
  | some v =>
    let s := match v.reading with
      | some (f, _, _) => s.onEngine e fun t => { t with reclaimed := t.reclaimed ++ [f] }
      | none => s
    let left := v.waiters.filter Waiter.isEngine
    let s := if left.isEmpty then s.onEngine e fun t => { t with services := t.services.filter fun x => x.id != id }
      else s.onService e id fun v => { v with waiters := left, failed := some cause, reading := none, hungry := false }
    s.wake v.waiters (some (cause, status))

/-! ### Services (R341) -/

/-- Free frames: those supplied and those reclaimed (R340). -/
def Teasel.free (t : Teasel) : Nat := (t.fftail - t.ffhead).toNat + t.recl

/-- Where the entry at FFHEAD lies. -/
def Teasel.frameEntry (t : Teasel) : Nat := t.ffbase.toNat * 4096 + 8 * (t.ffhead.toNat % 2 ^ (t.fflog + 6))

/-- The engine must read a ring entry that lies in a line that is held (spec/09_memory_offers.md R180). -/
def State.frameWaits (s : State) (e : Nat) : Bool :=
  let t := s.engine e
  t.reclaimed.isEmpty && t.fftail != t.ffhead && s.heldLine t.frameEntry

/-- Take a reclaimed frame, else the frame at FFHEAD. -/
def State.takeFrame (s : State) (e : Nat) : Option Nat × State :=
  let t := s.engine e
  match t.reclaimed with
  | f :: fs => (some f, s.onEngine e fun t => { t with reclaimed := fs })
  | [] =>
    if t.fftail = t.ffhead then (none, s)
    else
      let pa := t.frameEntry
      let (w, s) := if spaceOf pa = .dram then (let (x, s) := s.outerRead pa; (sliceLine x (pa % 64) 8, s)) else (0, s)
      (some (w / 4096 * 4096), s.onEngine e fun t => { t with ffhead := t.ffhead + 1 })

/-- Why a command to the locator cannot be issued (R345). -/
def Teasel.refuses (t : Teasel) (ns blk : Nat) : Option Nat :=
  let x := t.ns.get {} ns
  let d := t.drives.get {} x.drv
  if !x.nsv || !d.dv then some 0x23
  else if x.nblk.toNat ≤ blk then some 0x24
  else if d.gone then some 0x25
  else none

/-- An eviction of the PTE is between its second and its last step (R344). -/
def Teasel.evicting (t : Teasel) (pteAt : Nat) : Bool := t.evict.any fun x => x.pteAt == pteAt

/-- The service is among the first 64 in arrival order. -/
def Teasel.inTurn (t : Teasel) (id : Nat) : Bool := ((t.services.filter Service.open_).take 64).any fun v => v.id == id

/-- Steps 1 and 2, and the Read. -/
def State.beginService (s : State) (e : Nat) (v : Service) : State :=
  let (p, s) := s.homeWord v.pteAt
  let t := s.engine e
  if !(Pte.storageLeaf false p && Pte.locator p == v.locator) then s.endService e v.id none
  else match v.evicted.filter fun x => t.reclaimed.contains x.1 with
  | some (f, old) =>
    let s := s.onEngine e fun t => { t with reclaimed := t.reclaimed.erase f }
    (s.putWordAt v.pteAt (Pte.withFrame p f (Pte.a old) (Pte.d old))).endService e v.id (some f)
  | none =>
    match t.refuses v.ns v.blk with
    | some c => s.failService e v.id c 0
    | none =>
      match s.takeFrame e with
      | (some f, s) => s.onService e v.id fun v => { v with reading := some (f, p, s.dev.cycle), hungry := false }
      | (none, s) =>
        if v.hungry && t.evict.isNone && t.evhead == t.evtail then s.failService e v.id 0x22 0
        else s.onService e v.id fun v => { v with hungry := true }

/-- STORAGE_SERVICE. -/
def execStorageService (engine service : Nat) (s : State) : Result :=
  .next <|
    match s.service? engine service with
    | none => s
    | some v =>
      let t := s.engine engine
      if !v.open_ || v.reading.isSome || t.evicting v.pteAt || !t.inTurn service || s.heldLine v.pteAt || s.frameWaits engine then s
      else s.beginService engine v

/-! ### Evictions (R343) -/

/-- Lines of the page: to the frame with full bits (R161), or from it. -/
def State.loadPage (s : State) (frame : Nat) (bs : List Byte) : State :=
  if spaceOf frame ≠ .dram then s
  else
    let s := (List.range 64).foldl (fun s i =>
      s.outerWrite (frame + 64 * i) (BitVec.ofNat 512 (ofBytes ((bs.drop (64 * i)).take 64))) allBytes) s
    (List.range 512).foldl (fun s i => s.setFull (frame + 8 * i) true) s

def State.pageBytes (s : State) (frame : Nat) : List Byte :=
  (List.range 64).flatMap fun i => toBytes 64 (s.outerRead (frame + 64 * i)).1.toNat

/-- The bytes of a namespace page; one that nothing has written reads as zeros (log entry 1). -/
def State.drivePage (s : State) (e ns blk : Nat) : List Byte :=
  (List.range 4096).map fun i => s.nvme.get 0 (nvmeAt e ((s.engine e).ns.get {} ns) blk i)

def State.writeDrive (s : State) (e ns blk : Nat) (bs : List Byte) : State :=
  let at_ (i : Nat) : Nat := nvmeAt e ((s.engine e).ns.get {} ns) blk i
  { s with nvme := (List.range bs.length).foldl (fun m i => m.set 0 (at_ i) (bs.getD i 0)) s.nvme }

/-- A live version, or a service in progress, holds a line of the frame. -/
def State.frameInUse (s : State) (frame : Nat) : Bool :=
  s.allTasks.any (fun e => e.2.version.any fun l => pageAt l.1 == pageAt frame) ||
  s.teasel.any fun e => e.2.services.any fun v =>
    v.served == some (pageAt frame) || v.reading.any fun r => pageAt r.1 == pageAt frame

/-- A store or an offer translated under the old PTE has not reached its home (R243). -/
def State.writesInto (s : State) (page : Nat) : Bool :=
  s.allTasks.any fun e => (e.2.stores.any fun st => st.places.any fun p => pageAt p.1 == page) || e.2.long.any fun l => match l.act with
    | .offer o => o.reply.isNone && o.owner.isNone && pageAt o.pa == page
    | _ => false

/-- The entry at EVHEAD: the physical address of a PTE, and the locator word. -/
def State.evictEntry (s : State) (e : Nat) : (Nat × Word) × State :=
  let t := s.engine e
  let at_ := t.evbase.toNat * 4096 + 16 * (t.evhead.toNat % 2 ^ (t.evlog + 6))
  let (x, s) := if spaceOf at_ = .dram then s.outerRead at_ else (0, s)
  ((sliceLine x (at_ % 64) 8, BitVec.ofNat 64 (sliceLine x (at_ % 64 + 8) 8)), s)

/-- The entry at EVHEAD or its PTE lies in a line that is held: the engine waits (spec/09_memory_offers.md R180). -/
def State.evictWaits (s : State) (e : Nat) : Bool :=
  let t := s.engine e
  s.heldLine (t.evbase.toNat * 4096 + 16 * (t.evhead.toNat % 2 ^ (t.evlog + 6))) || s.heldLine (s.evictEntry e).1.1

/-- Steps 1 to 3 for the entry at EVHEAD. -/
def State.beginEviction (s : State) (e : Nat) : State :=
  let ((pteAt, word), s) := s.evictEntry e
  let s := s.onEngine e fun t => { t with evhead := t.evhead + 1 }
  let skip (s : State) : State := s.onEngine e fun t => { t with skip := t.skip + 1 }
  if spaceOf pteAt ≠ .dram || pteAt % 8 ≠ 0 then skip s
  else
    let (p, s) := s.homeWord pteAt
    if !Pte.storageLeaf true p || s.frameInUse (Pte.ppn p * 4096) then skip s
    else
      let new : Word := (word &&& ~~~ (0xFF : Word)) ||| (p &&& 0xFE) ||| (0x100000000000000 : Word)
      let part := (s.ownOf (s.devChannel pteAt)).part
      let (id, s) := (s.putWordAt pteAt new).nextOp
      let cores := (List.range 4096).filter fun n => s.corePart n == part
      let s := s.dropTranslations cores fun v => v.pteAt == pteAt
      s.onEngine e fun t => { t with evict := some { id := id, pteAt := pteAt, old := p, new := new, part := part } }

/-- Step 6: the frame is reclaimed; services that wait for the page may restore it (R344). -/
def State.reclaim (s : State) (e : Nat) (x : Evict) : State :=
  let f := Pte.ppn x.old * 4096
  let note (v : Service) : Service := if v.pteAt = x.pteAt ∧ v.open_ then { v with evicted := some (f, x.old) } else v
  s.onEngine e fun t => { t with reclaimed := t.reclaimed ++ [f], evict := none, services := t.services.map note }

/-- A failure in step 5: the page stays, and a report is made. -/
def State.evictionFails (s : State) (e : Nat) (x : Evict) : State :=
  let (p, s) := s.homeWord x.pteAt
  let s := if p = x.new then s.putWordAt x.pteAt x.old else s
  let drive := ((s.engine e).ns.get {} (field x.new.toNat 50 48)).drv
  (s.onEngine e fun t => { t with evict := none }).ras 4 0x27 2 (4 * e + drive) (Pte.ppn x.old * 4096) 0

/-- Steps 4 and 5, once every access under the old PTE has been delivered. -/
def State.continueEviction (s : State) (e : Nat) (x : Evict) : State :=
  let f := Pte.ppn x.old * 4096
  if s.writesInto (pageAt f) || s.heldLine x.pteAt || (List.range 64).any fun i => s.heldLine (f + 64 * i) then s
  else
    let s := (List.range 64).foldl (fun s i => s.maintainLine true true (f + 64 * i)) s
    if !Pte.d x.old then s.reclaim e x
    else match (s.engine e).refuses (field x.new.toNat 50 48) (field x.new.toNat 47 10) with
      | some _ => s.evictionFails e x
      | none => s.onEngine e fun t => { t with evict := some { x with writing := some s.dev.cycle } }

/-- EVICTION_RUN: the eviction under way goes on, or the entry at EVHEAD is taken. What waits for a lease goes on later. -/
def execEvictionRun (engine : Nat) (s : State) : Result :=
  .next <|
    let t := s.engine engine
    match t.evict with
    | some x => if x.writing.isSome then s else s.continueEviction engine x
    | none =>
      let wanted := t.free < t.lowat.toNat || (t.free = 0 && t.services.any fun v => v.open_ && v.hungry)
      if engine < 8 && wanted && t.recl < 32 && t.evhead != t.evtail && !s.evictWaits engine then s.beginEviction engine else s

/-! ### How a command ends (R341 steps 3 to 5, R345) -/

/-- The Read of a service has ended. -/
def State.readEnded (s : State) (e : Nat) (v : Service) (frame : Nat) (pte : Pte) : State :=
  let s := s.loadPage frame (s.drivePage e v.ns v.blk)
  let (p, s) := s.homeWord v.pteAt
  if p = pte then (s.putWordAt v.pteAt (Pte.withFrame p frame false false)).endService e v.id (some frame)
  else (s.onEngine e fun t => { t with reclaimed := t.reclaimed ++ [frame] }).endService e v.id none

/-- NVME_COMPLETION of the Read of a service, or of the Write and Flush of an eviction. -/
def execNvmeCompletion (engine service : Nat) (status : NvmeStatus) (s : State) : Result :=
  .next <|
    let t := s.engine engine
    let checked (ns : Nat) : Bool := status != .protection || (t.ns.get {} ns).pi
    let remove (ns : Nat) (s : State) : State := s.onEngine engine fun t =>
      let d := (t.ns.get {} ns).drv
      { t with drives := t.drives.put d { t.drives.get {} d with gone := true } }
    match s.service? engine service, t.evict with
    | some v, _ =>
      match v.reading with
      | none => s
      | some (f, p, _) =>
        if s.heldLine v.pteAt || (List.range 64).any (fun i => s.heldLine (f + 64 * i)) || !checked v.ns then s
        else match status with
          | .ok => s.readEnded engine v f p
          | .error st => s.failService engine v.id 0x20 st
          | .protection => s.failService engine v.id 0x26 0
          | .removed => (remove v.ns s).failService engine v.id 0x25 0
    | none, some x =>
      let ns := field x.new.toNat 50 48
      let blk := field x.new.toNat 47 10
      let f := Pte.ppn x.old * 4096
      if x.id ≠ service || x.writing.isNone || s.heldLine x.pteAt || !checked ns then s
      else match status with
        | .ok => (s.writeDrive engine ns blk (s.pageBytes f)).reclaim engine x
        | .removed => (remove ns s).evictionFails engine x
        | _ => s.evictionFails engine x
    | none, none => s

/-- STORAGE_TIMEOUT: no completion within TOUT. -/
def execStorageTimeout (engine service : Nat) (s : State) : Result :=
  .next <|
    let t := s.engine engine
    let late (since : Nat) : Bool := t.tout != 0 && since + 1024 * t.tout.toNat ≤ s.dev.cycle
    match s.service? engine service, t.evict with
    | some v, _ => match v.reading with
      | some (_, _, since) => if late since then s.failService engine v.id 0x21 0 else s
      | none => s
    | none, some x => match x.writing with
      | some since => if x.id = service && late since && !s.heldLine x.pteAt then s.evictionFails engine x else s
      | none => s
    | none, none => s

end Sys2Proof.Machine
end

