-- ==== Sys2Proof/Machine/Errors.lean ====
section
/-! DEFINITION. Detected errors, retries and withdrawal (spec/13_traps.md R235-R238, spec/05_scalar.md R89, spec/03_encoding.md
R52, spec/19_bank.md R310). Which task an error of a core strikes is in log entry 25. -/

namespace Sys2Proof.Machine

open Sys2Proof

/-! ### Withdrawal of a core (R236) -/

/-- What a withdrawn core holds of a versioned task goes; the task is removed without having retired. -/
def State.takeBack (s : State) (key : Nat) (t : Task) : State :=
  let core := t.sched.core
  let s := (s.retireTiles key core).orphan key core
  let s := s.onCore core fun c =>
    { c with trapq := c.trapq.filter (fun x => some x.2 != t.sched.slot), frames := c.frames.filter (· != key),
             sfq := c.sfq.filter fun r => r.tid != t.sys.tid }
  (s.dropTask key).onLaunch t.launch fun l => { l with liveTasks := l.liveTasks - 1 }

/-- A versioned task goes back to its launch engine, to be run from its entry on another core. -/
def State.returnToEngine (s : State) (key : Nat) (t : Task) : State :=
  (s.takeBack key t).onLaunch t.launch fun l =>
    { l with todo := sortNats (l.todo ++ [t.team * l.record.tsize.max 1 + t.index]),
             teams := match l.teams.find? t.team with
               | some x => l.teams.put t.team { x with live := x.live - 1, cores := x.cores.erase t.index }
               | none => l.teams }

/-- The core of a die with the shortest run queue that a task of the partition could run on. -/
def State.otherCore (s : State) (part die : Nat) : Option Nat :=
  pickBest (fun a b => (s.entriesOf a).length < (s.entriesOf b).length)
    (((List.range 1024).map (· + 1024 * die)).filter fun c => s.corePart c == part && !(s.core c).withdrawn)

/-- A versioned firing is given up and its actor moves to another core of the die, where it fires again from its routine's entry once its
ranges are free there, as after a swap-out (log entry 25). -/
def State.moveFiring (s : State) (key : Nat) (t : Task) (a : Nat) : State :=
  let part := ((s.launch? t.launch).map Launch.part).getD 0
  let core := (s.otherCore part (dieOf t.sched.core)).getD t.sched.core
  (s.takeBack key t).onActor t.launch a fun x =>
    { x with state := .swapped, core := core, firing := false, outs := x.outs.map fun q => { q with reserved := 0, made := [] } }

/-- A task of a withdrawn core: removed to be run again, or terminated. One that a `kill` has marked is entered by it
(spec/14_traps_notes.md R248). A versioned task that has trapped 0x72 and not been resumed is removed to be run again like any other: that
spec/13_traps.md R236 stands here before spec/06_scalar_notes.md R110 is the model's reading (log entry 36). -/
def State.removeTask (s : State) (cause : Nat → Nat) (key : Nat) : State :=
  match s.task? key with
  | none => s
  | some t => match t.kind, t.versioned && t.sched.dying.isNone && !t.sched.killed with
    | .handler _, _ | .sorrel _, _ => s
    | .launched, true => s.returnToEngine key t
    | .firing a, true => s.moveFiring key t a
    | _, _ => s.terminate key (cause key) t.sched.killed

/-- The core leaves every group (R236); what then can complete does. -/
def State.leaveGroups (s : State) (core : Nat) : State :=
  s.launches.foldl (fun s e =>
    let out (g : Group) : Group :=
      { g with members := g.members.filter (fun m => e.2.coreOf m != some core), a := g.a.erase core }
    let hit := (List.range e.2.groups.length).filter fun i => match e.2.groups[i]? with
      | some g => e.2.hasMember g core
      | none => false
    hit.foldl (fun s i => (s.onGroup e.1 i out).completePhases e.1 i) s) s

/-- Tasks that PLACE 10 holds for the core and that have not been dispatched: a versioned launch's go to another core, the others
are retired with 0x75. -/
def State.dropPlaced (s : State) (core : Nat) : State :=
  s.launches.foldl (fun s e =>
    let n := e.2.record.tsize.max 1
    let is := e.2.todo.filter fun i => e.2.coreOf (i / n, i % n) == some core
    if is.isEmpty then s
    else if e.2.record.vers then s.onLaunch e.1 fun l =>
      { l with teams := l.teams.map fun t => (t.1, { t.2 with cores := t.2.cores.filter fun c => c.2 != core }) }
    else s.onLaunch e.1 fun l => is.foldl (fun l _ => l.noteKilled 0 0x75) (l.dropQueued is)) s

/-- The activation of a withdrawn core ends. -/
def State.dropActivation (s : State) (core : Nat) : State :=
  if (s.task? (handlerKey core)).isNone then s
  else
    let s := match (s.core core).killing with
      | some op => s.enterKill op true
      | none => s
    s.endActivation core

/-- The core is withdrawn: its tasks are removed, requests that wait for it fail, and it leaves every group. -/
def State.withdrawCore (s : State) (core : Nat) (cause : Nat → Nat) : State :=
  if (s.core core).withdrawn then s
  else
    let keys := (s.allTasks.filter fun e => e.2.sched.core == core).map (·.1)
    let c := s.core core
    let s := (s.leaveGroups core).dropPlaced core
    let s := s.onCore core fun c => { c with withdrawn := true, requests := [], waiting := [], copies := [] }
    let s := s.dropActivation core
    let s := keys.foldl (fun s k => s.removeTask cause k) s
    (c.requests ++ c.waiting).foldl (fun s r => s.answer r 0 2 0x75 false) s

/-! ### Withdrawal of channels (R236) -/

/-- A Sorrel unit is withdrawn: its handler ends, and the requests that wait are refused. -/
def State.withdrawUnit (s : State) (u : Nat) (cause : Nat) : State :=
  let s := if cause = 0 then s.endHandler u { kind := 2, cause := 0x5F } else s.handlerFault u cause 0
  let waiting := (s.unit u).queue
  let s := waiting.foldl (fun s r => s.bankAnswer r.task r.op { kind := 2, cause := 0x5F }) s
  s.onUnit u fun x => { x with withdrawn := true, queue := [] }

/-- Lines of a withdrawn part of a channel are gone from every cache. -/
def State.dropLost (s : State) : State :=
  let lost (k : Nat) : Bool := spaceOf (k % 2 ^ 40) == .dram && s.withdrawnAt (k % 2 ^ 40)
  s.onMem fun m =>
    { m with l1 := m.l1.filter (fun e => !lost e.1), ic := m.ic.filter (fun e => !lost e.1), rdc := m.rdc.filter (fun e => !lost e.1),
             l2 := m.l2.filter fun e => !lost e.1 }

/-- Withdraw halves of a channel (a mask). The report says whether the channel is narrowed or gone. -/
def State.withdrawHalves (s : State) (ch : Nat) (halves : BitVec 2) (half cause addr handler : Nat) : State :=
  let new := s.dev.badChan.get 0 ch ||| halves
  let s := s.onDev fun d => { d with badChan := d.badChan.set 0 ch new }
  ((s.dropLost).withdrawUnit ch handler).ras 1 cause (if new = 3 then 3 else 1) (2 * ch + half) addr 0

/-- Loads in flight for a line trap with its data lost (R219, R235). -/
def State.lineLost (s : State) (line : Nat) : State :=
  let hits (l : LongOp) : Option Word := match l.act with
    | .load _ _ _ _ us => (us.find? fun u => u.data.isNone && u.pa.any fun p => lineAt p == line).map Piece.va
    | .ldf _ va (some p) _ | .ldft _ va (some p) _ => if lineAt p = line && l.vals.isEmpty then some va else none
    | _ => none
  s.allTasks.foldl (fun s e => e.2.long.foldl (fun s l => match hits l with
    | some va => s.landTrap e.1 l [] 0 0x73 { g4 := va }
    | none => s) s) s

/-- The guard of an instruction holds in the task. -/
def Instr.holds (i : Instr) (t : Task) : Bool :=
  match i.info with
  | some (_, f) => t.seen.guard f.hd
  | none => true

/-- The running handler of a unit issues an `hrow` of the line next: it is that read which is uncorrectable (R310). -/
def State.handlerHit (s : State) (u pa : Nat) : Bool :=
  match (s.unit u).running, s.task? (sorrelKey u) with
  | some (r, _), some t => match s.handlerFetch u t.pc with
    | some (.hrow o) =>
      Instr.holds (.hrow o) t && (lineAt pa : Int) == (r.pageBase : Int) + r.lineOff o ((t.regs.read o.a).setWidth 64)
    | _ => false
  | _, _ => false

/-! ### ERROR_RETRY (R235, R237) -/

/-- The task that a core's error strikes: the one in the slot that issued last. -/
def State.struckTask (s : State) (core : Nat) : Option (Nat × Task) := s.slotTask core (s.core core).last

/-- An error of a core: transient, or its withdrawal. -/
def State.coreError (s : State) (core cause addr : Nat) (task : Option (Nat × Task)) (lasting : Bool) : State :=
  let tid : Word := match task with
    | some (_, t) => t.sys.tid
    | none => 0
  let struck (k : Nat) : Nat := match task with
    | some (key, _) => if k = key then cause else 0x75
    | none => 0x75
  if 4096 ≤ core then s
  else if lasting then (s.withdrawCore core struck).ras 0 cause 3 core addr tid
  else s.ras 0 cause 0 core addr tid

/-! ### Register-cache parity (spec/05_scalar.md R88, R89) -/

/-- The newest value of a register in its core's operand log. -/
def State.logged (s : State) (core key : Nat) (x : Reg) : Option Line :=
  (List.find? (fun (e : LogEntry) => e.task == key && e.reg == x) (s.logs.get [] core)).map LogEntry.value

/-- No register of the line has been written since the line was filled. -/
def Task.lineClean (t : Task) (x : Reg) : Bool := !t.dirty.getLsbD (Reg.frameLine x)

/-- The words of a register whose parity fails. -/
def Task.badWords (t : Task) (x : Reg) : List Nat := (Reg.frameWords x).filter fun w => t.bad.contains w

/-- The value of a register and its parity are written again. -/
def Task.repair (t : Task) (x : Reg) (v : Line) : Task :=
  { t with regs := t.regs.write x v, bad := t.bad.filter fun w => !(Reg.frameWords x).contains w }

/-- Refill the line of a register. The code address and the pending marks are no registers: they stay. -/
def State.refillReg (s : State) (key : Nat) (t : Task) (x : Reg) (frame : Nat) : State :=
  (s.fillLine key frame (Reg.frameLine x)).onTask key fun u => { u with pc := t.pc, regs := { u.regs with pend := t.regs.pend } }

/-- The words cannot be recovered: the task traps. -/
def State.parityLost (s : State) (key : Nat) (t : Task) (cause : Nat) : State :=
  (s.ras 0 0x70 2 t.sched.core 0 t.sys.tid).trapTask key cause t.pc {}

/-- The words are recovered, and the issue follows n cycles after the one that failed. -/
def State.parityAgain (s : State) (key : Nat) (t : Task) (hit : List Nat) (n : Nat) : State :=
  (s.ras 0 0x70 0 t.sched.core 0 t.sys.tid).onTask key fun t =>
    { t with recovered := hit ++ t.recovered, sched := { t.sched with ableAt := s.dev.cycle + n } }

/-- Line i of the task's frame in the pool, to be read again: where the frame lies, or why it cannot be read. -/
def State.refillFrom (s : State) (t : Task) (i : Nat) : Except Nat Nat × State :=
  let (a, s) := s.area t.sched.core t.mapEntry 0
  match a with
  | none => (.error (s.noArea t.sched.core t.mapEntry), s)
  | some frame => match s.imageLost frame [i] with
    | some c => (.error c, s)
    | none => (.ok frame, s)

/-- A read of a register fails parity, and the core recovers the value: from the log, else from the frame pool, where the line is clean;
else the task traps 0x70. A word that fails again for the same instruction is a lasting fault. -/
def State.recoverReg (s : State) (key : Nat) (x : Reg) : State :=
  match s.task? key with
  | none => s
  | some t =>
    let core := t.sched.core
    let hit := t.badWords x
    if hit.any fun w => t.recovered.contains w then s.coreError core 0x70 0 (some (key, t)) true
    else match s.logged core key x with
      | some v => (s.onTask key fun t => t.repair x v).parityAgain key t hit 3
      | none =>
        if !t.lineClean x then s.parityLost key t 0x70
        else match s.refillFrom t (Reg.frameLine x) with
          | (.error c, s) => s.parityLost key t c
          | (.ok frame, s) =>
            let s := s.refillReg key t x frame
            if (s.task? key).any fun t => !(t.badWords x).isEmpty then s.parityLost key t 0x70 else s.parityAgain key t hit 1

/-- A read of other words of the frame fails parity: the code address, marks, return stack, system registers, sequencer or slots. The
log holds none of them. Their line counts as clean while it is what the pool holds (log entry 49). -/
def State.recoverWords (s : State) (key i : Nat) (hit : List Nat) : State :=
  match s.task? key with
  | none => s
  | some t =>
    if hit.any fun w => t.recovered.contains w then s.coreError t.sched.core 0x70 0 (some (key, t)) true
    else if t.dirty.getLsbD i then s.parityLost key t 0x70
    else match s.refillFrom t i with
      | (.error c, s) => s.parityLost key t c
      | (.ok frame, s) =>
        let (x, s) := s.outerRead (frame + 64 * i)
        if x != t.frameLine i || hit.any fun w => s.mem.poisonWords.contains (s.poolKey frame w) then s.parityLost key t 0x70
        else (s.onTask key fun t => { t with bad := t.bad.filter fun w => !hit.contains w }).parityAgain key t hit 1

/-- PARITY_REPLAY: the parity of a register of a task that issues fails at this read, and the value is recovered. -/
def execParityReplay (task : Nat) (reg : Reg) (s : State) : Result :=
  .next <|
    match s.task? task with
    | none => s
    | some t =>
      if t.sched.status != .issuing || t.sched.slot.isNone || t.sched.dying.isSome || reg.hardwired || t.regs.pending reg then s
      else (s.onTask task fun t => { t with bad := t.bad ++ (Reg.frameWords reg).filter fun w => !t.bad.contains w }).recoverReg task reg

/-! ### Errors of other units -/

/-- Requests on a drive that is gone fail (R345). -/
def State.driveGone (s : State) (e n : Nat) : State :=
  let gone (d : TeaselDrive) : TeaselDrive := { d with gone := true }
  let s := s.onEngine e fun t => { t with drives := t.drives.put n (gone (t.drives.get {} n)) }
  let t := s.engine e
  let on (ns : Nat) : Bool := (t.ns.get {} ns).drv == n
  let s := (t.services.filter fun v => v.reading.isSome && on v.ns).foldl (fun s v => s.failService e v.id 0x25 0) s
  match t.evict with
  | some x => if x.writing.isSome && on (field x.new.toNat 50 48) && !s.heldLine x.pteAt then s.evictionFails e x else s
  | none => s

/-- KIND and UNIT of a record of a lost write (0x32 to 0x3F): a merge, a write-through, a bank write or a full bit is its channel's, a
Perold write its link's, and every other write that of the task's core. The specification names neither (log entry 47). -/
def State.lateUnit (s : State) (cause addr : Nat) (task : Word) : Nat × Nat :=
  let core := match List.find? (fun (e : Nat × Task) => e.2.sys.tid == task) s.allTasks with
    | some e => e.2.sched.core
    | none => field task.toNat 23 12
  match spaceOf addr, [0x32, 0x33, 0x37, 0x39].contains cause with
  | .dram, true => (1, 2 * s.devChannel addr + s.halfOf addr)
  | .perold p, _ => (3, p)
  | _, _ => (0, core)

/-- An RDC slice's line fails its check: a clean one is refilled at its next use, a dirty one is poisoned. -/
def State.rdcError (s : State) (die line : Nat) : State :=
  let key := rdcKey die line
  match s.mem.rdc.find? key with
  | none => s
  | some c =>
    let s := s.onMem fun m => { m with rdc := m.rdc.erase key }
    if c.dirty = 0 then s
    else (s.onMem fun m => { m with poison := if m.poison.contains line then m.poison else line :: m.poison }).lineLost line

def execErrorRetry (error : DetectedError) (lasting : Bool) (s : State) : Result :=
  .next <|
    match error with
    | .registerCache task => match s.task? task with
      | some t => s.coreError t.sched.core 0x70 0 (some (task, t)) lasting
      | none => s
    | .fetchParity core => s.coreError core 0x71 0 (s.struckTask core) lasting
    | .localStore core offset => s.coreError core 0x74 (offset % 2 ^ 19) (s.struckTask core) lasting
    | .dram address =>
      if spaceOf address ≠ .dram then s
      else
        let ch := s.devChannel address
        let half := s.halfOf address
        if lasting then
          let cause := if s.handlerHit ch address then 0x4E else 0
          (s.withdrawHalves ch (if half = 1 then 2 else 1) half 0x73 address cause).lineLost (lineAt address)
        else s.ras 1 0x73 0 (2 * ch + half) address 0
    | .cacheLine address dirty =>
      if spaceOf address ≠ .dram then s
      else
        let ch := s.devChannel address
        let line := lineAt address
        let s := if dirty then (s.onMem fun m =>
            { m with poison := if m.poison.contains line then m.poison else line :: m.poison }).lineLost line
          else if (s.mem.l2.find? line).any (fun c => c.dirty == 0) then s.onMem fun m => { m with l2 := m.l2.erase line }
          else s
        if lasting then s.withdrawHalves ch 3 (s.halfOf address) 0x73 address 0 else s.ras 1 0x73 0 (2 * ch + s.halfOf address) address 0
    | .rdcLine die address =>
      if spaceOf address ≠ .dram || 4 ≤ die then s
      else
        let ch := 64 * die + s.devChannel address % 64
        let s := s.rdcError die (lineAt address)
        if lasting then s.withdrawHalves ch 3 0 0x73 address 0 else s.ras 1 0x73 0 (2 * ch) address 0
    | .link n =>
      if lasting then
        (s.onDev fun d => { d with badLinks := if d.badLinks.contains n then d.badLinks else n :: d.badLinks }).ras 3 0x77 3 n 0 0
      else s.ras 3 0x77 0 n 0 0
    | .drive e n => if 8 ≤ e then s else if lasting then (s.driveGone e (n % 4)).ras 4 0x25 3 (4 * e + n % 4) 0 0 else s.ras 4 0x25 0 (4 * e + n % 4) 0 0
    | .late cause address task =>
      if cause.toNat < 0x32 || 0x3F < cause.toNat then s
      else
        let (kind, unit) := s.lateUnit cause.toNat address.toNat task
        s.ras kind cause.toNat 2 unit address.toNat task

end Sys2Proof.Machine
end

