-- ==== Sys2Proof/Machine/Host.lean ====
section
/-! DEFINITION. The outside of the device: control-space writes, host ports, the staged start, thermal protection, PCIe, the
Perold link and Yarrow harts (spec/23_host.md R348-R364, spec/24_host_notes.md R365, R366, spec/13_traps.md R243). -/

namespace Sys2Proof.Machine

open Sys2Proof

/-! ### Writes to control space (R349-R352) -/

/-- OWNERSHIP_WRITE: an entry of a channel, a core or a queue; `offset` counts from the table's start. -/
def execOwnershipWrite (who : Requester) (offset width : Nat) (value : BitVec 64) (s : State) : Result :=
  .next (if 0x400 ≤ offset && offset < 0x30000 then s.ctlStore who (0x3000000 + offset) width value else s)

/-- KEY_WRITE: 8 bytes of a partition's key. -/
def execKeyWrite (who : Requester) (partition word : Nat) (value : BitVec 64) (s : State) : Result :=
  .next (if partition < 16 && word < 8 then s.ctlStore who (0x3000000 + 64 * partition + 8 * word) 8 value else s)

/-- REGISTER_WRITE: any other register of control space. -/
def execRegisterWrite (who : Requester) (offset width : Nat) (value : BitVec 64) (s : State) : Result :=
  .next (s.ctlStore who offset width value)

/-- SCRUB_COMPLETE (R352): the channel holds zeros under the new partition's key, and PART changes. -/
def execScrubComplete (channel : Nat) (s : State) : Result :=
  .next <|
    let own := s.ownOf channel
    match own.scrub with
    | none => s
    | some (part, ends) =>
      if s.dev.cycle < ends then s
      else
        let mine (pa : Nat) : Bool := spaceOf pa == .dram && s.devChannel pa == channel
        let here (c : Nat) : Bool := c / 2 ^ 31 == channel
        let s := s.onMem fun m =>
          { m with dram := m.dram.filter (fun e => !here e.1), lineKey := m.lineKey.filter (fun e => !here (e.1 * 64)),
                   full := m.full.filter (fun e => !here (e.1 * 8)), chanKey := m.chanKey.put channel (s.dev.keys.get 0 part),
                   l2 := m.l2.filter (fun e => !mine e.1), l1 := m.l1.filter (fun e => !mine (e.1 % 2 ^ 40)),
                   ic := m.ic.filter (fun e => !mine (e.1 % 2 ^ 40)), rdc := m.rdc.filter (fun e => !mine (e.1 % 2 ^ 40)),
                   poison := m.poison.filter (fun l => !mine l), poisonWords := m.poisonWords.filter fun k => !here (4 * k) }
        s.onDev fun d => { d with chan := d.chan.set {} channel { own with part := part, scrub := none } }

/-! ### Host ports (R355) -/

/-- The host-port block takes requests now: block 0 from stage 1 on, the others in stage 2 (R362). -/
def State.portUp (s : State) (b : Nat) : Bool := b < 48 && (s.dev.stage = 2 || (s.dev.stage = 1 && b = 0))

def execHostAcq (block : Nat) (object : BitVec 64) (s : State) : Result :=
  .next (if s.portUp block then s.hostGuard block (object.toNat / 64 * 64) 0 else s)
def execHostAcqs (block : Nat) (object : BitVec 64) (s : State) : Result :=
  .next (if s.portUp block then s.hostGuard block (object.toNat / 64 * 64) 1 else s)
def execHostRls (block : Nat) (object : BitVec 64) (s : State) : Result :=
  .next (if s.portUp block then s.hostGuard block (object.toNat / 64 * 64) 2 else s)

/-- HOST_TLBINV: a write of TPART and TCMD. -/
def execHostTlbinv (block partition : Nat) (command : BitVec 5) (s : State) : Result :=
  .next (if s.portUp block && partition < 16 then s.hostTlb block partition command else s)

/-! ### `tlbinv` completes (R243, R338) -/

/-- A translation that a target core holds, and that goes, names the page of an address. -/
def State.goesUnder (s : State) (v : TlbInv) (core pa : Nat) : Bool :=
  (s.core core).tlb.any fun t => (v.all || t.covered v.va.toNat v.size) && t.names (pageAt pa)

/-- A store or an offer of a target core that was translated under a translation that goes has not been delivered to its home. -/
def State.writesUnder (s : State) (v : TlbInv) : Bool :=
  s.allTasks.any fun e => v.cores.contains e.2.sched.core &&
    (e.2.stores.any (fun st => st.places.any fun p => s.goesUnder v e.2.sched.core p.1) || e.2.long.any fun l => match l.act with
      | .offer o => o.reply.isNone && o.owner.isNone && s.goesUnder v e.2.sched.core o.pa
      | _ => false)

/-- TLBINV_COMPLETION. Writes of the target cores that are under way reach their homes first, those that a lease holds in an RDC slice
included (spec/09_memory_offers.md R180). -/
def execTlbinvCompletion (operation : Nat) (s : State) : Result :=
  .next <|
    match List.find? (fun (v : TlbInv) => v.id == operation) s.tlbinvs with
    | none => s
    | some v =>
      let stores := match v.task.bind s.task? with
        | some t => t.stores.any fun x => v.stores.contains x.op
        | none => false
      if stores || s.writesUnder v then s
      else
        let dies := (v.cores.map dieOf).eraseDups
        let dies := match v.task.bind s.task? with
          | some t => if dies.contains (dieOf t.sched.core) then dies else dieOf t.sched.core :: dies
          | none => dies
        let s := dies.foldl State.writeThroughAll s
        if dies.any s.rdcBlocked then s else
        let s := s.shootdown v.cores v.all v.va.toNat v.size
        let s := { s with tlbinvs := s.tlbinvs.filter fun x => x.id != operation }
        let free (h : HostBlock) : HostBlock := { h with pending := h.pending.filter (· != operation) }
        s.onDev fun d => { d with host := d.host.map fun e => (e.1, free e.2) }

/-! ### The staged start (R360-R362, R365) -/

/-- Why an image fails: its format (3), a signature or a key (1), its security version (2), in this order (log entry 9). -/
def State.imageFault (s : State) (header : Option Config.ImageHeader) : Option Nat :=
  match header with
  | none => some 3
  | some h =>
    let digest := sha384 h.body
    let key := (bigNat (h.ecdsaKey.take 48), bigNat (h.ecdsaKey.drop 48))
    let keys := bigNat (sha384 h.ecdsaKey ++ sha384 h.lmsKey)
    if 2 ^ 26 < h.body.length || h.ecdsaKey.length ≠ 96 || h.ecdsaSig.length ≠ 96 then some 3
    else if !(P384.verifies key digest (bigNat (h.ecdsaSig.take 48)) (bigNat (h.ecdsaSig.drop 48)) &&
        Lms.verifies h.lmsKey digest h.lmsSig && keys == s.dev.digest.toNat) then some 1
    else if h.svn.toNat < s.dev.rollback.toNat then some 2
    else none

/-- COWSLIP_VERIFY: after reset the image in flash is verified; stage 1 starts, or recovery. -/
def execCowslipVerify (s : State) : Result :=
  .next <|
    let header := Config.header s.dev.flash
    if s.dev.stage ≠ 0 || s.dev.fail ≠ 0 then s
    else match s.imageFault header, header with
      | none, some h => s.onDev fun d => { d with stage := 1, svn := h.svn, endpoint := h.endpoint }
      | f, _ => s.onDev fun d => { d with fail := f.getD 3 }

/-- The device resets: only the fuses, the flash and what has left the device remain. The model's counters go on. -/
def State.restart (s : State) : State :=
  let d := s.dev
  let dev : Dev := { flash := d.flash, digest := d.digest, rollback := d.rollback, out := d.out ++ [.reset] }
  { State.reset with dev := dev, agenda := s.agenda, evs := s.evs, ops := s.ops, free := s.free }

/-- Port 0 is up as the recovery endpoint (R361). -/
def Dev.recovering (d : Dev) : Bool := d.stage = 0 && d.fail != 0

/-- RECOVERY_IMAGE: the length of the image in the buffer of BAR0 has been written (R361). An image that fails is not kept; the buffer
stays as it was (log entry 9). -/
def execRecoveryImage (length : BitVec 64) (s : State) : Result :=
  .next <|
    if !s.dev.recovering || 2 ^ 26 < length.toNat then s
    else
      let image := (List.range length.toNat).map fun i => s.dev.bar0.get 0 i
      if (s.imageFault (Config.header image)).isSome then s else (s.onDev fun d => { d with flash := image }).restart

/-- A request to BAR0 of the recovery endpoint: the buffer of 64 MiB, then the length word of 8 bytes (R361). What a read of the word
gives is a free value (log entry 9); an access beyond it is an Unsupported Request. -/
def State.recoveryRequest (s : State) (request : Inbound) : Result :=
  match request with
  | .read a n =>
    if a.toNat + n ≤ 2 ^ 26 then .next (s.emit (.reply ((List.range n).map fun i => s.dev.bar0.get 0 (a.toNat + i))))
    else if a.toNat + n ≤ 2 ^ 26 + 8 then
      let (bs, s) := s.freeBytes n
      .next (s.emit (.reply bs))
    else .next (s.emit .unsupported)
  | .write a bs =>
    if a.toNat + bs.length ≤ 2 ^ 26 then
      .next (s.onDev fun d => { d with bar0 := (List.range bs.length).foldl (fun m i => m.set 0 (a.toNat + i) (bs.getD i 0)) d.bar0 })
    else if a.toNat = 2 ^ 26 && bs.length = 8 then execRecoveryImage (BitVec.ofNat 64 (ofBytes bs)) s
    else .next (s.emit .unsupported)
  | _ => .next (s.emit .unsupported)

/-- FULL. -/
def execFullStart (s : State) : Result := .next s.startFull

/-- MLAYOUT. -/
def execMlayout (die : Nat) (value : BitVec 32) (s : State) : Result := .next (s.mlayoutWrite die value)

/-- Every unit of a die that fails its training is withdrawn (R236). -/
def State.withdrawDie (s : State) (die : Nat) : State :=
  let s := s.onDie die fun d => { d with withdrawn := true }
  let off (c : Core) : Core := { c with withdrawn := true }
  let s := (List.range 1024).foldl (fun s i => (s.onCore (1024 * die + i) off).ras 0 0x75 3 (1024 * die + i) 0 0) s
  (List.range 64).foldl (fun s i =>
    let s := s.onUnit (64 * die + i) fun x => { x with withdrawn := true }
    (s.onDev fun d => { d with badChan := d.badChan.set 0 (64 * die + i) 3 }).ras 1 0x75 3 (2 * (64 * die + i)) 0 0) s

/-- STAGE reads 2 once every die has joined or been withdrawn; the fused rollback count follows the image (R360). -/
def State.stageTwo (s : State) : State :=
  if (List.range 4).all fun d => (s.die d).joined || (s.die d).withdrawn then
    s.onDev fun d => { d with stage := 2, starting := false, rollback := if d.rollback.toNat < d.svn.toNat then d.svn else d.rollback }
  else s

/-- DIE_JOIN: a die is trained and retested, its layout is applied, and it joins. -/
def execDieJoin (die : Nat) (trained : Bool) (s : State) : Result :=
  .next <|
    if s.dev.stage ≠ 1 || !s.dev.starting || 4 ≤ die || (s.die die).joined || (s.die die).withdrawn then s
    else if trained then ((s.applyLayout die).onDie die fun d => { d with joined := true }).stageTwo
    else if die = 0 then s.onDev fun d => { d with starting := false, fail := 4 }
    else (s.withdrawDie die).stageTwo

/-! ### Thermal protection (R363, R364, log entry 24) -/

/-- A temperature sensor of a compute die, or of the I/O die, reads this many °C. -/
def State.heat (s : State) (sensor : Nat) (celsius : BitVec 8) : State :=
  if sensor < 5 then s.onDev fun d => d.heated fun d => { d with sensors := d.sensors.set 0 sensor celsius } else s

/-- THROTTLE_STEP_DOWN: TMAX has been above TLIM for 2^20 cycles since the condition began or the last step. -/
def execThrottleStepDown (s : State) : Result :=
  .next <|
    if s.dev.tmax ≤ s.dev.tlim.toNat || 4 ≤ s.dev.step || s.dev.cycle < s.dev.stepAt + 2 ^ 20 then s
    else s.onDev fun d => { d with step := d.step + 1, stepAt := d.cycle }

/-- THROTTLE_STEP_UP: TMAX has stayed 5 °C below TLIM for 2^20 cycles. -/
def execThrottleStepUp (s : State) : Result :=
  .next <|
    if s.dev.tlim.toNat < s.dev.tmax + 5 || s.dev.step = 0 || s.dev.cycle < s.dev.stepAt + 2 ^ 20 then s
    else s.onDev fun d => { d with step := d.step - 1, stepAt := d.cycle }

/-- A sensor has reached its trip temperature: 115 °C of a die, 105 °C of a DRAM stack (R363). -/
def State.tripped (s : State) : Bool :=
  115 ≤ s.dev.tmax || (List.range 4).any fun n => 105 ≤ (s.die n).stack0.toNat || 105 ≤ (s.die n).stack1.toNat

/-- At a trip temperature every clock stops, and nothing is written back. -/
def State.trip (s : State) : State :=
  if s.tripped && !s.dev.stopped then (s.onDev fun d => { d with fail := 5, stopped := true }).emit .removePower else s

/-- THERMAL_TRIP. It follows every event of itself (`State.closeAct`). -/
def execThermalTrip (s : State) : Result := .next s.trip

/-! ### Accesses from outside -/

/-- Where a byte of an access from outside lies; a fault is as a hart takes it, and for the others Unsupported Request. -/
inductive Place where
  | dram (pa : Nat) (fe : Bool)
  | control (off : Nat)
  | window (pa : Nat)
  | fault (why : HartAnswer)
  | wait
  deriving DecidableEq, Repr

def Place.why : Place → Option HartAnswer
  | .fault w => some w
  | _ => none

def placeOf (s : State) (pa : Nat) (fe : Bool) : Place :=
  match spaceOf pa with
  | .dram => if (s.lostAt pa).isSome then .fault .accessFault else if s.heldLine pa then .wait else .dram pa fe
  | .control => .control (pa - 0x8000000000)
  | .hole => .fault .accessFault
  | _ => .window pa

/-- The places of n bytes, each by a function that translates one address. -/
def placesOf (f : State → Word → Place × State) (s : State) (va : Word) : Nat → List Place × State
  | 0 => ([], s)
  | n + 1 =>
    let (p, s) := f s va
    let (ps, s) := placesOf f s (va + 1) n
    (p :: ps, s)

/-- How an access ends. -/
inductive Reached where
  | ok (bs : List Byte)
  | fault (why : HartAnswer)
  | wait
  deriving DecidableEq, Repr

/-- Read or write bytes at their places: all of them in one space. The first byte that faults decides. A request that leaves the
device carries its partition (R359). -/
def State.outside (s : State) (who : Who) (ps : List Place) (write : Option (List Byte)) (full : Bool) : Reached × State :=
  match ps.findSome? Place.why with
  | some w => (.fault w, s)
  | none =>
  if ps.any (· == .wait) then (.wait, s)
  else match ps with
    | .control off :: _ =>
      if (s.ctlCheck who off ps.length write.isSome).isSome then (.fault .accessFault, s)
      else match write with
        | some bs => (.ok [], s.ctlWrite off ps.length (ofBytes bs))
        | none => (.ok (toBytes ps.length (s.ctlRead off ps.length)), s)
    | .window pa :: _ =>
      match write with
      | some bs => (.ok [], (s.emit (.write who.part pa bs)).markWritten pa)
      | none =>
        let (bs, s) := (s.emit (.read who.part pa ps.length)).freeBytes ps.length
        (.ok bs, s)
    | _ =>
      match write with
      | some bs =>
        let put (s : State) (e : Place × Byte) : State := match e.1 with
          | .dram pa fe =>
            let s := s.outerByte pa e.2
            if full && fe then s.setFull pa true else s
          | _ => s
        (.ok [], (ps.zip bs).foldl put s)
      | none =>
        let get (acc : List Byte × State) (p : Place) : List Byte × State := match p with
          | .dram pa _ =>
            let (l, s) := acc.2.outerRead pa
            (acc.1 ++ [BitVec.ofNat 8 (sliceLine l (pa % 64) 1)], s)
          | _ => (acc.1 ++ [0], acc.2)
        let (bs, s) := ps.foldl get ([], s)
        (.ok bs, s)

/-! ### PCIe (R357, R358, R361) -/

/-- Translate a byte of an inbound request with the rights of its queue's partition. A window of another port is no place to go:
peer-to-peer between root ports is not supported (R357). -/
def pciePlace (root part : Nat) (write : Bool) (s : State) (va : Word) : Place × State :=
  match windowOf va with
  | .mapped =>
    match s.translateAt root part { kind := if write then .store else .load, sys := false, io := true, writes := write } va with
    | (.ok pa p, _, s) => (match spaceOf pa with
      | .pcie _ => .fault .accessFault
      | _ => placeOf s pa (Pte.fe p), s)
    | (.wait, _, s) => (.wait, s)
    | (_, _, s) => (.fault .accessFault, s)
  | _ => (.fault .accessFault, s)

/-- A read or a write of a port's requester by the entry of its bus. -/
def State.pcieRequest (s : State) (port bus : Nat) (request : Inbound) : State :=
  let e := s.dev.requesters.get {} (port * 256 + bus % 256)
  let root := (s.queue e.queue).root.toNat * 1024
  let part := s.queuePart e.queue
  let who : Who := .pcie port part
  if !e.v then s.emit .unsupported
  else match request with
    | .read va n =>
      let (ps, s') := placesOf (pciePlace root part false) s va n
      match s'.outside who ps none false with
      | (.ok bs, s) => s.emit (.reply bs)
      | (.fault _, s) => s.emit .unsupported
      | (.wait, _) => s
    | .write va bs =>
      let (ps, s') := placesOf (pciePlace root part true) s va bs.length
      match s'.outside who ps (some bs) true with
      | (.ok _, s) => s
      | (.fault _, s) => s.emit .unsupported
      | (.wait, _) => s
    | _ => s.emit .unsupported

/-- PCIE_INBOUND: reads and writes; what the spec does not describe, and what faults, is Unsupported Request. Where port 0 is an
endpoint, its physical function serves partition 0, and virtual function v partition v (R357): an entry whose queue belongs to
another partition does not serve the function (log entry 24). -/
def execPcieInbound (port bus : Nat) (request : Inbound) (s : State) : Result :=
  let e := s.dev.requesters.get {} (port * 256 + bus % 256)
  if s.dev.recovering && port = 0 then s.recoveryRequest request
  else .next <|
    if !s.isUp (.pcie port 0) then s
    else match request with
      | .toFunction v r =>
        if port = 0 && s.dev.endpoint && 1 ≤ v && v ≤ 15 && s.queuePart e.queue = v then s.pcieRequest port bus r else s.emit .unsupported
      | r =>
        if port = 0 && s.dev.endpoint && s.queuePart e.queue ≠ 0 then s.emit .unsupported else s.pcieRequest port bus r

/-! ### The Perold link (R359, R197) -/

/-- A byte that a peer may reach: DRAM of a channel of LOCP. -/
def peerPlace (locp : Nat) (s : State) (a : Word) : Place × State :=
  let pa := a.toNat
  (if spaceOf pa == .dram && (s.ownOf (s.devChannel pa)).part == locp then placeOf s pa false else .fault .accessFault, s)

/-- A page under a seal refuses writes (R172). -/
def State.sealedPage (s : State) (pa : Nat) : Bool := match s.pageState pa with
  | .sealed _ => true
  | _ => false

/-- An offer at its home for a requester outside the cores: old value, and what it writes. It never declines. -/
def State.homeAtomic (s : State) (pa : Nat) (op : Atomic) (ty : Ty) (b c : Word) : List Byte × State :=
  let n := ty.width / 8
  let (l, s) := s.outerRead pa
  let old := BitVec.ofNat 512 (sliceLine l (pa % 64) n)
  let x := ((OfferOp.atomic op).value ty old (b.setWidth 512) (c.setWidth 512)).1
  (toBytes n old.toNat, s.outerWrite pa (placeLine x.toNat (pa % 64) n) (maskOf (pa % 64) n))

/-- An operation that fabric ports hold (R175). -/
def portAtomic : Atomic → Bool
  | .add | .and | .or | .xor | .swp | .cas => true
  | _ => false

/-- PEROLD_INBOUND: accepted only under the peer's entry. -/
def execPeroldInbound (peer partition : Nat) (request : Inbound) (s : State) : Result :=
  .next <|
    let e := s.dev.peers.get {} (peer % 64)
    if s.dev.stage ≠ 2 then s
    else match request with
      | .ackNotice page => s.onDev fun d => { d with notices := d.notices.filter fun x => x != (page, peer) }
      | _ =>
        if !e.v || e.remp ≠ partition then s.emit .unsupported
        else
          let answer (ps : List Place) (w : Option (List Byte)) (s' : State) : State :=
            match s'.outside (.task e.locp) ps w false with
            | (.ok bs, s) => if w.isSome then s else s.emit (.reply bs)
            | (.fault _, s) => s.emit .unsupported
            | (.wait, _) => s
          match request with
          | .read a n =>
            let (ps, s') := placesOf (peerPlace e.locp) s a n
            answer ps none s'
          | .write a bs =>
            let (ps, s') := placesOf (peerPlace e.locp) s a bs.length
            if (List.range bs.length).any fun i => s.sealedPage (a.toNat + i) then s.emit .unsupported else answer ps (some bs) s'
          | .fetchSealed a =>
            let line := lineAt a.toNat
            let (ps, s') := placesOf (peerPlace e.locp) s (BitVec.ofNat 64 line) 64
            let note := (pageAt line, peer)
            let s' := if s'.sealedPage line && !ps.any (fun p => p.why.isSome || p == .wait) && !s'.dev.sealedAt.contains note then
                s'.onDev fun d => { d with sealedAt := d.sealedAt ++ [note] } else s'
            answer ps none s'
          | .offer a op wide b c =>
            let ty : Ty := if wide then .n64 else .n32
            let (p, s) := peerPlace e.locp s a
            match p with
            | .dram pa _ =>
              if !portAtomic op || pa % (ty.width / 8) ≠ 0 || s.sealedPage pa then s.emit .unsupported
              else
                let (old, s) := s.homeAtomic pa op ty b c
                s.emit (.reply old)
            | .wait => s
            | _ => s.emit .unsupported
          | _ => s.emit .unsupported

/-! ### Yarrow harts (R353, R354, R362, R365, log entry 50) -/

/-- Memory that is up for a hart: in stage 1, die 0's channels 0 to 31. -/
def State.hartMemory (s : State) (pa : Nat) : Bool := s.dev.stage = 2 || s.devChannel pa < 32

/-- A kind of hart access. -/
inductive HartKind where
  | fetch | load | store | amo
  deriving DecidableEq, Repr

def HartKind.writes : HartKind → Bool
  | .store | .amo => true
  | _ => false

/-- The rights that an access needs of a leaf; with MXR, what may be executed may be read. -/
def HartKind.allowed (k : HartKind) (mxr : Bool) (p : Pte) : Bool :=
  match k with
  | .fetch => Pte.x p
  | .load => Pte.r p || (mxr && Pte.x p)
  | .store => Pte.w p
  | .amo => Pte.r p && Pte.w p

/-- The U bit against the access's privilege: a user needs it set; a supervisor needs it clear, or SUM and no fetch. -/
def HartKind.userOk (k : HartKind) (space : HartSpace) (p : Pte) : Bool :=
  if space.user then Pte.u p else !Pte.u p || (space.sum && k != .fetch)

/-- Where a stage of a hart's translation leads. -/
inductive HartStep where
  | at_ (pa : Nat)
  | fault (why : HartAnswer)
  | wait
  deriving DecidableEq, Repr

/-- A leaf that a hart's walk found, with the address of its entry as the walk sees it; or where the walk ends. -/
inductive HartWalked where
  | leaf (l : Leaf) (entry : Nat)
  | ends (why : HartStep)
  deriving DecidableEq, Repr

/-- Walk the format of R333 and R334, with no partition, from the table of a level down. `find` gives the physical address of an
entry, and `bad` is the fault of the stage. -/
def State.hartWalk (find : State → Nat → HartStep × State) (bad : HartAnswer) (va : Nat) : Nat → Nat → State → HartWalked × State
  | level, table, s =>
    let entry := table + 8 * vaIndex level va
    match find s entry with
    | (.at_ pa, s) =>
      if spaceOf pa ≠ .dram || (s.lostAt pa).isSome || !s.hartMemory pa then (.ends (.fault .accessFault), s)
      else if s.heldLine pa then (.ends .wait, s)
      else
        let (p, s) := s.homeWord pa
        if (Pte.bad level p).isSome then (.ends (.fault bad), s)
        else if Pte.nonLeaf p then match level with
          | 0 => (.ends (.fault bad), s)
          | k + 1 => State.hartWalk find bad va k (Pte.ppn p * 4096) s
        else (.leaf { pte := p, level := level, pteAt := pa } entry, s)
    | (x, s) => (.ends x, s)

/-- One stage: the walk, the checks of the leaf, its A and D (R336). SB with V clear is the stage's page fault; OD, FE and CR mean
nothing (R353). `find` finds the entry again where its A or D is set: that is a write. -/
def State.hartStage (find : Bool → State → Nat → HartStep × State) (bad : HartAnswer) (kind : HartKind) (ok : Pte → Bool)
    (va root : Nat) (s : State) : HartStep × State :=
  match State.hartWalk (find false) bad va 5 root s with
  | (.ends x, s) => (x, s)
  | (.leaf l entry, s) =>
    let new := (s.touchLeaf kind.writes l).1
    if !(Pte.v l.pte && ok l.pte) then (.fault bad, s)
    else if new == l then (.at_ (l.address va), s)
    else match find true s entry with
      | (.at_ _, s) => (.at_ (l.address va), (s.touchLeaf kind.writes l).2)
      | x => x

/-- The second stage, which hgatp names: every access to it is a user's. -/
def State.hartGuest (space : HartSpace) (kind : HartKind) (s : State) (gpa : Nat) : HartStep × State :=
  match space.guest with
  | none => (.at_ gpa, s)
  | some g => s.hartStage (fun _ s pa => (.at_ pa, s)) .guestPageFault kind (fun p => Pte.u p && kind.allowed space.mxr p) gpa g

/-- Both stages. The entries of the first are found through the second. -/
def State.hartTranslate (space : HartSpace) (kind : HartKind) (s : State) (va : Nat) : HartStep × State :=
  match space.root with
  | none => s.hartGuest space kind va
  | some r =>
    let find (write : Bool) (s : State) (gpa : Nat) : HartStep × State := s.hartGuest space (if write then .store else .load) gpa
    match s.hartStage find .pageFault kind (fun p => kind.userOk space p && kind.allowed space.mxr p) va r with
    | (.at_ gpa, s) => s.hartGuest space kind gpa
    | x => x

/-- A physical place of a hart: what is not up is an access fault (R348, R362). -/
def State.hartPhysical (s : State) (pa : Nat) : Place :=
  match placeOf s pa false with
  | .dram pa fe => if s.hartMemory pa then .dram pa fe else .fault .accessFault
  | .wait => if s.hartMemory pa then .wait else .fault .accessFault
  | .window pa => if s.dev.stage = 2 || (spaceOf pa == .pcie 0 && !s.dev.endpoint) then .window pa else .fault .accessFault
  | p => p

def hartPlace (space : HartSpace) (kind : HartKind) (s : State) (va : Word) : Place × State :=
  match s.hartTranslate space kind va.toNat with
  | (.at_ pa, s) => (s.hartPhysical pa, s)
  | (.fault w, s) => (.fault w, s)
  | (.wait, s) => (.wait, s)

/-- YARROW_HART_ACCESS. A FENCE adds nothing: a hart's stores are at their homes already, and its caches are coherent. -/
def execYarrowHartAccess (hart : Nat) (access : HartAccess) (s : State) : Result :=
  .next <|
    if !s.isUp (.hart hart) then s
    else
      let reach (space : HartSpace) (kind : HartKind) (va : Word) (n : Nat) (w : Option (List Byte)) : State :=
        let (ps, s') := placesOf (hartPlace space kind) s va n
        match s'.outside (.hart hart) ps w false with
        | (.ok bs, s) => if w.isSome then s else s.emit (.hart hart (.bytes bs))
        | (.fault why, s) => s.emit (.hart hart why)
        | (.wait, _) => s
      match access with
      | .fetch space va n => reach space .fetch va n none
      | .load space va n => reach space .load va n none
      | .store space va n x => reach space .store va n (some (toBytes n x.toNat))
      | .amo space va op ty x =>
        let (p, s') := hartPlace space .amo s va
        match p with
        | .dram pa _ =>
          if (ty.width == 32 || ty.width == 64) && ty.isInt && pa % (ty.width / 8) = 0 then
            let (old, s') := s'.homeAtomic pa op ty x 0
            s'.emit (.hart hart (.bytes old))
          else s'.emit (.hart hart .accessFault)
        | .wait => s
        | .fault why => s'.emit (.hart hart why)
        | _ => s'.emit (.hart hart .accessFault)
      | .fence _ _ => s

end Sys2Proof.Machine
end

