-- ==== Sys2Proof/WellFormed.lean ====
section
/-! DEFINITION. Well-formed instructions: those whose fields pass the checks of spec/03_encoding.md R75, steps 5 and 6. -/

namespace Sys2Proof

/-- FN is one that the row assigns: a condition within the row's conditions, and no rounding or condition where FN selects
none (R76, R78). -/
def fnOk (f : Fn) (rnd : Rnd) (cond : Cond) : Bool :=
  match f with
  | .one _ => rnd == .frmode && cond == .eq
  | .rnd => cond == .eq
  | .cond last => rnd == .frmode && cond.code ≤ last

/-- The fields pass steps 5 and 6 of R75 for their row. -/
def Flds.wf (r : Row) : Flds → Bool
  | .a o => fnOk r.fn o.rnd o.cond && checkA5 r o && checkA6 r o
  | .p o => fnOk r.fn .frmode o.cond && checkP5 r o && checkP6 r o
  | .m o => checkM5 r o && checkM6 r o
  | .b o => checkB5 r o && checkB6 r o
  | .e o => checkE5 r o && checkE6 r o
  | .s o => checkS5 r o && checkS6 r o

/-- A well-formed instruction word. Command blocks and events have no word: they are well formed by their type. -/
def Instr.wf (i : Instr) : Bool :=
  match i.info with
  | some (r, f) => f.wf r
  | none => true

/-- The instruction has a word. -/
def Instr.coded (i : Instr) : Bool := i.info.isSome

end Sys2Proof
end

