-- ==== Sys2Proof/Machine/Issue.lean ====
section
/-! DEFINITION. Issue: how slots are filled, which slot issues, and what is decided before an instruction issues
(spec/01_machine.md R24-R32, spec/03_encoding.md R69-R75, spec/04_encoding_notes.md R82, spec/07_arithmetic.md R142-R145,
spec/13_traps.md R226, R234, R246, spec/21_launch_storage.md R330). ISSUE_CYCLE chooses; the instructions it puts into `plan` are
run by the step. -/

namespace Sys2Proof.Machine

open Sys2Proof

/-! ### Waiting tasks (R26, R27) -/

/-- What the task waits for has come. -/
def State.waitMet (s : State) (key : Nat) (t : Task) : Wait → Bool
  | .outcnt => t.outcnt == 0
  | .word op => !t.long.any fun l => l.op == op
  | .token x => s.tokenPassed t.launch x
  | .tags any mask => if any then t.sys.tags &&& mask != 0 else t.sys.tags &&& mask == mask
  | .room launch a f => match s.actor? launch a with
    | some y => y.state == .exited || (match y.ins[f]? with
      | some q => q.items.length < q.cap
      | none => true)
    | none => true
  | .item f i => match t.kind with
    | .firing a => match (s.actor? t.launch a).bind fun y => y.ins[f]? with
      | some q => i < q.items.length
      | none => true
    | _ => true
  | .event mask _ => t.sched.latch &&& mask != 0
  | .rows _ _ => s.rowsMet key t

/-- A task whose wait is over can issue from the next cycle on; in the run queue it can be chosen. -/
def State.wakeTask (s : State) (key : Nat) : State :=
  match s.task? key with
  | none => s
  | some t => match t.sched.wait with
    | none => s
    | some w =>
      if (t.sched.status == .parked || t.sched.status == .ready) && t.sched.dying.isNone && s.waitMet key t w then
        s.onTask key fun t =>
          { t with sched := { t.sched with wait := none, status := if t.sched.status = .parked then .issuing else t.sched.status,
                                           ableAt := s.dev.cycle + 1 } }
      else s

def State.wakeAll (s : State) : State :=
  (s.allTasks.filter fun e => e.2.sched.wait.isSome).foldl (fun s e => s.wakeTask e.1) s

/-! ### Slots (R24, R25, R29) -/

/-- The run queue fills the free slots 0 to 5. -/
def State.fillSlots (s : State) (core : Nat) : Nat → State
  | 0 => s
  | n + 1 =>
    match s.freeSlot core, s.runChoice core with
    | some slot, some (k, _) => (s.takeSlot k slot).fillSlots core n
    | _, _ => s

/-- R25: slot 7, else the first able slot after the one that issued last. -/
def State.chooseSlot (s : State) (core : Nat) : Option (Nat × Nat) :=
  let able (i : Nat) : Option (Nat × Nat) := match s.slotTask core i with
    | some (k, t) => if s.canIssue t then some (k, i) else none
    | none => none
  match able 7 with
  | some x => some x
  | none => (List.range 8).findSome? fun i =>
      let j := ((s.core core).last + 1 + i) % 8
      if j = 7 then none else able j

/-! ### Before an instruction issues -/

/-- `done` behaves as if S were set (R72). -/
def Instr.isDone : Instr → Bool
  | .done _ | .doneExit _ => true
  | _ => false

def Instr.isDrain : Instr → Bool
  | .drain _ => true
  | _ => false

def Instr.isRpt : Instr → Bool
  | .rpt _ => true
  | _ => false

def Instr.isLoop : Instr → Bool
  | .loop _ => true
  | _ => false

/-- The S bit of an instruction counts; a `loop` whose guard is known to be false is passed over (spec/05_scalar.md R108). -/
def Instr.switches (i : Instr) (t : Task) : Bool :=
  match i.info with
  | some (_, f) => f.hd.sw && !(Instr.isLoop i && !t.seen.guard f.hd && !t.seen.pending (.p f.hd.gp))
  | none => false

/-- The instruction is a long op that issues with a true guard. -/
def Instr.isLong (i : Instr) (t : Task) : Bool :=
  match i.info with
  | some (r, f) => r.long && t.seen.guard f.hd
  | none => false

/-- A `done` that is not passed over: its guard holds, or is not known yet (spec/05_scalar.md R107, R108). -/
def Instr.stops (i : Instr) (t : Task) : Bool :=
  match i.info with
  | some (_, f) => Instr.isDone i && (t.seen.guard f.hd || t.seen.pending (.p f.hd.gp))
  | none => false

/-- The task must have no long op outstanding before these instructions issue (R72). -/
def Task.mustDrain (t : Task) (is : List Instr) : Bool :=
  is.any (fun i => Instr.switches i t || Instr.stops i t) || 64 < t.outcnt + (is.filter fun i => Instr.isLong i t).length

/-- The instructions are a trap point for the task's stores (R226). -/
def Task.trapPoint (t : Task) (is : List Instr) : Bool :=
  is.any (fun i => Instr.switches i t || Instr.stops i t || Instr.isDrain i) || 64 < t.outcnt + (is.filter fun i => Instr.isLong i t).length ||
  (t.stores.map Store.dist ++ t.faulted).any fun d => 16 ≤ d + is.length

/-- Both instructions of a pair pass their checks and write one register (R70, R75 step 12). -/
def Task.pairClash (t : Task) : List Instr → Bool
  | [i, j] => match i.info, j.info with
    | some (r, f), some (q, g) =>
      checkBefore r f t == .pass && checkBefore q g t == .pass &&
        (writesOf r f).any fun x => !x.hardwired && (writesOf q g).contains x
    | _, _ => false
  | _ => false

/-- The stream may not go on while the sequence runs (R144). -/
def Task.streamWaits (t : Task) (is : List Instr) : Bool :=
  t.seq.act && is.any fun i => Instr.ends i || (match i.info with
    | some (r, f) => t.seen.guard f.hd && t.seqWaits r f
    | none => false)

/-- The instructions of the stream at the task's code address, one or a pair, or what stands in their way. -/
inductive Stream where
  | issue (is : List Instr)
  | stop (s : State)

/-- Fetch and decode at the code address (R75 steps 1 to 6). -/
def State.streamAt (s : State) : Stream × State :=
  let pc := s.t.pc
  if s.t.breakAt pc none then (.stop (s.trap 0x78), s)
  else
    match s.decodeAt true pc with
    | (.trap c va, s) => (.stop (s.trapVa c va), s)
    | (.storage a p, s) => (.stop (s.meetStorage (lineOf pc) a p), s)
    | (.wait, s) => (.stop s.hold, s)
    | (.ins l i, s) =>
      if pairsAt (linePair l) (pc.toNat % 8) && !s.t.breakAt (pc + 1) none && !(Instr.isRpt i && Instr.holds i s.t) then
        match s.decodeAt false (pc + 1) with
        | (.ins _ j, s) => (.issue [i, j], s)
        | (_, s) => (.issue [i], s)
      else (.issue [i], s)

/-- The instructions of the stream issue, if nothing asks the task to wait or trap first. -/
def State.letIssue (s : State) (is : List Instr) : State :=
  let t := s.t
  if t.mustDrain is && 0 < t.outcnt then
    let s := if is.any fun i => Instr.isDone i && Instr.holds i t then s.closeSlots else s
    if s.t.outcnt = 0 then s.hold else s.park .outcnt
  else
    let go (s : State) : State := if s.t.pairClash is then s.trap 0x07 else { s with plan := is }
    if !t.versioned && t.trapPoint is then s.drained go else go s

/-- A sequenced instruction waits for a pending register that it uses (R144). -/
def Task.seqWaiting (t : Task) (i : Instr) : Bool :=
  match i.info with
  | some (r, f) => t.seqPending r f
  | none => false

/-! ### Failing parity (spec/05_scalar.md R89) -/

/-- The registers that an instruction reads from the register cache: its guard, and what follows if it is not stopped before. -/
def Task.readsNow (t : Task) (i : Instr) : List Reg :=
  match i.info with
  | some (r, f) =>
    let guard : Reg := .p f.hd.gp
    (if t.mayRun r && !t.seen.pending guard then [guard] else []) ++
    (if checkBefore r f t == .pass then readsOf r f ++ (narrowsOf r f).map Reg.fmt else [])
  | none => []

/-- The first of these registers whose parity fails. -/
def Task.failing (t : Task) (is : List Instr) : Option Reg :=
  List.find? (fun (x : Reg) => !x.hardwired && !(t.badWords x).isEmpty) (is.flatMap t.readsNow)

/-- The other 8-byte words of the frame that an instruction reads: the code address, the marks and the breakpoint for every issue; the
sequencer for those it issues; and what the instruction names: a system register, the rounding mode and the biases of a conversion,
the return stack, a guard slot (spec/05_scalar.md R86, R88). -/
def Task.dwordsNow (t : Task) (i : Instr) : List Nat :=
  let stack := 352 :: (if t.rets.depth = 0 then [] else [336 + (t.rets.depth - 1)])
  let named : List Nat := match i with
    | .sysr o =>
      let n := o.imm.toNat % 4096
      if n < 8 then [[353, 354, 355, 356, 357, 358, 359, 360].getD n 0]
      else if n = 9 then [361] else if n = 11 then [362] else if n = 12 then [363] else if 16 ≤ n ∧ n < 24 then [364] else []
    | .call _ | .ret _ => stack
    | .gslot o | .gset o => [368 + o.imm.toNat % 16]
    | _ => match i.info with
      | some (r, .a o) =>
        (if o.rnd == .frmode && (0x40 ≤ r.maj && r.maj ≤ 0x74) then [361] else []) ++ (if (narrowsOf r (.a o)).isEmpty then [] else [364])
      | _ => []
  let held : Bool := match i.info with
    | some (r, f) => checkBefore r f t == .pass
    | none => false
  [333, 334, 335, 362, 363] ++ (if t.seq.stream.isSome then [366, 367] else []) ++ (if held then named else [])

/-- The first line of the frame in which a word fails that these instructions read, and its failing words. -/
def Task.failingWords (t : Task) (is : List Instr) : Option (Nat × List Nat) :=
  if t.bad.isEmpty then none
  else
    let hit := (is.flatMap t.dwordsNow).flatMap fun d => [2 * d, 2 * d + 1].filter fun w => t.bad.contains w
    hit.head?.map fun w => (w / 16, hit.filter fun x => x / 16 == w / 16)

/-- A parity failure cancels the instructions that would issue, a whole pair with its first, before anything is decided by what they
read; the register or word is recovered. `none`: nothing fails. -/
def State.parityCancels (s : State) (is : List Instr) : Option State :=
  let key := s.cur
  let back (s : State) : State := if s.cur = key then s.seqBack false else s
  match s.t.failingWords is, s.t.failing is with
  | some (i, ws), _ => some (back (({ s with plan := [] }).recoverWords key i ws))
  | none, some x => some (back (({ s with plan := [] }).recoverReg key x))
  | none, none => none

/-! ### The choice -/

/-- R330: the entry is checked as a target before the first issue. -/
def State.entryChecked (s : State) (k : State → State) : State :=
  if s.t.sched.entered then k s
  else
    let pc := s.t.pc
    match s.checkTarget s.t.sched.core (s.rootOf s.t) s.t.isHandler pc with
    | (.ok, s) => k (s.onT fun t => { t with sched := { t.sched with entered := true } })
    | (.bad, s) => s.trapVa 0x03 pc
    | (.fault c va, s) => s.trapVa c va
    | (.storage a p, s) => s.meetStorage (lineOf pc) a p
    | (.wait, s) => s.hold

/-- Choose from the stream. -/
def State.chooseStream (s : State) : State :=
  match s.streamAt with
  | (.stop s, _) => s
  | (.issue is, s) => match s.parityCancels is with
    | some s => s
    | none => if s.t.streamWaits is then s.hold else s.letIssue is

/-- Choose what the task in focus issues: the sequencer's instruction if it can go, else the stream's. The second instruction of a pair
comes before both. A renumbered instruction that is not well formed traps at the iteration that makes it (spec/07_arithmetic.md
R141). -/
def State.chooseIssue (s : State) : State :=
  let s := s.recapture
  let t := s.t
  let record : TrapRec := { aux := BitVec.ofNat 16 t.seq.j, seq := true }
  match t.seq.next, t.view.isSome with
  | some (pc, i), false =>
    if t.breakAt pc (some t.seq.j) then s.trapAt 0x78 pc record
    else if !Instr.wf i then s.trapAt 0x02 pc record
    else match (s.seqBegin pc i).parityCancels [i] with
    | some s => s
    | none =>
      if t.seqWaiting i then s.chooseStream
      else if t.mustDrain [i] && 0 < t.outcnt then s.park .outcnt
      else if !t.versioned && t.mustDrain [i] then s.seqDrained pc i
      else s.seqBegin pc i
  | _, _ => s.chooseStream

/-- The task resumed at a target whose check had to wait: it is made now (R55, spec/13_traps.md R224). -/
def State.resumeChecked (s : State) (k : State → State) : State :=
  match s.t.sched.resumeFrom with
  | none => k s
  | some from_ =>
    let pc := s.t.pc
    let checked (s : State) : State := s.onT fun t => { t with sched := { t.sched with resumeFrom := none } }
    match s.checkTarget s.t.sched.core (s.rootOf s.t) s.t.isHandler pc with
    | (.ok, s) => k (checked s)
    | (.bad, s) => (checked s).trapAt 0x03 from_ { g4 := pc }
    | (.fault c va, s) => (checked s).trapAt c from_ { g4 := va }
    | (.storage a p, s) => s.meetStorage (lineOf pc) a p
    | (.wait, s) => s.hold

/-- The task in focus is one of a dependant launch, and has not issued on its core yet (spec/01_machine.md R46). -/
def State.fenceDue (s : State) : Bool :=
  let launched := match s.t.kind with
    | .handler _ | .sorrel _ => false
    | _ => true
  launched && s.t.sched.fencedOn != some s.t.sched.core &&
    (s.launch? s.t.launch).any fun l => l.record.dep0.isSome || l.record.dep1.isSome

/-- The acquire at die scope before its first issue there. -/
def State.dependantFence (s : State) : State :=
  let core := s.t.sched.core
  if s.fenceDue then (s.fenceR core .die).onT fun t => { t with sched := { t.sched with fencedOn := some core } } else s

/-- What stands before any issue of the task: a held trap, a full version, a debug request, a blocking load that found its word
empty, a held `mcap`, and the checks of its first issue. -/
def State.beforeIssue (s : State) : State :=
  let t := s.t
  match t.sched.late with
  | (c, pc, r) :: rest => (s.onT fun t => { t with sched := { t.sched with late := rest } }).trapAt c pc r
  | [] =>
    if t.sched.overflow && t.versioned then
      (s.onT fun t => { t with sched := { t.sched with overflow := false } }).versionOverflow 0
    else if t.sched.debug = some .halt then (s.onT fun t => { t with sched := { t.sched with debug := none } }).trap 0x7F
    else
      let told := List.find? (fun (l : LongOp) => match l.act with
        | .ldf _ _ _ told => told && l.vals.isEmpty
        | _ => false) t.long
      match told with
      | some l => s.park (.word l.op)
      | none =>
        let caps := t.held.any fun h => match h.ins with
          | .mcap _ => true
          | _ => false
        if caps then s.hold
        else
          let s := if t.sched.debug = some .step then s.onT fun t => { t with sched := { t.sched with debug := some .stepped } } else s
          s.dependantFence.entryChecked fun s => s.resumeChecked State.chooseIssue

/-- ISSUE_CYCLE: free slots are filled, one slot is chosen, and its task is put in focus with the instructions that it issues. -/
def execIssueCycle (core : Nat) (s : State) : Result :=
  .next <|
    let c := s.core core
    if 4096 ≤ core || c.withdrawn || c.issuedAt == some s.dev.cycle || s.dev.stage ≠ 2 then s
    else
      let s := (s.ageWaiting core).fillSlots core 6
      match s.chooseSlot core with
      | none => s
      | some (k, slot) =>
        let s := s.focus k
        let s := s.onT fun t => { t with sched := { t.sched with heldAt := none } }
        let s := s.beforeIssue
        if s.t.sched.heldAt.isSome then s
        else s.onCore core fun c => { c with last := slot, issuedAt := some s.dev.cycle }

/-! ### After an issue -/

/-- Stores that were there before an instruction issued are one instruction further away (R226). -/
def State.countIssue (s : State) (before : Nat) : State :=
  let far (x : Store) : Store := if x.op < before then { x with dist := x.dist + 1 } else x
  s.onT fun t => { t with stores := t.stores.map far, faulted := t.faulted.map (· + 1) }

/-- The issue of the task in focus is over: a debug step traps (R234), a `yield` gives up the slot (R240), and a victim of ageing
goes (R30). -/
def State.afterIssue (s : State) : State :=
  if s.t.sched.heldAt.isSome then s
  else
    let went := s.t.went
    let s := s.onT fun t => { t with recovered := if went then [] else t.recovered }
    if went && s.t.sched.debug = some .stepped then
      (s.onT fun t => { t with sched := { t.sched with debug := none } }).trap 0x7E
    else if went && s.t.sched.yielded then s.giveSlot
    else s.ageIssued

/-! ### What follows every event -/

/-- Waiters of finished services that are gone (R346). -/
def State.pruneServices (s : State) : State :=
  let alive (w : Waiter) : Bool := match w with
    | .task k => (s.task? k).isSome
    | .store k op => (s.task? k).any fun t => t.stores.any fun x => x.op == op
    | .engine id =>
      let n := (id - 2 ^ 64) / 4
      let asked (t : Task) : Bool := t.long.any fun l => match l.act with
        | .ecmd _ _ _ none false => true
        | _ => false
      if id < 2 ^ 64 then s.cores.any (fun e => e.2.copies.any fun c => c.op == id) || s.clusters.any fun e => e.2.jobs.any fun j => j.op == id
      else if id % 4 = 0 then s.launches.any fun e => e.2.queue * 2 ^ 32 + e.2.seq.toNat == n && e.2.live
      else if id % 4 = 1 then (s.cluster n).vetch.isSome || s.allTasks.any fun e => asked e.2
      else (s.task? n).isSome
    | _ => true
  let prune (v : Service) : Service := if v.open_ then v else { v with waiters := v.waiters.filter alive }
  let pruned (e : Nat × Teasel) : Nat × Teasel :=
    (e.1, { e.2 with services := (e.2.services.map prune).filter fun v => v.open_ || !v.waiters.isEmpty })
  if s.teasel.any fun e => e.2.services.any fun v => !v.open_ then { s with teasel := s.teasel.map pruned } else s

/-- Commands whose slots have resolved go on (spec/07_arithmetic.md R147). -/
def State.pumpCommands (s : State) : State :=
  let key := s.cur
  let ts := s.allTasks.filter fun e => e.2.held.any fun h => h.fixed.isSome
  ts.foldl (fun s e => (s.pumpHeld e.1).focus key) s

/-- A fetch that failed parity twice is a lasting error of its core (R235). -/
def State.fetchErrors (s : State) : State :=
  let ts := s.allTasks.filter fun e => e.2.sched.status == .trapped && e.2.tr.cause == 0x71 && e.2.sched.dying.isNone
  ts.foldl (fun s e => s.coreError e.2.sched.core 0x71 0 (some e) true) s

/-- Everything that an event sets going without an event of its own. -/
def State.settle (s : State) : State :=
  let s := s.fetchErrors.meetGuards.hostReleases
  let s := s.drainRas s.dev.rasq
  let ts := s.allTasks
  let lost (s : State) (e : Nat × Task) : State := match e.2.sched.lostFrame with
    | some c => if e.2.sched.dying.isNone then s.terminate e.1 c false else s
    | none => s
  let s := ts.foldl lost s
  let traps := ts.filter fun e => e.2.sched.status == .trapped
  let s := traps.foldl (fun s e => match e.2.kind with
    | .sorrel u => s.endTrapped u
    | .handler _ => s.handlerTrapped e.2.sched.core
    | _ => s) s
  let s := (ts.filter fun e => e.2.sched.rerun).foldl (fun s e => s.finishRerun e.1) s
  s.pumpCommands.pumpAll.reapAll.pruneServices.wakeAll

end Sys2Proof.Machine
end

