-- ==== Sys2Proof/Machine/Predicates.lean ====
section
/-! DEFINITION. Compares and predicate operations, majors 0x30 to 0x32 (spec/05_scalar.md R98-R101). -/

namespace Sys2Proof.Machine

open Sys2Proof

/-- A predicate source. -/
def State.predSrc (s : State) (x : Reg) : Bool :=
  match x with
  | .p n => s.t.seen.rp n
  | _ => false

def execCmp (o : OpP) (s : State) : Result :=
  .next (gated Rows.cmp (.p o) s fun s =>
    let t := OpP.type o
    let b := if o.b.reg = .zero then immBits t o.imm else (s.readW o.b.reg).toNat
    s.putPred o (intCompare o.cond (s.intSrc t o.a) (t.intMod o.b.neg o.b.abs (t.intOf b))))

def execFcmp (o : OpP) (s : State) : Result :=
  .next (gated Rows.fcmp (.p o) s fun s =>
    let t := OpP.type o
    let b := if o.b.reg = .zero then
        (if t == .f64 then fmtF32.decode o.imm.toNat else t.fp.decode (immBits t o.imm))
      else t.fp.decode (s.readW o.b.reg).toNat
    let r := fpCompare o.cond (s.valOf t o.a) (b.modify o.b.neg o.b.abs)
    (s.orFlags r.2).putPred o r.1)

/-- A predicate operation (R101). -/
def predOp (r : Row) (o : OpP) (f : Bool → Bool → Bool) (s : State) : Result :=
  .next (gated r (.p o) s fun s => s.putPred o (f (s.predSrc o.a.reg) (s.predSrc o.b.reg)))

def execPand (o : OpP) (s : State) : Result := predOp Rows.pand o (fun a b => a && b) s
def execPor (o : OpP) (s : State) : Result := predOp Rows.por o (fun a b => a || b) s
def execPxor (o : OpP) (s : State) : Result := predOp Rows.pxor o (fun a b => xor a b) s
def execPnot (o : OpP) (s : State) : Result := predOp Rows.pnot o (fun a _ => !a) s
def execPmov (o : OpP) (s : State) : Result := predOp Rows.pmov o (fun a _ => a) s

def execPtst (o : OpP) (s : State) : Result :=
  .next (gated Rows.ptst (.p o) s fun s => s.putPred o (s.readW o.a.reg &&& s.wordB o.b o.imm != 0))

end Sys2Proof.Machine
end

