-- ==== Sys2Proof/Machine/Dispatch.lean ====
section
/-! DEFINITION. Which meaning each instruction has: one arm per constructor. -/

namespace Sys2Proof.Machine

open Sys2Proof

def exec (i : Instr) (s : State) : Host.Outcome State Fault Refusal :=
  match i with
  | .add o => Sys2Proof.Machine.execAdd o s
  | .sub o => Sys2Proof.Machine.execSub o s
  | .madd o => Sys2Proof.Machine.execMadd o s
  | .mul o => Sys2Proof.Machine.execMul o s
  | .mulh o => Sys2Proof.Machine.execMulh o s
  | .mulhn o => Sys2Proof.Machine.execMulhn o s
  | .div o => Sys2Proof.Machine.execDiv o s
  | .divn o => Sys2Proof.Machine.execDivn o s
  | .rem o => Sys2Proof.Machine.execRem o s
  | .remn o => Sys2Proof.Machine.execRemn o s
  | .and o => Sys2Proof.Machine.execAnd o s
  | .or o => Sys2Proof.Machine.execOr o s
  | .xor o => Sys2Proof.Machine.execXor o s
  | .andn o => Sys2Proof.Machine.execAndn o s
  | .shl o => Sys2Proof.Machine.execShl o s
  | .shr o => Sys2Proof.Machine.execShr o s
  | .sra o => Sys2Proof.Machine.execSra o s
  | .rol o => Sys2Proof.Machine.execRol o s
  | .ror o => Sys2Proof.Machine.execRor o s
  | .min o => Sys2Proof.Machine.execMin o s
  | .max o => Sys2Proof.Machine.execMax o s
  | .minn o => Sys2Proof.Machine.execMinn o s
  | .maxn o => Sys2Proof.Machine.execMaxn o s
  | .clz o => Sys2Proof.Machine.execClz o s
  | .ctz o => Sys2Proof.Machine.execCtz o s
  | .popc o => Sys2Proof.Machine.execPopc o s
  | .bext o => Sys2Proof.Machine.execBext o s
  | .bdep o => Sys2Proof.Machine.execBdep o s
  | .sel o => Sys2Proof.Machine.execSel o s
  | .mov o => Sys2Proof.Machine.execMov o s
  | .movi o => Sys2Proof.Machine.execMovi o s
  | .movh o => Sys2Proof.Machine.execMovh o s
  | .lea o => Sys2Proof.Machine.execLea o s
  | .nop o => Sys2Proof.Machine.execNop o s
  | .brk o => Sys2Proof.Machine.execBrk o s
  | .br o => Sys2Proof.Machine.execBr o s
  | .jmp o => Sys2Proof.Machine.execJmp o s
  | .call o => Sys2Proof.Machine.execCall o s
  | .ret o => Sys2Proof.Machine.execRet o s
  | .jr o => Sys2Proof.Machine.execJr o s
  | .loop o => Sys2Proof.Machine.execLoop o s
  | .done o => Sys2Proof.Machine.execDone o s
  | .doneExit o => Sys2Proof.Machine.execDoneExit o s
  | .cmp o => Sys2Proof.Machine.execCmp o s
  | .fcmp o => Sys2Proof.Machine.execFcmp o s
  | .pand o => Sys2Proof.Machine.execPand o s
  | .por o => Sys2Proof.Machine.execPor o s
  | .pxor o => Sys2Proof.Machine.execPxor o s
  | .pnot o => Sys2Proof.Machine.execPnot o s
  | .pmov o => Sys2Proof.Machine.execPmov o s
  | .ptst o => Sys2Proof.Machine.execPtst o s
  | .vcmp o => Sys2Proof.Machine.execVcmp o s
  | .vfcmp o => Sys2Proof.Machine.execVfcmp o s
  | .fadd o => Sys2Proof.Machine.execFadd o s
  | .fsub o => Sys2Proof.Machine.execFsub o s
  | .fmul o => Sys2Proof.Machine.execFmul o s
  | .ffma o => Sys2Proof.Machine.execFfma o s
  | .fdiv o => Sys2Proof.Machine.execFdiv o s
  | .fsqrt o => Sys2Proof.Machine.execFsqrt o s
  | .frcp o => Sys2Proof.Machine.execFrcp o s
  | .frsq o => Sys2Proof.Machine.execFrsq o s
  | .fexp2 o => Sys2Proof.Machine.execFexp2 o s
  | .flog2 o => Sys2Proof.Machine.execFlog2 o s
  | .fmin o => Sys2Proof.Machine.execFmin o s
  | .fmax o => Sys2Proof.Machine.execFmax o s
  | .fclass o => Sys2Proof.Machine.execFclass o s
  | .vfadd o => Sys2Proof.Machine.execVfadd o s
  | .vfsub o => Sys2Proof.Machine.execVfsub o s
  | .vfmul o => Sys2Proof.Machine.execVfmul o s
  | .vffma o => Sys2Proof.Machine.execVffma o s
  | .vfdiv o => Sys2Proof.Machine.execVfdiv o s
  | .vfsqrt o => Sys2Proof.Machine.execVfsqrt o s
  | .vfrcp o => Sys2Proof.Machine.execVfrcp o s
  | .vfmin o => Sys2Proof.Machine.execVfmin o s
  | .vfmax o => Sys2Proof.Machine.execVfmax o s
  | .vadd o => Sys2Proof.Machine.execVadd o s
  | .vsub o => Sys2Proof.Machine.execVsub o s
  | .vmul o => Sys2Proof.Machine.execVmul o s
  | .vmulh o => Sys2Proof.Machine.execVmulh o s
  | .vmadd o => Sys2Proof.Machine.execVmadd o s
  | .vand o => Sys2Proof.Machine.execVand o s
  | .vor o => Sys2Proof.Machine.execVor o s
  | .vxor o => Sys2Proof.Machine.execVxor o s
  | .vshl o => Sys2Proof.Machine.execVshl o s
  | .vshr o => Sys2Proof.Machine.execVshr o s
  | .vsra o => Sys2Proof.Machine.execVsra o s
  | .vmin o => Sys2Proof.Machine.execVmin o s
  | .vmax o => Sys2Proof.Machine.execVmax o s
  | .vsel o => Sys2Proof.Machine.execVsel o s
  | .vperm o => Sys2Proof.Machine.execVperm o s
  | .vbcast o => Sys2Proof.Machine.execVbcast o s
  | .vext o => Sys2Proof.Machine.execVext o s
  | .vins o => Sys2Proof.Machine.execVins o s
  | .vredAdd o => Sys2Proof.Machine.execVredAdd o s
  | .vredMin o => Sys2Proof.Machine.execVredMin o s
  | .vredMax o => Sys2Proof.Machine.execVredMax o s
  | .vscan o => Sys2Proof.Machine.execVscan o s
  | .vzpack o => Sys2Proof.Machine.execVzpack o s
  | .vexpand o => Sys2Proof.Machine.execVexpand o s
  | .mand o => Sys2Proof.Machine.execMand o s
  | .mor o => Sys2Proof.Machine.execMor o s
  | .mnot o => Sys2Proof.Machine.execMnot o s
  | .mpopc o => Sys2Proof.Machine.execMpopc o s
  | .mffs o => Sys2Proof.Machine.execMffs o s
  | .fcvt o => Sys2Proof.Machine.execFcvt o s
  | .vcvt o => Sys2Proof.Machine.execVcvt o s
  | .vpack o => Sys2Proof.Machine.execVpack o s
  | .vunpack o => Sys2Proof.Machine.execVunpack o s
  | .vtsum o => Sys2Proof.Machine.execVtsum o s
  | .ld o => Sys2Proof.Machine.execLd o s
  | .ldv o => Sys2Proof.Machine.execLdv o s
  | .ldg o => Sys2Proof.Machine.execLdg o s
  | .pf o => Sys2Proof.Machine.execPf o s
  | .st o => Sys2Proof.Machine.execSt o s
  | .stv o => Sys2Proof.Machine.execStv o s
  | .stg o => Sys2Proof.Machine.execStg o s
  | .ldf o => Sys2Proof.Machine.execLdf o s
  | .ldft o => Sys2Proof.Machine.execLdft o s
  | .stf o => Sys2Proof.Machine.execStf o s
  | .clrf o => Sys2Proof.Machine.execClrf o s
  | .copy o => Sys2Proof.Machine.execCopy o s
  | .copyx o => Sys2Proof.Machine.execCopyx o s
  | .wany o => Sys2Proof.Machine.execWany o s
  | .wall o => Sys2Proof.Machine.execWall o s
  | .ffr o => Sys2Proof.Machine.execFfr o s
  | .tagclr o => Sys2Proof.Machine.execTagclr o s
  | .cleanR o => Sys2Proof.Machine.execCleanR o s
  | .invR o => Sys2Proof.Machine.execInvR o s
  | .flushR o => Sys2Proof.Machine.execFlushR o s
  | .fenceR o => Sys2Proof.Machine.execFenceR o s
  | .fenceW o => Sys2Proof.Machine.execFenceW o s
  | .fenceRw o => Sys2Proof.Machine.execFenceRw o s
  | .fenceB o => Sys2Proof.Machine.execFenceB o s
  | .acq o => Sys2Proof.Machine.execAcq o s
  | .acqs o => Sys2Proof.Machine.execAcqs o s
  | .rls o => Sys2Proof.Machine.execRls o s
  | .sealR o => Sys2Proof.Machine.execSealR o s
  | .oadd o => Sys2Proof.Machine.execOadd o s
  | .omin o => Sys2Proof.Machine.execOmin o s
  | .omax o => Sys2Proof.Machine.execOmax o s
  | .oand o => Sys2Proof.Machine.execOand o s
  | .oor o => Sys2Proof.Machine.execOor o s
  | .oxor o => Sys2Proof.Machine.execOxor o s
  | .oswp o => Sys2Proof.Machine.execOswp o s
  | .ocas o => Sys2Proof.Machine.execOcas o s
  | .oaddNt o => Sys2Proof.Machine.execOaddNt o s
  | .ominNt o => Sys2Proof.Machine.execOminNt o s
  | .omaxNt o => Sys2Proof.Machine.execOmaxNt o s
  | .oandNt o => Sys2Proof.Machine.execOandNt o s
  | .oorNt o => Sys2Proof.Machine.execOorNt o s
  | .oxorNt o => Sys2Proof.Machine.execOxorNt o s
  | .oswpNt o => Sys2Proof.Machine.execOswpNt o s
  | .ocasNt o => Sys2Proof.Machine.execOcasNt o s
  | .ofadd o => Sys2Proof.Machine.execOfadd o s
  | .ofmin o => Sys2Proof.Machine.execOfmin o s
  | .ofmax o => Sys2Proof.Machine.execOfmax o s
  | .offma o => Sys2Proof.Machine.execOffma o s
  | .ored o => Sys2Proof.Machine.execOred o s
  | .ofaddNt o => Sys2Proof.Machine.execOfaddNt o s
  | .ofminNt o => Sys2Proof.Machine.execOfminNt o s
  | .ofmaxNt o => Sys2Proof.Machine.execOfmaxNt o s
  | .offmaNt o => Sys2Proof.Machine.execOffmaNt o s
  | .oredNt o => Sys2Proof.Machine.execOredNt o s
  | .ocmt o => Sys2Proof.Machine.execOcmt o s
  | .oabn o => Sys2Proof.Machine.execOabn o s
  | .barv o => Sys2Proof.Machine.execBarv o s
  | .bwait o => Sys2Proof.Machine.execBwait o s
  | .btest o => Sys2Proof.Machine.execBtest o s
  | .grpq o => Sys2Proof.Machine.execGrpq o s
  | .send o => Sys2Proof.Machine.execSend o s
  | .sendt o => Sys2Proof.Machine.execSendt o s
  | .recv o => Sys2Proof.Machine.execRecv o s
  | .recvt o => Sys2Proof.Machine.execRecvt o s
  | .deleg o => Sys2Proof.Machine.execDeleg o s
  | .delegt o => Sys2Proof.Machine.execDelegt o s
  | .dret o => Sys2Proof.Machine.execDret o s
  | .rpt o => Sys2Proof.Machine.execRpt o s
  | .gslot o => Sys2Proof.Machine.execGslot o s
  | .gset o => Sys2Proof.Machine.execGset o s
  | .ecmd o => Sys2Proof.Machine.execEcmd o s
  | .vetchRun o => Sys2Proof.Machine.execVetchRun o s
  | .vetchStop o => Sys2Proof.Machine.execVetchStop o s
  | .ecmdMatrix o => Sys2Proof.Machine.execEcmdMatrix o s
  | .mcap o => Sys2Proof.Machine.execMcap o s
  | .mfmt o => Sys2Proof.Machine.execMfmt o s
  | .mldb o => Sys2Proof.Machine.execMldb o s
  | .mrow o => Sys2Proof.Machine.execMrow o s
  | .mnz o => Sys2Proof.Machine.execMnz o s
  | .mclr o => Sys2Proof.Machine.execMclr o s
  | .mrd o => Sys2Proof.Machine.execMrd o s
  | .msave o => Sys2Proof.Machine.execMsave o s
  | .mrest o => Sys2Proof.Machine.execMrest o s
  | .mwait o => Sys2Proof.Machine.execMwait o s
  | .ecomb o => Sys2Proof.Machine.execEcomb o s
  | .eact o => Sys2Proof.Machine.execEact o s
  | .dqpush o => Sys2Proof.Machine.execDqpush o s
  | .dqpop o => Sys2Proof.Machine.execDqpop o s
  | .dqsplit o => Sys2Proof.Machine.execDqsplit o s
  | .dqsteal o => Sys2Proof.Machine.execDqsteal o s
  | .amsg o => Sys2Proof.Machine.execAmsg o s
  | .gath o => Sys2Proof.Machine.execGath o s
  | .scat o => Sys2Proof.Machine.execScat o s
  | .ijob o => Sys2Proof.Machine.execIjob o s
  | .bcall o => Sys2Proof.Machine.execBcall o s
  | .hret o => Sys2Proof.Machine.execHret o s
  | .hrow o => Sys2Proof.Machine.execHrow o s
  | .hwr o => Sys2Proof.Machine.execHwr o s
  | .trap o => Sys2Proof.Machine.execTrap o s
  | .eret o => Sys2Proof.Machine.execEret o s
  | .sysr o => Sys2Proof.Machine.execSysr o s
  | .sysw o => Sys2Proof.Machine.execSysw o s
  | .yieldT o => Sys2Proof.Machine.execYieldT o s
  | .drain o => Sys2Proof.Machine.execDrain o s
  | .sfqpop o => Sys2Proof.Machine.execSfqpop o s
  | .kill o => Sys2Proof.Machine.execKill o s
  | .tlbinv o => Sys2Proof.Machine.execTlbinv o s
  | .tlbsync o => Sys2Proof.Machine.execTlbsync o s
  | .vabort o => Sys2Proof.Machine.execVabort o s
  | .wfe o => Sys2Proof.Machine.execWfe o s
  | .issueCycle core => Sys2Proof.Machine.execIssueCycle core s
  | .fetchParityRefetch core line => Sys2Proof.Machine.execFetchParityRefetch core line s
  | .longResultArrival task op => Sys2Proof.Machine.execLongResultArrival task op s
  | .offerReply task op => Sys2Proof.Machine.execOfferReply task op s
  | .parityReplay task reg => Sys2Proof.Machine.execParityReplay task reg s
  | .storeResolve task store => Sys2Proof.Machine.execStoreResolve task store s
  | .ageLimitExpiry core => Sys2Proof.Machine.execAgeLimitExpiry core s
  | .footprintFill task => Sys2Proof.Machine.execFootprintFill task s
  | .taskDispatch die => Sys2Proof.Machine.execTaskDispatch die s
  | .actorMessageArrival task op => Sys2Proof.Machine.execActorMessageArrival task op s
  | .heldDeliveryRetry launch actor fifo => Sys2Proof.Machine.execHeldDeliveryRetry launch actor fifo s
  | .actorSwapOut launch actor => Sys2Proof.Machine.execActorSwapOut launch actor s
  | .actorSwapIn launch actor => Sys2Proof.Machine.execActorSwapIn launch actor s
  | .delegationRequest core => Sys2Proof.Machine.execDelegationRequest core s
  | .slotAdvertisement die => Sys2Proof.Machine.execSlotAdvertisement die s
  | .teamMigration die launch team => Sys2Proof.Machine.execTeamMigration die launch team s
  | .teamAccept die => Sys2Proof.Machine.execTeamAccept die s
  | .launchCompletion launch => Sys2Proof.Machine.execLaunchCompletion launch s
  | .completionFlush launch => Sys2Proof.Machine.execCompletionFlush launch s
  | .pageRecall page => Sys2Proof.Machine.execPageRecall page s
  | .rdcWriteThrough die line => Sys2Proof.Machine.execRdcWriteThrough die line s
  | .ldfWake task op => Sys2Proof.Machine.execLdfWake task op s
  | .ldfRepoll task op => Sys2Proof.Machine.execLdfRepoll task op s
  | .copyCompletion core copy => Sys2Proof.Machine.execCopyCompletion core copy s
  | .guardGrant object => Sys2Proof.Machine.execGuardGrant object s
  | .leaseExpiry line => Sys2Proof.Machine.execLeaseExpiry line s
  | .sealNotice task => Sys2Proof.Machine.execSealNotice task s
  | .handlerActivation core => Sys2Proof.Machine.execHandlerActivation core s
  | .handlerOverrun core => Sys2Proof.Machine.execHandlerOverrun core s
  | .debugHalt core tid => Sys2Proof.Machine.execDebugHalt core tid s
  | .debugStep core tid => Sys2Proof.Machine.execDebugStep core tid s
  | .evtset core => Sys2Proof.Machine.execEvtset core s
  | .wfeTimeout task => Sys2Proof.Machine.execWfeTimeout task s
  | .killComplete core => Sys2Proof.Machine.execKillComplete core s
  | .errorRetry error lasting => Sys2Proof.Machine.execErrorRetry error lasting s
  | .matrixCommandArrival core => Sys2Proof.Machine.execMatrixCommandArrival core s
  | .slabFullWait core => Sys2Proof.Machine.execSlabFullWait core s
  | .rowClose core => Sys2Proof.Machine.execRowClose core s
  | .spillReplay core => Sys2Proof.Machine.execSpillReplay core s
  | .hardwareSave core => Sys2Proof.Machine.execHardwareSave core s
  | .hardwareRestore core => Sys2Proof.Machine.execHardwareRestore core s
  | .mwaitQuery task => Sys2Proof.Machine.execMwaitQuery task s
  | .engineTimeout core => Sys2Proof.Machine.execEngineTimeout core s
  | .macroParity core cim second => Sys2Proof.Machine.execMacroParity core cim second s
  | .roundStart cluster => Sys2Proof.Machine.execRoundStart cluster s
  | .roundEnd cluster => Sys2Proof.Machine.execRoundEnd cluster s
  | .setEnd cluster => Sys2Proof.Machine.execSetEnd cluster s
  | .engineFault cluster => Sys2Proof.Machine.execEngineFault cluster s
  | .indexElement cluster job => Sys2Proof.Machine.execIndexElement cluster job s
  | .sorrelHandler unit => Sys2Proof.Machine.execSorrelHandler unit s
  | .hBound unit => Sys2Proof.Machine.execHBound unit s
  | .tempRefresh die low high => Sys2Proof.Machine.execTempRefresh die low high s
  | .doorbell who queue value => Sys2Proof.Machine.execDoorbell who queue value s
  | .recordConsume queue => Sys2Proof.Machine.execRecordConsume queue s
  | .launchFormation launch => Sys2Proof.Machine.execLaunchFormation launch s
  | .dependenceMet launch => Sys2Proof.Machine.execDependenceMet launch s
  | .abort launch => Sys2Proof.Machine.execAbort launch s
  | .pageWalk core root va => Sys2Proof.Machine.execPageWalk core root va s
  | .storageService engine service => Sys2Proof.Machine.execStorageService engine service s
  | .nvmeCompletion engine service status => Sys2Proof.Machine.execNvmeCompletion engine service status s
  | .storageTimeout engine service => Sys2Proof.Machine.execStorageTimeout engine service s
  | .evictionRun engine => Sys2Proof.Machine.execEvictionRun engine s
  | .notresDecline task op => Sys2Proof.Machine.execNotresDecline task op s
  | .ownershipWrite who offset width value => Sys2Proof.Machine.execOwnershipWrite who offset width value s
  | .keyWrite who partition word value => Sys2Proof.Machine.execKeyWrite who partition word value s
  | .scrubComplete channel => Sys2Proof.Machine.execScrubComplete channel s
  | .hostAcq block object => Sys2Proof.Machine.execHostAcq block object s
  | .hostAcqs block object => Sys2Proof.Machine.execHostAcqs block object s
  | .hostRls block object => Sys2Proof.Machine.execHostRls block object s
  | .hostTlbinv block partition command => Sys2Proof.Machine.execHostTlbinv block partition command s
  | .fullStart => Sys2Proof.Machine.execFullStart s
  | .mlayout die value => Sys2Proof.Machine.execMlayout die value s
  | .dieJoin die trained => Sys2Proof.Machine.execDieJoin die trained s
  | .cowslipVerify => Sys2Proof.Machine.execCowslipVerify s
  | .recoveryImage image => Sys2Proof.Machine.execRecoveryImage image s
  | .throttleStepDown => Sys2Proof.Machine.execThrottleStepDown s
  | .throttleStepUp => Sys2Proof.Machine.execThrottleStepUp s
  | .thermalTrip => Sys2Proof.Machine.execThermalTrip s
  | .pcieInbound port bus request => Sys2Proof.Machine.execPcieInbound port bus request s
  | .peroldInbound peer partition request => Sys2Proof.Machine.execPeroldInbound peer partition request s
  | .registerWrite who offset width value => Sys2Proof.Machine.execRegisterWrite who offset width value s
  | .tlbinvCompletion operation => Sys2Proof.Machine.execTlbinvCompletion operation s
  | .yarrowHartAccess hart access => Sys2Proof.Machine.execYarrowHartAccess hart access s
  | .pcieCompletionTimeout task op => Sys2Proof.Machine.execPcieCompletionTimeout task op s

end Sys2Proof.Machine
end

