-- ==== Sys2Proof/Machine/Events.lean ====
section
/-! DEFINITION. What happens next when the agenda is empty (log entry 3): the first event that would change the state, in a fixed
order; else an issue; else a cycle passes. Events that come from outside the device, or that the specification leaves to
chance, happen only where the agenda names them. -/

namespace Sys2Proof.Machine

open Sys2Proof

/-! ### Candidates -/

/-- What may end or go on with a long op. -/
def LongOp.events (key : Nat) (l : LongOp) : List (State → Result) :=
  let first : List (State → Result) := match l.act with
    | .offer _ => [execOfferReply key l.op]
    | .ldf _ _ _ true => [execLdfWake key l.op, execLdfRepoll key l.op]
    | .sendt _ _ _ => [execActorMessageArrival key l.op]
    | .ecmd u off _ cmd false =>
      let o : OpBlock := { task := key, op := l.op, unit := u.toNat % 4096, offset := off }
      if cmd.isSome then [execEcmdMatrix o] else [execVetchStop o, execVetchRun o]
    | _ => []
  first ++ [execLongResultArrival key l.op]

/-- A long op has stood for the latency that this default gives it. -/
def LongOp.due (cycle : Nat) (l : LongOp) : Bool := l.since + 8 ≤ cycle

def Task.events (cycle key : Nat) (t : Task) : List (State → Result) :=
  (t.long.filter (LongOp.due cycle)).flatMap (LongOp.events key) ++ (t.stores.map fun x => execStoreResolve key x.op) ++
  (if t.sched.status = .queued then [execFootprintFill key] else []) ++
  (if t.sched.mquery.isSome then [execMwaitQuery key] else []) ++
  (match t.sched.wait with
    | some (.event _ (some _)) => [execWfeTimeout key]
    | _ => []) ++
  (if t.sched.sealSince.isSome then [execSealNotice key] else [])

def Core.events (n : Nat) (c : Core) : List (State → Result) :=
  c.copies.map (fun x => execCopyCompletion n x.op) ++ [execDelegationRequest n, execHandlerActivation n, execHandlerOverrun n] ++
  (if c.killing.isSome then [execKillComplete n] else []) ++
  (if c.outq.isEmpty then [] else [execMatrixCommandArrival n]) ++
  (if c.munit.tile.isSome || !c.munit.saved.isEmpty || !c.munit.queue.isEmpty then
    [execSlabFullWait n, execRowClose n, execSpillReplay n, execHardwareSave n, execHardwareRestore n] else []) ++
  [execEngineTimeout n]

def Launch.events (id : Nat) (l : Launch) : List (State → Result) :=
  [execLaunchFormation id, execDependenceMet id, execAbort id, execLaunchCompletion id, execCompletionFlush id] ++
  l.actors.flatMap fun a => execActorSwapIn id a.1 :: execActorSwapOut id a.1 :: (List.range a.2.ins.length).map fun f => execHeldDeliveryRetry id a.1 f

def Cluster.events (n : Nat) (c : Cluster) : List (State → Result) :=
  c.jobs.map (fun j => execIndexElement n j.op) ++
  (if c.vetch.isSome then [execEngineFault n, execRoundEnd n, execSetEnd n, execRoundStart n] else [])

def Teasel.events (n : Nat) (t : Teasel) : List (State → Result) :=
  t.services.flatMap (fun v => [execStorageService n v.id, execNvmeCompletion n v.id .ok]) ++ [execEvictionRun n] ++
  (match t.evict with
    | some x => [execNvmeCompletion n x.id .ok]
    | none => [])

/-- Teams that a die may offer to others. -/
def State.teamEvents (s : State) (die : Nat) : List (State → Result) :=
  if s.occupancy die ≤ (s.die die).qthr.toNat then []
  else s.launches.flatMap fun e => e.2.teams.map fun t => execTeamMigration die e.1 t.1

/-- Leased lines. -/
def State.leaseEvents (s : State) : List (State → Result) :=
  s.mem.decl.flatMap fun e => (e.2.entries.filter fun x => x.lease.isSome).map fun x => execLeaseExpiry (lineAt x.address)

def State.dieEvents (s : State) (die : Nat) : List (State → Result) :=
  [execTaskDispatch die, execTeamAccept die] ++ s.teamEvents die ++ [execSlotAdvertisement die]

/-- The events that may happen now, in the order in which they are tried. -/
def State.candidates (s : State) : List (State → Result) :=
  [execThrottleStepDown, execThrottleStepUp] ++
  (if s.dev.stage = 2 then [] else execCowslipVerify :: (List.range 4).map fun d => execDieJoin d true) ++
  s.allTasks.flatMap (fun e => e.2.events s.dev.cycle e.1) ++
  s.cores.flatMap (fun e => e.2.events e.1) ++
  s.mem.guards.map (fun e => execGuardGrant e.1) ++ s.leaseEvents ++
  s.launches.flatMap (fun e => e.2.events e.1) ++
  ((s.dev.queues.filter fun e => e.2.en && e.2.head != e.2.tail).map fun e => execRecordConsume e.1) ++
  (if s.launches.isEmpty then [] else (List.range 4).flatMap s.dieEvents) ++
  s.clusters.flatMap (fun e => e.2.events e.1) ++
  ((s.sorrel.filter fun e => e.2.running.isSome || !e.2.queue.isEmpty).flatMap fun e => [execHBound e.1, execSorrelHandler e.1]) ++
  s.teasel.flatMap (fun e => e.2.events e.1) ++
  s.tlbinvs.map (fun v => execTlbinvCompletion v.id) ++ (s.dev.unacked.map fun k s => .next (s.farAck k.1 k.2)) ++
  ((s.dev.chan.filter fun e => e.2.scrub.isSome).map fun e => execScrubComplete e.1)

/-! ### The choice -/

/-- The state that an event leads to, where it changes anything. -/
def State.stirred (s : State) (f : State → Result) : Option State :=
  match f s with
  | .next s' => if s' = s then none else some s'
  | _ => none

/-- A core that can issue, or fill a slot, in this cycle. -/
def State.issuer (s : State) : Option Nat :=
  ((s.allTasks.map fun e => e.2.sched.core).eraseDups).find? fun c =>
    c < 4096 && !(s.core c).withdrawn && (s.core c).issuedAt != some s.dev.cycle && s.dev.stage == 2 &&
    ((s.chooseSlot c).isSome || (s.agesNow c).isSome || ((s.freeSlot c).isSome && (s.runChoice c).isSome))

/-! ### Acts that are no rows of the table -/

/-- An instruction cache gives up a line (R151). -/
def State.icEvict (s : State) (core line : Nat) : State := s.onMem fun m => { m with ic := m.ic.erase (icKey core line) }

/-- The parity of a 32-bit word of a task's frame fails from now on: a word of a line that the register cache holds
(spec/05_scalar.md R88). -/
def State.flipWord (s : State) (key w : Nat) : State :=
  s.onTask key fun t => if w < 768 && t.cached.getLsbD (w / 16) && !t.bad.contains w then { t with bad := w :: t.bad } else t

/-- Cycles pass. -/
def State.pass (s : State) (cycles : Nat) : State := s.onDev fun d => { d with cycle := d.cycle + cycles }

/-! ### Running what an issue chose -/

/-- A write sets the parity of what it writes (spec/05_scalar.md R88): words beyond the registers that an instruction has changed are
good again. -/
def Task.healed (t before : Task) : Task :=
  let word (t : Task) (w : Nat) : Nat := (t.lineWords (w / 16)).getD (w / 2 % 8) 0
  if t.bad.isEmpty then t else { t with bad := t.bad.filter fun w => w < 665 || word t w == word before w }

/-- What going through means for the task: a breakpoint that it was resumed from is behind it (spec/04_encoding_notes.md R82), and
earlier stores of the stream are one instruction further away (spec/13_traps.md R226). `s` is the state before. -/
def State.passOne (s s' : State) : State :=
  let iter := s.t.iteration
  let s' := s'.onT fun t => (t.passBreak s.t.pc iter).healed s.t
  if iter.isNone then s'.countIssue s.ops else s'

/-- The waiter of a page service has reissued the access that the service suspended: the service is over for it (R346). A new
suspension leaves its own mark. `s` is the state before. -/
def State.reissued (s s' : State) : State :=
  if s.t.reissues && s'.t.sched.heldAt.isNone then
    (s'.leaveService (.task s.cur) fun v => !v.open_ && v.waiters.contains (.task s.cur)).onTask s.cur fun t =>
      if t.sched.status = .suspended then t else { t with sched := { t.sched with metAt := none, storage := none } }
  else s'

/-- One instruction of the task in focus. -/
def runOne (i : Instr) (s : State) : Result :=
  match exec i s with
  | .next s' => .next (s.reissued (if s'.t.went then s.passOne s' else s'))
  | r => r

/-- The instructions that the last issue chose: a pair's second runs if its first went through, and reads what stood before the
first (spec/03_encoding.md R70). -/
def runPlan (v : View) : List Instr → State → Result
  | [], s => .next s
  | i :: is, s =>
    match runOne i s with
    | .next s' =>
      if is.isEmpty || !s'.t.went then .next s' else runPlan v is { s' with t := { s'.t with view := some v } }
    | r => r

/-- Run the plan. -/
def State.runPlanned (s : State) : Result := runPlan s.t.toView s.plan { s with plan := [] }

/-- While a sequence goes on, the stream issues beside it in the same cycle (spec/07_arithmetic.md R144, R145). -/
def State.besides (s : State) : Bool :=
  s.t.went && s.t.seq.act && s.t.sched.debug != some .stepped

/-- The issue of the stream beside the sequencer's; that it must wait is no wait of the task. -/
def State.streamBeside (s : State) : Result :=
  let free (s : State) : State := s.onT fun t => { t with sched := { t.sched with heldAt := none } }
  match s.chooseStream.runPlanned with
  | .next s' => .next (free s')
  | r => r

/-- Run what was chosen, and end the issue. -/
def State.runChosen (s : State) : Result :=
  if s.plan.isEmpty then .next s
  else match s.runPlanned with
    | .next s' =>
      let s' := s'.seqEnd
      if s.t.seq.stream.isSome && s'.besides then match s'.streamBeside with
        | .next s' => .next s'.afterIssue
        | r => r
      else .next s'.afterIssue
    | r => r

/-- An act is over: it is counted, unless it was an issue that ended in a wait with its slot held, and what it sets going
happens. -/
def State.closeAct (s : State) (issue : Bool) : State :=
  let s := if issue && s.t.sched.heldAt == some s.evs then s else { s with evs := s.evs + 1 }
  ({ s with plan := [] } : State).settle.trip

/-- The act is an issue. -/
def Act.isIssue : Act → Bool
  | .ev (.issueCycle _) => true
  | _ => false

/-- Perform an act of the agenda. -/
def State.perform (s : State) (a : Act) : Result :=
  match a with
  | .ev i => match exec i s with
    | .next s => s.runChosen
    | r => r
  | .piece k op => .next (s.performPiece k op)
  | .pieceAt k op i => .next ((s.performPieceAt k op i).storePieceNow k op i)
  | .copyUnit core c => .next (s.copyUnit core c)
  | .copyPiece core c i => .next (s.copyPiece core c i)
  | .farAck k op => .next (s.farAck k op)
  | .heat n x => .next (s.heat n x)
  | .farFault k op c => .next (s.farFault k op c)
  | .evictL1 core line => .next (s.l1Drop core line)
  | .evictL2 line => .next (s.evictHome line)
  | .evictIc core line => .next (s.icEvict core line)
  | .flip k w => .next (s.flipWord k w)
  | .crowd slice n => .next (s.onMem fun m => { m with busy := m.busy.set 0 slice n })
  | .idle n => .next (s.pass n)

/-- What happens of itself when the agenda is empty; with it, whether it is an issue. -/
def State.ownAct (s : State) : Result × Bool :=
  match s.candidates.findSome? s.stirred with
  | some s => (s.runChosen, false)
  | none => match s.issuer with
    | some c => (s.perform (.ev (.issueCycle c)), true)
    | none => (.next (s.pass 1), false)

/-! ### Placing an instruction where the next step fetches -/

/-- The parity bits of a line whose slots are given (spec/03_encoding.md R51). -/
def lineOfSlot (w : Nat) : Line :=
  let parts := (List.range 15).map fun k => 2 ^ (1 + k) * parityOf 32 (if k < 3 then w / 2 ^ (32 * k) % 2 ^ 32 else 0)
  BitVec.ofNat 512 (parts.foldl (· + ·) 0 + w % 2 ^ 96 * 2 ^ 32)

/-- A task that holds slot 0 of core 0 and issues from code address 0. -/
def freshTask : Task :=
  { sched := { status := .issuing, slot := some 0, started := true, entered := true }, sys := { tid := 1 } }

/-- A translation of page 0 to physical page 0: valid, readable, writable, executable, for any task. -/
def freshTlb : Tlb := { root := 0, vpn := 0, level := 0, pte := 0xDF, pteAt := 0 }

/-- The state with an instruction word in memory at address 0, and a task on core 0 that issues it next. -/
def State.placeWord (s : State) (w : Nat) : State :=
  let s := s.homeWrite 0 (lineOfSlot w) allBytes
  let s := s.onCore 0 fun c => { c with tlb := [freshTlb], issuedAt := none }
  let s := s.onDev fun d => { d with stage := 2, stopped := false }
  let s := s.onMem fun m => { m with ic := m.ic.erase (icKey 0 0) }
  { s with t := freshTask, cur := 1, agenda := [.ev (.issueCycle 0)], plan := [] }

end Sys2Proof.Machine
end

