-- ==== Sys2Proof/Machine/Step.lean ====
section
/-! DEFINITION. One step of the machine: the next act of the agenda, or what happens next of itself, with the instructions that
an issue lets run. -/

namespace Sys2Proof.Machine

open Sys2Proof

/-- The next act of the agenda, or of the machine itself; with it, whether it is an issue. -/
def State.act (s : State) : Result × Bool :=
  match s.agenda with
  | a :: rest => (({ s with agenda := rest } : State).perform a, a.isIssue)
  | [] => s.ownAct

def step (s : State) : Host.Outcome State Fault Refusal :=
  if s.dev.stopped then .fault .clocksStopped
  else match s.act with
    | (.next s', issue) => .next (s'.closeAct issue)
    | (.fault f, _) => .fault f
    | (.refused r, _) => .refused r

/-- The state in which the next step fetches and runs the instruction word `w` (log entry 26). Words above the first 96 bits do
not exist in this instruction set. -/
def State.withFetchWord (s : State) (_nbits w : Nat) : State := s.placeWord w

end Sys2Proof.Machine
end

