-- ==== Sys2Proof/Laws/Coding.lean ====
section
/-! SUPPORT. The decoder reads from a word what the encoder put into it: field by field, then for each format, for every row of
the opcode map at once. -/

namespace Sys2Proof

set_option linter.unusedSimpArgs false

/-! ### Slices of words -/

theorem extract_hi {m n k l : Nat} (a : BitVec m) (b : BitVec n) (h : n ≤ k) :
    (a ++ b).extractLsb' k l = a.extractLsb' (k - n) l := by
  apply BitVec.eq_of_getLsbD_eq
  intro i hi
  simp only [BitVec.getLsbD_extractLsb', BitVec.getLsbD_append, hi, decide_true, Bool.true_and]
  rw [if_neg (by omega)]
  congr 1
  omega

theorem extract_lo {m n k l : Nat} (a : BitVec m) (b : BitVec n) (h : k + l ≤ n) :
    (a ++ b).extractLsb' k l = b.extractLsb' k l := by
  apply BitVec.eq_of_getLsbD_eq
  intro i hi
  simp only [BitVec.getLsbD_extractLsb', BitVec.getLsbD_append, hi, decide_true, Bool.true_and]
  rw [if_pos (by omega)]

theorem extract_all {n : Nat} (b : BitVec n) : b.extractLsb' 0 n = b := by
  apply BitVec.eq_of_getLsbD_eq
  intro i hi
  simp [hi]

theorem getLsbD_hi {m n k : Nat} (a : BitVec m) (b : BitVec n) (h : n ≤ k) : (a ++ b).getLsbD k = a.getLsbD (k - n) := by
  rw [BitVec.getLsbD_append, if_neg (by omega)]

theorem getLsbD_lo {m n k : Nat} (a : BitVec m) (b : BitVec n) (h : k < n) : (a ++ b).getLsbD k = b.getLsbD k := by
  rw [BitVec.getLsbD_append, if_pos h]

theorem getLsbD_boolBit (b : Bool) : (boolBit b).getLsbD 0 = b := by cases b <;> rfl

/-! ### Codes -/

theorem Reg.ofSpec_spec (x : Reg) : Reg.ofSpec x.spec = x := by
  cases x with
  | g n => revert n; decide
  | v n => revert n; decide
  | p n => revert n; decide
  | m n => revert n; decide
  | fmt n => revert n; decide

theorem Reg.spec_lt (x : Reg) : x.spec < 128 := by cases x <;> simp only [Reg.spec] <;> omega

theorem Reg.spec_inj {x y : Reg} (h : x.spec = y.spec) : x = y := by
  rw [← Reg.ofSpec_spec x, ← Reg.ofSpec_spec y, h]

theorem Ty.code_lt (t : Ty) : t.code < 32 := by cases t <;> simp only [Ty.code] <;> omega

theorem Ty.ofCode_code (t : Ty) : Ty.ofCode t.code = some t := by
  cases t with
  | nf k => revert k; decide
  | _ => rfl

theorem Clamp.ofCode_code (c : Clamp) : Clamp.ofCode c.code = some c := by cases c <;> rfl
theorem Combine.ofCode_code (c : Combine) : Combine.ofCode c.code = some c := by cases c <;> rfl
theorem Scope.ofCode_code (c : Scope) : Scope.ofCode c.code = some c := by cases c <;> rfl
theorem Hint.ofCode_code (c : Hint) : Hint.ofCode c.code = some c := by cases c <;> rfl
theorem Rnd.ofCode_code (c : Rnd) : Rnd.ofCode c.code = some c := by cases c <;> rfl
theorem Cond.ofCode_code (c : Cond) : Cond.ofCode c.code = some c := by cases c <;> rfl

theorem toNat_packReg (x : Reg) : (packReg x).toNat = x.spec := by
  rw [packReg, BitVec.toNat_ofNat, Nat.mod_eq_of_lt (Reg.spec_lt x)]

theorem toNat_clamp (c : Clamp) : (BitVec.ofNat 3 c.code).toNat = c.code := by cases c <;> rfl
theorem toNat_combine (c : Combine) : (BitVec.ofNat 3 c.code).toNat = c.code := by cases c <;> rfl
theorem toNat_scope (c : Scope) : (BitVec.ofNat 3 c.code).toNat = c.code := by cases c <;> rfl
theorem toNat_hint (c : Hint) : (BitVec.ofNat 3 c.code).toNat = c.code := by cases c <;> rfl

theorem toNat_packTy (t : Option Ty) : (packTy t).toNat = (t.map Ty.code).getD 0 := by
  cases t with
  | none => rfl
  | some t => simp only [packTy, Option.map_some, Option.getD_some, BitVec.toNat_ofNat]; exact Nat.mod_eq_of_lt (Ty.code_lt t)

/-! ### Fields of a packed word -/

/-- Slices of a packed word, for a word written out. -/
theorem bits_packReg (x : Reg) : Reg.ofSpec (packReg x).toNat = x := by rw [toNat_packReg, Reg.ofSpec_spec]

theorem toNat_fin4 (n : Fin 16) : Fin.ofNat 16 (BitVec.ofNat 4 n.val).toNat = n := by
  rw [BitVec.toNat_ofNat, Nat.mod_eq_of_lt n.isLt, Fin.ofNat_val_eq_self]

theorem toNat_fin3 (n : Fin 8) : Fin.ofNat 8 (BitVec.ofNat 3 n.val).toNat = n := by
  rw [BitVec.toNat_ofNat, Nat.mod_eq_of_lt n.isLt, Fin.ofNat_val_eq_self]

/-- A type field reads as the type it was made of. -/
theorem ty_packed {r : Row} {t : Option Ty} (h : tyOk r t = true) :
    (if r.types.isEmpty then none else Ty.ofCode ((t.map Ty.code).getD 0)) = t ∧
      (!r.types.isEmpty || (t.map Ty.code).getD 0 == 0) = true := by
  cases t with
  | none =>
    have h' : r.types.isEmpty = true := h
    simp [h']
  | some t =>
    have h' : r.types.contains t = true := h
    have : r.types.isEmpty = false := by
      cases hr : r.types with
      | nil => rw [hr] at h'; cases h'
      | cons _ _ => rfl
    simp [this, Ty.ofCode_code]

/-- What FN selects, read back. -/
theorem rndAt_coded {r : Row} {w : BitVec 96} {rnd : Rnd} {cond : Cond} (h : fnOk r.fn rnd cond = true)
    (e : bits w 78 4 = r.fn.code rnd cond) : rndAt r w = rnd := by
  rw [rndAt, e]
  cases hf : r.fn with
  | rnd => simp [Fn.code, Rnd.ofCode_code]
  | _ => simp [fnOk, hf] at h; exact h.1.symm

theorem condAt_coded {r : Row} {w : BitVec 96} {rnd : Rnd} {cond : Cond} (h : fnOk r.fn rnd cond = true)
    (e : bits w 78 4 = r.fn.code rnd cond) : condAt r w = cond := by
  rw [condAt, e]
  cases hf : r.fn with
  | cond n => simp [Fn.code, Cond.ofCode_code]
  | one n => simp [fnOk, hf] at h; exact h.2.symm
  | rnd => simp [fnOk, hf] at h; exact h.symm

/-- The fields of a head. -/
theorem head_sw (h : Head) (m f : Nat) : (packHead h m f).getLsbD 17 = h.sw := by
  simp (disch := omega) only [packHead, getLsbD_hi, Nat.reduceSub, getLsbD_boolBit]

theorem head_gp (h : Head) (m f : Nat) : Fin.ofNat 16 ((packHead h m f).extractLsb' 13 4).toNat = h.gp := by
  simp (disch := omega) only [packHead, extract_hi, extract_lo, Nat.reduceSub, extract_all, toNat_fin4]

theorem head_gi (h : Head) (m f : Nat) : (packHead h m f).getLsbD 12 = h.gi := by
  simp (disch := omega) only [packHead, getLsbD_hi, getLsbD_lo, Nat.reduceSub, getLsbD_boolBit]

theorem head_maj (h : Head) {m : Nat} (f : Nat) (hm : m < 256) : ((packHead h m f).extractLsb' 4 8).toNat = m := by
  simp (disch := omega) only [packHead, extract_hi, extract_lo, Nat.reduceSub, extract_all, BitVec.toNat_ofNat]
  exact Nat.mod_eq_of_lt hm

theorem head_fn (h : Head) (m : Nat) {f : Nat} (hf : f < 16) : ((packHead h m f).extractLsb' 0 4).toNat = f := by
  simp (disch := omega) only [packHead, extract_lo, extract_all, BitVec.toNat_ofNat]
  exact Nat.mod_eq_of_lt hf

/-- The fields of a source. -/
theorem src_reg (x : Src) : Reg.ofSpec ((packSrc x).extractLsb' 2 7).toNat = x.reg := by
  simp (disch := omega) only [packSrc, extract_hi, Nat.reduceSub, extract_all, bits_packReg]

theorem src_neg (x : Src) : (packSrc x).getLsbD 1 = x.neg := by
  simp (disch := omega) only [packSrc, getLsbD_hi, getLsbD_lo, Nat.reduceSub, getLsbD_boolBit]

theorem src_abs (x : Src) : (packSrc x).getLsbD 0 = x.abs := by
  simp (disch := omega) only [packSrc, getLsbD_lo, getLsbD_boolBit]

/-! ### Each format -/

/-- What the map gives for a major and a function is used by a word that carries them. -/
structure Coded (r : Row) (fn : Nat) (mk : Mk) : Prop where
  row : opcode r.maj fn = some (r, mk)
  maj : r.maj < 256
  fn : fn < 16

theorem decode_packA {r : Row} {mk : OpA → Instr} {o : OpA} (hc : Coded r (r.fn.code o.rnd o.cond) (.a mk))
    (hw : (Flds.a o).wf r = true) : decode ((Flds.a o).pack r) = .ok (mk o) := by
  simp only [Flds.wf, Bool.and_eq_true] at hw
  obtain ⟨⟨hfn, h5⟩, h6⟩ := hw
  have hty : tyOk r o.ty = true := by simp only [checkA6, Bool.and_eq_true] at h6; exact h6.1.1.1.1.1
  obtain ⟨ht1, ht2⟩ := ty_packed hty
  generalize hx : (Flds.a o).pack r = w
  have e1 : bit w 95 = o.hd.sw := by subst hx; simp (disch := omega) only [bits, bit, Flds.pack, extract_hi, extract_lo, Nat.reduceSub, extract_all,
      getLsbD_hi, getLsbD_lo, head_sw, head_gp, head_gi, src_reg, src_neg, src_abs, bits_packReg, toNat_fin4, toNat_fin3]
  have e2 : Fin.ofNat 16 (bits w 91 4) = o.hd.gp := by subst hx; simp (disch := omega) only [bits, bit, Flds.pack, extract_hi, extract_lo, Nat.reduceSub, extract_all,
      getLsbD_hi, getLsbD_lo, head_sw, head_gp, head_gi, src_reg, src_neg, src_abs, bits_packReg, toNat_fin4, toNat_fin3]
  have e3 : bit w 90 = o.hd.gi := by subst hx; simp (disch := omega) only [bits, bit, Flds.pack, extract_hi, extract_lo, Nat.reduceSub, extract_all,
      getLsbD_hi, getLsbD_lo, head_sw, head_gp, head_gi, src_reg, src_neg, src_abs, bits_packReg, toNat_fin4, toNat_fin3]
  have e4 : bits w 82 8 = r.maj := by subst hx; simp (disch := first | omega | exact hc.maj | exact hc.fn) only [bits, Flds.pack, extract_hi, Nat.reduceSub,
      head_maj, head_fn]
  have e5 : bits w 78 4 = r.fn.code o.rnd o.cond := by subst hx; simp (disch := first | omega | exact hc.maj | exact hc.fn) only [bits, Flds.pack, extract_hi, Nat.reduceSub,
      head_maj, head_fn]
  have eh : unpackHead w = o.hd := by simp only [unpackHead, e1, e2, e3]
  have e6 : regAt w 71 = o.dst := by simp only [regAt]; subst hx; simp (disch := omega) only [bits, bit, Flds.pack, extract_hi, extract_lo, Nat.reduceSub, extract_all,
      getLsbD_hi, getLsbD_lo, head_sw, head_gp, head_gi, src_reg, src_neg, src_abs, bits_packReg, toNat_fin4, toNat_fin3]
  have e7 : bits w 68 3 = o.clamp.code := by subst hx; simp (disch := omega) only [bits, bit, Flds.pack, extract_hi, extract_lo, Nat.reduceSub, extract_all,
      getLsbD_hi, getLsbD_lo, head_sw, head_gp, head_gi, src_reg, src_neg, src_abs, bits_packReg, toNat_fin4, toNat_fin3]; exact toNat_clamp _
  have e8 : w.extractLsb' 64 4 = o.scale := by subst hx; simp (disch := omega) only [bits, bit, Flds.pack, extract_hi, extract_lo, Nat.reduceSub, extract_all,
      getLsbD_hi, getLsbD_lo, head_sw, head_gp, head_gi, src_reg, src_neg, src_abs, bits_packReg, toNat_fin4, toNat_fin3]
  have e9 : srcA w = o.a := by simp only [srcA, regAt]; subst hx; simp (disch := omega) only [bits, bit, Flds.pack, extract_hi, extract_lo, Nat.reduceSub, extract_all,
      getLsbD_hi, getLsbD_lo, head_sw, head_gp, head_gi, src_reg, src_neg, src_abs, bits_packReg, toNat_fin4, toNat_fin3]
  have e10 : srcB w = o.b := by simp only [srcB, regAt]; subst hx; simp (disch := omega) only [bits, bit, Flds.pack, extract_hi, extract_lo, Nat.reduceSub, extract_all,
      getLsbD_hi, getLsbD_lo, head_sw, head_gp, head_gi, src_reg, src_neg, src_abs, bits_packReg, toNat_fin4, toNat_fin3]
  have e11 : srcC w = o.c := by simp only [srcC, regAt]; subst hx; simp (disch := omega) only [bits, bit, Flds.pack, extract_hi, extract_lo, Nat.reduceSub, extract_all,
      getLsbD_hi, getLsbD_lo, head_sw, head_gp, head_gi, src_reg, src_neg, src_abs, bits_packReg, toNat_fin4, toNat_fin3]
  have e12 : bits w 32 5 = (o.ty.map Ty.code).getD 0 := by subst hx; simp (disch := omega) only [bits, bit, Flds.pack, extract_hi, extract_lo, Nat.reduceSub, extract_all,
      getLsbD_hi, getLsbD_lo, head_sw, head_gp, head_gi, src_reg, src_neg, src_abs, bits_packReg, toNat_fin4, toNat_fin3]; exact toNat_packTy _
  have e13 : w.extractLsb' 0 32 = o.imm := by subst hx; simp (disch := omega) only [bits, bit, Flds.pack, extract_hi, extract_lo, Nat.reduceSub, extract_all,
      getLsbD_hi, getLsbD_lo, head_sw, head_gp, head_gi, src_reg, src_neg, src_abs, bits_packReg, toNat_fin4, toNat_fin3]
  have e14 : rndAt r w = o.rnd := rndAt_coded hfn e5
  have e15 : condAt r w = o.cond := condAt_coded hfn e5
  have hu : unpackA r w = some o := by
    simp only [unpackA, e7, Clamp.ofCode_code, Option.map_some, eh, e6, e8, e9, e10, e11, tyAt, e12, ht1, e13, e14, e15]
  simp only [decode, e4, e5, hc.row, hu, e12, ht2, accept, h5, h6]
  rfl

theorem decode_packP {r : Row} {mk : OpP → Instr} {o : OpP} (hc : Coded r (r.fn.code .frmode o.cond) (.p mk))
    (hw : (Flds.p o).wf r = true) : decode ((Flds.p o).pack r) = .ok (mk o) := by
  simp only [Flds.wf, Bool.and_eq_true] at hw
  obtain ⟨⟨hfn, h5⟩, h6⟩ := hw
  have hty : tyOk r o.ty = true := by simp only [checkP6, Bool.and_eq_true] at h6; exact h6.1.1.1
  obtain ⟨ht1, ht2⟩ := ty_packed hty
  generalize hx : (Flds.p o).pack r = w
  have e1 : bit w 95 = o.hd.sw := by subst hx; simp (disch := omega) only [bits, bit, Flds.pack, extract_hi, extract_lo, Nat.reduceSub, extract_all,
      getLsbD_hi, getLsbD_lo, head_sw, head_gp, head_gi, src_reg, src_neg, src_abs, bits_packReg, toNat_fin4, toNat_fin3]
  have e2 : Fin.ofNat 16 (bits w 91 4) = o.hd.gp := by subst hx; simp (disch := omega) only [bits, bit, Flds.pack, extract_hi, extract_lo, Nat.reduceSub, extract_all,
      getLsbD_hi, getLsbD_lo, head_sw, head_gp, head_gi, src_reg, src_neg, src_abs, bits_packReg, toNat_fin4, toNat_fin3]
  have e3 : bit w 90 = o.hd.gi := by subst hx; simp (disch := omega) only [bits, bit, Flds.pack, extract_hi, extract_lo, Nat.reduceSub, extract_all,
      getLsbD_hi, getLsbD_lo, head_sw, head_gp, head_gi, src_reg, src_neg, src_abs, bits_packReg, toNat_fin4, toNat_fin3]
  have e4 : bits w 82 8 = r.maj := by subst hx; simp (disch := first | omega | exact hc.maj | exact hc.fn) only [bits, Flds.pack, extract_hi, Nat.reduceSub,
      head_maj, head_fn]
  have e5 : bits w 78 4 = r.fn.code .frmode o.cond := by subst hx; simp (disch := first | omega | exact hc.maj | exact hc.fn) only [bits, Flds.pack, extract_hi, Nat.reduceSub,
      head_maj, head_fn]
  have eh : unpackHead w = o.hd := by simp only [unpackHead, e1, e2, e3]
  have e6 : regAt w 71 = o.p1 := by simp only [regAt]; subst hx; simp (disch := omega) only [bits, bit, Flds.pack, extract_hi, extract_lo, Nat.reduceSub, extract_all,
      getLsbD_hi, getLsbD_lo, head_sw, head_gp, head_gi, src_reg, src_neg, src_abs, bits_packReg, toNat_fin4, toNat_fin3]
  have e7 : bits w 68 3 = o.comb.code := by subst hx; simp (disch := omega) only [bits, bit, Flds.pack, extract_hi, extract_lo, Nat.reduceSub, extract_all,
      getLsbD_hi, getLsbD_lo, head_sw, head_gp, head_gi, src_reg, src_neg, src_abs, bits_packReg, toNat_fin4, toNat_fin3]; exact toNat_combine _
  have e8 : Fin.ofNat 16 (bits w 64 4) = o.p2 := by subst hx; simp (disch := omega) only [bits, bit, Flds.pack, extract_hi, extract_lo, Nat.reduceSub, extract_all,
      getLsbD_hi, getLsbD_lo, head_sw, head_gp, head_gi, src_reg, src_neg, src_abs, bits_packReg, toNat_fin4, toNat_fin3]
  have e9 : srcA w = o.a := by simp only [srcA, regAt]; subst hx; simp (disch := omega) only [bits, bit, Flds.pack, extract_hi, extract_lo, Nat.reduceSub, extract_all,
      getLsbD_hi, getLsbD_lo, head_sw, head_gp, head_gi, src_reg, src_neg, src_abs, bits_packReg, toNat_fin4, toNat_fin3]
  have e10 : srcB w = o.b := by simp only [srcB, regAt]; subst hx; simp (disch := omega) only [bits, bit, Flds.pack, extract_hi, extract_lo, Nat.reduceSub, extract_all,
      getLsbD_hi, getLsbD_lo, head_sw, head_gp, head_gi, src_reg, src_neg, src_abs, bits_packReg, toNat_fin4, toNat_fin3]
  have e11 : bits w 37 9 = 0 := by subst hx; simp (disch := omega) only [bits, bit, Flds.pack, extract_hi, extract_lo, Nat.reduceSub, extract_all,
      getLsbD_hi, getLsbD_lo, head_sw, head_gp, head_gi, src_reg, src_neg, src_abs, bits_packReg, toNat_fin4, toNat_fin3]; rfl
  have e12 : bits w 32 5 = (o.ty.map Ty.code).getD 0 := by subst hx; simp (disch := omega) only [bits, bit, Flds.pack, extract_hi, extract_lo, Nat.reduceSub, extract_all,
      getLsbD_hi, getLsbD_lo, head_sw, head_gp, head_gi, src_reg, src_neg, src_abs, bits_packReg, toNat_fin4, toNat_fin3]; exact toNat_packTy _
  have e13 : w.extractLsb' 0 32 = o.imm := by subst hx; simp (disch := omega) only [bits, bit, Flds.pack, extract_hi, extract_lo, Nat.reduceSub, extract_all,
      getLsbD_hi, getLsbD_lo, head_sw, head_gp, head_gi, src_reg, src_neg, src_abs, bits_packReg, toNat_fin4, toNat_fin3]
  have e15 : condAt r w = o.cond := condAt_coded hfn e5
  have hu : unpackP r w = some o := by
    simp only [unpackP, e7, Combine.ofCode_code, Option.map_some, eh, e6, e8, e9, e10, tyAt, e12, ht1, e13, e15]
  simp only [decode, e4, e5, hc.row, hu, e11, e12, ht2, accept, h5, h6]
  rfl

theorem decode_packM {r : Row} {mk : OpM → Instr} {o : OpM} (hc : Coded r (r.fn.code .frmode .eq) (.m mk))
    (hw : (Flds.m o).wf r = true) : decode ((Flds.m o).pack r) = .ok (mk o) := by
  simp only [Flds.wf, Bool.and_eq_true] at hw
  obtain ⟨h5, h6⟩ := hw
  have hty : tyOk r o.ty = true := by simp only [checkM6, Bool.and_eq_true] at h6; exact h6.1.1.1
  obtain ⟨ht1, ht2⟩ := ty_packed hty
  generalize hx : (Flds.m o).pack r = w
  have e1 : bit w 95 = o.hd.sw := by subst hx; simp (disch := omega) only [bits, bit, Flds.pack, extract_hi, extract_lo, Nat.reduceSub, extract_all,
      getLsbD_hi, getLsbD_lo, head_sw, head_gp, head_gi, src_reg, src_neg, src_abs, bits_packReg, toNat_fin4, toNat_fin3]
  have e2 : Fin.ofNat 16 (bits w 91 4) = o.hd.gp := by subst hx; simp (disch := omega) only [bits, bit, Flds.pack, extract_hi, extract_lo, Nat.reduceSub, extract_all,
      getLsbD_hi, getLsbD_lo, head_sw, head_gp, head_gi, src_reg, src_neg, src_abs, bits_packReg, toNat_fin4, toNat_fin3]
  have e3 : bit w 90 = o.hd.gi := by subst hx; simp (disch := omega) only [bits, bit, Flds.pack, extract_hi, extract_lo, Nat.reduceSub, extract_all,
      getLsbD_hi, getLsbD_lo, head_sw, head_gp, head_gi, src_reg, src_neg, src_abs, bits_packReg, toNat_fin4, toNat_fin3]
  have e4 : bits w 82 8 = r.maj := by subst hx; simp (disch := first | omega | exact hc.maj | exact hc.fn) only [bits, Flds.pack, extract_hi, Nat.reduceSub,
      head_maj, head_fn]
  have e5 : bits w 78 4 = r.fn.code .frmode .eq := by subst hx; simp (disch := first | omega | exact hc.maj | exact hc.fn) only [bits, Flds.pack, extract_hi, Nat.reduceSub,
      head_maj, head_fn]
  have eh : unpackHead w = o.hd := by simp only [unpackHead, e1, e2, e3]
  have e6 : regAt w 71 = o.data := by simp only [regAt]; subst hx; simp (disch := omega) only [bits, bit, Flds.pack, extract_hi, extract_lo, Nat.reduceSub, extract_all,
      getLsbD_hi, getLsbD_lo, head_sw, head_gp, head_gi, src_reg, src_neg, src_abs, bits_packReg, toNat_fin4, toNat_fin3]
  have e7 : bits w 68 3 = 0 := by subst hx; simp (disch := omega) only [bits, bit, Flds.pack, extract_hi, extract_lo, Nat.reduceSub, extract_all,
      getLsbD_hi, getLsbD_lo, head_sw, head_gp, head_gi, src_reg, src_neg, src_abs, bits_packReg, toNat_fin4, toNat_fin3]; rfl
  have e8 : Fin.ofNat 16 (bits w 64 4) = o.pidx := by subst hx; simp (disch := omega) only [bits, bit, Flds.pack, extract_hi, extract_lo, Nat.reduceSub, extract_all,
      getLsbD_hi, getLsbD_lo, head_sw, head_gp, head_gi, src_reg, src_neg, src_abs, bits_packReg, toNat_fin4, toNat_fin3]
  have e9 : regAt w 57 = o.base := by simp only [regAt]; subst hx; simp (disch := omega) only [bits, bit, Flds.pack, extract_hi, extract_lo, Nat.reduceSub, extract_all,
      getLsbD_hi, getLsbD_lo, head_sw, head_gp, head_gi, src_reg, src_neg, src_abs, bits_packReg, toNat_fin4, toNat_fin3]
  have e10 : bits w 55 2 = 0 := by subst hx; simp (disch := omega) only [bits, bit, Flds.pack, extract_hi, extract_lo, Nat.reduceSub, extract_all,
      getLsbD_hi, getLsbD_lo, head_sw, head_gp, head_gi, src_reg, src_neg, src_abs, bits_packReg, toNat_fin4, toNat_fin3]; rfl
  have e11 : regAt w 48 = o.index := by simp only [regAt]; subst hx; simp (disch := omega) only [bits, bit, Flds.pack, extract_hi, extract_lo, Nat.reduceSub, extract_all,
      getLsbD_hi, getLsbD_lo, head_sw, head_gp, head_gi, src_reg, src_neg, src_abs, bits_packReg, toNat_fin4, toNat_fin3]
  have e14 : bits w 46 2 = 0 := by subst hx; simp (disch := omega) only [bits, bit, Flds.pack, extract_hi, extract_lo, Nat.reduceSub, extract_all,
      getLsbD_hi, getLsbD_lo, head_sw, head_gp, head_gi, src_reg, src_neg, src_abs, bits_packReg, toNat_fin4, toNat_fin3]; rfl
  have e15 : Fin.ofNat 8 (bits w 43 3) = o.shift := by subst hx; simp (disch := omega) only [bits, bit, Flds.pack, extract_hi, extract_lo, Nat.reduceSub, extract_all,
      getLsbD_hi, getLsbD_lo, head_sw, head_gp, head_gi, src_reg, src_neg, src_abs, bits_packReg, toNat_fin4, toNat_fin3]
  have e16 : bits w 40 3 = o.scope.code := by subst hx; simp (disch := omega) only [bits, bit, Flds.pack, extract_hi, extract_lo, Nat.reduceSub, extract_all,
      getLsbD_hi, getLsbD_lo, head_sw, head_gp, head_gi, src_reg, src_neg, src_abs, bits_packReg, toNat_fin4, toNat_fin3]; exact toNat_scope _
  have e17 : bits w 37 3 = o.hint.code := by subst hx; simp (disch := omega) only [bits, bit, Flds.pack, extract_hi, extract_lo, Nat.reduceSub, extract_all,
      getLsbD_hi, getLsbD_lo, head_sw, head_gp, head_gi, src_reg, src_neg, src_abs, bits_packReg, toNat_fin4, toNat_fin3]; exact toNat_hint _
  have e12 : bits w 32 5 = (o.ty.map Ty.code).getD 0 := by subst hx; simp (disch := omega) only [bits, bit, Flds.pack, extract_hi, extract_lo, Nat.reduceSub, extract_all,
      getLsbD_hi, getLsbD_lo, head_sw, head_gp, head_gi, src_reg, src_neg, src_abs, bits_packReg, toNat_fin4, toNat_fin3]; exact toNat_packTy _
  have e13 : w.extractLsb' 0 32 = o.imm := by subst hx; simp (disch := omega) only [bits, bit, Flds.pack, extract_hi, extract_lo, Nat.reduceSub, extract_all,
      getLsbD_hi, getLsbD_lo, head_sw, head_gp, head_gi, src_reg, src_neg, src_abs, bits_packReg, toNat_fin4, toNat_fin3]
  have hu : unpackM r w = some o := by
    simp only [unpackM, e16, e17, Scope.ofCode_code, Hint.ofCode_code, eh, e6, e8, e9, e11, e15, tyAt, e12, ht1, e13]
  simp only [decode, e4, e5, hc.row, hu, e7, e10, e14, e12, ht2, accept, h5, h6]
  rfl

theorem decode_packB {r : Row} {mk : OpB → Instr} {o : OpB} (hc : Coded r (r.fn.code .frmode .eq) (.b mk))
    (hw : (Flds.b o).wf r = true) : decode ((Flds.b o).pack r) = .ok (mk o) := by
  simp only [Flds.wf, Bool.and_eq_true] at hw
  obtain ⟨h5, h6⟩ := hw
  generalize hx : (Flds.b o).pack r = w
  have e1 : bit w 95 = o.hd.sw := by subst hx; simp (disch := omega) only [bits, bit, Flds.pack, extract_hi, extract_lo, Nat.reduceSub, extract_all,
      getLsbD_hi, getLsbD_lo, head_sw, head_gp, head_gi, src_reg, src_neg, src_abs, bits_packReg, toNat_fin4, toNat_fin3]
  have e2 : Fin.ofNat 16 (bits w 91 4) = o.hd.gp := by subst hx; simp (disch := omega) only [bits, bit, Flds.pack, extract_hi, extract_lo, Nat.reduceSub, extract_all,
      getLsbD_hi, getLsbD_lo, head_sw, head_gp, head_gi, src_reg, src_neg, src_abs, bits_packReg, toNat_fin4, toNat_fin3]
  have e3 : bit w 90 = o.hd.gi := by subst hx; simp (disch := omega) only [bits, bit, Flds.pack, extract_hi, extract_lo, Nat.reduceSub, extract_all,
      getLsbD_hi, getLsbD_lo, head_sw, head_gp, head_gi, src_reg, src_neg, src_abs, bits_packReg, toNat_fin4, toNat_fin3]
  have e4 : bits w 82 8 = r.maj := by subst hx; simp (disch := first | omega | exact hc.maj | exact hc.fn) only [bits, Flds.pack, extract_hi, Nat.reduceSub,
      head_maj, head_fn]
  have e5 : bits w 78 4 = r.fn.code .frmode .eq := by subst hx; simp (disch := first | omega | exact hc.maj | exact hc.fn) only [bits, Flds.pack, extract_hi, Nat.reduceSub,
      head_maj, head_fn]
  have eh : unpackHead w = o.hd := by simp only [unpackHead, e1, e2, e3]
  have e6 : bits w 64 14 = 0 := by subst hx; simp (disch := omega) only [bits, bit, Flds.pack, extract_hi, extract_lo, Nat.reduceSub, extract_all,
      getLsbD_hi, getLsbD_lo, head_sw, head_gp, head_gi, src_reg, src_neg, src_abs, bits_packReg, toNat_fin4, toNat_fin3]; rfl
  have e7 : regAt w 57 = o.sa := by simp only [regAt]; subst hx; simp (disch := omega) only [bits, bit, Flds.pack, extract_hi, extract_lo, Nat.reduceSub, extract_all,
      getLsbD_hi, getLsbD_lo, head_sw, head_gp, head_gi, src_reg, src_neg, src_abs, bits_packReg, toNat_fin4, toNat_fin3]
  have e8 : bits w 32 25 = 0 := by subst hx; simp (disch := omega) only [bits, bit, Flds.pack, extract_hi, extract_lo, Nat.reduceSub, extract_all,
      getLsbD_hi, getLsbD_lo, head_sw, head_gp, head_gi, src_reg, src_neg, src_abs, bits_packReg, toNat_fin4, toNat_fin3]; rfl
  have e9 : w.extractLsb' 3 29 = o.off := by subst hx; simp (disch := omega) only [bits, bit, Flds.pack, extract_hi, extract_lo, Nat.reduceSub, extract_all,
      getLsbD_hi, getLsbD_lo, head_sw, head_gp, head_gi, src_reg, src_neg, src_abs, bits_packReg, toNat_fin4, toNat_fin3]
  have e10 : w.extractLsb' 0 3 = o.slot := by subst hx; simp (disch := omega) only [bits, bit, Flds.pack, extract_hi, extract_lo, Nat.reduceSub, extract_all,
      getLsbD_hi, getLsbD_lo, head_sw, head_gp, head_gi, src_reg, src_neg, src_abs, bits_packReg, toNat_fin4, toNat_fin3]
  have hu : unpackB w = o := by simp only [unpackB, eh, e7, e9, e10]
  simp only [decode, e4, e5, hc.row, hu, e6, e8, accept, h5, h6]
  rfl

theorem decode_packE {r : Row} {mk : OpE → Instr} {o : OpE} (hc : Coded r (r.fn.code .frmode .eq) (.e mk))
    (hw : (Flds.e o).wf r = true) : decode ((Flds.e o).pack r) = .ok (mk o) := by
  simp only [Flds.wf, Bool.and_eq_true] at hw
  obtain ⟨h5, h6⟩ := hw
  have hty : tyOk r o.ty = true := by simp only [checkE6, Bool.and_eq_true] at h6; exact h6.1.1.1.1.1
  obtain ⟨ht1, ht2⟩ := ty_packed hty
  generalize hx : (Flds.e o).pack r = w
  have e1 : bit w 95 = o.hd.sw := by subst hx; simp (disch := omega) only [bits, bit, Flds.pack, extract_hi, extract_lo, Nat.reduceSub, extract_all,
      getLsbD_hi, getLsbD_lo, head_sw, head_gp, head_gi, src_reg, src_neg, src_abs, bits_packReg, toNat_fin4, toNat_fin3]
  have e2 : Fin.ofNat 16 (bits w 91 4) = o.hd.gp := by subst hx; simp (disch := omega) only [bits, bit, Flds.pack, extract_hi, extract_lo, Nat.reduceSub, extract_all,
      getLsbD_hi, getLsbD_lo, head_sw, head_gp, head_gi, src_reg, src_neg, src_abs, bits_packReg, toNat_fin4, toNat_fin3]
  have e3 : bit w 90 = o.hd.gi := by subst hx; simp (disch := omega) only [bits, bit, Flds.pack, extract_hi, extract_lo, Nat.reduceSub, extract_all,
      getLsbD_hi, getLsbD_lo, head_sw, head_gp, head_gi, src_reg, src_neg, src_abs, bits_packReg, toNat_fin4, toNat_fin3]
  have e4 : bits w 82 8 = r.maj := by subst hx; simp (disch := first | omega | exact hc.maj | exact hc.fn) only [bits, Flds.pack, extract_hi, Nat.reduceSub,
      head_maj, head_fn]
  have e5 : bits w 78 4 = r.fn.code .frmode .eq := by subst hx; simp (disch := first | omega | exact hc.maj | exact hc.fn) only [bits, Flds.pack, extract_hi, Nat.reduceSub,
      head_maj, head_fn]
  have eh : unpackHead w = o.hd := by simp only [unpackHead, e1, e2, e3]
  have e6 : regAt w 71 = o.dst := by simp only [regAt]; subst hx; simp (disch := omega) only [bits, bit, Flds.pack, extract_hi, extract_lo, Nat.reduceSub, extract_all,
      getLsbD_hi, getLsbD_lo, head_sw, head_gp, head_gi, src_reg, src_neg, src_abs, bits_packReg, toNat_fin4, toNat_fin3]
  have e7 : bits w 68 3 = o.scope.code := by subst hx; simp (disch := omega) only [bits, bit, Flds.pack, extract_hi, extract_lo, Nat.reduceSub, extract_all,
      getLsbD_hi, getLsbD_lo, head_sw, head_gp, head_gi, src_reg, src_neg, src_abs, bits_packReg, toNat_fin4, toNat_fin3]; exact toNat_scope _
  have e8 : Fin.ofNat 16 (bits w 64 4) = o.pE := by subst hx; simp (disch := omega) only [bits, bit, Flds.pack, extract_hi, extract_lo, Nat.reduceSub, extract_all,
      getLsbD_hi, getLsbD_lo, head_sw, head_gp, head_gi, src_reg, src_neg, src_abs, bits_packReg, toNat_fin4, toNat_fin3]
  have e9 : regAt w 57 = o.a := by simp only [regAt]; subst hx; simp (disch := omega) only [bits, bit, Flds.pack, extract_hi, extract_lo, Nat.reduceSub, extract_all,
      getLsbD_hi, getLsbD_lo, head_sw, head_gp, head_gi, src_reg, src_neg, src_abs, bits_packReg, toNat_fin4, toNat_fin3]
  have e10 : srcB w = o.b := by simp only [srcB, regAt]; subst hx; simp (disch := omega) only [bits, bit, Flds.pack, extract_hi, extract_lo, Nat.reduceSub, extract_all,
      getLsbD_hi, getLsbD_lo, head_sw, head_gp, head_gi, src_reg, src_neg, src_abs, bits_packReg, toNat_fin4, toNat_fin3]
  have e11 : srcC w = o.c := by simp only [srcC, regAt]; subst hx; simp (disch := omega) only [bits, bit, Flds.pack, extract_hi, extract_lo, Nat.reduceSub, extract_all,
      getLsbD_hi, getLsbD_lo, head_sw, head_gp, head_gi, src_reg, src_neg, src_abs, bits_packReg, toNat_fin4, toNat_fin3]
  have e14 : bits w 55 2 = 0 := by subst hx; simp (disch := omega) only [bits, bit, Flds.pack, extract_hi, extract_lo, Nat.reduceSub, extract_all,
      getLsbD_hi, getLsbD_lo, head_sw, head_gp, head_gi, src_reg, src_neg, src_abs, bits_packReg, toNat_fin4, toNat_fin3]; rfl
  have e12 : bits w 32 5 = (o.ty.map Ty.code).getD 0 := by subst hx; simp (disch := omega) only [bits, bit, Flds.pack, extract_hi, extract_lo, Nat.reduceSub, extract_all,
      getLsbD_hi, getLsbD_lo, head_sw, head_gp, head_gi, src_reg, src_neg, src_abs, bits_packReg, toNat_fin4, toNat_fin3]; exact toNat_packTy _
  have e15 : Fin.ofNat 16 (bits w 28 4) = o.pD := by subst hx; simp (disch := omega) only [bits, bit, Flds.pack, extract_hi, extract_lo, Nat.reduceSub, extract_all,
      getLsbD_hi, getLsbD_lo, head_sw, head_gp, head_gi, src_reg, src_neg, src_abs, bits_packReg, toNat_fin4, toNat_fin3]
  have e13 : w.extractLsb' 0 28 = o.imm := by subst hx; simp (disch := omega) only [bits, bit, Flds.pack, extract_hi, extract_lo, Nat.reduceSub, extract_all,
      getLsbD_hi, getLsbD_lo, head_sw, head_gp, head_gi, src_reg, src_neg, src_abs, bits_packReg, toNat_fin4, toNat_fin3]
  have hu : unpackE r w = some o := by
    simp only [unpackE, e7, Scope.ofCode_code, Option.map_some, eh, e6, e8, e9, e10, e11, tyAt, e12, ht1, e15, e13]
  simp only [decode, e4, e5, hc.row, hu, e14, e12, ht2, accept, h5, h6]
  rfl

theorem decode_packS {r : Row} {mk : OpS → Instr} {o : OpS} (hc : Coded r (r.fn.code .frmode .eq) (.s mk))
    (hw : (Flds.s o).wf r = true) : decode ((Flds.s o).pack r) = .ok (mk o) := by
  simp only [Flds.wf, Bool.and_eq_true] at hw
  obtain ⟨h5, h6⟩ := hw
  generalize hx : (Flds.s o).pack r = w
  have e1 : bit w 95 = o.hd.sw := by subst hx; simp (disch := omega) only [bits, bit, Flds.pack, extract_hi, extract_lo, Nat.reduceSub, extract_all,
      getLsbD_hi, getLsbD_lo, head_sw, head_gp, head_gi, src_reg, src_neg, src_abs, bits_packReg, toNat_fin4, toNat_fin3]
  have e2 : Fin.ofNat 16 (bits w 91 4) = o.hd.gp := by subst hx; simp (disch := omega) only [bits, bit, Flds.pack, extract_hi, extract_lo, Nat.reduceSub, extract_all,
      getLsbD_hi, getLsbD_lo, head_sw, head_gp, head_gi, src_reg, src_neg, src_abs, bits_packReg, toNat_fin4, toNat_fin3]
  have e3 : bit w 90 = o.hd.gi := by subst hx; simp (disch := omega) only [bits, bit, Flds.pack, extract_hi, extract_lo, Nat.reduceSub, extract_all,
      getLsbD_hi, getLsbD_lo, head_sw, head_gp, head_gi, src_reg, src_neg, src_abs, bits_packReg, toNat_fin4, toNat_fin3]
  have e4 : bits w 82 8 = r.maj := by subst hx; simp (disch := first | omega | exact hc.maj | exact hc.fn) only [bits, Flds.pack, extract_hi, Nat.reduceSub,
      head_maj, head_fn]
  have e5 : bits w 78 4 = r.fn.code .frmode .eq := by subst hx; simp (disch := first | omega | exact hc.maj | exact hc.fn) only [bits, Flds.pack, extract_hi, Nat.reduceSub,
      head_maj, head_fn]
  have eh : unpackHead w = o.hd := by simp only [unpackHead, e1, e2, e3]
  have e6 : regAt w 71 = o.dst := by simp only [regAt]; subst hx; simp (disch := omega) only [bits, bit, Flds.pack, extract_hi, extract_lo, Nat.reduceSub, extract_all,
      getLsbD_hi, getLsbD_lo, head_sw, head_gp, head_gi, src_reg, src_neg, src_abs, bits_packReg, toNat_fin4, toNat_fin3]
  have e7 : regAt w 57 = o.sa := by simp only [regAt]; subst hx; simp (disch := omega) only [bits, bit, Flds.pack, extract_hi, extract_lo, Nat.reduceSub, extract_all,
      getLsbD_hi, getLsbD_lo, head_sw, head_gp, head_gi, src_reg, src_neg, src_abs, bits_packReg, toNat_fin4, toNat_fin3]
  have e8 : bits w 64 7 = 0 := by subst hx; simp (disch := omega) only [bits, bit, Flds.pack, extract_hi, extract_lo, Nat.reduceSub, extract_all,
      getLsbD_hi, getLsbD_lo, head_sw, head_gp, head_gi, src_reg, src_neg, src_abs, bits_packReg, toNat_fin4, toNat_fin3]; rfl
  have e9 : bits w 32 25 = 0 := by subst hx; simp (disch := omega) only [bits, bit, Flds.pack, extract_hi, extract_lo, Nat.reduceSub, extract_all,
      getLsbD_hi, getLsbD_lo, head_sw, head_gp, head_gi, src_reg, src_neg, src_abs, bits_packReg, toNat_fin4, toNat_fin3]; rfl
  have e13 : w.extractLsb' 0 32 = o.imm := by subst hx; simp (disch := omega) only [bits, bit, Flds.pack, extract_hi, extract_lo, Nat.reduceSub, extract_all,
      getLsbD_hi, getLsbD_lo, head_sw, head_gp, head_gi, src_reg, src_neg, src_abs, bits_packReg, toNat_fin4, toNat_fin3]
  have hu : unpackS w = o := by simp only [unpackS, eh, e6, e7, e13]
  simp only [decode, e4, e5, hc.row, hu, e8, e9, accept, h5, h6]
  rfl

end Sys2Proof
end

