-- ==== Sys2Proof/Laws/PerInstr.lean ====
section
/-! SUPPORT. For each instruction, as syntax: its word decodes to it. -/

namespace Sys2Proof.Laws.Coding

open Sys2Proof

/-- The word of a well-formed instruction decodes to it, with every field at its value. -/
def Statement (i : Instr) : Prop := i.wf = true → ∀ w, encode i = some w → decode w = .ok i


theorem add (o : OpA) : Statement (.add o) := by
  rintro hw w ⟨⟩
  exact decode_packA ⟨rfl, by decide, Nat.le_of_ble_eq_true rfl⟩ hw

theorem sub (o : OpA) : Statement (.sub o) := by
  rintro hw w ⟨⟩
  exact decode_packA ⟨rfl, by decide, Nat.le_of_ble_eq_true rfl⟩ hw

theorem madd (o : OpA) : Statement (.madd o) := by
  rintro hw w ⟨⟩
  exact decode_packA ⟨rfl, by decide, Nat.le_of_ble_eq_true rfl⟩ hw

theorem mul (o : OpA) : Statement (.mul o) := by
  rintro hw w ⟨⟩
  exact decode_packA ⟨rfl, by decide, Nat.le_of_ble_eq_true rfl⟩ hw

theorem mulh (o : OpA) : Statement (.mulh o) := by
  rintro hw w ⟨⟩
  exact decode_packA ⟨rfl, by decide, Nat.le_of_ble_eq_true rfl⟩ hw

theorem mulhn (o : OpA) : Statement (.mulhn o) := by
  rintro hw w ⟨⟩
  exact decode_packA ⟨rfl, by decide, Nat.le_of_ble_eq_true rfl⟩ hw

theorem div (o : OpA) : Statement (.div o) := by
  rintro hw w ⟨⟩
  exact decode_packA ⟨rfl, by decide, Nat.le_of_ble_eq_true rfl⟩ hw

theorem divn (o : OpA) : Statement (.divn o) := by
  rintro hw w ⟨⟩
  exact decode_packA ⟨rfl, by decide, Nat.le_of_ble_eq_true rfl⟩ hw

theorem rem (o : OpA) : Statement (.rem o) := by
  rintro hw w ⟨⟩
  exact decode_packA ⟨rfl, by decide, Nat.le_of_ble_eq_true rfl⟩ hw

theorem remn (o : OpA) : Statement (.remn o) := by
  rintro hw w ⟨⟩
  exact decode_packA ⟨rfl, by decide, Nat.le_of_ble_eq_true rfl⟩ hw

theorem and (o : OpA) : Statement (.and o) := by
  rintro hw w ⟨⟩
  exact decode_packA ⟨rfl, by decide, Nat.le_of_ble_eq_true rfl⟩ hw

theorem or (o : OpA) : Statement (.or o) := by
  rintro hw w ⟨⟩
  exact decode_packA ⟨rfl, by decide, Nat.le_of_ble_eq_true rfl⟩ hw

theorem xor (o : OpA) : Statement (.xor o) := by
  rintro hw w ⟨⟩
  exact decode_packA ⟨rfl, by decide, Nat.le_of_ble_eq_true rfl⟩ hw

theorem andn (o : OpA) : Statement (.andn o) := by
  rintro hw w ⟨⟩
  exact decode_packA ⟨rfl, by decide, Nat.le_of_ble_eq_true rfl⟩ hw

theorem shl (o : OpA) : Statement (.shl o) := by
  rintro hw w ⟨⟩
  exact decode_packA ⟨rfl, by decide, Nat.le_of_ble_eq_true rfl⟩ hw

theorem shr (o : OpA) : Statement (.shr o) := by
  rintro hw w ⟨⟩
  exact decode_packA ⟨rfl, by decide, Nat.le_of_ble_eq_true rfl⟩ hw

theorem sra (o : OpA) : Statement (.sra o) := by
  rintro hw w ⟨⟩
  exact decode_packA ⟨rfl, by decide, Nat.le_of_ble_eq_true rfl⟩ hw

theorem rol (o : OpA) : Statement (.rol o) := by
  rintro hw w ⟨⟩
  exact decode_packA ⟨rfl, by decide, Nat.le_of_ble_eq_true rfl⟩ hw

theorem ror (o : OpA) : Statement (.ror o) := by
  rintro hw w ⟨⟩
  exact decode_packA ⟨rfl, by decide, Nat.le_of_ble_eq_true rfl⟩ hw

theorem min (o : OpA) : Statement (.min o) := by
  rintro hw w ⟨⟩
  exact decode_packA ⟨rfl, by decide, Nat.le_of_ble_eq_true rfl⟩ hw

theorem max (o : OpA) : Statement (.max o) := by
  rintro hw w ⟨⟩
  exact decode_packA ⟨rfl, by decide, Nat.le_of_ble_eq_true rfl⟩ hw

theorem minn (o : OpA) : Statement (.minn o) := by
  rintro hw w ⟨⟩
  exact decode_packA ⟨rfl, by decide, Nat.le_of_ble_eq_true rfl⟩ hw

theorem maxn (o : OpA) : Statement (.maxn o) := by
  rintro hw w ⟨⟩
  exact decode_packA ⟨rfl, by decide, Nat.le_of_ble_eq_true rfl⟩ hw

theorem clz (o : OpA) : Statement (.clz o) := by
  rintro hw w ⟨⟩
  exact decode_packA ⟨rfl, by decide, Nat.le_of_ble_eq_true rfl⟩ hw

theorem ctz (o : OpA) : Statement (.ctz o) := by
  rintro hw w ⟨⟩
  exact decode_packA ⟨rfl, by decide, Nat.le_of_ble_eq_true rfl⟩ hw

theorem popc (o : OpA) : Statement (.popc o) := by
  rintro hw w ⟨⟩
  exact decode_packA ⟨rfl, by decide, Nat.le_of_ble_eq_true rfl⟩ hw

theorem bext (o : OpA) : Statement (.bext o) := by
  rintro hw w ⟨⟩
  exact decode_packA ⟨rfl, by decide, Nat.le_of_ble_eq_true rfl⟩ hw

theorem bdep (o : OpA) : Statement (.bdep o) := by
  rintro hw w ⟨⟩
  exact decode_packA ⟨rfl, by decide, Nat.le_of_ble_eq_true rfl⟩ hw

theorem sel (o : OpA) : Statement (.sel o) := by
  rintro hw w ⟨⟩
  exact decode_packA ⟨rfl, by decide, Nat.le_of_ble_eq_true rfl⟩ hw

theorem mov (o : OpA) : Statement (.mov o) := by
  rintro hw w ⟨⟩
  exact decode_packA ⟨rfl, by decide, Nat.le_of_ble_eq_true rfl⟩ hw

theorem movi (o : OpA) : Statement (.movi o) := by
  rintro hw w ⟨⟩
  exact decode_packA ⟨rfl, by decide, Nat.le_of_ble_eq_true rfl⟩ hw

theorem movh (o : OpA) : Statement (.movh o) := by
  rintro hw w ⟨⟩
  exact decode_packA ⟨rfl, by decide, Nat.le_of_ble_eq_true rfl⟩ hw

theorem lea (o : OpM) : Statement (.lea o) := by
  rintro hw w ⟨⟩
  exact decode_packM ⟨rfl, by decide, Nat.le_of_ble_eq_true rfl⟩ hw

theorem nop (o : OpS) : Statement (.nop o) := by
  rintro hw w ⟨⟩
  exact decode_packS ⟨rfl, by decide, Nat.le_of_ble_eq_true rfl⟩ hw

theorem brk (o : OpS) : Statement (.brk o) := by
  rintro hw w ⟨⟩
  exact decode_packS ⟨rfl, by decide, Nat.le_of_ble_eq_true rfl⟩ hw

theorem br (o : OpB) : Statement (.br o) := by
  rintro hw w ⟨⟩
  exact decode_packB ⟨rfl, by decide, Nat.le_of_ble_eq_true rfl⟩ hw

theorem jmp (o : OpB) : Statement (.jmp o) := by
  rintro hw w ⟨⟩
  exact decode_packB ⟨rfl, by decide, Nat.le_of_ble_eq_true rfl⟩ hw

theorem call (o : OpB) : Statement (.call o) := by
  rintro hw w ⟨⟩
  exact decode_packB ⟨rfl, by decide, Nat.le_of_ble_eq_true rfl⟩ hw

theorem ret (o : OpB) : Statement (.ret o) := by
  rintro hw w ⟨⟩
  exact decode_packB ⟨rfl, by decide, Nat.le_of_ble_eq_true rfl⟩ hw

theorem jr (o : OpB) : Statement (.jr o) := by
  rintro hw w ⟨⟩
  exact decode_packB ⟨rfl, by decide, Nat.le_of_ble_eq_true rfl⟩ hw

theorem loop (o : OpB) : Statement (.loop o) := by
  rintro hw w ⟨⟩
  exact decode_packB ⟨rfl, by decide, Nat.le_of_ble_eq_true rfl⟩ hw

theorem done (o : OpS) : Statement (.done o) := by
  rintro hw w ⟨⟩
  exact decode_packS ⟨rfl, by decide, Nat.le_of_ble_eq_true rfl⟩ hw

theorem doneExit (o : OpS) : Statement (.doneExit o) := by
  rintro hw w ⟨⟩
  exact decode_packS ⟨rfl, by decide, Nat.le_of_ble_eq_true rfl⟩ hw

theorem cmp (o : OpP) : Statement (.cmp o) := by
  rintro hw w ⟨⟩
  refine decode_packP ?_ hw
  have h : o.cond.code ≤ 5 := by
    simp only [Instr.wf, Instr.info, Flds.wf, Rows.cmp, fnOk, Bool.and_eq_true, decide_eq_true_eq] at hw
    exact hw.1.1.2
  obtain ⟨_, _, _, _, _, _, _, _, cond⟩ := o
  cases cond <;> first | exact ⟨rfl, by decide, Nat.le_of_ble_eq_true rfl⟩ | exact absurd h (Nat.not_le_of_lt (Nat.le_of_ble_eq_true rfl))

theorem fcmp (o : OpP) : Statement (.fcmp o) := by
  rintro hw w ⟨⟩
  exact decode_packP (by obtain ⟨_, _, _, _, _, _, _, _, cond⟩ := o; cases cond <;> exact ⟨rfl, by decide, Nat.le_of_ble_eq_true rfl⟩) hw

theorem pand (o : OpP) : Statement (.pand o) := by
  rintro hw w ⟨⟩
  exact decode_packP ⟨rfl, by decide, Nat.le_of_ble_eq_true rfl⟩ hw

theorem por (o : OpP) : Statement (.por o) := by
  rintro hw w ⟨⟩
  exact decode_packP ⟨rfl, by decide, Nat.le_of_ble_eq_true rfl⟩ hw

theorem pxor (o : OpP) : Statement (.pxor o) := by
  rintro hw w ⟨⟩
  exact decode_packP ⟨rfl, by decide, Nat.le_of_ble_eq_true rfl⟩ hw

theorem pnot (o : OpP) : Statement (.pnot o) := by
  rintro hw w ⟨⟩
  exact decode_packP ⟨rfl, by decide, Nat.le_of_ble_eq_true rfl⟩ hw

theorem pmov (o : OpP) : Statement (.pmov o) := by
  rintro hw w ⟨⟩
  exact decode_packP ⟨rfl, by decide, Nat.le_of_ble_eq_true rfl⟩ hw

theorem ptst (o : OpP) : Statement (.ptst o) := by
  rintro hw w ⟨⟩
  exact decode_packP ⟨rfl, by decide, Nat.le_of_ble_eq_true rfl⟩ hw

theorem vcmp (o : OpA) : Statement (.vcmp o) := by
  rintro hw w ⟨⟩
  refine decode_packA ?_ hw
  have h : o.cond.code ≤ 5 := by
    simp only [Instr.wf, Instr.info, Flds.wf, Rows.vcmp, fnOk, Bool.and_eq_true, decide_eq_true_eq] at hw
    exact hw.1.1.2
  obtain ⟨_, _, _, _, _, _, _, _, _, _, cond⟩ := o
  cases cond <;> first | exact ⟨rfl, by decide, Nat.le_of_ble_eq_true rfl⟩ | exact absurd h (Nat.not_le_of_lt (Nat.le_of_ble_eq_true rfl))

theorem vfcmp (o : OpA) : Statement (.vfcmp o) := by
  rintro hw w ⟨⟩
  exact decode_packA (by obtain ⟨_, _, _, _, _, _, _, _, _, _, cond⟩ := o; cases cond <;> exact ⟨rfl, by decide, Nat.le_of_ble_eq_true rfl⟩) hw

theorem fadd (o : OpA) : Statement (.fadd o) := by
  rintro hw w ⟨⟩
  exact decode_packA (by obtain ⟨_, _, _, _, _, _, _, _, _, rnd, _⟩ := o; cases rnd <;> exact ⟨rfl, by decide, Nat.le_of_ble_eq_true rfl⟩) hw

theorem fsub (o : OpA) : Statement (.fsub o) := by
  rintro hw w ⟨⟩
  exact decode_packA (by obtain ⟨_, _, _, _, _, _, _, _, _, rnd, _⟩ := o; cases rnd <;> exact ⟨rfl, by decide, Nat.le_of_ble_eq_true rfl⟩) hw

theorem fmul (o : OpA) : Statement (.fmul o) := by
  rintro hw w ⟨⟩
  exact decode_packA (by obtain ⟨_, _, _, _, _, _, _, _, _, rnd, _⟩ := o; cases rnd <;> exact ⟨rfl, by decide, Nat.le_of_ble_eq_true rfl⟩) hw

theorem ffma (o : OpA) : Statement (.ffma o) := by
  rintro hw w ⟨⟩
  exact decode_packA (by obtain ⟨_, _, _, _, _, _, _, _, _, rnd, _⟩ := o; cases rnd <;> exact ⟨rfl, by decide, Nat.le_of_ble_eq_true rfl⟩) hw

theorem fdiv (o : OpA) : Statement (.fdiv o) := by
  rintro hw w ⟨⟩
  exact decode_packA (by obtain ⟨_, _, _, _, _, _, _, _, _, rnd, _⟩ := o; cases rnd <;> exact ⟨rfl, by decide, Nat.le_of_ble_eq_true rfl⟩) hw

theorem fsqrt (o : OpA) : Statement (.fsqrt o) := by
  rintro hw w ⟨⟩
  exact decode_packA (by obtain ⟨_, _, _, _, _, _, _, _, _, rnd, _⟩ := o; cases rnd <;> exact ⟨rfl, by decide, Nat.le_of_ble_eq_true rfl⟩) hw

theorem frcp (o : OpA) : Statement (.frcp o) := by
  rintro hw w ⟨⟩
  exact decode_packA (by obtain ⟨_, _, _, _, _, _, _, _, _, rnd, _⟩ := o; cases rnd <;> exact ⟨rfl, by decide, Nat.le_of_ble_eq_true rfl⟩) hw

theorem frsq (o : OpA) : Statement (.frsq o) := by
  rintro hw w ⟨⟩
  exact decode_packA (by obtain ⟨_, _, _, _, _, _, _, _, _, rnd, _⟩ := o; cases rnd <;> exact ⟨rfl, by decide, Nat.le_of_ble_eq_true rfl⟩) hw

theorem fexp2 (o : OpA) : Statement (.fexp2 o) := by
  rintro hw w ⟨⟩
  exact decode_packA (by obtain ⟨_, _, _, _, _, _, _, _, _, rnd, _⟩ := o; cases rnd <;> exact ⟨rfl, by decide, Nat.le_of_ble_eq_true rfl⟩) hw

theorem flog2 (o : OpA) : Statement (.flog2 o) := by
  rintro hw w ⟨⟩
  exact decode_packA (by obtain ⟨_, _, _, _, _, _, _, _, _, rnd, _⟩ := o; cases rnd <;> exact ⟨rfl, by decide, Nat.le_of_ble_eq_true rfl⟩) hw

theorem fmin (o : OpA) : Statement (.fmin o) := by
  rintro hw w ⟨⟩
  exact decode_packA ⟨rfl, by decide, Nat.le_of_ble_eq_true rfl⟩ hw

theorem fmax (o : OpA) : Statement (.fmax o) := by
  rintro hw w ⟨⟩
  exact decode_packA ⟨rfl, by decide, Nat.le_of_ble_eq_true rfl⟩ hw

theorem fclass (o : OpA) : Statement (.fclass o) := by
  rintro hw w ⟨⟩
  exact decode_packA ⟨rfl, by decide, Nat.le_of_ble_eq_true rfl⟩ hw

theorem vfadd (o : OpA) : Statement (.vfadd o) := by
  rintro hw w ⟨⟩
  exact decode_packA (by obtain ⟨_, _, _, _, _, _, _, _, _, rnd, _⟩ := o; cases rnd <;> exact ⟨rfl, by decide, Nat.le_of_ble_eq_true rfl⟩) hw

theorem vfsub (o : OpA) : Statement (.vfsub o) := by
  rintro hw w ⟨⟩
  exact decode_packA (by obtain ⟨_, _, _, _, _, _, _, _, _, rnd, _⟩ := o; cases rnd <;> exact ⟨rfl, by decide, Nat.le_of_ble_eq_true rfl⟩) hw

theorem vfmul (o : OpA) : Statement (.vfmul o) := by
  rintro hw w ⟨⟩
  exact decode_packA (by obtain ⟨_, _, _, _, _, _, _, _, _, rnd, _⟩ := o; cases rnd <;> exact ⟨rfl, by decide, Nat.le_of_ble_eq_true rfl⟩) hw

theorem vffma (o : OpA) : Statement (.vffma o) := by
  rintro hw w ⟨⟩
  exact decode_packA (by obtain ⟨_, _, _, _, _, _, _, _, _, rnd, _⟩ := o; cases rnd <;> exact ⟨rfl, by decide, Nat.le_of_ble_eq_true rfl⟩) hw

theorem vfdiv (o : OpA) : Statement (.vfdiv o) := by
  rintro hw w ⟨⟩
  exact decode_packA (by obtain ⟨_, _, _, _, _, _, _, _, _, rnd, _⟩ := o; cases rnd <;> exact ⟨rfl, by decide, Nat.le_of_ble_eq_true rfl⟩) hw

theorem vfsqrt (o : OpA) : Statement (.vfsqrt o) := by
  rintro hw w ⟨⟩
  exact decode_packA (by obtain ⟨_, _, _, _, _, _, _, _, _, rnd, _⟩ := o; cases rnd <;> exact ⟨rfl, by decide, Nat.le_of_ble_eq_true rfl⟩) hw

theorem vfrcp (o : OpA) : Statement (.vfrcp o) := by
  rintro hw w ⟨⟩
  exact decode_packA (by obtain ⟨_, _, _, _, _, _, _, _, _, rnd, _⟩ := o; cases rnd <;> exact ⟨rfl, by decide, Nat.le_of_ble_eq_true rfl⟩) hw

theorem vfmin (o : OpA) : Statement (.vfmin o) := by
  rintro hw w ⟨⟩
  exact decode_packA ⟨rfl, by decide, Nat.le_of_ble_eq_true rfl⟩ hw

theorem vfmax (o : OpA) : Statement (.vfmax o) := by
  rintro hw w ⟨⟩
  exact decode_packA ⟨rfl, by decide, Nat.le_of_ble_eq_true rfl⟩ hw

theorem vadd (o : OpA) : Statement (.vadd o) := by
  rintro hw w ⟨⟩
  exact decode_packA ⟨rfl, by decide, Nat.le_of_ble_eq_true rfl⟩ hw

theorem vsub (o : OpA) : Statement (.vsub o) := by
  rintro hw w ⟨⟩
  exact decode_packA ⟨rfl, by decide, Nat.le_of_ble_eq_true rfl⟩ hw

theorem vmul (o : OpA) : Statement (.vmul o) := by
  rintro hw w ⟨⟩
  exact decode_packA ⟨rfl, by decide, Nat.le_of_ble_eq_true rfl⟩ hw

theorem vmulh (o : OpA) : Statement (.vmulh o) := by
  rintro hw w ⟨⟩
  exact decode_packA ⟨rfl, by decide, Nat.le_of_ble_eq_true rfl⟩ hw

theorem vmadd (o : OpA) : Statement (.vmadd o) := by
  rintro hw w ⟨⟩
  exact decode_packA ⟨rfl, by decide, Nat.le_of_ble_eq_true rfl⟩ hw

theorem vand (o : OpA) : Statement (.vand o) := by
  rintro hw w ⟨⟩
  exact decode_packA ⟨rfl, by decide, Nat.le_of_ble_eq_true rfl⟩ hw

theorem vor (o : OpA) : Statement (.vor o) := by
  rintro hw w ⟨⟩
  exact decode_packA ⟨rfl, by decide, Nat.le_of_ble_eq_true rfl⟩ hw

theorem vxor (o : OpA) : Statement (.vxor o) := by
  rintro hw w ⟨⟩
  exact decode_packA ⟨rfl, by decide, Nat.le_of_ble_eq_true rfl⟩ hw

theorem vshl (o : OpA) : Statement (.vshl o) := by
  rintro hw w ⟨⟩
  exact decode_packA ⟨rfl, by decide, Nat.le_of_ble_eq_true rfl⟩ hw

theorem vshr (o : OpA) : Statement (.vshr o) := by
  rintro hw w ⟨⟩
  exact decode_packA ⟨rfl, by decide, Nat.le_of_ble_eq_true rfl⟩ hw

theorem vsra (o : OpA) : Statement (.vsra o) := by
  rintro hw w ⟨⟩
  exact decode_packA ⟨rfl, by decide, Nat.le_of_ble_eq_true rfl⟩ hw

theorem vmin (o : OpA) : Statement (.vmin o) := by
  rintro hw w ⟨⟩
  exact decode_packA ⟨rfl, by decide, Nat.le_of_ble_eq_true rfl⟩ hw

theorem vmax (o : OpA) : Statement (.vmax o) := by
  rintro hw w ⟨⟩
  exact decode_packA ⟨rfl, by decide, Nat.le_of_ble_eq_true rfl⟩ hw

theorem vsel (o : OpA) : Statement (.vsel o) := by
  rintro hw w ⟨⟩
  exact decode_packA ⟨rfl, by decide, Nat.le_of_ble_eq_true rfl⟩ hw

theorem vperm (o : OpA) : Statement (.vperm o) := by
  rintro hw w ⟨⟩
  exact decode_packA ⟨rfl, by decide, Nat.le_of_ble_eq_true rfl⟩ hw

theorem vbcast (o : OpA) : Statement (.vbcast o) := by
  rintro hw w ⟨⟩
  exact decode_packA ⟨rfl, by decide, Nat.le_of_ble_eq_true rfl⟩ hw

theorem vext (o : OpA) : Statement (.vext o) := by
  rintro hw w ⟨⟩
  exact decode_packA ⟨rfl, by decide, Nat.le_of_ble_eq_true rfl⟩ hw

theorem vins (o : OpA) : Statement (.vins o) := by
  rintro hw w ⟨⟩
  exact decode_packA ⟨rfl, by decide, Nat.le_of_ble_eq_true rfl⟩ hw

theorem vredAdd (o : OpA) : Statement (.vredAdd o) := by
  rintro hw w ⟨⟩
  exact decode_packA ⟨rfl, by decide, Nat.le_of_ble_eq_true rfl⟩ hw

theorem vredMin (o : OpA) : Statement (.vredMin o) := by
  rintro hw w ⟨⟩
  exact decode_packA ⟨rfl, by decide, Nat.le_of_ble_eq_true rfl⟩ hw

theorem vredMax (o : OpA) : Statement (.vredMax o) := by
  rintro hw w ⟨⟩
  exact decode_packA ⟨rfl, by decide, Nat.le_of_ble_eq_true rfl⟩ hw

theorem vscan (o : OpA) : Statement (.vscan o) := by
  rintro hw w ⟨⟩
  exact decode_packA ⟨rfl, by decide, Nat.le_of_ble_eq_true rfl⟩ hw

theorem vzpack (o : OpA) : Statement (.vzpack o) := by
  rintro hw w ⟨⟩
  exact decode_packA ⟨rfl, by decide, Nat.le_of_ble_eq_true rfl⟩ hw

theorem vexpand (o : OpA) : Statement (.vexpand o) := by
  rintro hw w ⟨⟩
  exact decode_packA ⟨rfl, by decide, Nat.le_of_ble_eq_true rfl⟩ hw

theorem mand (o : OpA) : Statement (.mand o) := by
  rintro hw w ⟨⟩
  exact decode_packA ⟨rfl, by decide, Nat.le_of_ble_eq_true rfl⟩ hw

theorem mor (o : OpA) : Statement (.mor o) := by
  rintro hw w ⟨⟩
  exact decode_packA ⟨rfl, by decide, Nat.le_of_ble_eq_true rfl⟩ hw

theorem mnot (o : OpA) : Statement (.mnot o) := by
  rintro hw w ⟨⟩
  exact decode_packA ⟨rfl, by decide, Nat.le_of_ble_eq_true rfl⟩ hw

theorem mpopc (o : OpA) : Statement (.mpopc o) := by
  rintro hw w ⟨⟩
  exact decode_packA ⟨rfl, by decide, Nat.le_of_ble_eq_true rfl⟩ hw

theorem mffs (o : OpA) : Statement (.mffs o) := by
  rintro hw w ⟨⟩
  exact decode_packA ⟨rfl, by decide, Nat.le_of_ble_eq_true rfl⟩ hw

theorem fcvt (o : OpA) : Statement (.fcvt o) := by
  rintro hw w ⟨⟩
  exact decode_packA (by obtain ⟨_, _, _, _, _, _, _, _, _, rnd, _⟩ := o; cases rnd <;> exact ⟨rfl, by decide, Nat.le_of_ble_eq_true rfl⟩) hw

theorem vcvt (o : OpA) : Statement (.vcvt o) := by
  rintro hw w ⟨⟩
  exact decode_packA (by obtain ⟨_, _, _, _, _, _, _, _, _, rnd, _⟩ := o; cases rnd <;> exact ⟨rfl, by decide, Nat.le_of_ble_eq_true rfl⟩) hw

theorem vpack (o : OpA) : Statement (.vpack o) := by
  rintro hw w ⟨⟩
  exact decode_packA (by obtain ⟨_, _, _, _, _, _, _, _, _, rnd, _⟩ := o; cases rnd <;> exact ⟨rfl, by decide, Nat.le_of_ble_eq_true rfl⟩) hw

theorem vunpack (o : OpA) : Statement (.vunpack o) := by
  rintro hw w ⟨⟩
  exact decode_packA ⟨rfl, by decide, Nat.le_of_ble_eq_true rfl⟩ hw

theorem vtsum (o : OpA) : Statement (.vtsum o) := by
  rintro hw w ⟨⟩
  exact decode_packA (by obtain ⟨_, _, _, _, _, _, _, _, _, rnd, _⟩ := o; cases rnd <;> exact ⟨rfl, by decide, Nat.le_of_ble_eq_true rfl⟩) hw

theorem ld (o : OpM) : Statement (.ld o) := by
  rintro hw w ⟨⟩
  exact decode_packM ⟨rfl, by decide, Nat.le_of_ble_eq_true rfl⟩ hw

theorem ldv (o : OpM) : Statement (.ldv o) := by
  rintro hw w ⟨⟩
  exact decode_packM ⟨rfl, by decide, Nat.le_of_ble_eq_true rfl⟩ hw

theorem ldg (o : OpM) : Statement (.ldg o) := by
  rintro hw w ⟨⟩
  exact decode_packM ⟨rfl, by decide, Nat.le_of_ble_eq_true rfl⟩ hw

theorem pf (o : OpM) : Statement (.pf o) := by
  rintro hw w ⟨⟩
  exact decode_packM ⟨rfl, by decide, Nat.le_of_ble_eq_true rfl⟩ hw

theorem st (o : OpM) : Statement (.st o) := by
  rintro hw w ⟨⟩
  exact decode_packM ⟨rfl, by decide, Nat.le_of_ble_eq_true rfl⟩ hw

theorem stv (o : OpM) : Statement (.stv o) := by
  rintro hw w ⟨⟩
  exact decode_packM ⟨rfl, by decide, Nat.le_of_ble_eq_true rfl⟩ hw

theorem stg (o : OpM) : Statement (.stg o) := by
  rintro hw w ⟨⟩
  exact decode_packM ⟨rfl, by decide, Nat.le_of_ble_eq_true rfl⟩ hw

theorem ldf (o : OpM) : Statement (.ldf o) := by
  rintro hw w ⟨⟩
  exact decode_packM ⟨rfl, by decide, Nat.le_of_ble_eq_true rfl⟩ hw

theorem ldft (o : OpM) : Statement (.ldft o) := by
  rintro hw w ⟨⟩
  exact decode_packM ⟨rfl, by decide, Nat.le_of_ble_eq_true rfl⟩ hw

theorem stf (o : OpM) : Statement (.stf o) := by
  rintro hw w ⟨⟩
  exact decode_packM ⟨rfl, by decide, Nat.le_of_ble_eq_true rfl⟩ hw

theorem clrf (o : OpM) : Statement (.clrf o) := by
  rintro hw w ⟨⟩
  exact decode_packM ⟨rfl, by decide, Nat.le_of_ble_eq_true rfl⟩ hw

theorem copy (o : OpE) : Statement (.copy o) := by
  rintro hw w ⟨⟩
  exact decode_packE ⟨rfl, by decide, Nat.le_of_ble_eq_true rfl⟩ hw

theorem copyx (o : OpE) : Statement (.copyx o) := by
  rintro hw w ⟨⟩
  exact decode_packE ⟨rfl, by decide, Nat.le_of_ble_eq_true rfl⟩ hw

theorem wany (o : OpA) : Statement (.wany o) := by
  rintro hw w ⟨⟩
  exact decode_packA ⟨rfl, by decide, Nat.le_of_ble_eq_true rfl⟩ hw

theorem wall (o : OpA) : Statement (.wall o) := by
  rintro hw w ⟨⟩
  exact decode_packA ⟨rfl, by decide, Nat.le_of_ble_eq_true rfl⟩ hw

theorem ffr (o : OpA) : Statement (.ffr o) := by
  rintro hw w ⟨⟩
  exact decode_packA ⟨rfl, by decide, Nat.le_of_ble_eq_true rfl⟩ hw

theorem tagclr (o : OpA) : Statement (.tagclr o) := by
  rintro hw w ⟨⟩
  exact decode_packA ⟨rfl, by decide, Nat.le_of_ble_eq_true rfl⟩ hw

theorem cleanR (o : OpE) : Statement (.cleanR o) := by
  rintro hw w ⟨⟩
  exact decode_packE ⟨rfl, by decide, Nat.le_of_ble_eq_true rfl⟩ hw

theorem invR (o : OpE) : Statement (.invR o) := by
  rintro hw w ⟨⟩
  exact decode_packE ⟨rfl, by decide, Nat.le_of_ble_eq_true rfl⟩ hw

theorem flushR (o : OpE) : Statement (.flushR o) := by
  rintro hw w ⟨⟩
  exact decode_packE ⟨rfl, by decide, Nat.le_of_ble_eq_true rfl⟩ hw

theorem fenceR (o : OpM) : Statement (.fenceR o) := by
  rintro hw w ⟨⟩
  exact decode_packM ⟨rfl, by decide, Nat.le_of_ble_eq_true rfl⟩ hw

theorem fenceW (o : OpM) : Statement (.fenceW o) := by
  rintro hw w ⟨⟩
  exact decode_packM ⟨rfl, by decide, Nat.le_of_ble_eq_true rfl⟩ hw

theorem fenceRw (o : OpM) : Statement (.fenceRw o) := by
  rintro hw w ⟨⟩
  exact decode_packM ⟨rfl, by decide, Nat.le_of_ble_eq_true rfl⟩ hw

theorem fenceB (o : OpM) : Statement (.fenceB o) := by
  rintro hw w ⟨⟩
  exact decode_packM ⟨rfl, by decide, Nat.le_of_ble_eq_true rfl⟩ hw

theorem acq (o : OpM) : Statement (.acq o) := by
  rintro hw w ⟨⟩
  exact decode_packM ⟨rfl, by decide, Nat.le_of_ble_eq_true rfl⟩ hw

theorem acqs (o : OpM) : Statement (.acqs o) := by
  rintro hw w ⟨⟩
  exact decode_packM ⟨rfl, by decide, Nat.le_of_ble_eq_true rfl⟩ hw

theorem rls (o : OpM) : Statement (.rls o) := by
  rintro hw w ⟨⟩
  exact decode_packM ⟨rfl, by decide, Nat.le_of_ble_eq_true rfl⟩ hw

theorem sealR (o : OpE) : Statement (.sealR o) := by
  rintro hw w ⟨⟩
  exact decode_packE ⟨rfl, by decide, Nat.le_of_ble_eq_true rfl⟩ hw

theorem oadd (o : OpE) : Statement (.oadd o) := by
  rintro hw w ⟨⟩
  exact decode_packE ⟨rfl, by decide, Nat.le_of_ble_eq_true rfl⟩ hw

theorem omin (o : OpE) : Statement (.omin o) := by
  rintro hw w ⟨⟩
  exact decode_packE ⟨rfl, by decide, Nat.le_of_ble_eq_true rfl⟩ hw

theorem omax (o : OpE) : Statement (.omax o) := by
  rintro hw w ⟨⟩
  exact decode_packE ⟨rfl, by decide, Nat.le_of_ble_eq_true rfl⟩ hw

theorem oand (o : OpE) : Statement (.oand o) := by
  rintro hw w ⟨⟩
  exact decode_packE ⟨rfl, by decide, Nat.le_of_ble_eq_true rfl⟩ hw

theorem oor (o : OpE) : Statement (.oor o) := by
  rintro hw w ⟨⟩
  exact decode_packE ⟨rfl, by decide, Nat.le_of_ble_eq_true rfl⟩ hw

theorem oxor (o : OpE) : Statement (.oxor o) := by
  rintro hw w ⟨⟩
  exact decode_packE ⟨rfl, by decide, Nat.le_of_ble_eq_true rfl⟩ hw

theorem oswp (o : OpE) : Statement (.oswp o) := by
  rintro hw w ⟨⟩
  exact decode_packE ⟨rfl, by decide, Nat.le_of_ble_eq_true rfl⟩ hw

theorem ocas (o : OpE) : Statement (.ocas o) := by
  rintro hw w ⟨⟩
  exact decode_packE ⟨rfl, by decide, Nat.le_of_ble_eq_true rfl⟩ hw

theorem oaddNt (o : OpE) : Statement (.oaddNt o) := by
  rintro hw w ⟨⟩
  exact decode_packE ⟨rfl, by decide, Nat.le_of_ble_eq_true rfl⟩ hw

theorem ominNt (o : OpE) : Statement (.ominNt o) := by
  rintro hw w ⟨⟩
  exact decode_packE ⟨rfl, by decide, Nat.le_of_ble_eq_true rfl⟩ hw

theorem omaxNt (o : OpE) : Statement (.omaxNt o) := by
  rintro hw w ⟨⟩
  exact decode_packE ⟨rfl, by decide, Nat.le_of_ble_eq_true rfl⟩ hw

theorem oandNt (o : OpE) : Statement (.oandNt o) := by
  rintro hw w ⟨⟩
  exact decode_packE ⟨rfl, by decide, Nat.le_of_ble_eq_true rfl⟩ hw

theorem oorNt (o : OpE) : Statement (.oorNt o) := by
  rintro hw w ⟨⟩
  exact decode_packE ⟨rfl, by decide, Nat.le_of_ble_eq_true rfl⟩ hw

theorem oxorNt (o : OpE) : Statement (.oxorNt o) := by
  rintro hw w ⟨⟩
  exact decode_packE ⟨rfl, by decide, Nat.le_of_ble_eq_true rfl⟩ hw

theorem oswpNt (o : OpE) : Statement (.oswpNt o) := by
  rintro hw w ⟨⟩
  exact decode_packE ⟨rfl, by decide, Nat.le_of_ble_eq_true rfl⟩ hw

theorem ocasNt (o : OpE) : Statement (.ocasNt o) := by
  rintro hw w ⟨⟩
  exact decode_packE ⟨rfl, by decide, Nat.le_of_ble_eq_true rfl⟩ hw

theorem ofadd (o : OpE) : Statement (.ofadd o) := by
  rintro hw w ⟨⟩
  exact decode_packE ⟨rfl, by decide, Nat.le_of_ble_eq_true rfl⟩ hw

theorem ofmin (o : OpE) : Statement (.ofmin o) := by
  rintro hw w ⟨⟩
  exact decode_packE ⟨rfl, by decide, Nat.le_of_ble_eq_true rfl⟩ hw

theorem ofmax (o : OpE) : Statement (.ofmax o) := by
  rintro hw w ⟨⟩
  exact decode_packE ⟨rfl, by decide, Nat.le_of_ble_eq_true rfl⟩ hw

theorem offma (o : OpE) : Statement (.offma o) := by
  rintro hw w ⟨⟩
  exact decode_packE ⟨rfl, by decide, Nat.le_of_ble_eq_true rfl⟩ hw

theorem ored (o : OpE) : Statement (.ored o) := by
  rintro hw w ⟨⟩
  exact decode_packE ⟨rfl, by decide, Nat.le_of_ble_eq_true rfl⟩ hw

theorem ofaddNt (o : OpE) : Statement (.ofaddNt o) := by
  rintro hw w ⟨⟩
  exact decode_packE ⟨rfl, by decide, Nat.le_of_ble_eq_true rfl⟩ hw

theorem ofminNt (o : OpE) : Statement (.ofminNt o) := by
  rintro hw w ⟨⟩
  exact decode_packE ⟨rfl, by decide, Nat.le_of_ble_eq_true rfl⟩ hw

theorem ofmaxNt (o : OpE) : Statement (.ofmaxNt o) := by
  rintro hw w ⟨⟩
  exact decode_packE ⟨rfl, by decide, Nat.le_of_ble_eq_true rfl⟩ hw

theorem offmaNt (o : OpE) : Statement (.offmaNt o) := by
  rintro hw w ⟨⟩
  exact decode_packE ⟨rfl, by decide, Nat.le_of_ble_eq_true rfl⟩ hw

theorem oredNt (o : OpE) : Statement (.oredNt o) := by
  rintro hw w ⟨⟩
  exact decode_packE ⟨rfl, by decide, Nat.le_of_ble_eq_true rfl⟩ hw

theorem ocmt (o : OpE) : Statement (.ocmt o) := by
  rintro hw w ⟨⟩
  exact decode_packE ⟨rfl, by decide, Nat.le_of_ble_eq_true rfl⟩ hw

theorem oabn (o : OpE) : Statement (.oabn o) := by
  rintro hw w ⟨⟩
  exact decode_packE ⟨rfl, by decide, Nat.le_of_ble_eq_true rfl⟩ hw

theorem barv (o : OpE) : Statement (.barv o) := by
  rintro hw w ⟨⟩
  exact decode_packE ⟨rfl, by decide, Nat.le_of_ble_eq_true rfl⟩ hw

theorem bwait (o : OpE) : Statement (.bwait o) := by
  rintro hw w ⟨⟩
  exact decode_packE ⟨rfl, by decide, Nat.le_of_ble_eq_true rfl⟩ hw

theorem btest (o : OpE) : Statement (.btest o) := by
  rintro hw w ⟨⟩
  exact decode_packE ⟨rfl, by decide, Nat.le_of_ble_eq_true rfl⟩ hw

theorem grpq (o : OpE) : Statement (.grpq o) := by
  rintro hw w ⟨⟩
  exact decode_packE ⟨rfl, by decide, Nat.le_of_ble_eq_true rfl⟩ hw

theorem send (o : OpE) : Statement (.send o) := by
  rintro hw w ⟨⟩
  exact decode_packE ⟨rfl, by decide, Nat.le_of_ble_eq_true rfl⟩ hw

theorem sendt (o : OpE) : Statement (.sendt o) := by
  rintro hw w ⟨⟩
  exact decode_packE ⟨rfl, by decide, Nat.le_of_ble_eq_true rfl⟩ hw

theorem recv (o : OpE) : Statement (.recv o) := by
  rintro hw w ⟨⟩
  exact decode_packE ⟨rfl, by decide, Nat.le_of_ble_eq_true rfl⟩ hw

theorem recvt (o : OpE) : Statement (.recvt o) := by
  rintro hw w ⟨⟩
  exact decode_packE ⟨rfl, by decide, Nat.le_of_ble_eq_true rfl⟩ hw

theorem deleg (o : OpE) : Statement (.deleg o) := by
  rintro hw w ⟨⟩
  exact decode_packE ⟨rfl, by decide, Nat.le_of_ble_eq_true rfl⟩ hw

theorem delegt (o : OpE) : Statement (.delegt o) := by
  rintro hw w ⟨⟩
  exact decode_packE ⟨rfl, by decide, Nat.le_of_ble_eq_true rfl⟩ hw

theorem dret (o : OpE) : Statement (.dret o) := by
  rintro hw w ⟨⟩
  exact decode_packE ⟨rfl, by decide, Nat.le_of_ble_eq_true rfl⟩ hw

theorem rpt (o : OpE) : Statement (.rpt o) := by
  rintro hw w ⟨⟩
  exact decode_packE ⟨rfl, by decide, Nat.le_of_ble_eq_true rfl⟩ hw

theorem gslot (o : OpE) : Statement (.gslot o) := by
  rintro hw w ⟨⟩
  exact decode_packE ⟨rfl, by decide, Nat.le_of_ble_eq_true rfl⟩ hw

theorem gset (o : OpE) : Statement (.gset o) := by
  rintro hw w ⟨⟩
  exact decode_packE ⟨rfl, by decide, Nat.le_of_ble_eq_true rfl⟩ hw

theorem ecmd (o : OpE) : Statement (.ecmd o) := by
  rintro hw w ⟨⟩
  exact decode_packE ⟨rfl, by decide, Nat.le_of_ble_eq_true rfl⟩ hw

theorem vetchRun a0 : Statement (.vetchRun a0) := fun _ _ h => nomatch h

theorem vetchStop a0 : Statement (.vetchStop a0) := fun _ _ h => nomatch h

theorem ecmdMatrix a0 : Statement (.ecmdMatrix a0) := fun _ _ h => nomatch h

theorem mcap (o : OpE) : Statement (.mcap o) := by
  rintro hw w ⟨⟩
  exact decode_packE ⟨rfl, by decide, Nat.le_of_ble_eq_true rfl⟩ hw

theorem mfmt (o : OpE) : Statement (.mfmt o) := by
  rintro hw w ⟨⟩
  exact decode_packE ⟨rfl, by decide, Nat.le_of_ble_eq_true rfl⟩ hw

theorem mldb (o : OpE) : Statement (.mldb o) := by
  rintro hw w ⟨⟩
  exact decode_packE ⟨rfl, by decide, Nat.le_of_ble_eq_true rfl⟩ hw

theorem mrow (o : OpE) : Statement (.mrow o) := by
  rintro hw w ⟨⟩
  exact decode_packE ⟨rfl, by decide, Nat.le_of_ble_eq_true rfl⟩ hw

theorem mnz (o : OpE) : Statement (.mnz o) := by
  rintro hw w ⟨⟩
  exact decode_packE ⟨rfl, by decide, Nat.le_of_ble_eq_true rfl⟩ hw

theorem mclr (o : OpE) : Statement (.mclr o) := by
  rintro hw w ⟨⟩
  exact decode_packE ⟨rfl, by decide, Nat.le_of_ble_eq_true rfl⟩ hw

theorem mrd (o : OpE) : Statement (.mrd o) := by
  rintro hw w ⟨⟩
  exact decode_packE ⟨rfl, by decide, Nat.le_of_ble_eq_true rfl⟩ hw

theorem msave (o : OpE) : Statement (.msave o) := by
  rintro hw w ⟨⟩
  exact decode_packE ⟨rfl, by decide, Nat.le_of_ble_eq_true rfl⟩ hw

theorem mrest (o : OpE) : Statement (.mrest o) := by
  rintro hw w ⟨⟩
  exact decode_packE ⟨rfl, by decide, Nat.le_of_ble_eq_true rfl⟩ hw

theorem mwait (o : OpE) : Statement (.mwait o) := by
  rintro hw w ⟨⟩
  exact decode_packE ⟨rfl, by decide, Nat.le_of_ble_eq_true rfl⟩ hw

theorem ecomb (o : OpE) : Statement (.ecomb o) := by
  rintro hw w ⟨⟩
  exact decode_packE ⟨rfl, by decide, Nat.le_of_ble_eq_true rfl⟩ hw

theorem eact (o : OpE) : Statement (.eact o) := by
  rintro hw w ⟨⟩
  exact decode_packE ⟨rfl, by decide, Nat.le_of_ble_eq_true rfl⟩ hw

theorem dqpush (o : OpE) : Statement (.dqpush o) := by
  rintro hw w ⟨⟩
  exact decode_packE ⟨rfl, by decide, Nat.le_of_ble_eq_true rfl⟩ hw

theorem dqpop (o : OpE) : Statement (.dqpop o) := by
  rintro hw w ⟨⟩
  exact decode_packE ⟨rfl, by decide, Nat.le_of_ble_eq_true rfl⟩ hw

theorem dqsplit (o : OpE) : Statement (.dqsplit o) := by
  rintro hw w ⟨⟩
  exact decode_packE ⟨rfl, by decide, Nat.le_of_ble_eq_true rfl⟩ hw

theorem dqsteal (o : OpE) : Statement (.dqsteal o) := by
  rintro hw w ⟨⟩
  exact decode_packE ⟨rfl, by decide, Nat.le_of_ble_eq_true rfl⟩ hw

theorem amsg (o : OpE) : Statement (.amsg o) := by
  rintro hw w ⟨⟩
  exact decode_packE ⟨rfl, by decide, Nat.le_of_ble_eq_true rfl⟩ hw

theorem gath (o : OpE) : Statement (.gath o) := by
  rintro hw w ⟨⟩
  exact decode_packE ⟨rfl, by decide, Nat.le_of_ble_eq_true rfl⟩ hw

theorem scat (o : OpE) : Statement (.scat o) := by
  rintro hw w ⟨⟩
  exact decode_packE ⟨rfl, by decide, Nat.le_of_ble_eq_true rfl⟩ hw

theorem ijob (o : OpE) : Statement (.ijob o) := by
  rintro hw w ⟨⟩
  exact decode_packE ⟨rfl, by decide, Nat.le_of_ble_eq_true rfl⟩ hw

theorem bcall (o : OpE) : Statement (.bcall o) := by
  rintro hw w ⟨⟩
  exact decode_packE ⟨rfl, by decide, Nat.le_of_ble_eq_true rfl⟩ hw

theorem hret (o : OpE) : Statement (.hret o) := by
  rintro hw w ⟨⟩
  exact decode_packE ⟨rfl, by decide, Nat.le_of_ble_eq_true rfl⟩ hw

theorem hrow (o : OpE) : Statement (.hrow o) := by
  rintro hw w ⟨⟩
  exact decode_packE ⟨rfl, by decide, Nat.le_of_ble_eq_true rfl⟩ hw

theorem hwr (o : OpE) : Statement (.hwr o) := by
  rintro hw w ⟨⟩
  exact decode_packE ⟨rfl, by decide, Nat.le_of_ble_eq_true rfl⟩ hw

theorem trap (o : OpS) : Statement (.trap o) := by
  rintro hw w ⟨⟩
  exact decode_packS ⟨rfl, by decide, Nat.le_of_ble_eq_true rfl⟩ hw

theorem eret (o : OpS) : Statement (.eret o) := by
  rintro hw w ⟨⟩
  exact decode_packS ⟨rfl, by decide, Nat.le_of_ble_eq_true rfl⟩ hw

theorem sysr (o : OpS) : Statement (.sysr o) := by
  rintro hw w ⟨⟩
  exact decode_packS ⟨rfl, by decide, Nat.le_of_ble_eq_true rfl⟩ hw

theorem sysw (o : OpS) : Statement (.sysw o) := by
  rintro hw w ⟨⟩
  exact decode_packS ⟨rfl, by decide, Nat.le_of_ble_eq_true rfl⟩ hw

theorem yieldT (o : OpS) : Statement (.yieldT o) := by
  rintro hw w ⟨⟩
  exact decode_packS ⟨rfl, by decide, Nat.le_of_ble_eq_true rfl⟩ hw

theorem drain (o : OpS) : Statement (.drain o) := by
  rintro hw w ⟨⟩
  exact decode_packS ⟨rfl, by decide, Nat.le_of_ble_eq_true rfl⟩ hw

theorem sfqpop (o : OpS) : Statement (.sfqpop o) := by
  rintro hw w ⟨⟩
  exact decode_packS ⟨rfl, by decide, Nat.le_of_ble_eq_true rfl⟩ hw

theorem kill (o : OpS) : Statement (.kill o) := by
  rintro hw w ⟨⟩
  exact decode_packS ⟨rfl, by decide, Nat.le_of_ble_eq_true rfl⟩ hw

theorem tlbinv (o : OpS) : Statement (.tlbinv o) := by
  rintro hw w ⟨⟩
  exact decode_packS ⟨rfl, by decide, Nat.le_of_ble_eq_true rfl⟩ hw

theorem tlbsync (o : OpS) : Statement (.tlbsync o) := by
  rintro hw w ⟨⟩
  exact decode_packS ⟨rfl, by decide, Nat.le_of_ble_eq_true rfl⟩ hw

theorem vabort (o : OpS) : Statement (.vabort o) := by
  rintro hw w ⟨⟩
  exact decode_packS ⟨rfl, by decide, Nat.le_of_ble_eq_true rfl⟩ hw

theorem wfe (o : OpS) : Statement (.wfe o) := by
  rintro hw w ⟨⟩
  exact decode_packS ⟨rfl, by decide, Nat.le_of_ble_eq_true rfl⟩ hw

theorem issueCycle a0 : Statement (.issueCycle a0) := fun _ _ h => nomatch h

theorem fetchParityRefetch a0 a1 : Statement (.fetchParityRefetch a0 a1) := fun _ _ h => nomatch h

theorem longResultArrival a0 a1 : Statement (.longResultArrival a0 a1) := fun _ _ h => nomatch h

theorem offerReply a0 a1 : Statement (.offerReply a0 a1) := fun _ _ h => nomatch h

theorem parityReplay a0 a1 : Statement (.parityReplay a0 a1) := fun _ _ h => nomatch h

theorem storeResolve a0 a1 : Statement (.storeResolve a0 a1) := fun _ _ h => nomatch h

theorem ageLimitExpiry a0 : Statement (.ageLimitExpiry a0) := fun _ _ h => nomatch h

theorem footprintFill a0 : Statement (.footprintFill a0) := fun _ _ h => nomatch h

theorem taskDispatch a0 : Statement (.taskDispatch a0) := fun _ _ h => nomatch h

theorem actorMessageArrival a0 a1 : Statement (.actorMessageArrival a0 a1) := fun _ _ h => nomatch h

theorem heldDeliveryRetry a0 a1 a2 : Statement (.heldDeliveryRetry a0 a1 a2) := fun _ _ h => nomatch h

theorem actorSwapOut a0 a1 : Statement (.actorSwapOut a0 a1) := fun _ _ h => nomatch h

theorem actorSwapIn a0 a1 : Statement (.actorSwapIn a0 a1) := fun _ _ h => nomatch h

theorem delegationRequest a0 : Statement (.delegationRequest a0) := fun _ _ h => nomatch h

theorem slotAdvertisement a0 : Statement (.slotAdvertisement a0) := fun _ _ h => nomatch h

theorem teamMigration a0 a1 a2 : Statement (.teamMigration a0 a1 a2) := fun _ _ h => nomatch h

theorem teamAccept a0 : Statement (.teamAccept a0) := fun _ _ h => nomatch h

theorem launchCompletion a0 : Statement (.launchCompletion a0) := fun _ _ h => nomatch h

theorem completionFlush a0 : Statement (.completionFlush a0) := fun _ _ h => nomatch h

theorem pageRecall a0 : Statement (.pageRecall a0) := fun _ _ h => nomatch h

theorem rdcWriteThrough a0 a1 : Statement (.rdcWriteThrough a0 a1) := fun _ _ h => nomatch h

theorem ldfWake a0 a1 : Statement (.ldfWake a0 a1) := fun _ _ h => nomatch h

theorem ldfRepoll a0 a1 : Statement (.ldfRepoll a0 a1) := fun _ _ h => nomatch h

theorem copyCompletion a0 a1 : Statement (.copyCompletion a0 a1) := fun _ _ h => nomatch h

theorem guardGrant a0 : Statement (.guardGrant a0) := fun _ _ h => nomatch h

theorem leaseExpiry a0 : Statement (.leaseExpiry a0) := fun _ _ h => nomatch h

theorem sealNotice a0 : Statement (.sealNotice a0) := fun _ _ h => nomatch h

theorem handlerActivation a0 : Statement (.handlerActivation a0) := fun _ _ h => nomatch h

theorem handlerOverrun a0 : Statement (.handlerOverrun a0) := fun _ _ h => nomatch h

theorem debugHalt a0 a1 : Statement (.debugHalt a0 a1) := fun _ _ h => nomatch h

theorem debugStep a0 a1 : Statement (.debugStep a0 a1) := fun _ _ h => nomatch h

theorem evtset a0 : Statement (.evtset a0) := fun _ _ h => nomatch h

theorem wfeTimeout a0 : Statement (.wfeTimeout a0) := fun _ _ h => nomatch h

theorem killComplete a0 : Statement (.killComplete a0) := fun _ _ h => nomatch h

theorem errorRetry a0 a1 : Statement (.errorRetry a0 a1) := fun _ _ h => nomatch h

theorem matrixCommandArrival a0 : Statement (.matrixCommandArrival a0) := fun _ _ h => nomatch h

theorem slabFullWait a0 : Statement (.slabFullWait a0) := fun _ _ h => nomatch h

theorem rowClose a0 : Statement (.rowClose a0) := fun _ _ h => nomatch h

theorem spillReplay a0 : Statement (.spillReplay a0) := fun _ _ h => nomatch h

theorem hardwareSave a0 : Statement (.hardwareSave a0) := fun _ _ h => nomatch h

theorem hardwareRestore a0 : Statement (.hardwareRestore a0) := fun _ _ h => nomatch h

theorem mwaitQuery a0 : Statement (.mwaitQuery a0) := fun _ _ h => nomatch h

theorem engineTimeout a0 : Statement (.engineTimeout a0) := fun _ _ h => nomatch h

theorem macroParity a0 a1 a2 : Statement (.macroParity a0 a1 a2) := fun _ _ h => nomatch h

theorem roundStart a0 : Statement (.roundStart a0) := fun _ _ h => nomatch h

theorem roundEnd a0 : Statement (.roundEnd a0) := fun _ _ h => nomatch h

theorem setEnd a0 : Statement (.setEnd a0) := fun _ _ h => nomatch h

theorem engineFault a0 : Statement (.engineFault a0) := fun _ _ h => nomatch h

theorem indexElement a0 a1 : Statement (.indexElement a0 a1) := fun _ _ h => nomatch h

theorem sorrelHandler a0 : Statement (.sorrelHandler a0) := fun _ _ h => nomatch h

theorem hBound a0 : Statement (.hBound a0) := fun _ _ h => nomatch h

theorem tempRefresh a0 a1 a2 : Statement (.tempRefresh a0 a1 a2) := fun _ _ h => nomatch h

theorem doorbell a0 a1 a2 : Statement (.doorbell a0 a1 a2) := fun _ _ h => nomatch h

theorem recordConsume a0 : Statement (.recordConsume a0) := fun _ _ h => nomatch h

theorem launchFormation a0 : Statement (.launchFormation a0) := fun _ _ h => nomatch h

theorem dependenceMet a0 : Statement (.dependenceMet a0) := fun _ _ h => nomatch h

theorem abort a0 : Statement (.abort a0) := fun _ _ h => nomatch h

theorem pageWalk a0 a1 a2 : Statement (.pageWalk a0 a1 a2) := fun _ _ h => nomatch h

theorem storageService a0 a1 : Statement (.storageService a0 a1) := fun _ _ h => nomatch h

theorem nvmeCompletion a0 a1 a2 : Statement (.nvmeCompletion a0 a1 a2) := fun _ _ h => nomatch h

theorem storageTimeout a0 a1 : Statement (.storageTimeout a0 a1) := fun _ _ h => nomatch h

theorem evictionRun a0 : Statement (.evictionRun a0) := fun _ _ h => nomatch h

theorem notresDecline a0 a1 : Statement (.notresDecline a0 a1) := fun _ _ h => nomatch h

theorem ownershipWrite a0 a1 a2 a3 : Statement (.ownershipWrite a0 a1 a2 a3) := fun _ _ h => nomatch h

theorem keyWrite a0 a1 a2 a3 : Statement (.keyWrite a0 a1 a2 a3) := fun _ _ h => nomatch h

theorem scrubComplete a0 : Statement (.scrubComplete a0) := fun _ _ h => nomatch h

theorem hostAcq a0 a1 : Statement (.hostAcq a0 a1) := fun _ _ h => nomatch h

theorem hostAcqs a0 a1 : Statement (.hostAcqs a0 a1) := fun _ _ h => nomatch h

theorem hostRls a0 a1 : Statement (.hostRls a0 a1) := fun _ _ h => nomatch h

theorem hostTlbinv a0 a1 a2 : Statement (.hostTlbinv a0 a1 a2) := fun _ _ h => nomatch h

theorem fullStart : Statement (.fullStart ) := fun _ _ h => nomatch h

theorem mlayout a0 a1 : Statement (.mlayout a0 a1) := fun _ _ h => nomatch h

theorem dieJoin a0 a1 : Statement (.dieJoin a0 a1) := fun _ _ h => nomatch h

theorem cowslipVerify : Statement (.cowslipVerify ) := fun _ _ h => nomatch h

theorem recoveryImage a0 : Statement (.recoveryImage a0) := fun _ _ h => nomatch h

theorem throttleStepDown : Statement (.throttleStepDown ) := fun _ _ h => nomatch h

theorem throttleStepUp : Statement (.throttleStepUp ) := fun _ _ h => nomatch h

theorem thermalTrip : Statement (.thermalTrip ) := fun _ _ h => nomatch h

theorem pcieInbound a0 a1 a2 : Statement (.pcieInbound a0 a1 a2) := fun _ _ h => nomatch h

theorem peroldInbound a0 a1 a2 : Statement (.peroldInbound a0 a1 a2) := fun _ _ h => nomatch h

theorem registerWrite a0 a1 a2 a3 : Statement (.registerWrite a0 a1 a2 a3) := fun _ _ h => nomatch h

theorem tlbinvCompletion a0 : Statement (.tlbinvCompletion a0) := fun _ _ h => nomatch h

theorem yarrowHartAccess a0 a1 : Statement (.yarrowHartAccess a0 a1) := fun _ _ h => nomatch h

theorem pcieCompletionTimeout a0 a1 : Statement (.pcieCompletionTimeout a0 a1) := fun _ _ h => nomatch h

end Sys2Proof.Laws.Coding
end

