-- ==== Sys2Proof/Safety.lean ====
section
/-! DEFINITION. The terms in which claims are made: safe runs, when an instruction can have its own effect, and what may change
when it has it. -/

namespace Sys2Proof.Machine

open Sys2Proof

/-! ### Safe runs -/

/-- The machine can go on: its next step is neither a fault nor a refusal. -/
def State.goesOn (s : State) : Prop := ∃ t, step s = .next t

/-- A run of steps that never stops short. -/
def State.runsSafely : Nat → State → Prop
  | 0, _ => True
  | n + 1, s => ∃ t, step s = .next t ∧ State.runsSafely n t

/-! ### When an instruction has its own effect -/

/-- Nothing that spec/03_encoding.md R75 tests before the effect stands in the way of the task in focus: the instruction is
well formed, the task may run it (R74), its guard is known and true (R66, R73), the narrow formats that it uses are valid
(R58), and no register that it reads or writes is pending (R73). -/
structure State.Ready (s : State) (r : Row) (f : Flds) : Prop where
  wf : f.wf r = true
  mode : s.t.mayRun r = true
  guardKnown : s.t.seen.pending (.p f.hd.gp) = false
  guard : s.t.seen.guard f.hd = true
  formats : ∀ k ∈ narrowsOf r f, (NFmt.ofBits (s.t.seen.rf k)).valid = true
  sources : ∀ x ∈ readsOf r f, s.t.seen.pending x = false
  dests : ∀ x ∈ writesOf r f, s.t.seen.pending x = false

/-- The same of an instruction that has a word. -/
def State.Runs (s : State) (i : Instr) : Prop :=
  match i.info with
  | some (r, f) => s.Ready r f
  | none => False

/-! ### What is read of the state -/

/-- The bits of a line that a register keeps (spec/03_encoding.md R57). -/
def Reg.trim (x : Reg) (v : Line) : Line :=
  match x with
  | .g _ | .m _ => (v.setWidth 64).setWidth 512
  | .v _ => v
  | .p _ => if v.getLsbD 0 then 1 else 0
  | .fmt _ => (v.setWidth 32).setWidth 512

/-- A byte of physical memory, as its home gives it. -/
def State.byteAt (s : State) (pa : Nat) : Nat := sliceLine (s.homeRead pa).1 (pa % 64) 1

/-- A byte of a core's local store. -/
def State.localByte (s : State) (core off : Nat) : Nat := s.lsRead core off 1

/-! ### What may change -/

/-- Of one task's state, only register values, FLAGS and the code address change: the registers of `ws` take their values, FLAGS
takes the flags of `fl` in addition, execution goes on at `pc`. Everything else in the device is as before: every other
register, every special and exception register, all of memory. (`dirty`, `bad` and `logs` are the bookkeeping of
spec/05_scalar.md R88 for the registers written, `view` the model's own.) -/
structure Effect (s t : State) (ws : List (Reg × Line)) (fl : Flags) (pc : Word) : Prop where
  result : ∀ e ∈ ws, e.1.hardwired = false → t.t.regs.read e.1 = Reg.trim e.1 e.2
  kept : ∀ x, (∀ e ∈ ws, x = e.1 → x.hardwired = true) → t.t.regs.read x = s.t.regs.read x
  pending : t.t.regs.pend = s.t.regs.pend
  rest : t = { s with
    t := { s.t with regs := t.t.regs, dirty := t.t.dirty, bad := t.t.bad, pc := pc, view := none,
                    sys := { s.t.sys with flags := s.t.sys.flags ||| fl } }
    logs := t.logs }
  memory : ∀ pa, t.byteAt pa = s.byteAt pa
  locals : ∀ core off, t.localByte core off = s.localByte core off

/-- A long op issues (spec/03_encoding.md R71): it joins the outstanding ones, its destinations become pending, and execution goes
on in sequence. No register value and nothing else in the device changes. -/
structure Issues (s t : State) (ds : List Reg) (l : LongOp) : Prop where
  joined : t.t.long = s.t.long ++ [l]
  dests : l.dsts = ds
  pending : ∀ x, t.t.regs.pending x = (s.t.regs.pending x || (!x.hardwired && ds.contains x))
  values : ∀ x, t.t.regs.read x = s.t.regs.read x
  rest : t = { s with
    t := { s.t with regs := t.t.regs, long := t.t.long, pc := nextPc s.t.pc, view := none }
    ops := s.ops + 1 }
  memory : ∀ pa, t.byteAt pa = s.byteAt pa
  locals : ∀ core off, t.localByte core off = s.localByte core off

/-- The task in focus takes a trap (spec/13_traps.md R219): it enters the trapped state with CAUSE and TRAPPC, its trap record is
made, and its slot joins its core's trap queue, in slot order among the traps of one cycle. Its registers and everything else
keep their values; a versioned task loses its version and scratch (spec/01_machine.md R39), with the commands held under its
open slots, whose `mcap` results the operand log then shows. -/
structure Traps (s t : State) (c : Nat) (pc : Word) (r : TrapRec) : Prop where
  status : t.t.sched.status = .trapped
  slot : t.t.sched.slot = s.t.sched.slot
  cause : t.t.sys.cause = BitVec.ofNat 64 c
  trappc : t.t.sys.trappc = pc
  record : t.t.tr = { r with cause := c, vers := s.t.versioned, slot := s.t.sched.slot.getD 0, pc := pc }
  plain : s.t.versioned = false → t.t = { s.t with sys := t.t.sys, tr := t.t.tr, view := none, recovered := [], sched := t.t.sched } ∧
    t.t.sys = { s.t.sys with cause := t.t.sys.cause, trappc := t.t.sys.trappc }
  versioned : s.t.versioned = true → c ≠ 0x5C → t.t.version = [] ∧ t.t.scratch = []
  queue : s.t.sched.slot.getD 7 < 7 → t.core s.t.sched.core =
    { s.core s.t.sched.core with
      trapq := enqueueTrap (s.core s.t.sched.core).trapq s.dev.cycle (s.t.sched.slot.getD 7) }
  rest : t = { s with t := t.t, cores := t.cores, logs := t.logs }
  plainLogs : s.t.versioned = false → t.logs = s.logs
  otherCores : ∀ n, n ≠ s.t.sched.core → t.core n = s.core n

/-- The task in focus parks at its instruction, which it tries again once it is able to issue (spec/01_machine.md R26); nothing
else changes. -/
def Parks (s t : State) (w : Wait) : Prop :=
  t = { s with t := { s.t with sched := { s.t.sched with status := .parked, wait := some w } } }

end Sys2Proof.Machine
end

