-- ==== Sys2Proof/Certificates/Slice0/Obligations.lean ====
section
/-! DEFINITION. The statements for the provers, family by family, with the tables that they rest on. A table gives, for an
instruction of a shape, the operands and the values that the rule it cites gives it; where the model computes an address or a
value by a function of its own, the table applies the same function. -/

namespace Sys2Proof.Machine

open Sys2Proof

/-! ### A step and the instruction it runs -/

/-- The core has its turn to issue next, in the state `u`: the agenda names it, or the agenda is empty, no event happens of
itself, and it is the first core that can issue. -/
def State.TurnOf (s : State) (core : Nat) (u : State) : Prop :=
  (∃ rest, s.agenda = .ev (.issueCycle core) :: rest ∧ u = { s with agenda := rest }) ∨
  (s.agenda = [] ∧ s.candidates.findSome? s.stirred = none ∧ s.issuer = some core ∧ u = s)

/-- Nothing of the task in focus comes before its next instruction: no trap or debug request is held, no blocking load or
`mcap` is waited for, no acquire of a dependant launch is due, its entry and the target that it resumed at have been checked,
no sequence runs, and the breakpoint register is off. -/
structure State.Undisturbed (s : State) : Prop where
  late : s.t.sched.late = []
  overflow : s.t.sched.overflow = false
  debug : s.t.sched.debug = none
  words : ∀ l ∈ s.t.long, ∀ u va pa, l.act ≠ .ldf u va pa true ∨ l.vals ≠ []
  caps : ∀ h ∈ s.t.held, ∀ o, h.ins ≠ .mcap o
  fence : s.fenceDue = false
  entered : s.t.sched.entered = true
  resumed : s.t.sched.resumeFrom = none
  sequence : s.t.seq.act = false ∧ s.t.seq.stream = none
  breakpoint : field s.t.sys.bkpc.toNat 16 16 = 0

/-- The instructions need not wait for long ops or stores (spec/03_encoding.md R72, spec/13_traps.md R226). -/
def Task.clearFor (t : Task) (is : List Instr) : Bool :=
  !(t.mustDrain is && decide (0 < t.outcnt)) && (t.versioned || !t.trapPoint is) && !t.pairClash is

/-- The state in which a core's chosen instructions run: the slot is noted as the one that issued last. -/
def State.issuedFrom (s : State) (core slot : Nat) : State :=
  { s.onCore core fun c => { c with last := slot, issuedAt := some s.dev.cycle } with plan := [] }

/-- What follows an instruction that led from `u` to `v`: if it went through, a breakpoint that was resumed from is passed,
and older
stores are one instruction further away; the service of a page that its access waited for is over for it (R346). -/
def State.counted (u v : State) : State := u.reissued (if v.t.went then u.passOne v else v)

/-- The end of an issue. -/
def State.endIssue (v : State) : State := v.seqEnd.afterIssue.closeAct true

end Sys2Proof.Machine

open Sys2Proof Sys2Proof.Machine

/-- A step runs the decoded instruction: when a core has its turn and chooses a slot whose task is undisturbed, and the line at
the task's code address holds in the slot of that address a word that decodes to `i`, unpaired, then the step is `exec` of `i`
in the state after the fetch, with what the issue adds around it, where the parity of the registers and of the frame words that it reads holds. -/
def Obligations.StepRunsDecodedInstruction : Prop :=
  ∀ (s u f : State) (core k slot : Nat) (l : Line) (i : Instr),
    s.dev.stopped = false → s.TurnOf core u → core < 4096 → (u.core core).withdrawn = false →
    (u.core core).issuedAt ≠ some u.dev.cycle → u.dev.stage = 2 →
    ((u.ageWaiting core).fillSlots core 6).chooseSlot core = some (k, slot) →
    let v := (((u.ageWaiting core).fillSlots core 6).focus k).onT fun t => { t with sched := { t.sched with heldAt := none } }
    v.Undisturbed →
    v.fetchLine v.t.sched.core (v.rootOf v.t) v.t.isHandler v.t.pc = (.line l, f) →
    lineReserved l = 0 → decode (slotWord l (v.t.pc.toNat % 8)) = .ok i →
    pairsAt (linePair l) (v.t.pc.toNat % 8) = false → f.t = v.t → f.t.clearFor [i] = true → f.t.failing [i] = none →
    f.t.failingWords [i] = none →
    step s = match exec i (f.issuedFrom core slot) with
      | .next w => .next (State.counted (f.issuedFrom core slot) w).endIssue
      | .fault x => .fault x
      | .refused x => .refused x

/-- Both instructions of a pair run in one step (spec/03_encoding.md R70): when the template pairs the slot with the next, both
words decode and the pair is one that may issue together, the step runs the first; if it went through, the second runs in the
state that the first left, but reads the registers as they stood before the pair. If the first does not go through, the second
does not run. -/
def Obligations.PairRunsBothInOneStep : Prop :=
  ∀ (s u f : State) (core k slot : Nat) (l : Line) (i j : Instr),
    s.dev.stopped = false → s.TurnOf core u → core < 4096 → (u.core core).withdrawn = false →
    (u.core core).issuedAt ≠ some u.dev.cycle → u.dev.stage = 2 →
    ((u.ageWaiting core).fillSlots core 6).chooseSlot core = some (k, slot) →
    let v := (((u.ageWaiting core).fillSlots core 6).focus k).onT fun t => { t with sched := { t.sched with heldAt := none } }
    v.Undisturbed →
    v.decodeAt true v.t.pc = (.ins l i, f) → pairsAt (linePair l) (v.t.pc.toNat % 8) = true →
    (Instr.isRpt i && Instr.holds i f.t) = false → f.t = v.t → f.decodeAt false (v.t.pc + 1) = (.ins l j, f) → f.t.clearFor [i, j] = true → f.t.failing [i, j] = none →
    f.t.failingWords [i, j] = none →
    let a := f.issuedFrom core slot
    step s = match exec i a with
      | .next b =>
        let b := State.counted a b
        if b.t.went then
          match exec j { b with t := { b.t with view := some a.t.toView } } with
          | .next c =>
            .next (State.counted { b with t := { b.t with view := some a.t.toView } } c).endIssue
          | .fault x => .fault x
          | .refused x => .refused x
        else .next b.endIssue
      | .fault x => .fault x
      | .refused x => .refused x

/-! ### The checks before an effect -/

/-- Of an instruction that has a word, what spec/03_encoding.md R75 steps 7 to 11 decide, each step only where no earlier one
applies: privilege traps 0x06, a pending guard traps 0x04, a false guard makes the instruction do nothing but go on, a narrow
format that is not valid traps 0x40, a pending source traps 0x04 and a pending destination 0x05. A trap is the one of
spec/13_traps.md R219, with TRAPPC at the instruction. -/
def Sys2Proof.Machine.Claim.ChecksBeforeEffectInOrder : Prop :=
  ∀ (s : State) (i : Instr) (r : Row) (f : Flds), i.info = some (r, f) →
    (s.t.mayRun r = false → ∃ t, exec i s = .next t ∧ Traps s t 0x06 s.t.pc {}) ∧
    (s.t.mayRun r = true → s.t.seen.pending (.p f.hd.gp) = true → ∃ t, exec i s = .next t ∧ Traps s t 0x04 s.t.pc {}) ∧
    (s.t.mayRun r = true → s.t.seen.pending (.p f.hd.gp) = false → s.t.seen.guard f.hd = false →
      ∃ t, exec i s = .next t ∧ Effect s t [] 0 (nextPc s.t.pc)) ∧
    (s.t.mayRun r = true → s.t.seen.pending (.p f.hd.gp) = false → s.t.seen.guard f.hd = true →
      ((∃ k ∈ narrowsOf r f, (NFmt.ofBits (s.t.seen.rf k)).valid = false) →
        ∃ t, exec i s = .next t ∧ Traps s t 0x40 s.t.pc {}) ∧
      ((∀ k ∈ narrowsOf r f, (NFmt.ofBits (s.t.seen.rf k)).valid = true) →
        ((∃ x ∈ readsOf r f, s.t.seen.pending x = true) → ∃ t, exec i s = .next t ∧ Traps s t 0x04 s.t.pc {}) ∧
        ((∀ x ∈ readsOf r f, s.t.seen.pending x = false) → (∃ x ∈ writesOf r f, s.t.seen.pending x = true) →
          ∃ t, exec i s = .next t ∧ Traps s t 0x05 s.t.pc {})))

/-- The guard of spec/03_encoding.md R66: with GI 0 the instruction takes effect if the predicate is true, with GI 1 if it is
false; (p0) always, (!p0) never. -/
def Sys2Proof.Machine.Claim.GuardReadsPredicate : Prop :=
  ∀ (r : Regs) (h : Head),
    (h.gi = false → r.guard h = r.rp h.gp) ∧ (h.gi = true → r.guard h = !r.rp h.gp) ∧
    (h.gp = 0 → h.gi = false → r.guard h = true) ∧ (h.gp = 0 → h.gi = true → r.guard h = false)

/-- What stands before the effect of every instruction that has a word: the guard of spec/03_encoding.md R66, and the checks
of R75 steps 7 to 11 in their order. -/
def Obligations.ChecksBeforeEffect : Prop :=
  Claim.GuardReadsPredicate ∧ Claim.ChecksBeforeEffectInOrder

/-! ### Registers -/

/-- The register file of spec/03_encoding.md R57: g0 reads zero, p0 true and m0 all ones whatever was written; every other
register reads as written, in its width; a write changes no other register; hard-wired registers are never pending. -/
def Obligations.RegisterFileReadsAsWritten : Prop :=
  ∀ (r : Regs) (x y : Reg) (v : Line),
    (r.write x v).rg 0 = 0 ∧ (r.write x v).rp 0 = true ∧ (r.write x v).rm 0 = BitVec.allOnes 64 ∧
    (x.hardwired = false → (r.write x v).read x = Reg.trim x v) ∧
    (x.hardwired = true → r.write x v = r) ∧
    (y ≠ x → (r.write x v).read y = r.read y) ∧
    (x.hardwired = true → (r.mark [x]).pending x = false) ∧
    (x.hardwired = false → (r.mark [x]).pending x = true) ∧
    (y ≠ x → (r.mark [x]).pending y = r.pending y) ∧ (r.unmark [x]).pending x = false

/-! ### Words -/

/-- Words written out bit by bit from the formats of spec/03_encoding.md R56 to R65 and the map of R78 decode to the
instructions that they stand for; words that the rules reject are rejected. -/
def Obligations.WordsDecodeAsWritten : Prop :=
  -- (!p2) sub.n32 g5.csat, scale code 1, g6, g7, marker S
  decode 0b1_0010_1_00000001_0001_0000101_100_0001_0000110_0_0_0000111_0_0_0000000_0_0_00110_00000000000000000000000000000000#96 = .ok (
    .sub ⟨⟨true, 2, true⟩, .g 5, .csat, 1, ⟨.g 6, false, false⟩, ⟨.g 7, false, false⟩, ⟨.g 0, false, false⟩, some .n32,
      0, .frmode, .eq⟩) ∧
  -- ffma.rtz.f32 g1, -g2, |g3|, g4
  decode 0b0_0000_0_01000011_0010_0000001_000_0000_0000010_1_0_0000011_0_1_0000100_0_0_01010_00000000000000000000000000000000#96 = .ok (
    .ffma ⟨⟨false, 0, false⟩, .g 1, .none, 0, ⟨.g 2, true, false⟩, ⟨.g 3, false, true⟩, ⟨.g 4, false, false⟩,
      some .f32, 0, .rtz, .eq⟩) ∧
  -- vadd.i16 v3, v4, v5 under m2
  decode 0b0_0000_0_01011000_0000_1000011_000_0000_1000100_0_0_1000101_0_0_1110010_0_0_00001_00000000000000000000000000000000#96 = .ok (
    .vadd ⟨⟨false, 0, false⟩, .v 3, .none, 0, ⟨.v 4, false, false⟩, ⟨.v 5, false, false⟩, ⟨.m 2, false, false⟩,
      some .i16, 0, .frmode, .eq⟩) ∧
  -- cmp.lt.and.i64 p1, p2, g8, 100
  decode 0b0_0000_0_00110000_0010_1100001_001_0010_0001000_0_0_0000000_0_0_000000000_00011_00000000000000000000000001100100#96 = .ok (
    .cmp ⟨⟨false, 0, false⟩, .p 1, .conj, 2, ⟨.g 8, false, false⟩, ⟨.g 0, false, false⟩, some .i64, 100, .lt⟩) ∧
  -- ld.n32.device g9, [g10 + g11*4 - 8]
  decode 0b0_0000_0_10000000_0000_0001001_000_0000_0001010_00_0001011_00_010_011_000_00110_11111111111111111111111111111000#96 = .ok (
    .ld ⟨⟨false, 0, false⟩, .g 9, 0, .g 10, .g 11, 2, .device, .normal, some .n32, 0xFFFFFFF8⟩) ∧
  -- stv.f32 [g1 + 64], v31
  decode 0b0_0000_0_10000001_0001_1011111_000_0000_0000001_00_0000000_00_000_000_000_01010_00000000000000000000000001000000#96 = .ok (
    .stv ⟨⟨false, 0, false⟩, .v 31, 0, .g 1, .g 0, 0, .core, .normal, some .f32, 64⟩) ∧
  -- br to slot 1, two lines back
  decode 0b0_0011_0_00100001_0000_00000000000000_0000000_0000000000000000000000000_11111111111111111111111111110_001#96 = .ok (
    .br ⟨⟨false, 3, false⟩, .g 0, 0x1FFFFFFE, 1⟩) ∧
  -- ocas.n64.die g12, [g13 + 8], g14, g15 with pE p4
  decode 0b0_0000_0_10100000_0111_0001100_010_0100_0001101_00_0001110_00_0001111_00_00111_0101_0000000000000000000000001000#96 = .ok (
    .ocas ⟨⟨false, 0, false⟩, .g 12, .die, 4, .g 13, ⟨.g 14, false, false⟩, ⟨.g 15, false, false⟩, some .n64, 5, 8⟩) ∧
  -- copy tag 7, [g1], [g2], g3
  decode 0b0_0000_0_10001100_0000_0000000_000_0000_0000001_00_0000010_00_0000011_00_00000_0000_0000000000000000000000000111#96 = .ok (
    .copy ⟨⟨false, 0, false⟩, .g 0, .core, 0, .g 1, ⟨.g 2, false, false⟩, ⟨.g 3, false, false⟩, none, 0, 7⟩) ∧
  -- sysr g20, 0x004
  decode 0b0_0000_0_11110001_0000_0010100_0000000_0000000_0000000000000000000000000_00000000000000000000000000000100#96 = .ok (
    .sysr ⟨⟨false, 0, false⟩, .g 20, .g 0, 4⟩) ∧
  -- the canonical nop of R79
  decode 0x048000000000000000000000#96 = .ok (.nop ⟨⟨false, 0, true⟩, .g 0, .g 0, 0⟩) ∧
  -- zero-filled memory: major 0x00 is unassigned
  decode 0#96 = .error .illegal ∧
  -- clamp code 101 is reserved
  decode 0b0_0000_0_00000001_0000_0000001_101_0000_0000010_0_0_0000011_0_0_0000000_0_0_00011_00000000000000000000000000000000#96 =
    .error .reservedField ∧
  -- a type that add does not accept
  decode 0b0_0000_0_00000001_0000_0000001_000_0000_0000010_0_0_0000011_0_0_0000000_0_0_01010_00000000000000000000000000000000#96 =
    .error .illegal

/-- The decoder and the encoder agree: every well-formed instruction of every family that has a word decodes from its word with
every field at its value, and a word that decodes is the word of what it decodes to, which is well formed. -/
def Obligations.DecodeAndEncodeAgree : Prop :=
  (∀ i : Instr, i.coded = true → i.wf = true → ∃ w, encode i = some w ∧ decode w = .ok i) ∧
  (∀ (w : BitVec 96) (i : Instr), decode w = .ok i → i.coded = true ∧ i.wf = true ∧ encode i = some w)

/-! ### Reset, and what every step keeps -/

/-- No task waits in vain: whatever has come that a waiting task waits for has woken it (spec/01_machine.md R26, R27). -/
def Sys2Proof.Machine.State.NoneMissed (s : State) : Prop :=
  ∀ k t w, s.task? k = some t → t.sched.status = .parked ∨ t.sched.status = .ready → t.sched.dying = none →
    t.sched.wait = some w → s.waitMet k t w = false

/-- Every step, from every state, leaves no task waiting in vain. -/
def Obligations.StepLeavesNoWaiterMissed : Prop := ∀ s t, step s = .next t → t.NoneMissed

/-- After reset: no task and no launch is there; no memory is listed and every core's queues are empty (log entries 1 and 2:
the spec
gives no contents); partition 0 owns every unit; SCHEDCFG, TLIM and the host-port blocks hold the reset values that
spec/01_machine.md R43 and spec/23_host.md R355 and R356 give, GDONE and TDONE 1 and the rest zero; boot has not begun; and no task
waits in vain. -/
def Obligations.ResetLeavesStatedValues : Prop :=
  let s := State.reset
  s.allTasks = [] ∧ s.launches = [] ∧ s.mem.dram = [] ∧ s.mem.ls = [] ∧
  (∀ n, s.corePart n = 0) ∧ (∀ q, s.queuePart q = 0) ∧ (∀ c, (s.ownOf c).part = 0 ∧ (s.ownOf c).crm = false) ∧
  (∀ n, (s.core n).hentry = 0 ∧ (s.core n).fpbase = 0 ∧ (s.core n).fplim = 0 ∧ (s.core n).fmap = 0 ∧ (s.core n).trapq = [] ∧
    (s.core n).sfq = [] ∧ (s.core n).requests = [] ∧ (s.core n).waiting = [] ∧ (s.core n).copies = [] ∧ (s.core n).outq = [] ∧
    (s.core n).deque = [] ∧ (s.core n).munit.queue = []) ∧
  (∀ b, (s.dev.host.get {} b).gdone = true ∧ (s.dev.host.get {} b).pending = [] ∧ hostRead (s.dev.host.get {} b) 0x08 = 2 ^ 63 ∧
    hostRead (s.dev.host.get {} b) 0x10 = 0 ∧ hostRead (s.dev.host.get {} b) 0x20 = 2 ^ 63) ∧
  (∀ d, (s.die d).migen = true ∧ (s.die d).qthr = 0x800 ∧ (s.die d).cxu = 0) ∧
  s.dev.tlim = 105 ∧ s.dev.stage = 0 ∧ s.dev.stopped = false ∧ s.dev.out = [] ∧ s.NoneMissed

/-! ### Integer instructions (spec/05_scalar.md R90 to R96) -/

namespace Sys2Proof.Machine

/-- The exact results of spec/05_scalar.md R92, of the source values after extension and modifiers. -/
def Claim.exactInt (s : State) (i : Instr) : Option (OpA × Int) :=
  let w (o : OpA) : Int := ((2 ^ (OpA.type o).width : Nat) : Int)
  let a (o : OpA) := s.intSrc (OpA.type o) o.a
  let b (o : OpA) := s.intB (OpA.type o) o
  match i with
  | .add o => some (o, a o + b o)
  | .sub o => some (o, a o - b o)
  | .madd o => some (o, a o * b o + s.intSrc (OpA.type o) o.c)
  | .mul o => some (o, a o * b o)
  | .mulh o | .mulhn o => some (o, a o * b o / w o)
  | .min o | .minn o => some (o, if a o ≤ b o then a o else b o)
  | .max o | .maxn o => some (o, if a o ≥ b o then a o else b o)
  | _ => none

/-- A w-bit result extended by the signedness of its type (spec/05_scalar.md R83). -/
def Claim.widen (t : Ty) (x : BitVec t.width) : Word := if t.isI then x.signExtend 64 else x.setWidth 64

/-- The w-bit value of a g source. -/
def Claim.valueA (s : State) (o : OpA) : BitVec (OpA.type o).width := (s.readW o.a.reg).setWidth _

/-- The w-bit value of source B, a register or the immediate read under R59. -/
def Claim.valueB (s : State) (o : OpA) : BitVec (OpA.type o).width :=
  if o.b.reg = .zero then BitVec.ofNat _ (immBits (OpA.type o) o.imm) else (s.readW o.b.reg).setWidth _

/-- The shift count of spec/05_scalar.md R93: b<5:0> mod w; an immediate count is IMM zero-extended. -/
def Claim.count (s : State) (o : OpA) : Nat :=
  ((if o.b.reg = .zero then o.imm.setWidth 64 else s.readW o.b.reg).toNat % 64) % (OpA.type o).width

/-- The results of spec/05_scalar.md R93, within w bits. -/
def Claim.bitwise (s : State) (i : Instr) : Option ((o : OpA) × BitVec (OpA.type o).width) :=
  let a (o : OpA) := Claim.valueA s o
  let b (o : OpA) := Claim.valueB s o
  let n (o : OpA) := Claim.count s o
  match i with
  | .and o => some ⟨o, a o &&& b o⟩
  | .or o => some ⟨o, a o ||| b o⟩
  | .xor o => some ⟨o, a o ^^^ b o⟩
  | .andn o => some ⟨o, a o &&& ~~~ b o⟩
  | .shl o => some ⟨o, a o <<< n o⟩
  | .shr o => some ⟨o, a o >>> n o⟩
  | .sra o => some ⟨o, (a o).sshiftRight (n o)⟩
  | .rol o => some ⟨o, (a o <<< n o) ||| (a o >>> ((OpA.type o).width - n o))⟩
  | .ror o => some ⟨o, (a o >>> n o) ||| (a o <<< ((OpA.type o).width - n o))⟩
  | _ => none

/-- The positions where a value holds ones, from bit 0 up. -/
def Claim.ones {w : Nat} (x : BitVec w) : List Nat := (List.range w).filter x.getLsbD

/-- y is x / 2^n rounded to the nearest integer, a tie to the even one. -/
def Claim.RoundsEven (x : Int) (n : Nat) (y : Int) : Prop :=
  2 * ((2 ^ n : Nat) * y - x).natAbs ≤ 2 ^ n ∧ (2 * ((2 ^ n : Nat) * y - x).natAbs = 2 ^ n → y % 2 = 0)

end Sys2Proof.Machine

/-- An integer destination is formed as spec/03_encoding.md R68 says: the exact result times 2^k, exact where k is not negative
and else rounded to nearest even, then clamped, then taken modulo 2^w; only `csat` sets a flag, SAT, when it changes the value. -/
def Sys2Proof.Machine.Claim.IntegerDestinationFormed : Prop :=
  ∀ (t : Ty) (cl : Clamp) (k : BitVec 4) (x : Int), ∃ y z : Int,
    (0 ≤ k.toInt → y = x * (2 ^ k.toInt.toNat : Nat)) ∧
    (k.toInt < 0 → Claim.RoundsEven x (-k.toInt).toNat y) ∧
    z = (match cl with
      | .none => y
      | .c01 => min (max y 0) 1
      | .c11 => min (max y (-1)) 1
      | .cpos => max y 0
      | .csat => min (max y t.minInt) t.maxInt) ∧
    (intForm t cl k x).1 = (z % (2 ^ t.width : Nat)).toNat ∧
    (intForm t cl k x).2 = (if cl = .csat ∧ z ≠ y then fSAT else 0)

/-- Integer arithmetic (`add`, `sub`, `madd`, `mul`, `mulh`, `mulhn`, `min`, `max`, `minn`, `maxn`) completes with the result of
spec/05_scalar.md R92, formed under R68, in its destination. No register but the destination and no flag but SAT changes. -/
def Sys2Proof.Machine.Claim.IntegerArithmeticResults : Prop :=
  ∀ s i o x, Claim.exactInt s i = some (o, x) → s.Runs i →
    let ty := OpA.type o
    ∃ t, exec i s = .next t ∧
      Effect s t [(o.dst, (ty.extend (intForm ty o.clamp o.scale x).1).setWidth 512)] (intForm ty o.clamp o.scale x).2
        (nextPc s.t.pc)

/-- Integer destinations are formed as spec/03_encoding.md R68 says, and the integer arithmetic of spec/05_scalar.md R92
completes with them. -/
def Obligations.IntegerArithmeticCompletes : Prop :=
  Claim.IntegerDestinationFormed ∧ Claim.IntegerArithmeticResults

/-- In their plain 64-bit forms, with register sources and neither modifier, clamp nor scale, `add`, `sub`, `mul` and `madd` are
the arithmetic of 64-bit words, whichever the signedness, and set no flag. -/
def Obligations.PlainWordArithmetic : Prop :=
  ∀ (s : State) (o : OpA), (o.ty = some .i64 ∨ o.ty = some .n64) → o.clamp = .none → o.scale = 0 → o.b.reg ≠ .zero →
    o.a.neg = false → o.a.abs = false → o.b.neg = false → o.b.abs = false → o.c.neg = false → o.c.abs = false →
    let a := s.readW o.a.reg
    let b := s.readW o.b.reg
    let c := s.readW o.c.reg
    (s.Runs (.add o) → ∃ t, exec (.add o) s = .next t ∧ Effect s t [(o.dst, (a + b).setWidth 512)] 0 (nextPc s.t.pc)) ∧
    (s.Runs (.sub o) → ∃ t, exec (.sub o) s = .next t ∧ Effect s t [(o.dst, (a - b).setWidth 512)] 0 (nextPc s.t.pc)) ∧
    (s.Runs (.mul o) → ∃ t, exec (.mul o) s = .next t ∧ Effect s t [(o.dst, (a * b).setWidth 512)] 0 (nextPc s.t.pc)) ∧
    (s.Runs (.madd o) → ∃ t, exec (.madd o) s = .next t ∧
      Effect s t [(o.dst, (a * b + c).setWidth 512)] 0 (nextPc s.t.pc))

/-- Logic, shifts and rotations (`and`, `or`, `xor`, `andn`, `shl`, `shr`, `sra`, `rol`, `ror`) complete with the w-bit result
of
spec/05_scalar.md R93, extended according to the type, and set no flag. -/
def Sys2Proof.Machine.Claim.BitwiseAndShiftsComplete : Prop :=
  ∀ s i o x, Claim.bitwise s i = some ⟨o, x⟩ → s.Runs i →
    ∃ t, exec i s = .next t ∧ Effect s t [(o.dst, (Claim.widen (OpA.type o) x).setWidth 512)] 0 (nextPc s.t.pc)

/-- Bit counts and bit gathering of spec/05_scalar.md R94: `clz` and `ctz` write the number of leading or trailing zeros of the
w-bit value (w for zero), `popc` the number of ones, as unsigned 64-bit values; `bext` packs the bits of a at the ones of b into
the low bits, and `bdep` spreads the low bits of a to the ones of b, with zeros elsewhere. -/
def Sys2Proof.Machine.Claim.BitEffectsComplete : Prop :=
  ∀ (s : State) (o : OpA),
    let w := (OpA.type o).width
    let a := Claim.valueA s o
    let b := Claim.valueB s o
    (s.Runs (.clz o) → ∃ n t, n ≤ w ∧ (∀ j, w - n ≤ j → a.getLsbD j = false) ∧ (n < w → a.getLsbD (w - 1 - n) = true) ∧
      exec (.clz o) s = .next t ∧ Effect s t [(o.dst, BitVec.ofNat 512 n)] 0 (nextPc s.t.pc)) ∧
    (s.Runs (.ctz o) → ∃ n t, n ≤ w ∧ (∀ j, j < n → a.getLsbD j = false) ∧ (n < w → a.getLsbD n = true) ∧
      exec (.ctz o) s = .next t ∧ Effect s t [(o.dst, BitVec.ofNat 512 n)] 0 (nextPc s.t.pc)) ∧
    (s.Runs (.popc o) → ∃ t, exec (.popc o) s = .next t ∧
      Effect s t [(o.dst, BitVec.ofNat 512 (Claim.ones a).length)] 0 (nextPc s.t.pc)) ∧
    (s.Runs (.bext o) → ∃ (x : BitVec w) (t : State),
      (∀ j, x.getLsbD j = ((Claim.ones b)[j]?.map a.getLsbD).getD false) ∧
      exec (.bext o) s = .next t ∧ Effect s t [(o.dst, (Claim.widen (OpA.type o) x).setWidth 512)] 0 (nextPc s.t.pc)) ∧
    (s.Runs (.bdep o) → ∃ (x : BitVec w) (t : State),
      (∀ j p, (Claim.ones b)[j]? = some p → x.getLsbD p = a.getLsbD j) ∧ (∀ p, b.getLsbD p = false → x.getLsbD p = false) ∧
      exec (.bdep o) s = .next t ∧ Effect s t [(o.dst, (Claim.widen (OpA.type o) x).setWidth 512)] 0 (nextPc s.t.pc))

/-- Logic, shifts, rotations (spec/05_scalar.md R93) and bit effects (R94) complete. -/
def Obligations.BitwiseInstructionsComplete : Prop :=
  Claim.BitwiseAndShiftsComplete ∧ Claim.BitEffectsComplete

/-- Divisions (`div`, `divn`, `rem`, `remn`) issue as long ops whose result, ready at once, is that of spec/05_scalar.md R92:
the
quotient truncated toward zero or its remainder; by zero, all ones or the dividend; of the most negative value by −1, that value
or zero. No trap and no flag. -/
def Obligations.DivisionsIssueTheirResult : Prop :=
  ∀ (s : State) (i : Instr) (o : OpA) (rem : Bool),
    ((i = .div o ∨ i = .divn o) ∧ rem = false) ∨ ((i = .rem o ∨ i = .remn o) ∧ rem = true) →
    s.Runs i → s.t.outcnt < 64 →
    let ty := OpA.type o
    let a := s.intSrc ty o.a
    let b := s.intB ty o
    let x : Int := if b = 0 then (if rem then a else -1) else if rem then a - a.tdiv b * b else a.tdiv b
    ∃ t, exec i s = .next t ∧
      Issues s t [o.dst]
        { op := s.ops, pc := s.t.pc, dsts := [o.dst],
          vals := [(ty.extend (x % (2 ^ ty.width : Nat)).toNat).setWidth 512], act := .ready 0, since := s.dev.cycle, iter := s.t.iteration }

/-- Moves and selection (spec/05_scalar.md R95): `sel` writes a if its predicate is true and b otherwise; `mov` copies 64 bits
between g and m registers, bits 31:0 to a format register, and a format register's value zero-extended; `movi` writes the
sign-extended immediate, `movh` puts the immediate above a<31:0>. A `mov` to a format register that an outstanding `mfmt` will
capture traps 0x46 (spec/15_matrix.md R255). -/
def Sys2Proof.Machine.Claim.MovesComplete : Prop :=
  ∀ (s : State) (o : OpA),
    (∀ n, o.c.reg = .p n → s.Runs (.sel o) → ∃ t, exec (.sel o) s = .next t ∧
      Effect s t [(o.dst, (if s.t.seen.rp n then s.readW o.a.reg else s.wordB o.b o.imm).setWidth 512)] 0 (nextPc s.t.pc)) ∧
    (s.Runs (.mov o) → s.fmtBusy o.dst = false → ∃ t, exec (.mov o) s = .next t ∧
      Effect s t [(o.dst, (s.readW o.a.reg).setWidth 512)] 0 (nextPc s.t.pc)) ∧
    (s.Runs (.mov o) → s.fmtBusy o.dst = true → ∃ t, exec (.mov o) s = .next t ∧ Traps s t 0x46 s.t.pc {}) ∧
    (s.Runs (.movi o) → ∃ t, exec (.movi o) s = .next t ∧
      Effect s t [(o.dst, (o.imm.signExtend 64).setWidth 512)] 0 (nextPc s.t.pc)) ∧
    (s.Runs (.movh o) → ∃ t, exec (.movh o) s = .next t ∧
      Effect s t [(o.dst, (o.imm ++ (s.readW o.a.reg).setWidth 32 : BitVec 64).setWidth 512)] 0 (nextPc s.t.pc))

/-- `lea` writes the effective address, base plus the index shifted left plus the sign-extended offset modulo 2^64, to its
destination, with no access and no fault; its type, scope and hint are zero (spec/05_scalar.md R96, spec/03_encoding.md R61). -/
def Sys2Proof.Machine.Claim.LeaWritesEffectiveAddress : Prop :=
  ∀ (s : State) (o : OpM), s.Runs (.lea o) →
    o.ty = none ∧ o.scope = .core ∧ o.hint = .normal ∧
    ∃ t, exec (.lea o) s = .next t ∧
      Effect s t [(o.data, (s.readW o.base + (s.readW o.index <<< o.shift.val) + o.imm.signExtend 64).setWidth 512)] 0
        (nextPc s.t.pc)

/-- Moves, selection (spec/05_scalar.md R95) and `lea` (R96) complete. -/
def Obligations.MovesAndLeaComplete : Prop :=
  Claim.MovesComplete ∧ Claim.LeaWritesEffectiveAddress

/-! ### Predicates and control (spec/05_scalar.md R98 to R106) -/

namespace Sys2Proof.Machine

/-- The relation of a condition on ordered operands. -/
def Claim.holds (c : Cond) (lt eq : Bool) : Bool :=
  match c with
  | .eq => eq
  | .ne => !eq
  | .lt => lt
  | .le => lt || eq
  | .gt => !lt && !eq
  | .ge => !lt
  | .uo => false
  | .ord => true

/-- The FP source B of a compare: a register, or the immediate read under R59 (an FP32 value for f64). -/
def Claim.fpB (s : State) (o : OpP) : Val :=
  let t := OpP.type o
  (if o.b.reg = .zero then (if t == .f64 then fmtF32.decode o.imm.toNat else t.fp.decode (immBits t o.imm))
    else t.fp.decode (s.readW o.b.reg).toNat).modify o.b.neg o.b.abs

/-- The condition c of an instruction of format P and the flags that it sets (spec/05_scalar.md R99, R100, R101). -/
def Claim.condition (s : State) (i : Instr) : Option (OpP × Bool × Flags) :=
  let p (x : Reg) : Bool := s.read x != 0
  match i with
  | .cmp o =>
    let t := OpP.type o
    let a := s.intSrc t o.a
    let b := t.intMod o.b.neg o.b.abs (t.intOf (if o.b.reg = .zero then immBits t o.imm else (s.readW o.b.reg).toNat))
    some (o, Claim.holds o.cond (decide (a < b)) (decide (a = b)), 0)
  | .fcmp o =>
    let a := s.valOf (OpP.type o) o.a
    let b := Claim.fpB s o
    let nan := a.isNan || b.isNan
    let c := match o.cond with
      | .ne | .uo => nan || (o.cond == .ne && !a.eq b)
      | k => !nan && Claim.holds k (a.lt b) (a.eq b)
    let relation := o.cond == .lt || o.cond == .le || o.cond == .gt || o.cond == .ge
    some (o, c, if a.isSnan || b.isSnan || (relation && nan) then fNV else 0)
  | .pand o => some (o, p o.a.reg && p o.b.reg, 0)
  | .por o => some (o, p o.a.reg || p o.b.reg, 0)
  | .pxor o => some (o, p o.a.reg != p o.b.reg, 0)
  | .pnot o => some (o, !p o.a.reg, 0)
  | .pmov o => some (o, p o.a.reg, 0)
  | .ptst o => some (o, s.readW o.a.reg &&& (if o.b.reg = .zero then o.imm.signExtend 64 else s.readW o.b.reg) != 0, 0)
  | _ => none

/-- What a combine mode writes to the two predicates (spec/05_scalar.md R98). -/
def Claim.combine (m : Combine) (c p1 p2 : Bool) : Bool × Bool :=
  match m with
  | .set => (c, !c)
  | .conj => (p1 && c, p2 || !c)
  | .disj => (p1 || c, p2 && !c)

def Claim.bitLine (b : Bool) : Line := if b then 1 else 0

end Sys2Proof.Machine

/-- Compares and predicate operations (`cmp`, `fcmp`, `pand`, `por`, `pxor`, `pnot`, `pmov`, `ptst`) complete: the condition of
spec/05_scalar.md R99 to R101 goes to the two predicates under the combine mode of R98, and only NV of `fcmp` is set. -/
def Obligations.ComparesWriteTwoPredicates : Prop :=
  ∀ s i o c fl, Claim.condition s i = some (o, c, fl) → s.Runs i →
    let r := Claim.combine o.comb c (s.read o.p1 != 0) (s.t.seen.rp o.p2)
    ∃ t, exec i s = .next t ∧
      Effect s t [(o.p1, Claim.bitLine r.1), (.p o.p2, Claim.bitLine r.2)] fl (nextPc s.t.pc)

/-- Execution runs from slot 0 to slot 4 and then to slot 0 of the next line, and nothing is checked on the way: `nop` does just
that (spec/03_encoding.md R54, R79). -/
def Sys2Proof.Machine.Claim.NopFallsThrough : Prop :=
  (∀ (s : State) (o : OpS), s.Runs (.nop o) → ∃ t, exec (.nop o) s = .next t ∧ Effect s t [] 0 (nextPc s.t.pc)) ∧
  (∀ (pc : Word) (k : Nat), pc.toNat % 64 = k → k < 4 → nextPc pc = pc + 1) ∧
  (∀ pc : Word, pc.toNat % 64 = 4 → nextPc pc = pc + 60)

/-- `br` and `jmp` transfer to their relative target, `jr` to the code address in its register, once the target passes the
check of
R55; one that fails it traps 0x03, with the target in g4 and TRAPPC at the instruction (spec/05_scalar.md R102, R104,
spec/03_encoding.md R55, R62). -/
def Sys2Proof.Machine.Claim.BranchesTransferAfterCheck : Prop :=
  ∀ (s : State) (i : Instr) (o : OpB) (target : Word),
    ((i = .br o ∨ i = .jmp o) ∧
      target = (BitVec.ofNat 64 (s.t.pc.toNat / 64 * 64) + (o.off.signExtend 64 <<< 6) ||| o.slot.setWidth 64)) ∨
    (i = .jr o ∧ target = s.readW o.sa) →
    s.Runs i →
    (∀ f, s.myTarget target = (.ok, f) → ∃ t, exec i s = .next t ∧ Effect f t [] 0 target) ∧
    (∀ f, s.myTarget target = (.bad, f) → ∃ t, exec i s = .next t ∧ Traps f t 0x03 f.t.pc { g4 := target }) ∧
    (∀ f c va, s.myTarget target = (.fault c va, f) → ∃ t, exec i s = .next t ∧ Traps f t c f.t.pc { g4 := va })

/-- A code address is a target only if its bits 5:3 are zero, its slot is 0 to 4, and its slot's TGT bit is set in the line
there
(spec/03_encoding.md R55). -/
def Sys2Proof.Machine.Claim.TargetsAreChecked : Prop :=
  ∀ (s f : State) (core root : Nat) (sys : Bool) (target : Word) (l : Line),
    (target.toNat / 8 % 8 ≠ 0 ∨ 5 ≤ target.toNat % 8 → s.checkTarget core root sys target = (.bad, s)) ∧
    (target.toNat / 8 % 8 = 0 → target.toNat % 8 < 5 → s.fetchLine core root sys target = (.line l, f) →
      s.checkTarget core root sys target = (if l.getLsbD (27 + target.toNat % 8) then .ok else .bad, f))

/-- `loop` (spec/05_scalar.md R105): a zero register stays zero and execution goes on; one becomes zero and execution goes on;
any
other count falls by one and control goes to the relative target, once that is checked. -/
def Sys2Proof.Machine.Claim.LoopCountsDown : Prop :=
  ∀ (s : State) (o : OpB), s.Runs (.loop o) →
    let x := s.readW o.sa
    (x = 0 → ∃ t, exec (.loop o) s = .next t ∧ Effect s t [] 0 (nextPc s.t.pc)) ∧
    (x = 1 → ∃ t, exec (.loop o) s = .next t ∧ Effect s t [(o.sa, 0)] 0 (nextPc s.t.pc)) ∧
    (x ≠ 0 → x ≠ 1 →
      (∀ f, s.myTarget (s.relTarget o) = (.ok, f) → ∃ t, exec (.loop o) s = .next t ∧
        Effect f t [(o.sa, (x - 1).setWidth 512)] 0 (s.relTarget o)) ∧
      (∀ f, s.myTarget (s.relTarget o) = (.bad, f) → ∃ t, exec (.loop o) s = .next t ∧
        Traps f t 0x03 f.t.pc { g4 := s.relTarget o }))

/-- Execution in sequence, the check of targets, and `nop`, `br`, `jmp`, `jr` and `loop`. -/
def Obligations.TransfersOfControl : Prop :=
  Claim.NopFallsThrough ∧ Claim.TargetsAreChecked ∧ Claim.BranchesTransferAfterCheck ∧ Claim.LoopCountsDown

/-- `call` and `ret` (spec/05_scalar.md R103). A call whose target passes pushes the address of what follows it, spilling the
oldest eight of a full stack, and transfers; it traps 0x08 where the spill block is full and 0x72 where there is none (the cause of
its line, where the map entry or a spilled entry lies in a withdrawn part of DRAM, spec/13_traps.md R236). A return
takes the top entry, refilled from the spill block if the stack is empty, as its target, and pops it once it passes; an empty stack
with nothing spilled traps 0x09. -/
def Obligations.CallAndReturnUseTheStack : Prop :=
  (∀ (s f : State) (o : OpB), s.Runs (.call o) → s.myTarget (s.relTarget o) = (.bad, f) →
    ∃ t, exec (.call o) s = .next t ∧ Traps f t 0x03 f.t.pc { g4 := s.relTarget o }) ∧
  (∀ (s f : State) (o : OpB), s.Runs (.call o) → s.myTarget (s.relTarget o) = (.ok, f) →
    let r := f.t.rets
    let ret := nextPc f.t.pc
    (r.depth < 16 → exec (.call o) s =
      .next ((f.onT fun t => { t with rets := { r with entry := r.entry.set 0 r.depth ret, depth := r.depth + 1 } }).jump
        (s.relTarget o))) ∧
    (16 ≤ r.depth → 256 < r.spill + 8 → ∃ t, exec (.call o) s = .next t ∧ Traps f t 0x08 f.t.pc {}) ∧
    (16 ≤ r.depth → r.spill + 8 ≤ 256 →
      (∀ g, f.area f.t.sched.core f.t.mapEntry 1 = (none, g) →
        ∃ t, exec (.call o) s = .next t ∧ Traps g t (g.noArea f.t.sched.core f.t.mapEntry) g.t.pc {}) ∧
      (∀ g b, f.area f.t.sched.core f.t.mapEntry 1 = (some b, g) →
        let h := (List.range 8).foldl (fun s i => s.putWordAt (b + 8 * (r.spill + i)) (r.entry.get 0 i)) g
        ∃ r' : Returns, r'.depth = 9 ∧ r'.spill = r.spill + 8 ∧ (∀ i < 8, r'.entry.get 0 i = r.entry.get 0 (i + 8)) ∧
          r'.entry.get 0 8 = ret ∧
          exec (.call o) s = .next ((h.onT fun t => { t with rets := r' }).jump (s.relTarget o))))) ∧
  (∀ (s f : State) (o : OpB), s.Runs (.ret o) →
    let r := s.t.rets
    (r.depth ≠ 0 → s.myTarget (r.entry.get 0 (r.depth - 1)) = (.ok, f) → exec (.ret o) s =
      .next ((f.onT fun t => { t with rets := { r with depth := r.depth - 1 } }).jump (r.entry.get 0 (r.depth - 1)))) ∧
    (r.depth ≠ 0 → s.myTarget (r.entry.get 0 (r.depth - 1)) = (.bad, f) → ∃ t, exec (.ret o) s = .next t ∧
      Traps f t 0x03 f.t.pc { g4 := r.entry.get 0 (r.depth - 1) }) ∧
    (r.depth = 0 → r.spill = 0 → ∃ t, exec (.ret o) s = .next t ∧ Traps s t 0x09 s.t.pc {}) ∧
    (r.depth = 0 → r.spill ≠ 0 →
      (∀ g, s.area s.t.sched.core s.t.mapEntry 1 = (none, g) →
        ∃ t, exec (.ret o) s = .next t ∧ Traps g t (g.noArea s.t.sched.core s.t.mapEntry) g.t.pc {}) ∧
      (∀ g b, s.area s.t.sched.core s.t.mapEntry 1 = (some b, g) →
        let read (x : List Word × State) (i : Nat) : List Word × State :=
          let y := x.2.homeWord (b + 8 * (r.spill - 8 + i))
          (x.1 ++ [y.1], y.2)
        let h := (List.range 8).foldl read ([], g)
        let top := h.1.getD 7 0
        let lost := (List.range 8).findSome? fun i => g.lostAt (b + 8 * (r.spill - 8 + i))
        (∀ c, lost = some c → ∃ t, exec (.ret o) s = .next t ∧ Traps g t c g.t.pc {}) ∧
        (lost = none → h.2.myTarget top = (.ok, f) → ∃ r' : Returns, r'.depth = 7 ∧ r'.spill = r.spill - 8 ∧
          (∀ i < 8, r'.entry.get 0 i = h.1.getD i 0) ∧
          exec (.ret o) s = .next ((f.onT fun t => { t with rets := r' }).jump top)) ∧
        (lost = none → h.2.myTarget top = (.bad, f) → ∃ t, exec (.ret o) s = .next t ∧ Traps f t 0x03 f.t.pc { g4 := top }))))

/-- `brk` and `trap` take their traps: 0x78 with the code of IMM<15:0> in AUX (spec/05_scalar.md R106), and 0x78 + n with n in
AUX
(spec/13_traps.md R239); TRAPPC names the instruction, and a resume goes on after it. -/
def Obligations.BrkAndTrapTakeTheirTraps : Prop :=
  ∀ (s : State) (o : OpS),
    (s.Runs (.brk o) → ∃ t, exec (.brk o) s = .next t ∧
      Traps s t 0x78 s.t.pc { aux := o.imm.setWidth 16, passed := true }) ∧
    (s.Runs (.trap o) → 1 ≤ o.imm.toNat ∧ o.imm.toNat ≤ 5 ∧ ∃ t, exec (.trap o) s = .next t ∧
      Traps s t (0x78 + o.imm.toNat) s.t.pc { aux := o.imm.setWidth 16, passed := true })

/-! ### Floating point (spec/07_arithmetic.md R111 to R131) -/

namespace Sys2Proof.Machine

/-- The number that a finite value stands for, its tail apart. -/
def Claim.rat : Val → ℚ
  | .fin neg m e _ => (if neg then -1 else 1) * (m : ℚ) * (2 : ℚ) ^ e
  | _ => 0

/-- The value is a number held exactly. -/
def Claim.exactly : Val → Prop
  | .fin _ _ _ tail => tail = false
  | _ => False

/-- A magnitude m rounded to a multiple of 2^n, as a mode asks (spec/07_arithmetic.md R113). -/
def Claim.Rounded (mode : Mode) (neg : Bool) (m n r : Nat) : Prop :=
  match mode, neg with
  | .rtz, _ | .rup, true | .rdn, false => r * 2 ^ n ≤ m ∧ m < (r + 1) * 2 ^ n
  | .rup, false | .rdn, true => m ≤ r * 2 ^ n ∧ r * 2 ^ n < m + 2 ^ n
  | .rne, _ => Claim.RoundsEven m n r
  | .rna, _ => 2 * ((2 ^ n : Nat) * (r : Int) - m).natAbs ≤ 2 ^ n ∧
      (2 * ((2 ^ n : Nat) * (r : Int) - m).natAbs = 2 ^ n → m ≤ r * 2 ^ n)

/-- The exact result and the operands' flags of the short FP instructions (spec/07_arithmetic.md R126, R127). -/
def Claim.fpShort (s : State) (i : Instr) : Option (OpA × Val × Flags) :=
  let a (o : OpA) := s.valOf (OpA.type o) o.a
  let b (o : OpA) := s.valB (OpA.type o) o
  match i with
  | .fadd o => some (o, (a o).add (s.modeOf o.rnd) (b o))
  | .fsub o => some (o, (a o).add (s.modeOf o.rnd) ((b o).modify true false))
  | .fmul o => some (o, (a o).mul (b o))
  | .ffma o => some (o, Val.fma (s.modeOf o.rnd) (a o) (b o) (s.valOf (OpA.type o) o.c))
  | _ => none

/-- The same of the long FP instructions. -/
def Claim.fpLong (s : State) (i : Instr) : Option (OpA × Val × Flags) :=
  let a (o : OpA) := s.valOf (OpA.type o) o.a
  match i with
  | .fdiv o => some (o, (a o).div (s.valB (OpA.type o) o))
  | .fsqrt o => some (o, (a o).sqrt)
  | .frcp o => some (o, (Val.one false).div (a o))
  | .frsq o => some (o, (a o).rsqrt)
  | .fexp2 o => some (o, (a o).exp2)
  | .flog2 o => some (o, (a o).log2)
  | _ => none

/-- The bit of `fclass` for an IEEE value or a narrow code (spec/07_arithmetic.md R130). -/
def Claim.classOf (s : State) (o : OpA) : Nat :=
  let x := (s.readW o.a.reg).toNat
  let table (v : Val) (sub : Bool) : Nat :=
    if v.isNan then 9
    else match v with
      | .inf n => if n then 0 else 7
      | v => if v.isZero then (if v.sign then 3 else 4) else if sub then (if v.sign then 2 else 5)
        else if v.sign then 1 else 6
  match OpA.type o with
  | .nf k =>
    let f := NFmt.ofBits (s.t.seen.rf k)
    table ((f.decode x).modify o.a.neg o.a.abs) (f.isSub x)
  | t =>
    let v := (t.fp.decode x).modify o.a.neg o.a.abs
    if v.isSnan then 8 else table v (t.fp.isSub x)

/-- What the source of a conversion stands for, after modifiers; a narrow code takes the bias of its format register. -/
def Claim.cvtValue (s : State) (src : Ty) (x : Nat) (neg abs : Bool) : Val :=
  match src with
  | .nf k => (((NFmt.ofBits (s.t.seen.rf k)).decode x).scale (s.t.seenSys.biasOf k)).modify neg abs
  | src => if src.isInt then .ofInt (src.intMod neg abs (src.intOf x)) else (src.fp.decode x).modify neg abs

/-- One conversion of spec/07_arithmetic.md R131: the bits of the destination and the flags. -/
def Claim.converted (s : State) (o : OpA) (dst : Ty) (v : Val) : Nat × Flags :=
  let nv := if v.isSnan then fNV else 0
  match dst with
  | .nf j =>
    let f := NFmt.ofBits (s.t.seen.rf j)
    let y := f.encode (o.rnd.mode (f.mode s.t.seenSys.mode)) (v.scale (o.scale.toInt - s.t.seenSys.biasOf j))
    (y.1, nv ||| y.2)
  | dst =>
    let mode := o.rnd.mode s.t.seenSys.mode
    if dst.isInt then
      let bits (x : Int) : Nat := (x % (2 ^ dst.width : Nat)).toNat
      match v with
      | .nan _ => (0, fNV)
      | .inf n => (bits (if n then dst.minInt else dst.maxInt), fNV)
      | v =>
        let r := (v.scale o.scale.toInt).toInt mode
        if r.1 < dst.minInt then (bits dst.minInt, fNV)
        else if dst.maxInt < r.1 then (bits dst.maxInt, fNV)
        else (bits r.1, if r.2 then fNX else 0)
    else
      let y := dst.fp.form mode o.clamp o.scale v
      (y.1, nv ||| y.2)

end Sys2Proof.Machine

/-- Sums and products of finite numbers are exact before they are rounded, and so is the fused multiply-add (R126); Inf − Inf,
0 × Inf and signalling NaNs give the canonical NaN and NV (R127). -/
def Sys2Proof.Machine.Claim.FloatSumsAndProductsAreExact : Prop :=
  (∀ (m : Mode) (a b : Val), Claim.exactly a → Claim.exactly b →
    Claim.exactly (a.add m b).1 ∧ Claim.rat (a.add m b).1 = Claim.rat a + Claim.rat b ∧ (a.add m b).2 = 0 ∧
    Claim.exactly (a.mul b).1 ∧ Claim.rat (a.mul b).1 = Claim.rat a * Claim.rat b ∧ (a.mul b).2 = 0 ∧
    (a.mul b).1.sign = (a.sign != b.sign)) ∧
  (∀ (m : Mode) (a b c : Val), Claim.exactly a → Claim.exactly b → Claim.exactly c →
    Claim.rat (Val.fma m a b c).1 = Claim.rat a * Claim.rat b + Claim.rat c ∧ (Val.fma m a b c).2 = 0) ∧
  (∀ (m : Mode) (n : Bool), Val.add m (.inf n) (.inf !n) = (.nan false, fNV)) ∧
  (∀ (m : Mode) (n k : Bool) (e : Int) (c : Val), (Val.fma m (.fin n 0 e false) (.inf k) c).1 = .nan false ∧
    ((Val.fma m (.fin n 0 e false) (.inf k) c).2 &&& fNV) = fNV) ∧
  (∀ (m : Mode) (a b : Val), (a.isNan = true ∨ b.isNan = true) →
    a.add m b = (.nan false, if a.isSnan || b.isSnan then fNV else 0) ∧
    a.mul b = (.nan false, if a.isSnan || b.isSnan then fNV else 0))

/-- Rounding to a multiple of 2^q is correct in each of the five modes, and is inexact exactly where a digit is lost (R113). -/
def Sys2Proof.Machine.Claim.RoundingFollowsItsMode : Prop :=
  ∀ (mode : Mode) (neg : Bool) (m : Nat) (e q : Int), e < q →
    Claim.Rounded mode neg m (q - e).toNat (roundTo mode neg m e false q).1 ∧
    ((roundTo mode neg m e false q).2 = true ↔ m % 2 ^ (q - e).toNat ≠ 0)

/-- Exact results (spec/07_arithmetic.md R126, R127) and their rounding (R113). -/
def Obligations.FloatValuesAreExactAndRounded : Prop :=
  Claim.FloatSumsAndProductsAreExact ∧ Claim.RoundingFollowsItsMode

/-- `fadd`, `fsub`, `fmul` and `ffma` complete with the exact result formed under R68 in the selected rounding, and the flags of
operands and rounding (R125, R126). -/
def Sys2Proof.Machine.Claim.FloatArithmeticCompletes : Prop :=
  ∀ s i o x fl, Claim.fpShort s i = some (o, x, fl) → s.Runs i →
    let y := (OpA.type o).fp.form (s.modeOf o.rnd) o.clamp o.scale x
    ∃ t, exec i s = .next t ∧ Effect s t [(o.dst, BitVec.ofNat 512 (y.1 % 2 ^ 64))] (fl ||| y.2) (nextPc s.t.pc)

/-- `fdiv`, `fsqrt`, `frcp`, `frsq`, `fexp2` and `flog2` issue as long ops whose value and flags land together. -/
def Sys2Proof.Machine.Claim.FloatLongOpsIssue : Prop :=
  ∀ s i o x fl, Claim.fpLong s i = some (o, x, fl) → s.Runs i → s.t.outcnt < 64 →
    let y := (OpA.type o).fp.form (s.modeOf o.rnd) o.clamp o.scale x
    ∃ t, exec i s = .next t ∧
      Issues s t [o.dst]
        { op := s.ops, pc := s.t.pc, dsts := [o.dst], vals := [BitVec.ofNat 512 y.1], act := .ready (fl ||| y.2),
          since := s.dev.cycle, iter := s.t.iteration }

/-- The FP arithmetic of spec/07_arithmetic.md R125 and R126 completes, or issues as long ops. -/
def Obligations.FloatInstructionsComplete : Prop :=
  Claim.FloatArithmeticCompletes ∧ Claim.FloatLongOpsIssue

/-- `fmin` and `fmax` return an operand's bits after modifiers, −0 below +0, the other operand beside one NaN, the canonical
NaN for
two, with NV for a signalling NaN (R129); `fclass` writes one of bits 9:0 (R130). -/
def Sys2Proof.Machine.Claim.FloatSelectionCompletes : Prop :=
  (∀ (s : State) (o : OpA) (i : Instr) (isMax : Bool), (i = .fmin o ∧ isMax = false) ∨ (i = .fmax o ∧ isMax = true) → s.Runs i →
    let ty := OpA.type o
    let x := ty.fp.modify o.a.neg o.a.abs (s.readW o.a.reg).toNat
    let y := ty.fp.modify o.b.neg o.b.abs (s.bitsB ty o)
    let a := ty.fp.decode x
    let b := ty.fp.decode y
    let r := if a.isNan && b.isNan then ty.fp.qnan else if a.isNan then y else if b.isNan then x
      else if (a.lt b || (a.eq b && a.sign && !b.sign)) != isMax then x else y
    ∃ t, exec i s = .next t ∧
      Effect s t [(o.dst, BitVec.ofNat 512 (r % 2 ^ 64))] (if a.isSnan || b.isSnan then fNV else 0) (nextPc s.t.pc)) ∧
  (∀ (s : State) (o : OpA), s.Runs (.fclass o) →
    ∃ t, exec (.fclass o) s = .next t ∧ Effect s t [(o.dst, BitVec.twoPow 512 (Claim.classOf s o))] 0 (nextPc s.t.pc))

/-- `fcvt` completes with the conversion of R131: an IEEE destination formed under R68, a narrow one encoded with scale and
bias, an
integer one rounded in the mode and held to the bounds of its type with NV. -/
def Sys2Proof.Machine.Claim.ScalarConversionCompletes : Prop :=
  ∀ (s : State) (o : OpA) (src : Ty), srcTy o.imm = some src → s.Runs (.fcvt o) →
    let dst := OpA.type o
    let y := Claim.converted s o dst (Claim.cvtValue s src (s.readW o.a.reg).toNat o.a.neg o.a.abs)
    ∃ t, exec (.fcvt o) s = .next t ∧
      Effect s t [(o.dst, (if dst.isInt then dst.extend y.1 else BitVec.ofNat 64 y.1).setWidth 512)] y.2 (nextPc s.t.pc)

/-- `fmin`, `fmax`, `fclass` and `fcvt` complete. -/
def Obligations.FloatSelectionAndConversionComplete : Prop :=
  Claim.FloatSelectionCompletes ∧ Claim.ScalarConversionCompletes

/-! ### Vectors (spec/07_arithmetic.md R132 to R141) -/

namespace Sys2Proof.Machine

/-- A lane instruction as its rule gives it: the operands, the lane width, the mask operand (g0 where the instruction has
none), and
for each lane its new bits and the flags that it raises. -/
structure Claim.Lanes where
  o : OpA
  width : Nat
  mask : Reg
  lane : Nat → Nat × Flags

/-- The lane instructions of an FP type whose exact result is `x` (spec/07_arithmetic.md R133). -/
def Claim.fpLanes (s : State) (o : OpA) (mask : Reg) (x : Mode → Nat → Val × Flags) : Claim.Lanes :=
  let t := OpA.type o
  let md := s.modeOf o.rnd
  { o := o, width := t.width, mask := mask
    lane := fun i => ((t.fp.form md o.clamp o.scale (x md i).1).1,
      (x md i).2 ||| (t.fp.form md o.clamp o.scale (x md i).1).2) }

/-- The lane instructions of an integer type whose exact result is `x`. -/
def Claim.intLanes (o : OpA) (mask : Reg) (x : Nat → Int) : Claim.Lanes :=
  let t := OpA.type o
  { o := o, width := t.width, mask := mask, lane := fun i => intForm t o.clamp o.scale (x i) }

/-- The lane instructions that copy or combine bits, and raise no flag. -/
def Claim.bitLanes (o : OpA) (mask : Reg) (x : Nat → Nat) : Claim.Lanes :=
  { o := o, width := (OpA.type o).width, mask := mask, lane := fun i => (x i, 0) }

/-- The short lane instructions (spec/07_arithmetic.md R133, R135, R139, R140, R141); a part out of range has no lanes here. -/
def Claim.lanesOf (s : State) (i : Instr) : Option Claim.Lanes :=
  let a (o : OpA) (i : Nat) := s.laneVal (OpA.type o) o.a i
  let b (o : OpA) (i : Nat) := s.laneValB (OpA.type o) o i
  let ia (o : OpA) (i : Nat) := s.laneInt (OpA.type o) o.a i
  let ib (o : OpA) (i : Nat) := s.laneIntB (OpA.type o) o i
  let xa (o : OpA) (i : Nat) := s.laneSrc (OpA.type o).width o.a.reg i
  let xb (o : OpA) (i : Nat) := s.laneB (OpA.type o) o i
  let count (o : OpA) (i : Nat) := xb o i % 64 % (OpA.type o).width
  let old (o : OpA) (i : Nat) := laneOf (s.read o.dst) (OpA.type o).width i
  let index (o : OpA) := o.imm.toNat % 64 % lanes (OpA.type o).width
  let pick (o : OpA) (isMax : Bool) (i : Nat) := (OpA.type o).fp.minmax isMax
    ((OpA.type o).fp.modify o.a.neg o.a.abs (xa o i)) ((OpA.type o).fp.modify o.b.neg o.b.abs (xb o i))
  let bits (o : OpA) (f : Nat → Nat) := some (Claim.bitLanes o o.c.reg f)
  match i with
  | .vfadd o => some (Claim.fpLanes s o o.c.reg fun md i => (a o i).add md (b o i))
  | .vfsub o => some (Claim.fpLanes s o o.c.reg fun md i => (a o i).add md ((b o i).modify true false))
  | .vfmul o => some (Claim.fpLanes s o o.c.reg fun _ i => (a o i).mul (b o i))
  | .vffma o => some (Claim.fpLanes s o .zero fun md i => Val.fma md (a o i) (b o i) (s.laneVal (OpA.type o) o.c i))
  | .vfmin o => some { o := o, width := (OpA.type o).width, mask := o.c.reg, lane := pick o false }
  | .vfmax o => some { o := o, width := (OpA.type o).width, mask := o.c.reg, lane := pick o true }
  | .vadd o => some (Claim.intLanes o o.c.reg fun i => ia o i + ib o i)
  | .vsub o => some (Claim.intLanes o o.c.reg fun i => ia o i - ib o i)
  | .vmul o => some (Claim.intLanes o o.c.reg fun i => ia o i * ib o i)
  | .vmulh o => some (Claim.intLanes o o.c.reg fun i => ia o i * ib o i / (2 ^ (OpA.type o).width : Nat))
  | .vmadd o => some (Claim.intLanes o .zero fun i => ia o i * ib o i + s.laneInt (OpA.type o) o.c i)
  | .vmin o => some (Claim.intLanes o o.c.reg fun i => if ia o i ≤ ib o i then ia o i else ib o i)
  | .vmax o => some (Claim.intLanes o o.c.reg fun i => if ia o i ≥ ib o i then ia o i else ib o i)
  | .vand o => bits o fun i => xa o i &&& xb o i
  | .vor o => bits o fun i => xa o i ||| xb o i
  | .vxor o => bits o fun i => xa o i ^^^ xb o i
  | .vshl o => bits o fun i => xa o i * 2 ^ count o i
  | .vshr o => bits o fun i => xa o i / 2 ^ count o i
  | .vsra o => bits o fun i => ((BitVec.ofNat (OpA.type o).width (xa o i)).sshiftRight (count o i)).toNat
  | .vsel o => some (Claim.bitLanes o .zero fun i => if s.active o.c.reg i then xa o i else xb o i)
  | .vperm o => bits o fun i => xa o (xb o i % lanes (OpA.type o).width)
  | .vbcast o => bits o fun _ => xa o (index o)
  | .vins o => some (Claim.bitLanes o .zero fun i =>
      if i = index o then (s.readW o.a.reg).toNat % 2 ^ (OpA.type o).width else old o i)
  | .vcvt o =>
    let dst := OpA.type o
    let src := OpA.source o
    let p := OpA.part o
    let one (i : Nat) := Claim.converted s o dst (Claim.cvtValue s src (s.laneSrc src.width o.a.reg i) o.a.neg o.a.abs)
    if dst.width = src.width then
      if p = 0 then some { o := o, width := dst.width, mask := o.c.reg, lane := one } else none
    else if src.width < dst.width then
      if p < dst.width / src.width then
        some { o := o, width := dst.width, mask := o.c.reg, lane := fun j => one (p * lanes dst.width + j) }
      else none
    else if p < src.width / dst.width then
      let n := lanes src.width
      some { o := o, width := dst.width, mask := o.c.reg, lane := fun j =>
        if p * n ≤ j ∧ j < (p + 1) * n then one (j - p * n) else (old o j, 0) }
    else none
  | .vpack o =>
    match OpA.type o with
    | .nf k =>
      let f := NFmt.ofBits (s.t.seen.rf k)
      let src := OpA.source o
      let n := lanes src.width
      let p := OpA.part o
      if p < 512 / (8 * n) then
        some { o := o, width := 8, mask := o.c.reg, lane := fun j =>
          let t := scaleByte f (s.readW o.b.reg).toNat j
          let v := (src.fp.decode (s.laneSrc src.width o.a.reg (j - p * n))).modify o.a.neg o.a.abs
          let md := o.rnd.mode (f.mode s.t.seenSys.mode)
          if ¬(p * n ≤ j ∧ j < (p + 1) * n) then (laneOf (s.read o.dst) 8 j, 0)
          else if t = 0x80 then (f.nanCode.getD 0, 0)
          else f.encode md (v.scale (-(sbyte t + s.t.seenSys.biasOf k))) }
      else none
    | _ => none
  | .vunpack o =>
    match OpA.source o with
    | .nf k =>
      let f := NFmt.ofBits (s.t.seen.rf k)
      let dst := OpA.type o
      let n := lanes dst.width
      let p := OpA.part o
      if p < 512 / (8 * n) then
        some { o := o, width := dst.width, mask := o.c.reg, lane := fun i =>
          let t := scaleByte f (s.readW o.b.reg).toNat (p * n + i)
          let v := (f.decode (s.laneSrc 8 o.a.reg (p * n + i))).modify o.a.neg o.a.abs
          if t = 0x80 then (dst.fp.qnan, 0) else dst.fp.round s.t.seenSys.mode (v.scale (sbyte t + s.t.seenSys.biasOf k)) }
      else none
    | _ => none
  | .vtsum o =>
    if o.ty = some .f32 then
      let x (r : Reg) (i : Nat) := fmtF32.modify o.a.neg o.a.abs (laneOf (s.read r) 32 i)
      some (Claim.fpLanes s o o.c.reg fun md i =>
        let sum := (fmtF32.decode (x o.a.reg i)).add md (fmtF32.decode (x o.a.reg.next i))
        let collapsed := fmtF32.round md sum.1
        (fmtF32.decode collapsed.1, sum.2 ||| collapsed.2))
    else none
  | _ => none

/-- The long lane instructions. -/
def Claim.longLanes (s : State) (i : Instr) : Option Claim.Lanes :=
  let a (o : OpA) (i : Nat) := s.laneVal (OpA.type o) o.a i
  match i with
  | .vfdiv o => some (Claim.fpLanes s o o.c.reg fun _ i => (a o i).div (s.laneValB (OpA.type o) o i))
  | .vfsqrt o => some (Claim.fpLanes s o o.c.reg fun _ i => (a o i).sqrt)
  | .vfrcp o => some (Claim.fpLanes s o o.c.reg fun _ i => (Val.one false).div (a o i))
  | _ => none

/-- Lane by lane: an active lane takes its new bits, an inactive one keeps what it held. -/
def Claim.Lanes.Forms (s : State) (l : Claim.Lanes) (x : Line) : Prop :=
  ∀ j < lanes l.width, laneOf x l.width j =
    if s.active l.mask j then (l.lane j).1 % 2 ^ l.width else laneOf (s.read l.o.dst) l.width j

/-- A flag is raised exactly where an active lane raises it. -/
def Claim.Lanes.Raises (s : State) (l : Claim.Lanes) (fl : Flags) : Prop :=
  ∀ k, fl.getLsbD k = true ↔ ∃ j, j < lanes l.width ∧ s.active l.mask j = true ∧ (l.lane j).2.getLsbD k = true

/-- The lane values that a reduction or scan meets, active lanes only; an FP type takes the modifiers of A (R132). -/
def Claim.present (s : State) (o : OpA) : List (Option Nat) :=
  let t := OpA.type o
  (List.range (lanes t.width)).map fun i =>
    let x := s.laneSrc t.width o.a.reg i
    if s.active o.c.reg i then some (if t.isInt then x else t.fp.modify o.a.neg o.a.abs x) else none

/-- The same as integers. -/
def Claim.presentInts (s : State) (o : OpA) : List Int :=
  (Claim.present s o).filterMap fun x => x.map (OpA.type o).intOf

end Sys2Proof.Machine

/-- The short lane instructions complete: `vfadd`, `vfsub`, `vfmul`, `vffma`, `vfmin`, `vfmax`, `vadd`, `vsub`, `vmul`, `vmulh`,
`vmadd`, `vmin`, `vmax`, `vand`, `vor`, `vxor`, `vshl`, `vshr`, `vsra`, `vsel`, `vperm`, `vbcast`, `vins`, `vcvt`, `vpack`, `vunpack`
and the f32 form of `vtsum`, which rounds hi + lo (R123) and then forms its destination (R68), and whose modifiers act on each register
of the pair (the model's choice, log entry 43). Every active lane takes the value that its rule gives, every other lane keeps its own and raises
nothing, and no other register changes. -/
def Sys2Proof.Machine.Claim.ShortLaneInstructionsComplete : Prop :=
  ∀ s i l, Claim.lanesOf s i = some l → s.Runs i →
    ∃ t x fl, l.Forms s x ∧ l.Raises s fl ∧ exec i s = .next t ∧ Effect s t [(l.o.dst, x)] fl (nextPc s.t.pc)

/-- `vfdiv`, `vfsqrt` and `vfrcp` issue as long ops; the lanes and flags that land are those of their rules, inactive lanes
keeping
what the destination held at issue. -/
def Sys2Proof.Machine.Claim.LongLaneInstructionsIssue : Prop :=
  ∀ s i l, Claim.longLanes s i = some l → s.Runs i → s.t.outcnt < 64 →
    ∃ t x fl, l.Forms s x ∧ l.Raises s fl ∧ exec i s = .next t ∧
      Issues s t [l.o.dst]
        { op := s.ops, pc := s.t.pc, dsts := [l.o.dst], vals := [x], act := .ready fl, since := s.dev.cycle
          iter := s.t.iteration }

/-- Lane compares (`vcmp`, `vfcmp`): bit i of the mask destination is lane i's condition for an active lane; inactive lanes
and bits
n to 63 are zero; `vfcmp` raises NV as R100 states (R134). -/
def Obligations.LaneComparesComplete : Prop :=
  ∀ (s : State) (i : Instr) (o : OpA) (lane : Nat → Bool × Flags),
    (i = .vcmp o ∧ lane = fun j => (intCompare o.cond (s.laneInt (OpA.type o) o.a j) (s.laneIntB (OpA.type o) o j), 0)) ∨
    (i = .vfcmp o ∧ lane = fun j => fpCompare o.cond (s.laneVal (OpA.type o) o.a j) (s.laneValB (OpA.type o) o j)) →
    s.Runs i →
    let n := lanes (OpA.type o).width
    ∃ (t : State) (x : Word) (fl : Flags),
      (∀ j, x.getLsbD j = (decide (j < n) && s.active o.c.reg j && (lane j).1)) ∧
      (∀ k, fl.getLsbD k = true ↔ ∃ j, j < n ∧ s.active o.c.reg j = true ∧ (lane j).2.getLsbD k = true) ∧
      exec i s = .next t ∧ Effect s t [(o.dst, x.setWidth 512)] fl (nextPc s.t.pc)

/-- Reductions of integer lanes (`vred.add`, `vred.min`, `vred.max`): the sum of the active lanes modulo 2^w, their least or
greatest
value under the type's signedness; with no active lane 0, the type's largest or smallest (R136). -/
def Sys2Proof.Machine.Claim.IntegerReductionsComplete : Prop :=
  ∀ (s : State) (o : OpA) (t : Ty), o.ty = some t → t.isInt = true →
    let xs := Claim.presentInts s o
    let word (x : Int) : Line := (t.extend (x % (2 ^ t.width : Nat)).toNat).setWidth 512
    (s.Runs (.vredAdd o) → ∃ u, exec (.vredAdd o) s = .next u ∧ Effect s u [(o.dst, word xs.sum)] 0 (nextPc s.t.pc)) ∧
    (s.Runs (.vredMin o) → ∃ u, exec (.vredMin o) s = .next u ∧
      Effect s u [(o.dst, word (xs.foldr min t.maxInt))] 0 (nextPc s.t.pc)) ∧
    (s.Runs (.vredMax o) → ∃ u, exec (.vredMax o) s = .next u ∧
      Effect s u [(o.dst, word (xs.foldr max t.minInt))] 0 (nextPc s.t.pc))

/-- Reductions of FP lanes combine the active lanes in the fixed tree of R136, and a scan accumulates them from lane 0 up: a
lane
that meets no combine keeps its bits, inactive lanes of a scan keep the destination's. -/
def Sys2Proof.Machine.Claim.ReductionsAndScanFollowTheTree : Prop :=
  ∀ (s : State) (o : OpA),
    let t := OpA.type o
    let xs := Claim.present s o
    let md := s.t.seenSys.mode
    (∀ i add max, (i = .vredAdd o ∧ add = true ∧ max = false) ∨ (i = .vredMin o ∧ add = false ∧ max = false) ∨
        (i = .vredMax o ∧ add = false ∧ max = true) → s.Runs i →
      let r := tree (combineLanes t md add max) 7 xs
      ∃ u, exec i s = .next u ∧
        Effect s u [(o.dst, (t.extend (r.1.getD (emptyReduction t add max))).setWidth 512)] r.2 (nextPc s.t.pc)) ∧
    (s.Runs (.vscan o) →
      let r := scanLanes (combineLanes t md true false) none
        (xs.zipIdx.map fun x => (x.1, laneOf (s.read o.dst) t.width x.2))
      ∃ u, exec (.vscan o) s = .next u ∧ Effect s u [(o.dst, ofLanes t.width r.1)] r.2 (nextPc s.t.pc)) ∧
    (∀ f : Nat → Nat → Nat × Flags, ∀ x, tree f 7 (List.replicate 5 none ++ [some x] ++ List.replicate 10 none) = (some x, 0)) ∧
    (∀ (f : Nat → Nat → Nat × Flags) (x old : Nat), scanLanes f none [(none, old), (some x, 0)] = ([old, x], 0))

/-- Reductions and scans (spec/07_arithmetic.md R136) complete. -/
def Obligations.ReductionsAndScansComplete : Prop :=
  Claim.IntegerReductionsComplete ∧ Claim.ReductionsAndScanFollowTheTree

/-- `vext` writes a lane, extended by its type, to a g register (R135); the mask instructions `mand`, `mor`, `mnot`, `mpopc` and
`mffs` of R138 complete with no flag. -/
def Obligations.LaneExtractAndMasksComplete : Prop :=
  ∀ (s : State) (o : OpA),
    let n := lanes (OpA.type o).width
    let a := s.readW o.a.reg
    let b := s.readW o.b.reg
    (s.Runs (.vext o) → ∃ t, exec (.vext o) s = .next t ∧
      Effect s t [(o.dst, ((OpA.type o).extend (s.laneSrc (OpA.type o).width o.a.reg (o.imm.toNat % 64 % n))).setWidth 512)] 0
        (nextPc s.t.pc)) ∧
    (s.Runs (.mand o) → ∃ t, exec (.mand o) s = .next t ∧ Effect s t [(o.dst, (a &&& b).setWidth 512)] 0 (nextPc s.t.pc)) ∧
    (s.Runs (.mor o) → ∃ t, exec (.mor o) s = .next t ∧ Effect s t [(o.dst, (a ||| b).setWidth 512)] 0 (nextPc s.t.pc)) ∧
    (s.Runs (.mnot o) → ∃ t, exec (.mnot o) s = .next t ∧ Effect s t [(o.dst, (~~~ a).setWidth 512)] 0 (nextPc s.t.pc)) ∧
    (s.Runs (.mpopc o) → ∃ t, exec (.mpopc o) s = .next t ∧
      Effect s t [(o.dst, BitVec.ofNat 512 ((List.range n).countP a.getLsbD))] 0 (nextPc s.t.pc)) ∧
    (s.Runs (.mffs o) → ∃ k t, k ≤ n ∧ (∀ j < k, a.getLsbD j = false) ∧ (k < n → a.getLsbD k = true) ∧
      exec (.mffs o) s = .next t ∧ Effect s t [(o.dst, BitVec.ofNat 512 k)] 0 (nextPc s.t.pc))

/-- `vzpack` packs the kept lanes among sixteen, each as its index above its bits, into 32-bit lanes from lane 0, with zeros
after
them; `vexpand` writes the low w bits of each word of A with a non-zero value field to lane (index − base) mod 2^16 when that lane
exists, a later word over an earlier one, and zero elsewhere (R137). -/
def Sys2Proof.Machine.Claim.ZeroPackingCompletes : Prop :=
  ∀ (s : State) (o : OpA),
    let t := OpA.type o
    let w := t.width
    let n := lanes w
    (s.Runs (.vzpack o) → o.imm.toNat % 16 = 0 → o.imm.toNat % 64 < n →
      let start := o.imm.toNat % 64
      let base := (s.readW o.b.reg).toNat % 65536
      let value (i : Nat) : Nat := match t with
        | .nf k => s.laneSrc w o.a.reg i % 2 ^ (NFmt.ofBits (s.t.seen.rf k)).wid
        | _ => s.laneSrc w o.a.reg i
      let kept := ((List.range 16).map (start + ·)).filter fun i => s.active o.c.reg i && !s.laneZero t (value i)
      ∃ u, exec (.vzpack o) s = .next u ∧
        Effect s u [(o.dst, ofLanes 32 (kept.map fun i => (base + i) % 65536 * 65536 + value i))] 0 (nextPc s.t.pc)) ∧
    (s.Runs (.vexpand o) →
      let base := (if o.b.reg = .zero then o.imm.toNat else (s.readW o.b.reg).toNat) % 65536
      let hits (l : Nat) : List Nat := ((List.range 16).map (laneOf (s.read o.a.reg) 32)).filter fun x =>
        x % 65536 != 0 && (x / 65536 + 65536 - base) % 65536 == l
      ∃ u x, (∀ l < n, laneOf x w l = ((hits l).getLast?.getD 0) % 65536 % 2 ^ w) ∧
        exec (.vexpand o) s = .next u ∧ Effect s u [(o.dst, x)] 0 (nextPc s.t.pc))

/-- The pair form of `vtsum` (R141): every active lane of the pair takes the two-sum step of R122 of the addend, hi in the first
register and lo in the second, with the flags of the active lanes' steps. -/
def Sys2Proof.Machine.Claim.PairSumCompletes : Prop :=
  ∀ (s : State) (o : OpA), o.ty = some .pair32 → s.Runs (.vtsum o) →
    let addend (i : Nat) := fmtF32.modify o.a.neg o.a.abs
      (if o.a.reg = .zero then o.imm.toNat else s.laneSrc 32 o.a.reg i)
    let hi := laneOf (s.read o.dst) 32
    let lo := laneOf (s.read o.dst.next) 32
    ∃ t x y fl,
      (∀ j < 16, laneOf x 32 j = if s.active o.c.reg j then (twoSum (hi j) (lo j) (addend j)).1 % 2 ^ 32 else hi j) ∧
      (∀ j < 16, laneOf y 32 j = if s.active o.c.reg j then (twoSum (hi j) (lo j) (addend j)).2.1 % 2 ^ 32 else lo j) ∧
      (∀ k, fl.getLsbD k = true ↔
        ∃ j, j < 16 ∧ s.active o.c.reg j = true ∧ (twoSum (hi j) (lo j) (addend j)).2.2.getLsbD k = true) ∧
      exec (.vtsum o) s = .next t ∧ Effect s t [(o.dst, x), (o.dst.next, y)] fl (nextPc s.t.pc)

/-- `vzpack`, `vexpand` (spec/07_arithmetic.md R137) and the pair form of `vtsum` (R141) complete. -/
def Obligations.PackingAndPairSumComplete : Prop :=
  Claim.ZeroPackingCompletes ∧ Claim.PairSumCompletes

/-- A part p out of the range that R139 gives `vcvt`, and R140 `vpack` and `vunpack`, and a start lane of `vzpack` that is no
multiple of
16 below n (R137), trap 0x02 at run time: the word itself decodes. -/
def Sys2Proof.Machine.Claim.ConversionPartOutOfRangeTraps : Prop :=
  (∀ (s : State) (o : OpA) (i : Instr),
    (let wd := (OpA.type o).width
     let ws := (OpA.source o).width
     (i = .vcvt o ∧ (if wd = ws then 1 else if ws < wd then wd / ws else ws / wd) ≤ OpA.part o) ∨
     (i = .vpack o ∧ 512 / (8 * lanes ws) ≤ OpA.part o) ∨
     (i = .vunpack o ∧ 512 / (8 * lanes wd) ≤ OpA.part o) ∨
     (i = .vzpack o ∧ (o.imm.toNat % 16 ≠ 0 ∨ lanes wd ≤ o.imm.toNat % 64))) →
    s.Runs i → ∃ t, exec i s = .next t ∧ Traps s t 0x02 s.t.pc {}) ∧
  -- vcvt to f32 from f16, part 2; vpack to narrow codes from f16, part 2; vzpack of i16 from lane 8
  (let o (t : Ty) (imm : BitVec 32) : OpA :=
    ⟨⟨false, 0, false⟩, .v 3, .none, 0, ⟨.v 1, false, false⟩, ⟨.g 0, false, false⟩, ⟨.g 0, false, false⟩, some t, imm, .frmode, .eq⟩
   (∃ w, encode (.vcvt (o .f32 (0x08 + 32 * 2))) = some w ∧ decode w = .ok (.vcvt (o .f32 (0x08 + 32 * 2)))) ∧
   (∃ w, encode (.vpack (o (.nf 2) (0x08 + 32 * 2))) = some w ∧ decode w = .ok (.vpack (o (.nf 2) (0x08 + 32 * 2)))) ∧
   (∃ w, encode (.vzpack (o .i16 8)) = some w ∧ decode w = .ok (.vzpack (o .i16 8))))

/-- Lane instructions complete, issue as long ops, or trap on a part out of range. -/
def Obligations.LaneInstructionsComplete : Prop :=
  Claim.ShortLaneInstructionsComplete ∧ Claim.LongLaneInstructionsIssue ∧ Claim.ConversionPartOutOfRangeTraps

/-! ### Loads and stores (spec/05_scalar.md R97, spec/09_memory_offers.md R157 to R162) -/

namespace Sys2Proof.Machine

/-- The instruction answers a next state, and what that state holds. -/
def Claim.Gives (i : Instr) (s : State) (p : State → Prop) : Prop := ∃ t, exec i s = .next t ∧ p t

/-- The task in focus changes by `f`, and execution goes on in sequence. Nothing else in the device changes: no other task, no
core's queues, and no byte of memory or local store. -/
def Claim.Only (s t : State) (f : Task → Task) : Prop :=
  t = { s with t := { f s.t with pc := nextPc s.t.pc, view := none } } ∧
  (∀ pa, t.byteAt pa = s.byteAt pa) ∧ (∀ core off, t.localByte core off = s.localByte core off)

/-- The task keeps its slot and tries its instruction again after the next event; nothing else changes. -/
def Claim.HoldsSlot (s t : State) : Prop := t = { s with t := { s.t with sched := { s.t.sched with heldAt := some s.evs } } }

/-- The long op that an instruction makes of a state. -/
def Claim.op (s : State) (ds : List Reg) (vals : List Line) (act : LongAct) : LongOp :=
  { op := s.ops, pc := s.t.pc, dsts := ds, vals := vals, act := act, since := s.dev.cycle, iter := s.t.iteration }

/-- A load as its rule gives it: the addresses that must be multiples of the element size, and its units. -/
structure Claim.Load where
  o : OpM
  vec : Bool
  io : Bool
  checked : List Word
  units : Units

/-- The address of a lane of `ldg` and `stg` (spec/09_memory_offers.md R160): the base plus the sign-extended index lane shifted
left plus the sign-extended offset. -/
def Claim.laneAddress (s : State) (o : OpM) (i : Nat) : Word :=
  let w := (OpM.type o).width
  s.readW o.base + ((BitVec.ofNat w (laneOf (s.read o.index) w i)).signExtend 64 <<< o.shift.val) + o.imm.signExtend 64

/-- `ld`, `ldv` and `ldg`. -/
def Claim.loadOf (s : State) (i : Instr) : Option Claim.Load :=
  let n (o : OpM) := (OpM.type o).width / 8
  match i with
  | .ld o => some { o := o, vec := false, io := true, checked := [s.ea o], units := [(s.ea o, n o, 0)] }
  | .ldv o => some { o := o, vec := true, io := false, checked := [s.ea o], units := lineUnits (s.ea o) (OpM.type o).width }
  | .ldg o => some { o := o, vec := true, io := false
                     checked := (List.range (lanes (OpM.type o).width)).map (Claim.laneAddress s o)
                     units := (List.range (lanes (OpM.type o).width)).map fun i => (Claim.laneAddress s o i, n o, i * n o) }
  | _ => none

/-- What becomes of a precise access to a page that is not resident: the task gives up its slot and keeps its registers
(spec/21_launch_storage.md R342). -/
def Claim.Suspends (s t : State) : Prop :=
  t.t.sched.status = .suspended ∧ t.t.sched.slot = none ∧ t.t.regs = s.t.regs ∧ t.t.pc = s.t.pc ∧ t.t.long = s.t.long

end Sys2Proof.Machine

/-- Loads (`ld`, `ldv`, `ldg`): an address that is no multiple of the element size traps 0x0A with it, an address in the local
store of another core 0x14 (spec/01_machine.md R20); else every unit is translated, the first fault is the trap, a page that is
not resident suspends the task, a walk that meets a held line waits with the slot held (spec/09_memory_offers.md R180), and otherwise the load issues as a long op of its units, its one destination pending. -/
def Sys2Proof.Machine.Claim.LoadsIssueTheirUnits : Prop :=
  ∀ s i l, Claim.loadOf s i = some l → s.Runs i →
    let n := (OpM.type l.o).width / 8
    (∀ va, l.checked.find? (fun a => a.toNat % n != 0) = some va →
      Claim.Gives i s fun t => Traps s t 0x0A s.t.pc { g4 := va }) ∧
    ((∀ va ∈ l.checked, va.toNat % n = 0) → ∀ u, l.units.find? (fun u => isForeign s.t.sched.core u.1) = some u →
      Claim.Gives i s fun t => Traps s t 0x14 s.t.pc { g4 := u.1 }) ∧
    ((∀ va ∈ l.checked, va.toNat % n = 0) → (∀ u ∈ l.units, isForeign s.t.sched.core u.1 = false) →
      match s.buildLoad l.io l.units with
      | (.ok ps, f) => f.t.outcnt < 64 → Claim.Gives i s fun t => Issues f t [l.o.data]
          (Claim.op f [l.o.data] [] (.load (OpM.type l.o) l.vec l.o.scope (l.o.hint != .noL1) ps))
      | (.fault c va, f) => Claim.Gives i s fun t => Traps f t c f.t.pc { g4 := va }
      | (.storage _ _ _, f) => f.t.sched.storage = none → Claim.Gives i s fun t => Claim.Suspends f t
      | (.wait, f) => Claim.Gives i s fun t => Claim.HoldsSlot f t)

/-- The address ranges that are never translated (spec/01_machine.md R19, R20): the core's own local store at the top, every
core's below 0xFFFFFFFF80000000, where a core's own range is an alias of its local store. A unit of a load there is read at
issue (spec/09_memory_offers.md R152), unless an acquire that holds it is outstanding (spec/12_ordering_notes.md R215), and a whole
`ld` there changes no state but the task's. -/
def Sys2Proof.Machine.Claim.LocalStoreRangesReadAtIssue : Prop :=
  (∀ (core : Nat) (va : Word),
    (0xFFFFFFFFFFF80000 ≤ va.toNat → windowFor core va = .ls (va.toNat - 0xFFFFFFFFFFF80000)) ∧
    (∀ n off, n < 4096 → off < 2 ^ 19 → va = BitVec.ofNat 64 (0xFFFFFFFF00000000 + n * 2 ^ 19 + off) →
      windowFor core va = if n = core then .ls off else .dls n off) ∧
    (va.toNat < 0xFFFFFFFF00000000 ∨ (0xFFFFFFFF80000000 ≤ va.toNat ∧ va.toNat < 0xFFFFFFFFFFF80000) →
      windowFor core va = .mapped)) ∧
  (∀ (s : State) (o : OpM) (off : Nat), s.Runs (.ld o) → s.t.outcnt < 64 → s.t.versioned = false →
    let n := (OpM.type o).width / 8
    (s.ea o).toNat % n = 0 → windowFor s.t.sched.core (s.ea o) = .ls off →
    Claim.Gives (.ld o) s fun t => Issues s t [o.data] (Claim.op s [o.data] []
      (.load (OpM.type o) false o.scope (o.hint != .noL1)
        [{ va := s.ea o, pa := none, len := n, pos := 0
           data := if s.t.lsHeld s.ops off n true then none
                   else some (BitVec.ofNat 512 (s.lsRead s.t.sched.core off n)) }])))

/-- Translating changes memory and the core's held translations only; a translation that the core holds changes nothing. Where
no
page is private to a core and the home slices need give up no line, no byte changes but those of the page-table entry, whose A and
D a walk sets (spec/21_launch_storage.md R336). -/
def Obligations.TranslationTouchesOnlyItsEntry : Prop :=
  ∀ (s f : State) (core root : Nat) (a : Ask) (va : Word) (x : Xlat), s.translate core root a va = (x, f) →
    f = { s with mem := f.mem, cores := f.cores, free := f.free } ∧ f.mem.ls = s.mem.ls ∧
    (∀ n, f.core n = { s.core n with tlb := (f.core n).tlb }) ∧ (∀ n, n ≠ core → f.core n = s.core n) ∧
    (∀ l, s.tlbLookup core root va = some l → (a.writes = false ∨ Pte.d l.pte = true) → f = s) ∧
    ((∀ page n, s.mem.page.get .unowned page ≠ .priv n) → s.mem.l2.length + 8 ≤ l2Room → ∀ pa, f.byteAt pa ≠ s.byteAt pa →
      ∃ l g, s.walk (s.corePart core) va.toNat 5 root = (.leaf l, g) ∧ l.pteAt ≤ pa ∧ pa < l.pteAt + 8)

/-- `pf` completes whatever its address, and never traps; where the walk meets a held line it waits with its slot held
(spec/09_memory_offers.md R180). It changes no register, no local store, no other task, and no byte of memory but those of the
page-table entry whose A a walk sets: said where no page is private to a core, no RDC or L1 line that must make room holds dirty bytes,
and the home slices need give up no line. -/
def Sys2Proof.Machine.Claim.PrefetchCompletes : Prop :=
  ∀ (s : State) (o : OpM), s.Runs (.pf o) →
    let core := s.t.sched.core
    let r := s.reach s.t (s.t.asks .load false false) (s.ea o) 1
    (windowFor core (s.ea o) = .mapped → r.1 = .wait → Claim.Gives (.pf o) s fun t => Claim.HoldsSlot r.2 t) ∧
    (windowFor core (s.ea o) ≠ .mapped ∨ r.1 ≠ .wait → Claim.Gives (.pf o) s fun t =>
      t = { s with t := { s.t with pc := nextPc s.t.pc, view := none }, mem := t.mem, cores := t.cores, free := t.free } ∧
      (∀ core off, t.localByte core off = s.localByte core off) ∧
      ((∀ page n, s.mem.page.get .unowned page ≠ .priv n) → (∀ e ∈ s.mem.rdc, e.2.dirty = 0) → (∀ e ∈ s.mem.l1, e.2.dirty = 0) →
        s.mem.l2.length + 16 ≤ l2Room → ∀ pa, t.byteAt pa ≠ s.byteAt pa →
        ∃ l g, s.walk (s.corePart core) (s.ea o).toNat 5 (s.rootOf s.t) = (.leaf l, g) ∧ l.pteAt ≤ pa ∧ pa < l.pteAt + 8))

/-- Loads issue their units (spec/09_memory_offers.md R157, R158, R160), local store is read at issue, and `pf` completes. -/
def Obligations.LoadsAndPrefetchComplete : Prop :=
  Claim.LoadsIssueTheirUnits ∧ Claim.LocalStoreRangesReadAtIssue ∧ Claim.PrefetchCompletes

namespace Sys2Proof.Machine

/-- A store of a plain task that is not performed at issue: it joins the unresolved stores at the end of the order, with what is
known of it besides (`more`), and execution goes on. No byte of memory changes until it resolves (spec/13_traps.md R225). -/
def Claim.Recorded (s t : State) (kind : StoreKind) (va : Word) (bs : List Byte) (scope : Scope) (more : Store → Store := id) :
    Prop :=
  t = { s with
    t := { s.t with
      stores := s.t.stores ++
        [more { op := s.ops, kind := kind, va := va, pc := s.t.pc, lane := 0, data := bs, scope := scope, dist := 0 }]
      pc := nextPc s.t.pc, view := none }
    ops := s.ops + 1 } ∧
  (∀ pa, t.byteAt pa = s.byteAt pa) ∧ (∀ core off, t.localByte core off = s.localByte core off)

/-- A plain task's store of bytes to local store: those bytes change, every other byte of local store and all of memory stays.
-/
def Claim.StoresLocally (s t : State) (off : Nat) (bs : List Byte) : Prop :=
  (∀ core k, k < 2 ^ 19 → t.localByte core k =
    if core = s.t.sched.core ∧ off ≤ k ∧ k < off + bs.length then (bs.getD (k - off) 0).toNat else s.localByte core k) ∧
  (∀ pa, t.byteAt pa = s.byteAt pa) ∧ t.mem = { s.mem with ls := t.mem.ls }

/-- What the version of a task holds of a byte of memory. -/
def Claim.versionByte (t : Task) (pa : Nat) : Option Nat :=
  match t.version.find? (lineAt pa) with
  | some v => if v.mask.getLsbD (pa % 64) then some (sliceLine v.data (pa % 64) 1) else none
  | none => none

/-- The low bytes of a register, from byte k on. -/
def Claim.bytes (x : Line) (k n : Nat) : List Byte := (List.range n).map fun i => BitVec.ofNat 8 (x.toNat / 256 ^ (k + i))

end Sys2Proof.Machine

/-- `st` stores the low bytes of its data register at its effective address: 0x0A where the address is no multiple of the
size, or
where control space takes no such access (spec/23_host.md R349), 0x14 in another core's local store, at once in the core's own, unless
an acquire or an earlier access holds it (spec/12_ordering_notes.md R215), and into the task's unresolved stores elsewhere. A versioned
task writes its scratch or version, and no memory (spec/01_machine.md R39; how its scratch is counted is the model's choice, log entry
43), and one that has no room publishes and traps 0x5C (R40). -/
def Sys2Proof.Machine.Claim.StoresComplete : Prop :=
  ∀ (s : State) (o : OpM), s.Runs (.st o) →
    let n := (OpM.type o).width / 8
    let va := s.ea o
    let bs := Claim.bytes (s.read o.data) 0 n
    let ask := s.t.asks .store true true
    (va.toNat % n ≠ 0 → Claim.Gives (.st o) s fun t => Traps s t 0x0A s.t.pc { g4 := va }) ∧
    (va.toNat % n = 0 → isForeign s.t.sched.core va = true →
      Claim.Gives (.st o) s fun t => Traps s t 0x14 s.t.pc { g4 := va }) ∧
    (∀ off, va.toNat % n = 0 → windowFor s.t.sched.core va = .ls off →
      (s.t.versioned = false → s.t.lsHeld s.ops off n false = false → Claim.Gives (.st o) s fun t =>
        Claim.StoresLocally s t off bs ∧ t = { s with t := { s.t with pc := nextPc s.t.pc, view := none }, mem := t.mem }) ∧
      (s.t.versioned = false → s.t.lsHeld s.ops off n false = true → Claim.Gives (.st o) s fun t =>
        Claim.Recorded s t .plain va bs .core fun st => { st with ls := some off }) ∧
      (s.t.versioned = true → s.t.lsClash s.ops off n = true → Claim.Gives (.st o) s fun t => Claim.HoldsSlot s t) ∧
      (s.t.versioned = true → s.t.lsClash s.ops off n = false → ∀ g,
        ((s.t.scratch ≠ [] ∧ g = s) ∨ (s.t.scratch = [] ∧ ∃ b, s.area s.t.sched.core s.t.mapEntry 2 = (some b, g))) →
        (g.t.scratchFull off n = false → Claim.Gives (.st o) s fun t =>
          Claim.Only g t (fun u => { u with scratch := t.t.scratch }) ∧
          ∀ k, k < n → t.t.scratch.find? ((off + k) % 2 ^ 19) = some (bs.getD k 0)) ∧
        (g.t.scratchFull off n = true → (g.publishWaits = true → Claim.Gives (.st o) s fun t => Claim.HoldsSlot g t) ∧
          (g.publishWaits = false → Claim.Gives (.st o) s fun t =>
            Traps (g.publish.onT fun t => { t with versioned := false }) t 0x5C g.publish.t.pc { g4 := 0 }))) ∧
      (s.t.versioned = true → s.t.lsClash s.ops off n = false → s.t.scratch = [] →
        ∀ g, s.area s.t.sched.core s.t.mapEntry 2 = (none, g) →
        Claim.Gives (.st o) s fun t => Traps g t (g.noArea s.t.sched.core s.t.mapEntry) g.t.pc {})) ∧
    (va.toNat % n = 0 → windowFor s.t.sched.core va = .mapped →
      (s.t.versioned = false → (s.reach s.t ask va n).1 ≠ .fault 0x0A →
        Claim.Gives (.st o) s fun t => Claim.Recorded s t .plain va bs o.scope) ∧
      (s.t.versioned = false → (s.reach s.t ask va n).1 = .fault 0x0A →
        Claim.Gives (.st o) s fun t => Traps s t 0x0A s.t.pc { g4 := va }) ∧
      (s.t.versioned = true → ∀ c f, s.reach s.t ask va n = (.fault c, f) →
        Claim.Gives (.st o) s fun t => Traps f t c f.t.pc { g4 := va }) ∧
      (s.t.versioned = true → ∀ pa p f, s.reach s.t ask va n = (.ok pa p, f) → f.t.clash f.ops va.toNat n = true →
        Claim.Gives (.st o) s fun t => Claim.HoldsSlot f t) ∧
      (s.t.versioned = true → ∀ pa p f, s.reach s.t ask va n = (.ok pa p, f) →
        f.t.clash f.ops va.toNat n = false → spaceOf pa = .dram →
        (f.t.versionFull [pa] = false → Claim.Gives (.st o) s fun t =>
          Claim.Only f t (fun u => { u with version := t.t.version }) ∧
          (pa % 64 + n ≤ 64 → ∀ a, Claim.versionByte t.t a =
            if pa ≤ a ∧ a < pa + n then some (bs.getD (a - pa) 0).toNat else Claim.versionByte f.t a)) ∧
        (f.t.versionFull [pa] = true → (f.publishWaits = true → Claim.Gives (.st o) s fun t => Claim.HoldsSlot f t) ∧
          (f.publishWaits = false → Claim.Gives (.st o) s fun t =>
            Traps (f.publish.onT fun t => { t with versioned := false }) t 0x5C f.publish.t.pc { g4 := va })))) ∧
    (s.publish.t.version = [] ∧ s.publish.t.scratch = [] ∧ s.publish.t.pc = s.t.pc)

/-- `stv` stores a whole register. Aligned and in translated addresses, a plain task records one store of 64 bytes; in the
core's
local store the 64 bytes are written at once; elsewhere its units are stored in increasing order. -/
def Sys2Proof.Machine.Claim.LineStoresComplete : Prop :=
  ∀ (s : State) (o : OpM), s.Runs (.stv o) →
    let n := (OpM.type o).width / 8
    let va := s.ea o
    let core := s.t.sched.core
    let us := lineUnits va (OpM.type o).width
    (va.toNat % n ≠ 0 → Claim.Gives (.stv o) s fun t => Traps s t 0x0A s.t.pc { g4 := va }) ∧
    (va.toNat % n = 0 → ∀ u, us.find? (fun u => isForeign core u.1) = some u →
      Claim.Gives (.stv o) s fun t => Traps s t 0x14 s.t.pc { g4 := u.1 }) ∧
    (va.toNat % n = 0 → us.all (fun u => !isForeign core u.1) = true → s.t.versioned = false →
      (windowFor core va = .mapped → windowFor core (va + 63) = .mapped →
        Claim.Gives (.stv o) s fun t => Claim.Recorded s t .plain va (Claim.bytes (s.read o.data) 0 64) o.scope
          fun st => { st with unit := n }) ∧
      (∀ off, windowFor core va = .ls off → off + 64 ≤ 2 ^ 19 →
        (∀ u ∈ us, s.t.lsHeld s.ops (off + u.2.2) u.2.1 false = false) →
        Claim.Gives (.stv o) s fun t => Claim.StoresLocally s t off (Claim.bytes (s.read o.data) 0 64) ∧
          t = { s with t := { s.t with pc := nextPc s.t.pc, view := none }, mem := t.mem })) ∧
    (va.toNat % n = 0 → us.all (fun u => !isForeign core u.1) = true →
      s.t.versioned = true ∨ windowFor core va ≠ .mapped ∨ windowFor core (va + 63) ≠ .mapped →
      exec (.stv o) s = .next (s.storeUnits .plain o.scope State.advance
        (us.map fun u => (u.1, 0, Claim.bytes (s.read o.data) u.2.2 u.2.1))))

/-- `stg` stores the lanes of its data register at the addresses of its index lanes (spec/09_memory_offers.md R160), in
increasing
lane order: in translated addresses a plain task records one store per lane. -/
def Sys2Proof.Machine.Claim.ScatterStoresComplete : Prop :=
  ∀ (s : State) (o : OpM), s.Runs (.stg o) →
    let n := (OpM.type o).width / 8
    let core := s.t.sched.core
    let vas := (List.range (lanes (OpM.type o).width)).map (Claim.laneAddress s o)
    let lane (i : Nat) := Claim.bytes (s.read o.data) (i * n) n
    (∀ va, vas.find? (fun a => a.toNat % n != 0) = some va →
      Claim.Gives (.stg o) s fun t => Traps s t 0x0A s.t.pc { g4 := va }) ∧
    ((∀ va ∈ vas, va.toNat % n = 0) → ∀ va, vas.find? (isForeign core) = some va →
      Claim.Gives (.stg o) s fun t => Traps s t 0x14 s.t.pc { g4 := va }) ∧
    ((∀ va ∈ vas, va.toNat % n = 0) → (∀ va ∈ vas, isForeign core va = false) →
      exec (.stg o) s = .next (s.storeUnits .lane o.scope State.advance
        ((List.range (lanes (OpM.type o).width)).map fun i => (Claim.laneAddress s o i, i, lane i))) ∧
      (s.t.versioned = false → (∀ va ∈ vas, windowFor core va = .mapped) → Claim.Gives (.stg o) s fun t =>
        t = { s with t := { s.t with stores := t.t.stores, pc := nextPc s.t.pc, view := none }, ops := t.ops } ∧
        t.t.stores = s.t.stores ++ (List.range (lanes (OpM.type o).width)).map fun i =>
          { op := s.ops + i, kind := .lane, va := Claim.laneAddress s o i, pc := s.t.pc, lane := i, data := lane i,
            scope := o.scope, dist := 0 }))

/-- `st`, `stv` and `stg` complete: what they store, where, and what they leave alone (spec/05_scalar.md R97,
spec/09_memory_offers.md R158, R160). -/
def Obligations.StoresCompleteInEveryForm : Prop :=
  Claim.StoresComplete ∧ Claim.LineStoresComplete ∧ Claim.ScatterStoresComplete

namespace Sys2Proof.Machine

/-- The checks that full/empty loads share (spec/09_memory_offers.md R162), and what follows: `here` in the core's local store,
`home` at the home of a page with full bits. -/
def Claim.FullEmpty (i : Instr) (s : State) (o : OpM) (here : Nat → Prop) (home : Nat → State → Prop) : Prop :=
  let n := (OpM.type o).width / 8
  let va := s.ea o
  (va.toNat % n ≠ 0 → Claim.Gives i s fun t => Traps s t 0x0A s.t.pc { g4 := va }) ∧
  (va.toNat % n = 0 → isForeign s.t.sched.core va = true → Claim.Gives i s fun t => Traps s t 0x14 s.t.pc { g4 := va }) ∧
  (va.toNat % n = 0 → ∀ off, windowFor s.t.sched.core va = .ls off → here off) ∧
  (va.toNat % n = 0 → windowFor s.t.sched.core va = .mapped →
    match s.reach s.t (s.t.asks .load true false) va n with
    | (.fault c, f) => Claim.Gives i s fun t => Traps f t c f.t.pc { g4 := va }
    | (.storage _ _, f) => f.t.sched.storage = none → Claim.Gives i s fun t => Claim.Suspends f t
    | (.wait, f) => Claim.Gives i s fun t => Claim.HoldsSlot f t
    | (.ok pa p, f) =>
      if Pte.fe p = true ∧ spaceOf pa = .dram then home pa f
      else Claim.Gives i s fun t => Traps f t 0x15 f.t.pc { g4 := va })

end Sys2Proof.Machine

/-- `ldf` and `ldft` (spec/09_memory_offers.md R161, R162) issue as long ops. A full word of local store gives its value at
once; an empty one makes `ldf` wait and `ldft` give zero and a false predicate; at home the word is read when the load is
performed, as it is in local store while an acquire holds the access (spec/12_ordering_notes.md R215). In a message handler `ldf`
traps 0x63. -/
def Sys2Proof.Machine.Claim.FullEmptyLoadsIssue : Prop :=
  ∀ (s : State) (o : OpM), s.t.outcnt < 64 →
    let ty := OpM.type o
    let value (off : Nat) := loadValue ty (s.lsLoad s.t off (ty.width / 8))
    (s.Runs (.ldf o) → s.t.isMessage = true → Claim.Gives (.ldf o) s fun t => Traps s t 0x63 s.t.pc {}) ∧
    (s.Runs (.ldf o) → s.t.isMessage = false → Claim.FullEmpty (.ldf o) s o
      (fun off => Claim.Gives (.ldf o) s fun t => Issues s t [o.data]
        (if s.t.lsHeld s.ops off 8 true then Claim.op s [o.data] [] (.ldf ty (s.ea o) none false)
         else if s.lsIsFull s.t.sched.core off then Claim.op s [o.data] [value off] (.ready 0)
         else Claim.op s [o.data] [] (.ldf ty (s.ea o) none true)))
      (fun pa f => f.t.outcnt < 64 → Claim.Gives (.ldf o) s fun t =>
        Issues f t [o.data] (Claim.op f [o.data] [] (.ldf ty (s.ea o) (some pa) false)))) ∧
    (s.Runs (.ldft o) → Claim.FullEmpty (.ldft o) s o
      (fun off => Claim.Gives (.ldft o) s fun t => Issues s t [o.data, .p o.pidx]
        (if s.t.lsHeld s.ops off 8 true then Claim.op s [o.data, .p o.pidx] [] (.ldft ty (s.ea o) none o.pidx.val)
         else Claim.op s [o.data, .p o.pidx] (if s.lsIsFull s.t.sched.core off then [value off, 1] else [0, 0]) (.ready 0)))
      (fun pa f => f.t.outcnt < 64 → Claim.Gives (.ldft o) s fun t =>
        Issues f t [o.data, .p o.pidx] (Claim.op f [o.data, .p o.pidx] [] (.ldft ty (s.ea o) (some pa) o.pidx.val))))

/-- `stf` stores and sets the full bit, `clrf` clears it (spec/09_memory_offers.md R162): at once in the core's local store,
unless an
acquire or an earlier access holds it (spec/12_ordering_notes.md R215), by an unresolved store elsewhere; 0x15 where there is no full
bit, on a page without them or outside DRAM, resident or not; 0x0C in a versioned task where there is one (R173). A fault of translation
is recorded with the store of a plain task (spec/13_traps.md R225), and is the trap of a versioned one; 0x0A is precise always. -/
def Sys2Proof.Machine.Claim.FullEmptyStoresComplete : Prop :=
  ∀ (s : State) (o : OpM) (full : Bool),
    let i := if full then Instr.stf o else Instr.clrf o
    let n := if full then (OpM.type o).width / 8 else 8
    let kind := if full then StoreKind.stf else StoreKind.clrf
    let bs := if full then Claim.bytes (s.read o.data) 0 n else List.replicate 8 0
    let va := s.ea o
    let core := s.t.sched.core
    s.Runs i →
    (va.toNat % n ≠ 0 → Claim.Gives i s fun t => Traps s t 0x0A s.t.pc { g4 := va }) ∧
    (va.toNat % n = 0 → isForeign core va = true → Claim.Gives i s fun t => Traps s t 0x14 s.t.pc { g4 := va }) ∧
    (va.toNat % n = 0 → ∀ off, windowFor core va = .ls off → s.t.versioned = false →
      s.t.lsHeld s.ops off n false = false → Claim.Gives i s fun t =>
      (∀ c k, k < 2 ^ 19 → t.localByte c k =
        if full = true ∧ c = core ∧ off ≤ k ∧ k < off + n then (bs.getD (k - off) 0).toNat else s.localByte c k) ∧
      (∀ c k, k < 2 ^ 19 → t.lsIsFull c k = if c = core ∧ k / 8 = off / 8 then full else s.lsIsFull c k) ∧
      (∀ pa, t.byteAt pa = s.byteAt pa) ∧ t.t.pc = nextPc s.t.pc ∧ t.t.regs = s.t.regs ∧ t.t.sys = s.t.sys) ∧
    (va.toNat % n = 0 → ∀ off, windowFor core va = .ls off → s.t.lsHeld s.ops off n false = true →
      (s.t.versioned = false → Claim.Gives i s fun t => Claim.Recorded s t kind va bs o.scope fun st => { st with ls := some off }) ∧
      (s.t.versioned = true → Claim.Gives i s fun t => Claim.HoldsSlot s t)) ∧
    (va.toNat % n = 0 → windowFor core va = .mapped →
      match s.reach s.t (s.t.asks .store true true) va n with
      | (.ok pa p, f) =>
        if Pte.fe p = true ∧ spaceOf pa = .dram then
          (s.t.versioned = false → Claim.Gives i s fun t => Claim.Recorded f t kind va bs o.scope
            fun st => { st with home := some (homeDie pa), places := [(pa, true)] }) ∧
          (s.t.versioned = true → Claim.Gives i s fun t => Traps f t 0x0C f.t.pc { g4 := va })
        else Claim.Gives i s fun t => Traps f t 0x15 f.t.pc { g4 := va }
      | (.storage _ p, f) =>
        if Pte.fe p = true then
          (s.t.versioned = false → Claim.Gives i s fun t => Claim.Recorded f t kind va bs o.scope) ∧
          (s.t.versioned = true → Claim.Gives i s fun t => Traps f t 0x0C f.t.pc { g4 := va })
        else Claim.Gives i s fun t => Traps f t 0x15 f.t.pc { g4 := va }
      | (.wait, f) => Claim.Gives i s fun t => Claim.HoldsSlot f t
      | (.fault c, f) =>
        (s.t.versioned = true ∨ c = 0x0A → Claim.Gives i s fun t => Traps f t c f.t.pc { g4 := va }) ∧
        (s.t.versioned = false → c ≠ 0x0A →
          Claim.Gives i s fun t => Claim.Recorded f t kind va bs o.scope fun st => { st with found := some c }))

/-- `ldf`, `ldft`, `stf` and `clrf` (spec/09_memory_offers.md R161, R162) complete. -/
def Obligations.FullEmptyInstructionsComplete : Prop :=
  Claim.FullEmptyLoadsIssue ∧ Claim.FullEmptyStoresComplete

/-! ### Guard slots, copies and tags (spec/07_arithmetic.md R146 to R148, spec/09_memory_offers.md R164 to R168) -/

namespace Sys2Proof.Machine

/-- What becomes of a command of the task in focus for an engine, by its attached slot and its commands held before. -/
def Claim.fate (s : State) (engine : Nat) : Fate :=
  s.t.fate (s.t.attach.getD 16) (s.t.held.any fun x => x.engine == engine)

/-- A command as its slot leaves it: under an open slot it is not resolved yet, elsewhere it is. -/
def Claim.slotted (s : State) (h : Held) : Held :=
  let n := s.t.attach.getD 16
  { h with slot := n, fixed := if n < 16 && s.t.slots.get .free n == .opened then none else some true }

/-- A command is sent: `u` is the state once its number and its tag are taken. It goes, and `go` holds; or it waits under its
slot; or it is discarded, with the zero that a discarded `mcap` writes in the operand log. Execution goes on in sequence. -/
def Claim.Commanded (i : Instr) (s u : State) (h : Held) (go : State → Prop) : Prop :=
  Claim.Gives i s fun t => match Claim.fate s h.engine with
    | .go => go t
    | .wait => t = { u with t := { u.t with held := u.t.held ++ [h], pc := nextPc s.t.pc, view := none } }
    | .drop =>
      let v := u.logZeros u.t.sched.core u.cur [h]
      t = { v with t := { v.t.discard h with pc := nextPc s.t.pc, view := none } }

/-- The state once a command that carries a tag has its number. -/
def Claim.tagged (s : State) (tag : Nat) : State := { s with t := s.t.useTag tag, ops := s.ops + 1 }

/-- A `copy` as one row; a `copyx` as the 32-byte descriptor in local store says, where it is aligned and its reserved bits are
zero (spec/09_memory_offers.md R166). -/
def Claim.copyOf (s : State) (i : Instr) : Option (OpE × Desc) :=
  match i with
  | .copy o => some (o, { rowb := (s.readW o.c.reg).toNat % 2 ^ 32, rows := 1, sstr := 0, dstr := 0, arr := none })
  | .copyx o =>
    match windowFor s.t.sched.core (s.readW o.c.reg) with
    | .ls off =>
      let x := s.lsLoad s.t off 32
      if (s.readW o.c.reg).toNat % 32 = 0 ∧ x / 2 ^ 201 = 0 then
        some (o, { rowb := field x 31 0, rows := field x 63 32, sstr := BitVec.ofNat 64 (field x 127 64),
                   dstr := BitVec.ofNat 64 (field x 191 128), arr := if field x 200 200 = 1 then some (field x 199 192) else none })
      else none
    | _ => none
  | _ => none

/-- Some byte of some row of one side of a copy, or its first address, lies in the local store of another core; what lies
between
the rows does not count. -/
def Claim.copyForeign (s : State) (d : Desc) (a stride : Word) : Prop :=
  let window : Int := 0xFFFFFFFF00000000
  let own : Int := window + s.t.sched.core * 2 ^ 19
  isForeign s.t.sched.core a = true ∨ ∃ i < d.rows, ∃ j < d.rowb,
    let x : Int := a.toNat + i * stride.toInt + j
    (window ≤ x ∧ x < own) ∨ (own + 2 ^ 19 ≤ x ∧ x < window + 2 ^ 31)

/-- The bounding ranges of source and destination overlap. -/
def Claim.copyOverlaps (d : Desc) (dst src : Word) : Prop :=
  let x := boundingRange dst d.dstr d.rows d.rowb
  let y := boundingRange src d.sstr d.rows d.rowb
  d.rowb ≠ 0 ∧ d.rows ≠ 0 ∧ x.1 < y.1 + y.2 ∧ y.1 < x.1 + x.2

end Sys2Proof.Machine

/-- A command under a slot that has resolved false is discarded; one under an open slot, or behind a held command of its engine,
waits; every other goes (spec/07_arithmetic.md R147). `gslot` opens and attaches a slot or detaches; `gset` resolves one and with it
the commands that were held under it, after which every held command goes, waits or is discarded, in order. -/
def Obligations.CommandsFollowTheirSlots : Prop :=
  (∀ (s : State) (e : Nat),
    (∀ n, s.t.attach = some n → n < 16 → s.t.slots.get .free n = .no → Claim.fate s e = .drop) ∧
    (∀ n, s.t.attach = some n → n < 16 → s.t.slots.get .free n = .opened → Claim.fate s e = .wait) ∧
    (∀ n, s.t.attach = some n → n < 16 → s.t.slots.get .free n = .yes → Claim.fate s e =
      if ∃ h ∈ s.t.held, h.engine = e then .wait else .go) ∧
    (s.t.attach = none → Claim.fate s e = if ∃ h ∈ s.t.held, h.engine = e then .wait else .go)) ∧
  (∀ (s : State) (o : OpE), s.Runs (.gslot o) →
    (o.imm.getLsbD 4 = true → Claim.Gives (.gslot o) s fun t => Claim.Only s t fun u => { u with attach := none }) ∧
    (o.imm.getLsbD 4 = false → Claim.Gives (.gslot o) s fun t =>
      Claim.Only s t (fun u => { u with attach := some (o.imm.toNat % 16), slots := t.t.slots }) ∧
      ∀ k, t.t.slots.get .free k = if k = o.imm.toNat % 16 then .opened else s.t.slots.get .free k)) ∧
  (∀ (s : State) (o : OpE), s.Runs (.gset o) →
    let n := o.imm.toNat % 16
    let b := (s.read o.b.reg).getLsbD 0
    let resolved (h : Held) : Held := if h.slot = n ∧ h.fixed = none then { h with fixed := some b } else h
    let u := s.onT fun t => { t with slots := t.slots.set .free n (if b then .yes else .no), held := t.held.map resolved }
    exec (.gset o) s = .next (u.drainHeld u.t.held []).advance ∧
    (s.t.held = [] → Claim.Gives (.gset o) s fun t =>
      Claim.Only s t (fun v => { v with slots := u.t.slots, held := [] }) ∧
      ∀ k, t.t.slots.get .free k = if k = n then (if b then .yes else .no) else s.t.slots.get .free k))

/-- `copy` and `copyx` (spec/09_memory_offers.md R164 to R166): another core's local store traps 0x14, overlapping ranges
0x50, an
arrival asked for by a versioned task 0x0C; a full engine or tag makes the task hold its slot. Otherwise the tag becomes
outstanding and the command is sent: the core's copy engine takes it, or it completes at once if it has no bytes and owes no
arrival. A malformed descriptor of `copyx` traps 0x52. A `copyx` waits for an
earlier write of its task to its descriptor. -/
def Obligations.CopiesIssue : Prop :=
  (∀ (s : State) (i : Instr) (o : OpE) (d : Desc), Claim.copyOf s i = some (o, d) → s.Runs i →
    (∀ x off, i = .copyx x → windowFor s.t.sched.core (s.readW x.c.reg) = .ls off → s.t.lsOwed s.ops off 32 = false) →
    let core := s.t.sched.core
    let dst := s.readW o.a
    let src := s.readW o.b.reg
    let tag := o.imm.toNat % 64
    let busy := 255 ≤ s.t.tagCount.get 0 tag ∨ 32 ≤ (s.core core).copies.length
    (Claim.copyForeign s d dst d.dstr → Claim.Gives i s fun t => Traps s t 0x14 s.t.pc { g4 := dst }) ∧
    (¬Claim.copyForeign s d dst d.dstr → Claim.copyForeign s d src d.sstr →
      Claim.Gives i s fun t => Traps s t 0x14 s.t.pc { g4 := src }) ∧
    (¬Claim.copyForeign s d dst d.dstr → ¬Claim.copyForeign s d src d.sstr →
      (Claim.copyOverlaps d dst src → Claim.Gives i s fun t => Traps s t 0x50 s.t.pc {}) ∧
      (¬Claim.copyOverlaps d dst src → d.arr ≠ none → s.t.versioned = true →
        Claim.Gives i s fun t => Traps s t 0x0C s.t.pc {}) ∧
      (¬Claim.copyOverlaps d dst src → (d.arr = none ∨ s.t.versioned = false) →
        (busy → Claim.Gives i s fun t => Claim.HoldsSlot s t) ∧
        (¬busy →
          let u := Claim.tagged s tag
          let h := Claim.slotted s { slot := 16, pc := s.t.pc, ins := i, op := s.ops, x := dst, y := src,
                                     z := BitVec.ofNat 64 o.scope.code, line := d.toLine }
          let empty := d.rowb = 0 ∨ d.rows = 0
          Claim.Commanded i s u h fun t =>
            (empty → d.arr = none → t = (u.completeTag s.cur tag).advance) ∧
            (¬empty ∨ d.arr ≠ none →
              t = { u with t := { u.t with pc := nextPc s.t.pc, view := none }, cores := t.cores } ∧
              (∀ n, n ≠ core → t.core n = s.core n) ∧
              t.core core = { s.core core with copies := (s.core core).copies ++
                [{ op := s.ops, task := s.cur, tag := tag, dst := dst, src := src, rowBytes := d.rowb,
                   rows := if empty then 0 else d.rows, dstStride := d.dstr, srcStride := d.sstr, scope := o.scope, arrive := d.arr, root := s.rootOf s.t,
                   sys := s.t.isHandler, versioned := s.t.versioned, launch := s.t.launch }] }))))) ∧
  (∀ (s : State) (o : OpE), s.Runs (.copyx o) →
    (∀ off, windowFor s.t.sched.core (s.readW o.c.reg) = .ls off → s.t.lsOwed s.ops off 32 = true →
      Claim.Gives (.copyx o) s fun t => Claim.HoldsSlot s t) ∧
    ((∀ off, windowFor s.t.sched.core (s.readW o.c.reg) = .ls off → s.t.lsOwed s.ops off 32 = false) →
      Claim.copyOf s (.copyx o) = none →
      Claim.Gives (.copyx o) s fun t => Traps s t 0x52 s.t.pc { g4 := s.readW o.c.reg }))

/-- Tags (spec/09_memory_offers.md R164): an issue clears the bit and raises the count; a completion lowers it, and sets the bit
at zero. No other tag changes. -/
def Sys2Proof.Machine.Claim.TagsCountTheirCopies : Prop :=
  ∀ (t : Task) (tag k : Nat), tag < 64 → k < 64 →
    (t.useTag tag).tagCount.get 0 k = t.tagCount.get 0 k + (if k = tag then 1 else 0) ∧
    (t.useTag tag).sys.tags.getLsbD k = (t.sys.tags.getLsbD k && k != tag) ∧
    (t.completeTag tag).tagCount.get 0 k = t.tagCount.get 0 k - (if k = tag then 1 else 0) ∧
    (t.completeTag tag).sys.tags.getLsbD k = (t.sys.tags.getLsbD k || (k == tag && decide (t.tagCount.get 0 tag ≤ 1))) ∧
    (t.completeTag tag).regs = t.regs ∧ (t.useTag tag).regs = t.regs

namespace Sys2Proof.Machine

/-- A tag wait ends with a value, or reports the recorded fault of the lowest tag of its mask, which is then cleared
(spec/09_memory_offers.md R167, R168). -/
def Claim.TagWaitEnds (i : Instr) (s : State) (o : OpA) (mask x : Word) : Prop :=
  match s.t.faultIn mask with
  | none => Claim.Gives i s fun t => Effect s t [(o.dst, x.setWidth 512)] 0 (nextPc s.t.pc)
  | some e => Claim.Gives i s fun t =>
      Traps { s with t := { s.t with copyFaults := s.t.copyFaults.erase e.1 } } t (if e.2.cause = 0x60 then 0x60 else 0x51) s.t.pc
        { g4 := e.2.va, g5 := if e.2.cause = 0x60 then 0 else BitVec.ofNat 64 (e.2.cause * 256 + e.1) }

end Sys2Proof.Machine

/-- `wany`, `wall`, `ffr` and `tagclr` (spec/09_memory_offers.md R168): the first two park until some, or all, bits of the
mask are
set (0x63 in a message handler), and write the tags of the mask; `ffr` writes the number of the lowest one, 64 for none;
`tagclr` clears the mask's bits. -/
def Sys2Proof.Machine.Claim.TagInstructionsComplete : Prop :=
  ∀ (s : State) (o : OpA),
    let mask := s.wordB o.b o.imm
    let hit := s.t.seenSys.tags &&& mask
    (∀ any : Bool, let i := if any then Instr.wany o else Instr.wall o
      let met := if any then mask = 0 ∨ hit ≠ 0 else hit = mask
      s.Runs i →
      (s.t.isMessage = true → Claim.Gives i s fun t => Traps s t 0x63 s.t.pc {}) ∧
      (s.t.isMessage = false → met → Claim.TagWaitEnds i s o mask hit) ∧
      (s.t.isMessage = false → ¬met → Claim.Gives i s fun t => Parks s t (.tags any mask))) ∧
    (s.Runs (.ffr o) → ∃ n : Nat, (∀ k, k < n → hit.getLsbD k = false) ∧ (n = 64 ∨ (n < 64 ∧ hit.getLsbD n = true)) ∧
      Claim.TagWaitEnds (.ffr o) s o mask (BitVec.ofNat 64 n)) ∧
    (s.Runs (.tagclr o) → Claim.Gives (.tagclr o) s fun t =>
      Claim.Only s t fun u => { u with sys := { u.sys with tags := u.sys.tags &&& ~~~mask } })

/-- Copy tags count their copies, and the tag instructions complete (spec/09_memory_offers.md R164, R168). -/
def Obligations.TagsAndTheirWaitsComplete : Prop :=
  Claim.TagsCountTheirCopies ∧ Claim.TagInstructionsComplete

/-! ### Fences and maintenance (spec/09_memory_offers.md R159, R169) -/

namespace Sys2Proof.Machine

/-- Nothing of the task changes but the code address, and no local store; memory's copies may move. -/
def Claim.Passes (s t : State) : Prop :=
  t = { s with t := { s.t with pc := nextPc s.t.pc, view := none }, mem := t.mem, free := t.free } ∧
  (∀ core off, t.localByte core off = s.localByte core off)

/-- The core holds no copy of a line of a shared page, and from device scope on the die's RDC none but of a sealed page; of a
leased
line only the bytes that wait to be written (spec/09_memory_offers.md R180). -/
def Claim.Invalidated (s t : State) (scope : Scope) : Prop :=
  scope ≠ .core → ∀ line, line < 2 ^ 40 →
    (t.pageState line = .shared → t.mem.l1.find? (l1Key s.t.sched.core line) = none) ∧
    (3 ≤ Scope.rank scope → (∀ v, t.pageState line ≠ .sealed v) →
      ∀ c, t.mem.rdc.find? (rdcKey (dieOf s.t.sched.core) line) = some c → t.leased line = true ∧ c.valid = c.dirty)

/-- From device scope on, no line of the die's RDC is dirty, but for a leased one that waits (spec/09_memory_offers.md R180)
and has
no dirty byte of the task. -/
def Claim.WrittenThrough (s t : State) (scope : Scope) : Prop :=
  3 ≤ Scope.rank scope → ∀ line c, line < 2 ^ 40 →
    t.mem.rdc.find? (rdcKey (dieOf s.t.sched.core) line) = some c →
      c.dirty = 0 ∨ (t.leased line = true ∧ (s.t.live = true → c.writers.contains s.cur = false))

/-- The state in which the effect of `fence.w` at a scope leaves the device: from device scope on the die's RDC lines are
written through. -/
def Claim.pushed (s : State) (scope : Scope) : State :=
  if 3 ≤ Scope.rank scope then s.writeThroughAll (dieOf s.t.sched.core) else s

end Sys2Proof.Machine

/-- `fence.r` waits, its slot held, for earlier loads, and then drops the core's copies of shared pages and, from device scope
on,
the die's RDC lines. `fence.w` writes the die's RDC lines through from device scope on, and waits for the task's writes to reach
its scope. `fence.rw` does both, `fence.b` waits for commits and stores (spec/09_memory_offers.md R159). -/
def Obligations.FencesComplete : Prop :=
  ∀ (s : State) (o : OpM),
    (s.Runs (.fenceR o) →
      (s.t.loadsOut = true → Claim.Gives (.fenceR o) s fun t => Claim.HoldsSlot s t) ∧
      (s.t.loadsOut = false → Claim.Gives (.fenceR o) s fun t => Claim.Passes s t ∧ Claim.Invalidated s t o.scope ∧
        (o.scope = .core → t.mem = s.mem))) ∧
    (s.Runs (.fenceW o) →
      let u := Claim.pushed s o.scope
      (u.writesOut s.cur o.scope s.ops = true → Claim.Gives (.fenceW o) s fun t => Claim.HoldsSlot u t) ∧
      (u.writesOut s.cur o.scope s.ops = false → Claim.Gives (.fenceW o) s fun t => Claim.Passes s t ∧
        Claim.WrittenThrough s t o.scope ∧ (Scope.rank o.scope < 3 → t.mem = s.mem))) ∧
    (s.Runs (.fenceRw o) →
      let u := Claim.pushed s o.scope
      (u.writesOut s.cur o.scope s.ops = true ∨ s.t.loadsOut = true → Claim.Gives (.fenceRw o) s fun t => Claim.HoldsSlot u t) ∧
      (u.writesOut s.cur o.scope s.ops = false → s.t.loadsOut = false → Claim.Gives (.fenceRw o) s fun t =>
        Claim.Passes s t ∧ Claim.Invalidated s t o.scope ∧ Claim.WrittenThrough s t o.scope)) ∧
    (s.Runs (.fenceB o) →
      (s.t.commitOut = true ∨ s.t.stores ≠ [] → Claim.Gives (.fenceB o) s fun t => Claim.HoldsSlot s t) ∧
      (s.t.commitOut = false → s.t.stores = [] → Claim.Gives (.fenceB o) s fun t => Claim.Only s t id))

namespace Sys2Proof.Machine

/-- `clean.r`, `inv.r` and `flush.r`: the operand, whether lines are written and dropped, and the right that they need. -/
def Claim.maintenance (i : Instr) : Option (OpE × Bool × Bool × Access) :=
  match i with
  | .cleanR o => some (o, true, false, .load)
  | .invR o => some (o, false, true, .store)
  | .flushR o => some (o, true, true, .load)
  | _ => none

end Sys2Proof.Machine

/-- Maintenance by range (spec/09_memory_offers.md R169) waits for the task's stores and bank offers. With length 0 it does
nothing; else the pages of its range are treated in increasing order, from the first on: the fault of a page's translation is its trap,
a page that is not resident, not DRAM or never translated is skipped, and else the page's lines are treated in order, once none of them
is held. Outside sealed pages, cleaning leaves no dirty copy of a line in any cache and brings its dirty bytes to the channel, and
invalidating leaves no copy at all. -/
def Obligations.MaintenanceCompletes : Prop :=
  (∀ (s : State) (i : Instr) (o : OpE) (clean inv : Bool) (k : Access), Claim.maintenance i = some (o, clean, inv, k) → s.Runs i →
    let lo := (s.readW o.a).toNat
    let n := (s.readW o.b.reg).toNat
    let page := lo / 4096 * 4096
    let va : Word := BitVec.ofNat 64 page
    (s.t.bankOut = true ∨ s.t.stores ≠ [] → Claim.Gives i s fun t => Claim.HoldsSlot s t) ∧
    (s.t.bankOut = false → s.t.stores = [] →
      (n = 0 → Claim.Gives i s fun t => Claim.Only s t id) ∧
      (0 < n → lo + n ≤ page + 4096 →
        (windowOf va ≠ .mapped → Claim.Gives i s fun t => Claim.Only s t id) ∧
        (windowOf va = .mapped → match s.reach s.t (s.t.asks k true false) va 8 with
          | (.fault c, f) => Claim.Gives i s fun t => Traps f t c f.t.pc { g4 := va }
          | (.storage _ _, f) => Claim.Gives i s fun t => Claim.Only f t id
          | (.wait, f) => Claim.Gives i s fun t => Claim.HoldsSlot f t
          | (.ok pa _, f) =>
            let lines := (linesIn page lo (lo + n)).map fun j => lineAt pa + 64 * j
            (spaceOf pa ≠ .dram → Claim.Gives i s fun t => Claim.Only f t id) ∧
            (spaceOf pa = .dram → (∃ l ∈ lines, f.heldLine l = true) → Claim.Gives i s fun t => Claim.HoldsSlot f t) ∧
            (spaceOf pa = .dram → (∀ l ∈ lines, f.heldLine l = false) → Claim.Gives i s fun t =>
              Claim.Passes f t ∧ t.mem = (lines.foldl (fun g l => g.maintainLine clean inv l) f).mem))) ∧
      (0 < n → exec i s = .next (s.maintainPages k clean inv lo (lo + n) ((lo + n - 1) / 4096 - lo / 4096 + 1) page)))) ∧
  (∀ (s : State) (k : Access) (clean inv : Bool) (lo hi m page : Nat),
    let va : Word := BitVec.ofNat 64 page
    let rest (s : State) : State := s.maintainPages k clean inv lo hi m (page + 4096)
    let here := s.maintainPages k clean inv lo hi (m + 1) page
    (windowOf va ≠ .mapped → here = rest s) ∧
    (windowOf va = .mapped → match s.reach s.t (s.t.asks k true false) va 8 with
      | (.fault c, f) => Traps f here c f.t.pc { g4 := va }
      | (.storage _ _, f) => here = rest f
      | (.wait, f) => Claim.HoldsSlot f here
      | (.ok pa _, f) =>
        let lines := (linesIn page lo hi).map fun j => lineAt pa + 64 * j
        (spaceOf pa ≠ .dram → here = rest f) ∧
        (spaceOf pa = .dram → (∃ l ∈ lines, f.heldLine l = true) → Claim.HoldsSlot f here) ∧
        (spaceOf pa = .dram → (∀ l ∈ lines, f.heldLine l = false) →
          here = rest (lines.foldl (fun g l => g.maintainLine clean inv l) f)))) ∧
  (∀ (s : State) (line : Nat) (c : CLine), line < 2 ^ 40 → line % 64 = 0 → (∀ v, s.pageState line ≠ .sealed v) →
    (∀ n, s.mem.l1.find? (l1Key n line) = none) → (∀ n, s.mem.rdc.find? (rdcKey n line) = none) →
    s.mem.l2.find? line = some c →
    (s.maintainLine true false line).chanRead line = mergeLine c.dirty c.data (s.chanRead line)) ∧
  (∀ (s : State) (line : Nat), line < 2 ^ 40 → line % 64 = 0 → (∀ v, s.pageState line ≠ .sealed v) → s.leased line = false →
    let t := s.maintainLine true false line
    let u := s.maintainLine true true line
    (∀ core c, core < 4096 → t.mem.l1.find? (l1Key core line) = some c → c.dirty = 0) ∧
    (∀ die c, die < 4 → t.mem.rdc.find? (rdcKey die line) = some c → c.dirty = 0) ∧
    (∀ c, t.mem.l2.find? line = some c → c.dirty = 0) ∧
    (∀ core, u.mem.l1.find? (l1Key core line) = none ∧ u.mem.ic.find? (icKey core line) = none) ∧
    (∀ die, u.mem.rdc.find? (rdcKey die line) = none) ∧ u.mem.l2.find? line = none)

/-! ### Offers (spec/09_memory_offers.md R173 to R183) -/

namespace Sys2Proof.Machine

/-- An offer as its row gives it: what it computes, whether faults come in its reply, operands b and c after their modifiers,
and
for a commit the operand received. -/
structure Claim.Offered where
  o : OpE
  op : OfferOp
  nt : Bool
  old : Line := 0

/-- The 26 offers, and `ocmt`, whose stamp and CHAIN come from the reply word in r2 (R179). -/
def Claim.offerOf (s : State) (i : Instr) : Option Claim.Offered :=
  let x (o : OpE) (a : Atomic) (nt : Bool) : Option Claim.Offered := some { o := o, op := .atomic a, nt := nt }
  match i with
  | .oadd o => x o .add false
  | .omin o => x o .min false
  | .omax o => x o .max false
  | .oand o => x o .and false
  | .oor o => x o .or false
  | .oxor o => x o .xor false
  | .oswp o => x o .swp false
  | .ocas o => x o .cas false
  | .ofadd o => x o .fadd false
  | .ofmin o => x o .fmin false
  | .ofmax o => x o .fmax false
  | .offma o => x o .ffma false
  | .ored o => some { o := o, op := .red, nt := false }
  | .oaddNt o => x o .add true
  | .ominNt o => x o .min true
  | .omaxNt o => x o .max true
  | .oandNt o => x o .and true
  | .oorNt o => x o .or true
  | .oxorNt o => x o .xor true
  | .oswpNt o => x o .swp true
  | .ocasNt o => x o .cas true
  | .ofaddNt o => x o .fadd true
  | .ofminNt o => x o .fmin true
  | .ofmaxNt o => x o .fmax true
  | .offmaNt o => x o .ffma true
  | .oredNt o => some { o := o, op := .red, nt := true }
  | .ocmt o =>
    let word := (s.read o.dst.next).toNat
    some { o := o, op := .commit (BitVec.ofNat 16 (field word 31 16)) (field word 41 40), nt := false, old := s.read o.dst }
  | _ => none

def Claim.Offered.commit (x : Claim.Offered) : Bool :=
  match x.op with
  | .commit _ _ => true
  | _ => false

def Claim.Offered.wide (x : Claim.Offered) : Bool :=
  match x.o.dst with
  | .v _ => true
  | _ => false

/-- The width of the location in bytes: a line for a v register, else the type's. -/
def Claim.Offered.size (x : Claim.Offered) : Nat := if x.wide then 64 else (x.o.ty.getD .n64).width / 8

/-- What the long op of an offer carries. -/
def Claim.Offered.carried (s : State) (x : Claim.Offered) (owner : Option Nat) (pa : Nat) (od nc : Bool) : Offer :=
  let ty := x.o.ty.getD .n64
  { op := x.op, scope := x.o.scope, ty := x.o.ty, va := s.eaE x.o, pa := pa, owner := owner, b := s.offerOperand ty x.o.b,
    c := if x.commit then 0 else s.offerOperand ty x.o.c, old := x.old, nt := x.nt, pE := x.o.pE.val, pD := x.o.pD.val, od := od,
    nc := nc }

/-- A reply that is known at issue comes as a long op whose values are the reply's. -/
def Claim.RepliesNow (i : Instr) (s u : State) (o : OpE) (r : Reply) : Prop :=
  u.t.outcnt < 64 → Claim.Gives i s fun t =>
    Issues u t (replyRegs o) (Claim.op u (replyRegs o) r.values (.ready (if r.kind = 0 then r.fl else 0)))

end Sys2Proof.Machine

/-- Offers and commits issue after the checks of spec/09_memory_offers.md R173: 0x0A for an address that is no multiple of the
location's size, 0x0C for a versioned task. In the core's own local store the offer is made at issue, unless an acquire or an earlier access holds
it (spec/12_ordering_notes.md R215); in another core's it travels, after its partition and its presence are checked (0x2D, 0x2E); elsewhere its page is translated, a fault traps, or
comes in the reply of the `nt` forms, a page that is not resident is declined NOTRES, and where the walk meets a held line the
task waits with its slot held (R180). The reply's four registers are
pending. -/
def Sys2Proof.Machine.Claim.OffersIssue : Prop :=
  ∀ (s : State) (i : Instr) (x : Claim.Offered), Claim.offerOf s i = some x → s.Runs i →
    let o := x.o
    let ty := o.ty.getD .n64
    let va := s.eaE o
    let core := s.t.sched.core
    let ds := replyRegs o
    let sent (u : State) (offer : Offer) : Prop := u.t.outcnt < 64 → Claim.Gives i s fun t =>
      Issues u t ds (Claim.op u ds [] (.offer offer))
    (va.toNat % x.size ≠ 0 → Claim.Gives i s fun t => Traps s t 0x0A s.t.pc { g4 := va }) ∧
    (va.toNat % x.size = 0 → x.commit = true → s.t.versioned = true →
      Claim.Gives i s fun t => Traps s t 0x0C s.t.pc { g4 := va }) ∧
    (va.toNat % x.size = 0 → (x.commit = false ∨ s.t.versioned = false) → s.t.outcnt < 64 →
      match windowFor core va with
      | .ls off =>
        (s.t.lsHeld s.ops off x.size true = true → (s.t.versioned = true → Claim.Gives i s fun t => Claim.HoldsSlot s t) ∧
          (s.t.versioned = false → sent s (x.carried s (some core) off false false))) ∧
        (s.t.versioned = false → s.t.lsHeld s.ops off x.size true = false →
        let r := bankOffer (x.carried s none 0 false false) ty x.wide (BitVec.ofNat 512 (s.lsRead core off x.size))
        let u := match r.2 with
          | some y => s.lsWrite core off (Claim.bytes y 0 x.size)
          | none => s
        Claim.RepliesNow i s u o r.1)
      | .dls owner off => match s.ownerFault core owner with
        | some c => Claim.Gives i s fun t => Traps s t c s.t.pc { g4 := va }
        | none => sent s (x.carried s (some owner) off false false)
      | .mapped =>
        (s.t.versioned = true → Claim.Gives i s fun t => Traps s t 0x0C s.t.pc { g4 := va }) ∧
        (s.t.versioned = false →
          match s.reach s.t (s.t.asks .offer (o.scope == .system && (ty == .n32 || ty == .n64)) true) va x.size with
          | (.fault c, f) =>
            (x.nt = false → Claim.Gives i s fun t => Traps f t c f.t.pc { g4 := va }) ∧
            (x.nt = true → Claim.RepliesNow i s f o { kind := 2, cause := c })
          | (.storage a p, f) =>
            Claim.RepliesNow i s (f.requestService (f.corePart core) a p .offer) o { kind := 1, reason := 5 }
          | (.wait, f) => Claim.Gives i s fun t => Claim.HoldsSlot f t
          | (.ok pa p, f) => sent f (x.carried s none pa (Pte.od p) (Pte.uncached p))))

/-- What an offer writes (spec/09_memory_offers.md R174): integer operations are made modulo 2^w, `min` and `max` by the type's
signedness, `cas` writes c where the old value is b; `fadd` rounds the exact sum and `ffma` the exact product and sum, once, RNE, with
no clamp and no scale, `fmin` and `fmax` follow spec/07_arithmetic.md R129; `ored` works on every lane; a commit writes its operand. The reply word's
fields lie where R176 puts them. -/
def Obligations.OfferValuesAreStated : Prop :=
  (∀ (t : Ty) (old b c : Nat), t.isInt = true → old < 2 ^ t.width → b < 2 ^ t.width → c < 2 ^ t.width →
    let x (a : BitVec t.width) : Nat × Flags := (a.toNat, 0)
    let p := BitVec.ofNat t.width old
    let q := BitVec.ofNat t.width b
    let less := if t.isI then p.slt q else p.ult q
    offerValue .add t old b c = x (p + q) ∧ offerValue .and t old b c = x (p &&& q) ∧
    offerValue .or t old b c = x (p ||| q) ∧ offerValue .xor t old b c = x (p ^^^ q) ∧
    offerValue .swp t old b c = x q ∧ offerValue .cas t old b c = (if p = q then c else old, 0) ∧
    offerValue .min t old b c = x (if less ∨ p = q then p else q) ∧ offerValue .max t old b c = x (if less then q else p)) ∧
  (∀ (t : Ty) (old b c : Nat), t.isInt = false → old < 2 ^ t.width → b < 2 ^ t.width → c < 2 ^ t.width →
    let rounded (p : Val × Flags) : Nat × Flags :=
      ((t.fp.form .rne .none 0 p.1).1, p.2 ||| (t.fp.form .rne .none 0 p.1).2)
    let p := t.fp.decode old
    let q := t.fp.decode b
    let chosen (isMax : Bool) : Nat × Flags :=
      (if p.isNan && q.isNan then t.fp.qnan else if p.isNan then b else if q.isNan then old
        else if (p.lt q || (p.eq q && p.sign && !q.sign)) != isMax then old else b,
       if p.isSnan || q.isSnan then fNV else 0)
    offerValue .fadd t old b c = rounded (p.add .rne q) ∧
    offerValue .ffma t old b c = rounded (Val.fma .rne q (t.fp.decode c) p) ∧
    offerValue .fmin t old b c = chosen false ∧ offerValue .fmax t old b c = chosen true) ∧
  (∀ (t : Ty) (old b : Line), ∀ j < lanes t.width,
    laneOf (redValue t old b).1 t.width j =
      (offerValue (if t.isInt then .add else .fadd) t (laneOf old t.width j) (laneOf b t.width j) 0).1 % 2 ^ t.width) ∧
  (∀ (t : Ty) (old b c : Line) (stamp : BitVec 16) (chain : Nat), (OfferOp.commit stamp chain).value t old b c = (b, 0)) ∧
  (∀ r : Reply, r.kind < 4 → r.reason < 64 → r.cause < 256 → r.stamp < 65536 → r.chain < 4 →
    let w := r.word.toNat
    field w 1 0 = r.kind ∧ field w 7 2 = r.reason ∧ field w 15 8 = r.cause ∧ field w 31 16 = r.stamp ∧
    field w 38 32 = r.fl.toNat ∧ field w 41 40 = r.chain)

/-- `oabn` (spec/09_memory_offers.md R181) removes the task's matching entry from its decline table and changes nothing else; in
local store it has no effect, and, which is the model's choice (log entry 48), none on a page that is not resident, and it asks for
read permission alone; in a versioned task it traps 0x0C. -/
def Sys2Proof.Machine.Claim.AbandonRemovesItsEntry : Prop :=
  ∀ (s : State) (o : OpE), s.Runs (.oabn o) →
    let va := s.eaE o
    let stamp := field (s.readW o.b.reg).toNat 31 16
    (s.t.versioned = true → Claim.Gives (.oabn o) s fun t => Traps s t 0x0C s.t.pc { g4 := va }) ∧
    (s.t.versioned = false →
      (windowOf va ≠ .mapped → Claim.Gives (.oabn o) s fun t => Claim.Only s t id) ∧
      (windowOf va = .mapped → match s.reach s.t (s.t.asks .load true false) va 1 with
        | (.fault c, f) => Claim.Gives (.oabn o) s fun t => Traps f t c f.t.pc { g4 := va }
        | (.storage _ _, f) => Claim.Gives (.oabn o) s fun t => Claim.Only f t id
        | (.wait, f) => Claim.Gives (.oabn o) s fun t => Claim.HoldsSlot f t
        | (.ok pa _, f) =>
          let entries (u : State) := (u.mem.decl.get {} (f.declKey pa)).entries
          let hit := (entries f).find? fun e => e.address == pa && e.stamp == stamp && e.tid == s.t.sys.tid && stamp != 0
          Claim.Gives (.oabn o) s fun t =>
            t = { f with t := { f.t with pc := nextPc f.t.pc, view := none }, mem := { f.mem with decl := t.mem.decl } } ∧
            entries t = (entries f).filter fun e => some e != hit))

/-- Offers, commits and `oabn` complete (spec/09_memory_offers.md R173 to R181). -/
def Obligations.OffersAndAbandonComplete : Prop :=
  Claim.OffersIssue ∧ Claim.AbandonRemovesItsEntry

/-! ### Guards and seals (spec/09_memory_offers.md R170 to R172) -/

namespace Sys2Proof.Machine

/-- The checks that `acq`, `acqs` and `rls` share, and what follows at the descriptor's home. A descriptor outside DRAM traps
0x64
(the model's choice for PCIe, Perold and control space, log entry 48). -/
def Claim.Guarded (i : Instr) (s : State) (o : OpM) (home : Nat → State → Prop) : Prop :=
  let va := s.ea o
  (s.t.versioned = true → Claim.Gives i s fun t => Traps s t 0x0C s.t.pc { g4 := va }) ∧
  (s.t.versioned = false →
    (windowOf va ≠ .mapped → Claim.Gives i s fun t => Traps s t 0x64 s.t.pc { g4 := va }) ∧
    (windowOf va = .mapped → va.toNat % 64 ≠ 0 → Claim.Gives i s fun t => Traps s t 0x0A s.t.pc { g4 := va }) ∧
    (windowOf va = .mapped → va.toNat % 64 = 0 → match s.reach s.t (s.t.asks .offer true true) va 8 with
      | (.fault c, f) => Claim.Gives i s fun t => Traps f t c f.t.pc { g4 := va }
      | (.storage _ _, f) => f.t.sched.storage = none → Claim.Gives i s fun t => Claim.Suspends f t
      | (.wait, f) => Claim.Gives i s fun t => Claim.HoldsSlot f t
      | (.ok pa _, f) =>
        (spaceOf pa ≠ .dram → Claim.Gives i s fun t => Traps f t 0x64 f.t.pc { g4 := va }) ∧
        (spaceOf pa = .dram → home pa f)))

/-- The lines of the guarded ranges that a release pushes to its scope. -/
def Claim.pushLine (core : Nat) (scope : Scope) (u : State) (l : Nat) : State :=
  let u' := if u.isPrivate core l then u.l1Clean core l else u
  if 3 ≤ Scope.rank scope then u'.rdcWriteThrough (dieOf core) l else u'

end Sys2Proof.Machine

/-- `acq` and `acqs` (spec/09_memory_offers.md R171) issue as long ops whose request joins its object's queue at the home. It is
refused at once where the task is already HOLDER, whatever the rest of the descriptor holds, or no more readers fit; while a lease
holds the line, the home has not met it (R180). In a message handler they trap 0x63. -/
def Sys2Proof.Machine.Claim.AcquiresQueueAtHome : Prop :=
  ∀ (s : State) (o : OpM) (shared : Bool),
    let i := if shared then Instr.acqs o else Instr.acq o
    s.Runs i →
    (s.t.isMessage = true → Claim.Gives i s fun t => Traps s t 0x63 s.t.pc {}) ∧
    (s.t.isMessage = false → s.t.outcnt < 64 → Claim.Guarded i s o fun pa f => f.t.outcnt < 64 → f.t.live = true →
      (∀ l ∈ f.t.long, l.op < f.ops) →
      let g := (f.guardRead (some f.t.sched.core) pa).1
      let held := f.heldLine pa = true ∨ ∃ r ∈ f.mem.guards.get [] pa, r.met = false
      let refused := !decide held && ((!shared && g.holder == f.t.sys.tid.setWidth 56) || (shared && g.rdrs == 32767))
      Claim.Gives i s fun t =>
        t.t.long = f.t.long ++ [Claim.op f [o.data] [(s.ea o).setWidth 512] (.guard shared o.scope pa none refused)] ∧
        t.mem.guards.get [] pa = f.mem.guards.get [] pa ++ (if refused then [] else
          [{ who := .task f.cur f.ops, holder := f.t.sys.tid.setWidth 56, shared := shared, scope := o.scope
             met := !decide held }]) ∧
        t = { f with t := { f.t with regs := t.t.regs, long := t.t.long, pc := nextPc f.t.pc, view := none }, ops := f.ops + 1,
                     mem := t.mem, free := t.free } ∧
        (∀ x, t.t.regs.read x = f.t.regs.read x) ∧ (∀ core off, t.localByte core off = f.localByte core off))

/-- `rls` (spec/09_memory_offers.md R171): the exclusive holder gives the guard up and PHASE rises; a reader lowers the number
of
readers; any other state traps 0x64. The writer's writes to the ranges are pushed to the scope first, and the task holds its
slot until they are there. -/
def Sys2Proof.Machine.Claim.ReleaseGivesUpTheGuard : Prop :=
  (∀ (g : Guard) (tid : BitVec 56),
    (g.w = true → g.holder = tid → g.release tid = some { g with w := false, holder := 0, phase := g.phase + 1 }) ∧
    (g.w = true → g.holder ≠ tid → g.release tid = none) ∧
    (g.w = false → 0 < g.rdrs → g.release tid = some { g with rdrs := g.rdrs - 1 }) ∧
    (g.w = false → g.rdrs = 0 → g.release tid = none)) ∧
  (∀ (s : State) (o : OpM), s.Runs (.rls o) → Claim.Guarded (.rls o) s o fun pa f =>
    (f.heldLine pa = true → Claim.Gives (.rls o) s fun t => Claim.HoldsSlot f t) ∧
    (f.heldLine pa = false →
      let u := (f.guardRead (some f.t.sched.core) pa).2
      let g := (f.guardRead (some f.t.sched.core) pa).1
      let ranges := guardRanges (u.homeRead pa).1
      let empty := ∀ r ∈ ranges, r.2 = 0
      match g.release (u.t.sys.tid.setWidth 56) with
      | none => Claim.Gives (.rls o) s fun t => Traps u t 0x64 u.t.pc { g4 := s.ea o }
      | some g' =>
        (¬empty → g.w = false → Claim.Gives (.rls o) s fun t => t = (u.guardWrite pa g').advance) ∧
        (empty → match u.fenceW o.scope with
          | (true, v) => Claim.Gives (.rls o) s fun t => t = (v.guardWrite pa g').advance
          | (false, v) => Claim.Gives (.rls o) s fun t => Claim.HoldsSlot v t) ∧
        (¬empty → g.w = true → u.rangesWait u.t (s.ea o) ranges = true → Claim.Gives (.rls o) s fun t => Claim.HoldsSlot u t) ∧
        (¬empty → g.w = true → u.rangesWait u.t (s.ea o) ranges = false → match (u.allRanges u.t (s.ea o) ranges (Claim.pushLine f.t.sched.core o.scope)).fenceW o.scope with
          | (true, v) => Claim.Gives (.rls o) s fun t => t = (v.guardWrite pa g').advance
          | (false, v) => Claim.Gives (.rls o) s fun t => Claim.HoldsSlot v t)))

/-- `acq`, `acqs` and `rls` (spec/09_memory_offers.md R171) complete. A descriptor in PCIe, Perold or control space traps
0x64, which is the model's choice (log entry 48). -/
def Obligations.GuardInstructionsComplete : Prop :=
  Claim.AcquiresQueueAtHome ∧ Claim.ReleaseGivesUpTheGuard

/-- `seal` (spec/09_memory_offers.md R172): a versioned task traps 0x0C, a base or length off the page 0x0A; it waits for the
task's stores and, where it cleans, for its bank offers (R169); the first page that cannot be written traps. Then every page is sealed under the version, or shared where the
version is 0, and the task waits while a peer's notice is unanswered. -/
def Obligations.SealSealsItsPages : Prop :=
  ∀ (s : State) (o : OpE), s.Runs (.sealR o) →
    let base := s.readW o.a
    let n := (s.readW o.b.reg).toNat
    let v : BitVec 32 := (s.readW o.c.reg).setWidth 32
    (s.t.versioned = true → Claim.Gives (.sealR o) s fun t => Traps s t 0x0C s.t.pc {}) ∧
    (s.t.versioned = false → (base.toNat % 4096 ≠ 0 ∨ n % 4096 ≠ 0) →
      Claim.Gives (.sealR o) s fun t => Traps s t 0x0A s.t.pc { g4 := base }) ∧
    (s.t.versioned = false → base.toNat % 4096 = 0 → n % 4096 = 0 →
      (s.t.stores ≠ [] ∨ (v ≠ 0 ∧ s.t.bankOut = true) → Claim.Gives (.sealR o) s fun t => Claim.HoldsSlot s t) ∧
      (s.t.stores = [] → (v = 0 ∨ s.t.bankOut = false) → match s.sealPages (n / 4096) base with
        | (.fault c va, f) => Claim.Gives (.sealR o) s fun t => Traps f t c f.t.pc { g4 := va }
        | (.storage _ _ _, f) => f.t.sched.storage = none → Claim.Gives (.sealR o) s fun t => Claim.Suspends f t
        | (.wait, f) => Claim.Gives (.sealR o) s fun t => Claim.HoldsSlot f t
        | (.pages ps, f) =>
          ((∃ p ∈ ps, ∃ j < 64, f.heldLine (p * 4096 + 64 * j) = true) →
            Claim.Gives (.sealR o) s fun t => Claim.HoldsSlot f t) ∧
          ((∀ p ∈ ps, ∀ j < 64, f.heldLine (p * 4096 + 64 * j) = false) →
            Claim.Gives (.sealR o) s fun t =>
              (∀ p, t.mem.page.get .unowned p =
                if p ∈ ps then (if v = 0 then .shared else .sealed v) else f.mem.page.get .unowned p) ∧
              t.t.regs = f.t.regs ∧ t.t.sys = f.t.sys ∧ t.tasks = f.tasks ∧
              (∀ core off, t.localByte core off = f.localByte core off) ∧
              t.t.pc = (if ∃ e ∈ t.dev.notices, e.1 ∈ ps then f.t.pc else nextPc f.t.pc))))

/-! ### Barriers, messages, delegation (spec/11_ordering_sync.md R188, R204 to R212) -/

namespace Sys2Proof.Machine

/-- An instruction that releases at a scope (spec/11_ordering_sync.md R188): the die's dirty lines are written through from
device scope on, and the task holds its slot until its writes are there; then `next` holds of the state. -/
def Claim.Releases (i : Instr) (s : State) (scope : Scope) (next : State → Prop) : Prop :=
  let u := Claim.pushed s scope
  (u.writesOut s.cur scope s.ops = true → Claim.Gives i s fun t => Claim.HoldsSlot u t) ∧
  (u.writesOut s.cur scope s.ops = false → next u)

/-- A group once a core has arrived for a task of a team: its count rises by one, the team is one of those that have arrived,
and
phases complete while every member core has an arrival (R204). -/
def Claim.arrived (l : Launch) (x : Group) (core : Nat) (team : Option Nat) : Group :=
  let teams := match team with
    | some n => if n ∈ x.arrived then x.arrived else x.arrived ++ [n]
    | none => x.arrived
  let y := { x with a := x.a.set 0 core (x.a.get 0 core + 1), arrived := teams }
  match l.memberCores x with
  | some cores => y.passAll cores 257
  | none => y

end Sys2Proof.Machine

/-- Barriers and group queries (spec/11_ordering_sync.md R204 to R206). `barv` traps 0x0C in a versioned task, 0x65 without the
group and 0x60 outside it; it releases, issues as a long op, and, unless its core holds 256 arrivals, arrives in the phase C + A,
whose token is its value (that it arrives when it issues is read from the spec by inference, log entry 30). `bwait` parks until its token has passed, that is until C is past the phase, and then acquires;
`btest` asks for the same, `grpq` for a value of the group. Tokens with bits above 23 trap 0x61. -/
def Obligations.BarrierInstructionsComplete : Prop :=
  (∀ (s : State) (o : OpE), s.Runs (.barv o) →
    let g := o.imm.toNat % 256
    let core := s.t.sched.core
    (s.t.versioned = true → Claim.Gives (.barv o) s fun t => Traps s t 0x0C s.t.pc {}) ∧
    (s.t.versioned = false → s.group? s.t.launch g = none → Claim.Gives (.barv o) s fun t => Traps s t 0x65 s.t.pc {}) ∧
    (s.t.versioned = false → s.group? s.t.launch g ≠ none → inGrps s.t.sys.grps g = false →
      Claim.Gives (.barv o) s fun t => Traps s t 0x60 s.t.pc {}) ∧
    (∀ l x, s.t.versioned = false → s.launch? s.t.launch = some l → l.groups[g]? = some x → inGrps s.t.sys.grps g = true →
      s.t.outcnt < 64 → s.t.live = true → (∀ y ∈ s.t.long, y.op < s.ops) → Claim.Releases (.barv o) s o.scope fun u =>
        (256 ≤ x.a.get 0 core → Claim.Gives (.barv o) s fun t => Issues u t [o.dst] (Claim.op u [o.dst] [] (.barv g none))) ∧
        (x.a.get 0 core < 256 →
          let phase := (x.c.toNat + x.a.get 0 core) % 65536
          Claim.Gives (.barv o) s fun t =>
            t.t.long = u.t.long ++ [Claim.op u [o.dst] [(token g phase).setWidth 512] (.barv g (some phase))] ∧
            t.group? s.t.launch g = some (Claim.arrived l x core (if s.t.kind = .launched then some s.t.team else none)) ∧
            (∀ r, t.t.regs.read r = s.t.regs.read r) ∧ t.t.sys = s.t.sys ∧ t.t.pc = nextPc s.t.pc ∧ t.mem = u.mem))) ∧
  (∀ (s : State) (o : OpE),
    let tok := s.readW o.a
    let g := s.group? s.t.launch (field tok.toNat 23 16)
    let passed := ∃ x, g = some x ∧ (x.c.toNat + 65536 - tok.toNat % 65536 - 1) % 65536 < 32768
    (∀ wait : Bool, let i := if wait then Instr.bwait o else Instr.btest o
      s.Runs i → (wait = true → s.t.isMessage = false) →
      (2 ^ 24 ≤ tok.toNat → Claim.Gives i s fun t => Traps s t 0x61 s.t.pc {}) ∧
      (tok.toNat < 2 ^ 24 → g = none → Claim.Gives i s fun t => Traps s t 0x65 s.t.pc {})) ∧
    (s.Runs (.bwait o) → s.t.isMessage = true → Claim.Gives (.bwait o) s fun t => Traps s t 0x63 s.t.pc {}) ∧
    (s.Runs (.bwait o) → s.t.isMessage = false → tok.toNat < 2 ^ 24 → g ≠ none →
      (¬passed → Claim.Gives (.bwait o) s fun t => Parks s t (.token tok)) ∧
      (passed → s.t.loadsOut = true → Claim.Gives (.bwait o) s fun t => Claim.HoldsSlot s t) ∧
      (passed → s.t.loadsOut = false → Claim.Gives (.bwait o) s fun t =>
        Claim.Passes s t ∧ Claim.Invalidated s t o.scope)) ∧
    (s.Runs (.btest o) → tok.toNat < 2 ^ 24 → g ≠ none → s.t.outcnt < 64 →
      Claim.Gives (.btest o) s fun t => Issues s t [.p o.pE] (Claim.op s [.p o.pE] [] (.btest tok)))) ∧
  (∀ (s : State) (o : OpE), s.Runs (.grpq o) →
    let x := o.imm.toNat
    (s.group? s.t.launch (x % 256) = none → Claim.Gives (.grpq o) s fun t => Traps s t 0x65 s.t.pc {}) ∧
    (s.group? s.t.launch (x % 256) ≠ none → s.t.outcnt < 64 → Claim.Gives (.grpq o) s fun t =>
      Issues s t [o.dst] (Claim.op s [o.dst] [] (.grpq (field x 7 0) (field x 10 8) (field x 18 11)))))

namespace Sys2Proof.Machine

/-- The firing makes an item in an output FIFO, in the room that it reserved (R208): `next` holds of the state with the item,
which
latches its event at the core's tasks (spec/13_traps.md R241), and without room the task traps 0x67. -/
def Claim.Makes (i : Instr) (u : State) (a f : Nat) (scope : Scope) (d : Line) (s : State) (next : State → Prop) : Prop :=
  match (u.actor? u.t.launch a).bind fun y => y.outs[f]? with
  | none => Claim.Gives i s fun t => Traps u t 0x67 u.t.pc {}
  | some q =>
    (q.rate ≤ q.made.length → Claim.Gives i s fun t => Traps u t 0x67 u.t.pc {}) ∧
    (q.made.length < q.rate →
      let item : Item := { data := d, scope := scope, sender := u.t.sys.tid, order := u.ops }
      next ((({ u with ops := u.ops + 1 }.onActor u.t.launch a fun y => y.onOut f fun q => { q with made := q.made ++ [item] }).putItem u.t.sched.core q
        q.made.length d).latchCore u.t.sched.core 2))

end Sys2Proof.Machine

/-- `send` and `sendt` (spec/11_ordering_sync.md R207, R208): 0x0C in a versioned task, 0x63 for `send` in a message handler,
0x67
for a bad handle. They release at their scope; to an output FIFO the item is made in the reserved room; to an input FIFO `send`
delivers it, parks while the FIFO is full and traps 0x62 without the actor, and `sendt` issues as a long op. A `send` that delivered to
an actor whose exit could still come first in that cycle (spec/01_machine.md R34) holds its slot, and then goes on or traps 0x62.
That a `send` releases and delivers when it issues is read from the spec by inference (log entry 30). -/
def Obligations.SendsComplete : Prop :=
  ∀ (s : State) (o : OpE),
    let h := s.readW o.a
    let d := s.read o.b.reg
    let ds := [o.dst, .p o.pE]
    (s.Runs (.send o) →
      (s.t.versioned = true → Claim.Gives (.send o) s fun t => Traps s t 0x0C s.t.pc {}) ∧
      (s.t.versioned = false → s.t.isMessage = true → Claim.Gives (.send o) s fun t => Traps s t 0x63 s.t.pc {}) ∧
      (s.t.versioned = false → s.t.isMessage = false → match s.handle h with
        | none => Claim.Gives (.send o) s fun t => Traps s t 0x67 s.t.pc {}
        | some (.out a f) => Claim.Releases (.send o) s o.scope fun u =>
          Claim.Makes (.send o) u a f o.scope d s fun v => Claim.Gives (.send o) s fun t => t = v.advance
        | some (.inp a f) =>
          (∀ op, s.t.sched.sent = some op →
            let told : State := { s with t := { s.t with sched := { s.t.sched with sent := none, sentLost := false } } }
            (s.t.sched.sentLost = true → Claim.Gives (.send o) s fun t => Traps told t 0x62 s.t.pc {}) ∧
            (s.t.sched.sentLost = false → s.exposed s.t.launch s.cur op = true →
              Claim.Gives (.send o) s fun t => Claim.HoldsSlot s t) ∧
            (s.t.sched.sentLost = false → s.exposed s.t.launch s.cur op = false →
              Claim.Gives (.send o) s fun t => t = told.advance)) ∧
          (s.t.sched.sent = none → s.t.sending h s.ops = true → Claim.Gives (.send o) s fun t => Claim.HoldsSlot s t) ∧
          (s.t.sched.sent = none → s.t.sending h s.ops = false → Claim.Releases (.send o) s o.scope fun u =>
            match u.deliver s.t.launch a f
              { data := d, scope := o.scope, sender := s.t.sys.tid, sent := some (s.cur, u.ops) } with
            | (.ok, v) =>
              let told : State := { v with ops := v.ops + 1, t := { v.t with sched := { v.t.sched with sent := some u.ops } } }
              (v.exposed s.t.launch s.cur u.ops = true → Claim.Gives (.send o) s fun t => Claim.HoldsSlot told t) ∧
              (v.exposed s.t.launch s.cur u.ops = false → Claim.Gives (.send o) s fun t => t = v.advance)
            | (.full, v) => Claim.Gives (.send o) s fun t => Parks v t (.room s.t.launch a f)
            | (.noactor, v) => Claim.Gives (.send o) s fun t => Traps v t 0x62 v.t.pc {}))) ∧
    (s.Runs (.sendt o) →
      (s.t.versioned = true → Claim.Gives (.sendt o) s fun t => Traps s t 0x0C s.t.pc {}) ∧
      (s.t.versioned = false → s.t.outcnt < 64 → match s.handle h with
        | none => Claim.Gives (.sendt o) s fun t => Traps s t 0x67 s.t.pc {}
        | some (.out a f) => Claim.Releases (.sendt o) s o.scope fun u =>
          Claim.Makes (.sendt o) u a f o.scope d s fun v => v.t.outcnt < 64 → Claim.Gives (.sendt o) s fun t =>
            Issues v t ds (Claim.op v ds [0, 1] (.ready 0))
        | some (.inp _ _) => Claim.Releases (.sendt o) s o.scope fun u => Claim.Gives (.sendt o) s fun t =>
            Issues u t ds (Claim.op u ds [] (.sendt h d o.scope))))

/-- `recv` and `recvt` (spec/11_ordering_sync.md R209) in a firing: an index at or above the FIFO's capacity, or no such FIFO,
traps
0x67; an item that is there is read by a long op; for one that is not, `recv` parks and `recvt` gives zero and a false
predicate. -/
def Obligations.ReceivesComplete : Prop :=
  ∀ (s : State) (o : OpE) (wait : Bool),
    let i := if wait then Instr.recv o else Instr.recvt o
    let ds := if wait then [o.dst] else [o.dst, .p o.pE]
    let f := o.imm.toNat % 8
    let k := (s.readW o.b.reg).toNat
    let fifo := match s.t.kind with
      | .firing a => (s.actor? s.t.launch a).bind fun y => y.ins[f]?
      | _ => none
    s.Runs i →
    (wait = true → s.t.isMessage = true → Claim.Gives i s fun t => Traps s t 0x63 s.t.pc {}) ∧
    ((wait = true → s.t.isMessage = false) → match fifo with
      | none => Claim.Gives i s fun t => Traps s t 0x67 s.t.pc {}
      | some q =>
        (q.cap ≤ k → Claim.Gives i s fun t => Traps s t 0x67 s.t.pc {}) ∧
        (k < q.cap → k < q.items.length → s.t.outcnt < 64 →
          Claim.Gives i s fun t => Issues s t ds (Claim.op s ds [] (.recv f k))) ∧
        (k < q.cap → q.items.length ≤ k →
          (wait = true → Claim.Gives i s fun t => Parks s t (.item f k)) ∧
          (wait = false → s.t.outcnt < 64 →
            Claim.Gives i s fun t => Issues s t ds (Claim.op s ds [0, 0] (.ready 0)))))

namespace Sys2Proof.Machine

/-- Nothing keeps the task from ending (spec/05_scalar.md R107 steps 1 to 3): no long op, no store, no copy or fault is
outstanding, no command is held, and its tile's commands are done. -/
structure Claim.Clean (s : State) (matrix : Bool) : Prop where
  long : s.t.long = []
  errors : matrix = true → s.t.mfault = none ∧ s.ownTerr s.cur s.t.sched.core = none
  stores : s.t.sched.storeFail = none ∧ s.t.stores = [] ∧ s.t.lost = false ∧ s.faultsOf s.t = []
  held : s.t.held = []
  tags : ∀ e ∈ s.t.tagCount, e.2 = 0
  copies : s.t.faultIn (BitVec.allOnes 64) = none
  tile : ∀ c ∈ s.t.sched.doneQueue.getD (s.ownQueue s.cur s.t.sched.core),
    (∀ x ∈ s.myCore.munit.queue, x.op ≠ c) ∧ ∀ t, s.myCore.munit.tile = some t → ∀ r ∈ t.closing, r.op ≠ c

/-- The state of a task that has nothing left to wait for: open slots have resolved false, and the commands that it waited for
are
noted. -/
def Claim.ended (s : State) : State :=
  { s with t := { s.t with
      faulted := [], slots := s.t.slots.map fun e => (e.1, if e.2 = .opened then .no else e.2)
      sched := { s.t.sched with doneQueue := some (s.t.sched.doneQueue.getD (s.ownQueue s.cur s.t.sched.core)) } } }

/-- `deleg` and `delegt`: `twin` is the second. -/
def Claim.delegation (i : Instr) : Option (OpE × Bool) :=
  match i with
  | .deleg o => some (o, false)
  | .delegt o => some (o, true)
  | _ => none

end Sys2Proof.Machine

/-- Delegation (spec/11_ordering_sync.md R210, R211). `deleg` and `delegt` trap 0x0C in a versioned task, `deleg` 0x63 in a
message
handler, 0x66 for an address outside the DLS window, and 0x2D or 0x2E for its owner; they release, and issue as a long op whose
request joins the owner's queue of 32 or waits behind it; where it is full, or in the owner's own server, `delegt` is refused. One that follows an `amsg` to the same owner which is held back waits behind it
(spec/17_edge.md R297). That a request joins the queue when its instruction issues is read from the spec by inference (log entry 30).
`dret` in a server task ends the task, releases and answers the request with its value; elsewhere it traps 0x01. -/
def Obligations.DelegationCompletes : Prop :=
  (∀ (s : State) (i : Instr) (o : OpE) (twin : Bool), Claim.delegation i = some (o, twin) → s.Runs i →
    let va := s.readW o.a
    let ds := replyRegs o
    (s.t.versioned = true → Claim.Gives i s fun t => Traps s t 0x0C s.t.pc {}) ∧
    (s.t.versioned = false → twin = false → s.t.isMessage = true → Claim.Gives i s fun t => Traps s t 0x63 s.t.pc {}) ∧
    (s.t.versioned = false → (twin = true ∨ s.t.isMessage = false) → match windowOf va with
      | .dls owner _ => (match s.ownerFault s.t.sched.core owner with
        | some c => Claim.Gives i s fun t => Traps s t c s.t.pc { g4 := va }
        | none => s.t.outcnt < 64 → Claim.Releases i s o.scope fun u =>
          let full := 32 ≤ (u.core owner).requests.length
          let late := ∃ h ∈ s.t.held, h.sendsTo owner = true
          let op := Claim.op u ds [] (.deleg owner o.scope none)
          (late → Claim.Gives i s fun t =>
            ∃ v h, Issues u v ds op ∧ t = { v with t := { v.t with held := u.t.held ++ [h] } } ∧ h.ins = i ∧ h.op = s.ops ∧
              h.pc = s.t.pc ∧ h.fixed = some true ∧ h.x = va ∧ h.y = s.readW o.b.reg ∧
              ∀ k < o.imm.toNat % 8, ∀ w, (argRegs o.c.reg (o.imm.toNat % 8))[k]? = some w →
                BitVec.ofNat 64 (sliceLine h.line (8 * k) 8) = s.readW w) ∧
          (¬late → twin = true → (full ∨ s.t.serves owner = true) → Claim.Gives i s fun t =>
            Issues u t ds (Claim.op u ds [0, 1, 0, 1] (.ready 0))) ∧
          (¬late → twin = false ∨ (¬full ∧ s.t.serves owner = false) →
            let q : Request :=
              { task := s.cur, tid := s.t.sys.tid, core := s.t.sched.core, launch := s.t.launch, op := some s.ops, tag := none,
                address := va, routine := s.readW o.b.reg, args := (argRegs o.c.reg (o.imm.toNat % 8)).map s.readW,
                scope := o.scope }
            Claim.Gives i s fun t => ∃ v, Issues u v ds op ∧
              t = { v with cores := t.cores } ∧ (∀ n, n ≠ owner → t.core n = v.core n) ∧
              t.core owner = if full then { v.core owner with waiting := (v.core owner).waiting ++ [q] }
                else { v.core owner with requests := (v.core owner).requests ++ [q] }))
      | _ => Claim.Gives i s fun t => Traps s t 0x66 s.t.pc {})) ∧
  (∀ (s : State) (o : OpE), s.Runs (.dret o) →
    (s.t.kind ≠ .delegated → Claim.Gives (.dret o) s fun t => Traps s t 0x01 s.t.pc {}) ∧
    (∀ r, s.t.kind = .delegated → s.t.request = some r → Claim.Clean s false →
      Claim.Releases (.dret o) (Claim.ended s) r.scope fun u =>
        exec (.dret o) s = .next ((u.answer r (s.readW o.b.reg) 0 0 true).retireTask s.cur none)))

/-- The repetition sequencer (spec/07_arithmetic.md R142): while a sequence runs `rpt` waits, a count above 65536 or an
instruction
that no sequence may hold traps 0x0B (in which order is the model's choice, log entry 43), a captured instruction's own fault traps at it; otherwise the k instructions are captured,
the stream goes on past them, and with a count above zero the sequence runs from its first iteration. -/
def Obligations.RptStartsItsSequence : Prop :=
  ∀ (s : State) (o : OpE), s.Runs (.rpt o) →
    let n := (s.readW o.a).toNat
    let x := o.imm.toNat
    let k := x % 64
    let base := nextPc s.t.pc
    (s.t.seq.act = true → Claim.Gives (.rpt o) s fun t => Claim.HoldsSlot s t) ∧
    (s.t.seq.act = false → 65536 < n → Claim.Gives (.rpt o) s fun t => Traps s t 0x0B s.t.pc {}) ∧
    (s.t.seq.act = false → n ≤ 65536 → match s.capture k base with
      | (.trap c pc va, f) => Claim.Gives (.rpt o) s fun t => Traps f t c pc { g4 := va }
      | (.invalid, f) => Claim.Gives (.rpt o) s fun t => Traps f t 0x0B f.t.pc {}
      | (.storage _ _ _, f) => f.t.sched.storage = none → Claim.Gives (.rpt o) s fun t => Claim.Suspends f t
      | (.wait, f) => Claim.Gives (.rpt o) s fun t => Claim.HoldsSlot f t
      | (.ok is, f) => Claim.Gives (.rpt o) s fun t =>
        is.length = k ∧ (∀ e ∈ is, Instr.sequenced e.2 = true) ∧
        t = { f with t := { f.t with pc := pcAfter k base, view := none, seq := t.t.seq } } ∧
        t.t.seq = (if n = 0 then f.t.seq else
          { base := base, act := true, sv := field x 10 6, sm := field x 13 11, st := field x 19 14, k := k, n := n, ins := is,
            attach := f.t.attach, since := f.ops }))

/-! ### Edge programs, deques, active messages and index jobs (spec/17_edge.md R282 to R301) -/

namespace Sys2Proof.Machine

/-- Only the queues of one core change, beside the registers of an effect on the state with those queues. -/
def Claim.onCoreOnly (s : State) (core : Nat) (c : Core) : State := s.onCore core fun _ => c

/-- The state once a long op has been issued without a reply yet. -/
def Claim.issued (s : State) (l : LongOp) : State :=
  { s with t := { s.t with regs := s.t.regs.mark l.dsts, long := s.t.long ++ [l], pc := nextPc s.t.pc, view := none }
           ops := s.ops + 1 }

/-- The command of an `ecmd` with its block: it leaves at once, one for a matrix unit into the outbound queue of its core, or
waits
under its slot or behind other commands, or is discarded; the reply is pending. -/
def Claim.EcmdSent (o : OpE) (s f : State) (u va : Word) (off : Nat) (b : Line) (c : Option MCmd) : Prop :=
  let ds := [o.dst, .p o.pE]
  let l := Claim.op f ds [] (.ecmd u off b c false)
  let h := Claim.slotted s { slot := 16, pc := s.t.pc, ins := .ecmd o, op := s.ops, x := u, y := va, z := 0, line := b }
  f.t.outcnt < 64 → (∀ y ∈ s.t.long, y.op < s.ops) → (∀ y ∈ s.t.held, y.op < s.ops) →
    Claim.Commanded (.ecmd o) s (Claim.issued f { l with slot := some h.slot }) h fun t => t = match c with
      | some m => (Claim.issued f l).pushCmd m
      | none => Claim.issued f l

end Sys2Proof.Machine

/-- `ecmd` (spec/17_edge.md R282, R283): 0x0C in a versioned task, 0x02 for a malformed unit word, 0x56 for a class, unit or
partition that does not take it or a block outside the core's local store, 0x0A for a block off its alignment. A block for a
matrix unit that the unit refuses answers REFUSED at once (which blocks it refuses besides those that name another instruction is
the model's choice, log entry 46; that the block is captured when `ecmd` issues is read from the spec by inference, log entry 32), and a full outbound queue makes the task hold its slot; one for a Vetch engine is sent after a
release at device scope. -/
def Sys2Proof.Machine.Claim.EcmdSendsItsBlock : Prop :=
  ∀ (s : State) (o : OpE), s.Runs (.ecmd o) →
    let u := s.readW o.a
    let va := s.readW o.b.reg
    let core := s.t.sched.core
    let cls := field u.toNat 15 14
    let unit := field u.toNat 11 0
    let known := cls % 2 = 0 ∧ (cls = 0 → unit < 256) ∧
      (if cls = 0 then s.clusterPart unit (s.corePart core) = true else s.corePart unit = s.corePart core)
    let traps (c : Nat) (r : TrapRec) : Prop := Claim.Gives (.ecmd o) s fun t => Traps s t c s.t.pc r
    (s.t.versioned = true → traps 0x0C {}) ∧
    (s.t.versioned = false → (2 ^ 16 ≤ u.toNat ∨ field u.toNat 13 12 ≠ 0) → traps 0x02 {}) ∧
    (s.t.versioned = false → u.toNat < 2 ^ 16 → field u.toNat 13 12 = 0 →
      (¬known → traps 0x56 {}) ∧
      (known → match windowFor core va with
        | .ls off =>
          let b : Line := BitVec.ofNat 512 (s.lsLoad s.t off 64)
          (off % 64 ≠ 0 → traps 0x0A { g4 := va }) ∧
          (off % 64 = 0 → s.t.outcnt < 64 → s.t.lsOwed s.ops off 64 = true → Claim.Gives (.ecmd o) s fun t => Claim.HoldsSlot s t) ∧
          (off % 64 = 0 → s.t.outcnt < 64 → s.t.lsOwed s.ops off 64 = false →
            (cls = 2 → ∀ c, blockRefused b = some c → Claim.Gives (.ecmd o) s fun t => Issues s t [o.dst, .p o.pE]
              (Claim.op s [o.dst, .p o.pE] [BitVec.ofNat 512 (c * 256 + 2), 0] (.ready 0))) ∧
            (cls = 2 → blockRefused b = none → ∀ c, (∀ k, s.blockCheck b s.ops k = k c s) →
              (16 ≤ s.myCore.outq.length → Claim.Gives (.ecmd o) s fun t => Claim.HoldsSlot s t) ∧
              (s.myCore.outq.length < 16 → Claim.EcmdSent o s s u va off b (some c))) ∧
            (cls = 0 → Claim.Releases (.ecmd o) s .device fun f => Claim.EcmdSent o s f u va off b none))
        | _ => traps 0x56 {}))

namespace Sys2Proof.Machine

/-- An access of n bytes for `eact` on a descriptor, from a state that the instruction has come to: its traps and waits, else
`next` of
its address and of the state in which its core's copies of the line have gone home. -/
def Claim.EactAt (gives : (State → Prop) → Prop) (f : State) (write : Bool) (va : Word) (n : Nat) (next : Nat → State → Prop) : Prop :=
  (windowOf va ≠ .mapped → gives fun t => Traps f t 0x14 f.t.pc { g4 := va }) ∧
  (windowOf va = .mapped → match f.reach f.t (f.t.asks (if write then .offer else .load) false write) va n with
    | (.fault c, u) => gives fun t => Traps u t c u.t.pc { g4 := va }
    | (.storage _ _, u) => u.t.sched.storage = none → gives fun t => Claim.Suspends u t
    | (.wait, u) => gives fun t => Claim.HoldsSlot u t
    | (.ok pa _, u) =>
      (spaceOf pa ≠ .dram → gives fun t => Traps u t 0x1F u.t.pc { g4 := va }) ∧
      (spaceOf pa = .dram → u.mayPerform u.t u.ops va.toNat n (some pa) .both = false → gives fun t => Claim.HoldsSlot u t) ∧
      (spaceOf pa = .dram → u.mayPerform u.t u.ops va.toNat n (some pa) .both = true →
        next pa (u.atHome u.t.sched.core pa)))

/-- A word that `eact` reads at its home. -/
def Claim.EactRead (gives : (State → Prop) → Prop) (f : State) (va : Word) (n : Nat) (next : Nat → State → Prop) : Prop :=
  Claim.EactAt gives f false va n fun pa u => next (sliceLine (u.homeRead pa).1 (pa % 64) n) (u.homeRead pa).2

/-- `eact` of vertex x on a descriptor (spec/17_edge.md R289): at or above NV, or finished where FIN's address is zero, it
changes
nothing; else it sets bit x of FIN or of FRONT[CUR], and where that bit of FRONT[CUR] was clear adds the vertex's out-degree to F, and
changes no other byte, said where the home slices need give up no line. -/
def Claim.EactOnGraph (gives : (State → Prop) → Prop) (s : State) (graph : Word) (x : Nat) (fin : Bool) : Prop :=
  let only (f t : State) : Prop :=
    t = { f with t := { f.t with pc := nextPc f.t.pc, view := none }, mem := t.mem, free := t.free }
  Claim.EactRead gives s graph 4 fun nv f =>
    (nv ≤ x → gives fun t => Claim.Only f t id) ∧
    (x < nv → Claim.EactRead gives f (graph + 112) 8 fun w f =>
      Claim.EactRead gives f (graph + if fin then 88 else if w / 32 % 2 = 1 then 80 else 72) 8 fun base f =>
        (fin = true → base = 0 → gives fun t => Claim.Only f t id) ∧
        (fin = false ∨ base ≠ 0 → Claim.EactAt gives f true (BitVec.ofNat 64 (base + x / 8)) 1 fun pa f =>
          let old := f.byteAt pa
          let u := (f.homeRead pa).2
          let marked : Nat := old ||| 2 ^ (x % 8)
          (fin = true ∨ old.testBit (x % 8) = true → gives fun t => only u t ∧
            (u.mem.l2.length + 16 ≤ l2Room → ∀ a, t.byteAt a = if a = pa then marked else u.byteAt a)) ∧
          (fin = false → old.testBit (x % 8) = false → Claim.EactRead gives u (graph + 8) 8 fun outoff f =>
            Claim.EactRead gives f (BitVec.ofNat 64 (outoff + 8 * x)) 8 fun lo f =>
              Claim.EactRead gives f (BitVec.ofNat 64 (outoff + 8 * x + 8)) 8 fun hi f =>
                Claim.EactAt gives f true (graph + 120) 8 fun pf f =>
                  let mass := (sliceLine (f.homeRead pf).1 (pf % 64) 8 + 2 ^ 64 + hi - lo) % 2 ^ 64
                  gives fun t => only f t ∧ (f.mem.l2.length + 16 ≤ l2Room → pf % 64 + 8 ≤ 64 → ∀ a, t.byteAt a =
                    if a = pa then marked else if pf ≤ a ∧ a < pf + 8 then mass / 256 ^ (a - pf) % 256 else f.byteAt a))))

end Sys2Proof.Machine

/-- `ecomb` (spec/17_edge.md R288) in an activation ends the task: its contribution, or none where R is set, is noted with its
set;
0x5B outside an activation, 0x45 for another type than the graph's. `eact` (R289) on the running round marks a vertex; a vertex
at or above NV has no effect; outside an activation it traps 0x5B; on a descriptor it traps 0x0C in a versioned
task (read from the spec by inference, log entry 32) and 0x14 in local store, and else sets the vertex's bit and adds to F. -/
def Sys2Proof.Machine.Claim.ActivationInstructionsComplete : Prop :=
  ∀ (s : State) (o : OpE),
    let x := (s.readW o.a).toNat
    (s.Runs (.ecomb o) →
      (s.t.kind.isEdge = false → Claim.Gives (.ecomb o) s fun t => Traps s t 0x5B s.t.pc {}) ∧
      (∀ cl v, s.t.kind.isEdge = true → s.mySet = some (cl, v) → o.ty ≠ some (combType (descComb v.desc)) →
        Claim.Gives (.ecomb o) s fun t => Traps s t 0x45 s.t.pc {}) ∧
      (s.t.kind.isEdge = true → s.mySet = none → Claim.Clean s false →
        exec (.ecomb o) s = .next ((Claim.ended s).retireTask s.cur none)) ∧
      (∀ cl v, s.t.kind.isEdge = true → s.mySet = some (cl, v) → o.ty = some (combType (descComb v.desc)) →
        Claim.Clean s false →
        let c := if o.imm.getLsbD 0 then none else some (s.readW o.b.reg)
        let jobs := v.jobs.map fun j => if j.task = some s.cur then { j with contribution := c } else j
        exec (.ecomb o) s = .next (((Claim.ended s).setVetch cl { v with jobs := jobs }).retireTask s.cur none))) ∧
    (s.Runs (.eact o) → o.b.reg = .zero →
      (s.t.kind.isEdge = false → Claim.Gives (.eact o) s fun t => Traps s t 0x5B s.t.pc {}) ∧
      (s.t.kind.isEdge = true → s.mySet = none → Claim.Gives (.eact o) s fun t => Claim.Only s t id) ∧
      (∀ cl v, s.t.kind.isEdge = true → s.mySet = some (cl, v) →
        (descNV v.desc ≤ x → Claim.Gives (.eact o) s fun t => t.t.regs = s.t.regs ∧ t.t.pc = nextPc s.t.pc ∧ t.mem = s.mem) ∧
        (o.imm.getLsbD 0 = true → x < descNV v.desc → Claim.Gives (.eact o) s fun t =>
          t = { s with t := { s.t with pc := nextPc s.t.pc, view := none }, clusters := t.clusters } ∧
          ∃ w, t.vetch? cl = some w ∧ x ∈ w.finishes ∧ (∀ y ∈ v.finishes, y ∈ w.finishes) ∧
            w = { v with finishes := w.finishes }) ∧
        (o.imm.getLsbD 0 = false → x < descNV v.desc → match s.activate cl x with
          | (.ok _, f) => Claim.Gives (.eact o) s fun t => t = f.advance
          | (.fault c va, f) => Claim.Gives (.eact o) s fun t => t = (f.vetchFault cl c va).advance
          | (.wait, f) => Claim.Gives (.eact o) s fun t => Claim.HoldsSlot (s.retryLater f) t))) ∧
    (s.Runs (.eact o) → o.b.reg ≠ .zero →
      let graph := s.readW o.b.reg
      (s.t.versioned = true → Claim.Gives (.eact o) s fun t => Traps s t 0x0C s.t.pc { g4 := graph }) ∧
      (s.t.versioned = false → Claim.EactOnGraph (Claim.Gives (.eact o) s) s graph x (o.imm.getLsbD 0)))

/-- `ecmd`, `ecomb` and `eact` (spec/17_edge.md R282, R283, R288, R289) complete. -/
def Obligations.EdgeInstructionsComplete : Prop :=
  Claim.EcmdSendsItsBlock ∧ Claim.ActivationInstructionsComplete

/-- Deques (spec/17_edge.md R294 to R296). `dqpush` traps 0x59 for a range that ends before it begins, 0x58 where the deque is
full or
another launch's, for an empty range too (log entry 32); an empty range is not pushed. `dqpop` takes the newest range, `dqsplit` its lowest n; an empty deque gives
zeros and a false predicate. `dqsteal` issues as a long op and traps 0x02 for a core that does not exist; on the core's own deque it
takes effect at issue. -/
def Sys2Proof.Machine.Claim.DequeInstructionsComplete : Prop :=
  ∀ (s : State) (o : OpE),
    let core := s.t.sched.core
    let c := s.core core
    let a := s.readW o.b.reg
    let b := s.readW o.c.reg
    let q := c.dequeFor s.t.launch
    let gives (i : Instr) (u : State) (lo hi : Word) (p : Line) : Prop := Claim.Gives i s fun t =>
      Effect u t [(o.dst, lo.setWidth 512), (o.dst.second, hi.setWidth 512), (.p o.pE, p)] 0 (nextPc s.t.pc)
    (s.Runs (.dqpush o) →
      let other := c.deque ≠ [] ∧ c.dequeOwner ≠ some s.t.launch
      (b.toNat < a.toNat → Claim.Gives (.dqpush o) s fun t => Traps s t 0x59 s.t.pc {}) ∧
      (a.toNat ≤ b.toNat → (other ∨ (a ≠ b ∧ 64 ≤ c.deque.length)) →
        Claim.Gives (.dqpush o) s fun t => Traps s t 0x58 s.t.pc {}) ∧
      (a = b → ¬other → Claim.Gives (.dqpush o) s fun t => Claim.Only s t id) ∧
      (a.toNat < b.toNat → ¬other → c.deque.length < 64 → Claim.Gives (.dqpush o) s fun t =>
        Claim.Only (Claim.onCoreOnly s core { c with deque := c.deque ++ [(a, b)], dequeOwner := some s.t.launch }) t id)) ∧
    (s.Runs (.dqpop o) →
      (q = [] → gives (.dqpop o) s 0 0 0) ∧
      (∀ r xs, q = xs ++ [r] → gives (.dqpop o) (Claim.onCoreOnly s core { c with deque := xs }) r.1 r.2 1)) ∧
    (s.Runs (.dqsplit o) →
      (q = [] → gives (.dqsplit o) s 0 0 0) ∧
      (∀ lo hi xs, q = xs ++ [(lo, hi)] → lo.toNat ≤ hi.toNat →
        (a = 0 ∨ hi.toNat - lo.toNat ≤ a.toNat → gives (.dqsplit o) (Claim.onCoreOnly s core { c with deque := xs }) lo hi 1) ∧
        (a ≠ 0 → a.toNat < hi.toNat - lo.toNat →
          gives (.dqsplit o) (Claim.onCoreOnly s core { c with deque := xs ++ [(lo + a, hi)] }) lo (lo + a) 1))) ∧
    (s.Runs (.dqsteal o) →
      let v := (s.readW o.a).toNat
      let ds := [o.dst, o.dst.second, .p o.pE]
      (4096 ≤ v → Claim.Gives (.dqsteal o) s fun t => Traps s t 0x02 s.t.pc {}) ∧
      (v < 4096 → v ≠ core → s.t.outcnt < 64 →
        Claim.Gives (.dqsteal o) s fun t => Issues s t ds (Claim.op s ds [] (.dqsteal v))) ∧
      (v < 4096 → v = core → s.t.outcnt < 64 →
        let x := s.steal s.t.launch (s.corePart core) core
        Claim.Gives (.dqsteal o) s fun t => Issues x.2 t ds (Claim.op x.2 ds (rangeVals x.1) (.ready 0))))

/-- `amsg` (spec/17_edge.md R297) releases, makes its tag outstanding and sends a request to the owner of its address, whose
queue it
joins when it issues (read from the spec by inference, log entry 30); `gath` and
`scat` (R298, R299) give a job record in local store to the cluster's index engine, and its STATE says that it runs; a record
that is not aligned or malformed traps 0x5A; full queues make the task hold its slot. `ijob` (R301) issues as a long op. -/
def Sys2Proof.Machine.Claim.MessagesAndJobsAreSent : Prop :=
  (∀ (s : State) (o : OpE), s.Runs (.amsg o) →
    let va := s.readW o.a
    let core := s.t.sched.core
    let tag := o.imm.toNat % 64
    let args := (argRegs o.c.reg (o.imm.toNat / 64 % 4)).map s.readW
    (s.t.versioned = true → Claim.Gives (.amsg o) s fun t => Traps s t 0x0C s.t.pc {}) ∧
    (s.t.versioned = false → match windowOf va with
      | .dls owner _ => (match s.ownerFault core owner with
        | some c => Claim.Gives (.amsg o) s fun t => Traps s t c s.t.pc { g4 := va }
        | none =>
          let busy := 255 ≤ s.t.tagCount.get 0 tag ∨ 64 ≤ s.myCore.amsgs
          (busy → Claim.Gives (.amsg o) s fun t => Claim.HoldsSlot s t) ∧
          (¬busy → Claim.Releases (.amsg o) s o.scope fun f =>
            let u := Claim.tagged f tag
            let h := Claim.slotted s { slot := 16, pc := s.t.pc, ins := .amsg o, op := s.ops, x := va, y := s.readW o.b.reg, z := 0,
                                       line := BitVec.ofNat 512 (args.foldr (fun a x => a.toNat + 2 ^ 64 * x) 0) }
            Claim.Commanded (.amsg o) s u h fun t =>
              t = ((u.onCore core fun c => { c with amsgs := c.amsgs + 1 }).queueRequest owner
                { task := s.cur, tid := s.t.sys.tid, core := core, launch := s.t.launch, op := none, tag := some tag, address := va,
                  routine := s.readW o.b.reg, args := args, scope := o.scope }).advance))
      | _ => Claim.Gives (.amsg o) s fun t => Traps s t 0x66 s.t.pc {})) ∧
  (∀ (s : State) (o : OpE) (scatter : Bool),
    let i := if scatter then Instr.scat o else Instr.gath o
    let va := s.readW o.b.reg
    let core := s.t.sched.core
    let tag := o.imm.toNat % 64
    s.Runs i →
    (s.t.versioned = true → Claim.Gives i s fun t => Traps s t 0x0C s.t.pc {}) ∧
    (s.t.versioned = false → match windowFor core va with
      | .ls off =>
        let l : Line := BitVec.ofNat 512 (s.lsLoad s.t off 64)
        let r := JobRec.ofLine l
        let bad := off % 64 ≠ 0 ∨ r.bad l scatter = true
        let busy := 255 ≤ s.t.tagCount.get 0 tag ∨ 16 ≤ (s.cluster (clusterOf core)).jobs.length
        (s.t.lsOwed s.ops off 64 = true → Claim.Gives i s fun t => Claim.HoldsSlot s t) ∧
        (s.t.lsOwed s.ops off 64 = false → bad → Claim.Gives i s fun t => Traps s t 0x5A s.t.pc { g4 := va }) ∧
        (s.t.lsOwed s.ops off 64 = false → ¬bad → busy → Claim.Gives i s fun t => Claim.HoldsSlot s t) ∧
        (s.t.lsOwed s.ops off 64 = false → ¬bad → ¬busy →
          let u := Claim.tagged s tag
          let h := Claim.slotted s { slot := 16, pc := s.t.pc, ins := i, op := s.ops, x := 0, y := BitVec.ofNat 64 off, z := 0, line := l }
          Claim.Commanded i s u h fun t =>
            (t.cluster (clusterOf core)).jobs = (s.cluster (clusterOf core)).jobs ++
              [{ op := s.ops, task := s.cur, core := core, offset := off, scatter := scatter, tag := tag, root := s.rootOf s.t,
                 sys := s.t.isHandler, base := r.base, n := r.n, limit := r.limit, idx := r.idx, data := r.data, esz := r.esz,
                 opc := r.opc, ity := r.ity, cursor := if r.state = 3 then r.cursor else 0 }] ∧
            field (t.lsRead core (off + 24) 8) 49 48 = 1 ∧ t.t.regs = s.t.regs ∧ t.t.pc = nextPc s.t.pc ∧
            (∀ k, k < 2 ^ 19 → (k < off + 24 ∨ off + 32 ≤ k) → t.localByte core k = s.localByte core k) ∧
            (∀ pa, t.byteAt pa = s.byteAt pa))
      | _ => Claim.Gives i s fun t => Traps s t 0x5A s.t.pc { g4 := va })) ∧
  (∀ (s : State) (o : OpE), s.Runs (.ijob o) →
    let va := s.readW o.b.reg
    match windowFor s.t.sched.core va with
    | .ls off =>
      (off % 64 ≠ 0 → Claim.Gives (.ijob o) s fun t => Traps s t 0x5A s.t.pc { g4 := va }) ∧
      (off % 64 = 0 → s.t.outcnt < 64 → Claim.Gives (.ijob o) s fun t =>
        Issues s t [o.dst] (Claim.op s [o.dst] [] (.ijob off)))
    | _ => Claim.Gives (.ijob o) s fun t => Traps s t 0x5A s.t.pc { g4 := va })

/-- Deque instructions, `amsg` and index-job instructions (spec/17_edge.md R294 to R301) complete. -/
def Obligations.DequesMessagesAndJobsComplete : Prop :=
  Claim.DequeInstructionsComplete ∧ Claim.MessagesAndJobsAreSent

/-! ### Matrix instructions (spec/15_matrix.md R253 to R266) -/

namespace Sys2Proof.Machine

/-- The checks of a capability at issue (R253): a command that only its own core takes traps 0x54 elsewhere; on its own core a
capability that matches no entry with the right traps 0x53. -/
def Claim.CapChecked (i : Instr) (s : State) (cap : Word) (right : Nat) (own : Bool) (next : Prop) : Prop :=
  let mine := capCore cap = s.t.sched.core
  (own = true → ¬mine → Claim.Gives i s fun t => Traps s t 0x54 s.t.pc {}) ∧
  (mine → s.myCore.munit.entry? cap right = none → Claim.Gives i s fun t => Traps s t 0x53 s.t.pc {}) ∧
  ((own = true → mine) → (mine → s.myCore.munit.entry? cap right ≠ none) → next)

/-- A command for a unit leaves for the core's outbound queue of 16: a full queue makes the task hold its slot. -/
def Claim.Queued (i : Instr) (s : State) (r : Row) (o : OpE) (cap y z : Word) (line : Line) : Prop :=
  let core := s.t.sched.core
  let fn := match r.fn with
    | .one n => n
    | _ => 0
  (16 ≤ s.myCore.outq.length → Claim.Gives i s fun t => Claim.HoldsSlot s t) ∧
  (s.myCore.outq.length < 16 →
    let u : State := { s with ops := s.ops + 1 }
    let h := Claim.slotted s { slot := 16, pc := s.t.pc, ins := i, op := s.ops, x := cap, y := y, z := z, line := line }
    Claim.Commanded i s u h fun t => Claim.Only (Claim.onCoreOnly u core { s.myCore with outq := s.myCore.outq ++
      [mcmdOf r.maj fn ((o.ty.map Ty.code).getD 0) o.imm.toNat s.cur core s.ops s.t.pc cap y z line] }) t id)

/-- Commands that need a capability and nothing else: the right, and what the command carries. -/
def Claim.plainMatrix (s : State) (i : Instr) : Option (Row × OpE × Nat × Word × Word × Line) :=
  match i with
  | .mldb o => some (Rows.mldb, o, 48, s.readW o.b.reg, s.readW o.c.reg, 0)
  | .mnz o => some (Rows.mnz, o, 49, 0, s.readW o.c.reg, s.read o.b.reg)
  | .mclr o => some (Rows.mclr, o, 48, 0, 0, 0)
  | _ => none

end Sys2Proof.Machine

/-- Matrix commands (spec/15_matrix.md R253 to R266): `mldb`, `mnz`, `mclr`; `mfmt` with the checks of its descriptor (R255);
`mrow`
with those of its image (R259); `msave` and `mrest` (R266), which only their own core takes; `mcap` writes a capability of the
launch. Each is checked and then queued for its unit, in order. -/
def Obligations.MatrixCommandsAreSent : Prop :=
  (∀ s i r o right y z l, Claim.plainMatrix s i = some (r, o, right, y, z, l) → s.Runs i →
    Claim.CapChecked i s (s.readW o.a) right false (Claim.Queued i s r o (s.readW o.a) y z l)) ∧
  (∀ (s : State) (o : OpE), s.Runs (.mfmt o) →
    let addr := s.readW o.b.reg
    Claim.CapChecked (.mfmt o) s (s.readW o.a) 48 true <| match windowFor s.t.sched.core addr with
      | .ls off =>
        let x := s.lsLoad s.t off 32
        let d := TileDesc.ofNat x
        let code (t : Option Ty) : Nat := (t.map Ty.code).getD 31
        (off % 32 ≠ 0 → Claim.Gives (.mfmt o) s fun t => Traps s t 0x43 s.t.pc { g4 := addr }) ∧
        (off % 32 = 0 → s.t.lsOwed s.ops off 32 = true → Claim.Gives (.mfmt o) s fun t => Claim.HoldsSlot s t) ∧
        (off % 32 = 0 → s.t.lsOwed s.ops off 32 = false → match d.fault (s.t.capture d.aty).1 (s.t.capture d.bty).1 s.myCore.munit.broken with
          | some c => Claim.Gives (.mfmt o) s fun t => Traps s t c s.t.pc {}
          | none => Claim.Queued (.mfmt o) s Rows.mfmt o (s.readW o.a) 0 (BitVec.ofNat 64 (code d.aty * 32 + code d.bty))
              (BitVec.ofNat 512 x))
      | _ => Claim.Gives (.mfmt o) s fun t => Traps s t 0x43 s.t.pc { g4 := addr }) ∧
  (∀ (s : State) (o : OpE), s.Runs (.mrow o) →
    let b := s.readW o.b.reg
    let off := b.toNat % 2 ^ 19
    let ends := off + rowImage o.ty (32 * (o.imm.toNat % 4 + 1))
    Claim.CapChecked (.mrow o) s (s.readW o.a) 49 false (
      (off % 8 ≠ 0 → Claim.Gives (.mrow o) s fun t => Traps s t 0x0A s.t.pc { g4 := b }) ∧
      (off % 8 = 0 → 2 ^ 19 < ends → Claim.Gives (.mrow o) s fun t => Traps s t 0x43 s.t.pc { g4 := b }) ∧
      (off % 8 = 0 → ends ≤ 2 ^ 19 →
        Claim.Queued (.mrow o) s Rows.mrow o (s.readW o.a) (BitVec.ofNat 64 off) (s.readW o.c.reg) 0))) ∧
  (∀ (s : State) (o : OpE), s.Runs (.msave o) → Claim.CapChecked (.msave o) s (s.readW o.a) 48 true (
    (s.ownTerr s.cur s.t.sched.core = none → Claim.Queued (.msave o) s Rows.msave o (s.readW o.a) 0 0 0) ∧
    (∀ c k row, s.ownTerr s.cur s.t.sched.core = some (c, k, row) → Claim.Gives (.msave o) s fun t =>
      Traps (s.clearTerr s.cur s.t.sched.core) t c s.t.pc
        { g4 := BitVec.ofNat 64 k, g5 := BitVec.ofNat 64 row, prec := false }))) ∧
  (∀ (s : State) (o : OpE), s.Runs (.mrest o) → Claim.CapChecked (.mrest o) s (s.readW o.a) 48 true (
    match s.restFault s.t.sched.core ((s.readW o.b.reg).toNat % 2 ^ 19) with
    | some c => Claim.Gives (.mrest o) s fun t => Traps s t c s.t.pc {}
    | none => Claim.Queued (.mrest o) s Rows.mrest o (s.readW o.a) (s.readW o.b.reg) 0 0)) ∧
  (∀ (s : State) (o : OpE), s.Runs (.mcap o) →
    let x := ((s.launch? s.t.launch).map fun l => l.capWord (o.imm.toNat % 256)).getD 0
    let u : State := { s with ops := s.ops + 1 }
    let h := Claim.slotted s { slot := 16, pc := s.t.pc, ins := .mcap o, op := s.ops, x := x, y := 0, z := 0, line := 0 }
    Claim.Commanded (.mcap o) s u h fun t => Effect u t [(o.dst, x.setWidth 512)] 0 (nextPc s.t.pc))

/-- `mrd` (spec/15_matrix.md R263) issues as a long op and sends its command, with the rounding of FRMODE for mode 5; `mwait`
(R264)
reports a recorded matrix fault, else asks its unit and holds its slot until the answer is there; then it traps with the
answer's cause, or writes the rows and the condition, with the tile's flags where it holds, or parks. -/
def Obligations.MatrixReadsAndWaitsComplete : Prop :=
  (∀ (s : State) (o : OpE), s.Runs (.mrd o) →
    let cap := s.readW o.a
    let core := s.t.sched.core
    let b := s.readW o.b.reg
    let ds := o.dst :: (if o.ty = some .pair32 then [o.dst.next] else [])
    let md := if o.imm.toNat % 8 = 5 then s.t.seenSys.frmode.toNat else o.imm.toNat % 8
    Claim.CapChecked (.mrd o) s cap 50 false (s.t.outcnt < 64 →
      (16 ≤ s.myCore.outq.length → Claim.Gives (.mrd o) s fun t => Claim.HoldsSlot s t) ∧
      (s.myCore.outq.length < 16 →
        let u := Claim.issued s
          (Claim.op s ds [] (.mrd cap (field b.toNat 10 0) (field b.toNat 25 16) (o.ty.getD .f32) md none))
        let h := Claim.slotted s { slot := 16, pc := s.t.pc, ins := .mrd o, op := s.ops, x := cap, y := b, z := BitVec.ofNat 64 md,
                                   line := 0 }
        Claim.Commanded (.mrd o) s u h fun t =>
          t = { u with cores := t.cores } ∧ (∀ n, n ≠ core → t.core n = s.core n) ∧
          ∃ c, t.core core = { s.core core with outq := (s.core core).outq ++ [c] } ∧ c.cap = cap ∧ c.b = b ∧ c.op = s.ops ∧
            c.task = s.cur ∧ c.isRead = true))) ∧
  (∀ (s : State) (o : OpE), s.Runs (.mwait o) →
    let cap := s.readW o.a
    let n := s.readW o.b.reg
    let test := o.imm.getLsbD 0
    let asks (q : Option MQuery) (u : State) : State := { u with t := { u.t with sched := { u.t.sched with mquery := q } } }
    (test = false → s.t.isMessage = true → Claim.Gives (.mwait o) s fun t => Traps s t 0x63 s.t.pc {}) ∧
    ((test = true ∨ s.t.isMessage = false) →
      (∀ f, s.t.mfault = some f → Claim.Gives (.mwait o) s fun t =>
        Traps { s with t := { s.t with mfault := none } } t f.cause s.t.pc
          { g4 := f.cap, g5 := BitVec.ofNat 64 (f.maj % 16 + f.fn % 16 * 16), prec := false }) ∧
      (s.t.mfault = none → (capCore cap = s.t.sched.core → s.ownTerr s.cur s.t.sched.core = none) →
        ((∀ q, s.t.sched.mquery = some q → q.cap ≠ cap ∨ q.n ≠ n) → Claim.Gives (.mwait o) s fun t =>
          Claim.HoldsSlot (asks (some { cap := cap, n := n, since := s.ops }) s) t) ∧
        (∀ q, s.t.sched.mquery = some q → q.cap = cap → q.n = n →
          (q.answer = none → Claim.Gives (.mwait o) s fun t => Claim.HoldsSlot s t) ∧
          (∀ c rows met fl, q.answer = some (c, rows, met, fl) →
            (c ≠ 0 → Claim.Gives (.mwait o) s fun t => Traps s t c s.t.pc {}) ∧
            (c = 0 → met = false → test = false → Claim.Gives (.mwait o) s fun t =>
              Parks (asks (some { q with answer := none }) s) t (.rows cap n)) ∧
            (c = 0 → (met = true ∨ test = true) → Claim.Gives (.mwait o) s fun t =>
              Effect (asks none s) t [(o.dst, (BitVec.ofNat 64 rows).setWidth 512), (.p o.pE, if met then 1 else 0)]
                (if met then fl else 0) (nextPc s.t.pc)))))))

/-! ### Bank compute (spec/19_bank.md R305 to R316) -/

/-- `bcall` (spec/19_bank.md R312): 0x0A off the line, 0x0C in a versioned task, 0x1C in local store, for a page without CR, a
page
that is not resident or (read from the spec by inference, log entry 37) not in DRAM, 0x5F for a withdrawn unit, whatever of its channel
is lost; otherwise it issues as a long op that carries its page. In a handler, `hrow` reads and `hwr` writes the channel at a line of
the page and no other line, 0x4B outside it; `hret` ends the handler and answers with its value, 0x4F for a vector that the `bcall`
does not take. -/
def Obligations.BankInstructionsComplete : Prop :=
  (∀ (s : State) (o : OpE), s.Runs (.bcall o) →
    let va := s.readW o.a
    let core := s.t.sched.core
    let traps (f : State) (c : Nat) : Prop := Claim.Gives (.bcall o) s fun t => Traps f t c f.t.pc { g4 := va }
    (va.toNat % 64 ≠ 0 → traps s 0x0A) ∧
    (va.toNat % 64 = 0 → s.t.versioned = true → traps s 0x0C) ∧
    (va.toNat % 64 = 0 → s.t.versioned = false → windowOf va ≠ .mapped → traps s 0x1C) ∧
    (va.toNat % 64 = 0 → s.t.versioned = false → windowOf va = .mapped → s.t.outcnt < 64 →
      match s.translate core (s.rootOf s.t)
          { kind := .offer, sys := s.t.isHandler, io := false, writes := true, bank := true } va with
      | (.fault c, f) => traps f c
      | (.storage _ _, f) => traps f 0x1C
      | (.wait, f) => Claim.Gives (.bcall o) s fun t => Claim.HoldsSlot f t
      | (.ok pa p, f) =>
        (spaceOf pa ≠ .dram → traps f 0x1C) ∧
        (spaceOf pa = .dram → (f.unit (f.devChannel pa)).withdrawn = true → traps f 0x5F) ∧
        (spaceOf pa = .dram → (f.unit (f.devChannel pa)).withdrawn = false → ∀ c, f.lostAt pa = some c → traps f c) ∧
        (spaceOf pa = .dram → (f.unit (f.devChannel pa)).withdrawn = false → f.lostAt pa = none → f.t.outcnt < 64 →
          let page := f.pageOf core (f.rootOf f.t) va pa
          Claim.Gives (.bcall o) s fun t => Issues f t (replyRegs o) (Claim.op f (replyRegs o) []
            (.offer { op := .bank (o.imm.toNat % 16) page.1 page.2, scope := .core, ty := none, va := va, pa := pa, owner := none,
                      b := (s.readW o.b.reg).setWidth 512, c := (s.readW o.c.reg).setWidth 512, old := 0, nt := false,
                      pE := o.pE.val, pD := o.pD.val, od := Pte.od p }))))) ∧
  (∀ (s : State) (o : OpE) (u : Nat) (r : BankReq) (since : Nat), s.t.kind = .sorrel u → (s.unit u).running = some (r, since) →
    let off : Int := (r.pa - r.pageBase : Nat) + 64 * (s.readW o.a + (o.imm.setWidth 16).signExtend 64).toInt
    let pa := r.pageBase + off.toNat
    (s.Runs (.hrow o) →
      (off < 0 ∨ (r.pageSize : Int) ≤ off → Claim.Gives (.hrow o) s fun t => Traps s t 0x4B s.t.pc {}) ∧
      (0 ≤ off → off < r.pageSize → Claim.Gives (.hrow o) s fun t =>
        Effect (s.useSlot u) t [(o.dst, s.chanRead pa)] 0 (nextPc s.t.pc))) ∧
    (s.Runs (.hwr o) →
      (off < 0 ∨ (r.pageSize : Int) ≤ off → Claim.Gives (.hwr o) s fun t => Traps s t 0x4B s.t.pc {}) ∧
      (0 ≤ off → off < r.pageSize → Claim.Gives (.hwr o) s fun t =>
        t.chanRead pa = s.read o.b.reg ∧ (∀ a, s.cellOf (lineAt a) ≠ s.cellOf (lineAt pa) → t.chanRead a = s.chanRead a) ∧ t.mem.l2 = s.mem.l2 ∧ t.mem.l1 = s.mem.l1 ∧ t.mem.full = s.mem.full ∧
        t.t.regs = s.t.regs ∧ t.t.sys = s.t.sys ∧ t.t.pc = nextPc s.t.pc)) ∧
    (s.Runs (.hret o) →
      let vector := ∃ n, o.b.reg = .v n
      (vector → r.vdst = false → Claim.Gives (.hret o) s fun t => Traps s t 0x4F s.t.pc {}) ∧
      (¬vector ∨ r.vdst = true → Claim.Gives (.hret o) s fun t => (t.unit u).running = none ∧
        t = ((s.dropTask (sorrelKey u)).onUnit u fun x => { x with running := none }).bankAnswer r.task r.op
          { fl := s.t.sys.flags, r1 := s.read o.b.reg })))

/-! ### Ending a task, and the system instructions (spec/05_scalar.md R84, R85, R107, spec/13_traps.md R222 to R243) -/

namespace Sys2Proof.Machine

/-- What `done` and `done.exit` trap by the kind of their task: `done` 0x5B in activations of edge programs, 0x01 in server
tasks
and handlers; `done.exit` 0x01 in all but firings. -/
def Claim.doneTrap (t : Task) (exit : Bool) : Option Nat :=
  match t.kind, exit with
  | .firing _, _ | .launched, false => none
  | .edge _ _, false => some 0x5B
  | _, _ => some 0x01

/-- A task that `eret` or `vabort` runs again (spec/13_traps.md R224): its records are gone from the store-fault queue, its
frame is as
at creation, and it is ready at its routine's entry, with its entry time; a server task takes slot 6. -/
def Claim.RunsAgain (w : State) (k : Nat) (t : Task) : Prop :=
  ∃ v u, w = (if t.kind = .delegated then v.takeSlot k 6 else v) ∧ v.task? k = some u ∧
    u.regs = t.creation.regs ∧ u.pc = t.creation.entry ∧
    u.sys = { tid := t.sys.tid, prio := t.creation.prio, grps := t.sys.grps, frmode := t.creation.frmode } ∧
    u.versioned = t.versioned ∧ u.version = [] ∧ u.scratch = [] ∧ u.held = [] ∧ u.seq = {} ∧ u.sched.status = .ready ∧
    u.sched.slot = none ∧ u.sched.rerun = false ∧ u.sched.entryTime = t.sched.entryTime ∧ u.sched.core = t.sched.core ∧
    ∀ r ∈ (v.core t.sched.core).sfq, r.tid ≠ t.sys.tid

end Sys2Proof.Machine

/-- `done` and `done.exit` (spec/05_scalar.md R107): a task that nothing keeps, without footprints to copy back, retires, a
versioned
one once its version is published; a firing with items to deliver releases at device scope first (spec/01_machine.md R35);
outstanding long ops make it park with its open slots resolved false (read from the spec by inference, log entry 31). A retirement,
with a cause or without (log entry 16, an inference too), counts in NRET of its launch, and one with a cause in NKILL and, as the first, in FIRSTTASK and FIRSTCAUSE (spec/01_machine.md R45). -/
def Obligations.TasksEndAndCount : Prop :=
  (∀ (s : State) (o : OpS) (exit : Bool),
    let i := if exit then Instr.doneExit o else Instr.done o
    let trap := Claim.doneTrap s.t exit
    s.Runs i →
    (∀ c, trap = some c → Claim.Gives i s fun t => Traps s t c s.t.pc {}) ∧
    (trap = none → 0 < s.t.outcnt → s.t.held = [] → Claim.Gives i s fun t =>
      Parks { s with t := { s.t with slots := t.t.slots } } t .outcnt ∧ (∀ k, t.t.slots.get .free k ≠ .opened)) ∧
    (trap = none → Claim.Clean s true → (s.t.filled = false ∨ ∀ f ∈ s.t.foot, f.wb = false) →
      let e := Claim.ended s
      let retires (u : State) : Prop :=
        (s.t.versioned = false → exec i s = .next (u.retireTask s.cur none exit)) ∧
        (s.t.versioned = true → u.publishWaits = true → Claim.Gives i s fun t => Claim.HoldsSlot u t) ∧
        (s.t.versioned = true → u.publishWaits = false → exec i s = .next (u.publish.retireTask s.cur none exit))
      (s.delivers = false → retires e) ∧ (s.delivers = true → Claim.Releases i e .device retires))) ∧
  (∀ (s : State) (t : Task) (l : Launch) (cause : Option (Nat × Bool)), s.launch? t.launch = some l →
    ∃ m, (s.countRetired t cause).launch? t.launch = some m ∧ m.nret = l.nret + 1 ∧
      (cause = none → m.nkill = l.nkill ∧ m.firstTask = l.firstTask ∧ m.firstCause = l.firstCause) ∧
      (∀ c, cause = some (c, false) → m.nkill = min 255 (l.nkill + 1) ∧
        (l.firstTask = 0 → m.firstTask = t.sys.tid ∧ m.firstCause = c) ∧
        (l.firstTask ≠ 0 → m.firstTask = l.firstTask ∧ m.firstCause = l.firstCause)) ∧
      ∀ k, k ≠ t.launch → (s.countRetired t cause).launch? k = s.launch? k)

/-- System registers (spec/05_scalar.md R84, R85, spec/13_traps.md R222, spec/19_bank.md R315; that a write of DUTY brings HOT
up to
date is read from the spec by inference, log entry 38). `sysr` writes the numbered register of the task, in the
system handler of its subject; a number that names none traps 0x01. `sysw` writes a writable one, and traps 0x06 for another (in its
effect: the model's choice, as are the bits that CAUSE keeps, log entry 43): FLAGS keeps 7 bits, PRIO cannot be lowered by a task itself, FRMODE ignores reserved codes, a bias byte that an outstanding `mfmt` captures
traps 0x46. No other register changes. -/
def Obligations.SystemRegistersReadAndWrite : Prop :=
  (∀ (s : State) (o : OpS), s.Runs (.sysr o) →
    let n := o.imm.toNat % 4096
    let x := (s.subject.bind s.task?).getD s.t
    (∀ v, s.sysRead s.t.sched.core x n = some v → Claim.Gives (.sysr o) s fun t =>
      Effect s t [(o.dst, v.setWidth 512)] 0 (nextPc s.t.pc)) ∧
    (s.sysRead s.t.sched.core x n = none → Claim.Gives (.sysr o) s fun t => Traps s t 0x01 s.t.pc {})) ∧
  (∀ (s : State) (core : Nat) (t : Task) (n : Nat) (v : Word), s.sysRead core t n = some v ↔
    (n, v) ∈ [(0x000, t.seenSys.tid), (0x001, t.seenSys.cause), (0x002, t.seenSys.trappc), (0x003, t.seenSys.flags.setWidth 64),
      (0x004, t.seenSys.tags), (0x005, BitVec.ofNat 64 t.seenOutcnt), (0x006, t.seenSys.prio.setWidth 64),
      (0x007, t.seenSys.grps.setWidth 64), (0x008, s.sfqWord core t), (0x009, t.seenSys.frmode.setWidth 64),
      (0x00A, dutyWord (s.die (dieOf core))), (0x00B, t.seenSys.bkpa), (0x00C, t.seenSys.bkpc)] ∨
    (0x010 ≤ n ∧ n < 0x018 ∧ v = (t.seenSys.bias >>> (8 * (n - 0x010))) &&& 0xFF)) ∧
  (∀ (s : State) (o : OpS), s.Runs (.sysw o) →
    let n := o.imm.toNat % 4096
    let v := s.readW o.sa
    let core := s.t.sched.core
    let writes (f : SysRegs → SysRegs) : Prop := Claim.Gives (.sysw o) s fun t => Claim.Only s t fun u => { u with sys := f u.sys }
    let known := (s.sysRead core s.t n).isSome = true
    (¬known → Claim.Gives (.sysw o) s fun t => Traps s t 0x01 s.t.pc {}) ∧
    (known → sysWritable s.t.isHandler n = false → Claim.Gives (.sysw o) s fun t => Traps s t 0x06 s.t.pc {}) ∧
    (s.t.isHandler = false →
      (n = 0x003 → writes fun x => { x with flags := v.setWidth 7 }) ∧
      (n = 0x006 → s.t.sys.prio.toNat ≤ v.toNat % 4 → writes fun x => { x with prio := v.setWidth 2 }) ∧
      (n = 0x006 → v.toNat % 4 < s.t.sys.prio.toNat → writes id) ∧
      (n = 0x009 → v.toNat % 8 < 5 → writes fun x => { x with frmode := v.setWidth 3 }) ∧
      (n = 0x009 → 5 ≤ v.toNat % 8 → writes id) ∧
      (n = 0x00B → writes fun x => { x with bkpa := v &&& ~~~ (0x38 : Word) }) ∧
      (n = 0x00C → writes fun x => { x with bkpc := v &&& 0x3FFFF }) ∧
      (∀ k : Fin 8, n = 0x010 + k.val →
        (s.fmtBusy (.fmt k) = true → Claim.Gives (.sysw o) s fun t => Traps s t 0x46 s.t.pc {}) ∧
        (s.fmtBusy (.fmt k) = false → Claim.Gives (.sysw o) s fun t =>
          Claim.Only s t (fun u => { u with sys := { u.sys with bias := t.t.sys.bias } }) ∧
          ∀ j < 64, t.t.sys.bias.getLsbD j =
            if 8 * k.val ≤ j ∧ j < 8 * k.val + 8 then v.getLsbD (j - 8 * k.val) else s.t.sys.bias.getLsbD j))) ∧
    (s.t.isHandler = true → n = 0x00A → Claim.Gives (.sysw o) s fun t =>
      t = { s with t := { s.t with pc := nextPc s.t.pc, view := none }, dies := t.dies } ∧
      (∀ d, d ≠ dieOf core → t.die d = s.die d) ∧
      t.die (dieOf core) =
        if (s.die (dieOf core)).dutyBy.any (fun b => b.1 == s.dev.cycle && decide (core < b.2)) then s.die (dieOf core)
        else { s.die (dieOf core) with thr := BitVec.ofNat 4 (field v.toNat 11 8), idle := BitVec.ofNat 4 (field v.toNat 7 4)
                                       dutyBy := some (s.dev.cycle, core)
                                       hot := decide (85 + 2 * field v.toNat 11 8 < (s.die (dieOf core)).temp.toNat) }) ∧
    (∀ k u, s.subject = some k → s.task? k = some u → k ≠ s.cur → known → sysWritable true n = true → n ≠ 0x00A →
      Claim.Gives (.sysw o) s fun t => t.t = { s.t with pc := nextPc s.t.pc, view := none } ∧
        t.task? k = some { u with sys := u.sys.put true n v } ∧ t.mem = s.mem))

/-- `eret` (spec/13_traps.md R224) outside the system handler traps 0x06; in it, its own stores and replies come first, then the
activation ends and its subject is disposed of: a resume goes on at TRAPPC, or past it where SKIP is set or the instruction has
already passed, with every register as it was, a target that cannot be looked at yet being checked before the first issue; an
action that the trap does not permit terminates the subject with 0x0E. A re-run drops version, scratch and the commands of open slots,
waits for the long ops, stores and commands that are out, and begins at the routine's entry with the frame as at creation. That `eret`
waits for the activation's replies, and that a resume's target is checked with its TGT bit, is read from the spec by inference (log
entry 33). -/
def Obligations.EretDisposesOfItsSubject : Prop :=
  (∀ (s : State) (o : OpS), s.Runs (.eret o) →
    (s.subject = none → Claim.Gives (.eret o) s fun t => Traps s t 0x06 s.t.pc {}) ∧
    (∀ k, s.subject = some k → s.t.sched.storeFail = none → s.t.stores = [] → s.t.lost = false → s.faultsOf s.t = [] →
      let u := { s with t := { s.t with faulted := [] } }
      (0 < s.t.outcnt → Claim.Gives (.eret o) s fun t => Claim.HoldsSlot u t) ∧
      (s.t.outcnt = 0 → exec (.eret o) s =
        .next ((u.endActivation s.t.sched.core).dispose k (o.imm.toNat % 4) (o.imm.getLsbD 2))))) ∧
  (∀ (s : State) (k : Nat) (t : Task) (skip : Bool), s.task? k = some t → t.sched.dying = none → t.sched.killed = false →
    (t.tr.cause = 0x70 → t.tr.vers = true) → t.tr.cause ≠ 0x72 → t.tr.cause ≠ 0x76 →
    (s.dispose k 1 skip = s.rerun k) ∧
    (t.noResume skip = true → s.dispose k 0 skip = s.endSubject k 0x0E false) ∧
    (t.noResume skip = false → t.frameOk = false → s.dispose k 0 skip = s.endSubject k 0x0F false) ∧
    (s.dispose k 2 skip = s.endSubject k (t.sys.cause.toNat % 256) false) ∧ (s.dispose k 3 skip = s.endSubject k 0x0E false) ∧
    (t.noResume skip = false → t.frameOk = true → t.tr.seq = false →
      let pc := if skip = true ∨ t.tr.passed = true then nextPc t.sys.trappc else t.sys.trappc
      let resumed (from_ : Option Word) (f : State) : Prop := (t.tr.cause ≠ 0x30 ∧ t.tr.cause ≠ 0x31) → f.task? k = some t →
        ∃ u, (s.dispose k 0 skip).task? k = some u ∧ u.pc = pc ∧ u.sched.status = .issuing ∧ u.sched.slot = t.sched.slot ∧
          u.sched.resumeFrom = from_ ∧ u.regs = t.regs ∧ u.sys = t.sys ∧ u.stores = t.stores ∧ u.long = t.long
      match s.checkTarget t.sched.core (s.rootOf t) false pc with
      | (.ok, f) => resumed none f
      | (.bad, f) => s.dispose k 0 skip = f.trapAgain k 0x03 t.sys.trappc { g4 := pc }
      | (.fault c va, f) => s.dispose k 0 skip = f.trapAgain k c t.sys.trappc { g4 := va }
      | (_, f) => resumed (some t.sys.trappc) f)) ∧
  (∀ (s : State) (k : Nat) (t : Task), s.task? k = some t → t.sched.dying = none →
    (t.long = [] → t.stores = [] → t.closeSlots.held = [] → Claim.RunsAgain (s.rerun k) k t) ∧
    (t.long ≠ [] ∨ t.stores ≠ [] ∨ t.closeSlots.held ≠ [] → ∃ u, (s.rerun k).task? k = some u ∧ u.sched.rerun = true ∧
      u.sched.status = .suspended ∧ u.sched.slot = none ∧ u.version = [] ∧ u.scratch = [] ∧ u.stores = t.stores ∧
      u.held = t.closeSlots.held ∧ u.long.map LongOp.op = t.long.map LongOp.op) ∧
    (t.sched.rerun = true → t.long = [] → t.stores = [] → t.held = [] → Claim.RunsAgain (s.finishRerun k) k t))

/-- `yield`, `drain`, `sfqpop`, `wfe` and `vabort` (spec/13_traps.md R228, R229, R240 to R242): `yield` gives up its slot, at
the end of the issue (spec/03_encoding.md R70), where another task of its core is ready; `drain` waits for the stores and traps 0x30 or 0x31 for their faults; `sfqpop` gives the subject's
oldest record, and zeros for none; `wfe` takes the latched events of its mask, with 0x20 where its time has passed, or parks;
`vabort` ends or runs again a versioned task once its long ops are over, its slot held, and traps 0x0D in any other. -/
def Sys2Proof.Machine.Claim.WaitsAndFaultQueuesComplete : Prop :=
  ∀ (s : State) (o : OpS),
    let core := s.t.sched.core
    (s.Runs (.yieldT o) →
      let gives := (∃ k, s.t.sched.slot = some k ∧ k < 6) ∧ s.t.isMessage = false ∧
        ∃ e ∈ s.allTasks, e.1 ≠ s.cur ∧ e.2.sched.core = core ∧ e.2.sched.status = .ready ∧ e.2.holdsEntry = true
      (¬gives → Claim.Gives (.yieldT o) s fun t => Claim.Only s t id) ∧
      (gives → Claim.Gives (.yieldT o) s fun t =>
        Claim.Only s t (fun u => { u with sched := { u.sched with yielded := true } }) ∧
        (s.t.live = true → let v := t.giveSlot
          v.t.sched.status = .ready ∧ v.t.sched.slot = none ∧ v.t.sched.entryTime = s.dev.cycle ∧ v.t.pc = nextPc s.t.pc ∧
          v.t.regs = s.t.regs ∧ v.t.sys = s.t.sys ∧ v.mem = s.mem))) ∧
    (s.Runs (.drain o) → s.t.sched.storeFail = none →
      (s.t.stores ≠ [] → s.t.stores.any Store.waits = false → Claim.Gives (.drain o) s fun t => Claim.HoldsSlot s t) ∧
      (s.t.stores = [] →
        let rs := s.faultsOf s.t
        let r : TrapRec := { prec := false, g4 := (rs.head?.map FaultRec.va).getD 0, g5 := BitVec.ofNat 64 rs.length }
        (s.t.lost = true → Claim.Gives (.drain o) s fun t =>
          Traps { s with t := { s.t with faulted := [], lost := false } } t 0x31 s.t.pc r) ∧
        (s.t.lost = false → rs ≠ [] → Claim.Gives (.drain o) s fun t =>
          Traps { s with t := { s.t with faulted := [] } } t 0x30 s.t.pc r) ∧
        (s.t.lost = false → rs = [] → Claim.Gives (.drain o) s fun t => Claim.Only s t fun u => { u with faulted := [] }))) ∧
    (s.Runs (.sfqpop o) →
      let x := (s.subject.bind s.task?).bind fun t => (s.faultsOf t).head?
      (x = none → Claim.Gives (.sfqpop o) s fun t => Effect s t [(o.dst, 0), (o.dst.next, 0)] 0 (nextPc s.t.pc)) ∧
      (∀ r, x = some r → Claim.Gives (.sfqpop o) s fun t =>
        Effect (Claim.onCoreOnly s core { s.core core with sfq := (s.core core).sfq.erase r }) t
          [(o.dst, r.lines.1), (o.dst.next, r.lines.2)] 0 (nextPc s.t.pc))) ∧
    (s.Runs (.wfe o) →
      let mask : BitVec 5 := o.imm.setWidth 5
      let n := (s.readW o.sa).toNat % 2 ^ 32
      let hit := s.t.sched.latch &&& mask
      let u : State := { s with t := { s.t with sched := { s.t.sched with latch := s.t.sched.latch &&& ~~~mask, timedOut := false } } }
      (s.t.isMessage = true → n = 0 → Claim.Gives (.wfe o) s fun t => Traps s t 0x63 s.t.pc {}) ∧
      ((s.t.isMessage = false ∨ n ≠ 0) →
        (hit ≠ 0 ∨ s.t.sched.timedOut = true → Claim.Gives (.wfe o) s fun t =>
          Effect u t [(o.dst, hit.setWidth 512 ||| (if s.t.sched.timedOut then 0x20 else 0))] 0 (nextPc s.t.pc)) ∧
        (hit = 0 → s.t.sched.timedOut = false → Claim.Gives (.wfe o) s fun t =>
          Parks s t (.event mask (if n = 0 then none else some (s.dev.cycle + n)))))) ∧
    (s.Runs (.vabort o) →
      (s.t.versioned = false → Claim.Gives (.vabort o) s fun t => Traps s t 0x0D s.t.pc {}) ∧
      (s.t.versioned = true → 0 < s.t.outcnt → Claim.Gives (.vabort o) s fun t => Claim.HoldsSlot s t) ∧
      (s.t.versioned = true → s.t.outcnt = 0 → exec (.vabort o) s = .next
        (if o.imm.getLsbD 0 then s.terminate s.cur 0x6F false else s.rerun s.cur)))

/-- `tlbinv` (spec/13_traps.md R243) joins an invalidation of the cores that its scope names in its partition, behind the task's
earlier stores, and traps 0x0A for an address off its page size; `tlbsync` holds its slot while one of the task is not done. `kill`
(R230) outside the system handler traps 0x06, 0x65 for a group that does not exist; it starts the terminations and holds its
slot until they are done. -/
def Sys2Proof.Machine.Claim.InvalidationsAndKillComplete : Prop :=
  ∀ (s : State) (o : OpS),
    (s.Runs (.tlbinv o) →
      let va := s.readW o.sa
      let all := o.imm.getLsbD 2
      let sel := o.imm.toNat % 4
      let size := if sel = 0 then 12 else if sel = 1 then 16 else if sel = 2 then 21 else 30
      (all = false → va.toNat % 2 ^ size ≠ 0 → Claim.Gives (.tlbinv o) s fun t => Traps s t 0x0A s.t.pc { g4 := va }) ∧
      (all = true ∨ va.toNat % 2 ^ size = 0 → s.t.live = true → Claim.Gives (.tlbinv o) s fun t => ∃ x : TlbInv,
        t = { s with t := { s.t with pc := nextPc s.t.pc, view := none }, tlbinvs := s.tlbinvs ++ [x], ops := s.ops + 1 } ∧
        x.id = s.ops ∧ x.task = some s.cur ∧ x.va = va ∧ x.size = size ∧ x.all = all ∧ x.stores = s.t.stores.map Store.op ∧
        ∀ n, n ∈ x.cores ↔ s.corePart n = s.corePart s.t.sched.core ∧ match field o.imm.toNat 4 3 with
          | 0 => n = s.t.sched.core
          | 1 => n / 1024 = s.t.sched.core / 1024
          | _ => n < 4096)) ∧
    (s.Runs (.tlbsync o) →
      ((∃ v ∈ s.tlbinvs, v.task = some s.cur) → Claim.Gives (.tlbsync o) s fun t => Claim.HoldsSlot s t) ∧
      ((∀ v ∈ s.tlbinvs, v.task ≠ some s.cur) → Claim.Gives (.tlbsync o) s fun t => Claim.Only s t id)) ∧
    (s.Runs (.kill o) →
      let all := o.imm.getLsbD 8
      let g := o.imm.toNat % 256
      (s.subject.bind s.task? = none → Claim.Gives (.kill o) s fun t => Traps s t 0x06 s.t.pc {}) ∧
      (∀ k u, s.subject = some k → s.task? k = some u →
        (s.launch? u.launch = none → Claim.Gives (.kill o) s fun t => Claim.Only s t id) ∧
        (∀ l, s.launch? u.launch = some l →
          (all = false → l.groups.length ≤ g → Claim.Gives (.kill o) s fun t => Traps s t 0x65 s.t.pc {}) ∧
          (all = true ∨ g < l.groups.length →
            (s.myCore.killing ≠ none → Claim.Gives (.kill o) s fun t => Claim.HoldsSlot s t) ∧
            (s.myCore.killing = none → Claim.Gives (.kill o) s fun t =>
              let hit := l.killCores (if all then none else some g)
              let v := s.startKill k u all hit (l.queuedOn all hit)
              t.t.sched.heldAt = some v.evs ∧ t = { v with t := { v.t with sched := t.t.sched } })))))

/-- `yield`, `drain`, `sfqpop`, `wfe`, `vabort`, `tlbinv`, `tlbsync` and `kill` (spec/13_traps.md R228 to R243) complete. -/
def Obligations.SystemWaitsAndControlComplete : Prop :=
  Claim.WaitsAndFaultQueuesComplete ∧ Claim.InvalidationsAndKillComplete

/-! ### Events of long ops (spec/03_encoding.md R71, spec/01_machine.md R27, R34, spec/09_memory_offers.md R158, R162, R176) -/

namespace Sys2Proof.Machine

/-- The values and flags with which a long op lands when nothing but its task changes: its result was formed, its load has all
its
bytes, or its question has an answer. -/
def Claim.landing (s : State) (key : Nat) (t : Task) (l : LongOp) : Option (List Line × Flags) :=
  match l.act with
  | .ready f => some (l.vals, f)
  | .load ty vec _ _ us => (loadResult ty vec us).map fun x => ([x], 0)
  | .barv g (some phase) => some ([(token g phase).setWidth 512], 0)
  | .btest x => some ([if s.tokenPassed t.launch x then 1 else 0], 0)
  | .grpq g item j => some ([(s.groupItem t.launch t.sched.core g item j).setWidth 512], 0)
  | .sendt _ _ _ => if l.vals.isEmpty || s.exposed t.launch key l.op then none else some (l.vals, 0)
  | .ecmd _ _ _ _ true => some (l.vals, 0)
  | .mrd _ _ _ _ _ (some (a, b, f, 0)) => some ([a, b], f)
  | .ijob off => some ([BitVec.ofNat 512 (s.jobWord t.sched.core off)], 0)
  | _ => none

/-- A waiting `ldf` is tried: it is one of the 64 that its home holds, it waits at its own core's bank, or it is time for a
poll. -/
def Claim.tried (s : State) (t : Task) (op : Nat) (pa : Option Nat) : Bool :=
  pa.isNone || decide (s.waiterRank t op pa < 64) || s.dev.cycle % 256 == 0

/-- What lands with a change beyond its task: the state in which it lands, and its values. An item that `recv` reads and the
answer
of a `deleg` come with an acquire once the loads before them have returned, a granted guard with its self-invalidations, a steal
takes its range at the victim after the local operations of the cycle. -/
def Claim.landingIn (s : State) (key : Nat) (t : Task) (l : LongOp) : Option (State × List Line) :=
  let core := t.sched.core
  match l.act with
  | .ldf ty va pa told =>
    if (pa.bind s.lostNow).isSome || !s.mayFull t l.op va pa (ty.width / 8) || (told && !Claim.tried s t l.op pa) then none
    else match s.fullValue t ty va pa with
      | (some x, f) => some (f, [loadValue ty x])
      | (none, _) => none
  | .ldft ty va pa _ =>
    if (pa.bind s.lostNow).isSome || !s.mayFull t l.op va pa (ty.width / 8) then none
    else match s.fullValue t ty va pa with
      | (some x, f) => some (f, [loadValue ty x, 1])
      | (none, f) => some (f, [0, 0])
  | .guard _ scope pa (some phase) _ => if s.grantWaits t l.op ((l.vals.headD 0).setWidth 64) pa then none else some (s.grantDrops t ((l.vals.headD 0).setWidth 64) pa scope, [phase.setWidth 512])
  | .recv fifo i => if t.loadsBefore l.op then none else match t.kind with
    | .firing a => ((s.actor? t.launch a).bind fun y => y.ins[fifo]?.bind fun q => q.items[i]?).map fun x =>
        (s.fenceR core x.scope, [x.data, 1])
    | _ => none
  | .deleg _ scope (some (x, status, cause, ran)) => if t.loadsBefore l.op then none else some (s.fenceR core scope,
      [x.setWidth 512, BitVec.ofNat 512 (status + 256 * cause), if ran then 1 else 0, if status = 1 then 1 else 0])
  | .dqsteal victim =>
    if s.mayIssue victim then none else
    let r := s.steal t.launch (s.corePart core) victim
    some (r.2, match r.1 with
      | some (a, b) => [a.setWidth 512, b.setWidth 512, 1]
      | none => [0, 0, 0])
  | .barv g none => match (s.barvArrive key l.op).longOp? key l.op with
    | some (_, m) => match m.act with
      | .barv _ (some phase) => some (s.barvArrive key l.op, [(token g phase).setWidth 512])
      | _ => none
    | none => none
  | _ => none

/-- A long op that waits for what has not come. -/
def Claim.awaits (s : State) (key : Nat) (t : Task) (l : LongOp) : Bool :=
  match l.act with
  | .ldf ty va pa told => (told && !Claim.tried s t l.op pa) ||
    ((pa.bind s.lostNow).isNone && !s.mayFull t l.op va pa (ty.width / 8))
  | .ldft ty va pa _ => (pa.bind s.lostNow).isNone && !s.mayFull t l.op va pa (ty.width / 8)
  | .barv g none => t.sched.dying.isSome || s.arrivalFull t.launch g t.sched.core
  | .offer o => o.reply.isNone
  | .guard _ _ pa (some _) _ => s.grantWaits t l.op ((l.vals.headD 0).setWidth 64) pa
  | .guard _ _ _ none false | .deleg _ _ none | .ecmd _ _ _ _ false | .mrd _ _ _ _ _ none => true
  | .recv _ _ | .deleg _ _ (some _) => t.loadsBefore l.op
  | .sendt _ _ _ => l.vals.isEmpty || s.exposed t.launch key l.op
  | .dqsteal victim => s.mayIssue victim
  | _ => false

/-- A reply that the op of an offer receives (spec/09_memory_offers.md R176): r1, the reply word, and the two predicates; only
an
execution raises flags. -/
def Claim.replied (r : Reply) : List Line × Flags :=
  let word : Word :=
    BitVec.ofNat 64 (r.kind + 4 * r.reason + 2 ^ 8 * r.cause + 2 ^ 16 * r.stamp + 2 ^ 32 * r.fl.toNat + 2 ^ 40 * r.chain)
  ([r.r1, word.setWidth 512,
    if r.kind = 0 ∨ r.kind = 3 then 1 else 0, if r.kind = 1 then 1 else 0], if r.kind = 0 then r.fl else 0)

end Sys2Proof.Machine

/-- A result that lands (spec/03_encoding.md R71) leaves OUTCNT, writes the destinations, which are no longer pending, and
raises
its flags; no other register, no other task and no memory changes, where the frame lies in the register cache. The results of a
task that ends or runs again are dropped (spec/13_traps.md R231, R224). -/
def Sys2Proof.Machine.Claim.LandingWritesItsRegisters : Prop :=
  ∀ (s : State) (key op : Nat) (t : Task) (l : LongOp) (vals : List Line) (f : Flags), s.longOp? key op = some (t, l) →
    let w := s.land key l vals f
    (t.sched.dying ≠ none ∨ t.sched.rerun = true →
      w = s.onTask key fun t => { t with long := t.long.filter fun x => x.op != op }) ∧
    (t.sched.dying = none → t.sched.rerun = false → t.cached = allLines48 → vals.length = l.dsts.length → l.dsts.Nodup →
      w = { s with t := w.t, tasks := w.tasks, logs := w.logs } ∧ (∀ k, k ≠ key → w.task? k = s.task? k) ∧
      ∃ u, w.task? key = some u ∧
        u = { t with regs := u.regs, sys := { t.sys with flags := t.sys.flags ||| f }
                     long := t.long.filter fun x => x.op != op, dirty := u.dirty, bad := u.bad } ∧
        (∀ e ∈ l.dsts.zip vals, e.1.hardwired = false → u.regs.read e.1 = Reg.trim e.1 e.2) ∧
        (∀ x, x ∉ l.dsts → u.regs.read x = t.regs.read x) ∧
        (∀ x, u.regs.pending x = (t.regs.pending x && !l.dsts.contains x)))

/-- LONG_RESULT_ARRIVAL: a long op that no guard slot holds does what it still has to do and lands; one that waits for what has
not come, and one that a slot holds, changes nothing. A refused guard request traps 0x64 with a free value (log entry 7). The
predicates of a `deleg` that lands (pE where its routine ran, pD with status 1) and the moment at which a waiting `barv` arrives are
read from the spec by inference (log entry 30); that an event without its condition changes nothing is the model's (log entry 5). -/
def Sys2Proof.Machine.Claim.LongResultsArrive : Prop :=
  ∀ (s : State) (key op : Nat) (t : Task) (l : LongOp), s.longOp? key op = some (t, l) →
    let i := Instr.longResultArrival key op
    (l.slot.isSome = true → exec i s = .next s) ∧
    (l.slot = none →
      (Claim.awaits s key t l = true → exec i s = .next s) ∧
      (∀ ty va pa told f, l.act = .ldf ty va pa told → (told = true → Claim.tried s t op pa = true) → pa.bind s.lostNow = none →
        s.mayFull t op va pa (ty.width / 8) = true → s.fullValue t ty va pa = (none, f) → exec i s = .next (f.setAct key op (.ldf ty va pa true))) ∧
      (∀ vals f, Claim.landing s key t l = some (vals, f) → exec i s = .next (s.land key l vals f)) ∧
      (∀ v vals, Claim.landingIn s key t l = some (v, vals) → exec i s = .next (v.land key l vals 0)) ∧
      (∀ o r, l.act = .offer o → o.reply = some r → r.kind ≠ 4 → (r.kind = 2 → o.isBank = false) →
        exec i s = .next (s.land key l (Claim.replied r).1 (Claim.replied r).2)) ∧
      (∀ cap row col ty mode a b f c, l.act = .mrd cap row col ty mode (some (a, b, f, c)) → c ≠ 0 →
        exec i s = .next ((s.land key l [a, b] f).lateTrap key c l.pc (l.record { prec := false }))) ∧
      (∀ ty va pa c, (l.act = .ldft ty va pa c ∨ l.act = .ldf ty va pa false) → ∀ x, pa.bind s.lostNow = some x →
        exec i s = .next ((s.land key l [] 0).lateTrap key x l.pc (l.record { g4 := va }))) ∧
      (∀ sh scope pa, l.act = .guard sh scope pa none true →
        exec i s = .next ((({ s with free := s.free + 8 }).land key l
          [BitVec.ofNat 512 (ofBytes ((List.range 8).map fun i => Config.freeByte (s.free + i)))] 0).lateTrap key 0x64 l.pc
            (l.record { g4 := (l.vals.headD 0).setWidth 64 }))) ∧
      (∀ ty scope alloc u pa, l.act = .load ty false scope alloc [u] → u.pos = 0 → u.data = none → u.pa = some pa →
        spaceOf pa = .dram → s.lostNow pa = none → s.mayPerform t op u.va.toNat u.len (some pa) .weak = true →
        let r := s.coreRead t.sched.core scope u.nc alloc pa
        exec i s = .next (r.2.land key l [loadValue ty (sliceLine (t.overVersion pa r.1) (pa % 64) u.len)] 0)))

/-- OFFER_REPLY (spec/09_memory_offers.md R173 to R177): a decided reply lands; the fault of a bank handler traps 0x5D with its
cause, and a `bcall` whose unit is withdrawn on its way traps 0x5F (spec/13_traps.md R236, spec/19_bank.md R312). An offer at its home, where nothing stands in its way, gives its task the old value with pE true and pD false, and the
bytes of the location, and no others, take the operation's value. A `bcall` reaches its unit: declined, or queued. -/
def Sys2Proof.Machine.Claim.OffersAreAnswered : Prop :=
  ∀ (s : State) (key op : Nat) (t : Task) (l : LongOp) (o : Offer), s.longOp? key op = some (t, l) → l.act = .offer o →
    let i := Instr.offerReply key op
    let core := t.sched.core
    (∀ r, o.reply = some r → r.kind ≠ 4 → (r.kind = 2 → o.isBank = false) → exec i s = .next (s.land key l (Claim.replied r).1 (Claim.replied r).2)) ∧
    (∀ r, o.reply = some r → r.kind = 4 → exec i s = .next ((s.land key l [] 0).lateTrap key 0x5D l.pc
      (l.record { g5 := BitVec.ofNat 64 (r.reason * 2 ^ 16 + r.cause * 2 ^ 8) }))) ∧
    (∀ r, o.reply = some r → r.kind = 2 → o.isBank = true →
      exec i s = .next ((s.land key l [] 0).lateTrap key r.cause l.pc (l.record { g4 := o.va }))) ∧
    (∀ c, o.reply = none → o.isBank = false → s.offerLost core o = some c → exec i s = .next
      (if o.nt then s.land key l (Claim.replied { kind := 2, cause := c }).1 0
       else (s.land key l [] 0).lateTrap key c l.pc (l.record { g4 := o.va }))) ∧
    (∀ a ty, o.reply = none → o.op = .atomic a → o.ty = some ty → o.owner = none → spaceOf o.pa = .dram →
      (o.scope = .die ∨ o.scope = .device ∨ o.scope = .system) →
      (∀ d ∈ l.dsts, ∀ n, d ≠ .v n) → s.lostNow o.pa = none → t.loadsHeld op = false → t.clash op o.va.toNat (ty.width / 8) = false →
      t.strongWait op (if homeDie o.pa = dieOf core then .both else .weak) = false → s.offerWaits o = false →
      s.mem.l2.length < l2Room → s.declineReason core o ty = none → s.pageState o.pa = .shared → s.mem.l1.find? (l1Key core (lineAt o.pa)) = none →
      (homeDie o.pa = dieOf core ∨ s.mem.rdc.find? (rdcKey (dieOf core) (lineAt o.pa)) = none) → t.cached = allLines48 →
      t.sched.dying = none → t.sched.rerun = false →
      let n := ty.width / 8
      let old := sliceLine (s.homeRead o.pa).1 (o.pa % 64) n
      let r := offerValue a ty old (o.b.toNat % 2 ^ ty.width) (o.c.toNat % 2 ^ ty.width)
      Claim.Gives i s fun w =>
        (∃ v : State, w = v.land key l (Claim.replied { fl := r.2, r1 := oldValue ty false (BitVec.ofNat 512 old) }).1 r.2 ∧
          v = { s with t := v.t, tasks := v.tasks, mem := v.mem }) ∧
        ∀ pa, o.pa % 64 + n ≤ 64 → w.byteAt pa = if o.pa ≤ pa ∧ pa < o.pa + n then r.1 / 256 ^ (pa - o.pa) % 256 else s.byteAt pa) ∧
    (∀ e page size, o.reply = none → o.op = .bank e page size →
      let u := s.devChannel o.pa
      (s.unit u).holds key op = false → t.loadsHeld op = false → s.heldLine o.pa = false → s.bankBehind t key op u = false →
      ((s.unit u).withdrawn = true →
        let x : Reply := { kind := 2, cause := 0x5F }
        exec i s = .next (((s.bankAnswer key op x).land key l [] 0).lateTrap key 0x5F l.pc (l.record { g4 := o.va }))) ∧
      ((s.unit u).withdrawn = false → ∀ r, s.bankDecline u o page size = some r →
        let x : Reply := { kind := 1, reason := r }
        exec i s = .next ((s.bankAnswer key op x).land key l (Claim.replied x).1 0)) ∧
      ((s.unit u).withdrawn = false → s.bankDecline u o page size = none → Claim.Gives i s fun w => w = { s with sorrel := w.sorrel } ∧
        (∀ n, n ≠ u → w.unit n = s.unit n) ∧
        w.unit u = { s.unit u with queue := (s.unit u).queue ++
          [{ task := key, op := op, launch := t.launch, entry := e, pa := o.pa, pageBase := page, pageSize := size,
             b := o.b.setWidth 64, c := o.c.setWidth 64, vdst := l.dsts.any fun d => match d with
               | .v _ => true
               | _ => false }] }))

/-- LDF_WAKE and LDF_REPOLL (spec/09_memory_offers.md R162): a load that waits for a full word is performed when the word is
full, at
once for the waiters that its home holds (64), at a poll every 256 cycles for the others. NOTRES_DECLINE lands the reply for a page
that is not resident (spec/22_launch_notes.md R347), PCIE_COMPLETION_TIMEOUT faults its requester with 0x2B, and
ACTOR_MESSAGE_ARRIVAL gives a `sendt` its status: 0 delivered, 1 full, 2 no actor (spec/11_ordering_sync.md R208). -/
def Sys2Proof.Machine.Claim.WaitersAreServed : Prop :=
  (∀ (s : State) (key op : Nat) (t : Task) (l : LongOp) (ty : Ty) (va : Word) (pa : Option Nat),
    s.longOp? key op = some (t, l) → l.act = .ldf ty va pa true → pa.bind s.lostNow = none →
    let held := pa = none ∨ s.waiterRank t op pa < 64
    let polled := s.dev.cycle % 256 = 0
    (¬held → exec (.ldfWake key op) s = .next s) ∧ (¬held → ¬polled → exec (.ldfRepoll key op) s = .next s) ∧
    (s.mayFull t op va pa (ty.width / 8) = true → ∀ x f, s.fullValue t ty va pa = (some x, f) →
      let w := f.land key l [loadValue ty x] 0
      (held → exec (.ldfWake key op) s = .next w) ∧ (held ∨ polled → exec (.ldfRepoll key op) s = .next w))) ∧
  (∀ (s : State) (key op : Nat) (t : Task) (l : LongOp) (f : Flags), s.longOp? key op = some (t, l) → l.act = .ready f →
    l.vals[1]? = some (({ kind := 1, reason := 5 } : Reply).word.setWidth 512) →
    exec (.notresDecline key op) s = .next (s.land key l l.vals f)) ∧
  (∀ (s : State) (key op : Nat) (t : Task) (l : LongOp), s.longOp? key op = some (t, l) →
    (∀ st ∈ t.stores, st.op ≠ op) → s.copy? t.sched.core op = none →
    (∀ ty vec scope alloc us u port pa, l.act = .load ty vec scope alloc us →
      us.find? (fun u => u.data.isNone && u.pa.any fun a => match spaceOf a with
        | .pcie _ => true
        | _ => false) = some u → u.pa = some pa → spaceOf pa = .pcie port →
      exec (.pcieCompletionTimeout key op) s = .next ((s.land key l [] 0).lateTrap key 0x2B l.pc (l.record { g4 := u.va }))) ∧
    (∀ o port, l.act = .offer o → o.owner = none → o.reply = none → spaceOf o.pa = .pcie port →
      exec (.pcieCompletionTimeout key op) s = .next
        (if o.nt then s.land key l (Claim.replied { kind := 2, cause := 0x2B }).1 0
         else (s.land key l [] 0).lateTrap key 0x2B l.pc (l.record { g4 := o.va })))) ∧
  (∀ (s : State) (key op : Nat) (t : Task) (l : LongOp) (h : Word) (d : Line) (scope : Scope) (y : Actor),
    s.longOp? key op = some (t, l) → l.act = .sendt h d scope → l.vals = [] → t.sending h op = false →
    let a := field h.toNat 23 8
    let n := h.toNat % 8
    let x : Item := { data := d, scope := scope, sender := t.sys.tid, sent := some (key, op) }
    let answered (s : State) (vals : List Line) : State :=
      s.onTask key fun t => { t with long := t.long.map fun l => if l.op = op then { l with vals := vals } else l }
    s.actor? t.launch a = some y →
    (y.state = .exited →
      exec (.actorMessageArrival key op) s = .next (answered (s.deadLetter t.launch (fifoHandle a n) x) [2, 0])) ∧
    (∀ q, y.state ≠ .exited → y.ins[n]? = some q → q.cap ≤ q.items.length →
      exec (.actorMessageArrival key op) s = .next (answered s [1, 0])) ∧
    (∀ q, y.state ≠ .exited → y.ins[n]? = some q → q.items.length < q.cap →
      exec (.actorMessageArrival key op) s = .next (answered (s.deliver t.launch a n x).2 [0, 1]) ∧
      ∃ z q', (s.deliver t.launch a n x).2.actor? t.launch a = some z ∧ z.ins[n]? = some q' ∧ q'.items = q.items ++ [{ x with since := s.dev.cycle }]))

/-- Long ops arrive and land: results, offers, full/empty waiters, message status and time-outs (spec/03_encoding.md R71,
spec/09_memory_offers.md R158, R162, R176). -/
def Obligations.LongOpsArriveAndLand : Prop :=
  Claim.LandingWritesItsRegisters ∧ Claim.LongResultsArrive ∧ Claim.OffersAreAnswered ∧ Claim.WaitersAreServed

/-! ### Events of memory and of the engines beside it (spec/09_memory_offers.md R151 to R180, spec/13_traps.md R225 to R227) -/

namespace Sys2Proof.Machine

/-- A byte of memory once the dirty bytes of a copy of a line have gone home. -/
def Claim.sentHome (s : State) (line : Nat) (c : CLine) (pa : Nat) : Nat :=
  if lineAt pa = line ∧ c.dirty.getLsbD (pa % 64) = true then sliceLine c.data (pa % 64) 1 else s.byteAt pa

/-- A byte as the cores of a die see it beyond their L1: at its home on this die, in the die's RDC slice elsewhere. -/
def Claim.dieByte (s : State) (die pa : Nat) : Nat := sliceLine (s.dieRead die pa).1 (pa % 64) 1

/-- A range of bytes changes, and no other byte of memory. -/
def Claim.Overwritten (before after : Nat → Nat) (pa : Nat) (bs : List Byte) : Prop :=
  ∀ q, after q = if pa ≤ q ∧ q < pa + bs.length then (bs.getD (q - pa) 0).toNat else before q

end Sys2Proof.Machine

/-- STORE_RESOLVE (spec/13_traps.md R225, R226): a store behind an acquire or an earlier access to its bytes, or on a held
line, waits;
one to the core's own local store that an acquire held is performed there; one that
does not translate is recorded in its core's store-fault queue and leaves, unless a piece of it was performed, which keeps the translation
it had then; one to a page that is not resident starts its service
and waits; every other is performed and leaves, and `stf` and `clrf` set and clear the full bit of their word. -/
def Sys2Proof.Machine.Claim.StoresResolve : Prop :=
  ∀ (s : State) (key : Nat) (t : Task) (st : Store), s.task? key = some t →
    t.stores.find? (fun x => x.op == st.op) = some st →
    let i := Instr.storeResolve key st.op
    let core := t.sched.core
    let free := st.early t = false ∧ st.ls = none ∧ st.found = none
    (st.early t = true → exec i s = .next s) ∧
    (∀ off, st.early t = false → st.ls = some off → exec i s = .next ((match st.kind with
      | .stf => (s.lsWrite core off st.data).lsSetFull core off true
      | .clrf => s.lsSetFull core off false
      | _ => s.lsWrite core off st.data).dropStore key st.op)) ∧
    (∀ c, st.early t = false → st.ls = none → st.found = some c →
      exec i s = .next ((s.recordFault key st c).dropStore key st.op)) ∧
    (free → match s.placeStore t st with
      | (.fault c, _, f) => exec i s = .next ((f.recordFault key st c).dropStore key st.op)
      | (.wait, _, _) => exec i s = .next s
      | (.storage at_ p, _, f) => exec i s = .next
          (if st.waits then s else (f.requestService (f.corePart core) at_ p (.store key st.op)).onTask key fun t =>
            { t with stores := t.stores.map fun x => if x.op = st.op then { x with waits := true } else x })
      | (.ok _ _, ps, f) =>
        let pa := (ps.head?.map fun q => q.1).getD 0
        ((∃ q ∈ ps, f.heldLine q.1 = true) → exec i s = .next s) ∧
        ((∀ q ∈ ps, f.heldLine q.1 = false) →
          (st.kind = .plain ∨ st.kind = .lane → exec i s = .next (((ps.zipIdx.filter fun q => !st.done.contains q.2).foldl
            (fun f q => f.writeUnit key st.op core st.scope q.1.2.1 q.1.1 q.1.2.2) f).dropStore key st.op)) ∧
          (st.kind = .stf ∨ st.kind = .clrf →
            (homeDie pa = dieOf core → t.strongWait st.op .fill = true → exec i s = .next s) ∧
            (homeDie pa ≠ dieOf core ∨ t.strongWait st.op .fill = false → Claim.Gives i s fun w =>
              w.isFull pa = decide (st.kind = .stf) ∧
              w = (((if st.kind = .stf then
                      (f.atHome core pa).homeWrite pa (placeLine (ofBytes st.data) (pa % 64) st.data.length)
                        (maskOf (pa % 64) st.data.length)
                    else (f.atHome core pa).markWritten pa).setFull pa (st.kind == .stf)).dropStore key st.op))))) ∧
    (st.places = [] → let r := s.reachAll t (st.ask t) st.va st.bytes.length (storePieces st.unit st.va.toNat st.bytes)
      s.placeStore t st = (r.1.1, r.1.2.map (fun q => (q.1, Pte.uncached q.2.1, q.2.2)), r.2)) ∧
    (st.places ≠ [] → ∃ pa p, s.placeStore t st =
      (.ok pa p, (st.places.zip (storePieces st.unit st.va.toNat st.bytes)).map (fun e => (e.1.1, e.1.2, e.2.2)), s)) ∧
    (free → st.kind = .plain → st.done = [] → st.places = [] → 0 < st.data.length → st.data.length ≤ 8 → ∀ pa p f,
      s.reach t (st.ask t) st.va st.data.length = (.ok pa p, f) → f.heldLine pa = false → spaceOf pa = .dram →
      f.pageState pa = .shared → pa % 64 + st.data.length ≤ 64 →
      let wide := st.scope = .device ∨ st.scope = .system
      (f.mem.l2.length < l2Room → homeDie pa = dieOf core ∨ Pte.uncached p = true ∨
          (wide ∧ f.mem.rdc.find? (rdcKey (dieOf core) (lineAt pa)) = none) →
        Claim.Gives i s fun w => Claim.Overwritten f.byteAt w.byteAt pa st.data ∧
          (w.task? key).map Task.stores = some (t.stores.filter fun x => x.op != st.op)) ∧
      (f.mem.rdc.length < rdcRoom → homeDie pa ≠ dieOf core → Pte.uncached p = false → ¬wide → Claim.Gives i s fun w =>
        Claim.Overwritten (Claim.dieByte f (dieOf core)) (Claim.dieByte w (dieOf core)) pa st.data ∧
        ∀ q, w.byteAt q = f.byteAt q)) ∧
    (t.sched.dying.isSome = true ∨ t.sched.killed = true → ∀ c, s.recordFault key st c = s) ∧
    (∀ c, t.sched.dying = none → t.sched.killed = false →
      let r : FaultRec := { va := st.va, pc := st.pc, tid := t.sys.tid, grps := t.sys.grps, cause := c, kind := st.kind,
                            lane := st.lane, data := st.data }
      let w := s.recordFault key st c
      ((s.core core).sfq.length < 16 → (w.core core).sfq = (s.core core).sfq ++ [r] ∧ (w.core core).sfqLost = (s.core core).sfqLost ∧
        w.task? key = some { t with faulted := t.faulted ++ [st.dist] }) ∧
      (16 ≤ (s.core core).sfq.length → (w.core core).sfq = (s.core core).sfq ∧
        (w.core core).sfqLost = min 255 ((s.core core).sfqLost + 1) ∧
        w.task? key = some { t with faulted := t.faulted ++ [st.dist], lost := true }))

/-- PAGE_RECALL (spec/09_memory_offers.md R154, spec/10_offers_notes.md R186): the oldest access under way that starts the
recall of a
private page is performed with it. A recall sends the dirty bytes of the page home that the RDC slice of the private core's die holds,
then those of the core's L1; the core keeps no copy of the page, the RDC slices of its die and of the requester's keep none that is
clean, and the page is shared. RDC_WRITE_THROUGH (R156): the dirty bytes of an
RDC line go home, and the line is dropped; those of a leased line stay, and only they. LEASE_EXPIRY (R180): entries whose lease has
run out are removed. -/
def Sys2Proof.Machine.Claim.CopiesGoHome : Prop :=
  (∀ (s : State) (page n : Nat), s.mem.page.get .unowned page = .priv n →
    let starts (x : Nat × (State → State)) : Prop := (x.2 s).mem.page.get .unowned page ≠ .priv n
    ((∀ x ∈ s.underWay, ¬starts x) → exec (.pageRecall page) s = .next s) ∧
    (∀ x ∈ s.underWay, starts x → (∀ y ∈ s.underWay, y.1 ≤ x.1 → starts y → y.2 s = x.2 s) →
      exec (.pageRecall page) s = .next (x.2 s)) ∧
    (∀ d : Option Nat, let w := s.recall page d
      w.mem.page.get .unowned page = .shared ∧
      ∀ e ∈ dieOf n :: d.toList, ∀ pa c, pa < 2 ^ 40 → pageAt pa = page →
        w.mem.rdc.find? (rdcKey e (lineAt pa)) = some c → c.valid = c.dirty) ∧
    ((∀ e ∈ s.mem.l1, e.1 % 64 = 0) → (∀ e ∈ s.mem.rdc, e.1 % 64 = 0) →
      s.mem.l2.length + (s.rdcLines (dieOf n)).length + (s.l1Lines n).length ≤ l2Room →
      let u := s.rdcDropPage page (dieOf n)
      let w := s.recall page none
      w = { s with mem := w.mem } ∧ w.mem.ls = s.mem.ls ∧ w.mem.page.get .unowned page = .shared ∧
      (∀ q, q ≠ page → w.mem.page.get .unowned q = s.mem.page.get .unowned q) ∧
      ∀ pa, pa < 2 ^ 40 →
        (pageAt pa = page → w.mem.l1.find? (l1Key n (lineAt pa)) = none) ∧
        (w.byteAt pa = match s.mem.l1.find? (l1Key n (lineAt pa)) with
          | some c => if pageAt pa = page then Claim.sentHome u (lineAt pa) c pa else u.byteAt pa
          | none => u.byteAt pa) ∧
        u.byteAt pa = match s.mem.rdc.find? (rdcKey (dieOf n) (lineAt pa)) with
          | some c => if pageAt pa = page ∧ s.leased (lineAt pa) = false then Claim.sentHome s (lineAt pa) c pa else s.byteAt pa
          | none => s.byteAt pa)) ∧
  (∀ (s : State) (die line : Nat), line % 64 = 0 →
    (s.leased line = false → s.mem.l2.length < l2Room →
      Claim.Gives (.rdcWriteThrough die line) s fun w => w = { s with mem := w.mem } ∧
        w.mem.rdc.find? (rdcKey die line) = none ∧ w.mem.l1 = s.mem.l1 ∧ w.mem.ls = s.mem.ls ∧
        ∀ pa, w.byteAt pa = match s.mem.rdc.find? (rdcKey die line) with
          | some c => Claim.sentHome s line c pa
          | none => s.byteAt pa) ∧
    (∀ c, s.leased line = true → s.mem.rdc.find? (rdcKey die line) = some c →
      Claim.Gives (.rdcWriteThrough die line) s fun w => w = { s with mem := { s.mem with rdc := w.mem.rdc } } ∧
        w.mem.rdc.find? (rdcKey die line) = if c.dirty = 0 then none else some { c with valid := c.dirty })) ∧
  (∀ (s : State) (line : Nat), Claim.Gives (.leaseExpiry line) s fun w =>
    w = { s with mem := { s.mem with decl := w.mem.decl } } ∧
    (∀ k, k ≠ s.declKey line → w.mem.decl.get {} k = s.mem.decl.get {} k) ∧
    w.mem.decl.get {} (s.declKey line) = { s.mem.decl.get {} (s.declKey line) with
      entries := (s.mem.decl.get {} (s.declKey line)).entries.filter fun e =>
        !(lineAt e.address == lineAt line && e.lease.any fun ends => decide (ends ≤ s.dev.cycle)) })

/-- GUARD_GRANT (spec/09_memory_offers.md R171): the oldest request of a guard object is granted when it can be: an exclusive
one sets
W and HOLDER, a shared one counts in RDRS; the reply carries PHASE to a task, a launch or a host port, and that of a guard without
ranges waits for the loads before it. SEAL_NOTICE
(spec/11_ordering_sync.md R197): notices that stay unacknowledged for 2^20 cycles are reported, and the `seal` traps 0x2A. -/
def Sys2Proof.Machine.Claim.GuardsAreGrantedInOrder : Prop :=
  (∀ (s : State) (pa : Nat), s.guardReady pa = false → exec (.guardGrant pa) s = .next s) ∧
  (∀ (s : State) (pa : Nat) (r : GuardReq) (rest : List GuardReq), s.mem.guards.get [] pa = r :: rest → s.guardReady pa = true →
    let g := (s.guardRead (s.guardCore r.who) pa).1
    let w := s.guardGrant pa
    (g.rdrs < 32767 → (∀ n, s.pageState pa ≠ .priv n) →
      w.mem.guards.get [] pa = rest ∧ (w.guardRead none pa).1 =
        if r.shared = true then { g with rdrs := g.rdrs + 1 } else { g with w := true, holder := r.holder }) ∧
    (∀ k op t l sh scope a phase refused, r.who = .task k op → w.longOp? k op = some (t, l) →
      l.act = .guard sh scope a (some phase) refused →
      exec (.guardGrant pa) s = .next
        (if w.grantWaits t l.op ((l.vals.headD 0).setWidth 64) a then w
         else (w.grantDrops t ((l.vals.headD 0).setWidth 64) a scope).land k l [phase.setWidth 512] 0)) ∧
    (∀ n l, r.who = .launch n → s.launch? n = some l → exec (.guardGrant pa) s = .next w ∧
      w.launch? n = some { l with phase := if l.failed.isSome then .finishing else .running }) ∧
    (∀ b, r.who = .host b → exec (.guardGrant pa) s = .next w ∧
      w.dev.host.get {} b = { s.dev.host.get {} b with gdone := true, gerr := 0, phase := g.phase })) ∧
  (∀ (s : State) (key : Nat) (t : Task) (since : Nat), s.task? key = some t → t.sched.sealSince = some since →
    (s.dev.cycle < since + 2 ^ 20 ∨ s.dev.notices = [] → exec (.sealNotice key) s = .next s) ∧
    (since + 2 ^ 20 ≤ s.dev.cycle → s.dev.notices ≠ [] →
      let u := s.dev.notices.foldl (fun s e => s.ras 3 0x2A 2 e.2 (e.1 * 4096) t.sys.tid) s
      exec (.sealNotice key) s = .next ((({ u with dev := { u.dev with notices := [] } }).onTask key fun t =>
        { t with sched := { t.sched with sealSince := none } }).lateTrap key 0x2A t.pc {})))

/-- COPY_COMPLETION (spec/09_memory_offers.md R164 to R167): a copy that has moved its bytes, or has stopped at a fault,
leaves the
engine; its fault is recorded and its tag completes, with the arrival that it owes, which is a release at its scope and waits for the
older writes of its task and while its core holds 256 arrivals (spec/11_ordering_sync.md R201, R204). A row within local store carries exactly its bytes.
At system scope it waits for the far side's acknowledgements (R165). That its tag completes with the arrival is read from the spec by
inference, log entry 44.
INDEX_ELEMENT (spec/17_edge.md R298 to R301), whose addresses wrap modulo 2^64 (an inference, log entry 32): the next element of a job is gathered or updated in place; an index at or beyond the
limit ends the job with 0x5A and the address; the last element ends it as complete. -/
def Sys2Proof.Machine.Claim.CopiesAndJobsMove : Prop :=
  (∀ (s : State) (core : Nat) (c : Copy), (s.core core).copies.find? (fun x => x.op == c.op) = some c →
    let i := Instr.copyCompletion core c.op
    let settled (s : State) (fault : Option CopyFault) : State :=
      let u := s.onCore core fun k => { k with copies := k.copies.filter fun x => x.op != c.op }
      ((match fault with
        | some f => u.onTask c.task fun t => { t with copyFaults := t.copyFaults.put c.tag f }
        | none => u).engineLeaves c.op).completeTag c.task c.tag
    let unacked := c.scope = .system ∧ (c.task, c.op) ∈ s.dev.unacked
    (c.fault = none → c.rows ≤ c.row → unacked → exec i s = .next s) ∧
    (c.fault.isSome = true ∨ (c.rows ≤ c.row ∧ c.arrive = none ∧ ¬unacked) → exec i s = .next (settled s c.fault)) ∧
    (∀ g, c.fault = none → c.rows ≤ c.row → c.arrive = some g → ¬unacked →
      ((s.task? c.task).all (fun t => t.sched.dying.isSome) = true → exec i s = .next (settled s none)) ∧
      (∀ t, s.task? c.task = some t → t.sched.dying = none →
        let u := if 3 ≤ Scope.rank c.scope then s.writeThroughAll (dieOf core) else s
        let member := (s.launch? c.launch).any fun l => (l.groups[g]?).any fun x => l.hasMember x core
        (member = false → exec i s = .next (settled s (some { va := 0, cause := 0x60 }))) ∧
        (member = true → u.writesOut c.task c.scope c.op = true ∨ u.arrivalFull c.launch g core = true → exec i s = .next u) ∧
        (member = true → u.writesOut c.task c.scope c.op = false → u.arrivalFull c.launch g core = false →
          exec i s = .next
          (settled (u.arrive c.launch g core (((u.task? c.task).map fun t => if t.kind = .launched then some t.team else none).getD none)).2 none)))) ∧
    (∀ t a b, ¬unacked → c.fault = none → c.rows = 1 → c.row = 0 → c.pos = 0 → c.got = [] → c.arrive = none → c.versioned = false →
      s.task? c.task = some t → t.cached = allLines48 → t.versioned = false → t.sched.core = core → t.acquiring c.op = false →
      (∀ x ∈ t.stores, c.op ≤ x.op) → windowFor core c.src = .ls a → windowFor core c.dst = .ls b → 0 < c.rowBytes →
      a % 64 + c.rowBytes ≤ 64 → b + c.rowBytes ≤ 2 ^ 19 →
      Claim.Gives i s fun w =>
        (∀ n k, k < 2 ^ 19 → w.localByte n k =
          if n = core ∧ b ≤ k ∧ k < b + c.rowBytes then s.localByte core (a + (k - b)) else s.localByte n k) ∧
        (∀ pa, w.byteAt pa = s.byteAt pa) ∧ (w.core core).copies = (s.core core).copies.filter (fun x => x.op != c.op) ∧
        ∃ u, w.task? c.task = some u ∧ u.tagCount.get 0 c.tag = t.tagCount.get 0 c.tag - 1 ∧
          u.sys.tags = if t.tagCount.get 0 c.tag ≤ 1 then t.sys.tags ||| BitVec.twoPow 64 c.tag else t.sys.tags)) ∧
  (∀ (s : State) (cl : Nat) (j : IJob) (t : Task), (s.cluster cl).jobs.find? (fun x => x.op == j.op) = some j →
    s.task? j.task = some t →
    let i := Instr.indexElement cl j.op
    let n : Nat := 2 ^ j.esz
    let x := s.jobIndex j
    let va := j.base + BitVec.ofInt 64 (x * (n : Int))
    let at_ := j.data + n * j.cursor
    let value (old : Nat) := scatterValue j.opc (8 * n) old (s.lsRead j.core at_ n)
    let waits := t.loadsHeld j.op = true ∨ ∃ x ∈ t.stores, x.op < j.op
    (waits → exec i s = .next s) ∧
    (¬waits → j.n ≤ j.cursor → exec i s = .next (s.endJob j j.n 2 0 none)) ∧
    (¬waits → j.cursor < j.n → j.limit ≠ 0 → (j.limit : Int) ≤ x → exec i s = .next (s.endJob j j.cursor 3 0x5A (some va))) ∧
    (¬waits → j.cursor < j.n → (j.limit = 0 ∨ x < j.limit) →
      (∀ off, windowFor j.core va = .ls off → exec i s = .next
        ((if j.scatter then s.lsWrite j.core off (toBytes n (value (s.lsRead j.core off n)))
          else s.lsEngineWrite j.core at_ (toBytes n (s.lsRead j.core off n))).jobNext j)) ∧
      (∀ owner off, windowFor j.core va = .dls owner off →
        (∀ c, s.ownerFault j.core owner = some c → exec i s = .next (s.endJob j j.cursor 3 c (some va))) ∧
        (s.ownerFault j.core owner = none → exec i s = .next
          ((if j.scatter then s.lsWrite owner off (toBytes n (value (s.lsRead owner off n)))
            else s.lsEngineWrite j.core at_ (toBytes n (s.lsRead owner off n))).jobNext j)))) ∧
    (s.jobNext j = if j.n ≤ j.cursor + 1 then s.endJob j j.n 2 0 none else (s.engineLeaves j.op).onCluster (clusterOf j.core) fun c =>
      { c with jobs := c.jobs.map fun x => if x.op = j.op then { x with cursor := x.cursor + 1 } else x }) ∧
    (∀ cursor state cause fva, j.offset + 64 ≤ 2 ^ 19 →
      let w := s.endJob j cursor state cause fva
      w.lsRead j.core (j.offset + 24) 8 = j.word cursor state cause % 2 ^ 64 ∧
      (∀ a, fva = some a → w.lsRead j.core (j.offset + 32) 8 = a.toNat) ∧
      (w.cluster (clusterOf j.core)).jobs = (s.cluster (clusterOf j.core)).jobs.filter fun x => x.op != j.op))

/-- FETCH_PARITY_REFETCH (spec/03_encoding.md R52): a cached instruction line whose parity fails is reported, dropped and
fetched once
more, from L2 or memory; while the line is held at its home that second reading is owed. PARITY_REPLAY (spec/05_scalar.md R88, R89): a register of an issuing task whose parity fails takes its value
again from the operand log, 3 cycles later, or with its line from the frame pool where the line is clean; otherwise the task traps
0x70, and a word that fails again for the same instruction withdraws the core. -/
def Sys2Proof.Machine.Claim.ParityErrorsAreMended : Prop :=
  (∀ (s : State) (core line : Nat),
    let k := icKey core (lineAt line)
    let u := (s.ras 0 0x71 0 core (lineAt line) s.t.sys.tid).onMem fun m => { m with ic := m.ic.erase k }
    (s.mem.ic.find? k = none → exec (.fetchParityRefetch core line) s = .next s) ∧
    (∀ l, s.mem.ic.find? k = some l →
      (u.heldLine line = true → exec (.fetchParityRefetch core line) s =
        .next { u with mem := { u.mem with icAgain := k :: u.mem.icAgain } }) ∧
      (u.heldLine line = false → Claim.Gives (.fetchParityRefetch core line) s fun w =>
        w = { u with mem := w.mem, free := w.free } ∧ w.mem.ic.find? k = some (u.homeRead line).1 ∧
        (u.mem.l2.length < l2Room → ∀ pa, w.byteAt pa = u.byteAt pa)))) ∧
  (∀ (s : State) (key : Nat) (x : Reg) (t : Task), s.task? key = some t →
    let i := Instr.parityReplay key x
    let core := t.sched.core
    let ws := Reg.frameWords x
    let u := s.onTask key fun t => { t with bad := t.bad ++ ws.filter fun w => !t.bad.contains w }
    let hit := t.sched.status = .issuing ∧ t.sched.slot ≠ none ∧ t.sched.dying = none ∧ t.regs.pending x = false ∧ x.hardwired = false
    let first := ∀ w ∈ ws, w ∉ t.recovered
    let lost (s : State) (cause : Nat) : State := (s.ras 0 0x70 2 core 0 t.sys.tid).trapTask key cause t.pc {}
    (¬hit → exec i s = .next s) ∧
    (hit → ¬first → ∃ t', u.task? key = some t' ∧ exec i s = .next (u.coreError core 0x70 0 (some (key, t')) true)) ∧
    (hit → first → ∀ v, s.logged core key x = some v → Claim.Gives i s fun w =>
      w = { s with t := w.t, tasks := w.tasks, mem := w.mem, dev := w.dev } ∧ (∀ k, k ≠ key → w.task? k = s.task? k) ∧
      w.task? key = some { t with
        regs := t.regs.write x v, bad := t.bad.filter fun w => !ws.contains w, recovered := ws ++ t.recovered
        sched := { t.sched with ableAt := s.dev.cycle + 3 } }) ∧
    (hit → first → s.logged core key x = none → t.lineClean x = false → exec i s = .next (lost u 0x70)) ∧
    (hit → first → s.logged core key x = none → t.lineClean x = true →
      (∀ f, u.area core t.mapEntry 0 = (none, f) → exec i s = .next (lost f (f.noArea core t.mapEntry))) ∧
      (∀ frame f c, u.area core t.mapEntry 0 = (some frame, f) → f.lostAt (frame + 64 * Reg.frameLine x) = some c →
        exec i s = .next (lost f c)) ∧
      (∀ frame f, u.area core t.mapEntry 0 = (some frame, f) → f.lostAt (frame + 64 * Reg.frameLine x) = none → s.mem.poisonWords = [] → Claim.Gives i s fun w =>
        let n := Reg.frameLine x
        let v := t.loadLine n (f.outerRead (frame + 64 * n)).1
        w.task? key = some { v with
          pc := t.pc, regs := { v.regs with pend := t.regs.pend }, bad := t.bad.filter fun w => w / 16 != n
          recovered := ws ++ t.recovered, sched := { t.sched with ableAt := s.dev.cycle + 1 } } ∧
        ∀ k, k ≠ key → w.task? k = s.task? k)))

/-- Events of memory and of the engines beside it: stores, recalls, guards, copies, index jobs and parity
(spec/09_memory_offers.md R151 to R180, spec/13_traps.md R225). -/
def Obligations.MemoryEventsComplete : Prop :=
  Claim.StoresResolve ∧ Claim.CopiesGoHome ∧ Claim.GuardsAreGrantedInOrder ∧ Claim.CopiesAndJobsMove ∧ Claim.ParityErrorsAreMended

/-! ### Events of scheduling, teams, actors and handlers (spec/01_machine.md R24 to R48, spec/13_traps.md R219 to R241, spec/21_launch_storage.md R330 to R332) -/

namespace Sys2Proof.Machine

/-- The cores that could issue next: the slot holds a task that can issue. -/
def Claim.ableSlot (s : State) (core i : Nat) : Bool := (s.slotTask core i).any fun e => s.canIssue e.2

/-- A task as it leaves its slot for the run queue (spec/01_machine.md R41): it keeps everything, a wait included. -/
def Claim.preempted (t : Task) : Task :=
  { t with view := none, sched := { t.sched with status := .ready, slot := none, heldAt := none, level := t.sys.prio } }

/-- The FIFO items of an actor as they are written to its image. -/
def Claim.imaged (s : State) (launch : Nat) (x : Actor) : State :=
  let fs := x.ins ++ x.outs
  (List.range fs.length).foldl (fun s k => match fs[k]? with
    | some f => (List.range f.items.length).foldl (fun s i =>
        s.imageItem launch x.image (imageOffset fs k) i ((f.items[i]?.map Item.data).getD 0)) s
    | none => s) s

/-- The FIFO items of an actor as they come back to its core's local store, from the first place on. -/
def Claim.unimaged (s : State) (x : Actor) : State :=
  (x.ins ++ x.outs).foldl (fun s f =>
    (List.range f.items.length).foldl (fun s i => s.putItem x.core { f with head := 0 } i ((f.items[i]?.map Item.data).getD 0)) s) s

end Sys2Proof.Machine

/-- ISSUE_CYCLE (spec/01_machine.md R24, R25, R29): a victim of ageing that waits gives up its slot (R30), free slots are
filled, and the core issues from slot 7 first, then in turn from
the slot after the one that issued last; where no slot can issue, only the slots are filled. An undisturbed task's instruction,
unpaired and with nothing to wait for, is chosen as it is decoded. A core that has issued in this cycle does nothing more. The
run queue gives a slot to a task that has waited 4096 cycles, the longest wait first, else to one of the most urgent level. -/
def Sys2Proof.Machine.Claim.IssueChoosesASlot : Prop :=
  (∀ (s : State) (core : Nat),
    let i := Instr.issueCycle core
    let free := core < 4096 ∧ (s.core core).withdrawn = false ∧ (s.core core).issuedAt ≠ some s.dev.cycle ∧ s.dev.stage = 2
    let u := (s.ageWaiting core).fillSlots core 6
    (¬free → exec i s = .next s) ∧
    (free → u.chooseSlot core = none → exec i s = .next u) ∧
    (free → ∀ k slot f l j, u.chooseSlot core = some (k, slot) →
      let v := (u.focus k).onT fun t => { t with sched := { t.sched with heldAt := none } }
      v.Undisturbed → v.fetchLine v.t.sched.core (v.rootOf v.t) v.t.isHandler v.t.pc = (.line l, f) → lineReserved l = 0 →
      decode (slotWord l (v.t.pc.toNat % 8)) = .ok j → pairsAt (linePair l) (v.t.pc.toNat % 8) = false → f.t = v.t →
      f.t.clearFor [j] = true → f.t.failing [j] = none → f.t.failingWords [j] = none →
      exec i s = .next { f.issuedFrom core slot with plan := [j] })) ∧
  (∀ (s : State) (core k i : Nat), s.chooseSlot core = some (k, i) →
    Claim.ableSlot s core i = true ∧ (s.slotTask core i).map Prod.fst = some k ∧ i < 8 ∧
    (Claim.ableSlot s core 7 = true → i = 7) ∧
    (Claim.ableSlot s core 7 = false → ∀ n < 8,
      (∀ m ≤ n, ((s.core core).last + 1 + m) % 8 ≠ i) → Claim.ableSlot s core (((s.core core).last + 1 + n) % 8) = false)) ∧
  (∀ (s : State) (core k : Nat) (t : Task), s.runChoice core = some (k, t) →
    let able := s.waitingOn core
    let aged := able.filter fun e => e.2.aged s.dev.cycle
    (k, t) ∈ able ∧ (aged ≠ [] → (k, t) ∈ aged ∧ ∀ e ∈ aged, t.sched.entryTime ≤ e.2.sched.entryTime) ∧
    (aged = [] → ∀ e ∈ able, t.sched.level.toNat ≤ e.2.sched.level.toNat))

/-- AGE_LIMIT_EXPIRY (spec/01_machine.md R30): where no slot is free and a task has waited 4096 cycles, a slot task is
pre-empted, a
parked one first, but not between the two of a pair; it keeps its registers, its wait and its frame. FOOTPRINT_FILL (spec/21_launch_storage.md R331): the footprints
are read and written to local store and the task becomes ready; a fault terminates it with its cause. -/
def Sys2Proof.Machine.Claim.AgeingAndFootprints : Prop :=
  (∀ (s : State) (core : Nat),
    let due := s.freeSlot core = none ∧ ∃ e ∈ s.waitingOn core, e.2.aged s.dev.cycle = true
    let i := Instr.ageLimitExpiry core
    (¬due → exec i s = .next s) ∧ (due → s.victim core = none → exec i s = .next s) ∧
    (due → ∀ k t, s.victim core = some (k, t) → exec i s = .next (if t.view.isNone then s.preempt k else s) ∧ t.sched.core = core ∧ t.handler = false ∧
      (∃ n < 6, t.sched.slot = some n) ∧ (t.sched.status = .issuing ∨ t.sched.status = .parked) ∧
      (t.sched.status = .issuing → ∀ e ∈ s.allTasks, e.2.sched.core = core → e.2.sched.status = .parked → e.2.handler = false →
        e.2.sched.dying = none → ∀ n < 6, e.2.sched.slot ≠ some n))) ∧
  (∀ (s : State) (k : Nat) (t : Task), s.task? k = some t →
    (s.preempt k).task? k = some (Claim.preempted t) ∧ (∀ n, n ≠ k → (s.preempt k).task? n = s.task? n) ∧
    (s.preempt k).mem = s.mem) ∧
  (∀ (s : State) (k : Nat) (t : Task) (l : Launch), s.task? k = some t → s.launch? t.launch = some l → t.sched.status = .queued →
    t.sched.dying = none → s.packed t.launch t.team = false →
    (∀ f, s.readFeet (l.viaTask k) t.foot = (.wait, f) → exec (.footprintFill k) s = .next (s.retryLater f)) ∧
    (∀ c va f, s.readFeet (l.viaTask k) t.foot = (.fault c va, f) → exec (.footprintFill k) s = .next (f.terminate k c false)) ∧
    (∀ xs f, s.readFeet (l.viaTask k) t.foot = (.ok xs, f) →
      let v := xs.foldl (fun f x => f.lsEngineWrite t.sched.core x.1 x.2) f
      exec (.footprintFill k) s = .next (v.onTask k fun t =>
        { t with filled := true, sched := { t.sched with status := .ready, entryTime := v.dev.cycle, level := t.sys.prio
                                                         ableAt := v.dev.cycle + 1 } })))

/-- TASK_DISPATCH (spec/21_launch_storage.md R329 to R332): teams that wait are formed where a die has a free slot, then the
first
task that a core of the die can take is created there. A created task takes the lowest free run-queue entry of its core, a
TASKID of its own (spec/05_scalar.md R85), and starts with its registers and nothing else set; for a launch without dependences, whose
flushes could be owed, memory stays. While a lease keeps such a flush from being made (R200), no task is created on the die. -/
def Sys2Proof.Machine.Claim.TasksAreDispatched : Prop :=
  (∀ (s : State) (die : Nat),
    let v := s.dispatchOrder.foldl (fun s e => s.formTeams e.1 (List.range e.2.record.nteam)) s
    let next := List.findSome? (fun (e : Nat × Launch) => (v.nextTask e.1 e.2 die).map fun x => (e.1, e.2, x.1, x.2)) v.dispatchOrder
    (s.dieUp die = false → exec (.taskDispatch die) s = .next s) ∧
    (s.dieUp die = true → next = none → exec (.taskDispatch die) s = .next v) ∧
    (s.dieUp die = true → ∀ id l i core, next = some (id, l, i, core) → exec (.taskDispatch die) s = .next (v.birthTask id l i core))) ∧
  (∀ (s : State) (b : Birth),
    let serial := (s.core b.core).serial.get 0 b.launch
    let tid := taskId b.launch b.core b.kind.code serial
    let entry := if b.kind = .delegated then some 256 else s.freeEntry b.core
    let held := s.owedBlocked b.launch (dieOf b.core)
    (entry = none ∨ held = true ∨ (∃ e ∈ s.allTasks, e.2.sys.tid = tid) → s.create b = none) ∧
    let independent := ∀ l, s.launch? b.launch = some l → l.record.dep0 = none ∧ l.record.dep1 = none
    (∀ e, entry = some e → held = false → (∀ x ∈ s.allTasks, x.2.sys.tid ≠ tid) → ∃ v : State, ∃ t : Task,
      s.create b = some (tid.toNat, v) ∧ v.task? tid.toNat = some t ∧ (independent → v.mem = s.mem) ∧ t.regs = b.regs ∧ t.pc = b.entry ∧
      t.sys.tid = tid ∧ t.sys.prio = b.prio ∧ t.sys.frmode = b.frmode ∧ t.sys.flags = 0 ∧ t.sys.tags = 0 ∧ t.sys.cause = 0 ∧
      t.sched.core = b.core ∧ t.sched.entry = e ∧ t.sched.slot = none ∧ t.sched.entryTime = s.dev.cycle ∧
      t.sched.status = (if b.foot = [] then .ready else .queued) ∧ t.versioned = b.versioned ∧ t.handler = b.handler ∧
      ∀ l, independent → s.launch? b.launch = some l → ∃ m, v.launch? b.launch = some m ∧ m.liveTasks = l.liveTasks + 1))

/-- DELEGATION_REQUEST (spec/11_ordering_sync.md R211): the oldest request becomes a server task in slot 6, which begins with
the
acquire of its scope and holds the address, the arguments and the sender's TASKID in g1 to g6; where slot 6 is taken, nothing
happens. -/
def Sys2Proof.Machine.Claim.RequestsAreServed : Prop :=
  (∀ (s : State) (core : Nat),
    let i := Instr.delegationRequest core
    let idle := (s.core core).withdrawn = false ∧ ∀ e ∈ s.allTasks, e.2.serves core = false
    (¬idle ∨ (s.core core).requests = [] → exec i s = .next s) ∧
    (idle → ∀ r c, (s.core core).takeRequest = some (r, c) →
      let b : Birth := { launch := r.launch, core := core, kind := .delegated, entry := r.routine, regs := r.regs, handler := true,
                         request := some r }
      ((s.onCore core fun _ => c).create b = none → exec i s = .next s) ∧
      (∀ k v, (s.onCore core fun _ => c).create b = some (k, v) → exec i s = .next ((v.fenceR core r.scope).takeSlot k 6)))) ∧
  (∀ (c : Core) (r : Request) (rest : List Request), c.requests = r :: rest →
    (c.waiting = [] → c.takeRequest = some (r, { c with requests := rest })) ∧
    (∀ w ws, c.waiting = w :: ws → c.takeRequest = some (r, { c with requests := rest ++ [w], waiting := ws }))) ∧
  (∀ (r : Request),
    r.regs.rg 1 = r.address ∧ r.regs.rg 2 = r.args.getD 0 0 ∧ r.regs.rg 3 = r.args.getD 1 0 ∧ r.regs.rg 4 = r.args.getD 2 0 ∧
    r.regs.rg 5 = r.args.getD 3 0 ∧ r.regs.rg 6 = r.tid ∧ ∀ n : Fin 64, 6 < n.val → r.regs.rg n = 0)

/-- SLOT_ADVERTISEMENT, TEAM_MIGRATION and TEAM_ACCEPT (spec/01_machine.md R43, R44, spec/02_machine_notes.md R48): a die
advertises
its free team slots every 1024 cycles, and who has heard it may offer it a team again; a die above its threshold packs a team
that may move and offers it to the best die; that die takes the team, or refuses it. One packed team for each die, and the map of its
cores, are the model's choice (log entry 43). -/
def Sys2Proof.Machine.Claim.TeamsMove : Prop :=
  (∀ (s : State) (die : Nat),
    let due := die < 4 ∧ s.dieUp die = true ∧ ∀ n at_, (s.die die).advert = some (n, at_) → at_ + 1024 ≤ s.dev.cycle
    (¬due → exec (.slotAdvertisement die) s = .next s) ∧
    (due → Claim.Gives (.slotAdvertisement die) s fun w => w = { s with dies := w.dies } ∧
      (w.die die).advert = some (s.freeTeams die, s.dev.cycle) ∧ ∀ d,
        (w.die d).refused = (s.die d).refused.filter (fun x => x != die) ∧ (w.die d).moving = (s.die d).moving ∧
        (d ≠ die → (w.die d).advert = (s.die d).advert))) ∧
  (∀ (s : State) (die launch team : Nat),
    let may := die < 4 ∧ s.dieUp die = true ∧ (s.die die).migen = true ∧ (s.die die).moving = none ∧
      (s.die die).qthr.toNat < s.occupancy die ∧ s.mayMigrate die launch team = true
    let i := Instr.teamMigration die launch team
    (¬may ∨ s.migrationTarget die = none → exec i s = .next s) ∧
    (may → ∀ d, s.migrationTarget die = some d → exec i s = .next (s.onDie die fun x =>
      { x with moving := some { launch := launch, team := team, target := d } }) ∧
      d ≠ die ∧ d < 4 ∧ s.dieUp d = true ∧ (s.die die).refused.contains d = false)) ∧
  (∀ (s : State) (die : Nat), s.senderTo die = none → exec (.teamAccept die) s = .next s) ∧
  (∀ (s : State) (die d : Nat) (m : Moving), s.senderTo die = some (d, m) →
    let i := Instr.teamAccept die
    let gone := s.onDie d fun x => { x with moving := none }
    let refused := s.onDie d fun x => { x with moving := none, refused := x.refused ++ [die] }
    let tasks := s.teamTasks m.launch m.team
    let sources := sortNats (tasks.map fun e => e.2.sched.core).eraseDups
    (s.launch? m.launch = none → exec i s = .next gone) ∧
    (∀ l, s.launch? m.launch = some l →
      let there := ∃ t, l.teams.find? m.team = some t ∧ t.die = some d
      (¬there → exec i s = .next gone) ∧
      (there → s.dieUp die = false ∨ s.freeTeams die = 0 ∨ s.mapCores l tasks die sources [] = none → exec i s = .next refused) ∧
      (there → s.dieUp die = true → s.freeTeams die ≠ 0 → ∀ map, s.mapCores l tasks die sources [] = some map →
        let owed := tasks ≠ [] ∧ s.owedBlocked m.launch die = true
        (owed → exec i s = .next s) ∧
        (¬owed → exec i s = .next (if s.roomFor l m die tasks map then (s.unpackTeam m die tasks map).onDie d fun x => { x with moving := none }
          else refused)))))

/-- ACTOR_SWAP_OUT, ACTOR_SWAP_IN and HELD_DELIVERY_RETRY (spec/01_machine.md R33 to R36): an actor without a firing, whose
ranges a task
or a swap-in needs and whose last firing ended first, leaves with its items in its image; one whose condition holds comes back when its ranges are free; items held back are delivered in the order in which they were written.
A firing begins where the condition holds, and reserves its output room. That a firing is versioned as its launch is (log entry 20,
DEDUCED), and where the items of a FIFO lie in local store and in an image (log entry 19, DESIGN CHOICE), are the model's. -/
def Sys2Proof.Machine.Claim.ActorsMoveAndFire : Prop :=
  (∀ (s : State) (launch a : Nat) (x : Actor), s.actor? launch a = some x →
    let goes := s.swapWanted launch a x = true ∧ s.swapsFirst x = true
    (¬goes → exec (.actorSwapOut launch a) s = .next s) ∧
    (goes → exec (.actorSwapOut launch a) s =
        .next ((Claim.imaged s launch x).onActor launch a fun x => { x with state := .swapped }) ∧
      x.state = .placed ∧ x.firing = false ∧
      ∀ e ∈ s.launches, ∀ y ∈ e.2.actors, y.2.core = x.core → s.swapWanted e.1 y.1 y.2 = true → x.lastEnd ≤ y.2.lastEnd) ∧
    (s.swapWanted launch a x = true ↔ x.state = .placed ∧ x.firing = false ∧
      (s.taskWants x.core x.ranges = true ∨ ∃ e ∈ s.launches, ∃ y ∈ e.2.actors, (e.1, y.1) ≠ (launch, a) ∧ y.2.core = x.core ∧
        y.2.state = .swapped ∧ y.2.ready = true ∧ anyMeet y.2.ranges x.ranges = true)) ∧
    (¬(x.state = .swapped ∧ x.ready = true ∧ anyMeet x.ranges (s.takenRanges x.core) = false) →
      exec (.actorSwapIn launch a) s = .next s) ∧
    (x.state = .swapped → x.ready = true → anyMeet x.ranges (s.takenRanges x.core) = false → exec (.actorSwapIn launch a) s =
      .next (((Claim.unimaged s x).onActor launch a fun x =>
        { x with state := .placed, ins := x.ins.map fun f => { f with head := 0 }, outs := x.outs.map fun f => { f with head := 0 } }).tryFire
          launch a))) ∧
  (∀ (s : State) (launch a f : Nat),
    exec (.heldDeliveryRetry launch a f) s = .next ((s.retryInto launch a f).tryFire launch a)) ∧
  (∀ (s : State) (launch b f a o : Nat) (x y : Actor) (q : Fifo) (i : Item), s.actor? launch b = some x →
    x.nextHeld (a, f) = some (o, i) →
    (∃ p, x.outs[o]? = some p ∧ p.link = some (a, f) ∧ p.held.head? = some i) ∧
    (∀ (o' : Nat) (p' : Fifo) (i' : Item), x.outs[o']? = some p' → p'.link = some (a, f) → p'.held.head? = some i' → i.order ≤ i'.order) ∧
    (s.actor? launch a = some y → y.state ≠ .exited → y.ins[f]? = some q → q.cap ≤ q.items.length →
      ∀ n, s.deliverHeld launch b (a, f) n = s)) ∧
  (∀ (s : State) (launch a : Nat) (l : Launch) (x : Actor), s.launch? launch = some l → l.actors.find? a = some x →
    let b : Birth := { launch := launch, core := x.core, kind := .firing a, team := x.team, index := x.task, entry := x.routine,
                       prio := x.prio, handler := x.handler, versioned := l.record.vers }
    let fires := x.state = .placed ∧ x.ready = true ∧ l.aborted = false ∧ (s.core x.core).withdrawn = false
    (x.ready = true ↔ x.firing = false ∧ (∀ q ∈ x.ins, q.rate ≤ q.items.length) ∧
      ∀ q ∈ x.outs, q.rate ≤ q.cap - q.unreturned - q.reserved) ∧
    (¬fires ∨ s.create b = none → s.tryFire launch a = s) ∧
    (fires → ∀ k v, s.create b = some (k, v) → s.tryFire launch a = v.onActor launch a fun x =>
      { x with firing := true, outs := x.outs.map fun f => { f with reserved := f.rate, made := [] } }))

/-- HANDLER_ACTIVATION and HANDLER_OVERRUN (spec/13_traps.md R219 to R221): slot 7 takes the oldest entry of the trap queue and
starts at HENTRY with the registers of the activation; without a frame area the subject is terminated with 0x76. An activation
that does not end within 2^20 cycles is a handler fault. That an activation has TASKID 0 is the model's reading (log entry 33, DEDUCED). -/
def Sys2Proof.Machine.Claim.HandlersActivate : Prop :=
  (∀ (s : State) (core : Nat),
    let i := Instr.handlerActivation core
    (((s.core core).trapq = [] ∨ (s.core core).withdrawn = true ∨ ∃ h, s.task? (handlerKey core) = some h) → exec i s = .next s) ∧
    ((s.core core).withdrawn = false → s.task? (handlerKey core) = none → ∀ at_ slot rest, (s.core core).trapq = (at_, slot) :: rest →
      let u := s.onCore core fun c => { c with trapq := rest }
      (u.slotTask core slot = none → exec i s = .next u) ∧
      (∀ k t, u.slotTask core slot = some (k, t) →
        (∀ f, u.area core 257 0 = (none, f) → exec i s = .next ((f.ras 5 0x76 2 core 0 t.sys.tid).endSubject k 0x76 false)) ∧
        (∀ a f, u.area core 257 0 = (some a, f) →
          let h : Task :=
            { regs := activationRegs t (f.faultsOf t).length, sys := { grps := t.sys.grps }, pc := (s.core core).hentry
              kind := .handler k, launch := t.launch, handler := true
              sched := { status := .ready, core := core, entryTime := f.dev.cycle } }
          exec i s = .next (((f.addTask (handlerKey core) h).onCore core fun c =>
            { c with handlerSince := f.dev.cycle }).takeSlot (handlerKey core) 7))))) ∧
  (∀ (t : Task) (n : Nat),
    let r := activationRegs t n
    r.rg 1 = t.sys.tid ∧ field (r.rg 2).toNat 7 0 = t.tr.cause % 256 ∧ field (r.rg 2).toNat 10 8 = t.tr.slot % 8 ∧
    (r.rg 2).getLsbD 11 = t.tr.prec ∧ (r.rg 2).getLsbD 12 = t.tr.vers ∧ (r.rg 2).getLsbD 13 = t.tr.seq ∧
    field (r.rg 2).toNat 31 16 = t.tr.aux.toNat ∧ r.rg 3 = t.sys.trappc ∧ r.rg 4 = t.tr.g4 ∧
    r.rg 5 = (if t.tr.cause = 0x30 ∨ t.tr.cause = 0x31 then BitVec.ofNat 64 n else t.tr.g5) ∧ r.rg 6 = t.sys.grps.setWidth 64 ∧
    ∀ k : Fin 64, 6 < k.val → r.rg k = 0) ∧
  (∀ (s : State) (core : Nat),
    let due := (∃ k, s.subjectOn core = some k) ∧ (s.core core).handlerSince + 2 ^ 20 ≤ s.dev.cycle
    (¬due → exec (.handlerOverrun core) s = .next s) ∧
    (due → exec (.handlerOverrun core) s = .next (s.onTask (handlerKey core) fun h =>
      { h with sched := { h.sched with status := .trapped, wait := none, heldAt := none } })))

/-- DEBUG_HALT and DEBUG_STEP (spec/13_traps.md R223, R234) ask a live task by its TASKID, EVTSET latches the HOST event for
every
task that holds a slot of the core, WFE_TIMEOUT ends a wait whose time has passed, and KILL_COMPLETE (R230, R248) enters all
terminations of a `kill` together and lets the handler go on. -/
def Sys2Proof.Machine.Claim.RequestsFromOutsideLand : Prop :=
  (∀ (s : State) (core : Nat) (tid : BitVec 56) (step : Bool),
    let i := if step then Instr.debugStep core tid else Instr.debugHalt core tid
    let named := s.allTasks.find? fun e => e.2.sys.tid == tid.setWidth 64
    (4096 ≤ core ∨ tid = 0 ∨ named = none → exec i s = .next s) ∧
    (core < 4096 → tid ≠ 0 → ∀ k t, named = some (k, t) → exec i s = .next (s.onTask k fun t =>
      { t with sched := { t.sched with debug := some (if step then .step else .halt) } }))) ∧
  (∀ (s : State) (core : Nat), Claim.Gives (.evtset core) s fun w => w = { s with t := w.t, tasks := w.tasks } ∧
    ∀ k, w.task? k = (s.task? k).map fun t => { t with sched := { t.sched with latch :=
      if t.sched.core = core ∧ t.sched.slot ≠ none ∧ t.live = true then t.sched.latch ||| 0b10000#5 else t.sched.latch } }) ∧
  (∀ (s : State) (k : Nat) (t : Task) (mask : BitVec 5) (d : Nat), s.task? k = some t → t.sched.wait = some (.event mask (some d)) →
    (s.dev.cycle < d → exec (.wfeTimeout k) s = .next s) ∧
    (d ≤ s.dev.cycle → Claim.Gives (.wfeTimeout k) s fun w => (∀ n, n ≠ k → w.task? n = s.task? n) ∧ w.task? k = some
      { t with sched := { t.sched with timedOut := true, wait := none, ableAt := s.dev.cycle + 1
                                       status := if t.sched.status = .parked then .issuing else t.sched.status } })) ∧
  (∀ (s : State) (core : Nat), (s.core core).killing = none → exec (.killComplete core) s = .next s) ∧
  (∀ (s : State) (core : Nat) (op : KillOp), (s.core core).killing = some op →
    let settled := (∀ k ∈ op.waits, s.task? k = none) ∧ ∀ k ∈ op.settles, ∀ t, s.task? k = some t → t.unsettled = false
    (¬settled → exec (.killComplete core) s = .next s) ∧
    (settled → Claim.Gives (.killComplete core) s fun w =>
      (w.core core).killing = none ∧
      (∀ h, s.task? op.handler = some h → w.task? op.handler = some
        { h with pc := nextPc h.pc, view := none, sched := { h.sched with heldAt := none, ableAt := s.dev.cycle + 1 } }) ∧
      ∀ l, s.launch? op.launch = some l → l.nkill ≤ 255 → ∃ m, w.launch? op.launch = some m ∧
        m.nkill = min 255 (l.nkill + op.own.length + if op.subject.isSome then 1 else 0) ∧
        (l.firstTask = 0 → ∀ tid c, op.subject = some (tid, c) → tid ≠ 0 → m.firstTask = tid ∧ m.firstCause = c)))

/-- Events of scheduling: issue, ageing, footprints, dispatch, delegation, migration, actors, handlers and requests from
outside (spec/01_machine.md R24 to R48, spec/13_traps.md R219 to R241). Firings versioned by VERS (log entry 20), TASKID 0 of
an activation (log entry 33), the places of FIFO items (log entry 19), and packing and mapping (log entry 43) are the model's.
-/
def Obligations.SchedulingEventsComplete : Prop :=
  Claim.IssueChoosesASlot ∧ Claim.AgeingAndFootprints ∧ Claim.TasksAreDispatched ∧ Claim.RequestsAreServed ∧ Claim.TeamsMove ∧ Claim.ActorsMoveAndFire ∧ Claim.HandlersActivate ∧ Claim.RequestsFromOutsideLand

/-! ### Events of the matrix unit (spec/15_matrix.md R252 to R271) -/

namespace Sys2Proof.Machine

/-- The tile of a core's unit. -/
def State.tileOf (s : State) (core : Nat) : Option Tile := (s.core core).munit.tile

end Sys2Proof.Machine

/-- MATRIX_COMMAND_ARRIVAL (spec/15_matrix.md R252 to R254, R268): the oldest command that can leave, with none of its task
before
it, reaches the unit of its capability: 0x5F at a withdrawn core, 0x53 without a matching entry, into the spill ring where its
tile is not bound and active, else into the queue of 32, where a full queue makes it wait. -/
def Sys2Proof.Machine.Claim.CommandsReachTheirUnits : Prop :=
  (∀ (s : State) (core : Nat),
    let i := Instr.matrixCommandArrival core
    (s.outPick core (s.core core).outq [] = none → exec i s = .next (s.outWaits core)) ∧
    (∀ c, s.outPick core (s.core core).outq [] = some c →
      (∃ before after, (s.core core).outq = before ++ c :: after ∧ ∀ x ∈ before, x.task ≠ c.task) ∧ s.formed core c = true ∧
      (s.reachUnit (s.carry core c) = none → exec i s = .next s) ∧
      (∀ v, s.reachUnit (s.carry core c) = some v → exec i s = .next
        ((v.onCore core fun k => { k with outq := k.outq.filter fun x => x.op != c.op }).outWaits core)))) ∧
  (∀ (s : State) (c : MCmd),
    let n := capCore c.cap
    let u := (s.core n).munit
    let here := (s.core n).withdrawn = false ∧ (u.entry? c.cap c.right).isSome = true
    let v := s.nextOp.2
    let d : MCmd := { c with arrived := s.nextOp.1 }
    ((s.core n).withdrawn = true → s.reachUnit c = some (s.mrefuse 0x5F c)) ∧
    ((s.core n).withdrawn = false → u.entry? c.cap c.right = none → s.reachUnit c = some (s.mrefuse 0x53 c)) ∧
    (here → c.regular = true → v.direct n d = false → s.reachUnit c = some (v.spill n d)) ∧
    (here → c.regular = false ∨ v.direct n d = true → 32 ≤ u.queue.length → s.reachUnit c = none) ∧
    (here → c.regular = false ∨ v.direct n d = true → u.queue.length < 32 →
      s.reachUnit c = some ((v.onUnitM n fun u => { u with queue := u.queue ++ [d] }).unitRun n))) ∧
  (∀ (u : MUnit) (cap : Word) (right : Nat) (e : CapEntry), u.entry? cap right = some e →
    e ∈ u.caps ∧ e.key = cap.setWidth 48 ∧ cap.getLsbD 51 = false ∧ cap.getLsbD right = true ∧
    (cap.getLsbD 50 = true → e.read = true) ∧ (cap.getLsbD 49 = true → e.stream = true) ∧
    (cap.getLsbD 48 = true → e.load = true)) ∧
  (∀ (s : State) (c : MCmd) (cause : Nat) (t : Task), s.task? c.task = some t → c.isRead = false →
    (s.mrefuse cause c).task? c.task = some { t with mfault := t.mfault <|> some { cause := cause, cap := c.cap, maj := c.maj, fn := c.fn } }) ∧
  (∀ (s f : State) (core base ctl o n : Nat) (c : MCmd), s.ringHead core = (some (base, ctl, o, n), f) →
    (256 ≤ n → s.spill core c = (f.mrecord 0x55 c).mreply c 0 0 0 0) ∧
    (n < 256 → s.spill core c =
      (((f.outerPut (base + 512 * ((o + n) % 256)) c.entryBytes).putWordAt (ctl + 8) (BitVec.ofNat 64 (n + 1))).onUnitM core fun u =>
        { u with ring := u.ring.put ((o + n) % 256) { c with since := 0 } })))

/-- What the commands of a bound tile do when they are applied (spec/15_matrix.md R256 to R263): `mldb` reads a slab, `mrow`
and `mnz`
make rows that close later, `mrd` answers with sixteen pairs, `mclr` clears the accumulators; each error is noted, the first is
kept. A tile that uses a withdrawn macro (R270) takes none of them: 0x5F is recorded, and an `mrd` is answered with it. The order of
the checks of `mnz`, with words of zero skipped first, is the model's reading (log entry 29, DEDUCED). -/
def Sys2Proof.Machine.Claim.MatrixCommandsTakeEffect : Prop :=
  (∀ (s : State) (core cause row : Nat) (c : MCmd) (t : Tile), s.tileOf core = some t →
    (s.tileErr core cause c row).tileOf core = some { t with terr := t.terr <|> some (cause, c.core, row) } ∧
    (s.tileErr core cause c row).mem = s.mem) ∧
  (∀ (s : State) (core : Nat) (t : Tile) (c : MCmd), s.tileOf core = some t → t.usesBroken (s.core core).munit.broken = true →
    let row := if c.isRead = true then c.b.toNat % 2048 else if c.maj = 0xD1 ∧ c.fn ≠ 0 then c.c.toNat % 2048 else 0
    let u := s.tileErr core 0x5F c row
    s.applyCmd core t c = if c.isRead = true then u.mreply c 0 0 0 0x5F else u) ∧
  (∀ (s : State) (core : Nat) (t : Tile) (c : MCmd), s.tileOf core = some t → t.usesBroken (s.core core).munit.broken = false →
    (c.maj = 0xD1 → c.fn = 0 →
      let off := c.b.toNat % 2 ^ 19
      (∀ f, t.slabFault c = some f → s.applyCmd core t c = s.tileErr core f c 0) ∧
      (t.slabFault c = none → 0 < t.n → t.n ≤ 256 → t.ks ≤ 128 → ∃ u, (s.applyCmd core t c).tileOf core = some u ∧
        u = { t with bcode := u.bcode, bscale := u.bscale, image := off, loaded := true, kb := c.c.toNat, knext := c.c.toNat + t.ks
                     closed := 0, rows := 0 } ∧
        (∀ k n, k < t.ks → n < t.n → (u.bcode.get 0 (256 * k + n)).toNat = s.localByte core (off + k * t.n + n)) ∧
        (isNarrow (some t.bty) = true → ∀ j n, j < t.ks / 16 → n < t.n →
          (u.bscale.get 0 (256 * j + n)).toNat = s.localByte core (off + t.ks * t.n + j * t.n + n)) ∧
        (s.applyCmd core t c).mem = s.mem)) ∧
    (c.maj = 0xD1 → c.fn = 1 →
      let row := c.c.toNat
      let wrong := c.ty ≠ t.aty.code ∨ 32 * (c.imm % 4 + 1) ≠ t.ks ∨ t.loaded = false ∨ (∃ r ∈ t.openRows, r.row = row) ∨
        (t.hasRow row = true ∧ t.rowClosed row = true)
      (wrong → s.applyCmd core t c = s.tileErr core 0x54 c (row % 2048)) ∧
      (¬wrong → t.hasRow row = false → s.applyCmd core t c = s.tileErr core 0x44 c (row % 2048)) ∧
      (¬wrong → t.hasRow row = true → (s.applyCmd core t c).tileOf core =
        some { t with closing := t.closing ++ [{ op := c.op, core := c.core, dense := true, row := t.denseRow row c.payload }] } ∧ (s.applyCmd core t c).mem = s.mem)) ∧
    (c.maj = 0xD1 → c.fn = 2 →
      let x := c.c.toNat
      let row := field x 10 0
      let scale := BitVec.ofNat 8 (field x 23 16)
      let old : OpenRow := (t.openRows.find? fun r => r.row == row).getD { row := row }
      let isOpen := ∃ r ∈ t.openRows, r.row = row
      let words := (List.range 16).map fun i => BitVec.ofNat 32 (ofBytes ((c.payload.drop (4 * i)).take 4))
      let reserved := field x 63 24 ≠ 0 ∨ field x 14 11 ≠ 0
      let ready := c.ty = t.aty.code ∧ ¬reserved ∧ t.loaded = true ∧ t.hasRow row = true ∧ t.rowClosed row = false
      (c.ty ≠ t.aty.code → s.applyCmd core t c = s.tileErr core 0x54 c row) ∧
      (c.ty = t.aty.code → reserved → s.applyCmd core t c = s.tileErr core 0x44 c row) ∧
      (c.ty = t.aty.code → ¬reserved → t.loaded = false → s.applyCmd core t c = s.tileErr core 0x54 c row) ∧
      (c.ty = t.aty.code → ¬reserved → t.loaded = true → t.hasRow row = false → s.applyCmd core t c = s.tileErr core 0x44 c row) ∧
      (c.ty = t.aty.code → ¬reserved → t.loaded = true → t.hasRow row = true → t.rowClosed row = true →
        s.applyCmd core t c = s.tileErr core 0x54 c row) ∧
      (ready → t.keptWords scale old words = .error () → s.applyCmd core t c = s.tileErr core 0x44 c row) ∧
      (ready → ∀ ws, t.keptWords scale old words = .ok ws →
        let new : OpenRow :=
          { old with words := ws.foldl (fun m w => m.put w.1 w.2) old.words
                     scales := if isNarrow (some t.aty) then ws.foldl (fun m w => m.put (w.1 / 16) scale) old.scales else old.scales }
        let tile (f : Tile → Tile) : Prop :=
          (s.applyCmd core t c).tileOf core = some (f t) ∧ (s.applyCmd core t c).mem = s.mem
        (ws ≠ [] → ¬isOpen → 8 ≤ t.openRows.length → s.applyCmd core t c = s.tileErr core 0x54 c row) ∧
        (ws = [] ∨ isOpen ∨ t.openRows.length < 8 →
          (field x 15 15 = 1 → tile fun t =>
            { t with openRows := t.openRows.filter (fun r => r.row != row), closing := t.closing ++ [{ op := c.op, core := c.core, dense := false, row := new }] }) ∧
          (field x 15 15 = 0 → ws = [] → tile id) ∧
          (field x 15 15 = 0 → ws ≠ [] → isOpen →
            tile fun t => { t with openRows := t.openRows.map fun r => if r.row = row then new else r }) ∧
          (field x 15 15 = 0 → ws ≠ [] → ¬isOpen → tile fun t => { t with openRows := t.openRows ++ [new] })))) ∧
    (c.maj = 0xD2 → c.fn = 0 → t.acc + 8 * (t.m * t.n) ≤ 2 ^ 19 →
      (s.applyCmd core t c).tileOf core = some { t with knext := 0, closed := 0, rows := 0, tflags := 0 } ∧
      ∀ n k, k < 2 ^ 19 → (s.applyCmd core t c).localByte n k =
        if n = core ∧ t.acc ≤ k ∧ k < t.acc + 8 * (t.m * t.n) then 0 else s.localByte n k) ∧
    (c.maj = 0xD2 → c.fn = 1 →
      let x := c.b.toNat
      let row := field x 10 0
      let col := field x 25 16
      let bad := field x 63 26 ≠ 0 ∨ field x 15 11 ≠ 0 ∨ t.hasRow row = false ∨ col % 16 ≠ 0 ∨ t.n ≤ col
      let at_ (i : Nat) : Nat := t.acc + 8 * ((row - t.row0) * t.n + (col + i))
      let pair (i : Nat) : Nat × Nat := (s.lsRead core (at_ i) 4, s.lsRead core (at_ i + 4) 4)
      (bad → s.applyCmd core t c = s.mreply c 0 0 0 0x44) ∧
      (¬bad → c.ty = 20 → s.applyCmd core t c =
        s.mreply c (ofLanes 32 ((List.range 16).map fun i => (pair i).1)) (ofLanes 32 ((List.range 16).map fun i => (pair i).2)) 0 0) ∧
      (¬bad → c.ty ≠ 20 → ∃ rs : List (Nat × Flags), rs.length = 16 ∧
        s.applyCmd core t c = s.mreply c (ofLanes 32 (rs.map Prod.fst)) 0 (rs.foldl (fun a r => a ||| r.2) 0) 0 ∧
        ∀ i < 16, rs[i]? =
          let md := Mode.ofBits (BitVec.ofNat 3 c.imm)
          let v := (fmtF32.decode (pair i).1).add md (fmtF32.decode (pair i).2)
          let r := fmtF32.round md v.1
          some (r.1, v.2 ||| r.2))))

/-- ROW_CLOSE (spec/15_matrix.md R261): the oldest accepted row takes every pair of its row through the updates of its groups,
writes
the pairs, and no other byte, and notes the row as closed; one that waits for the reload of a macro (R270) goes once the image is full.
SLAB_FULL_WAIT times an image that is not full; SPILL_REPLAY,
HARDWARE_SAVE and HARDWARE_RESTORE (R267, R268) serve the tile whose owner holds a slot; a queued `msave` of the tile (R266, R271)
lets the commands before it be replayed. That the ring is a list whose positions are the ring's (log entry 18, DESIGN CHOICE), and that
the place of the slab image is kept through save and restore (log entry 45), are the model's. -/
def Sys2Proof.Machine.Claim.RowsCloseAndTilesMove : Prop :=
  (∀ (s : State) (core : Nat), (s.tileOf core = none ∨ ∃ t, s.tileOf core = some t ∧ t.closing = []) →
    exec (.rowClose core) s = .next s) ∧
  (∀ (s : State) (core : Nat) (t : Tile) (r : Closing) (rest : List Closing), s.tileOf core = some t →
    t.closing = r :: rest →
    let closes (s : State) (t : Tile) := ((s.closeRow core t r.row).onTile core fun t => { t with closing := rest }).unitRun core
    let broken := t.usesBroken (s.core core).munit.broken
    (broken = false → t.reloading = none → exec (.rowClose core) s = .next (closes s t)) ∧
    (broken = false → ∀ cim since, t.reloading = some (cim, since) →
      let u : Tile := { t.reload (s.readSlab core t t.image) cim with reloading := none }
      (s.lsFullRange core t.image t.slabBytes = false → exec (.rowClose core) s = .next s) ∧
      (s.lsFullRange core t.image t.slabBytes = true → exec (.rowClose core) s = .next (closes (s.onTile core fun _ => u) u))) ∧
    (broken = true → exec (.rowClose core) s = .next ((s.onTile core fun t =>
      { t with closing := rest, reloading := none, terr := t.terr <|> some (0x5F, r.core, r.row.row % 2048) }).unitRun core))) ∧
  (∀ (s : State) (core : Nat) (t : Tile) (r : OpenRow), s.tileOf core = some t → t.acc + 8 * (t.m * t.n) ≤ 2 ^ 19 →
    t.row0 ≤ r.row → r.row < t.row0 + t.m →
    let w := s.closeRow core t r
    let row := r.row - t.row0
    let at_ (n : Nat) : Nat := t.acc + 8 * (row * t.n + n)
    let pair (n : Nat) := t.closePair (t.elements r) n (s.lsRead core (at_ n) 4) (s.lsRead core (at_ n + 4) 4)
    (∀ n < t.n, w.lsRead core (at_ n) 4 = (pair n).1 % 2 ^ 32 ∧ w.lsRead core (at_ n + 4) 4 = (pair n).2.1 % 2 ^ 32) ∧
    (∀ m k, k < 2 ^ 19 → (m ≠ core ∨ k < at_ 0 ∨ at_ t.n ≤ k) → w.localByte m k = s.localByte m k) ∧
    ∃ u, w.tileOf core = some u ∧ u = { t with closed := t.closed ||| BitVec.twoPow 128 row, rows := t.rows + 1, tflags := u.tflags } ∧
      u.tflags = (List.range t.n).foldl (fun a n => a ||| (pair n).2.2) t.tflags) ∧
  (∀ (s : State) (core : Nat),
    (s.slabWaiting core = none → exec (.slabFullWait core) s = .next (s.unitRun core)) ∧
    (∀ c, s.slabWaiting core = some c → Claim.Gives (.slabFullWait core) s fun w => w.mem = s.mem ∧ w.tileOf core = s.tileOf core ∧
      (w.core core).munit.queue = (s.core core).munit.queue.map fun x =>
        if x.op = c.op ∧ x.since = 0 then { x with since := s.dev.cycle + 1 } else x)) ∧
  (∀ (s : State) (core : Nat), s.tileOf core = none → exec (.spillReplay core) s = .next s ∧ exec (.hardwareSave core) s = .next s ∧
    (s.restoreDue core (fun _ => true) = none → exec (.hardwareRestore core) s = .next s) ∧
    ∀ v, s.restoreDue core (fun _ => true) = some v → v.byMsave = false ∧ s.holdsSlot v.owner = true ∧
      exec (.hardwareRestore core) s = .next
        ((s.bindTile core { (s.savedTile core v.save v.owner).1 with key := v.key, image := v.image }).unitRun core)) ∧
  (∀ (s : State) (core : Nat) (t : Tile), s.tileOf core = some t →
    let queued := ∃ c ∈ (s.core core).munit.queue, c.regular = true ∧ capKey c.cap = t.key
    exec (.hardwareRestore core) s = .next s ∧
    let active := ∃ o, s.task? t.owner = some o ∧ o.sched.slot ≠ none ∧ o.sched.doneQueue = none
    let saves := ((s.core core).munit.queue.takeWhile fun c => !(c.task == t.owner && (c.isFmt || c.isRest))).filter fun c =>
      c.task == t.owner && c.isSave
    (∀ c, s.replays core t c = true ↔ capKey c.cap = t.key ∧ (active ∨ (∃ o, s.task? t.owner = some o ∧ o.sched.slot ≠ none) ∧
      ∃ m ∈ saves, capKey m.cap = t.key ∧ c.arrived < m.arrived)) ∧
    (queued → exec (.spillReplay core) s = .next s) ∧
    (¬queued →
      (∀ f, s.ringFind core (s.replays core t) = (none, f) → exec (.spillReplay core) s = .next (f.unitRun core)) ∧
      (∀ p c f, s.ringFind core (s.replays core t) = (some (p, c), f) → f.mReady core t c = true →
        exec (.spillReplay core) s = .next (((f.ringRemove core p).applyCmd core t c).unitRun core)) ∧
      (∀ p c f, s.ringFind core (s.replays core t) = (some (p, c), f) → f.mReady core t c = false →
        let timed := c.maj = 0xD1 ∧ c.fn = 0 ∧ t.closing = [] ∧ c.since = 0
        (¬timed → exec (.spillReplay core) s = .next f) ∧
        (timed → exec (.spillReplay core) s = .next
          (f.onUnitM core fun u => { u with ring := u.ring.put p { c with since := f.dev.cycle + 1 } })))) ∧
    (s.dormantIdle core t = true → s.unitWanted core t = true →
      exec (.hardwareSave core) s = .next ((s.unbindSaved core t false).unitRun core) ∧
      (s.unbindSaved core t false).tileOf core = none ∧
      ((s.unbindSaved core t false).core core).munit.saved? t.key t.owner =
        some { key := t.key, save := t.save, byMsave := false, owner := t.owner, image := t.image } ∧
      ((s.unbindSaved core t false).core core).munit.images.find? t.save = some t.image) ∧
    (¬(s.dormantIdle core t = true ∧ s.unitWanted core t = true) → exec (.hardwareSave core) s = .next s))

/-- MWAIT_QUERY (spec/15_matrix.md R264): a query behind none of its task's commands takes its answer: 0x5F, 0x53, or ROWS,
TFLAGS
and whether N rows are closed and everything accepted before it is complete. ECMD_MATRIX (spec/17_edge.md R283) answers
ACCEPTED for a command, which has entered the outbound queue as if issued at this point. ENGINE_TIMEOUT (R269) drops what
has waited 2^24 cycles for full bits, MACRO_PARITY (R270) reloads a macro once, as soon as its image is full, and withdraws it the second
time. -/
def Sys2Proof.Machine.Claim.QueriesTimeoutsAndParity : Prop :=
  (∀ (s : State) (k : Nat) (t : Task) (q : MQuery), s.task? k = some t → t.sched.mquery = some q →
    let behind := ∃ c ∈ (s.core t.sched.core).outq, c.task = k ∧ c.op < q.since ∧ capCore c.cap = capCore q.cap
    (q.answer ≠ none ∨ behind ∨ t.sched.status ≠ .issuing → exec (.mwaitQuery k) s = .next s) ∧
    (q.answer = none → ¬behind → t.sched.status = .issuing → Claim.Gives (.mwaitQuery k) s fun w =>
      let r := { q with answer := some (s.mwaitAnswer k q).1, accepted := some (s.mwaitAnswer k q).2 }
      (∀ n, n ≠ k → w.task? n = s.task? n) ∧ w.mem = s.mem ∧
      w.task? k = some { t with sched := { t.sched with mquery := some r } })) ∧
  (∀ (s : State) (k : Nat) (q : MQuery),
    let n := capCore q.cap
    let u := (s.core n).munit
    let before := q.accepted.getD (u.accepted (capKey q.cap) k)
    ((s.core n).withdrawn = true → (s.mwaitAnswer k q).1 = (0x5F, 0, false, 0)) ∧
    ((s.core n).withdrawn = false → u.entry? q.cap 50 = none → (s.mwaitAnswer k q).1 = (0x53, 0, false, 0)) ∧
    ((s.core n).withdrawn = false → u.entry? q.cap 50 ≠ none →
      let a := (s.mwaitAnswer k q).1
      let st := s.tileState n (capKey q.cap)
      a.1 = 0 ∧ a.2.1 = st.1 ∧ a.2.2.2 = st.2 ∧ (a.2.2.1 = true ↔ q.n.toNat ≤ st.1 ∧ ∀ x ∈ before, x ∉ u.accepted (capKey q.cap) k))) ∧
  (∀ (s : State) (o : OpBlock) (t : Task) (l : LongOp) (b : Line) (c : MCmd), s.pendingEcmd o 2 = some (t, l, b, some c) →
    exec (.ecmdMatrix o) s = .next (s.ecmdReply o.task l.op 0 0)) ∧
  (∀ (s : State) (core : Nat),
    let now := s.dev.cycle
    let late (c : MCmd) : Bool := late24 now c.since && !s.formed core c
    let b := (((s.core core).outq.filter late).foldl (fun s c => s.mrecord 0x57 c) s).onCore core fun k =>
      { k with outq := k.outq.filter fun c => !late c }
    let e := b.unitTimeout core now
    let longs := (e.allTasks.filter fun x => x.2.sched.core == core).flatMap fun x =>
      (x.2.long.filter fun l => l.ofEngine && l.slot.isNone && decide (l.since + 2 ^ 24 < now)).map fun l => (x.1, l)
    exec (.engineTimeout core) s = .next (longs.foldl (fun s x => s.dropLong x.1 x.2) e) ∧
    (∀ c, late24 now c ↔ c ≠ 0 ∧ c + 2 ^ 24 ≤ now)) ∧
  (∀ (s : State) (core now : Nat), (s.tileOf core = none → s.unitTimeout core now = s) ∧
    ∀ t, s.tileOf core = some t →
      let late (c : MCmd) : Bool := capKey c.cap == t.key && late24 now c.since && !s.mReady core t c
      let u := (s.core core).munit
      let d := (u.queue.filter late ++ (u.ring.filter fun e => late e.2).map Prod.snd).foldl (fun s c => s.tileErr core 0x57 c 0) s
      let e := (d.ringPurge core late).onUnitM core fun u => { u with queue := u.queue.filter fun c => !late c }
      (∀ cim since r rest, t.reloading = some (cim, since) → t.closing = r :: rest → late24 now since = true → s.unitTimeout core now =
        (e.onTile core fun t => { t with closing := rest, reloading := none, terr := t.terr <|> some (0x57, r.core, r.row.row % 2048) }).unitRun core) ∧
      (t.closing = [] ∨ (∀ cim since, t.reloading = some (cim, since) → late24 now since = false) →
        s.unitTimeout core now = e.unitRun core)) ∧
  (∀ (s : State) (core cim : Nat) (second : Bool) (t : Tile), s.tileOf core = some t →
    let i := Instr.macroParity core cim second
    (t.closing = [] → exec i s = .next s) ∧
    (∀ r rest, t.closing = r :: rest →
      (second = true → exec i s = .next
        ((((s.onUnitM core fun u => { u with broken := u.broken ||| BitVec.twoPow 8 (cim % 8) }).onTile core fun t =>
          { t with closing := rest, reloading := none, terr := t.terr <|> some (0x5F, r.core, r.row.row % 2048) }).ras 2 0x5F 3
            (8 * core + cim % 8) 0 0).unitRun core)) ∧
      (second = false →
        let waits : Tile := { t with reloading := some (cim % 8, s.dev.cycle + 1) }
        let u := s.onTile core fun _ => waits
        (s.lsFullRange core t.image t.slabBytes = false → exec i s = .next (u.ras 2 0x5F 0 (8 * core + cim % 8) 0 0)) ∧
        (s.lsFullRange core t.image t.slabBytes = true → exec i s = .next
          ((u.onTile core fun _ => { waits.reload (u.readSlab core waits t.image) (cim % 8) with reloading := none }).ras 2 0x5F 0
            (8 * core + cim % 8) 0 0)))))

/-- Events of the matrix unit: arrival, what commands do, closes, replay, save and restore, queries, time-outs and parity
(spec/15_matrix.md R252 to R271). The spill ring as a list (log entry 18), the order of the checks of `mnz` (log entry 29) and
the kept place of a slab image (log entry 45) are the model's. -/
def Obligations.MatrixEventsComplete : Prop :=
  Claim.CommandsReachTheirUnits ∧ Claim.MatrixCommandsTakeEffect ∧ Claim.RowsCloseAndTilesMove ∧ Claim.QueriesTimeoutsAndParity

/-! ### Events of the edge engines and the bank units (spec/17_edge.md R280 to R293, spec/19_bank.md R305 to R315) -/

namespace Sys2Proof.Machine

/-- The refusals of a block for a Vetch engine, in the order of spec/17_edge.md R284, once its fields and the address of the
graph are
in order and its descriptor `d` has been read. -/
def Claim.blockRefusals (s : State) (t : Task) (l : Launch) (unit : Nat) (b : Line) (d : Nat) : List (Bool × Nat) :=
  let w3 := blockWord b 24
  let arr := field w3 8 8 == 1
  let clusters := match l.groups[descGrp d]? with
    | some g => ((l.placedCores g).map clusterOf).eraseDups
    | none => []
  let member := (l.groups[w3 % 256]?).any fun g => l.hasMember g t.sched.core
  let graph := BitVec.ofNat 64 (blockWord b 0)
  [(descBad d, 0x02), (descLocal d, 0x14),
   (decide (l.groups.length ≤ descGrp d) || (arr && decide (l.groups.length ≤ w3 % 256)), 0x65),
   (arr && !member, 0x60), (!clusters.contains unit, 0x56), (descComb d == 7 && descMode d == 1, 0x45),
   (descWord d 96 == 0, 0x5B),
   (s.clusters.any fun e => e.2.vetch.any fun x => x.graph == graph && x.root == l.root && x.launch != t.launch, 0x56)]

/-- The fields of a block that must be in range. -/
def Claim.blockFields (b : Line) : Bool :=
  let w1 := blockWord b 8
  let w2 := blockWord b 16
  (field w1 31 24 == 1 || field w1 31 24 == 2) && w1 / 2 ^ 32 == 0 && field w1 23 16 == 0 && w2 % 64 == 0 && decide (w2 + 64 ≤ 2 ^ 19) &&
  blockWord b 24 / 2 ^ 9 == 0 && sliceLine b 32 32 == 0

/-- The set that a block begins, before its descriptor is known. -/
def Claim.blockSet (t : Task) (l : Launch) (unit : Nat) (b : Line) : VetchSet :=
  { unit := unit, graph := BitVec.ofNat 64 (blockWord b 0), launch := t.launch, core := t.sched.core, root := l.root, part := l.part,
    prio := t.sys.prio, rounds := blockWord b 8 % 65536, record := blockWord b 16
    arr := if field (blockWord b 24) 8 8 = 1 then some (blockWord b 24 % 256) else none, grp := 0, clusters := [] }

/-- What the answer to a handler's fault leaves (spec/19_bank.md R310): the unit is idle, and the requester's offer has the
fault as
its reply. -/
def Claim.handlerEnds (s : State) (u : Nat) (r : BankReq) (cause inner : Nat) : State :=
  ((s.dropTask (2 ^ 64 + 4096 + u)).onUnit u fun x => { x with running := none }).bankAnswer r.task r.op
    { kind := 4, cause := cause, reason := inner }

end Sys2Proof.Machine

/-- VETCH_RUN and VETCH_STOP (spec/17_edge.md R284, R285): the coordinating engine checks a block in the order of R284,
refuses it with
the first cause, answers BUSY while an engine of the set is taken, else takes the engines, or lets a running set stop. The block is the one captured at issue, and a RECORD off a multiple of 64, or beyond
local store, is refused with 0x02: the model's readings (log entry 32, DEDUCED). -/
def Sys2Proof.Machine.Claim.EnginesAnswerBlocks : Prop :=
  (∀ (s : State) (o : OpBlock), s.pendingEcmd o 0 = none → exec (.vetchRun o) s = .next s ∧ exec (.vetchStop o) s = .next s) ∧
  (∀ (s : State) (o : OpBlock) (t : Task) (l : LongOp) (b : Line) (m : Option MCmd) (la : Launch),
    s.pendingEcmd o 0 = some (t, l, b, m) → s.launch? t.launch = some la →
    let stop := field (blockWord b 8) 31 24 = 2
    let refused (f : State) (c : Nat) : Prop :=
      (stop → exec (.vetchStop o) s = .next (f.ecmdReply o.task l.op 2 c)) ∧
      (¬stop → exec (.vetchRun o) s = .next (f.ecmdReply o.task l.op 2 c))
    (stop → exec (.vetchRun o) s = .next s) ∧ (¬stop → exec (.vetchStop o) s = .next s) ∧
    (∀ c f, s.vetchCheck t la o.unit b = (.ok (.error c), f) → refused f c) ∧
    (∀ c va f, s.vetchCheck t la o.unit b = (.fault c va, f) → refused f c) ∧
    (∀ f, s.vetchCheck t la o.unit b = (.wait, f) →
      (stop → exec (.vetchStop o) s = .next (s.retryLater f)) ∧ (¬stop → exec (.vetchRun o) s = .next (s.retryLater f))) ∧
    (∀ v f, s.vetchCheck t la o.unit b = (.ok (.ok v), f) →
      (stop → exec (.vetchStop o) s = .next ((f.stopSet v.graph t.launch).ecmdReply o.task l.op 0 0)) ∧
      (¬stop → (∃ c ∈ v.clusters, (f.cluster c).taken ≠ none) →
        exec (.vetchRun o) s = .next (f.ecmdReply o.task l.op 1 0)) ∧
      (¬stop → (∀ c ∈ v.clusters, (f.cluster c).taken = none) →
        exec (.vetchRun o) s = .next ((f.ecmdReply o.task l.op 0 0).startSet o.unit v)))) ∧
  (∀ (s : State) (t : Task) (l : Launch) (unit : Nat) (b : Line),
    let v := Claim.blockSet t l unit b
    (Claim.blockFields b = false → s.vetchCheck t l unit b = (.ok (.error 0x02), s)) ∧
    (Claim.blockFields b = true → v.graph.toNat % 64 ≠ 0 → s.vetchCheck t l unit b = (.ok (.error 0x0A), s)) ∧
    (Claim.blockFields b = true → v.graph.toNat % 64 = 0 → ∀ d f, s.graphRead v v.graph 128 = (.ok d, f) →
      (∀ c, ((Claim.blockRefusals f t l unit b d).find? Prod.fst).map Prod.snd = some c →
        s.vetchCheck t l unit b = (.ok (.error c), f)) ∧
      ((Claim.blockRefusals f t l unit b d).find? Prod.fst = none → ∃ g, l.groups[descGrp d]? = some g ∧
        s.vetchCheck t l unit b = (.ok (.ok { v with
          grp := descGrp d, clusters := ((l.placedCores g).map clusterOf).eraseDups, desc := d, flast := descWord d 120 }), f))))

/-- ROUND_START, ROUND_END, SET_END and ENGINE_FAULT (spec/17_edge.md R285, R286, R292, R293): a set ends after its rounds, on
STOP,
or with an empty frontier; a round walks pushing or pulling, and ends once each of its jobs has; a fault ends the set with
0x5E and its cause. Once its activations have ended and everything that the set's dies have written is at home, lines that a lease holds
back included (spec/09_memory_offers.md R180), the record is written; the arrival waits while its core holds 256 (spec/11_ordering_sync.md R204); then the
engines are free. -/
def Sys2Proof.Machine.Claim.RoundsRunAndSetsEnd : Prop :=
  (∀ (s : State) (cl : Nat), (s.cluster cl).vetch = none →
    exec (.roundStart cl) s = .next s ∧ exec (.roundEnd cl) s = .next s ∧ exec (.setEnd cl) s = .next s ∧
    exec (.engineFault cl) s = .next s) ∧
  (∀ (s : State) (cl : Nat) (v : VetchSet), (s.cluster cl).vetch = some v →
    let done := v.inRound = true ∧ v.ended = false ∧ v.fault = none ∧ ∀ j ∈ v.jobs, j.phase = 5
    let idle := v.inRound = false ∧ v.ended = false ∧ v.fault = none
    (¬idle → exec (.roundStart cl) s = .next s) ∧
    (idle → v.rounds ≤ v.round ∨ v.stop = true → exec (.roundStart cl) s = .next (s.setVetch cl { v with ended := true })) ∧
    (idle → v.round < v.rounds → v.stop = false →
      (∀ c va f, s.graphRead v v.graph 128 = (.fault c va, f) → exec (.roundStart cl) s = .next (f.vetchFault cl c va)) ∧
      (∀ f, s.graphRead v v.graph 128 = (.wait, f) → exec (.roundStart cl) s = .next (s.retryLater f)) ∧
      (∀ d f, s.graphRead v v.graph 128 = (.ok d, f) →
        let u := { v with desc := d }
        (∀ g, f.graphAny u = (.ok false, g) → exec (.roundStart cl) s = .next (g.setVetch cl { u with ended := true })) ∧
        (∀ g, f.graphAny u = (.ok true, g) →
          (roundPull d = true → ∀ xs h, gatherE (List.range (descNV d)) (State.pullEdges u) g = (.ok xs, h) →
            let jobs := xs.filterMap fun x => match x with
              | .inl j => some j
              | .inr _ => none
            let run := xs.foldl (fun m x => match x with
              | .inr (d, w) => Sparse.put m d w
              | .inl _ => m) []
            exec (.roundStart cl) s =
              .next ((h.setVetch cl { u with inRound := true, pull := true, jobs := jobs, run := run }).pumpSet cl)) ∧
          (roundPull d = false → ∀ jobs h, gatherE (List.range (descNV d)) (State.pushEdges u) g = (.ok jobs, h) →
            exec (.roundStart cl) s =
              .next ((h.setVetch cl { u with inRound := true, pull := false, jobs := jobs, run := [] }).pumpSet cl))))) ∧
    (¬done → exec (.roundEnd cl) s = .next s) ∧
    (done → ∀ u f, s.closeRound cl v = (.ok u, f) → exec (.roundEnd cl) s = .next (f.setVetch cl
        { u with inRound := false, jobs := [], arrived := [], run := [], finishes := [], mass := 0, round := u.round + 1
                 flast := BitVec.ofNat 64 u.mass
                 pmode := if u.pull = true ∧ u.round < 32 then u.pmode ||| BitVec.twoPow 32 u.round else u.pmode })) ∧
    (done → ∀ c va f, s.closeRound cl v = (.fault c va, f) → exec (.roundEnd cl) s = .next (f.vetchFault cl c va)) ∧
    (v.fault = none → exec (.engineFault cl) s = .next s) ∧
    (∀ c va, v.fault = some (c, va) → exec (.engineFault cl) s = .next (s.setVetch cl
      { v with ended := true, inRound := false, jobs := [], cause := 0x5E, inner := c, va := va, fault := none })) ∧
    (v.ended = false → exec (.setEnd cl) s = .next s) ∧
    (v.ended = true →
      let f := if v.closed then s else v.dies.foldl State.writeThroughAll s
      let w := if v.closed then f else f.writeRecord v
      let waits := v.closed = false ∧ ((∃ e ∈ f.allTasks, e.2.launch = v.launch ∧ ∃ n, e.2.kind = .edge cl n) ∨ ∃ d ∈ v.dies, f.rdcBlocked d = true)
      (waits → exec (.setEnd cl) s = .next f) ∧
      (¬waits → v.arr = none → exec (.setEnd cl) s = .next (w.freeSet cl v)) ∧
      (¬waits → ∀ g, v.arr = some g →
        (w.arrivalFull v.launch g v.core = true → exec (.setEnd cl) s = .next (w.setVetch cl { v with closed := true })) ∧
        (w.arrivalFull v.launch g v.core = false → exec (.setEnd cl) s =
          .next (((w.arrive v.launch g v.core none).2).freeSet cl v))))) ∧
  (∀ (s : State) (cl : Nat) (v : VetchSet),
    ((s.freeSet cl v).cluster cl).vetch = none ∧ (∀ c ∈ v.clusters, ((s.freeSet cl v).cluster c).taken = none) ∧
    (∀ c, ((s.setVetch cl { v with closed := true }).cluster c).taken = (s.cluster c).taken) ∧
    (v.record + 64 ≤ 2 ^ 19 → ∀ i < 8, (s.writeRecord v).lsRead v.core (v.record + 8 * i) 8 = v.words.getD i 0 % 2 ^ 64)) ∧
  (∀ (v : VetchSet), v.cause < 256 → v.inner < 256 →
    let w := v.words.getD 0 0
    field w 63 56 = v.cause ∧ field w 55 48 = v.inner ∧ field w 47 32 = v.round % 65536 ∧ field w 31 0 = v.pmode.toNat ∧
    v.words.tail = [v.edges, v.accepted, v.flast.toNat, v.va.toNat, v.fl.toNat, 0, 1])

/-- How the engines choose and combine (spec/17_edge.md R285, R290): a round pulls under MODE 10 and the floating-point sum,
pushes
under MODE 01, and chooses by the frontier's edges otherwise; the combine operations by number. -/
def Sys2Proof.Machine.Claim.EnginesChooseAndCombine : Prop :=
  (∀ (d : Nat),
    let f := (descWord d 120).toNat
    let alpha := if descField d 112 47 40 = 0 then 4 else descField d 112 47 40
    let beta := if descField d 112 39 32 = 0 then 1 else descField d 112 39 32
    (descComb d = 7 ∨ descMode d = 2 → roundPull d = true) ∧
    (descComb d ≠ 7 → descMode d = 1 → roundPull d = false) ∧
    (descComb d ≠ 7 → descMode d ≠ 1 → descMode d ≠ 2 →
      (descLast d = 0 → (roundPull d = true ↔ alpha * descNE d < 64 * f)) ∧
      (descLast d = 1 → (roundPull d = false ↔ 64 * f < beta * descNE d)))) ∧
  (∀ (x c : Word),
    let f (n : Nat) := Sys2Proof.Machine.combine n x c
    f 0 = (if x.toNat ≤ c.toNat then x else c, 0) ∧ f 1 = (if x.toInt ≤ c.toInt then x else c, 0) ∧
    f 2 = (if c.toNat ≤ x.toNat then x else c, 0) ∧ f 3 = (if c.toInt ≤ x.toInt then x else c, 0) ∧
    f 4 = (x + c, 0) ∧ f 5 = (x ||| c, 0) ∧ f 6 = (x &&& c, 0) ∧
    let sum := (fmtF32.decode (x.toNat % 2 ^ 32)).add .rne (fmtF32.decode (c.toNat % 2 ^ 32))
    let rounded := fmtF32.round .rne sum.1
    f 7 = (BitVec.ofNat 64 rounded.1, sum.2 ||| rounded.2))

/-- SORREL_HANDLER and H_BOUND (spec/19_bank.md R309, R310): an idle unit takes its oldest request and starts its entry, 0x48
where
its launch has none, with the registers of R309; a running handler issues its next instruction, at most one each cycle; it faults
with 0x4A after 2048 cycles and 0x49 beyond its image. TEMP_REFRESH (R315) reads the two sensors every 2^16 cycles; that HOT changes
then is the model's reading (log entry 38, DEDUCED). -/
def Sys2Proof.Machine.Claim.BankUnitsServe : Prop :=
  (∀ (s : State) (u : Nat),
    let i := Instr.sorrelHandler u
    (((s.unit u).running = none) → (s.unit u).queue = [] → s.task? (sorrelKey u) = none → exec i s = .next s) ∧
    ((s.unit u).running = none → ∀ r rest, (s.unit u).queue = r :: rest →
      let v := s.onUnit u fun x => { x with queue := rest, running := some (r, s.dev.cycle) }
      exec i s = .next ((s.startHandler u).issueHandler u) ∧
      ((∀ e, (s.unit u).entries.find? r.entry = some e → e.launch ≠ r.launch) → s.startHandler u = Claim.handlerEnds v u r 0x48 0) ∧
      (∀ e, (s.unit u).entries.find? r.entry = some e → e.launch = r.launch → ∃ t, (s.startHandler u).task? (sorrelKey u) = some t ∧
        s.startHandler u = v.addTask (sorrelKey u) t ∧ t.kind = .sorrel u ∧ t.pc = 0 ∧ t.sys.frmode = e.rm ∧ t.sys.flags = 0 ∧
        t.regs.rg 1 = BitVec.ofNat 64 (r.pa - r.pageBase) ∧ t.regs.rg 2 = r.b ∧ t.regs.rg 3 = r.c ∧
        t.regs.rg 4 = BitVec.ofNat 64 (r.pageSize / 64) ∧ (∀ n : Fin 64, 4 < n.val → t.regs.rg n = 0) ∧
        (∀ k : Fin 8, t.regs.rf k = e.fmts.getD k.val 0) ∧ ∀ n : Fin 32, t.regs.rv n = 0)) ∧
    (∀ r since t, (s.unit u).running = some (r, since) → s.task? (sorrelKey u) = some t →
      (s.dev.cycle < t.sched.ableAt → exec i s = .next s) ∧
      (t.sched.ableAt ≤ s.dev.cycle → since + 2048 ≤ s.dev.cycle → exec i s = .next (Claim.handlerEnds s u r 0x4A 0)) ∧
      (t.sched.ableAt ≤ s.dev.cycle → s.dev.cycle < since + 2048 →
        (s.handlerFetch u t.pc = none → exec i s = .next (Claim.handlerEnds s u r 0x49 0)) ∧
        (∀ j, s.handlerFetch u t.pc = some j → exec i s =
          let f := s.focus (sorrelKey u)
          .next { f with plan := [j], t := { f.t with sched := { f.t.sched with ableAt := s.dev.cycle + 1 } } })))) ∧
  (∀ (s : State) (u : Nat),
    ((s.unit u).running = none → exec (.hBound u) s = .next s) ∧
    (∀ r since, (s.unit u).running = some (r, since) →
      (s.dev.cycle < since + 2048 → exec (.hBound u) s = .next s) ∧
      (since + 2048 ≤ s.dev.cycle → exec (.hBound u) s = .next (Claim.handlerEnds s u r 0x4A 0)))) ∧
  (∀ (s : State) (u : Nat) (r : BankReq) (since : Nat) (t : Task), (s.unit u).running = some (r, since) →
    s.task? (sorrelKey u) = some t → t.sched.status = .trapped →
    let c := t.sys.cause.toNat
    s.endTrapped u = Claim.handlerEnds s u r (if c = 0x40 then 0x4C else if c = 0x4B ∨ c = 0x4F then c else 0x49)
      (if c = 0x03 ∨ c = 0x40 ∨ c = 0x4B ∨ c = 0x4F then 0 else c)) ∧
  (∀ (s : State) (die : Nat) (low high : BitVec 8),
    (s.dev.cycle % 65536 ≠ 0 → exec (.tempRefresh die low high) s = .next s) ∧
    (s.dev.cycle % 65536 = 0 → Claim.Gives (.tempRefresh die low high) s fun w => w = { s with dies := w.dies } ∧
      (∀ d, d ≠ die → w.die d = s.die d) ∧
      let top := if low.toNat < high.toNat then high else low
      w.die die = { s.die die with stack0 := low, stack1 := high, temp := top
                                   hot := decide (85 + 2 * (s.die die).thr.toNat < top.toNat) }))

/-- Events of the edge engines and the bank units: blocks, rounds, sets, handlers and sensors (spec/17_edge.md R284 to R293,
spec/19_bank.md R309 to R315). The captured block and the bounds of RECORD (log entry 32), and the moment at which HOT changes
(log entry 38), are the model's. -/
def Obligations.EdgeAndBankEventsComplete : Prop :=
  Claim.EnginesAnswerBlocks ∧ Claim.RoundsRunAndSetsEnd ∧ Claim.EnginesChooseAndCombine ∧ Claim.BankUnitsServe

/-! ### Events of queues and launches (spec/21_launch_storage.md R320 to R333, spec/01_machine.md R45, R46) -/

namespace Sys2Proof.Machine

/-- Where the next record of a queue lies (spec/21_launch_storage.md R321). -/
def Claim.recordAt (c : QCtx) : Nat := c.ring.toNat * 64 + 64 * (c.head.toNat % 2 ^ (c.rsz + 4))

/-- The first failure that a record meets before anything is read (spec/21_launch_storage.md R326, step 1). -/
def Claim.recordFaults (r : LaunchRec) : List (Bool × Nat) :=
  let abort := r.op == 2
  [(!(r.op == 1 || abort) || r.reserved || r.crec.toNat % 64 != 0, 0x02), (abort && r.dep0.isNone, 0x02),
   (!abort && (r.place == 3 || decide (3 < r.die) || r.desc.toNat % 64 != 0 || r.nteam == 0 || (r.place == 2 && r.desc == 0)), 0x02),
   (!abort && (r.compl.toNat % 64 != 0 || windowOf r.compl != .mapped), 0x6C)]

/-- A launch changes its phase and nothing else. -/
def State.setPhase (s : State) (id : Nat) (p : LaunchPhase) : State := s.onLaunch id fun l => { l with phase := p }

end Sys2Proof.Machine

/-- DOORBELL (spec/21_launch_storage.md R321): a store to the doorbell of an enabled queue, in range of its ring, moves TAIL;
any
other changes nothing, and one that its requester may not make (spec/23_host.md R350, R362) is an Unsupported Request or an access fault. RECORD_CONSUME reads the record at HEAD at its home: a new launch holds it, and HEAD rises. Queues with
records to form are served in rotation (R328). -/
def Sys2Proof.Machine.Claim.QueuesTakeRecords : Prop :=
  (∀ (s : State) (who : Requester) (q : Nat) (v : BitVec 32),
    let c := s.queue q
    let reaches := s.ctlCheck (Who.ofRequester who) (0x2000000 + 8 * q) 4 true = none
    let taken := s.dev.stage = 2 ∧ c.en = true ∧ (v - c.head).toNat ≤ 2 ^ (c.rsz + 4)
    (131072 ≤ q → exec (.doorbell who q v) s = .next s) ∧
    (q < 131072 → (reaches ↔ s.isUp (Who.ofRequester who) = true ∧ (s.dev.stage ≠ 2 ∨ (Who.ofRequester who).part = s.queuePart q))) ∧
    (q < 131072 → ¬reaches → (∀ port part, who = .pcie port part → exec (.doorbell who q v) s = .next (s.emit .unsupported)) ∧
      ∀ h, who = .hart h → exec (.doorbell who q v) s = .next (s.emit (.hart h .accessFault))) ∧
    (q < 131072 → reaches → ¬taken → exec (.doorbell who q v) s = .next s) ∧
    (q < 131072 → reaches → taken → Claim.Gives (.doorbell who q v) s fun w => w = { s with dev := { s.dev with queues := w.dev.queues } } ∧
      w.queue q = { c with tail := v } ∧ ∀ n, n ≠ q → w.queue n = s.queue n)) ∧
  (∀ (s : State) (q : Nat),
    let c := s.queue q
    let pa := Claim.recordAt c
    let turn := ∀ e ∈ s.dev.queues, s.queueReady e.1 = true → s.queueRank q ≤ s.queueRank e.1
    (s.forming q = true ↔ ∃ e ∈ s.launches, e.2.queue = q ∧ e.2.record.op ≠ 2 ∧
      (e.2.phase = .consumed ∨ e.2.phase = .waiting ∨ e.2.phase = .object ∨ (e.2.phase = .running ∧ e.2.formed = false))) ∧
    let ready := s.dev.stage = 2 ∧ c.en = true ∧ c.head ≠ c.tail ∧ s.forming q = false ∧ s.heldLine pa = false ∧ turn
    (¬ready → exec (.recordConsume q) s = .next s) ∧
    (ready → Claim.Gives (.recordConsume q) s fun w => ∃ id l, s.launch? id = none ∧ id ≠ 0 ∧ w.launch? id = some l ∧
      (∀ n, n ≠ id → w.launch? n = s.launch? n) ∧ w.queue q = { c with head := c.head + 1 } ∧
      (∀ n, n ≠ q → w.queue n = s.queue n) ∧ l.queue = q ∧ l.seq = c.head ∧ l.root = c.root.toNat * 1024 ∧ l.part = s.queuePart q ∧
      l.phase = .consumed ∧ w.dev.lastQueue = q ∧
      l.record = LaunchRec.ofNat (if spaceOf pa = .dram then (s.outerRead pa).1.toNat else 0) ∧
      (s.heldAborts q c.head = [] → l.failed = none ∧ l.aborted = false))) ∧
  (∀ (x : Nat),
    let r := LaunchRec.ofNat x
    let w1 := x / 2 ^ 64
    r.entry.toNat = x % 2 ^ 64 ∧ r.op = field w1 63 56 ∧ r.nteam = field w1 47 32 ∧ r.tsize = field w1 31 26 + 1 ∧
    r.prio.toNat = field w1 25 24 ∧ r.place = field w1 23 22 ∧ r.die = field w1 21 19 ∧ r.vers = decide (field w1 18 18 = 1) ∧
    r.fullch = decide (field w1 17 17 = 1) ∧ r.remap = decide (field w1 16 16 = 1) ∧ r.irq = decide (field w1 15 15 = 1) ∧
    r.desc.toNat = x / 2 ^ 128 % 2 ^ 64 ∧ r.compl.toNat = x / 2 ^ 192 % 2 ^ 64 ∧ r.crec.toNat = x / 2 ^ 256 % 2 ^ 64)

/-- LAUNCH_FORMATION and DEPENDENCE_MET (spec/21_launch_storage.md R326 to R330): a consumed record that fails its checks fails
before start with the first cause; COMPL and CREC are translated; dependences that fail give 0x6B and unmet ones make it wait;
its lists are read and checked, its object is requested, and once that is granted its bank-handler entries are installed and its teams
formed. That NTEAM of 0 is refused with 0x02 (log entry 34), and that a SEQ up to 2^31 - 1 ahead of HEAD is not consumed yet (log
entry 21), are the model's readings. -/
def Sys2Proof.Machine.Claim.LaunchesForm : Prop :=
  (∀ (s : State) (id : Nat), s.launch? id = none → exec (.launchFormation id) s = .next s ∧ exec (.dependenceMet id) s = .next s) ∧
  (∀ (l : Launch), l.step1 = ((Claim.recordFaults l.record).find? Prod.fst).map Prod.snd) ∧
  (∀ (s : State) (l : Launch),
    let listed := l.step1 ≠ some 0x02 ∧ l.record.op = 1 ∧ l.record.place = 2
    (¬listed → s.step1At l = (some l.step1, s)) ∧
    (listed → ∀ bs f, s.launchRead l.via l.record.desc 8 = (.ok bs, f) →
      s.step1At l = (some (if ofBytes bs = 0 then some 0x02 else l.step1), f))) ∧
  (∀ (s : State) (id : Nat) (l : Launch), s.launch? id = some l →
    let i := Instr.launchFormation id
    (l.record.op = 2 → l.step1 = none → exec i s = .next s) ∧
    (l.record.op ≠ 2 ∨ l.step1 ≠ none →
      (l.phase ≠ .consumed → l.phase ≠ .running ∨ l.formed = true → exec i s = .next s) ∧
      (l.phase = .running → l.formed = false →
        let installed := l.regionChannels.foldl (fun s u =>
          s.onUnit u fun v => { v with entries := l.entries.foldl (fun m e => m.put e.1 e.2) v.entries }) s
        exec i s = .next ((installed.onLaunch id fun l =>
          { l with formed := true, order := installed.nextOrder }).formTeams id (List.range l.record.nteam))) ∧
      (l.phase = .consumed →
        (∀ v, s.step1At l = (none, v) → exec i s = .next (s.retryLater v)) ∧
        (∀ c v, s.step1At l = (some (some c), v) →
            l.record.compl.toNat % 64 ≠ 0 ∨ windowOf l.record.compl ≠ .mapped ∨ l.record.op = 2 →
          exec i s = .next (v.failLaunch id c)) ∧
        (∀ c v, s.step1At l = (some (some c), v) →
            l.record.compl.toNat % 64 = 0 → windowOf l.record.compl = .mapped → l.record.op ≠ 2 →
          (∀ pa p f, v.launchReach l.via true l.record.compl = (.ok (pa, p), f) →
            exec i s = .next ((f.onLaunch id fun l => { l with objectAt := some pa }).failLaunch id c)) ∧
          ∀ d va f, v.launchReach l.via true l.record.compl = (.fault d va, f) → exec i s = .next (f.failLaunch id c)) ∧
        (∀ v, s.step1At l = (some none, v) →
          (∀ c va f, v.launchReach l.via true l.record.compl = (.fault c va, f) → exec i s = .next (f.failLaunch id c)) ∧
          (∀ pa p f, v.launchReach l.via true l.record.compl = (.ok (pa, p), f) →
            let g := f.onLaunch id fun l => { l with objectAt := some pa }
            (∀ c va h, g.launchReach l.via true l.record.crec = (.fault c va, h) → exec i s = .next (h.failLaunch id c)) ∧
            (∀ x h, g.launchReach l.via true l.record.crec = (.ok x, h) →
              (∀ c, l.failed = some c → exec i s = .next (h.failLaunch id c)) ∧
              (l.failed = none → h.depMet l.record.dep0 = some true → h.depMet l.record.dep1 = some true →
                exec i s = .next (h.formLists id { l with objectAt := some pa })) ∧
              (l.failed = none → h.depMet l.record.dep0 = some false ∨ h.depMet l.record.dep1 = some false →
                exec i s = .next (h.failLaunch id 0x6B)) ∧
              (l.failed = none → h.depMet l.record.dep0 ≠ some false → h.depMet l.record.dep1 ≠ some false →
                h.depMet l.record.dep0 = none ∨ h.depMet l.record.dep1 = none → exec i s = .next (h.setPhase id .waiting))))))) ∧
    (l.phase = .waiting → l.record.op ≠ 2 →
      let a := s.depMet l.record.dep0
      let b := s.depMet l.record.dep1
      let decided := a = some false ∨ b = some false ∨ (a ≠ none ∧ b ≠ none) ∨ l.failed ≠ none
      (decided → exec (.dependenceMet id) s = .next (s.setPhase id .consumed)) ∧ (¬decided → exec (.dependenceMet id) s = .next s)) ∧
    (l.phase ≠ .waiting ∨ l.record.op = 2 → exec (.dependenceMet id) s = .next s)) ∧
  (∀ (s : State) (id cause : Nat) (l : Launch), s.launch? id = some l →
    (l.objectAt = none → (s.failLaunch id cause).launch? id = some { l with failed := l.failed <|> some cause, phase := .finishing }) ∧
    (∀ pa, l.objectAt = some pa → s.failLaunch id cause =
      (s.onLaunch id fun l => { l with failed := l.failed <|> some cause, phase := .object }).guardArrive pa
        { who := .launch id, holder := BitVec.allOnes 56, shared := false, scope := .system })) ∧
  (∀ (s : State) (q : Nat) (seq : BitVec 32),
    let back := ((s.queue q).head - 1 - seq).toNat
    (2 ^ 31 ≤ back → s.statusOf q seq = none) ∧ (1024 ≤ back → back < 2 ^ 31 → s.statusOf q seq = some 1) ∧
    (back < 1024 → ∀ x, s.dev.statuses.find? (q * 2 ^ 32 + seq.toNat) = some x → s.statusOf q seq = some x) ∧
    ∀ ok, s.depMet none = some true ∧ s.depMet (some (ok, q, seq)) = (s.statusOf q seq).map fun x => !ok || x == 1)

/-- What a launch is formed from (spec/21_launch_storage.md R326, R329): lists that cannot be read or that fail a check fail the
launch with that cause; so do channels, capability tables without room and handler images, and an entry that another launch holds or is
owed (0x48); else the launch holds its lists and the entries that step 6 installs, and its object is requested. A team takes a free slot of
the die with the most under PLACE 00. -/
def Sys2Proof.Machine.Claim.ListsAreChecked : Prop :=
  (∀ (s : State) (id : Nat) (l : Launch),
    (∀ f, s.readLists l = (.wait, f) → s.formLists id l = s.retryLater f) ∧
    (∀ c va f, s.readLists l = (.fault c va, f) → s.formLists id l = f.failLaunch id c) ∧
    (∀ x f, s.readLists l = (.ok x, f) →
      (∀ c, f.step3 l x = some c → s.formLists id l = f.failLaunch id c) ∧
      (f.step3 l x = none →
        let m := l.withLists x []
        (∀ c g, f.checkChannels l m.regions = (.ok (.error c), g) → s.formLists id l = g.failLaunch id c) ∧
        (∀ c va g, f.checkChannels l m.regions = (.fault c va, g) → s.formLists id l = g.failLaunch id c) ∧
        (∀ chans g, f.checkChannels l m.regions = (.ok (.ok chans), g) →
          let full := g.capsFull (x.caps.filterMap fun c => x.coreOf l.record (capTeam c)).eraseDups
          (full = true → s.formLists id l = g.failLaunch id 0x53) ∧
          (full = false →
            (∀ c h, g.checkHandlers l id chans m.handlers = (.ok (.error c), h) → s.formLists id l = h.failLaunch id c) ∧
            (∀ c va h, g.checkHandlers l id chans m.handlers = (.fault c va, h) → s.formLists id l = h.failLaunch id c) ∧
            (∀ es h pa, g.checkHandlers l id chans m.handlers = (.ok (.ok es), h) → l.objectAt = some pa → s.formLists id l =
              (h.onLaunch id fun _ => { l.withLists x chans with
                phase := .object, entries := es.foldl (fun m e => m.put e.1 e.2) [] }).guardArrive pa
                  { who := .launch id, holder := BitVec.allOnes 56, shared := false, scope := .system })))))) ∧
  (∀ (s : State) (l : Launch) (id : Nat) (chans : List Nat) (va : Word) (k : Nat) (hs : List (Word × Nat)),
    let held (u : Nat) : Prop := ∃ e, (s.unit u).entries.find? k = some e ∧ e.launch ≠ id
    let owed (u : Nat) : Prop := ∃ x ∈ s.launches, x.1 ≠ id ∧ (x.2.phase = .object ∨ (x.2.phase = .running ∧ x.2.formed = false)) ∧
      x.2.failed = none ∧ u ∈ x.2.regionChannels ∧ (x.2.entries.find? k).isSome = true
    (∃ u ∈ chans, held u ∨ owed u) → s.checkHandlers l id chans ((va, k) :: hs) = (.ok (.error 0x48), s)) ∧
  (∀ (s : State) (l : Launch) (x : Lists), s.step3 l x =
    (([(x.bad02, 0x02), (x.badGroups l.record, 0x6E), (x.badActors l.record, 0x69), (s.badCores l x, 0x02),
      (x.caps.any fun c => !inLaunch l.record (capTeam c), 0x53)] : List (Bool × Nat)).find? Prod.fst).map Prod.snd) ∧
  (∀ (s : State) (l : Launch) (team d : Nat), s.teamDie l team = some d →
    0 < s.freeTeams d ∧
    (l.record.place = 0 → d < 4 ∧ s.dieUp d = true ∧ ∀ e < 4, s.dieUp e = true → s.freeTeams e ≤ s.freeTeams d) ∧
    (l.record.place = 1 → d = l.record.die))

/-- LAUNCH_COMPLETION, COMPLETION_FLUSH and ABORT (spec/01_machine.md R45, R46, spec/21_launch_storage.md R323, R327): a
launch that has
nothing left writes its record, or reports that it cannot, then raises its interrupt, releases its object and keeps its STATUS; its
flush follows when an acquire waits for it, and is over once no lease holds back a line of it (spec/09_memory_offers.md R180); SPAN counts
from the first dispatch to the last retirement. An ABORT acts on a live launch, waits for one to come, or is over; a launch that waits for
its object stops waiting. PAGE_WALK (R333) holds what a walk for a load finds. That an ABORT which names an ABORT record has no effect (log
entry 34, DEDUCED), and that a walk is an event by itself (log entry 22, DESIGN CHOICE), are the model's. -/
def Sys2Proof.Machine.Claim.LaunchesEnd : Prop :=
  (∀ (s : State) (id : Nat), s.launch? id = none → exec (.launchCompletion id) s = .next s ∧ exec (.completionFlush id) s = .next s ∧
    exec (.abort id) s = .next s) ∧
  (∀ (s : State) (id : Nat) (l : Launch), s.launch? id = some l →
    let i := Instr.launchCompletion id
    let due := s.completes id l = true ∧ ∀ pa, l.objectAt = some pa → s.heldLine pa = false
    let unwritten (c : Nat) (s : State) : State := (s.ras 6 c 2 l.queue l.record.crec.toNat 0).closeLaunch id l false
    let w := s.launchWrite l.via l.record.crec l.completionRecord
    (¬due → exec i s = .next s) ∧
    (due → l.record.crec.toNat % 64 ≠ 0 → exec i s = .next (unwritten 0x02 s)) ∧
    (due → l.record.crec.toNat % 64 = 0 → (∀ f, w = (.ok (), f) → exec i s = .next (f.closeLaunch id l true)) ∧
      (∀ c va f, w = (.fault c va, f) → exec i s = .next (unwritten c f)) ∧ ∀ f, w = (.wait, f) → exec i s = .next (s.retryLater f)) ∧
    (s.completes id l = true ↔ l.phase = .finishing ∨ (l.phase = .running ∧ l.formed = true ∧ l.todo = [] ∧ l.liveTasks = 0 ∧
      (∀ a ∈ l.actors, a.2.state = .exited) ∧ s.launchBusy id = false)) ∧
    (l.status < 2 ^ 8 → l.nkill < 2 ^ 24 → l.firstCause < 2 ^ 8 → l.firstTask.toNat < 2 ^ 56 → ∀ c, (l.failed = some c → c < 2 ^ 64) →
      let x := ofBytes l.completionRecord
      l.completionRecord.length = 64 ∧ field x 7 0 = l.status ∧ field x 31 8 = l.nkill ∧ field x 63 32 = l.seq.toNat ∧
      field x 127 64 = l.nret % 2 ^ 64 ∧ x / 2 ^ 256 = 0 ∧
      (l.begun = none → field x 191 128 = 0) ∧ (∀ b, l.begun = some b → field x 191 128 = (l.ended - b) % 2 ^ 64) ∧
      (l.failed = none → field x 199 192 = l.firstCause ∧ field x 255 200 = l.firstTask.toNat) ∧
      (l.failed = some c → field x 255 192 = c)) ∧
    (l.status = if l.failed.isSome then 3 else if 0 < l.nkill then 2 else 1) ∧
    (∀ written, (s.closeLaunch id l written).dev.statuses.find? (l.queue * 2 ^ 32 + l.seq.toNat) = some l.status)) ∧
  (∀ (s : State) (id : Nat) (l : Launch), s.launch? id = some l →
    let i := Instr.completionFlush id
    let wanted (pa : Nat) : Prop := ∃ r ∈ s.mem.guards.get [] pa, 3 ≤ Scope.rank r.scope ∧ r.who ≠ .ended ∧ ∀ n, r.who ≠ .launch n
    (l.objectAt = none → exec i s = .next s) ∧ (∀ pa, l.objectAt = some pa → ¬wanted pa → exec i s = .next s) ∧
    (∀ pa, l.objectAt = some pa → wanted pa → (l.phase ≠ .done ∨ l.flushed = true → exec i s = .next s) ∧
      (l.phase = .done → l.flushed = false →
        let u := l.dies.foldl State.writeThroughAll s
        ((∃ d ∈ l.dies, u.rdcBlocked d = true) → exec i s = .next u) ∧
        ((∀ d ∈ l.dies, u.rdcBlocked d = false) → Claim.Gives i s fun w => w.launch? id = none ∧
          w = { u with launches := w.launches } ∧ ∀ n, n ≠ id → w.launch? n = s.launch? n)))) ∧
  (∀ (s : State) (id : Nat) (a : Launch), s.launch? id = some a →
    let acts := a.record.op = 2 ∧ a.phase = .consumed ∧ a.step1 = none
    (¬acts → exec (.abort id) s = .next s) ∧
    (acts → ∀ ok q seq, a.record.dep0 = some (ok, q, seq) →
      (∀ n l, s.liveLaunch q seq = some (n, l) →
        (l.record.op = 2 → exec (.abort id) s = .next (s.setPhase id .finishing)) ∧
        (l.record.op ≠ 2 → exec (.abort id) s = .next
          (((s.setPhase id .waiting).onLaunch n fun l => { l with aborters := l.aborters ++ [id] }).abortTarget n l))) ∧
      (s.liveLaunch q seq = none → s.statusOf q seq = none → exec (.abort id) s = .next (s.setPhase id .waiting)) ∧
      (s.liveLaunch q seq = none → s.statusOf q seq ≠ none → exec (.abort id) s = .next (s.setPhase id .finishing)))) ∧
  (∀ (s : State) (id : Nat) (l : Launch),
    (l.phase = .consumed ∨ l.phase = .waiting → s.abortTarget id l =
      s.onLaunch id fun l => { l with aborted := true, failed := l.failed <|> some 0x6B }) ∧
    (l.phase = .object ∨ (l.phase = .running ∧ l.formed = false) → s.abortTarget id l =
      s.onLaunch id fun l => { l with aborted := true, failed := l.failed <|> some 0x6B, phase := .finishing }) ∧
    (l.phase = .done ∨ l.phase = .finishing → s.abortTarget id l = s) ∧
    (l.phase = .running → l.formed = true → s.abortTarget id l = s.abortFormed id l)) ∧
  (∀ (s : State) (core root : Nat) (va : Word),
    let mine := core < 4096 ∧ (∃ e ∈ s.launches, e.2.live = true ∧ e.2.root = root ∧ e.2.part = s.corePart core) ∧
      windowOf va = .mapped ∧ s.tlbLookup core root va = none
    (¬mine → exec (.pageWalk core root va) s = .next s) ∧
    (mine → exec (.pageWalk core root va) s =
      .next (s.translate core root { kind := .load, sys := false, io := true, writes := false } va).2))

/-- Events of queues and launches: doorbells, records, formation, dependences, completion, flushes, aborts and walks
(spec/21_launch_storage.md R320 to R333, spec/01_machine.md R45, R46). NTEAM of 0 and an ABORT of an ABORT (log entry 34), the
range of a future SEQ (log entry 21) and PAGE_WALK by itself (log entry 22) are the model's. -/
def Obligations.LaunchEventsComplete : Prop :=
  Claim.QueuesTakeRecords ∧ Claim.LaunchesForm ∧ Claim.ListsAreChecked ∧ Claim.LaunchesEnd

/-! ### Events of the storage engines, and detected errors (spec/21_launch_storage.md R339 to R347, spec/13_traps.md R235 to R238) -/

namespace Sys2Proof.Machine

/-- The service may go on: nothing of it is in progress, no eviction of its page is under way, it is among the first 64, and
no lease
holds what it must read. -/
def Claim.serviceDue (s : State) (e : Nat) (v : Service) : Prop :=
  v.open_ = true ∧ v.reading = none ∧ (s.engine e).evicting v.pteAt = false ∧ (s.engine e).inTurn v.id = true ∧
  s.heldLine v.pteAt = false ∧
  ((s.engine e).reclaimed ≠ [] ∨ (s.engine e).fftail = (s.engine e).ffhead ∨ s.heldLine (s.engine e).frameEntry = false)

/-- A drive is removed from an engine. -/
def Claim.unplugged (s : State) (e ns : Nat) : State :=
  s.onEngine e fun t =>
    let d := (t.ns.get {} ns).drv
    { t with drives := t.drives.put d { t.drives.get {} d with gone := true } }

end Sys2Proof.Machine

/-- STORAGE_SERVICE (spec/21_launch_storage.md R341, R342, R344): a service whose PTE no longer names its locator lets its
waiters go
on; a page whose reclaimed frame is still there takes it back with its A and D; a refused locator fails (R345); else a frame is
taken for the Read, or the service hungers for one, and fails with 0x22 where none can come. -/
def Sys2Proof.Machine.Claim.ServicesGoOn : Prop :=
  (∀ (s : State) (e id : Nat), s.service? e id = none → exec (.storageService e id) s = .next s) ∧
  (∀ (s : State) (e : Nat) (v : Service), s.service? e v.id = some v →
    let i := Instr.storageService e v.id
    (¬Claim.serviceDue s e v → exec i s = .next s) ∧
    (Claim.serviceDue s e v → ∀ p f, s.homeWord v.pteAt = (p, f) →
      let there := Pte.storageLeaf false p = true ∧ Pte.locator p = v.locator
      let back := v.evicted.filter fun x => (f.engine e).reclaimed.contains x.1
      (¬there → exec i s = .next (f.endService e v.id none)) ∧
      (there → ∀ frame old, back = some (frame, old) → exec i s = .next
        (((f.onEngine e fun t => { t with reclaimed := t.reclaimed.erase frame }).putWordAt v.pteAt
          (Pte.withFrame p frame (Pte.a old) (Pte.d old))).endService e v.id (some frame))) ∧
      (there → back = none →
        (∀ c, (f.engine e).refuses v.ns v.blk = some c → exec i s = .next (f.failService e v.id c 0)) ∧
        ((f.engine e).refuses v.ns v.blk = none →
          (∀ frame g, f.takeFrame e = (some frame, g) → exec i s = .next (g.onService e v.id fun v =>
            { v with reading := some (frame, p, g.dev.cycle), hungry := false })) ∧
          (∀ g, f.takeFrame e = (none, g) →
            let starved := v.hungry = true ∧ (f.engine e).evict = none ∧ (f.engine e).evhead = (f.engine e).evtail
            (starved → exec i s = .next (g.failService e v.id 0x22 0)) ∧
            (¬starved → exec i s = .next (g.onService e v.id fun v => { v with hungry := true }))))))) ∧
  (∀ (t : Teasel) (ns blk : Nat),
    let x := t.ns.get {} ns
    let d := t.drives.get {} x.drv
    (x.nsv = false ∨ d.dv = false → t.refuses ns blk = some 0x23) ∧
    (x.nsv = true → d.dv = true → x.nblk.toNat ≤ blk → t.refuses ns blk = some 0x24) ∧
    (x.nsv = true → d.dv = true → blk < x.nblk.toNat → t.refuses ns blk = if d.gone then some 0x25 else none)) ∧
  (∀ (p : Word) (frame : Nat) (a d : Bool), frame < 2 ^ 56 →
    let q := Pte.withFrame p frame a d
    q.getLsbD 0 = true ∧ q.getLsbD 6 = a ∧ q.getLsbD 7 = d ∧ Pte.ppn q = frame / 4096 ∧
    ∀ i < 64, (1 ≤ i ∧ i ≤ 5) ∨ i = 8 ∨ i = 9 ∨ 54 ≤ i → q.getLsbD i = p.getLsbD i)

/-- NVME_COMPLETION and STORAGE_TIMEOUT (spec/21_launch_storage.md R341, R343, R345): the Read of a service ends with its page
in the
frame and the PTE valid, where the PTE has not changed; its failures fail the service with 0x20, 0x26, 0x25 and, after TOUT, 0x21;
the Write of an eviction ends with the page on the drive and its frame reclaimed, or with the page as it was and a report of 0x27. The
slot's drive, namespace and LBA choose the data, so two slots of one namespace share it; that drive d of engine e has the number 4e + d
is the model's (log entry 23, DESIGN CHOICE). -/
def Sys2Proof.Machine.Claim.CommandsEnd : Prop :=
  (∀ (s : State) (e : Nat) (v : Service) (st : NvmeStatus), s.service? e v.id = some v →
    let i := Instr.nvmeCompletion e v.id st
    let late := (s.engine e).tout ≠ 0
    (v.reading = none → exec i s = .next s ∧ exec (.storageTimeout e v.id) s = .next s) ∧
    (∀ frame p since, v.reading = some (frame, p, since) →
      let held := s.heldLine v.pteAt = true ∨ ∃ i < 64, s.heldLine (frame + 64 * i) = true
      (held → exec i s = .next s) ∧
      (¬held →
        (st = .ok → ∀ q g, (s.loadPage frame (s.drivePage e v.ns v.blk)).homeWord v.pteAt = (q, g) →
          (q = p → exec i s = .next ((g.putWordAt v.pteAt (Pte.withFrame q frame false false)).endService e v.id (some frame))) ∧
          (q ≠ p → exec i s = .next
            ((g.onEngine e fun t => { t with reclaimed := t.reclaimed ++ [frame] }).endService e v.id none))) ∧
        (∀ x, st = .error x → exec i s = .next (s.failService e v.id 0x20 x)) ∧
        (st = .protection → ((s.engine e).ns.get {} v.ns).pi = true → exec i s = .next (s.failService e v.id 0x26 0)) ∧
        (st = .protection → ((s.engine e).ns.get {} v.ns).pi = false → exec i s = .next s) ∧
        (st = .removed → exec i s = .next ((Claim.unplugged s e v.ns).failService e v.id 0x25 0))) ∧
      (late → since + 1024 * (s.engine e).tout.toNat ≤ s.dev.cycle →
        exec (.storageTimeout e v.id) s = .next (s.failService e v.id 0x21 0)) ∧
      (¬late ∨ s.dev.cycle < since + 1024 * (s.engine e).tout.toNat → exec (.storageTimeout e v.id) s = .next s))) ∧
  (∀ (s : State) (e : Nat) (x : Evict) (since : Nat) (st : NvmeStatus), s.service? e x.id = none → (s.engine e).evict = some x →
    x.writing = some since → s.heldLine x.pteAt = false →
    let i := Instr.nvmeCompletion e x.id st
    let ns := field x.new.toNat 50 48
    (st = .ok → exec i s = .next
      ((s.writeDrive e ns (field x.new.toNat 47 10) (s.pageBytes (Pte.ppn x.old * 4096))).reclaim e x)) ∧
    (st = .removed → exec i s = .next ((Claim.unplugged s e ns).evictionFails e x)) ∧
    (∀ y, st = .error y → exec i s = .next (s.evictionFails e x)) ∧
    (st = .protection → ((s.engine e).ns.get {} ns).pi = true → exec i s = .next (s.evictionFails e x)) ∧
    (st = .protection → ((s.engine e).ns.get {} ns).pi = false → exec i s = .next s) ∧
    (((s.engine e).tout ≠ 0 → since + 1024 * (s.engine e).tout.toNat ≤ s.dev.cycle →
      exec (.storageTimeout e x.id) s = .next (s.evictionFails e x)))) ∧
  (∀ (s : State) (e : Nat) (x : Evict) (p : Word) (f : State), s.homeWord x.pteAt = (p, f) →
    let back := if p = x.new then f.putWordAt x.pteAt x.old else f
    s.evictionFails e x = (back.onEngine e fun t => { t with evict := none }).ras 4 0x27 2
      (4 * e + ((back.engine e).ns.get {} (field x.new.toNat 50 48)).drv) (Pte.ppn x.old * 4096) 0) ∧
  (∀ (s : State) (frame : Nat) (bs : List Byte), frame % 4096 = 0 → frame + 4096 ≤ 2 ^ 39 → bs.length = 4096 →
    s.mem.l2.length + 64 ≤ l2Room → (∀ n, s.pageState frame ≠ .priv n) →
    ∀ k < 4096, (s.loadPage frame bs).byteAt (frame + k) = (bs.getD k 0).toNat ∧ (s.loadPage frame bs).isFull (frame + k) = true) ∧
  (∀ (s : State) (e ns blk i : Nat) (bs : List Byte), i < bs.length → bs.length ≤ 4096 →
    ((s.writeDrive e ns blk bs).nvme.get 0 (nvmeAt e ((s.engine e).ns.get {} ns) blk i)) = bs.getD i 0) ∧
  (∀ (s : State) (e f m n blk : Nat) (bs : List Byte), bs.length ≤ 4096 → blk < 2 ^ 38 →
    let x := (s.engine e).ns.get {} m
    let y := (s.engine f).ns.get {} n
    x.drv < 4 → y.drv < 4 → x.lbas < 16 → y.lbas < 16 →
    (e = f → x = y → (s.writeDrive e m blk bs).drivePage f n blk = bs ++ (s.drivePage f n blk).drop bs.length) ∧
    ((e, x.drv, x.nsid) ≠ (f, y.drv, y.nsid) → ∀ b < 2 ^ 38, (s.writeDrive e m blk bs).drivePage f n b = s.drivePage f n b))

/-- EVICTION_RUN (spec/21_launch_storage.md R343, R344): below the watermark, or for a hungry service, the entry at EVHEAD is
taken:
an entry that is no resident page, or whose frame is in use, is skipped and counted; else the PTE takes the entry's word and every
translation goes; once nothing is under way to the page its lines are written back, and the page is reclaimed, or written if D. What a
lease holds back waits (spec/09_memory_offers.md R180). -/
def Sys2Proof.Machine.Claim.EvictionsRun : Prop :=
  (∀ (s : State) (e : Nat), (s.engine e).evict = none →
    let t := s.engine e
    let wanted := t.free < t.lowat.toNat ∨ (t.free = 0 ∧ ∃ v ∈ t.services, v.open_ = true ∧ v.hungry = true)
    let goes := e < 8 ∧ wanted ∧ t.reclaimed.length < 32 ∧ t.evhead ≠ t.evtail ∧ s.evictWaits e = false
    (¬goes → exec (.evictionRun e) s = .next s) ∧ (goes → exec (.evictionRun e) s = .next (s.beginEviction e))) ∧
  (∀ (s : State) (e : Nat) (x : Evict), (s.engine e).evict = some x →
    let f := Pte.ppn x.old * 4096
    let busy := s.writesInto (pageAt f) = true ∨ s.heldLine x.pteAt = true ∨ ∃ i < 64, s.heldLine (f + 64 * i) = true
    let v := (List.range 64).foldl (fun s i => s.maintainLine true true (f + 64 * i)) s
    let why := (v.engine e).refuses (field x.new.toNat 50 48) (field x.new.toNat 47 10)
    (x.writing ≠ none ∨ busy → exec (.evictionRun e) s = .next s) ∧
    (x.writing = none → ¬busy →
      (Pte.d x.old = false → exec (.evictionRun e) s = .next (v.reclaim e x)) ∧
      (Pte.d x.old = true → why ≠ none → exec (.evictionRun e) s = .next (v.evictionFails e x)) ∧
      (Pte.d x.old = true → why = none → exec (.evictionRun e) s =
        .next (v.onEngine e fun t => { t with evict := some { x with writing := some v.dev.cycle } })))) ∧
  (∀ (s : State) (e : Nat) (x : Evict), let w := s.reclaim e x
    (w.engine e).reclaimed = (s.engine e).reclaimed ++ [Pte.ppn x.old * 4096] ∧ (w.engine e).evict = none ∧ w.mem = s.mem) ∧
  (∀ (s : State) (page : Nat), s.writesInto page = true ↔ ∃ e ∈ s.allTasks,
    (∃ st ∈ e.2.stores, ∃ p ∈ st.places, pageAt p.1 = page) ∨
    ∃ l ∈ e.2.long, ∃ o, l.act = .offer o ∧ o.reply = none ∧ o.owner = none ∧ pageAt o.pa = page) ∧
  (∀ (s : State) (e pteAt : Nat) (word : Word) (f : State), s.evictEntry e = ((pteAt, word), f) →
    let t := s.engine e
    let at_ := t.evbase.toNat * 4096 + 16 * (t.evhead.toNat % 2 ^ (t.evlog + 6))
    let skipped (s : State) : State := s.onEngine e fun t => { t with skip := t.skip + 1 }
    let g := f.onEngine e fun t => { t with evhead := t.evhead + 1 }
    (spaceOf at_ = .dram → pteAt = sliceLine (s.outerRead at_).1 (at_ % 64) 8 ∧
      word = BitVec.ofNat 64 (sliceLine (s.outerRead at_).1 (at_ % 64 + 8) 8)) ∧
    (s.evictWaits e = true ↔ s.heldLine at_ = true ∨ s.heldLine pteAt = true) ∧
    (spaceOf pteAt ≠ .dram ∨ pteAt % 8 ≠ 0 → s.beginEviction e = skipped g) ∧
    (spaceOf pteAt = .dram → pteAt % 8 = 0 → ∀ p h, g.homeWord pteAt = (p, h) →
      let goes := Pte.storageLeaf true p = true ∧ h.frameInUse (Pte.ppn p * 4096) = false
      let new : Word := (word &&& ~~~ (0xFF : Word)) ||| (p &&& 0xFE) ||| (0x100000000000000 : Word)
      let part := (h.ownOf (h.devChannel pteAt)).part
      let u := (h.putWordAt pteAt new).nextOp
      (¬goes → s.beginEviction e = skipped h) ∧
      (goes → s.beginEviction e =
        (u.2.dropTranslations ((List.range 4096).filter fun n => u.2.corePart n == part) fun v => v.pteAt == pteAt).onEngine e fun t =>
          { t with evict := some { id := u.1, pteAt := pteAt, old := p, new := new, part := part } })))

/-- ERROR_RETRY (spec/13_traps.md R235 to R237): an error that a retry mends is reported, one that lasts withdraws the part
that it
names: a core with its tasks, half a channel with its unit, a link, a drive; a line of memory with lost data is poisoned and the
loads under way for it trap 0x73. KIND and UNIT of late records (log entry 47), the task that an error strikes (log entry 25), drive
numbers (log entry 23) and what a withdrawal brings with it (log entry 36) are the model's. -/
def Sys2Proof.Machine.Claim.ErrorsAreRetried : Prop :=
  (∀ (s : State) (lasting : Bool),
    (∀ k, s.task? k = none → exec (.errorRetry (.registerCache k) lasting) s = .next s) ∧
    (∀ k t, s.task? k = some t → exec (.errorRetry (.registerCache k) lasting) s =
      .next (s.coreError t.sched.core 0x70 0 (some (k, t)) lasting)) ∧
    (∀ core, exec (.errorRetry (.fetchParity core) lasting) s = .next (s.coreError core 0x71 0 (s.struckTask core) lasting)) ∧
    (∀ core off, exec (.errorRetry (.localStore core off) lasting) s =
      .next (s.coreError core 0x74 (off % 2 ^ 19) (s.struckTask core) lasting)) ∧
    (∀ pa, spaceOf pa ≠ .dram → exec (.errorRetry (.dram pa) lasting) s = .next s) ∧
    (∀ pa, spaceOf pa = .dram →
      let ch := s.devChannel pa
      let half := s.halfOf pa
      exec (.errorRetry (.dram pa) lasting) s = .next (if lasting then
          (s.withdrawHalves ch (if half = 1 then 2 else 1) half 0x73 pa (if s.handlerHit ch pa then 0x4E else 0)).lineLost (lineAt pa)
        else s.ras 1 0x73 0 (2 * ch + half) pa 0)) ∧
    (∀ pa dirty, spaceOf pa ≠ .dram → exec (.errorRetry (.cacheLine pa dirty) lasting) s = .next s) ∧
    (∀ pa dirty, spaceOf pa = .dram →
      let line := lineAt pa
      let v : State := if dirty then (s.onMem fun m =>
          { m with poison := if m.poison.contains line then m.poison else line :: m.poison }).lineLost line
        else if (s.mem.l2.find? line).any (fun c => c.dirty == 0) then s.onMem fun m => { m with l2 := m.l2.erase line } else s
      exec (.errorRetry (.cacheLine pa dirty) lasting) s = .next (if lasting then
          v.withdrawHalves (s.devChannel pa) 3 (v.halfOf pa) 0x73 pa 0
        else v.ras 1 0x73 0 (2 * s.devChannel pa + v.halfOf pa) pa 0)) ∧
    (∀ n, exec (.errorRetry (.link n) lasting) s = .next (if lasting then
        (s.onDev fun d => { d with badLinks := if d.badLinks.contains n then d.badLinks else n :: d.badLinks }).ras 3 0x77 3 n 0 0
      else s.ras 3 0x77 0 n 0 0)) ∧
    (∀ e n, exec (.errorRetry (.drive e n) lasting) s = .next (if 8 ≤ e then s else if lasting then
        (s.driveGone e (n % 4)).ras 4 0x25 3 (4 * e + n % 4) 0 0 else s.ras 4 0x25 0 (4 * e + n % 4) 0 0)) ∧
    (∀ die pa, spaceOf pa ≠ .dram ∨ 4 ≤ die → exec (.errorRetry (.rdcLine die pa) lasting) s = .next s) ∧
    (∀ die pa, spaceOf pa = .dram → die < 4 →
      let line := lineAt pa
      let ch := 64 * die + s.devChannel pa % 64
      let gone := s.onMem fun m => { m with rdc := m.rdc.erase (rdcKey die line) }
      let v : State := match s.mem.rdc.find? (rdcKey die line) with
        | none => s
        | some c => if c.dirty = 0 then gone else (gone.onMem fun m =>
            { m with poison := if m.poison.contains line then m.poison else line :: m.poison }).lineLost line
      exec (.errorRetry (.rdcLine die pa) lasting) s = .next
        (if lasting then v.withdrawHalves ch 3 0 0x73 pa 0 else v.ras 1 0x73 0 (2 * ch) pa 0)) ∧
    (∀ c a t,
      let place := s.lateUnit c.toNat a.toNat t
      (0x32 ≤ c.toNat → c.toNat ≤ 0x3F →
        exec (.errorRetry (.late c a t) lasting) s = .next (s.ras place.1 c.toNat 2 place.2 a.toNat t)) ∧
      (c.toNat < 0x32 ∨ 0x3F < c.toNat → exec (.errorRetry (.late c a t) lasting) s = .next s))) ∧
  (∀ (s : State) (core cause addr key : Nat) (t : Task), core < 4096 →
    s.coreError core cause addr (some (key, t)) false = s.ras 0 cause 0 core addr t.sys.tid ∧
    s.coreError core cause addr (some (key, t)) true =
      (s.withdrawCore core fun k => if k = key then cause else 0x75).ras 0 cause 3 core addr t.sys.tid) ∧
  (∀ (s : State) (kind cause sev unit addr : Nat) (task : Word),
    let size := 2 ^ (s.dev.rlog + 7)
    let w := s.ras kind cause sev unit addr task
    let full := (s.dev.rhead - s.dev.rtail).toNat + s.dev.rasq.length = size
    let behind := s.dev.rasq ≠ [] ∨ (s.dev.rbase ≠ 0 ∧ s.heldLine s.dev.rasAt = true)
    (full → w.dev.rhead = s.dev.rhead ∧ w.dev.rlost = min 255 (s.dev.rlost + 1) ∧ w.mem = s.mem) ∧
    (¬full → behind → w = s.onDev fun d =>
      { d with rasq := d.rasq ++ [rasRecord kind cause sev unit addr task s.dev.cycle] }) ∧
    (¬full → ¬behind → w.dev.rhead = s.dev.rhead + 1 ∧ w.dev.rlost = s.dev.rlost ∧
      (s.dev.rbase = 0 → w.mem = s.mem ∧ w.dev.out = s.dev.out) ∧
      (s.dev.rbase ≠ 0 → w.dev.out = if (sev ≠ 0 ∨ s.dev.ten = true) ∧ s.dev.iid ≠ 0 then
        s.dev.out ++ [.msi s.dev.rhart s.dev.iid] else s.dev.out)))

/-- SCRUB_COMPLETE (spec/23_host.md R352): after 2^22 cycles the channel reads zero and belongs to its new partition under its
key;
nothing of it is left in a cache. TLBINV_COMPLETION (spec/13_traps.md R243): once the stores before it, the stores and offers under what
goes, and the lines that a lease holds back in the RDC slices are at their homes, the translations go, and whoever waits for it goes on. -/
def Sys2Proof.Machine.Claim.ScrubsAndInvalidationsComplete : Prop :=
  (∀ (s : State) (ch : Nat),
    ((s.ownOf ch).scrub = none → exec (.scrubComplete ch) s = .next s) ∧
    (∀ p ends, (s.ownOf ch).scrub = some (p, ends) →
      (s.dev.cycle < ends → exec (.scrubComplete ch) s = .next s) ∧
      (ends ≤ s.dev.cycle → Claim.Gives (.scrubComplete ch) s fun w =>
        w = { s with mem := w.mem, dev := w.dev } ∧ w.ownOf ch = { s.ownOf ch with part := p, scrub := none } ∧
        (∀ c, c ≠ ch → w.ownOf c = s.ownOf c) ∧ w.mem.chanKey.find? ch = some (s.dev.keys.get 0 p) ∧
        (∀ e ∈ w.mem.dram, e.1 / 2 ^ 31 ≠ ch) ∧ (∀ e ∈ s.mem.dram, e.1 / 2 ^ 31 ≠ ch → e ∈ w.mem.dram) ∧
        ∀ e ∈ w.mem.l2, spaceOf e.1 = .dram → s.devChannel e.1 ≠ ch))) ∧
  (∀ (s : State) (id : Nat), (∀ v ∈ s.tlbinvs, v.id ≠ id) → exec (.tlbinvCompletion id) s = .next s) ∧
  (∀ (s : State) (v : TlbInv), s.tlbinvs.find? (fun x => x.id == v.id) = some v →
    let stores := ∃ k t x, v.task = some k ∧ s.task? k = some t ∧ x ∈ t.stores ∧ x.op ∈ v.stores
    let under (core pa : Nat) : Prop :=
      ∃ t ∈ (s.core core).tlb, (v.all = true ∨ t.covered v.va.toNat v.size = true) ∧ t.names (pageAt pa) = true
    let writes := ∃ e ∈ s.allTasks, e.2.sched.core ∈ v.cores ∧ ((∃ st ∈ e.2.stores, ∃ p ∈ st.places, under e.2.sched.core p.1) ∨
      ∃ l ∈ e.2.long, ∃ o, l.act = .offer o ∧ o.reply = none ∧ o.owner = none ∧ under e.2.sched.core o.pa)
    let targets := (v.cores.map dieOf).eraseDups
    let dies := match v.task.bind s.task? with
      | some t => if targets.contains (dieOf t.sched.core) then targets else dieOf t.sched.core :: targets
      | none => targets
    let u := dies.foldl State.writeThroughAll s
    (stores ∨ writes → exec (.tlbinvCompletion v.id) s = .next s) ∧
    (¬stores → ¬writes → (∃ d ∈ dies, u.rdcBlocked d = true) → exec (.tlbinvCompletion v.id) s = .next u) ∧
    (¬stores → ¬writes → (∀ d ∈ dies, u.rdcBlocked d = false) → Claim.Gives (.tlbinvCompletion v.id) s fun w =>
      w.tlbinvs = s.tlbinvs.filter (fun x => x.id != v.id) ∧
      (∀ n ∈ v.cores, ∀ t ∈ (w.core n).tlb, v.all = false ∧ t.covered v.va.toNat v.size = false) ∧
      ∀ n, n ∉ v.cores → (w.core n).tlb = (s.core n).tlb))

/-- Events of the storage engines and of detected errors: services, commands, evictions, retries, scrubs and invalidations
(spec/21_launch_storage.md R339 to R347, spec/13_traps.md R235 to R243). Drive numbers (log entry 23), the struck task (log
entry 25), the consequences of a withdrawal (log entry 36) and KIND and UNIT of late records (log entry 47) are the model's.
-/
def Obligations.StorageAndErrorEventsComplete : Prop :=
  Claim.ServicesGoOn ∧ Claim.CommandsEnd ∧ Claim.EvictionsRun ∧ Claim.ErrorsAreRetried ∧ Claim.ScrubsAndInvalidationsComplete

/-! ### Events from outside the device (spec/23_host.md R349 to R364, spec/24_host_notes.md R365, R366) -/

namespace Sys2Proof.Machine

/-- What a requester outside learns of an access that is refused (spec/23_host.md R350). -/
def Claim.refusal (s : State) (who : Requester) : State :=
  match who with
  | .pcie _ _ => s.emit .unsupported
  | .hart h => s.emit (.hart h .accessFault)

/-- The answer to an access from outside that reached the places `ps`, from the state `f` that translating them led to: `ends`
says of a
state that the access, made in `s`, ends in it. -/
def Claim.Answered (ends : State → Prop) (s f : State) (who : Who) (ps : List Place) (w : Option (List Byte)) (full : Bool)
    (ok : State → List Byte → State) (refused : State → HartAnswer → State) : Prop :=
  (∀ bs g, f.outside who ps w full = (.ok bs, g) → ends (ok g bs)) ∧
  (∀ why g, f.outside who ps w full = (.fault why, g) → ends (refused g why)) ∧
  (∀ g, f.outside who ps w full = (.wait, g) → ends s)

/-- A host-port block takes a new value. -/
def Claim.onHost (s : State) (b : Nat) (f : HostBlock → HostBlock) : State :=
  s.onDev fun d => { d with host := d.host.put b (f (d.host.get {} b)) }

end Sys2Proof.Machine

/-- OWNERSHIP_WRITE, KEY_WRITE and REGISTER_WRITE (spec/23_host.md R349 to R352): a requester outside partition 0, or one that
is not up
(R362), is refused; cores in
use keep their partition; the partition of a channel changes by a scrub of 2^22 cycles; a key is written whole or in parts while
no launch of its partition lives; the registers of a core keep their aligned parts. A line reads as it was written under its key and
tweak; under another, as AES-XTS-256 makes of it (R351, R352). -/
def Sys2Proof.Machine.Claim.RegistersAreWritten : Prop :=
  (∀ (s : State) (who : Requester) (off width : Nat) (v : Word),
    let denied := s.ctlCheck (Who.ofRequester who) off width true
    (denied = none → exec (.registerWrite who off width v) s = .next (s.ctlWrite off width v.toNat)) ∧
    (denied ≠ none → exec (.registerWrite who off width v) s = .next (Claim.refusal s who))) ∧
  (∀ (s : State) (who : Requester) (off width : Nat) (v : Word),
    let denied := s.ctlCheck (Who.ofRequester who) (0x3000000 + off) width true
    let table := 0x400 ≤ off ∧ off < 0x30000
    (¬table → exec (.ownershipWrite who off width v) s = .next s) ∧
    (table → denied = none → exec (.ownershipWrite who off width v) s = .next (s.ctlWrite (0x3000000 + off) width v.toNat)) ∧
    (table → denied ≠ none → exec (.ownershipWrite who off width v) s = .next (Claim.refusal s who))) ∧
  (∀ (s : State) (h : Nat) (v : Word), s.dev.stage = 2 → h < 32 →
    (∀ ch < 256, Claim.Gives (.ownershipWrite (.hart h) (0x400 + 8 * ch) 8 v) s fun w =>
      w = { s with dev := { s.dev with chan := w.dev.chan } } ∧ (∀ c, c ≠ ch → w.ownOf c = s.ownOf c) ∧
      (w.ownOf ch).part = (s.ownOf ch).part ∧
      (w.ownOf ch).scrub = (if (s.ownOf ch).part ≠ v.toNat % 16 ∧ s.partLive (s.ownOf ch).part = false ∧ (s.ownOf ch).scrub = none
        then some (v.toNat % 16, s.dev.cycle + 2 ^ 22) else (s.ownOf ch).scrub) ∧
      (w.ownOf ch).crm = if s.regionOn (s.ownOf ch).part ch = true then (s.ownOf ch).crm else v.getLsbD 4) ∧
    (∀ m < 512, Claim.Gives (.ownershipWrite (.hart h) (0xC00 + 8 * m) 8 v) s fun w => w = { s with dev := w.dev } ∧
      ∀ n, w.corePart n = if 8 * m ≤ n ∧ n < 8 * m + 8 ∧ s.coreInUse n = false then v.toNat / 256 ^ (n - 8 * m) % 16
        else s.corePart n) ∧
    (∀ p word, p < 16 → word < 8 → Claim.Gives (.keyWrite (.hart h) p word v) s fun w =>
      w = { s with dev := { s.dev with keys := w.dev.keys } } ∧ (∀ q, q ≠ p → w.dev.keys.get 0 q = s.dev.keys.get 0 q) ∧
      (s.partLive p = true → w.dev.keys = s.dev.keys) ∧
      (s.partLive p = false → ∀ k < 64, sliceLine (w.dev.keys.get 0 p) k 1 =
        if 8 * word ≤ k ∧ k < 8 * word + 8 then v.toNat / 256 ^ (k - 8 * word) % 256 else sliceLine (s.dev.keys.get 0 p) k 1)) ∧
    (∀ p word, 16 ≤ p ∨ 8 ≤ word → exec (.keyWrite (.hart h) p word v) s = .next s) ∧
    (∀ n < 4096,
      let put (k : Nat) (f : Core → Core) : Prop := exec (.registerWrite (.hart h) (64 * n + k) 8 v) s = .next (s.onCore n f)
      put 0 (fun c => { c with hentry := v &&& ~~~ (0x38 : Word) }) ∧
      put 8 (fun c => { c with fpbase := BitVec.ofNat 64 (v.toNat / 4096 * 4096) }) ∧
      put 16 (fun c => { c with fplim := BitVec.ofNat 64 (v.toNat / 4096 * 4096) }) ∧
      put 24 (fun c => { c with fmap := BitVec.ofNat 64 (v.toNat / 16384 * 16384) }))) ∧
  (∀ (s : State) (who : Who) (off : Nat) (r : CtlReg), ctlReg off = some r → off % 8 = 0 →
    ((s.ctlCheck who off 8 true = none ↔ s.reaches who r = true) ∧
     (s.isUp who = false → s.reaches who r = false) ∧
     (s.dev.stage = 2 → s.isUp who = true → (∀ n k, r = .core n k → (s.reaches who r = who.manages)) ∧
      (∀ q k, r = .context q k → (s.reaches who r = decide (who.part = s.queuePart q)))) ∧
     (s.dev.stage ≠ 2 → ∀ n k, r = .core n k → s.reaches who r = false))) ∧
  (∀ (s : State),
    (∀ h, s.isUp (.hart h) = true ↔ h < 32 ∧ (s.dev.stage = 2 ∨ (s.dev.stage = 1 ∧ h = 0))) ∧
    ∀ port part, s.isUp (.pcie port part) = true ↔ port < 6 ∧ (s.dev.stage = 2 ∨ (s.dev.stage = 1 ∧ port = 0))) ∧
  (∀ (s : State) (pa : Nat) (x : Line),
    (s.chanPut pa x).chanRead pa = x ∧
    ∀ k, s.mem.lineKey.find? (s.cellOf (lineAt pa) / 64) = some k →
      let raw := BitVec.ofNat 512 (readCells s.mem.dram (s.cellOf (lineAt pa)) 64)
      let now := s.keyNow (lineAt pa)
      (k = now → s.chanRead pa = raw) ∧
      (∀ old new, k.key = some old → now.key = some new → k ≠ now →
        s.chanRead pa = xtsDecrypt new now.tweak (xtsEncrypt old k.tweak raw)))

/-- HOST_ACQ, HOST_ACQS, HOST_RLS and HOST_TLBINV (spec/23_host.md R355): a port that is up and has no operation running
requests the
object exclusively or shared, or releases it, with 0x64 where its state does not allow it; a translation is invalidated on the
cores that the selector names. -/
def Sys2Proof.Machine.Claim.HostPortsAct : Prop :=
  (∀ (s : State) (b : Nat) (o : Word) (cmd : BitVec 5) (p : Nat),
    let up := b < 48 ∧ (s.dev.stage = 2 ∨ (s.dev.stage = 1 ∧ b = 0))
    let line := o.toNat / 64 * 64
    (¬up → exec (.hostAcq b o) s = .next s ∧ exec (.hostAcqs b o) s = .next s ∧ exec (.hostRls b o) s = .next s ∧
      exec (.hostTlbinv b p cmd) s = .next s) ∧
    (up → exec (.hostAcq b o) s = .next (s.hostGuard b line 0) ∧ exec (.hostAcqs b o) s = .next (s.hostGuard b line 1) ∧
      exec (.hostRls b o) s = .next (s.hostGuard b line 2) ∧
      (16 ≤ p → exec (.hostTlbinv b p cmd) s = .next s) ∧ (p < 16 → exec (.hostTlbinv b p cmd) s = .next (s.hostTlb b p cmd)))) ∧
  (∀ (s : State) (b pa gop : Nat),
    let h := s.dev.host.get {} b
    let v := Claim.onHost s b fun h => { h with gdone := false, gop := gop }
    (h.gdone = false ∨ gop = 3 → s.hostGuard b pa gop = s) ∧
    (h.gdone = true → gop ≠ 3 → spaceOf pa ≠ .dram →
      s.hostGuard b pa gop = Claim.onHost v b fun h => { h with gdone := true, gerr := 0x64 }) ∧
    (h.gdone = true → gop < 2 → spaceOf pa = .dram → s.hostGuard b pa gop =
      v.guardArrive pa { who := .host b, holder := hostHolder b, shared := decide (gop = 1), scope := .system }) ∧
    (h.gdone = true → gop = 2 → spaceOf pa = .dram → v.heldLine pa = true →
      s.hostGuard b pa gop = Claim.onHost v b fun h => { h with release := some pa }) ∧
    (h.gdone = true → gop = 2 → spaceOf pa = .dram → v.heldLine pa = false → ∀ g f, v.guardRead none pa = (g, f) →
      (g.w = true → g.holder = hostHolder b → s.hostGuard b pa gop = Claim.onHost
        (f.guardWrite pa { g with w := false, holder := 0, phase := g.phase + 1 }) b fun h => { h with gdone := true, gerr := 0, release := none }) ∧
      (g.w = true → g.holder ≠ hostHolder b →
        s.hostGuard b pa gop = Claim.onHost f b fun h => { h with gdone := true, gerr := 0x64, release := none }) ∧
      (g.w = false → 0 < g.rdrs → s.hostGuard b pa gop = Claim.onHost
        (f.guardWrite pa { g with rdrs := g.rdrs - 1 }) b fun h => { h with gdone := true, gerr := 0, release := none }) ∧
      (g.w = false → g.rdrs = 0 →
        s.hostGuard b pa gop = Claim.onHost f b fun h => { h with gdone := true, gerr := 0x64, release := none }))) ∧
  (∀ (s : State) (b p : Nat) (cmd : BitVec 5),
    let h := s.dev.host.get {} b
    (h.pending ≠ [] ∨ cmd.toNat / 8 = 3 → s.hostTlb b p cmd = s) ∧
    (h.pending = [] → cmd.toNat / 8 ≠ 3 → ∃ v : TlbInv, (s.hostTlb b p cmd).tlbinvs = s.tlbinvs ++ [v] ∧
      ((s.hostTlb b p cmd).dev.host.get {} b).pending = [v.id] ∧ v.task = none ∧ v.all = cmd.getLsbD 2 ∧
      (v.all = false → v.va = h.tva) ∧ v.size = [12, 16, 21, 30].getD (cmd.toNat % 4) 0 ∧
      (cmd.toNat / 8 = 2 → ∀ n, n ∈ v.cores ↔ n < 4096 ∧ s.corePart n = p)))

/-- COWSLIP_VERIFY, RECOVERY_IMAGE, FULL_START, MLAYOUT, DIE_JOIN (spec/23_host.md R360 to R362, spec/24_host_notes.md R365):
a verified
image starts stage 1, another leaves FAIL and waits for recovery; the fields of an image's header, and the order format, signatures,
rollback of the checks, are the model's (log entry 9); layouts are held until FULL is written, which die 0 applies at
once; each die applies its own as it joins; stage 2 begins once every die has joined or been withdrawn. -/
def Sys2Proof.Machine.Claim.StagesStart : Prop :=
  (∀ (s : State),
    let waiting := s.dev.stage = 0 ∧ s.dev.fail = 0
    (¬waiting → exec .cowslipVerify s = .next s) ∧
    (waiting → ∀ f, s.imageFault (Config.header s.dev.flash) = some f → exec .cowslipVerify s = .next (s.onDev fun d => { d with fail := f })) ∧
    (waiting → ∀ h, Config.header s.dev.flash = some h → s.imageFault (some h) = none → exec .cowslipVerify s =
      .next (s.onDev fun d => { d with stage := 1, svn := h.svn, endpoint := h.endpoint })) ∧
    s.imageFault none = some 3 ∧
    (∀ h : Config.ImageHeader,
      let bad := 2 ^ 26 < h.body.length ∨ h.ecdsaKey.length ≠ 96 ∨ h.ecdsaSig.length ≠ 96
      let digest := sha384 h.body
      let signed := P384.verifies (bigNat (h.ecdsaKey.take 48), bigNat (h.ecdsaKey.drop 48)) digest (bigNat (h.ecdsaSig.take 48))
          (bigNat (h.ecdsaSig.drop 48)) = true ∧ Lms.verifies h.lmsKey digest h.lmsSig = true ∧
        bigNat (sha384 h.ecdsaKey ++ sha384 h.lmsKey) = s.dev.digest.toNat
      (bad → s.imageFault (some h) = some 3) ∧ (¬bad → ¬signed → s.imageFault (some h) = some 1) ∧
      (¬bad → signed → s.imageFault (some h) = if h.svn.toNat < s.dev.rollback.toNat then some 2 else none)) ∧
    (∀ n : Word,
      let image := (List.range n.toNat).map fun k => s.dev.bar0.get 0 k
      let taken := s.dev.stage = 0 ∧ s.dev.fail ≠ 0 ∧ n.toNat ≤ 2 ^ 26 ∧ s.imageFault (Config.header image) = none
      (¬taken → exec (.recoveryImage n) s = .next s) ∧
      (taken → Claim.Gives (.recoveryImage n) s fun w =>
        w.dev.flash = image ∧ w.dev.digest = s.dev.digest ∧ w.dev.rollback = s.dev.rollback ∧ w.dev.stage = 0 ∧ w.dev.fail = 0 ∧
        w.mem = State.reset.mem ∧ w.cores = State.reset.cores ∧ w.tasks = State.reset.tasks ∧ w.launches = State.reset.launches)) ∧
    (exec .fullStart s = .next s.startFull) ∧
    (s.dev.stage ≠ 1 ∨ s.dev.starting = true → s.startFull = s) ∧
    (s.dev.stage = 1 → s.dev.starting = false → s.startFull.dev.starting = true ∧ (∀ d < 4, (s.startFull.die d).joined = false ∧
      (s.startFull.die d).withdrawn = false) ∧ (s.startFull.die 0).cxu = (s.die 0).cxuHeld.getD (s.die 0).cxu) ∧
    (∀ die v,
      let held := s.dev.stage = 1 ∧ s.dev.starting = false ∧ die < 4 ∧ v.toNat % 16 ≤ 8
      (¬held → exec (.mlayout die v) s = .next s) ∧
      (held → exec (.mlayout die v) s = .next (s.onDie die fun d => { d with cxuHeld := some (v.toNat % 16) })))) ∧
  (∀ (s : State) (die : Nat) (ok : Bool),
    let due := s.dev.stage = 1 ∧ s.dev.starting = true ∧ die < 4 ∧ (s.die die).joined = false ∧ (s.die die).withdrawn = false
    (¬due → exec (.dieJoin die ok) s = .next s) ∧
    (due → ok = true → exec (.dieJoin die ok) s = .next ((s.applyLayout die).onDie die fun d => { d with joined := true }).stageTwo) ∧
    (due → ok = false → die = 0 → exec (.dieJoin die ok) s = .next (s.onDev fun d => { d with starting := false, fail := 4 })) ∧
    (due → ok = false → die ≠ 0 → exec (.dieJoin die ok) s = .next (s.withdrawDie die).stageTwo ∧
      ((s.withdrawDie die).die die).withdrawn = true ∧ ∀ k < 1024, ((s.withdrawDie die).core (1024 * die + k)).withdrawn = true) ∧
    (let all := ∀ d < 4, (s.die d).joined = true ∨ (s.die d).withdrawn = true
     (¬all → s.stageTwo = s) ∧ (all → s.stageTwo.dev = { s.dev with
       stage := 2, starting := false, rollback := if s.dev.rollback.toNat < s.dev.svn.toNat then s.dev.svn else s.dev.rollback })))

/-- THROTTLE_STEP_DOWN, THROTTLE_STEP_UP and THERMAL_TRIP (spec/23_host.md R356, R363, R364): TMAX is the hottest of the die
sensors; a
step of the clock down once it has been above TLIM for 2^20 cycles, up once it has been 5 °C below, at most four; at a trip temperature of a
die or of a stack the device stops. That the 2^20 cycles count from the change of the condition or the last step, whichever is later, is the
model's reading (log entry 24). -/
def Sys2Proof.Machine.Claim.ClocksFollowTheHeat : Prop :=
  (∀ (s : State),
    let full := s.dev.stepAt + 2 ^ 20 ≤ s.dev.cycle
    let down := s.dev.tlim.toNat < s.dev.tmax ∧ s.dev.step < 4 ∧ full
    let up := s.dev.tmax + 5 ≤ s.dev.tlim.toNat ∧ 0 < s.dev.step ∧ full
    let trips := (115 ≤ s.dev.tmax ∨ ∃ n < 4, 105 ≤ (s.die n).stack0.toNat ∨ 105 ≤ (s.die n).stack1.toNat) ∧ s.dev.stopped = false
    (¬down → exec .throttleStepDown s = .next s) ∧
    (down → exec .throttleStepDown s = .next (s.onDev fun d => { d with step := d.step + 1, stepAt := d.cycle })) ∧
    (¬up → exec .throttleStepUp s = .next s) ∧
    (up → exec .throttleStepUp s = .next (s.onDev fun d => { d with step := d.step - 1, stepAt := d.cycle })) ∧
    (¬trips → exec .thermalTrip s = .next s) ∧
    (trips → Claim.Gives .thermalTrip s fun w =>
      w = { s with dev := { s.dev with fail := 5, stopped := true, out := s.dev.out ++ [.removePower] } } ∧
      step w = .fault .clocksStopped)) ∧
  (∀ (d : Dev), (∀ e ∈ d.sensors, e.2.toNat ≤ d.tmax) ∧ (d.sensors = [] → d.tmax = 0) ∧
    (d.sensors ≠ [] → ∃ e ∈ d.sensors, e.2.toNat = d.tmax)) ∧
  (∀ (s : State) (n : Nat) (x : BitVec 8),
    let w := s.heat n x
    let hot (d : Dev) : Prop := d.tlim.toNat < d.tmax
    let cool (d : Dev) : Prop := d.tmax + 5 ≤ d.tlim.toNat
    let same := (hot w.dev ↔ hot s.dev) ∧ (cool w.dev ↔ cool s.dev)
    (5 ≤ n → w = s) ∧
    (n < 5 → w.dev.sensors = s.dev.sensors.set 0 n x ∧ (same → w.dev.stepAt = s.dev.stepAt) ∧ (¬same → w.dev.stepAt = s.dev.cycle) ∧
      w = { s with dev := { s.dev with sensors := w.dev.sensors, stepAt := w.dev.stepAt } })) ∧
  (∀ s w : State, step s = .next w → w.tripped = true → w.dev.stopped = true)

/-- PCIE_INBOUND, PEROLD_INBOUND and YARROW_HART_ACCESS (spec/23_host.md R353 to R359, R361): a request is answered through
its entry's
queue and partition, a peer's through its entry, a hart's through its walk; what an entry does not allow is an Unsupported
Request, and what a hart may not do is its fault; a sealed page refuses a peer's writes; a notice that is acknowledged is gone. While the
device waits for recovery, port 0 takes only the image. That a PCIe offer is an Unsupported Request (log entry 38, DEDUCED), that a function
of the endpoint serves only an entry of its partition (log entry 24), and what a read of the length word gives (log entry 9), are the
model's. -/
def Sys2Proof.Machine.Claim.AccessesFromOutsideEnd : Prop :=
  (∀ (s : State) (port bus : Nat) (r : Inbound),
    let e := s.dev.requesters.get {} (port * 256 + bus % 256)
    let i := Instr.pcieInbound port bus r
    let unsupported := exec i s = .next (s.emit .unsupported)
    let up := port < 6 ∧ (s.dev.stage = 2 ∨ (s.dev.stage = 1 ∧ port = 0))
    let endpoint := port = 0 ∧ s.dev.endpoint = true
    let recovering := s.dev.stage = 0 ∧ s.dev.fail ≠ 0
    (recovering → port = 0 → exec i s = s.recoveryRequest r) ∧ (¬up → ¬(recovering ∧ port = 0) → exec i s = .next s) ∧
    (up →
      (∀ n x, r = .toFunction n x →
        let served := endpoint ∧ 1 ≤ n ∧ n ≤ 15 ∧ s.queuePart e.queue = n
        (¬served → unsupported) ∧ (served → exec i s = .next (s.pcieRequest port bus x))) ∧
      ((∀ n x, r ≠ .toFunction n x) → (endpoint → s.queuePart e.queue ≠ 0 → unsupported) ∧
        (endpoint → s.queuePart e.queue = 0 → exec i s = .next (s.pcieRequest port bus r)) ∧
        (¬endpoint → exec i s = .next (s.pcieRequest port bus r))))) ∧
  (∀ (s : State) (port bus : Nat) (r : Inbound),
    let e := s.dev.requesters.get {} (port * 256 + bus % 256)
    let root := (s.queue e.queue).root.toNat * 1024
    let part := s.queuePart e.queue
    let ends (t : State) : Prop := s.pcieRequest port bus r = t
    let refused (f : State) (_ : HartAnswer) : State := f.emit .unsupported
    (e.v = false → ends (s.emit .unsupported)) ∧
    (e.v = true →
      (∀ va n ps f, r = .read va n → placesOf (pciePlace root part false) s va n = (ps, f) →
        Claim.Answered ends s f (.pcie port part) ps none false (fun g bs => g.emit (.reply bs)) refused) ∧
      (∀ va bs ps f, r = .write va bs → placesOf (pciePlace root part true) s va bs.length = (ps, f) →
        Claim.Answered ends s f (.pcie port part) ps (some bs) true (fun g _ => g) refused) ∧
      (∀ a, r = .fetchSealed a → ends (s.emit .unsupported)) ∧
      (∀ a op wide b c, r = .offer a op wide b c → ends (s.emit .unsupported)))) ∧
  (∀ (s : State) (a : Word) (n : Nat) (bs : List Byte),
    let unsupported (r : Inbound) : Prop := s.recoveryRequest r = .next (s.emit .unsupported)
    (a.toNat + n ≤ 2 ^ 26 → s.recoveryRequest (.read a n) =
      .next (s.emit (.reply ((List.range n).map fun k => s.dev.bar0.get 0 (a.toNat + k))))) ∧
    (2 ^ 26 < a.toNat + n → a.toNat + n ≤ 2 ^ 26 + 8 → ∃ xs, xs.length = n ∧ s.recoveryRequest (.read a n) =
      .next ((s.freeBytes n).2.emit (.reply xs))) ∧
    (2 ^ 26 + 8 < a.toNat + n → unsupported (.read a n)) ∧
    (a.toNat + bs.length ≤ 2 ^ 26 → ∃ w, s.recoveryRequest (.write a bs) = .next w ∧ w = { s with dev := { s.dev with bar0 := w.dev.bar0 } } ∧
      ∀ k, w.dev.bar0.get 0 k = if a.toNat ≤ k ∧ k < a.toNat + bs.length then bs.getD (k - a.toNat) 0 else s.dev.bar0.get 0 k) ∧
    (a.toNat = 2 ^ 26 → bs.length = 8 → s.recoveryRequest (.write a bs) = exec (.recoveryImage (BitVec.ofNat 64 (ofBytes bs))) s) ∧
    (2 ^ 26 < a.toNat + bs.length → ¬(a.toNat = 2 ^ 26 ∧ bs.length = 8) → unsupported (.write a bs)) ∧
    (∀ x, unsupported (.fetchSealed x)) ∧ ∀ x op wide b c, unsupported (.offer x op wide b c)) ∧
  (∀ (s : State) (peer part : Nat) (r : Inbound),
    let e := s.dev.peers.get {} (peer % 64)
    let i := Instr.peroldInbound peer part r
    let ends (t : State) : Prop := exec i s = .next t
    let unsupported (f : State) : State := f.emit .unsupported
    let refused (f : State) (_ : HartAnswer) : State := f.emit .unsupported
    let known := e.v = true ∧ e.remp = part
    (s.dev.stage ≠ 2 → exec i s = .next s) ∧
    (s.dev.stage = 2 →
      (∀ page, r = .ackNotice page → exec i s =
        .next (s.onDev fun d => { d with notices := d.notices.filter fun x => x != (page, peer) })) ∧
      (¬known → (∀ page, r ≠ .ackNotice page) → exec i s = .next (unsupported s)) ∧
      (known →
        (∀ a n ps f, r = .read a n → placesOf (peerPlace e.locp) s a n = (ps, f) →
          Claim.Answered ends s f (.task e.locp) ps none false (fun g bs => g.emit (.reply bs)) refused) ∧
        (∀ a bs, r = .write a bs → (∃ k < bs.length, s.sealedPage (a.toNat + k) = true) → exec i s = .next (unsupported s)) ∧
        (∀ a bs ps f, r = .write a bs → (∀ k < bs.length, s.sealedPage (a.toNat + k) = false) →
          placesOf (peerPlace e.locp) s a bs.length = (ps, f) →
          Claim.Answered ends s f (.task e.locp) ps (some bs) false (fun g _ => g) refused) ∧
        (∀ a op wide b c pa fe f, r = .offer a op wide b c → peerPlace e.locp s a = (.dram pa fe, f) →
          let ty : Ty := if wide then .n64 else .n32
          let no := portAtomic op = false ∨ pa % (ty.width / 8) ≠ 0 ∨ f.sealedPage pa = true
          (no → exec i s = .next (unsupported f)) ∧
          (¬no → ∀ old g, f.homeAtomic pa op ty b c = (old, g) → exec i s = .next (g.emit (.reply old))))))) ∧
  (∀ (s : State) (h : Nat) (a : HartAccess),
    let i := Instr.yarrowHartAccess h a
    let ends (t : State) : Prop := exec i s = .next t
    let up := (s.dev.stage = 2 ∧ h < 32) ∨ (s.dev.stage = 1 ∧ h = 0)
    let bytes (g : State) (bs : List Byte) : State := g.emit (.hart h (.bytes bs))
    let refused (f : State) (why : HartAnswer) : State := f.emit (.hart h why)
    (¬up → exec i s = .next s) ∧
    (up →
      (∀ x va n ps f, a = .fetch x va n → placesOf (hartPlace x .fetch) s va n = (ps, f) →
        Claim.Answered ends s f (.hart h) ps none false bytes refused) ∧
      (∀ x va n ps f, a = .load x va n → placesOf (hartPlace x .load) s va n = (ps, f) →
        Claim.Answered ends s f (.hart h) ps none false bytes refused) ∧
      (∀ x va n v ps f, a = .store x va n v → placesOf (hartPlace x .store) s va n = (ps, f) →
        Claim.Answered ends s f (.hart h) ps (some (toBytes n v.toNat)) false (fun g _ => g) refused) ∧
      (∀ x va op ty v, a = .amo x va op ty v →
        (∀ pa fe f, hartPlace x .amo s va = (.dram pa fe, f) →
          let whole := (ty.width = 32 ∨ ty.width = 64) ∧ ty.isInt = true ∧ pa % (ty.width / 8) = 0
          (whole → ∀ old g, f.homeAtomic pa op ty v 0 = (old, g) → exec i s = .next (bytes g old)) ∧
          (¬whole → exec i s = .next (refused f .accessFault))) ∧
        (∀ why f, hartPlace x .amo s va = (.fault why, f) → exec i s = .next (refused f why))) ∧
      (∀ p q, a = .fence p q → exec i s = .next s))) ∧
  (∀ (s : State) (x : HartSpace) (k : HartKind) (va : Word),
    (x.root = none → x.guest = none → hartPlace x k s va = (s.hartPhysical va.toNat, s)) ∧
    (∀ pa, spaceOf pa = .hole → s.hartPhysical pa = .fault .accessFault) ∧
    (∀ pa, spaceOf pa = .dram → s.dev.stage ≠ 2 → 32 ≤ s.devChannel pa → s.hartPhysical pa = .fault .accessFault))


/-- Events from outside the device: control space, host ports, the staged start, heat, peers and harts (spec/23_host.md R349
to R364). The header of an image and the order of its checks (log entry 9), how the 2^20 cycles count (log entry 24), and the
Unsupported Request of a PCIe offer (log entry 38) are the model's. -/
def Obligations.HostEventsComplete : Prop :=
  Claim.RegistersAreWritten ∧ Claim.HostPortsAct ∧ Claim.StagesStart ∧ Claim.ClocksFollowTheHeat ∧ Claim.AccessesFromOutsideEnd
end

