-- ==== Sys2Proof/Laws/Sparse.lean ====
section
/-! SUPPORT. Laws of sparse maps: reading after writing, and the canonical form. They hold of every list of entries; only the
canonical form itself needs one. -/

namespace Sys2Proof

variable {α : Type}

/-! ### Reading after writing -/

theorem Sparse.find?_insert_self (m : Sparse α) (k : Nat) (v : α) (h : m.find? k = none) : (m.insert k v).find? k = some v := by
  induction m with
  | nil => simp [Sparse.insert, Sparse.find?]
  | cons e m ih =>
    obtain ⟨k', v'⟩ := e
    simp only [Sparse.find?] at h
    split at h
    · cases h
    · simp only [Sparse.insert]
      split <;> simp [Sparse.find?, *]

theorem Sparse.find?_insert_ne (m : Sparse α) (k j : Nat) (v : α) (h : j ≠ k) : (m.insert k v).find? j = m.find? j := by
  induction m with
  | nil => simp [Sparse.insert, Sparse.find?, h.symm]
  | cons e m ih =>
    obtain ⟨k', v'⟩ := e
    simp only [Sparse.insert]
    split <;> simp [Sparse.find?, h.symm, ih]

@[simp] theorem Sparse.find?_erase_self (m : Sparse α) (k : Nat) : (m.erase k).find? k = none := by
  induction m with
  | nil => rfl
  | cons e m ih =>
    obtain ⟨k', v'⟩ := e
    by_cases h : k' = k
    · simpa [Sparse.erase, h] using ih
    · simpa [Sparse.erase, h, Sparse.find?] using ih

theorem Sparse.find?_erase_ne (m : Sparse α) {k j : Nat} (h : j ≠ k) : (m.erase k).find? j = m.find? j := by
  induction m with
  | nil => rfl
  | cons e m ih =>
    obtain ⟨k', v'⟩ := e
    by_cases hk : k' = k
    · simpa [Sparse.erase, hk, Sparse.find?, h.symm] using ih
    · have : (Sparse.erase ((k', v') :: m) k) = (k', v') :: Sparse.erase m k := by simp [Sparse.erase, hk]
      simp only [this, Sparse.find?, ih]

@[simp] theorem Sparse.find?_put_self (m : Sparse α) (k : Nat) (v : α) : (m.put k v).find? k = some v :=
  Sparse.find?_insert_self _ _ _ (Sparse.find?_erase_self m k)

theorem Sparse.find?_put_ne (m : Sparse α) {k j : Nat} (v : α) (h : j ≠ k) : (m.put k v).find? j = m.find? j := by
  rw [Sparse.put, Sparse.find?_insert_ne _ _ _ _ h, Sparse.find?_erase_ne _ h]

theorem Sparse.find?_put (m : Sparse α) (k j : Nat) (v : α) : (m.put k v).find? j = if j = k then some v else m.find? j := by
  by_cases h : j = k
  · subst h; simp
  · simp [h, Sparse.find?_put_ne]

@[simp] theorem Sparse.get_put_self (d : α) (m : Sparse α) (k : Nat) (v : α) : (m.put k v).get d k = v := by
  simp [Sparse.get]

theorem Sparse.get_put_ne (d : α) (m : Sparse α) {k j : Nat} (v : α) (h : j ≠ k) : (m.put k v).get d j = m.get d j := by
  simp [Sparse.get, Sparse.find?_put_ne m v h]

@[simp] theorem Sparse.get_erase_self (d : α) (m : Sparse α) (k : Nat) : (m.erase k).get d k = d := by simp [Sparse.get]

theorem Sparse.get_erase_ne (d : α) (m : Sparse α) {k j : Nat} (h : j ≠ k) : (m.erase k).get d j = m.get d j := by
  simp [Sparse.get, Sparse.find?_erase_ne m h]

section set
variable [DecidableEq α]

@[simp] theorem Sparse.get_set_self (d : α) (m : Sparse α) (k : Nat) (v : α) : (m.set d k v).get d k = v := by
  unfold Sparse.set
  split
  · next h => simp [h]
  · simp

theorem Sparse.get_set_ne (d : α) (m : Sparse α) {k j : Nat} (v : α) (h : j ≠ k) : (m.set d k v).get d j = m.get d j := by
  unfold Sparse.set
  split
  · exact Sparse.get_erase_ne d m h
  · exact Sparse.get_put_ne d m v h

theorem Sparse.get_set (d : α) (m : Sparse α) (k j : Nat) (v : α) : (m.set d k v).get d j = if j = k then v else m.get d j := by
  by_cases h : j = k
  · subst h; simp
  · simp [h, Sparse.get_set_ne]

end set

/-! ### The canonical form -/

/-- Every key is above a bound. -/
def Sparse.above (b : Nat) (m : Sparse α) : Prop := ∀ e ∈ m, b < e.1

theorem Sparse.rising_cons (e : Nat × α) (m : Sparse α) :
    Sparse.rising (e :: m) = true ↔ Sparse.above e.1 m ∧ Sparse.rising m = true := by
  induction m generalizing e with
  | nil => simp [Sparse.rising, Sparse.above]
  | cons x m ih =>
    obtain ⟨k, v⟩ := e
    obtain ⟨k', v'⟩ := x
    simp only [Sparse.rising, Bool.and_eq_true, decide_eq_true_eq, ih, Sparse.above, List.mem_cons, forall_eq_or_imp]
    constructor
    · rintro ⟨h, ha, hr⟩
      exact ⟨⟨h, fun e he => Nat.lt_trans h (ha e he)⟩, ha, hr⟩
    · rintro ⟨⟨h, -⟩, ha, hr⟩
      exact ⟨h, ha, hr⟩

theorem Sparse.above_erase {b k : Nat} {m : Sparse α} (h : Sparse.above b m) : Sparse.above b (m.erase k) :=
  fun e he => h e ((List.mem_filter.1 he).1)

theorem Sparse.rising_erase {m : Sparse α} (k : Nat) (h : Sparse.rising m = true) : Sparse.rising (m.erase k) = true := by
  induction m with
  | nil => rfl
  | cons e m ih =>
    obtain ⟨ha, hr⟩ := (Sparse.rising_cons e m).1 h
    by_cases hk : e.1 = k
    · simpa [Sparse.erase, hk] using ih hr
    · have : Sparse.erase (e :: m) k = e :: Sparse.erase m k := by simp [Sparse.erase, hk]
      rw [this, Sparse.rising_cons]
      exact ⟨Sparse.above_erase ha, ih hr⟩

theorem Sparse.mem_insert {m : Sparse α} {k : Nat} {v : α} {e : Nat × α} (h : e ∈ m.insert k v) : e = (k, v) ∨ e ∈ m := by
  induction m with
  | nil => simpa [Sparse.insert] using h
  | cons x m ih =>
    obtain ⟨k', v'⟩ := x
    simp only [Sparse.insert] at h
    split at h
    · simpa using h
    · rcases List.mem_cons.1 h with h | h
      · exact .inr (by simp [h])
      · rcases ih h with h | h
        · exact .inl h
        · exact .inr (List.mem_cons_of_mem _ h)

theorem Sparse.rising_insert {m : Sparse α} (k : Nat) (v : α) (h : Sparse.rising m = true) (hk : ∀ e ∈ m, e.1 ≠ k) :
    Sparse.rising (m.insert k v) = true := by
  induction m with
  | nil => rfl
  | cons x m ih =>
    obtain ⟨ha, hr⟩ := (Sparse.rising_cons x m).1 h
    obtain ⟨k', v'⟩ := x
    simp only [Sparse.insert]
    split
    · next hlt =>
      rw [Sparse.rising_cons]
      refine ⟨fun e he => ?_, h⟩
      rcases List.mem_cons.1 he with rfl | he
      · exact hlt
      · exact Nat.lt_trans hlt (ha e he)
    · next hlt =>
      rw [Sparse.rising_cons]
      refine ⟨fun e he => ?_, ih hr fun e he => hk e (List.mem_cons_of_mem _ he)⟩
      rcases Sparse.mem_insert he with rfl | he
      · have := hk (k', v') List.mem_cons_self
        simp only at this ⊢
        omega
      · exact ha e he

theorem Sparse.rising_put {m : Sparse α} (k : Nat) (v : α) (h : Sparse.rising m = true) : Sparse.rising (m.put k v) = true :=
  Sparse.rising_insert k v (Sparse.rising_erase k h) fun e he => by simpa using (List.mem_filter.1 he).2

variable [DecidableEq α]

theorem Sparse.wf_erase {d : α} {m : Sparse α} (k : Nat) (h : Sparse.wf d m = true) : Sparse.wf d (m.erase k) = true := by
  simp only [Sparse.wf, Bool.and_eq_true, List.all_eq_true] at h ⊢
  exact ⟨Sparse.rising_erase k h.1, fun e he => h.2 e ((List.mem_filter.1 he).1)⟩

theorem Sparse.wf_put {d : α} {m : Sparse α} (k : Nat) {v : α} (hv : v ≠ d) (h : Sparse.wf d m = true) :
    Sparse.wf d (m.put k v) = true := by
  simp only [Sparse.wf, Bool.and_eq_true, List.all_eq_true] at h ⊢
  refine ⟨Sparse.rising_put k v h.1, fun e he => ?_⟩
  rcases Sparse.mem_insert he with rfl | he
  · simpa using hv
  · exact h.2 e ((List.mem_filter.1 he).1)

/-- A write keeps the canonical form. -/
theorem Sparse.wf_set {d : α} {m : Sparse α} (k : Nat) (v : α) (h : Sparse.wf d m = true) : Sparse.wf d (m.set d k v) = true := by
  unfold Sparse.set
  split
  · exact Sparse.wf_erase k h
  · next hv => exact Sparse.wf_put k hv h

theorem Sparse.wf_nil (d : α) : Sparse.wf d ([] : Sparse α) = true := rfl

end Sys2Proof
end

