-- ==== Sys2Proof/Laws/State.lean ====
section
/-! SUPPORT. Laws of the state's updates: what each field is after each of them. -/

namespace Sys2Proof.Machine

open Sys2Proof

/-! ### onT -/

@[simp] theorem State.onT_t (s : State) (f : Task → Task) : (s.onT f).t = f s.t := rfl
@[simp] theorem State.onT_cur (s : State) (f : Task → Task) : (s.onT f).cur = s.cur := rfl
@[simp] theorem State.onT_tasks (s : State) (f : Task → Task) : (s.onT f).tasks = s.tasks := rfl
@[simp] theorem State.onT_logs (s : State) (f : Task → Task) : (s.onT f).logs = s.logs := rfl
@[simp] theorem State.onT_cores (s : State) (f : Task → Task) : (s.onT f).cores = s.cores := rfl
@[simp] theorem State.onT_mem (s : State) (f : Task → Task) : (s.onT f).mem = s.mem := rfl
@[simp] theorem State.onT_launches (s : State) (f : Task → Task) : (s.onT f).launches = s.launches := rfl
@[simp] theorem State.onT_clusters (s : State) (f : Task → Task) : (s.onT f).clusters = s.clusters := rfl
@[simp] theorem State.onT_sorrel (s : State) (f : Task → Task) : (s.onT f).sorrel = s.sorrel := rfl
@[simp] theorem State.onT_dies (s : State) (f : Task → Task) : (s.onT f).dies = s.dies := rfl
@[simp] theorem State.onT_teasel (s : State) (f : Task → Task) : (s.onT f).teasel = s.teasel := rfl
@[simp] theorem State.onT_nvme (s : State) (f : Task → Task) : (s.onT f).nvme = s.nvme := rfl
@[simp] theorem State.onT_dev (s : State) (f : Task → Task) : (s.onT f).dev = s.dev := rfl
@[simp] theorem State.onT_tlbinvs (s : State) (f : Task → Task) : (s.onT f).tlbinvs = s.tlbinvs := rfl
@[simp] theorem State.onT_agenda (s : State) (f : Task → Task) : (s.onT f).agenda = s.agenda := rfl
@[simp] theorem State.onT_evs (s : State) (f : Task → Task) : (s.onT f).evs = s.evs := rfl
@[simp] theorem State.onT_plan (s : State) (f : Task → Task) : (s.onT f).plan = s.plan := rfl
@[simp] theorem State.onT_ops (s : State) (f : Task → Task) : (s.onT f).ops = s.ops := rfl
@[simp] theorem State.onT_free (s : State) (f : Task → Task) : (s.onT f).free = s.free := rfl

/-! ### onCore -/

@[simp] theorem State.onCore_t (s : State) (n : Nat) (f : Core → Core) : (s.onCore n f).t = s.t := rfl
@[simp] theorem State.onCore_cur (s : State) (n : Nat) (f : Core → Core) : (s.onCore n f).cur = s.cur := rfl
@[simp] theorem State.onCore_tasks (s : State) (n : Nat) (f : Core → Core) : (s.onCore n f).tasks = s.tasks := rfl
@[simp] theorem State.onCore_logs (s : State) (n : Nat) (f : Core → Core) : (s.onCore n f).logs = s.logs := rfl
@[simp] theorem State.onCore_cores (s : State) (n : Nat) (f : Core → Core) : (s.onCore n f).cores = s.cores.set {} n (f (s.core n)) := rfl
@[simp] theorem State.onCore_mem (s : State) (n : Nat) (f : Core → Core) : (s.onCore n f).mem = s.mem := rfl
@[simp] theorem State.onCore_launches (s : State) (n : Nat) (f : Core → Core) : (s.onCore n f).launches = s.launches := rfl
@[simp] theorem State.onCore_clusters (s : State) (n : Nat) (f : Core → Core) : (s.onCore n f).clusters = s.clusters := rfl
@[simp] theorem State.onCore_sorrel (s : State) (n : Nat) (f : Core → Core) : (s.onCore n f).sorrel = s.sorrel := rfl
@[simp] theorem State.onCore_dies (s : State) (n : Nat) (f : Core → Core) : (s.onCore n f).dies = s.dies := rfl
@[simp] theorem State.onCore_teasel (s : State) (n : Nat) (f : Core → Core) : (s.onCore n f).teasel = s.teasel := rfl
@[simp] theorem State.onCore_nvme (s : State) (n : Nat) (f : Core → Core) : (s.onCore n f).nvme = s.nvme := rfl
@[simp] theorem State.onCore_dev (s : State) (n : Nat) (f : Core → Core) : (s.onCore n f).dev = s.dev := rfl
@[simp] theorem State.onCore_tlbinvs (s : State) (n : Nat) (f : Core → Core) : (s.onCore n f).tlbinvs = s.tlbinvs := rfl
@[simp] theorem State.onCore_agenda (s : State) (n : Nat) (f : Core → Core) : (s.onCore n f).agenda = s.agenda := rfl
@[simp] theorem State.onCore_evs (s : State) (n : Nat) (f : Core → Core) : (s.onCore n f).evs = s.evs := rfl
@[simp] theorem State.onCore_plan (s : State) (n : Nat) (f : Core → Core) : (s.onCore n f).plan = s.plan := rfl
@[simp] theorem State.onCore_ops (s : State) (n : Nat) (f : Core → Core) : (s.onCore n f).ops = s.ops := rfl
@[simp] theorem State.onCore_free (s : State) (n : Nat) (f : Core → Core) : (s.onCore n f).free = s.free := rfl

/-! ### onDie -/

@[simp] theorem State.onDie_t (s : State) (n : Nat) (f : Die → Die) : (s.onDie n f).t = s.t := rfl
@[simp] theorem State.onDie_cur (s : State) (n : Nat) (f : Die → Die) : (s.onDie n f).cur = s.cur := rfl
@[simp] theorem State.onDie_tasks (s : State) (n : Nat) (f : Die → Die) : (s.onDie n f).tasks = s.tasks := rfl
@[simp] theorem State.onDie_logs (s : State) (n : Nat) (f : Die → Die) : (s.onDie n f).logs = s.logs := rfl
@[simp] theorem State.onDie_cores (s : State) (n : Nat) (f : Die → Die) : (s.onDie n f).cores = s.cores := rfl
@[simp] theorem State.onDie_mem (s : State) (n : Nat) (f : Die → Die) : (s.onDie n f).mem = s.mem := rfl
@[simp] theorem State.onDie_launches (s : State) (n : Nat) (f : Die → Die) : (s.onDie n f).launches = s.launches := rfl
@[simp] theorem State.onDie_clusters (s : State) (n : Nat) (f : Die → Die) : (s.onDie n f).clusters = s.clusters := rfl
@[simp] theorem State.onDie_sorrel (s : State) (n : Nat) (f : Die → Die) : (s.onDie n f).sorrel = s.sorrel := rfl
@[simp] theorem State.onDie_dies (s : State) (n : Nat) (f : Die → Die) : (s.onDie n f).dies = s.dies.set {} n (f (s.die n)) := rfl
@[simp] theorem State.onDie_teasel (s : State) (n : Nat) (f : Die → Die) : (s.onDie n f).teasel = s.teasel := rfl
@[simp] theorem State.onDie_nvme (s : State) (n : Nat) (f : Die → Die) : (s.onDie n f).nvme = s.nvme := rfl
@[simp] theorem State.onDie_dev (s : State) (n : Nat) (f : Die → Die) : (s.onDie n f).dev = s.dev := rfl
@[simp] theorem State.onDie_tlbinvs (s : State) (n : Nat) (f : Die → Die) : (s.onDie n f).tlbinvs = s.tlbinvs := rfl
@[simp] theorem State.onDie_agenda (s : State) (n : Nat) (f : Die → Die) : (s.onDie n f).agenda = s.agenda := rfl
@[simp] theorem State.onDie_evs (s : State) (n : Nat) (f : Die → Die) : (s.onDie n f).evs = s.evs := rfl
@[simp] theorem State.onDie_plan (s : State) (n : Nat) (f : Die → Die) : (s.onDie n f).plan = s.plan := rfl
@[simp] theorem State.onDie_ops (s : State) (n : Nat) (f : Die → Die) : (s.onDie n f).ops = s.ops := rfl
@[simp] theorem State.onDie_free (s : State) (n : Nat) (f : Die → Die) : (s.onDie n f).free = s.free := rfl

/-! ### onCluster -/

@[simp] theorem State.onCluster_t (s : State) (n : Nat) (f : Cluster → Cluster) : (s.onCluster n f).t = s.t := rfl
@[simp] theorem State.onCluster_cur (s : State) (n : Nat) (f : Cluster → Cluster) : (s.onCluster n f).cur = s.cur := rfl
@[simp] theorem State.onCluster_tasks (s : State) (n : Nat) (f : Cluster → Cluster) : (s.onCluster n f).tasks = s.tasks := rfl
@[simp] theorem State.onCluster_logs (s : State) (n : Nat) (f : Cluster → Cluster) : (s.onCluster n f).logs = s.logs := rfl
@[simp] theorem State.onCluster_cores (s : State) (n : Nat) (f : Cluster → Cluster) : (s.onCluster n f).cores = s.cores := rfl
@[simp] theorem State.onCluster_mem (s : State) (n : Nat) (f : Cluster → Cluster) : (s.onCluster n f).mem = s.mem := rfl
@[simp] theorem State.onCluster_launches (s : State) (n : Nat) (f : Cluster → Cluster) : (s.onCluster n f).launches = s.launches := rfl
@[simp] theorem State.onCluster_clusters (s : State) (n : Nat) (f : Cluster → Cluster) : (s.onCluster n f).clusters = s.clusters.set {} n (f (s.cluster n)) := rfl
@[simp] theorem State.onCluster_sorrel (s : State) (n : Nat) (f : Cluster → Cluster) : (s.onCluster n f).sorrel = s.sorrel := rfl
@[simp] theorem State.onCluster_dies (s : State) (n : Nat) (f : Cluster → Cluster) : (s.onCluster n f).dies = s.dies := rfl
@[simp] theorem State.onCluster_teasel (s : State) (n : Nat) (f : Cluster → Cluster) : (s.onCluster n f).teasel = s.teasel := rfl
@[simp] theorem State.onCluster_nvme (s : State) (n : Nat) (f : Cluster → Cluster) : (s.onCluster n f).nvme = s.nvme := rfl
@[simp] theorem State.onCluster_dev (s : State) (n : Nat) (f : Cluster → Cluster) : (s.onCluster n f).dev = s.dev := rfl
@[simp] theorem State.onCluster_tlbinvs (s : State) (n : Nat) (f : Cluster → Cluster) : (s.onCluster n f).tlbinvs = s.tlbinvs := rfl
@[simp] theorem State.onCluster_agenda (s : State) (n : Nat) (f : Cluster → Cluster) : (s.onCluster n f).agenda = s.agenda := rfl
@[simp] theorem State.onCluster_evs (s : State) (n : Nat) (f : Cluster → Cluster) : (s.onCluster n f).evs = s.evs := rfl
@[simp] theorem State.onCluster_plan (s : State) (n : Nat) (f : Cluster → Cluster) : (s.onCluster n f).plan = s.plan := rfl
@[simp] theorem State.onCluster_ops (s : State) (n : Nat) (f : Cluster → Cluster) : (s.onCluster n f).ops = s.ops := rfl
@[simp] theorem State.onCluster_free (s : State) (n : Nat) (f : Cluster → Cluster) : (s.onCluster n f).free = s.free := rfl

/-! ### onUnit -/

@[simp] theorem State.onUnit_t (s : State) (n : Nat) (f : Sorrel → Sorrel) : (s.onUnit n f).t = s.t := rfl
@[simp] theorem State.onUnit_cur (s : State) (n : Nat) (f : Sorrel → Sorrel) : (s.onUnit n f).cur = s.cur := rfl
@[simp] theorem State.onUnit_tasks (s : State) (n : Nat) (f : Sorrel → Sorrel) : (s.onUnit n f).tasks = s.tasks := rfl
@[simp] theorem State.onUnit_logs (s : State) (n : Nat) (f : Sorrel → Sorrel) : (s.onUnit n f).logs = s.logs := rfl
@[simp] theorem State.onUnit_cores (s : State) (n : Nat) (f : Sorrel → Sorrel) : (s.onUnit n f).cores = s.cores := rfl
@[simp] theorem State.onUnit_mem (s : State) (n : Nat) (f : Sorrel → Sorrel) : (s.onUnit n f).mem = s.mem := rfl
@[simp] theorem State.onUnit_launches (s : State) (n : Nat) (f : Sorrel → Sorrel) : (s.onUnit n f).launches = s.launches := rfl
@[simp] theorem State.onUnit_clusters (s : State) (n : Nat) (f : Sorrel → Sorrel) : (s.onUnit n f).clusters = s.clusters := rfl
@[simp] theorem State.onUnit_sorrel (s : State) (n : Nat) (f : Sorrel → Sorrel) : (s.onUnit n f).sorrel = s.sorrel.set {} n (f (s.unit n)) := rfl
@[simp] theorem State.onUnit_dies (s : State) (n : Nat) (f : Sorrel → Sorrel) : (s.onUnit n f).dies = s.dies := rfl
@[simp] theorem State.onUnit_teasel (s : State) (n : Nat) (f : Sorrel → Sorrel) : (s.onUnit n f).teasel = s.teasel := rfl
@[simp] theorem State.onUnit_nvme (s : State) (n : Nat) (f : Sorrel → Sorrel) : (s.onUnit n f).nvme = s.nvme := rfl
@[simp] theorem State.onUnit_dev (s : State) (n : Nat) (f : Sorrel → Sorrel) : (s.onUnit n f).dev = s.dev := rfl
@[simp] theorem State.onUnit_tlbinvs (s : State) (n : Nat) (f : Sorrel → Sorrel) : (s.onUnit n f).tlbinvs = s.tlbinvs := rfl
@[simp] theorem State.onUnit_agenda (s : State) (n : Nat) (f : Sorrel → Sorrel) : (s.onUnit n f).agenda = s.agenda := rfl
@[simp] theorem State.onUnit_evs (s : State) (n : Nat) (f : Sorrel → Sorrel) : (s.onUnit n f).evs = s.evs := rfl
@[simp] theorem State.onUnit_plan (s : State) (n : Nat) (f : Sorrel → Sorrel) : (s.onUnit n f).plan = s.plan := rfl
@[simp] theorem State.onUnit_ops (s : State) (n : Nat) (f : Sorrel → Sorrel) : (s.onUnit n f).ops = s.ops := rfl
@[simp] theorem State.onUnit_free (s : State) (n : Nat) (f : Sorrel → Sorrel) : (s.onUnit n f).free = s.free := rfl

/-! ### onEngine -/

@[simp] theorem State.onEngine_t (s : State) (n : Nat) (f : Teasel → Teasel) : (s.onEngine n f).t = s.t := rfl
@[simp] theorem State.onEngine_cur (s : State) (n : Nat) (f : Teasel → Teasel) : (s.onEngine n f).cur = s.cur := rfl
@[simp] theorem State.onEngine_tasks (s : State) (n : Nat) (f : Teasel → Teasel) : (s.onEngine n f).tasks = s.tasks := rfl
@[simp] theorem State.onEngine_logs (s : State) (n : Nat) (f : Teasel → Teasel) : (s.onEngine n f).logs = s.logs := rfl
@[simp] theorem State.onEngine_cores (s : State) (n : Nat) (f : Teasel → Teasel) : (s.onEngine n f).cores = s.cores := rfl
@[simp] theorem State.onEngine_mem (s : State) (n : Nat) (f : Teasel → Teasel) : (s.onEngine n f).mem = s.mem := rfl
@[simp] theorem State.onEngine_launches (s : State) (n : Nat) (f : Teasel → Teasel) : (s.onEngine n f).launches = s.launches := rfl
@[simp] theorem State.onEngine_clusters (s : State) (n : Nat) (f : Teasel → Teasel) : (s.onEngine n f).clusters = s.clusters := rfl
@[simp] theorem State.onEngine_sorrel (s : State) (n : Nat) (f : Teasel → Teasel) : (s.onEngine n f).sorrel = s.sorrel := rfl
@[simp] theorem State.onEngine_dies (s : State) (n : Nat) (f : Teasel → Teasel) : (s.onEngine n f).dies = s.dies := rfl
@[simp] theorem State.onEngine_teasel (s : State) (n : Nat) (f : Teasel → Teasel) : (s.onEngine n f).teasel = s.teasel.set {} n (f (s.engine n)) := rfl
@[simp] theorem State.onEngine_nvme (s : State) (n : Nat) (f : Teasel → Teasel) : (s.onEngine n f).nvme = s.nvme := rfl
@[simp] theorem State.onEngine_dev (s : State) (n : Nat) (f : Teasel → Teasel) : (s.onEngine n f).dev = s.dev := rfl
@[simp] theorem State.onEngine_tlbinvs (s : State) (n : Nat) (f : Teasel → Teasel) : (s.onEngine n f).tlbinvs = s.tlbinvs := rfl
@[simp] theorem State.onEngine_agenda (s : State) (n : Nat) (f : Teasel → Teasel) : (s.onEngine n f).agenda = s.agenda := rfl
@[simp] theorem State.onEngine_evs (s : State) (n : Nat) (f : Teasel → Teasel) : (s.onEngine n f).evs = s.evs := rfl
@[simp] theorem State.onEngine_plan (s : State) (n : Nat) (f : Teasel → Teasel) : (s.onEngine n f).plan = s.plan := rfl
@[simp] theorem State.onEngine_ops (s : State) (n : Nat) (f : Teasel → Teasel) : (s.onEngine n f).ops = s.ops := rfl
@[simp] theorem State.onEngine_free (s : State) (n : Nat) (f : Teasel → Teasel) : (s.onEngine n f).free = s.free := rfl

/-! ### onDev -/

@[simp] theorem State.onDev_t (s : State) (f : Dev → Dev) : (s.onDev f).t = s.t := rfl
@[simp] theorem State.onDev_cur (s : State) (f : Dev → Dev) : (s.onDev f).cur = s.cur := rfl
@[simp] theorem State.onDev_tasks (s : State) (f : Dev → Dev) : (s.onDev f).tasks = s.tasks := rfl
@[simp] theorem State.onDev_logs (s : State) (f : Dev → Dev) : (s.onDev f).logs = s.logs := rfl
@[simp] theorem State.onDev_cores (s : State) (f : Dev → Dev) : (s.onDev f).cores = s.cores := rfl
@[simp] theorem State.onDev_mem (s : State) (f : Dev → Dev) : (s.onDev f).mem = s.mem := rfl
@[simp] theorem State.onDev_launches (s : State) (f : Dev → Dev) : (s.onDev f).launches = s.launches := rfl
@[simp] theorem State.onDev_clusters (s : State) (f : Dev → Dev) : (s.onDev f).clusters = s.clusters := rfl
@[simp] theorem State.onDev_sorrel (s : State) (f : Dev → Dev) : (s.onDev f).sorrel = s.sorrel := rfl
@[simp] theorem State.onDev_dies (s : State) (f : Dev → Dev) : (s.onDev f).dies = s.dies := rfl
@[simp] theorem State.onDev_teasel (s : State) (f : Dev → Dev) : (s.onDev f).teasel = s.teasel := rfl
@[simp] theorem State.onDev_nvme (s : State) (f : Dev → Dev) : (s.onDev f).nvme = s.nvme := rfl
@[simp] theorem State.onDev_dev (s : State) (f : Dev → Dev) : (s.onDev f).dev = f s.dev := rfl
@[simp] theorem State.onDev_tlbinvs (s : State) (f : Dev → Dev) : (s.onDev f).tlbinvs = s.tlbinvs := rfl
@[simp] theorem State.onDev_agenda (s : State) (f : Dev → Dev) : (s.onDev f).agenda = s.agenda := rfl
@[simp] theorem State.onDev_evs (s : State) (f : Dev → Dev) : (s.onDev f).evs = s.evs := rfl
@[simp] theorem State.onDev_plan (s : State) (f : Dev → Dev) : (s.onDev f).plan = s.plan := rfl
@[simp] theorem State.onDev_ops (s : State) (f : Dev → Dev) : (s.onDev f).ops = s.ops := rfl
@[simp] theorem State.onDev_free (s : State) (f : Dev → Dev) : (s.onDev f).free = s.free := rfl

/-! ### onMem -/

@[simp] theorem State.onMem_t (s : State) (f : Mem → Mem) : (s.onMem f).t = s.t := rfl
@[simp] theorem State.onMem_cur (s : State) (f : Mem → Mem) : (s.onMem f).cur = s.cur := rfl
@[simp] theorem State.onMem_tasks (s : State) (f : Mem → Mem) : (s.onMem f).tasks = s.tasks := rfl
@[simp] theorem State.onMem_logs (s : State) (f : Mem → Mem) : (s.onMem f).logs = s.logs := rfl
@[simp] theorem State.onMem_cores (s : State) (f : Mem → Mem) : (s.onMem f).cores = s.cores := rfl
@[simp] theorem State.onMem_mem (s : State) (f : Mem → Mem) : (s.onMem f).mem = f s.mem := rfl
@[simp] theorem State.onMem_launches (s : State) (f : Mem → Mem) : (s.onMem f).launches = s.launches := rfl
@[simp] theorem State.onMem_clusters (s : State) (f : Mem → Mem) : (s.onMem f).clusters = s.clusters := rfl
@[simp] theorem State.onMem_sorrel (s : State) (f : Mem → Mem) : (s.onMem f).sorrel = s.sorrel := rfl
@[simp] theorem State.onMem_dies (s : State) (f : Mem → Mem) : (s.onMem f).dies = s.dies := rfl
@[simp] theorem State.onMem_teasel (s : State) (f : Mem → Mem) : (s.onMem f).teasel = s.teasel := rfl
@[simp] theorem State.onMem_nvme (s : State) (f : Mem → Mem) : (s.onMem f).nvme = s.nvme := rfl
@[simp] theorem State.onMem_dev (s : State) (f : Mem → Mem) : (s.onMem f).dev = s.dev := rfl
@[simp] theorem State.onMem_tlbinvs (s : State) (f : Mem → Mem) : (s.onMem f).tlbinvs = s.tlbinvs := rfl
@[simp] theorem State.onMem_agenda (s : State) (f : Mem → Mem) : (s.onMem f).agenda = s.agenda := rfl
@[simp] theorem State.onMem_evs (s : State) (f : Mem → Mem) : (s.onMem f).evs = s.evs := rfl
@[simp] theorem State.onMem_plan (s : State) (f : Mem → Mem) : (s.onMem f).plan = s.plan := rfl
@[simp] theorem State.onMem_ops (s : State) (f : Mem → Mem) : (s.onMem f).ops = s.ops := rfl
@[simp] theorem State.onMem_free (s : State) (f : Mem → Mem) : (s.onMem f).free = s.free := rfl

/-! ### advance -/

@[simp] theorem State.advance_t (s : State) : (s.advance).t = { s.t with pc := nextPc s.t.pc, view := none } := rfl
@[simp] theorem State.advance_cur (s : State) : (s.advance).cur = s.cur := rfl
@[simp] theorem State.advance_tasks (s : State) : (s.advance).tasks = s.tasks := rfl
@[simp] theorem State.advance_logs (s : State) : (s.advance).logs = s.logs := rfl
@[simp] theorem State.advance_cores (s : State) : (s.advance).cores = s.cores := rfl
@[simp] theorem State.advance_mem (s : State) : (s.advance).mem = s.mem := rfl
@[simp] theorem State.advance_launches (s : State) : (s.advance).launches = s.launches := rfl
@[simp] theorem State.advance_clusters (s : State) : (s.advance).clusters = s.clusters := rfl
@[simp] theorem State.advance_sorrel (s : State) : (s.advance).sorrel = s.sorrel := rfl
@[simp] theorem State.advance_dies (s : State) : (s.advance).dies = s.dies := rfl
@[simp] theorem State.advance_teasel (s : State) : (s.advance).teasel = s.teasel := rfl
@[simp] theorem State.advance_nvme (s : State) : (s.advance).nvme = s.nvme := rfl
@[simp] theorem State.advance_dev (s : State) : (s.advance).dev = s.dev := rfl
@[simp] theorem State.advance_tlbinvs (s : State) : (s.advance).tlbinvs = s.tlbinvs := rfl
@[simp] theorem State.advance_agenda (s : State) : (s.advance).agenda = s.agenda := rfl
@[simp] theorem State.advance_evs (s : State) : (s.advance).evs = s.evs := rfl
@[simp] theorem State.advance_plan (s : State) : (s.advance).plan = s.plan := rfl
@[simp] theorem State.advance_ops (s : State) : (s.advance).ops = s.ops := rfl
@[simp] theorem State.advance_free (s : State) : (s.advance).free = s.free := rfl

/-! ### jump -/

@[simp] theorem State.jump_t (s : State) (a : Word) : (s.jump a).t = { s.t with pc := a, view := none } := rfl
@[simp] theorem State.jump_cur (s : State) (a : Word) : (s.jump a).cur = s.cur := rfl
@[simp] theorem State.jump_tasks (s : State) (a : Word) : (s.jump a).tasks = s.tasks := rfl
@[simp] theorem State.jump_logs (s : State) (a : Word) : (s.jump a).logs = s.logs := rfl
@[simp] theorem State.jump_cores (s : State) (a : Word) : (s.jump a).cores = s.cores := rfl
@[simp] theorem State.jump_mem (s : State) (a : Word) : (s.jump a).mem = s.mem := rfl
@[simp] theorem State.jump_launches (s : State) (a : Word) : (s.jump a).launches = s.launches := rfl
@[simp] theorem State.jump_clusters (s : State) (a : Word) : (s.jump a).clusters = s.clusters := rfl
@[simp] theorem State.jump_sorrel (s : State) (a : Word) : (s.jump a).sorrel = s.sorrel := rfl
@[simp] theorem State.jump_dies (s : State) (a : Word) : (s.jump a).dies = s.dies := rfl
@[simp] theorem State.jump_teasel (s : State) (a : Word) : (s.jump a).teasel = s.teasel := rfl
@[simp] theorem State.jump_nvme (s : State) (a : Word) : (s.jump a).nvme = s.nvme := rfl
@[simp] theorem State.jump_dev (s : State) (a : Word) : (s.jump a).dev = s.dev := rfl
@[simp] theorem State.jump_tlbinvs (s : State) (a : Word) : (s.jump a).tlbinvs = s.tlbinvs := rfl
@[simp] theorem State.jump_agenda (s : State) (a : Word) : (s.jump a).agenda = s.agenda := rfl
@[simp] theorem State.jump_evs (s : State) (a : Word) : (s.jump a).evs = s.evs := rfl
@[simp] theorem State.jump_plan (s : State) (a : Word) : (s.jump a).plan = s.plan := rfl
@[simp] theorem State.jump_ops (s : State) (a : Word) : (s.jump a).ops = s.ops := rfl
@[simp] theorem State.jump_free (s : State) (a : Word) : (s.jump a).free = s.free := rfl

/-! ### hold -/

@[simp] theorem State.hold_t (s : State) : (s.hold).t = { s.t with sched := { s.t.sched with heldAt := some s.evs } } := rfl
@[simp] theorem State.hold_cur (s : State) : (s.hold).cur = s.cur := rfl
@[simp] theorem State.hold_tasks (s : State) : (s.hold).tasks = s.tasks := rfl
@[simp] theorem State.hold_logs (s : State) : (s.hold).logs = s.logs := rfl
@[simp] theorem State.hold_cores (s : State) : (s.hold).cores = s.cores := rfl
@[simp] theorem State.hold_mem (s : State) : (s.hold).mem = s.mem := rfl
@[simp] theorem State.hold_launches (s : State) : (s.hold).launches = s.launches := rfl
@[simp] theorem State.hold_clusters (s : State) : (s.hold).clusters = s.clusters := rfl
@[simp] theorem State.hold_sorrel (s : State) : (s.hold).sorrel = s.sorrel := rfl
@[simp] theorem State.hold_dies (s : State) : (s.hold).dies = s.dies := rfl
@[simp] theorem State.hold_teasel (s : State) : (s.hold).teasel = s.teasel := rfl
@[simp] theorem State.hold_nvme (s : State) : (s.hold).nvme = s.nvme := rfl
@[simp] theorem State.hold_dev (s : State) : (s.hold).dev = s.dev := rfl
@[simp] theorem State.hold_tlbinvs (s : State) : (s.hold).tlbinvs = s.tlbinvs := rfl
@[simp] theorem State.hold_agenda (s : State) : (s.hold).agenda = s.agenda := rfl
@[simp] theorem State.hold_evs (s : State) : (s.hold).evs = s.evs := rfl
@[simp] theorem State.hold_plan (s : State) : (s.hold).plan = s.plan := rfl
@[simp] theorem State.hold_ops (s : State) : (s.hold).ops = s.ops := rfl
@[simp] theorem State.hold_free (s : State) : (s.hold).free = s.free := rfl

/-! ### park -/

@[simp] theorem State.park_t (s : State) (w : Wait) : (s.park w).t = { s.t with sched := { s.t.sched with status := .parked, wait := some w } } := rfl
@[simp] theorem State.park_cur (s : State) (w : Wait) : (s.park w).cur = s.cur := rfl
@[simp] theorem State.park_tasks (s : State) (w : Wait) : (s.park w).tasks = s.tasks := rfl
@[simp] theorem State.park_logs (s : State) (w : Wait) : (s.park w).logs = s.logs := rfl
@[simp] theorem State.park_cores (s : State) (w : Wait) : (s.park w).cores = s.cores := rfl
@[simp] theorem State.park_mem (s : State) (w : Wait) : (s.park w).mem = s.mem := rfl
@[simp] theorem State.park_launches (s : State) (w : Wait) : (s.park w).launches = s.launches := rfl
@[simp] theorem State.park_clusters (s : State) (w : Wait) : (s.park w).clusters = s.clusters := rfl
@[simp] theorem State.park_sorrel (s : State) (w : Wait) : (s.park w).sorrel = s.sorrel := rfl
@[simp] theorem State.park_dies (s : State) (w : Wait) : (s.park w).dies = s.dies := rfl
@[simp] theorem State.park_teasel (s : State) (w : Wait) : (s.park w).teasel = s.teasel := rfl
@[simp] theorem State.park_nvme (s : State) (w : Wait) : (s.park w).nvme = s.nvme := rfl
@[simp] theorem State.park_dev (s : State) (w : Wait) : (s.park w).dev = s.dev := rfl
@[simp] theorem State.park_tlbinvs (s : State) (w : Wait) : (s.park w).tlbinvs = s.tlbinvs := rfl
@[simp] theorem State.park_agenda (s : State) (w : Wait) : (s.park w).agenda = s.agenda := rfl
@[simp] theorem State.park_evs (s : State) (w : Wait) : (s.park w).evs = s.evs := rfl
@[simp] theorem State.park_plan (s : State) (w : Wait) : (s.park w).plan = s.plan := rfl
@[simp] theorem State.park_ops (s : State) (w : Wait) : (s.park w).ops = s.ops := rfl
@[simp] theorem State.park_free (s : State) (w : Wait) : (s.park w).free = s.free := rfl

/-! ### orFlags -/

@[simp] theorem State.orFlags_t (s : State) (f : BitVec 7) : (s.orFlags f).t = s.t.orFlags f := rfl
@[simp] theorem State.orFlags_cur (s : State) (f : BitVec 7) : (s.orFlags f).cur = s.cur := rfl
@[simp] theorem State.orFlags_tasks (s : State) (f : BitVec 7) : (s.orFlags f).tasks = s.tasks := rfl
@[simp] theorem State.orFlags_logs (s : State) (f : BitVec 7) : (s.orFlags f).logs = s.logs := rfl
@[simp] theorem State.orFlags_cores (s : State) (f : BitVec 7) : (s.orFlags f).cores = s.cores := rfl
@[simp] theorem State.orFlags_mem (s : State) (f : BitVec 7) : (s.orFlags f).mem = s.mem := rfl
@[simp] theorem State.orFlags_launches (s : State) (f : BitVec 7) : (s.orFlags f).launches = s.launches := rfl
@[simp] theorem State.orFlags_clusters (s : State) (f : BitVec 7) : (s.orFlags f).clusters = s.clusters := rfl
@[simp] theorem State.orFlags_sorrel (s : State) (f : BitVec 7) : (s.orFlags f).sorrel = s.sorrel := rfl
@[simp] theorem State.orFlags_dies (s : State) (f : BitVec 7) : (s.orFlags f).dies = s.dies := rfl
@[simp] theorem State.orFlags_teasel (s : State) (f : BitVec 7) : (s.orFlags f).teasel = s.teasel := rfl
@[simp] theorem State.orFlags_nvme (s : State) (f : BitVec 7) : (s.orFlags f).nvme = s.nvme := rfl
@[simp] theorem State.orFlags_dev (s : State) (f : BitVec 7) : (s.orFlags f).dev = s.dev := rfl
@[simp] theorem State.orFlags_tlbinvs (s : State) (f : BitVec 7) : (s.orFlags f).tlbinvs = s.tlbinvs := rfl
@[simp] theorem State.orFlags_agenda (s : State) (f : BitVec 7) : (s.orFlags f).agenda = s.agenda := rfl
@[simp] theorem State.orFlags_evs (s : State) (f : BitVec 7) : (s.orFlags f).evs = s.evs := rfl
@[simp] theorem State.orFlags_plan (s : State) (f : BitVec 7) : (s.orFlags f).plan = s.plan := rfl
@[simp] theorem State.orFlags_ops (s : State) (f : BitVec 7) : (s.orFlags f).ops = s.ops := rfl
@[simp] theorem State.orFlags_free (s : State) (f : BitVec 7) : (s.orFlags f).free = s.free := rfl

/-! ### setReg of a task -/

@[simp] theorem Task.setReg_regs (t : Task) (x : Reg) (v : Line) : (t.setReg x v).regs = t.regs.write x v := rfl
@[simp] theorem Task.setReg_sys (t : Task) (x : Reg) (v : Line) : (t.setReg x v).sys = t.sys := rfl
@[simp] theorem Task.setReg_pc (t : Task) (x : Reg) (v : Line) : (t.setReg x v).pc = t.pc := rfl
@[simp] theorem Task.setReg_rets (t : Task) (x : Reg) (v : Line) : (t.setReg x v).rets = t.rets := rfl
@[simp] theorem Task.setReg_seq (t : Task) (x : Reg) (v : Line) : (t.setReg x v).seq = t.seq := rfl
@[simp] theorem Task.setReg_slots (t : Task) (x : Reg) (v : Line) : (t.setReg x v).slots = t.slots := rfl
@[simp] theorem Task.setReg_attach (t : Task) (x : Reg) (v : Line) : (t.setReg x v).attach = t.attach := rfl
@[simp] theorem Task.setReg_held (t : Task) (x : Reg) (v : Line) : (t.setReg x v).held = t.held := rfl
@[simp] theorem Task.setReg_long (t : Task) (x : Reg) (v : Line) : (t.setReg x v).long = t.long := rfl
@[simp] theorem Task.setReg_stores (t : Task) (x : Reg) (v : Line) : (t.setReg x v).stores = t.stores := rfl
@[simp] theorem Task.setReg_lost (t : Task) (x : Reg) (v : Line) : (t.setReg x v).lost = t.lost := rfl
@[simp] theorem Task.setReg_faulted (t : Task) (x : Reg) (v : Line) : (t.setReg x v).faulted = t.faulted := rfl
@[simp] theorem Task.setReg_tagCount (t : Task) (x : Reg) (v : Line) : (t.setReg x v).tagCount = t.tagCount := rfl
@[simp] theorem Task.setReg_copyFaults (t : Task) (x : Reg) (v : Line) : (t.setReg x v).copyFaults = t.copyFaults := rfl
@[simp] theorem Task.setReg_versioned (t : Task) (x : Reg) (v : Line) : (t.setReg x v).versioned = t.versioned := rfl
@[simp] theorem Task.setReg_version (t : Task) (x : Reg) (v : Line) : (t.setReg x v).version = t.version := rfl
@[simp] theorem Task.setReg_scratch (t : Task) (x : Reg) (v : Line) : (t.setReg x v).scratch = t.scratch := rfl
@[simp] theorem Task.setReg_mfault (t : Task) (x : Reg) (v : Line) : (t.setReg x v).mfault = t.mfault := rfl
@[simp] theorem Task.setReg_sched (t : Task) (x : Reg) (v : Line) : (t.setReg x v).sched = t.sched := rfl
@[simp] theorem Task.setReg_tr (t : Task) (x : Reg) (v : Line) : (t.setReg x v).tr = t.tr := rfl
@[simp] theorem Task.setReg_kind (t : Task) (x : Reg) (v : Line) : (t.setReg x v).kind = t.kind := rfl
@[simp] theorem Task.setReg_launch (t : Task) (x : Reg) (v : Line) : (t.setReg x v).launch = t.launch := rfl
@[simp] theorem Task.setReg_team (t : Task) (x : Reg) (v : Line) : (t.setReg x v).team = t.team := rfl
@[simp] theorem Task.setReg_index (t : Task) (x : Reg) (v : Line) : (t.setReg x v).index = t.index := rfl
@[simp] theorem Task.setReg_handler (t : Task) (x : Reg) (v : Line) : (t.setReg x v).handler = t.handler := rfl
@[simp] theorem Task.setReg_creation (t : Task) (x : Reg) (v : Line) : (t.setReg x v).creation = t.creation := rfl
@[simp] theorem Task.setReg_foot (t : Task) (x : Reg) (v : Line) : (t.setReg x v).foot = t.foot := rfl
@[simp] theorem Task.setReg_filled (t : Task) (x : Reg) (v : Line) : (t.setReg x v).filled = t.filled := rfl
@[simp] theorem Task.setReg_request (t : Task) (x : Reg) (v : Line) : (t.setReg x v).request = t.request := rfl
@[simp] theorem Task.setReg_view (t : Task) (x : Reg) (v : Line) : (t.setReg x v).view = t.view := rfl
@[simp] theorem Task.setReg_cached (t : Task) (x : Reg) (v : Line) : (t.setReg x v).cached = t.cached := rfl
@[simp] theorem Task.setReg_dirty (t : Task) (x : Reg) (v : Line) : (t.setReg x v).dirty = t.dirty ||| BitVec.twoPow 48 (Reg.frameLine x) := rfl
@[simp] theorem Task.setReg_bad (t : Task) (x : Reg) (v : Line) : (t.setReg x v).bad = t.bad.filter fun w => !(Reg.frameWords x).contains w := rfl
@[simp] theorem Task.setReg_recovered (t : Task) (x : Reg) (v : Line) : (t.setReg x v).recovered = t.recovered := rfl

/-! ### orFlags of a task -/

@[simp] theorem Task.orFlags_regs (t : Task) (f : BitVec 7) : (t.orFlags f).regs = t.regs := rfl
@[simp] theorem Task.orFlags_sys (t : Task) (f : BitVec 7) : (t.orFlags f).sys = { t.sys with flags := t.sys.flags ||| f } := rfl
@[simp] theorem Task.orFlags_pc (t : Task) (f : BitVec 7) : (t.orFlags f).pc = t.pc := rfl
@[simp] theorem Task.orFlags_rets (t : Task) (f : BitVec 7) : (t.orFlags f).rets = t.rets := rfl
@[simp] theorem Task.orFlags_seq (t : Task) (f : BitVec 7) : (t.orFlags f).seq = t.seq := rfl
@[simp] theorem Task.orFlags_slots (t : Task) (f : BitVec 7) : (t.orFlags f).slots = t.slots := rfl
@[simp] theorem Task.orFlags_attach (t : Task) (f : BitVec 7) : (t.orFlags f).attach = t.attach := rfl
@[simp] theorem Task.orFlags_held (t : Task) (f : BitVec 7) : (t.orFlags f).held = t.held := rfl
@[simp] theorem Task.orFlags_long (t : Task) (f : BitVec 7) : (t.orFlags f).long = t.long := rfl
@[simp] theorem Task.orFlags_stores (t : Task) (f : BitVec 7) : (t.orFlags f).stores = t.stores := rfl
@[simp] theorem Task.orFlags_lost (t : Task) (f : BitVec 7) : (t.orFlags f).lost = t.lost := rfl
@[simp] theorem Task.orFlags_faulted (t : Task) (f : BitVec 7) : (t.orFlags f).faulted = t.faulted := rfl
@[simp] theorem Task.orFlags_tagCount (t : Task) (f : BitVec 7) : (t.orFlags f).tagCount = t.tagCount := rfl
@[simp] theorem Task.orFlags_copyFaults (t : Task) (f : BitVec 7) : (t.orFlags f).copyFaults = t.copyFaults := rfl
@[simp] theorem Task.orFlags_versioned (t : Task) (f : BitVec 7) : (t.orFlags f).versioned = t.versioned := rfl
@[simp] theorem Task.orFlags_version (t : Task) (f : BitVec 7) : (t.orFlags f).version = t.version := rfl
@[simp] theorem Task.orFlags_scratch (t : Task) (f : BitVec 7) : (t.orFlags f).scratch = t.scratch := rfl
@[simp] theorem Task.orFlags_mfault (t : Task) (f : BitVec 7) : (t.orFlags f).mfault = t.mfault := rfl
@[simp] theorem Task.orFlags_sched (t : Task) (f : BitVec 7) : (t.orFlags f).sched = t.sched := rfl
@[simp] theorem Task.orFlags_tr (t : Task) (f : BitVec 7) : (t.orFlags f).tr = t.tr := rfl
@[simp] theorem Task.orFlags_kind (t : Task) (f : BitVec 7) : (t.orFlags f).kind = t.kind := rfl
@[simp] theorem Task.orFlags_launch (t : Task) (f : BitVec 7) : (t.orFlags f).launch = t.launch := rfl
@[simp] theorem Task.orFlags_team (t : Task) (f : BitVec 7) : (t.orFlags f).team = t.team := rfl
@[simp] theorem Task.orFlags_index (t : Task) (f : BitVec 7) : (t.orFlags f).index = t.index := rfl
@[simp] theorem Task.orFlags_handler (t : Task) (f : BitVec 7) : (t.orFlags f).handler = t.handler := rfl
@[simp] theorem Task.orFlags_creation (t : Task) (f : BitVec 7) : (t.orFlags f).creation = t.creation := rfl
@[simp] theorem Task.orFlags_foot (t : Task) (f : BitVec 7) : (t.orFlags f).foot = t.foot := rfl
@[simp] theorem Task.orFlags_filled (t : Task) (f : BitVec 7) : (t.orFlags f).filled = t.filled := rfl
@[simp] theorem Task.orFlags_request (t : Task) (f : BitVec 7) : (t.orFlags f).request = t.request := rfl
@[simp] theorem Task.orFlags_view (t : Task) (f : BitVec 7) : (t.orFlags f).view = t.view := rfl
@[simp] theorem Task.orFlags_cached (t : Task) (f : BitVec 7) : (t.orFlags f).cached = t.cached := rfl
@[simp] theorem Task.orFlags_dirty (t : Task) (f : BitVec 7) : (t.orFlags f).dirty = t.dirty := rfl
@[simp] theorem Task.orFlags_bad (t : Task) (f : BitVec 7) : (t.orFlags f).bad = t.bad := rfl
@[simp] theorem Task.orFlags_recovered (t : Task) (f : BitVec 7) : (t.orFlags f).recovered = t.recovered := rfl

/-! ### Units by number -/

@[simp] theorem State.core_onCore_self (s : State) (n : Nat) (f : Core → Core) : (s.onCore n f).core n = f (s.core n) :=
  Sparse.get_set_self ..
theorem State.core_onCore_ne (s : State) {n m : Nat} (f : Core → Core) (h : m ≠ n) : (s.onCore n f).core m = s.core m :=
  Sparse.get_set_ne _ _ _ h
@[simp] theorem State.die_onDie_self (s : State) (n : Nat) (f : Die → Die) : (s.onDie n f).die n = f (s.die n) :=
  Sparse.get_set_self ..
theorem State.die_onDie_ne (s : State) {n m : Nat} (f : Die → Die) (h : m ≠ n) : (s.onDie n f).die m = s.die m :=
  Sparse.get_set_ne _ _ _ h
@[simp] theorem State.unit_onUnit_self (s : State) (n : Nat) (f : Sorrel → Sorrel) : (s.onUnit n f).unit n = f (s.unit n) :=
  Sparse.get_set_self ..
theorem State.unit_onUnit_ne (s : State) {n m : Nat} (f : Sorrel → Sorrel) (h : m ≠ n) : (s.onUnit n f).unit m = s.unit m :=
  Sparse.get_set_ne _ _ _ h
@[simp] theorem State.cluster_onCluster_self (s : State) (n : Nat) (f : Cluster → Cluster) :
    (s.onCluster n f).cluster n = f (s.cluster n) := Sparse.get_set_self ..
@[simp] theorem State.engine_onEngine_self (s : State) (n : Nat) (f : Teasel → Teasel) :
    (s.onEngine n f).engine n = f (s.engine n) := Sparse.get_set_self ..

@[simp] theorem State.core_onT (s : State) (f : Task → Task) (n : Nat) : (s.onT f).core n = s.core n := rfl
@[simp] theorem State.core_onMem (s : State) (f : Mem → Mem) (n : Nat) : (s.onMem f).core n = s.core n := rfl
@[simp] theorem State.core_onDev (s : State) (f : Dev → Dev) (n : Nat) : (s.onDev f).core n = s.core n := rfl

end Sys2Proof.Machine
end

