-- ==== Sys2Proof/Laws/Regs.lean ====
section
/-! SUPPORT. Laws of the register file. -/

namespace Sys2Proof.Machine

open Sys2Proof

/-! ### Registers (spec/03_encoding.md R57) -/

/-- A register that is not hard-wired reads as it was written. -/
theorem Regs.read_write_self (r : Regs) (x : Reg) (v : Line) (h : x.hardwired = false) : (r.write x v).read x = Reg.trim x v := by
  cases x with
  | g n =>
    have hn : n ≠ 0 := by simpa [Reg.hardwired] using h
    simp [Regs.write, Regs.read, Regs.rg, hn, Reg.trim]
  | v n => simp [Regs.write, Regs.read, Regs.rv, Reg.trim]
  | p n =>
    have hn : n ≠ 0 := by simpa [Reg.hardwired] using h
    simp only [Regs.write, Regs.read, Regs.rp, hn, Reg.trim, if_false, decide_false, Bool.false_or]
    cases v.getLsbD 0 <;> simp
  | m n =>
    have hn : n ≠ 0 := by simpa [Reg.hardwired] using h
    simp [Regs.write, Regs.read, Regs.rm, hn, Reg.trim]
  | fmt n => simp [Regs.write, Regs.read, Regs.rf, Reg.trim]

/-- A hard-wired register discards its writes. -/
theorem Regs.write_hardwired (r : Regs) (x : Reg) (v : Line) (h : x.hardwired = true) : r.write x v = r := by
  cases x <;> simp_all [Reg.hardwired, Regs.write]

/-- A write changes no other register. -/
theorem Regs.read_write_ne (r : Regs) {x y : Reg} (v : Line) (h : y ≠ x) : (r.write x v).read y = r.read y := by
  cases x with
  | g n =>
    cases y with
    | g k =>
      have hv : k.val ≠ n.val := fun e => h (congrArg Reg.g (Fin.ext e))
      by_cases hn : n = 0 <;> simp [Regs.write, Regs.read, Regs.rg, hn, Sparse.get_set_ne _ _ _ hv]
    | _ => by_cases hn : n = 0 <;> simp [Regs.write, Regs.read, hn, Regs.rv, Regs.rp, Regs.rm, Regs.rf]
  | v n =>
    cases y with
    | v k =>
      have hv : k.val ≠ n.val := fun e => h (congrArg Reg.v (Fin.ext e))
      simp [Regs.write, Regs.read, Regs.rv, Sparse.get_set_ne _ _ _ hv]
    | _ => simp [Regs.write, Regs.read, Regs.rg, Regs.rp, Regs.rm, Regs.rf]
  | p n =>
    cases y with
    | p k =>
      have hv : k.val ≠ n.val := fun e => h (congrArg Reg.p (Fin.ext e))
      by_cases hn : n = 0
      · simp [Regs.write, hn]
      · simp only [Regs.write, Regs.read, Regs.rp, hn, if_false]
        cases v.getLsbD 0 <;> simp [BitVec.getElem_twoPow, hv]
    | _ => by_cases hn : n = 0 <;> simp only [Regs.write, hn, if_true, if_false] <;> cases v.getLsbD 0 <;> rfl
  | m n =>
    cases y with
    | m k =>
      have hv : k.val ≠ n.val := fun e => h (congrArg Reg.m (Fin.ext e))
      by_cases hn : n = 0 <;> simp [Regs.write, Regs.read, Regs.rm, hn, Sparse.get_set_ne _ _ _ hv]
    | _ => by_cases hn : n = 0 <;> simp [Regs.write, Regs.read, hn, Regs.rv, Regs.rp, Regs.rg, Regs.rf]
  | fmt n =>
    cases y with
    | fmt k =>
      have hv : k.val ≠ n.val := fun e => h (congrArg Reg.fmt (Fin.ext e))
      simp [Regs.write, Regs.read, Regs.rf, Sparse.get_set_ne _ _ _ hv]
    | _ => simp [Regs.write, Regs.read, Regs.rg, Regs.rp, Regs.rm, Regs.rv]

/-- A write leaves the pending marks alone. -/
@[simp] theorem Regs.write_pend (r : Regs) (x : Reg) (v : Line) : (r.write x v).pend = r.pend := by
  cases x <;> simp only [Regs.write] <;> split <;> rfl

end Sys2Proof.Machine
end

