-- ==== Sys2Proof/Laws/Ops.lean ====
section
/-! SUPPORT. What each shared operation does, once: the checks before the effect, writes of results, transfers, long ops, waiting
and traps. -/

namespace Sys2Proof.Machine

open Sys2Proof

/-! ### The checks before the effect (spec/03_encoding.md R75) -/

/-- An instruction that nothing stands in the way of passes its checks. -/
theorem checkBefore_ready {s : State} {r : Row} {f : Flds} (h : s.Ready r f) : checkBefore r f s.t = .pass := by
  obtain ⟨-, h1, h2, h3, h4, h5, h6⟩ := h
  have h4' : ((narrowsOf r f).any fun k => !(NFmt.ofBits (s.t.seen.rf k)).valid) = false := by
    simpa [List.any_eq_false] using h4
  have h5' : (readsOf r f).any s.t.seen.pending = false := by simpa [List.any_eq_false] using h5
  have h6' : (writesOf r f).any s.t.seen.pending = false := by simpa [List.any_eq_false] using h6
  simp only [checkBefore, h1, h2, h3, h4', h5', h6', Bool.not_true, Bool.false_eq_true, if_false]

/-- Then its effect happens. -/
theorem gated_ready {s : State} {r : Row} {f : Flds} (h : s.Ready r f) (e : State → State) : gated r f s e = e s := by
  rw [gated, checkBefore_ready h]

theorem gated_skip {s : State} {r : Row} {f : Flds} (h : checkBefore r f s.t = .skip) (e : State → State) :
    gated r f s e = s.advance := by
  rw [gated, h]

theorem gated_trap {s : State} {r : Row} {f : Flds} {c : Nat} (h : checkBefore r f s.t = .trap c) (e : State → State) :
    gated r f s e = s.trap c := by
  rw [gated, h]

/-! ### Writes of the running instruction -/

@[simp] theorem State.write_cur (s : State) (x : Reg) (v : Line) : (s.write x v).cur = s.cur := by
  simp only [State.write]; split <;> simp [State.logWrite] <;> split <;> rfl

@[simp] theorem State.write_ops (s : State) (x : Reg) (v : Line) : (s.write x v).ops = s.ops := by
  simp only [State.write]; split <;> simp [State.logWrite] <;> split <;> rfl

@[simp] theorem State.write_mem (s : State) (x : Reg) (v : Line) : (s.write x v).mem = s.mem := by
  simp only [State.write]; split <;> simp [State.logWrite] <;> split <;> rfl

/-- A write changes the register file, the dirty lines and the operand log of the core, and nothing else. -/
theorem State.write_eq (s : State) (x : Reg) (v : Line) :
    s.write x v = { s with
      t := { s.t with regs := s.t.regs.write x v, dirty := (s.write x v).t.dirty, bad := (s.write x v).t.bad }
      logs := (s.write x v).logs } := by
  by_cases h : x.hardwired = true
  · simp [State.write, h, Regs.write_hardwired _ _ _ h]
  · by_cases h2 : 4096 ≤ s.t.sched.core <;> simp [State.write, h, State.logWrite, h2, Task.setReg]

/-- The bits of a line that a register keeps are bits it keeps. -/
@[simp] theorem Reg.trim_trim (x : Reg) (v : Line) : Reg.trim x (Reg.trim x v) = Reg.trim x v := by
  cases x <;> simp [Reg.trim]
  cases v[0] <;> simp

/-- The registers after some writes, in order. -/
def Regs.writeAll (r : Regs) (ws : List (Reg × Line)) : Regs := ws.foldl (fun r e => r.write e.1 e.2) r

theorem Regs.writeAll_pend (ws : List (Reg × Line)) (r : Regs) : (r.writeAll ws).pend = r.pend := by
  induction ws generalizing r with
  | nil => rfl
  | cons e ws ih => simpa [Regs.writeAll] using ih (r.write e.1 e.2)

theorem Regs.read_writeAll_kept (ws : List (Reg × Line)) (r : Regs) (x : Reg)
    (h : ∀ e ∈ ws, x = e.1 → x.hardwired = true) : (r.writeAll ws).read x = r.read x := by
  induction ws generalizing r with
  | nil => rfl
  | cons e ws ih =>
    have h1 := ih (r.write e.1 e.2) fun d hd => h d (List.mem_cons_of_mem _ hd)
    have h2 := h e List.mem_cons_self
    refine h1.trans ?_
    by_cases hx : x = e.1
    · subst hx; rw [Regs.write_hardwired _ _ _ (h2 rfl)]
    · exact Regs.read_write_ne _ _ hx

theorem Regs.read_writeAll_result (ws : List (Reg × Line)) (r : Regs) (hd : ws.Pairwise fun a b => a.1 = b.1 → a.1.hardwired = true) {e : Reg × Line}
    (he : e ∈ ws) (hw : e.1.hardwired = false) : (r.writeAll ws).read e.1 = Reg.trim e.1 e.2 := by
  induction ws generalizing r with
  | nil => cases he
  | cons d ws ih =>
    rw [List.pairwise_cons] at hd
    rcases List.mem_cons.1 he with rfl | he
    · refine (Regs.read_writeAll_kept ws _ _ ?_).trans (Regs.read_write_self r e.1 e.2 hw)
      intro d' hd' hx
      exact hd.1 d' hd' hx
    · exact ih _ hd.2 he

/-! ### What is read of memory -/

/-- A line at its home depends on memory, the dies and the device registers alone. -/
theorem State.chanRead_congr {s t : State} (hm : t.mem = s.mem) (hd : t.dies = s.dies) (hv : t.dev = s.dev) (pa : Nat) :
    t.chanRead pa = s.chanRead pa := by
  have h1 : t.cellOf (lineAt pa) = s.cellOf (lineAt pa) := by
    simp only [State.cellOf, State.devChannel, State.cxuOf, State.die, hd]
  have h2 : t.keyNow (lineAt pa) = s.keyNow (lineAt pa) := by
    simp only [State.keyNow, State.ownOf, State.devChannel, State.cxuOf, State.die, hd, hv]
    congr
  simp only [State.chanRead, h1, h2, hm]

theorem State.byteAt_congr {s t : State} (hm : t.mem = s.mem) (hd : t.dies = s.dies) (hv : t.dev = s.dev) (pa : Nat) :
    t.byteAt pa = s.byteAt pa := by
  simp only [State.byteAt, State.homeRead, hm, State.chanRead_congr hm hd hv]
  cases s.mem.l2.find? (lineAt pa) <;> rfl

theorem State.localByte_congr {s t : State} (hm : t.mem = s.mem) (core off : Nat) : t.localByte core off = s.localByte core off := by
  simp only [State.localByte, State.lsRead, hm]

/-! ### Results -/

/-- The shape of a state in which a step wrote registers, set flags and moved on. -/
theorem Effect.of_eq {s t : State} {ws : List (Reg × Line)} {fl : Flags} {pc : Word} (hd : ws.Pairwise fun a b => a.1 = b.1 → a.1.hardwired = true)
    (h : t = { s with
      t := { s.t with regs := s.t.regs.writeAll ws, dirty := t.t.dirty, bad := t.t.bad, pc := pc, view := none,
                      sys := { s.t.sys with flags := s.t.sys.flags ||| fl } }
      logs := t.logs }) : Effect s t ws fl pc := by
  have hr : t.t.regs = s.t.regs.writeAll ws := by rw [h]
  have hm : t.mem = s.mem := by rw [h]
  have hdv : t.dev = s.dev := by rw [h]
  have hdi : t.dies = s.dies := by rw [h]
  refine ⟨fun e he hw => ?_, fun x hx => ?_, ?_, ?_, State.byteAt_congr hm hdi hdv, State.localByte_congr hm⟩
  · rw [hr]; exact Regs.read_writeAll_result ws _ hd he hw
  · rw [hr]; exact Regs.read_writeAll_kept ws _ x hx
  · rw [hr, Regs.writeAll_pend]
  · rw [hr]; exact h

/-- A 64-bit value goes to the destination. -/
theorem State.putWord_effect (s : State) (d : Reg) (x : Word) :
    Effect s (s.putWord d x) [(d, x.setWidth 512)] 0 (nextPc s.t.pc) := by
  refine Effect.of_eq (by simp) ?_
  rw [State.putWord, State.writeW, State.write_eq]
  simp [State.advance, Regs.writeAll]

/-- An integer result goes to the destination, with its flags. -/
theorem State.putInt_effect (s : State) (o : OpA) (ty : Ty) (x : Int) :
    Effect s (s.putInt o ty x) [(o.dst, (ty.extend (intForm ty o.clamp o.scale x).1).setWidth 512)]
      (intForm ty o.clamp o.scale x).2 (nextPc s.t.pc) := by
  refine Effect.of_eq (by simp) ?_
  simp only [State.putInt, State.writeW]
  rw [State.write_eq]
  simp [State.advance, State.orFlags, Task.orFlags, Regs.writeAll]

/-- An FP result goes to the destination, with its flags. -/
theorem State.putFp_effect (s : State) (o : OpA) (ty : Ty) (x : Val × Flags) :
    Effect s (s.putFp o ty x) [(o.dst, (BitVec.ofNat 64 (ty.fp.form (s.modeOf o.rnd) o.clamp o.scale x.1).1).setWidth 512)]
      (x.2 ||| (ty.fp.form (s.modeOf o.rnd) o.clamp o.scale x.1).2) (nextPc s.t.pc) := by
  refine Effect.of_eq (by simp) ?_
  simp only [State.putFp, State.writeW]
  rw [State.write_eq]
  simp [State.advance, State.orFlags, Task.orFlags, Regs.writeAll]

/-- Execution goes on in sequence and nothing else happens. -/
theorem State.advance_effect (s : State) : Effect s s.advance [] 0 (nextPc s.t.pc) := by
  refine Effect.of_eq (by simp) ?_
  simp [State.advance, Regs.writeAll]

theorem State.jump_effect (s : State) (pc : Word) : Effect s (s.jump pc) [] 0 pc := by
  refine Effect.of_eq (by simp) ?_
  simp [State.jump, Regs.writeAll]

/-! ### Traps (spec/13_traps.md R219) -/

/-- Discarding held commands moves no task. -/
theorem Task.discard_place (t : Task) (h : Held) :
    (t.discard h).sched.slot = t.sched.slot ∧ (t.discard h).sched.core = t.sched.core := by
  have k : ∀ (u : Task) (n : Nat), (u.completeTag n).sched.slot = u.sched.slot ∧ (u.completeTag n).sched.core = u.sched.core := by
    intro u n
    simp only [Task.completeTag]
    split <;> split <;> simp
  cases hm : h.ins <;> simp [Task.discard, hm, Held.tag?, k]

theorem Task.discardVersion_place (t : Task) :
    t.discardVersion.sched.slot = t.sched.slot ∧ t.discardVersion.sched.core = t.sched.core := by
  have k : ∀ (hs : List Held) (u : Task), (hs.foldl Task.discard u).sched.slot = u.sched.slot ∧
      (hs.foldl Task.discard u).sched.core = u.sched.core := by
    intro hs
    induction hs with
    | nil => intro u; exact ⟨rfl, rfl⟩
    | cons h hs ih =>
      intro u
      exact ⟨(ih _).1.trans (Task.discard_place u h).1, (ih _).2.trans (Task.discard_place u h).2⟩
  simp only [Task.discardVersion]
  split
  · exact k t.doomed t
  · exact ⟨rfl, rfl⟩

/-- The log entries of discarded commands change the logs alone. -/
theorem State.logZeros_eq (s : State) (core key : Nat) (hs : List Held) :
    s.logZeros core key hs = { s with logs := (s.logZeros core key hs).logs } := by
  have k : ∀ (xs : List Reg) (s : State),
      (xs.foldl (fun s x => if x.hardwired then s else s.logWrite core key x 0) s) =
        { s with logs := (xs.foldl (fun s x => if x.hardwired then s else s.logWrite core key x 0) s).logs } := by
    intro xs
    induction xs with
    | nil => intro s; rfl
    | cons x xs ih =>
      intro s
      rw [List.foldl_cons, ih]
      by_cases hx : x.hardwired = true <;> simp only [hx, if_true, Bool.false_eq_true, if_false]
      by_cases hc : 4096 ≤ core <;> simp [State.logWrite, hc]
  exact k _ s

theorem State.logTrap_eq (s : State) (key : Nat) (t : Task) (c : Nat) :
    s.logTrap key t c = { s with logs := (s.logTrap key t c).logs } := by
  simp only [State.logTrap]
  split
  · exact State.logZeros_eq ..
  · rfl

/-- A trap queue entry changes its core alone. -/
theorem State.queueTrap_eq (s : State) (core slot : Nat) :
    s.queueTrap core slot = { s with cores := (s.queueTrap core slot).cores } := by
  simp only [State.queueTrap]; split <;> rfl

/-- The cores after it. -/
theorem State.core_queueTrap (s : State) (core slot n : Nat) :
    (s.queueTrap core slot).core n = if decide (slot < 7) && decide (n = core) then
      { s.core core with trapq := enqueueTrap (s.core core).trapq s.dev.cycle slot } else s.core n := by
  simp only [State.queueTrap]
  by_cases h : slot < 7
  · by_cases hn : n = core
    · subst hn; simp only [h, if_true, decide_true, Bool.and_self]; exact State.core_onCore_self ..
    · simp only [h, hn, if_true, decide_true, decide_false, Bool.and_false, Bool.false_eq_true, if_false]
      exact State.core_onCore_ne s _ hn
  · simp only [h, if_false, decide_false, Bool.false_and, Bool.false_eq_true]

/-- What a trap of the task in focus does. -/
theorem State.trapAt_eq (s : State) (c : Nat) (pc : Word) (r : TrapRec) :
    s.trapAt c pc r = { s with
      t := s.t.enterTrap c pc r
      logs := (s.logTrap s.cur s.t c).logs
      cores := (s.queueTrap s.t.sched.core (s.t.sched.slot.getD 7)).cores } := by
  simp only [State.trapAt]
  rw [State.queueTrap_eq, State.logTrap_eq]
  simp only [State.onT, State.queueTrap]
  split <;> rfl

/-- The trap of the task in focus, at a code address. -/
theorem State.trapAt_traps (s : State) (c : Nat) (pc : Word) (r : TrapRec) : Traps s (s.trapAt c pc r) c pc r := by
  have hp : (if c = 0x5C then s.t else s.t.discardVersion).sched.slot = s.t.sched.slot := by
    split
    · rfl
    · exact (Task.discardVersion_place s.t).1
  rw [State.trapAt_eq]
  refine ⟨rfl, hp, rfl, rfl, ?_, fun hv => ?_, fun hv h5 => ?_, fun hq => ?_, rfl, fun hv => ?_, fun n hn => ?_⟩
  · simp only [Task.enterTrap, hp]
  · have : (if c = 0x5C then s.t else s.t.discardVersion) = s.t := by
      split
      · rfl
      · simp [Task.discardVersion, hv]
    simp only [Task.enterTrap, this, and_self]
  · simp [Task.enterTrap, h5, Task.discardVersion, hv]
  · have h7 : (s.t.sched.slot.getD 7 < 7) = True := eq_true hq
    refine (State.core_queueTrap s s.t.sched.core (s.t.sched.slot.getD 7) s.t.sched.core).trans ?_
    simp only [h7, decide_true, Bool.and_self, if_true]
  · simp [State.logTrap, hv]
  · refine (State.core_queueTrap s s.t.sched.core (s.t.sched.slot.getD 7) n).trans ?_
    simp only [hn, decide_false, Bool.and_false, Bool.false_eq_true, if_false]

theorem State.trap_traps (s : State) (c : Nat) : Traps s (s.trap c) c s.t.pc {} := State.trapAt_traps ..

/-! ### Long ops (spec/03_encoding.md R71, R72) -/

theorem Regs.getLsbD_mark (xs : List Reg) (p : BitVec 128) (i : Nat) :
    (xs.foldl (fun p x => if x.hardwired then p else p ||| BitVec.twoPow 128 x.spec) p).getLsbD i =
      (p.getLsbD i || xs.any fun x => !x.hardwired && decide (x.spec = i)) := by
  induction xs generalizing p with
  | nil => simp
  | cons x xs ih =>
    rw [List.foldl_cons, ih, List.any_cons]
    by_cases hw : x.hardwired = true
    · simp [hw]
    · simp only [hw, if_false, BitVec.getLsbD_or, BitVec.getLsbD_twoPow, Reg.spec_lt x, decide_true, Bool.true_and,
        Bool.not_false, Bool.false_eq_true, Bool.or_assoc]

/-- The marks of a long op's destinations. -/
theorem Regs.pending_mark (r : Regs) (xs : List Reg) (x : Reg) :
    (r.mark xs).pending x = (r.pending x || (!x.hardwired && xs.contains x)) := by
  have h1 : (xs.any fun y => !y.hardwired && decide (y.spec = x.spec)) = (!x.hardwired && xs.contains x) := by
    rw [Bool.eq_iff_iff]
    simp only [List.any_eq_true, Bool.and_eq_true, decide_eq_true_eq, List.contains_iff_mem]
    constructor
    · rintro ⟨y, hy, hw, he⟩; obtain rfl := Reg.spec_inj he; exact ⟨hw, hy⟩
    · rintro ⟨hw, hx⟩; exact ⟨x, hx, hw, rfl⟩
  simp only [Regs.pending, Regs.mark, Regs.getLsbD_mark, h1]
  cases x.hardwired <;> simp

theorem State.issueLong_issues (s : State) (ds : List Reg) (vs : List Line) (a : LongAct) (h : s.t.outcnt < 64) :
    Issues s (s.issueLong ds vs a) ds
      { op := s.ops, pc := s.t.pc, dsts := ds, vals := vs, act := a, since := s.dev.cycle, iter := s.t.iteration } := by
  have h' : (64 ≤ s.t.outcnt) = False := eq_false (by omega)
  have e : s.issueLong ds vs a = { s with
      t := { s.t with regs := s.t.regs.mark ds, pc := nextPc s.t.pc, view := none, long := s.t.long ++
        [{ op := s.ops, pc := s.t.pc, dsts := ds, vals := vs, act := a, since := s.dev.cycle, iter := s.t.iteration }] }
      ops := s.ops + 1 } := by
    simp only [State.issueLong, h', if_false]; rfl
  rw [e]
  exact ⟨rfl, rfl, fun x => Regs.pending_mark _ _ x, fun x => rfl, rfl, State.byteAt_congr rfl rfl rfl,
    State.localByte_congr rfl⟩

/-- With OUTCNT at its bound a long op parks. -/
theorem State.issueLong_parks (s : State) (ds : List Reg) (vs : List Line) (a : LongAct) (h : 64 ≤ s.t.outcnt) :
    Parks s (s.issueLong ds vs a) .outcnt := by
  simp only [Parks, State.issueLong, h, if_true]; rfl

end Sys2Proof.Machine
end

