-- ==== Sys2Proof/Laws/Gate.lean ====
section
/-! SUPPORT. Every instruction that has a word makes the same checks before its own effect. -/

namespace Sys2Proof.Machine

open Sys2Proof

/-- The meaning of an instruction that has a word is an effect behind the checks of spec/03_encoding.md R75. -/
theorem exec_gated {i : Instr} {r : Row} {f : Flds} (h : i.info = some (r, f)) (s : State) :
    ∃ e, exec i s = .next (gated r f s e) := by
  cases i <;> first
    | (simp only [Instr.info, Option.some.injEq, Prod.mk.injEq] at h; obtain ⟨rfl, rfl⟩ := h; exact ⟨_, rfl⟩)
    | simp [Instr.info] at h

end Sys2Proof.Machine
end

