-- ==== Sys2Proof/Laws/Mem.lean ====
section
/-! SUPPORT. Laws of memory: bytes read as they were written, and every memory operation keeps the canonical form of the byte
memories. -/

namespace Sys2Proof.Machine

open Sys2Proof

/-! ### Byte memories -/

/-- A byte that was written reads as written; every other byte reads as before. -/
theorem get_writeCells (m : List Host.Cell) (a : Nat) (bs : List Byte) (x : Nat) :
    Sparse.get emptyByte (writeCells m a bs) x =
      if a ≤ x then (bs[x - a]?).getD (Sparse.get emptyByte m x) else Sparse.get emptyByte m x := by
  induction bs generalizing m a with
  | nil => simp [writeCells]
  | cons b bs ih =>
    rw [writeCells, ih]
    rcases Nat.lt_trichotomy x a with h | h | h
    · have h1 : ¬a + 1 ≤ x := by omega
      have h2 : ¬a ≤ x := by omega
      simp [h1, h2, Sparse.get_set_ne _ _ _ (Nat.ne_of_lt h)]
    · subst h
      simp only [List.getElem?_cons_zero, Nat.sub_self, Nat.le_refl, if_true]
      rw [if_neg (by omega)]
      simp
    · have h1 : a + 1 ≤ x := h
      have h2 : a ≤ x := by omega
      have h3 : x - a = (x - (a + 1)) + 1 := by omega
      rw [if_pos h1, if_pos h2, h3, Sparse.get_set_ne _ _ _ (by omega : x ≠ a)]
      simp

/-- Writing keeps the canonical form. -/
theorem writeCells_wf (m : List Host.Cell) (a : Nat) (bs : List Byte) (h : Memory.wf m = true) :
    Memory.wf (writeCells m a bs) = true := by
  induction bs generalizing m a with
  | nil => exact h
  | cons b bs ih => exact ih _ _ (Sparse.wf_set a b h)

@[simp] theorem writeCells_nil (m : List Host.Cell) (a : Nat) : writeCells m a [] = m := rfl

theorem toBytes_length (n x : Nat) : (toBytes n x).length = n := by simp [toBytes]

/-! ### The canonical form is kept -/

/-- The byte memories have their canonical form. -/
def Mem.canonical (m : Mem) : Bool := Memory.wf m.dram && Memory.wf m.ls

/-- An operation that leaves the bytes of DRAM and local store alone keeps the form. -/
theorem Mem.canonical_of_eq {m m' : Mem} (hd : m'.dram = m.dram) (hl : m'.ls = m.ls) (h : m.canonical = true) :
    m'.canonical = true := by rw [Mem.canonical, hd, hl]; exact h

variable {s : State}

theorem State.chanPut_canonical (pa : Nat) (x : Line) (h : s.mem.canonical = true) : (s.chanPut pa x).mem.canonical = true := by
  simp only [Mem.canonical, Bool.and_eq_true] at h ⊢
  exact ⟨writeCells_wf _ _ _ h.1, h.2⟩

theorem State.chanWrite_canonical (pa : Nat) (x : Line) (mask : ByteMask) (h : s.mem.canonical = true) :
    (s.chanWrite pa x mask).mem.canonical = true := by
  unfold State.chanWrite
  split
  · exact h
  · exact State.chanPut_canonical _ _ h

theorem State.markWritten_canonical (pa : Nat) (h : s.mem.canonical = true) : (s.markWritten pa).mem.canonical = true := by
  unfold State.markWritten
  dsimp only
  split
  · exact h
  · exact h

theorem State.evictHome_canonical (line : Nat) (h : s.mem.canonical = true) : (s.evictHome line).mem.canonical = true := by
  unfold State.evictHome
  split
  · exact h
  · exact State.chanWrite_canonical _ _ _ h

theorem State.roomHome_canonical (pa : Nat) (h : s.mem.canonical = true) : (s.roomHome pa).mem.canonical = true := by
  unfold State.roomHome State.pickVictim
  dsimp only
  split
  · exact h
  · split
    · exact h
    · split
      next heq => simp only [Prod.mk.injEq] at heq; exact heq.2 ▸ h
      next heq => simp only [Prod.mk.injEq] at heq; exact State.evictHome_canonical _ (heq.2 ▸ h)

theorem State.homeRead_canonical (pa : Nat) (h : s.mem.canonical = true) : (s.homeRead pa).2.mem.canonical = true := by
  unfold State.homeRead
  split
  · exact h
  · exact State.roomHome_canonical pa h

theorem State.homeWrite_canonical (pa : Nat) (x : Line) (mask : ByteMask) (h : s.mem.canonical = true) :
    (s.homeWrite pa x mask).mem.canonical = true := by
  unfold State.homeWrite
  split
  · exact h
  · exact State.markWritten_canonical _ (State.homeRead_canonical pa h)

theorem State.cleanHome_canonical (line : Nat) (h : s.mem.canonical = true) : (s.cleanHome line).mem.canonical = true := by
  unfold State.cleanHome
  split
  · exact h
  · exact State.chanWrite_canonical _ _ _ h

theorem State.setPage_canonical (p : Nat) (v : PageState) (h : s.mem.canonical = true) : (s.setPage p v).mem.canonical = true := h

theorem State.rdcWriteThrough_canonical (die line : Nat) (h : s.mem.canonical = true) :
    (s.rdcWriteThrough die line).mem.canonical = true := by
  unfold State.rdcWriteThrough
  split
  · exact h
  · split
    · exact h
    · exact State.homeWrite_canonical _ _ _ h

theorem State.rdcDrop_canonical (die line : Nat) (h : s.mem.canonical = true) : (s.rdcDrop die line).mem.canonical = true := by
  have hw := State.rdcWriteThrough_canonical die line h
  unfold State.rdcDrop
  dsimp only
  split <;> exact hw

theorem State.roomRdc_canonical (die pa : Nat) (h : s.mem.canonical = true) : (s.roomRdc die pa).mem.canonical = true := by
  unfold State.roomRdc State.pickVictim
  dsimp only
  split
  · exact h
  · split
    · exact h
    · split
      next heq => simp only [Prod.mk.injEq] at heq; exact heq.2 ▸ h
      next heq => simp only [Prod.mk.injEq] at heq; exact State.rdcDrop_canonical _ _ (heq.2 ▸ h)

theorem State.rdcRead_canonical (die pa : Nat) (h : s.mem.canonical = true) : (s.rdcRead die pa).2.mem.canonical = true := by
  have hr : ((s.homeRead pa).2.roomRdc die pa).mem.canonical = true :=
    State.roomRdc_canonical die pa (State.homeRead_canonical pa h)
  unfold State.rdcRead
  dsimp only
  split
  · split
    · exact h
    · exact hr
  · split
    · exact h
    · exact hr

theorem State.rdcWrite_canonical (die pa : Nat) (x : Line) (mask : ByteMask) (w : Nat) (h : s.mem.canonical = true) :
    (s.rdcWrite die pa x mask w).mem.canonical = true := State.roomRdc_canonical die pa h

theorem State.l1Drop_canonical (core line : Nat) (h : s.mem.canonical = true) : (s.l1Drop core line).mem.canonical = true := by
  unfold State.l1Drop
  split
  · exact h
  · exact State.homeWrite_canonical _ _ _ h

theorem State.l1Clean_canonical (core line : Nat) (h : s.mem.canonical = true) : (s.l1Clean core line).mem.canonical = true := by
  unfold State.l1Clean
  split
  · exact h
  · exact State.homeWrite_canonical _ _ _ h

theorem State.foldl_canonical {α : Type} (f : State → α → State)
    (hf : ∀ s a, s.mem.canonical = true → (f s a).mem.canonical = true) (xs : List α) {s : State}
    (h : s.mem.canonical = true) : (xs.foldl f s).mem.canonical = true := by
  induction xs generalizing s with
  | nil => exact h
  | cons x xs ih => exact ih (hf s x h)

theorem State.roomL1_canonical (core : Nat) (h : s.mem.canonical = true) : (s.roomL1 core).mem.canonical = true := by
  unfold State.roomL1 State.pickVictim
  dsimp only
  split
  · exact h
  · split
    · exact h
    · split
      next heq => simp only [Prod.mk.injEq] at heq; exact heq.2 ▸ h
      next heq => simp only [Prod.mk.injEq] at heq; exact State.l1Drop_canonical _ _ (heq.2 ▸ h)

theorem State.rdcDropPage_canonical (page die : Nat) (h : s.mem.canonical = true) :
    (s.rdcDropPage page die).mem.canonical = true :=
  State.foldl_canonical (fun s l => s.rdcDrop die l) (fun _ l hs => State.rdcDrop_canonical die l hs) _ h

theorem State.recall_canonical (page : Nat) (die : Option Nat) (h : s.mem.canonical = true) :
    (s.recall page die).mem.canonical = true := by
  unfold State.recall
  split
  · exact State.foldl_canonical (fun s l => s.l1Drop _ l) (fun _ l hs => State.l1Drop_canonical _ l hs) _
      (State.foldl_canonical (fun s d => s.rdcDropPage page d) (fun _ d hs => State.rdcDropPage_canonical page d hs) _ h)
  · exact h

theorem State.classify_canonical (core : Option Nat) (pa : Nat) (h : s.mem.canonical = true) :
    (s.classify core pa).mem.canonical = true := by
  unfold State.classify
  split
  · split <;> exact h
  · split
    · exact h
    · exact State.recall_canonical _ _ h
  · exact h

theorem State.dieRead_canonical (die pa : Nat) (h : s.mem.canonical = true) : (s.dieRead die pa).2.mem.canonical = true := by
  unfold State.dieRead
  split
  · exact State.homeRead_canonical pa h
  · exact State.rdcRead_canonical die pa h

theorem State.l1Read_canonical (core pa : Nat) (alloc : Bool) (h : s.mem.canonical = true) :
    (s.l1Read core pa alloc).2.mem.canonical = true := by
  have hd := State.dieRead_canonical (dieOf core) pa h
  have hh := State.homeRead_canonical pa h
  have hm : (match s.pageState pa with
      | .priv n => if n = core then s.homeRead pa else s.dieRead (dieOf core) pa
      | _ => s.dieRead (dieOf core) pa).2.mem.canonical = true := by
    split
    · split
      · exact hh
      · exact hd
    · exact hd
  unfold State.l1Read
  split
  · split
    · exact h
    · exact hd
  · split
    next x s' heq =>
      have hs : s'.mem.canonical = true := (congrArg (fun p : Line × State => p.2.mem.canonical) heq).symm.trans hm
      split
      · exact State.roomL1_canonical core hs
      · exact hs

theorem State.coreRead_canonical (core : Nat) (sc : Scope) (nc alloc : Bool) (pa : Nat) (h : s.mem.canonical = true) :
    (s.coreRead core sc nc alloc pa).2.mem.canonical = true := by
  have hc := State.classify_canonical (some core) pa h
  unfold State.coreRead
  dsimp only
  split
  · exact State.homeRead_canonical pa hc
  · split
    · exact State.l1Read_canonical core pa alloc hc
    · split
      · exact State.dieRead_canonical _ pa hc
      · exact State.homeRead_canonical pa (State.rdcDrop_canonical _ _ hc)

theorem State.l1Update_canonical (core pa : Nat) (x : Line) (mask : ByteMask) (h : s.mem.canonical = true) :
    (s.l1Update core pa x mask).mem.canonical = true := by
  unfold State.l1Update
  split <;> exact h

theorem State.coreWrite_canonical (core : Nat) (sc : Scope) (nc : Bool) (pa : Nat) (x : Line) (mask : ByteMask) (w : Nat)
    (h : s.mem.canonical = true) : (s.coreWrite core sc nc pa x mask w).mem.canonical = true := by
  have hc := State.classify_canonical (some core) pa h
  unfold State.coreWrite
  dsimp only
  split
  · exact State.homeWrite_canonical _ _ _ hc
  · split
    · have hr := State.l1Read_canonical core pa true hc
      split
      · exact hr
      · exact hr
    · have hu := State.l1Update_canonical core pa x mask hc
      split
      · exact State.homeWrite_canonical _ _ _ hu
      · split
        · exact State.homeWrite_canonical _ _ _ (State.rdcDrop_canonical _ _ hu)
        · exact State.rdcWrite_canonical _ _ _ _ _ hu

theorem State.atHome_canonical (core pa : Nat) (h : s.mem.canonical = true) : (s.atHome core pa).mem.canonical = true := by
  have hd := State.l1Drop_canonical core (lineAt pa) (State.classify_canonical (some core) pa h)
  unfold State.atHome
  dsimp only
  split
  · exact hd
  · exact State.rdcDrop_canonical _ _ hd

theorem State.outerRead_canonical (pa : Nat) (h : s.mem.canonical = true) : (s.outerRead pa).2.mem.canonical = true :=
  State.homeRead_canonical _ (State.classify_canonical _ _ h)

theorem State.outerWrite_canonical (pa : Nat) (x : Line) (mask : ByteMask) (h : s.mem.canonical = true) :
    (s.outerWrite pa x mask).mem.canonical = true := State.homeWrite_canonical _ _ _ (State.classify_canonical _ _ h)

theorem State.engineWrite_canonical (core pa : Nat) (x : Line) (mask : ByteMask) (h : s.mem.canonical = true) :
    (s.engineWrite core pa x mask).mem.canonical = true :=
  State.homeWrite_canonical _ _ _ (State.atHome_canonical _ _ h)

theorem State.engineRead_canonical (core pa : Nat) (h : s.mem.canonical = true) :
    (s.engineRead core pa).2.mem.canonical = true := by
  have hc := State.classify_canonical (some core) pa h
  unfold State.engineRead
  dsimp only
  split
  · exact State.l1Read_canonical _ _ _ hc
  · exact State.dieRead_canonical _ _ hc

theorem State.outerBytes_canonical (pa n : Nat) (h : s.mem.canonical = true) : (s.outerBytes pa n).2.mem.canonical = true := by
  induction n generalizing s pa with
  | zero => exact h
  | succ n ih => exact ih (pa + 1) (State.outerRead_canonical pa h)

theorem State.outerPut_canonical (pa : Nat) (bs : List Byte) (h : s.mem.canonical = true) :
    (s.outerPut pa bs).mem.canonical = true := by
  induction bs generalizing s pa with
  | nil => exact h
  | cons b bs ih => exact ih (pa + 1) (State.outerWrite_canonical _ _ _ h)

theorem State.homeWord_canonical (pa : Nat) (h : s.mem.canonical = true) : (s.homeWord pa).2.mem.canonical = true :=
  State.outerRead_canonical pa h

theorem State.putWordAt_canonical (pa : Nat) (x : Word) (h : s.mem.canonical = true) :
    (s.putWordAt pa x).mem.canonical = true := State.outerWrite_canonical _ _ _ h

theorem State.setFull_canonical (pa : Nat) (b : Bool) (h : s.mem.canonical = true) : (s.setFull pa b).mem.canonical = true := h

theorem State.lsSetFull_canonical (core off : Nat) (b : Bool) (h : s.mem.canonical = true) :
    (s.lsSetFull core off b).mem.canonical = true := by
  unfold State.lsSetFull
  dsimp only
  split <;> exact h

theorem State.lsWrite_canonical (core off : Nat) (bs : List Byte) (h : s.mem.canonical = true) :
    (s.lsWrite core off bs).mem.canonical = true := by
  simp only [Mem.canonical, Bool.and_eq_true] at h ⊢
  exact ⟨h.1, writeCells_wf _ _ _ h.2⟩

theorem State.lsEngineWrite_canonical (core off : Nat) (bs : List Byte) (h : s.mem.canonical = true) :
    (s.lsEngineWrite core off bs).mem.canonical = true :=
  State.foldl_canonical _ (fun _ _ hs => State.lsSetFull_canonical _ _ _ hs) _ (State.lsWrite_canonical core off bs h)

/-- Memory right after reset has the form. -/
theorem State.reset_canonical : State.reset.mem.canonical = true := rfl

end Sys2Proof.Machine
end

