-- ==== Sys2Proof/Tests/Slice0.lean ====
section
/-! SUPPORT. The model's own tests: words and ill-formed terms, single steps with results worked out by hand from the
specification, and states and operands that meet the hypotheses of the statements. -/

namespace Sys2Proof.Machine

open Sys2Proof

-- one proof at a time: each is a kernel evaluation
set_option Elab.async false

/-! ### Builders -/

namespace Tests

def h : Head := ⟨false, 0, false⟩
def src (r : Reg) : Src := ⟨r, false, false⟩

def A (d a b c : Reg) (t : Option Ty) (imm : Nat) : OpA :=
  { hd := h, dst := d, clamp := .none, scale := 0, a := src a, b := src b, c := src c, ty := t, imm := BitVec.ofNat 32 imm,
    rnd := .frmode, cond := .eq }

def P (p1 : Reg) (p2 : Fin 16) (a b : Reg) (t : Option Ty) : OpP :=
  { hd := h, p1 := p1, comb := .set, p2 := p2, a := src a, b := src b, ty := t, imm := 0, cond := .eq }

def M (d : Reg) (p : Fin 16) (base index : Reg) (scope : Scope) (t : Option Ty) (imm : Nat) : OpM :=
  { hd := h, data := d, pidx := p, base := base, index := index, shift := 0, scope := scope, hint := .normal, ty := t,
    imm := BitVec.ofNat 32 imm }

def B (sa : Reg) (off slot : Nat) : OpB := { hd := h, sa := sa, off := BitVec.ofNat 29 off, slot := BitVec.ofNat 3 slot }

def E (d : Reg) (scope : Scope) (pE : Fin 16) (a b c : Reg) (t : Option Ty) (pD : Fin 16) (imm : Nat) : OpE :=
  { hd := h, dst := d, scope := scope, pE := pE, a := a, b := src b, c := src c, ty := t, pD := pD, imm := BitVec.ofNat 28 imm }

def S (d sa : Reg) (imm : Nat) : OpS := { hd := h, dst := d, sa := sa, imm := BitVec.ofNat 32 imm }

end Tests

/-! ### Well-formed instructions: for each check an ill-formed term that it refuses -/

open Tests in
theorem test_wf_fn : (Instr.add { A (.g 3) (.g 1) (.g 2) .zero (some .i64) 0 with rnd := .rtz }).wf = false ∧
    (Instr.vcmp { A (.m 3) (.v 1) (.g 2) (.m 4) (some .i32) 0 with cond := .ord }).wf = false ∧
    (Instr.cmp { P (.p 3) 4 (.g 1) (.g 2) (some .i64) with cond := .uo }).wf = false ∧
    (Instr.fadd { A (.g 3) (.g 1) (.g 2) .zero (some .f32) 0 with cond := .lt }).wf = false := by decide

open Tests in
theorem test_wf_unused_sources : (Instr.mnot (A (.m 3) (.m 1) (.m 2) .zero none 0)).wf = false ∧
    (Instr.add (A (.g 3) (.g 1) (.g 2) (.g 4) (some .i64) 0)).wf = false ∧
    (Instr.movi (A (.g 3) (.g 1) .zero .zero none 0)).wf = false ∧
    (Instr.tagclr (A (.g 3) .zero (.g 2) .zero none 0)).wf = false := by decide

open Tests in
theorem test_wf_modifiers : (Instr.and { A (.g 3) (.g 1) (.g 2) .zero (some .i64) 0 with a := ⟨.g 1, true, false⟩ }).wf = false ∧
    (Instr.add { A (.g 3) (.g 1) (.g 2) .zero (some .n64) 0 with b := ⟨.g 2, false, true⟩ }).wf = false ∧
    (Instr.sel { A (.g 3) (.g 1) (.g 2) (.p 4) none 0 with c := ⟨.p 4, true, false⟩ }).wf = false := by decide

open Tests in
theorem test_wf_clamp_and_scale : (Instr.and { A (.g 3) (.g 1) (.g 2) .zero (some .i64) 0 with clamp := .csat }).wf = false ∧
    (Instr.mand { A (.m 3) (.m 1) (.m 2) .zero none 0 with scale := 1 }).wf = false ∧
    (Instr.fcvt { A (.g 3) (.g 1) .zero .zero (some .i32) 10 with clamp := .c01 }).wf = false ∧
    (Instr.vtsum { A (.v 3) (.g 1) .zero (.m 4) (some .pair32) 0 with scale := 1 }).wf = false := by decide

open Tests in
theorem test_wf_immediate : (Instr.add (A (.g 3) (.g 1) (.g 2) .zero (some .i64) 1)).wf = false ∧
    (Instr.fadd (A (.g 3) (.g 1) .zero .zero (some .f16) 0x10000)).wf = false ∧
    (Instr.vext (A (.g 3) (.v 1) .zero .zero (some .i32) 64)).wf = false := by decide

open Tests in
theorem test_wf_types : (Instr.add (A (.g 3) (.g 1) (.g 2) .zero (some .f32) 0)).wf = false ∧
    (Instr.add (A (.g 3) (.g 1) (.g 2) .zero none 0)).wf = false ∧ (Instr.mand (A (.m 3) (.m 1) (.m 2) .zero (some .i8) 0)).wf = false ∧
    (Instr.fcmp (P (.p 3) 4 (.g 1) (.g 2) (some .i32))).wf = false := by decide

open Tests in
theorem test_wf_classes : (Instr.add (A (.v 3) (.g 1) (.g 2) .zero (some .i64) 0)).wf = false ∧
    (Instr.add (A (.g 3) (.v 1) (.g 2) .zero (some .i64) 0)).wf = false ∧
    (Instr.add (A (.g 3) (.g 1) (.m 2) .zero (some .i64) 0)).wf = false ∧
    (Instr.madd (A (.g 3) (.g 1) (.g 2) (.p 4) (some .i64) 0)).wf = false := by decide

open Tests in
theorem test_wf_mov_pairs : (Instr.mov (A (.fmt 3) (.m 1) .zero .zero none 0)).wf = false ∧
    (Instr.mov (A (.v 3) (.v 1) .zero .zero none 0)).wf = false := by decide

open Tests in
theorem test_wf_conversions : (Instr.fcvt (A (.g 3) (.g 1) .zero .zero (some .i32) 2)).wf = false ∧
    (Instr.fcvt (A (.g 3) (.g 1) .zero .zero (some .f32) 21)).wf = false ∧
    (Instr.vpack (A (.v 3) (.v 1) .zero (.m 4) (some (.nf 0)) 0)).wf = false ∧
    (Instr.vunpack (A (.v 3) (.v 1) .zero (.m 4) (some .f32) 10)).wf = false := by decide

open Tests in
theorem test_wf_pair_sum : (Instr.vtsum (A (.v 31) (.g 1) .zero (.m 4) (some .pair32) 0)).wf = false ∧
    (Instr.vtsum { A (.v 3) (.g 1) .zero (.m 4) (some .pair32) 0 with rnd := .rup }).wf = false ∧
    (Instr.vtsum (A (.v 3) (.v 31) .zero (.m 4) (some .f32) 0)).wf = false := by decide

open Tests in
theorem test_wf_predicates : (Instr.pand (P (.p 3) 3 (.p 1) (.p 2) none)).wf = false ∧
    (Instr.pand (P (.g 3) 4 (.p 1) (.p 2) none)).wf = false ∧ (Instr.pnot (P (.p 3) 4 (.p 1) (.p 2) none)).wf = false ∧
    (Instr.ptst (P (.p 3) 4 (.p 1) (.p 2) none)).wf = false ∧
    (Instr.cmp { P (.p 3) 4 (.g 1) (.g 2) (some .i64) with imm := 1 }).wf = false ∧
    (Instr.pand { P (.p 3) 4 (.p 1) (.p 2) none with a := ⟨.p 1, true, false⟩ }).wf = false := by decide

open Tests in
theorem test_wf_memory : (Instr.st (M (.g 3) 1 (.g 1) (.g 2) .core (some .i64) 0)).wf = false ∧
    (Instr.lea (M (.g 3) 0 (.g 1) (.g 2) .device none 0)).wf = false ∧
    (Instr.fenceR { M .zero 0 .zero .zero .core none 0 with hint := .keep }).wf = false ∧
    (Instr.fenceR { M .zero 0 .zero .zero .core none 0 with shift := 1 }).wf = false ∧
    (Instr.fenceR (M .zero 0 .zero .zero .core none 1)).wf = false ∧ (Instr.ld (M (.v 3) 0 (.g 1) (.g 2) .core (some .i64) 0)).wf = false ∧
    (Instr.ldg (M (.v 3) 0 (.g 1) (.g 2) .core (some .i32) 0)).wf = false ∧
    (Instr.ldv (M (.v 3) 0 (.v 1) (.g 2) .core (some .i32) 0)).wf = false ∧ (Instr.ld (M (.g 3) 0 (.g 1) (.g 2) .core none 0)).wf = false := by
  decide

open Tests in
theorem test_wf_branches : (Instr.jr (B (.g 1) 1 0)).wf = false ∧ (Instr.ret (B .zero 0 1)).wf = false ∧
    (Instr.br (B (.g 1) 1 0)).wf = false ∧ (Instr.jr (B (.v 1) 0 0)).wf = false := by decide

open Tests in
theorem test_wf_engine_fields : (Instr.oadd (E (.g 63) .core 1 (.g 1) (.g 2) .zero (some .i64) 2 0)).wf = false ∧
    (Instr.oadd (E (.g 3) .core 1 (.g 1) (.g 2) (.g 4) (some .i64) 2 0)).wf = false ∧
    (Instr.grpq (E (.g 3) .device 0 .zero .zero .zero none 0 0)).wf = false ∧
    (Instr.grpq (E (.g 3) .core 1 .zero .zero .zero none 0 0)).wf = false ∧
    (Instr.grpq (E (.g 3) .core 0 .zero .zero .zero none 1 0)).wf = false ∧
    (Instr.copy { E .zero .core 0 (.g 1) (.g 2) (.g 4) none 0 0 with b := ⟨.g 2, true, false⟩ }).wf = false ∧
    (Instr.oadd (E (.g 3) .core 1 (.v 1) (.g 2) .zero (some .i64) 2 0)).wf = false ∧
    (Instr.oadd (E (.g 3) .core 1 (.g 1) (.g 2) .zero (some .f32) 2 0)).wf = false := by decide

open Tests in
theorem test_wf_engine_operands : (Instr.grpq (E (.g 3) .core 0 .zero .zero .zero none 0 0x600)).wf = false ∧
    (Instr.deleg (E (.g 3) .core 1 (.g 1) (.g 2) (.g 4) none 2 5)).wf = false ∧
    (Instr.deleg (E (.g 3) .core 1 (.g 1) (.g 2) (.g 61) none 2 4)).wf = false ∧
    (Instr.amsg (E .zero .core 0 (.g 1) (.g 2) (.g 4) none 0 192)).wf = false ∧
    (Instr.amsg (E .zero .core 0 (.g 1) (.g 2) (.g 63) none 0 128)).wf = false ∧
    (Instr.gslot (E .zero .core 0 .zero .zero .zero none 0 17)).wf = false ∧
    (Instr.rpt (E .zero .core 0 (.g 1) .zero .zero none 0 33)).wf = false ∧ (Instr.rpt (E .zero .core 0 (.g 1) .zero .zero none 0 0)).wf = false ∧
    (Instr.mrd (E (.v 3) .core 0 (.g 1) (.g 2) .zero (some .f32) 0 6)).wf = false ∧
    (Instr.mrd (E (.v 31) .core 0 (.g 1) (.g 2) .zero (some .pair32) 0 0)).wf = false ∧
    (Instr.ocmt (E (.v 3) .core 1 (.g 1) (.g 2) .zero (some .f32) 2 0)).wf = false := by decide

open Tests in
theorem test_wf_system : (Instr.trap (S .zero .zero 0)).wf = false ∧ (Instr.trap (S .zero .zero 6)).wf = false ∧
    (Instr.kill (S .zero .zero 0x101)).wf = false ∧ (Instr.tlbinv (S .zero (.g 1) 0x18)).wf = false ∧
    (Instr.tlbinv (S .zero (.g 1) 4)).wf = false ∧ (Instr.sfqpop (S (.v 31) .zero 0)).wf = false ∧
    (Instr.nop (S (.g 3) .zero 0)).wf = false ∧ (Instr.nop (S .zero .zero 1)).wf = false ∧ (Instr.nop (S .zero (.g 1) 0)).wf = false ∧
    (Instr.sysr (S (.v 3) .zero 0)).wf = false ∧ (Instr.sysw (S .zero (.v 1) 0)).wf = false := by decide

/-! ### Words, field by field from the formats of spec/03_encoding.md R56 to R64 and the map of R78 -/

/-- The word decodes to the instruction, and encodes it. -/
def Tests.reads (w : BitVec 96) (i : Instr) : Bool :=
  (match decode w with
    | .ok j => j == i
    | .error _ => false) && encode i == some w

open Tests

theorem test_decode_integer_1 : ([
    (0b0_0000_0_00000001_0000_0000011_000_0000_0000001_00_0000010_00_0000000_00_00011_00000000000000000000000000000000#96,
      .add (A (.g 3) (.g 1) (.g 2) .zero (some .i64) 0)),
    (0b0_0000_0_00000001_0001_0000011_000_0000_0000001_00_0000010_00_0000000_00_00011_00000000000000000000000000000000#96,
      .sub (A (.g 3) (.g 1) (.g 2) .zero (some .i64) 0)),
    (0b0_0000_0_00000001_0010_0000011_000_0000_0000001_00_0000010_00_0000100_00_00011_00000000000000000000000000000000#96,
      .madd (A (.g 3) (.g 1) (.g 2) (.g 4) (some .i64) 0)),
    (0b0_0000_0_00000010_0000_0000011_000_0000_0000001_00_0000010_00_0000000_00_00011_00000000000000000000000000000000#96,
      .mul (A (.g 3) (.g 1) (.g 2) .zero (some .i64) 0)),
    (0b0_0000_0_00000010_0001_0000011_000_0000_0000001_00_0000010_00_0000000_00_00011_00000000000000000000000000000000#96,
      .mulh (A (.g 3) (.g 1) (.g 2) .zero (some .i64) 0)),
    (0b0_0000_0_00000010_0010_0000011_000_0000_0000001_00_0000010_00_0000000_00_00100_00000000000000000000000000000000#96,
      .mulhn (A (.g 3) (.g 1) (.g 2) .zero (some .n8) 0)),
    (0b0_0000_0_00000011_0000_0000011_000_0000_0000001_00_0000010_00_0000000_00_00011_00000000000000000000000000000000#96,
      .div (A (.g 3) (.g 1) (.g 2) .zero (some .i64) 0)),
    (0b0_0000_0_00000011_0001_0000011_000_0000_0000001_00_0000010_00_0000000_00_00100_00000000000000000000000000000000#96,
      .divn (A (.g 3) (.g 1) (.g 2) .zero (some .n8) 0)),
    (0b0_0000_0_00000011_0010_0000011_000_0000_0000001_00_0000010_00_0000000_00_00011_00000000000000000000000000000000#96,
      .rem (A (.g 3) (.g 1) (.g 2) .zero (some .i64) 0)),
    (0b0_0000_0_00000011_0011_0000011_000_0000_0000001_00_0000010_00_0000000_00_00100_00000000000000000000000000000000#96,
      .remn (A (.g 3) (.g 1) (.g 2) .zero (some .n8) 0)),
    (0b0_0000_0_00000100_0000_0000011_000_0000_0000001_00_0000010_00_0000000_00_00011_00000000000000000000000000000000#96,
      .and (A (.g 3) (.g 1) (.g 2) .zero (some .i64) 0)),
    (0b0_0000_0_00000100_0001_0000011_000_0000_0000001_00_0000010_00_0000000_00_00011_00000000000000000000000000000000#96,
      .or (A (.g 3) (.g 1) (.g 2) .zero (some .i64) 0)),
    (0b0_0000_0_00000100_0010_0000011_000_0000_0000001_00_0000010_00_0000000_00_00011_00000000000000000000000000000000#96,
      .xor (A (.g 3) (.g 1) (.g 2) .zero (some .i64) 0)),
    (0b0_0000_0_00000100_0011_0000011_000_0000_0000001_00_0000010_00_0000000_00_00011_00000000000000000000000000000000#96,
      .andn (A (.g 3) (.g 1) (.g 2) .zero (some .i64) 0)),
    (0b0_0000_0_00000101_0000_0000011_000_0000_0000001_00_0000010_00_0000000_00_00011_00000000000000000000000000000000#96,
      .shl (A (.g 3) (.g 1) (.g 2) .zero (some .i64) 0)),
    (0b0_0000_0_00000101_0001_0000011_000_0000_0000001_00_0000010_00_0000000_00_00011_00000000000000000000000000000000#96,
      .shr (A (.g 3) (.g 1) (.g 2) .zero (some .i64) 0)),
    (0b0_0000_0_00000101_0010_0000011_000_0000_0000001_00_0000010_00_0000000_00_00011_00000000000000000000000000000000#96,
      .sra (A (.g 3) (.g 1) (.g 2) .zero (some .i64) 0)),
    (0b0_0000_0_00000101_0011_0000011_000_0000_0000001_00_0000010_00_0000000_00_00011_00000000000000000000000000000000#96,
      .rol (A (.g 3) (.g 1) (.g 2) .zero (some .i64) 0)),
    (0b0_0000_0_00000101_0100_0000011_000_0000_0000001_00_0000010_00_0000000_00_00011_00000000000000000000000000000000#96,
      .ror (A (.g 3) (.g 1) (.g 2) .zero (some .i64) 0)),
    (0b0_0000_0_00000110_0000_0000011_000_0000_0000001_00_0000010_00_0000000_00_00011_00000000000000000000000000000000#96,
      .min (A (.g 3) (.g 1) (.g 2) .zero (some .i64) 0)),
    (0b0_0000_0_00000110_0001_0000011_000_0000_0000001_00_0000010_00_0000000_00_00011_00000000000000000000000000000000#96,
      .max (A (.g 3) (.g 1) (.g 2) .zero (some .i64) 0)),
    (0b0_0000_0_00000110_0010_0000011_000_0000_0000001_00_0000010_00_0000000_00_00100_00000000000000000000000000000000#96,
      .minn (A (.g 3) (.g 1) (.g 2) .zero (some .n8) 0)),
    (0b0_0000_0_00000110_0011_0000011_000_0000_0000001_00_0000010_00_0000000_00_00100_00000000000000000000000000000000#96,
      .maxn (A (.g 3) (.g 1) (.g 2) .zero (some .n8) 0)),
    (0b0_0000_0_00000111_0000_0000011_000_0000_0000001_00_0000000_00_0000000_00_00011_00000000000000000000000000000000#96,
      .clz (A (.g 3) (.g 1) .zero .zero (some .i64) 0))].all fun e => reads e.1 e.2) = true := by
  decide

theorem test_decode_integer_2 : ([
    (0b0_0000_0_00000111_0001_0000011_000_0000_0000001_00_0000000_00_0000000_00_00011_00000000000000000000000000000000#96,
      .ctz (A (.g 3) (.g 1) .zero .zero (some .i64) 0)),
    (0b0_0000_0_00000111_0010_0000011_000_0000_0000001_00_0000000_00_0000000_00_00011_00000000000000000000000000000000#96,
      .popc (A (.g 3) (.g 1) .zero .zero (some .i64) 0)),
    (0b0_0000_0_00001000_0000_0000011_000_0000_0000001_00_0000010_00_0000000_00_00100_00000000000000000000000000000000#96,
      .bext (A (.g 3) (.g 1) (.g 2) .zero (some .n8) 0)),
    (0b0_0000_0_00001000_0001_0000011_000_0000_0000001_00_0000010_00_0000000_00_00100_00000000000000000000000000000000#96,
      .bdep (A (.g 3) (.g 1) (.g 2) .zero (some .n8) 0)),
    (0b0_0000_0_00001001_0000_0000011_000_0000_0000001_00_0000010_00_1100100_00_00000_00000000000000000000000000000000#96,
      .sel (A (.g 3) (.g 1) (.g 2) (.p 4) none 0)),
    (0b0_0000_0_00001001_0001_0000011_000_0000_0000001_00_0000000_00_0000000_00_00000_00000000000000000000000000000000#96,
      .mov (A (.g 3) (.g 1) .zero .zero none 0)),
    (0b0_0000_0_00001010_0000_0000011_000_0000_0000000_00_0000000_00_0000000_00_00000_00000000000000000000000000000000#96,
      .movi (A (.g 3) .zero .zero .zero none 0)),
    (0b0_0000_0_00001010_0001_0000011_000_0000_0000001_00_0000000_00_0000000_00_00000_00000000000000000000000000000000#96,
      .movh (A (.g 3) (.g 1) .zero .zero none 0)),
    (0b0_0000_0_00001011_0000_0000011_000_0000_0000001_00_0000010_00_000_000_000_00000_00000000000000000000000000000000#96,
      .lea (M (.g 3) 0 (.g 1) (.g 2) .core none 0))].all fun e => reads e.1 e.2) = true := by
  decide

theorem test_decode_control : ([
    (0b0_0000_0_00100000_0000_0000000_0000000_0000000_0000000000000000000000000_00000000000000000000000000000000#96,
      .nop (S .zero .zero 0)),
    (0b0_0000_0_00100000_0001_0000000_0000000_0000000_0000000000000000000000000_00000000000000000000000000000000#96,
      .brk (S .zero .zero 0)),
    (0b0_0000_0_00100001_0000_00000000000000_0000000_0000000000000000000000000_00000000000000000000000000001_000#96,
      .br (B .zero 1 0)),
    (0b0_0000_0_00100001_0001_00000000000000_0000000_0000000000000000000000000_00000000000000000000000000001_000#96,
      .jmp (B .zero 1 0)),
    (0b0_0000_0_00100010_0000_00000000000000_0000000_0000000000000000000000000_00000000000000000000000000001_000#96,
      .call (B .zero 1 0)),
    (0b0_0000_0_00100010_0001_00000000000000_0000000_0000000000000000000000000_00000000000000000000000000000_000#96,
      .ret (B .zero 0 0)),
    (0b0_0000_0_00100011_0000_00000000000000_0000001_0000000000000000000000000_00000000000000000000000000000_000#96,
      .jr (B (.g 1) 0 0)),
    (0b0_0000_0_00100100_0000_00000000000000_0000001_0000000000000000000000000_00000000000000000000000000001_000#96,
      .loop (B (.g 1) 1 0)),
    (0b0_0000_0_00100101_0000_0000000_0000000_0000000_0000000000000000000000000_00000000000000000000000000000000#96,
      .done (S .zero .zero 0)),
    (0b0_0000_0_00100101_0001_0000000_0000000_0000000_0000000000000000000000000_00000000000000000000000000000000#96,
      .doneExit (S .zero .zero 0))].all fun e => reads e.1 e.2) = true := by
  decide

theorem test_decode_predicates : ([
    (0b0_0000_0_00110000_0000_1100011_000_0100_0000001_00_0000010_00_000000000_00011_00000000000000000000000000000000#96,
      .cmp (P (.p 3) 4 (.g 1) (.g 2) (some .i64))),
    (0b0_0000_0_00110001_0000_1100011_000_0100_0000001_00_0000010_00_000000000_01010_00000000000000000000000000000000#96,
      .fcmp (P (.p 3) 4 (.g 1) (.g 2) (some .f32))),
    (0b0_0000_0_00110010_0000_1100011_000_0100_1100001_00_1100010_00_000000000_00000_00000000000000000000000000000000#96,
      .pand (P (.p 3) 4 (.p 1) (.p 2) none)),
    (0b0_0000_0_00110010_0001_1100011_000_0100_1100001_00_1100010_00_000000000_00000_00000000000000000000000000000000#96,
      .por (P (.p 3) 4 (.p 1) (.p 2) none)),
    (0b0_0000_0_00110010_0010_1100011_000_0100_1100001_00_1100010_00_000000000_00000_00000000000000000000000000000000#96,
      .pxor (P (.p 3) 4 (.p 1) (.p 2) none)),
    (0b0_0000_0_00110010_0011_1100011_000_0100_1100001_00_0000000_00_000000000_00000_00000000000000000000000000000000#96,
      .pnot (P (.p 3) 4 (.p 1) .zero none)),
    (0b0_0000_0_00110010_0100_1100011_000_0100_1100001_00_0000000_00_000000000_00000_00000000000000000000000000000000#96,
      .pmov (P (.p 3) 4 (.p 1) .zero none)),
    (0b0_0000_0_00110010_0101_1100011_000_0100_0000001_00_0000010_00_000000000_00000_00000000000000000000000000000000#96,
      .ptst (P (.p 3) 4 (.g 1) (.g 2) none)),
    (0b0_0000_0_00110011_0000_1110011_000_0000_1000001_00_0000010_00_1110100_00_00010_00000000000000000000000000000000#96,
      .vcmp (A (.m 3) (.v 1) (.g 2) (.m 4) (some .i32) 0)),
    (0b0_0000_0_00110100_0000_1110011_000_0000_1000001_00_0000010_00_1110100_00_01010_00000000000000000000000000000000#96,
      .vfcmp (A (.m 3) (.v 1) (.g 2) (.m 4) (some .f32) 0))].all fun e => reads e.1 e.2) = true := by
  decide

theorem test_decode_float : ([
    (0b0_0000_0_01000000_0000_0000011_000_0000_0000001_00_0000010_00_0000000_00_01010_00000000000000000000000000000000#96,
      .fadd (A (.g 3) (.g 1) (.g 2) .zero (some .f32) 0)),
    (0b0_0000_0_01000001_0000_0000011_000_0000_0000001_00_0000010_00_0000000_00_01010_00000000000000000000000000000000#96,
      .fsub (A (.g 3) (.g 1) (.g 2) .zero (some .f32) 0)),
    (0b0_0000_0_01000010_0000_0000011_000_0000_0000001_00_0000010_00_0000000_00_01010_00000000000000000000000000000000#96,
      .fmul (A (.g 3) (.g 1) (.g 2) .zero (some .f32) 0)),
    (0b0_0000_0_01000011_0000_0000011_000_0000_0000001_00_0000010_00_0000100_00_01010_00000000000000000000000000000000#96,
      .ffma (A (.g 3) (.g 1) (.g 2) (.g 4) (some .f32) 0)),
    (0b0_0000_0_01000100_0000_0000011_000_0000_0000001_00_0000010_00_0000000_00_01010_00000000000000000000000000000000#96,
      .fdiv (A (.g 3) (.g 1) (.g 2) .zero (some .f32) 0)),
    (0b0_0000_0_01000101_0000_0000011_000_0000_0000001_00_0000000_00_0000000_00_01010_00000000000000000000000000000000#96,
      .fsqrt (A (.g 3) (.g 1) .zero .zero (some .f32) 0)),
    (0b0_0000_0_01000110_0000_0000011_000_0000_0000001_00_0000000_00_0000000_00_01010_00000000000000000000000000000000#96,
      .frcp (A (.g 3) (.g 1) .zero .zero (some .f32) 0)),
    (0b0_0000_0_01000111_0000_0000011_000_0000_0000001_00_0000000_00_0000000_00_01010_00000000000000000000000000000000#96,
      .frsq (A (.g 3) (.g 1) .zero .zero (some .f32) 0)),
    (0b0_0000_0_01001000_0000_0000011_000_0000_0000001_00_0000000_00_0000000_00_01010_00000000000000000000000000000000#96,
      .fexp2 (A (.g 3) (.g 1) .zero .zero (some .f32) 0)),
    (0b0_0000_0_01001001_0000_0000011_000_0000_0000001_00_0000000_00_0000000_00_01010_00000000000000000000000000000000#96,
      .flog2 (A (.g 3) (.g 1) .zero .zero (some .f32) 0)),
    (0b0_0000_0_01001010_0000_0000011_000_0000_0000001_00_0000010_00_0000000_00_01010_00000000000000000000000000000000#96,
      .fmin (A (.g 3) (.g 1) (.g 2) .zero (some .f32) 0)),
    (0b0_0000_0_01001010_0001_0000011_000_0000_0000001_00_0000010_00_0000000_00_01010_00000000000000000000000000000000#96,
      .fmax (A (.g 3) (.g 1) (.g 2) .zero (some .f32) 0)),
    (0b0_0000_0_01001010_0010_0000011_000_0000_0000001_00_0000000_00_0000000_00_01010_00000000000000000000000000000000#96,
      .fclass (A (.g 3) (.g 1) .zero .zero (some .f32) 0))].all fun e => reads e.1 e.2) = true := by
  decide

theorem test_decode_vector_arithmetic : ([
    (0b0_0000_0_01010000_0000_1000011_000_0000_1000001_00_0000010_00_1110100_00_01010_00000000000000000000000000000000#96,
      .vfadd (A (.v 3) (.v 1) (.g 2) (.m 4) (some .f32) 0)),
    (0b0_0000_0_01010001_0000_1000011_000_0000_1000001_00_0000010_00_1110100_00_01010_00000000000000000000000000000000#96,
      .vfsub (A (.v 3) (.v 1) (.g 2) (.m 4) (some .f32) 0)),
    (0b0_0000_0_01010010_0000_1000011_000_0000_1000001_00_0000010_00_1110100_00_01010_00000000000000000000000000000000#96,
      .vfmul (A (.v 3) (.v 1) (.g 2) (.m 4) (some .f32) 0)),
    (0b0_0000_0_01010011_0000_1000011_000_0000_1000001_00_0000010_00_0000100_00_01010_00000000000000000000000000000000#96,
      .vffma (A (.v 3) (.v 1) (.g 2) (.g 4) (some .f32) 0)),
    (0b0_0000_0_01010100_0000_1000011_000_0000_1000001_00_0000010_00_1110100_00_01010_00000000000000000000000000000000#96,
      .vfdiv (A (.v 3) (.v 1) (.g 2) (.m 4) (some .f32) 0)),
    (0b0_0000_0_01010101_0000_1000011_000_0000_1000001_00_0000000_00_1110100_00_01010_00000000000000000000000000000000#96,
      .vfsqrt (A (.v 3) (.v 1) .zero (.m 4) (some .f32) 0)),
    (0b0_0000_0_01010110_0000_1000011_000_0000_1000001_00_0000000_00_1110100_00_01010_00000000000000000000000000000000#96,
      .vfrcp (A (.v 3) (.v 1) .zero (.m 4) (some .f32) 0)),
    (0b0_0000_0_01010111_0000_1000011_000_0000_1000001_00_0000010_00_1110100_00_01010_00000000000000000000000000000000#96,
      .vfmin (A (.v 3) (.v 1) (.g 2) (.m 4) (some .f32) 0)),
    (0b0_0000_0_01010111_0001_1000011_000_0000_1000001_00_0000010_00_1110100_00_01010_00000000000000000000000000000000#96,
      .vfmax (A (.v 3) (.v 1) (.g 2) (.m 4) (some .f32) 0)),
    (0b0_0000_0_01011000_0000_1000011_000_0000_1000001_00_0000010_00_1110100_00_00010_00000000000000000000000000000000#96,
      .vadd (A (.v 3) (.v 1) (.g 2) (.m 4) (some .i32) 0)),
    (0b0_0000_0_01011000_0001_1000011_000_0000_1000001_00_0000010_00_1110100_00_00010_00000000000000000000000000000000#96,
      .vsub (A (.v 3) (.v 1) (.g 2) (.m 4) (some .i32) 0)),
    (0b0_0000_0_01011000_0010_1000011_000_0000_1000001_00_0000010_00_1110100_00_00010_00000000000000000000000000000000#96,
      .vmul (A (.v 3) (.v 1) (.g 2) (.m 4) (some .i32) 0)),
    (0b0_0000_0_01011000_0011_1000011_000_0000_1000001_00_0000010_00_1110100_00_00010_00000000000000000000000000000000#96,
      .vmulh (A (.v 3) (.v 1) (.g 2) (.m 4) (some .i32) 0)),
    (0b0_0000_0_01011000_0100_1000011_000_0000_1000001_00_0000010_00_0000100_00_00010_00000000000000000000000000000000#96,
      .vmadd (A (.v 3) (.v 1) (.g 2) (.g 4) (some .i32) 0)),
    (0b0_0000_0_01011001_0000_1000011_000_0000_1000001_00_0000010_00_1110100_00_00010_00000000000000000000000000000000#96,
      .vand (A (.v 3) (.v 1) (.g 2) (.m 4) (some .i32) 0)),
    (0b0_0000_0_01011001_0001_1000011_000_0000_1000001_00_0000010_00_1110100_00_00010_00000000000000000000000000000000#96,
      .vor (A (.v 3) (.v 1) (.g 2) (.m 4) (some .i32) 0)),
    (0b0_0000_0_01011001_0010_1000011_000_0000_1000001_00_0000010_00_1110100_00_00010_00000000000000000000000000000000#96,
      .vxor (A (.v 3) (.v 1) (.g 2) (.m 4) (some .i32) 0)),
    (0b0_0000_0_01011001_0011_1000011_000_0000_1000001_00_0000010_00_1110100_00_00010_00000000000000000000000000000000#96,
      .vshl (A (.v 3) (.v 1) (.g 2) (.m 4) (some .i32) 0)),
    (0b0_0000_0_01011001_0100_1000011_000_0000_1000001_00_0000010_00_1110100_00_00010_00000000000000000000000000000000#96,
      .vshr (A (.v 3) (.v 1) (.g 2) (.m 4) (some .i32) 0)),
    (0b0_0000_0_01011001_0101_1000011_000_0000_1000001_00_0000010_00_1110100_00_00010_00000000000000000000000000000000#96,
      .vsra (A (.v 3) (.v 1) (.g 2) (.m 4) (some .i32) 0)),
    (0b0_0000_0_01011010_0000_1000011_000_0000_1000001_00_0000010_00_1110100_00_00010_00000000000000000000000000000000#96,
      .vmin (A (.v 3) (.v 1) (.g 2) (.m 4) (some .i32) 0)),
    (0b0_0000_0_01011010_0001_1000011_000_0000_1000001_00_0000010_00_1110100_00_00010_00000000000000000000000000000000#96,
      .vmax (A (.v 3) (.v 1) (.g 2) (.m 4) (some .i32) 0))].all fun e => reads e.1 e.2) = true := by
  decide

theorem test_decode_vector_movement : ([
    (0b0_0000_0_01100000_0000_1000011_000_0000_1000001_00_0000010_00_1110100_00_00010_00000000000000000000000000000000#96,
      .vsel (A (.v 3) (.v 1) (.g 2) (.m 4) (some .i32) 0)),
    (0b0_0000_0_01100000_0001_1000011_000_0000_1000001_00_0000010_00_1110100_00_00010_00000000000000000000000000000000#96,
      .vperm (A (.v 3) (.v 1) (.g 2) (.m 4) (some .i32) 0)),
    (0b0_0000_0_01100000_0010_1000011_000_0000_0000001_00_0000000_00_1110100_00_00010_00000000000000000000000000000000#96,
      .vbcast (A (.v 3) (.g 1) .zero (.m 4) (some .i32) 0)),
    (0b0_0000_0_01100000_0011_0000011_000_0000_1000001_00_0000000_00_0000000_00_00010_00000000000000000000000000000000#96,
      .vext (A (.g 3) (.v 1) .zero .zero (some .i32) 0)),
    (0b0_0000_0_01100000_0100_1000011_000_0000_0000001_00_0000000_00_0000000_00_00010_00000000000000000000000000000000#96,
      .vins (A (.v 3) (.g 1) .zero .zero (some .i32) 0)),
    (0b0_0000_0_01100001_0000_0000011_000_0000_1000001_00_0000000_00_1110100_00_00010_00000000000000000000000000000000#96,
      .vredAdd (A (.g 3) (.v 1) .zero (.m 4) (some .i32) 0)),
    (0b0_0000_0_01100001_0001_0000011_000_0000_1000001_00_0000000_00_1110100_00_00010_00000000000000000000000000000000#96,
      .vredMin (A (.g 3) (.v 1) .zero (.m 4) (some .i32) 0)),
    (0b0_0000_0_01100001_0010_0000011_000_0000_1000001_00_0000000_00_1110100_00_00010_00000000000000000000000000000000#96,
      .vredMax (A (.g 3) (.v 1) .zero (.m 4) (some .i32) 0)),
    (0b0_0000_0_01100001_0011_1000011_000_0000_1000001_00_0000000_00_1110100_00_00010_00000000000000000000000000000000#96,
      .vscan (A (.v 3) (.v 1) .zero (.m 4) (some .i32) 0)),
    (0b0_0000_0_01100010_0000_1000011_000_0000_1000001_00_0000010_00_1110100_00_00001_00000000000000000000000000000000#96,
      .vzpack (A (.v 3) (.v 1) (.g 2) (.m 4) (some .i16) 0)),
    (0b0_0000_0_01100010_0001_1000011_000_0000_1000001_00_0000010_00_0000000_00_00001_00000000000000000000000000000000#96,
      .vexpand (A (.v 3) (.v 1) (.g 2) .zero (some .i16) 0)),
    (0b0_0000_0_01100011_0000_1110011_000_0000_1110001_00_1110010_00_0000000_00_00000_00000000000000000000000000000000#96,
      .mand (A (.m 3) (.m 1) (.m 2) .zero none 0)),
    (0b0_0000_0_01100011_0001_1110011_000_0000_1110001_00_1110010_00_0000000_00_00000_00000000000000000000000000000000#96,
      .mor (A (.m 3) (.m 1) (.m 2) .zero none 0)),
    (0b0_0000_0_01100011_0010_1110011_000_0000_1110001_00_0000000_00_0000000_00_00000_00000000000000000000000000000000#96,
      .mnot (A (.m 3) (.m 1) .zero .zero none 0)),
    (0b0_0000_0_01100011_0011_0000011_000_0000_1110001_00_0000000_00_0000000_00_00010_00000000000000000000000000000000#96,
      .mpopc (A (.g 3) (.m 1) .zero .zero (some .i32) 0)),
    (0b0_0000_0_01100011_0100_0000011_000_0000_1110001_00_0000000_00_0000000_00_00010_00000000000000000000000000000000#96,
      .mffs (A (.g 3) (.m 1) .zero .zero (some .i32) 0))].all fun e => reads e.1 e.2) = true := by
  decide

theorem test_decode_conversions : ([
    (0b0_0000_0_01110000_0000_0000011_000_0000_0000001_00_0000000_00_0000000_00_01010_00000000000000000000000000000000#96,
      .fcvt (A (.g 3) (.g 1) .zero .zero (some .f32) 0)),
    (0b0_0000_0_01110001_0000_1000011_000_0000_1000001_00_0000000_00_1110100_00_01010_00000000000000000000000000000000#96,
      .vcvt (A (.v 3) (.v 1) .zero (.m 4) (some .f32) 0)),
    (0b0_0000_0_01110010_0000_1000011_000_0000_1000001_00_0000000_00_1110100_00_01100_00000000000000000000000000001010#96,
      .vpack (A (.v 3) (.v 1) .zero (.m 4) (some (.nf 0)) 10)),
    (0b0_0000_0_01110011_0000_1000011_000_0000_1000001_00_0000000_00_1110100_00_01010_00000000000000000000000000001100#96,
      .vunpack (A (.v 3) (.v 1) .zero (.m 4) (some .f32) 12)),
    (0b0_0000_0_01110100_0000_1000011_000_0000_0000001_00_0000000_00_1110100_00_10100_00000000000000000000000000000000#96,
      .vtsum (A (.v 3) (.g 1) .zero (.m 4) (some .pair32) 0))].all fun e => reads e.1 e.2) = true := by
  decide

theorem test_decode_loads_and_stores : ([
    (0b0_0000_0_10000000_0000_0000011_000_0000_0000001_00_0000010_00_000_000_000_00011_00000000000000000000000000000000#96,
      .ld (M (.g 3) 0 (.g 1) (.g 2) .core (some .i64) 0)),
    (0b0_0000_0_10000000_0001_1000011_000_0000_0000001_00_0000010_00_000_000_000_00010_00000000000000000000000000000000#96,
      .ldv (M (.v 3) 0 (.g 1) (.g 2) .core (some .i32) 0)),
    (0b0_0000_0_10000000_0010_1000011_000_0000_0000001_00_1000010_00_000_000_000_00010_00000000000000000000000000000000#96,
      .ldg (M (.v 3) 0 (.g 1) (.v 2) .core (some .i32) 0)),
    (0b0_0000_0_10000000_0011_0000000_000_0000_0000001_00_0000010_00_000_000_000_00000_00000000000000000000000000000000#96,
      .pf (M .zero 0 (.g 1) (.g 2) .core none 0)),
    (0b0_0000_0_10000001_0000_0000011_000_0000_0000001_00_0000010_00_000_000_000_00011_00000000000000000000000000000000#96,
      .st (M (.g 3) 0 (.g 1) (.g 2) .core (some .i64) 0)),
    (0b0_0000_0_10000001_0001_1000011_000_0000_0000001_00_0000010_00_000_000_000_00010_00000000000000000000000000000000#96,
      .stv (M (.v 3) 0 (.g 1) (.g 2) .core (some .i32) 0)),
    (0b0_0000_0_10000001_0010_1000011_000_0000_0000001_00_1000010_00_000_000_000_00010_00000000000000000000000000000000#96,
      .stg (M (.v 3) 0 (.g 1) (.v 2) .core (some .i32) 0))].all fun e => reads e.1 e.2) = true := by
  decide

theorem test_decode_full_empty_and_copies : ([
    (0b0_0000_0_10001000_0000_0000011_000_0000_0000001_00_0000010_00_000_000_000_00011_00000000000000000000000000000000#96,
      .ldf (M (.g 3) 0 (.g 1) (.g 2) .core (some .i64) 0)),
    (0b0_0000_0_10001000_0001_0000011_000_0000_0000001_00_0000010_00_000_000_000_00011_00000000000000000000000000000000#96,
      .ldft (M (.g 3) 0 (.g 1) (.g 2) .core (some .i64) 0)),
    (0b0_0000_0_10001000_0010_0000011_000_0000_0000001_00_0000010_00_000_000_000_00011_00000000000000000000000000000000#96,
      .stf (M (.g 3) 0 (.g 1) (.g 2) .core (some .i64) 0)),
    (0b0_0000_0_10001000_0011_0000000_000_0000_0000001_00_0000010_00_000_000_000_00000_00000000000000000000000000000000#96,
      .clrf (M .zero 0 (.g 1) (.g 2) .core none 0)),
    (0b0_0000_0_10001100_0000_0000000_000_0000_0000001_00_0000010_00_0000100_00_00000_0000_0000000000000000000000000000#96,
      .copy (E .zero .core 0 (.g 1) (.g 2) (.g 4) none 0 0)),
    (0b0_0000_0_10001100_0001_0000000_000_0000_0000001_00_0000010_00_0000100_00_00000_0000_0000000000000000000000000000#96,
      .copyx (E .zero .core 0 (.g 1) (.g 2) (.g 4) none 0 0)),
    (0b0_0000_0_10001101_0000_0000011_000_0000_0000000_00_0000010_00_0000000_00_00000_00000000000000000000000000000000#96,
      .wany (A (.g 3) .zero (.g 2) .zero none 0)),
    (0b0_0000_0_10001101_0001_0000011_000_0000_0000000_00_0000010_00_0000000_00_00000_00000000000000000000000000000000#96,
      .wall (A (.g 3) .zero (.g 2) .zero none 0)),
    (0b0_0000_0_10001101_0010_0000011_000_0000_0000000_00_0000010_00_0000000_00_00000_00000000000000000000000000000000#96,
      .ffr (A (.g 3) .zero (.g 2) .zero none 0)),
    (0b0_0000_0_10001101_0011_0000000_000_0000_0000000_00_0000010_00_0000000_00_00000_00000000000000000000000000000000#96,
      .tagclr (A .zero .zero (.g 2) .zero none 0))].all fun e => reads e.1 e.2) = true := by
  decide

theorem test_decode_maintenance_and_guards : ([
    (0b0_0000_0_10010000_0000_0000000_000_0000_0000001_00_0000010_00_0000000_00_00000_0000_0000000000000000000000000000#96,
      .cleanR (E .zero .core 0 (.g 1) (.g 2) .zero none 0 0)),
    (0b0_0000_0_10010000_0001_0000000_000_0000_0000001_00_0000010_00_0000000_00_00000_0000_0000000000000000000000000000#96,
      .invR (E .zero .core 0 (.g 1) (.g 2) .zero none 0 0)),
    (0b0_0000_0_10010000_0010_0000000_000_0000_0000001_00_0000010_00_0000000_00_00000_0000_0000000000000000000000000000#96,
      .flushR (E .zero .core 0 (.g 1) (.g 2) .zero none 0 0)),
    (0b0_0000_0_10010100_0000_0000000_000_0000_0000000_00_0000000_00_000_000_000_00000_00000000000000000000000000000000#96,
      .fenceR (M .zero 0 .zero .zero .core none 0)),
    (0b0_0000_0_10010100_0001_0000000_000_0000_0000000_00_0000000_00_000_000_000_00000_00000000000000000000000000000000#96,
      .fenceW (M .zero 0 .zero .zero .core none 0)),
    (0b0_0000_0_10010100_0010_0000000_000_0000_0000000_00_0000000_00_000_000_000_00000_00000000000000000000000000000000#96,
      .fenceRw (M .zero 0 .zero .zero .core none 0)),
    (0b0_0000_0_10010100_0011_0000000_000_0000_0000000_00_0000000_00_000_000_000_00000_00000000000000000000000000000000#96,
      .fenceB (M .zero 0 .zero .zero .core none 0)),
    (0b0_0000_0_10010101_0000_0000011_000_0000_0000001_00_0000010_00_000_000_000_00000_00000000000000000000000000000000#96,
      .acq (M (.g 3) 0 (.g 1) (.g 2) .core none 0)),
    (0b0_0000_0_10010101_0001_0000011_000_0000_0000001_00_0000010_00_000_000_000_00000_00000000000000000000000000000000#96,
      .acqs (M (.g 3) 0 (.g 1) (.g 2) .core none 0)),
    (0b0_0000_0_10010101_0010_0000000_000_0000_0000001_00_0000010_00_000_000_000_00000_00000000000000000000000000000000#96,
      .rls (M .zero 0 (.g 1) (.g 2) .core none 0)),
    (0b0_0000_0_10010110_0000_0000000_000_0000_0000001_00_0000010_00_0000100_00_00000_0000_0000000000000000000000000000#96,
      .sealR (E .zero .core 0 (.g 1) (.g 2) (.g 4) none 0 0))].all fun e => reads e.1 e.2) = true := by
  decide

theorem test_decode_offers_1 : ([
    (0b0_0000_0_10100000_0000_0000011_000_0001_0000001_00_0000010_00_0000000_00_00011_0010_0000000000000000000000000000#96,
      .oadd (E (.g 3) .core 1 (.g 1) (.g 2) .zero (some .i64) 2 0)),
    (0b0_0000_0_10100000_0001_0000011_000_0001_0000001_00_0000010_00_0000000_00_00011_0010_0000000000000000000000000000#96,
      .omin (E (.g 3) .core 1 (.g 1) (.g 2) .zero (some .i64) 2 0)),
    (0b0_0000_0_10100000_0010_0000011_000_0001_0000001_00_0000010_00_0000000_00_00011_0010_0000000000000000000000000000#96,
      .omax (E (.g 3) .core 1 (.g 1) (.g 2) .zero (some .i64) 2 0)),
    (0b0_0000_0_10100000_0011_0000011_000_0001_0000001_00_0000010_00_0000000_00_00110_0010_0000000000000000000000000000#96,
      .oand (E (.g 3) .core 1 (.g 1) (.g 2) .zero (some .n32) 2 0)),
    (0b0_0000_0_10100000_0100_0000011_000_0001_0000001_00_0000010_00_0000000_00_00110_0010_0000000000000000000000000000#96,
      .oor (E (.g 3) .core 1 (.g 1) (.g 2) .zero (some .n32) 2 0)),
    (0b0_0000_0_10100000_0101_0000011_000_0001_0000001_00_0000010_00_0000000_00_00110_0010_0000000000000000000000000000#96,
      .oxor (E (.g 3) .core 1 (.g 1) (.g 2) .zero (some .n32) 2 0)),
    (0b0_0000_0_10100000_0110_0000011_000_0001_0000001_00_0000010_00_0000000_00_00110_0010_0000000000000000000000000000#96,
      .oswp (E (.g 3) .core 1 (.g 1) (.g 2) .zero (some .n32) 2 0)),
    (0b0_0000_0_10100000_0111_0000011_000_0001_0000001_00_0000010_00_0000100_00_00110_0010_0000000000000000000000000000#96,
      .ocas (E (.g 3) .core 1 (.g 1) (.g 2) (.g 4) (some .n32) 2 0)),
    (0b0_0000_0_10100000_1000_0000011_000_0001_0000001_00_0000010_00_0000000_00_00011_0010_0000000000000000000000000000#96,
      .oaddNt (E (.g 3) .core 1 (.g 1) (.g 2) .zero (some .i64) 2 0)),
    (0b0_0000_0_10100000_1001_0000011_000_0001_0000001_00_0000010_00_0000000_00_00011_0010_0000000000000000000000000000#96,
      .ominNt (E (.g 3) .core 1 (.g 1) (.g 2) .zero (some .i64) 2 0)),
    (0b0_0000_0_10100000_1010_0000011_000_0001_0000001_00_0000010_00_0000000_00_00011_0010_0000000000000000000000000000#96,
      .omaxNt (E (.g 3) .core 1 (.g 1) (.g 2) .zero (some .i64) 2 0)),
    (0b0_0000_0_10100000_1011_0000011_000_0001_0000001_00_0000010_00_0000000_00_00110_0010_0000000000000000000000000000#96,
      .oandNt (E (.g 3) .core 1 (.g 1) (.g 2) .zero (some .n32) 2 0)),
    (0b0_0000_0_10100000_1100_0000011_000_0001_0000001_00_0000010_00_0000000_00_00110_0010_0000000000000000000000000000#96,
      .oorNt (E (.g 3) .core 1 (.g 1) (.g 2) .zero (some .n32) 2 0)),
    (0b0_0000_0_10100000_1101_0000011_000_0001_0000001_00_0000010_00_0000000_00_00110_0010_0000000000000000000000000000#96,
      .oxorNt (E (.g 3) .core 1 (.g 1) (.g 2) .zero (some .n32) 2 0)),
    (0b0_0000_0_10100000_1110_0000011_000_0001_0000001_00_0000010_00_0000000_00_00110_0010_0000000000000000000000000000#96,
      .oswpNt (E (.g 3) .core 1 (.g 1) (.g 2) .zero (some .n32) 2 0)),
    (0b0_0000_0_10100000_1111_0000011_000_0001_0000001_00_0000010_00_0000100_00_00110_0010_0000000000000000000000000000#96,
      .ocasNt (E (.g 3) .core 1 (.g 1) (.g 2) (.g 4) (some .n32) 2 0)),
    (0b0_0000_0_10100001_0000_0000011_000_0001_0000001_00_0000010_00_0000000_00_01010_0010_0000000000000000000000000000#96,
      .ofadd (E (.g 3) .core 1 (.g 1) (.g 2) .zero (some .f32) 2 0)),
    (0b0_0000_0_10100001_0001_0000011_000_0001_0000001_00_0000010_00_0000000_00_01010_0010_0000000000000000000000000000#96,
      .ofmin (E (.g 3) .core 1 (.g 1) (.g 2) .zero (some .f32) 2 0)),
    (0b0_0000_0_10100001_0010_0000011_000_0001_0000001_00_0000010_00_0000000_00_01010_0010_0000000000000000000000000000#96,
      .ofmax (E (.g 3) .core 1 (.g 1) (.g 2) .zero (some .f32) 2 0)),
    (0b0_0000_0_10100001_0011_0000011_000_0001_0000001_00_0000010_00_0000100_00_01010_0010_0000000000000000000000000000#96,
      .offma (E (.g 3) .core 1 (.g 1) (.g 2) (.g 4) (some .f32) 2 0)),
    (0b0_0000_0_10100001_0100_1000011_000_0001_0000001_00_1000010_00_0000000_00_01010_0010_0000000000000000000000000000#96,
      .ored (E (.v 3) .core 1 (.g 1) (.v 2) .zero (some .f32) 2 0)),
    (0b0_0000_0_10100001_1000_0000011_000_0001_0000001_00_0000010_00_0000000_00_01010_0010_0000000000000000000000000000#96,
      .ofaddNt (E (.g 3) .core 1 (.g 1) (.g 2) .zero (some .f32) 2 0)),
    (0b0_0000_0_10100001_1001_0000011_000_0001_0000001_00_0000010_00_0000000_00_01010_0010_0000000000000000000000000000#96,
      .ofminNt (E (.g 3) .core 1 (.g 1) (.g 2) .zero (some .f32) 2 0)),
    (0b0_0000_0_10100001_1010_0000011_000_0001_0000001_00_0000010_00_0000000_00_01010_0010_0000000000000000000000000000#96,
      .ofmaxNt (E (.g 3) .core 1 (.g 1) (.g 2) .zero (some .f32) 2 0))].all fun e => reads e.1 e.2) = true := by
  decide

theorem test_decode_offers_2 : ([
    (0b0_0000_0_10100001_1011_0000011_000_0001_0000001_00_0000010_00_0000100_00_01010_0010_0000000000000000000000000000#96,
      .offmaNt (E (.g 3) .core 1 (.g 1) (.g 2) (.g 4) (some .f32) 2 0)),
    (0b0_0000_0_10100001_1100_1000011_000_0001_0000001_00_1000010_00_0000000_00_01010_0010_0000000000000000000000000000#96,
      .oredNt (E (.v 3) .core 1 (.g 1) (.v 2) .zero (some .f32) 2 0)),
    (0b0_0000_0_10100010_0000_0000011_000_0001_0000001_00_0000010_00_0000000_00_00011_0010_0000000000000000000000000000#96,
      .ocmt (E (.g 3) .core 1 (.g 1) (.g 2) .zero (some .i64) 2 0)),
    (0b0_0000_0_10100010_0001_0000000_000_0000_0000001_00_0000010_00_0000000_00_00000_0000_0000000000000000000000000000#96,
      .oabn (E .zero .core 0 (.g 1) (.g 2) .zero none 0 0))].all fun e => reads e.1 e.2) = true := by
  decide

theorem test_decode_barriers_and_messages : ([
    (0b0_0000_0_10110000_0000_0000011_000_0000_0000000_00_0000000_00_0000000_00_00000_0000_0000000000000000000000000000#96,
      .barv (E (.g 3) .core 0 .zero .zero .zero none 0 0)),
    (0b0_0000_0_10110000_0001_0000000_000_0000_0000001_00_0000000_00_0000000_00_00000_0000_0000000000000000000000000000#96,
      .bwait (E .zero .core 0 (.g 1) .zero .zero none 0 0)),
    (0b0_0000_0_10110000_0010_0000000_000_0001_0000001_00_0000000_00_0000000_00_00000_0000_0000000000000000000000000000#96,
      .btest (E .zero .core 1 (.g 1) .zero .zero none 0 0)),
    (0b0_0000_0_10110001_0000_0000011_000_0000_0000000_00_0000000_00_0000000_00_00000_0000_0000000000000000000000000000#96,
      .grpq (E (.g 3) .core 0 .zero .zero .zero none 0 0)),
    (0b0_0000_0_10110010_0000_0000000_000_0000_0000001_00_1000010_00_0000000_00_00000_0000_0000000000000000000000000000#96,
      .send (E .zero .core 0 (.g 1) (.v 2) .zero none 0 0)),
    (0b0_0000_0_10110010_0001_0000011_000_0001_0000001_00_1000010_00_0000000_00_00000_0000_0000000000000000000000000000#96,
      .sendt (E (.g 3) .core 1 (.g 1) (.v 2) .zero none 0 0)),
    (0b0_0000_0_10110010_0010_1000011_000_0000_0000000_00_0000010_00_0000000_00_00000_0000_0000000000000000000000000000#96,
      .recv (E (.v 3) .core 0 .zero (.g 2) .zero none 0 0)),
    (0b0_0000_0_10110010_0011_1000011_000_0001_0000000_00_0000010_00_0000000_00_00000_0000_0000000000000000000000000000#96,
      .recvt (E (.v 3) .core 1 .zero (.g 2) .zero none 0 0)),
    (0b0_0000_0_10110011_0000_0000011_000_0001_0000001_00_0000010_00_0000100_00_00000_0010_0000000000000000000000000000#96,
      .deleg (E (.g 3) .core 1 (.g 1) (.g 2) (.g 4) none 2 0)),
    (0b0_0000_0_10110011_0001_0000011_000_0001_0000001_00_0000010_00_0000100_00_00000_0010_0000000000000000000000000000#96,
      .delegt (E (.g 3) .core 1 (.g 1) (.g 2) (.g 4) none 2 0)),
    (0b0_0000_0_10110011_0010_0000000_000_0000_0000000_00_0000010_00_0000000_00_00000_0000_0000000000000000000000000000#96,
      .dret (E .zero .core 0 .zero (.g 2) .zero none 0 0))].all fun e => reads e.1 e.2) = true := by
  decide

theorem test_decode_sequencer_and_engines : ([
    (0b0_0000_0_11000000_0000_0000000_000_0000_0000001_00_0000000_00_0000000_00_00000_0000_0000000000000000000000000001#96,
      .rpt (E .zero .core 0 (.g 1) .zero .zero none 0 1)),
    (0b0_0000_0_11000001_0000_0000000_000_0000_0000000_00_0000000_00_0000000_00_00000_0000_0000000000000000000000000000#96,
      .gslot (E .zero .core 0 .zero .zero .zero none 0 0)),
    (0b0_0000_0_11000001_0001_0000000_000_0000_0000000_00_1100010_00_0000000_00_00000_0000_0000000000000000000000000000#96,
      .gset (E .zero .core 0 .zero (.p 2) .zero none 0 0)),
    (0b0_0000_0_11000010_0000_0000011_000_0001_0000001_00_0000010_00_0000000_00_00000_0000_0000000000000000000000000000#96,
      .ecmd (E (.g 3) .core 1 (.g 1) (.g 2) .zero none 0 0))].all fun e => reads e.1 e.2) = true := by
  decide

theorem test_decode_matrix : ([
    (0b0_0000_0_11010000_0000_0000011_000_0000_0000000_00_0000000_00_0000000_00_00000_0000_0000000000000000000000000000#96,
      .mcap (E (.g 3) .core 0 .zero .zero .zero none 0 0)),
    (0b0_0000_0_11010000_0001_0000000_000_0000_0000001_00_0000010_00_0000000_00_00000_0000_0000000000000000000000000000#96,
      .mfmt (E .zero .core 0 (.g 1) (.g 2) .zero none 0 0)),
    (0b0_0000_0_11010001_0000_0000000_000_0000_0000001_00_0000010_00_0000100_00_00000_0000_0000000000000000000000000000#96,
      .mldb (E .zero .core 0 (.g 1) (.g 2) (.g 4) none 0 0)),
    (0b0_0000_0_11010001_0001_0000000_000_0000_0000001_00_0000010_00_0000100_00_00000_0000_0000000000000000000000000000#96,
      .mrow (E .zero .core 0 (.g 1) (.g 2) (.g 4) (some .i8) 0 0)),
    (0b0_0000_0_11010001_0010_0000000_000_0000_0000001_00_1000010_00_0000100_00_00000_0000_0000000000000000000000000000#96,
      .mnz (E .zero .core 0 (.g 1) (.v 2) (.g 4) (some .i8) 0 0)),
    (0b0_0000_0_11010010_0000_0000000_000_0000_0000001_00_0000000_00_0000000_00_00000_0000_0000000000000000000000000000#96,
      .mclr (E .zero .core 0 (.g 1) .zero .zero none 0 0)),
    (0b0_0000_0_11010010_0001_1000011_000_0000_0000001_00_0000010_00_0000000_00_01010_0000_0000000000000000000000000000#96,
      .mrd (E (.v 3) .core 0 (.g 1) (.g 2) .zero (some .f32) 0 0)),
    (0b0_0000_0_11010011_0000_0000000_000_0000_0000001_00_0000000_00_0000000_00_00000_0000_0000000000000000000000000000#96,
      .msave (E .zero .core 0 (.g 1) .zero .zero none 0 0)),
    (0b0_0000_0_11010011_0001_0000000_000_0000_0000001_00_0000010_00_0000000_00_00000_0000_0000000000000000000000000000#96,
      .mrest (E .zero .core 0 (.g 1) (.g 2) .zero none 0 0)),
    (0b0_0000_0_11010011_0010_0000011_000_0001_0000001_00_0000010_00_0000000_00_00000_0000_0000000000000000000000000000#96,
      .mwait (E (.g 3) .core 1 (.g 1) (.g 2) .zero none 0 0))].all fun e => reads e.1 e.2) = true := by
  decide

theorem test_decode_edge : ([
    (0b0_0000_0_11100000_0000_0000000_000_0000_0000000_00_0000010_00_0000000_00_00011_0000_0000000000000000000000000000#96,
      .ecomb (E .zero .core 0 .zero (.g 2) .zero (some .i64) 0 0)),
    (0b0_0000_0_11100000_0001_0000000_000_0000_0000001_00_0000010_00_0000000_00_00000_0000_0000000000000000000000000000#96,
      .eact (E .zero .core 0 (.g 1) (.g 2) .zero none 0 0)),
    (0b0_0000_0_11100001_0000_0000000_000_0000_0000000_00_0000010_00_0000100_00_00000_0000_0000000000000000000000000000#96,
      .dqpush (E .zero .core 0 .zero (.g 2) (.g 4) none 0 0)),
    (0b0_0000_0_11100001_0001_0000011_000_0001_0000000_00_0000000_00_0000000_00_00000_0000_0000000000000000000000000000#96,
      .dqpop (E (.g 3) .core 1 .zero .zero .zero none 0 0)),
    (0b0_0000_0_11100001_0010_0000011_000_0001_0000000_00_0000010_00_0000000_00_00000_0000_0000000000000000000000000000#96,
      .dqsplit (E (.g 3) .core 1 .zero (.g 2) .zero none 0 0)),
    (0b0_0000_0_11100001_0011_0000011_000_0001_0000001_00_0000000_00_0000000_00_00000_0000_0000000000000000000000000000#96,
      .dqsteal (E (.g 3) .core 1 (.g 1) .zero .zero none 0 0)),
    (0b0_0000_0_11100010_0000_0000000_000_0000_0000001_00_0000010_00_0000100_00_00000_0000_0000000000000000000000000000#96,
      .amsg (E .zero .core 0 (.g 1) (.g 2) (.g 4) none 0 0)),
    (0b0_0000_0_11100010_0001_0000000_000_0000_0000000_00_0000010_00_0000000_00_00000_0000_0000000000000000000000000000#96,
      .gath (E .zero .core 0 .zero (.g 2) .zero none 0 0)),
    (0b0_0000_0_11100010_0010_0000000_000_0000_0000000_00_0000010_00_0000000_00_00000_0000_0000000000000000000000000000#96,
      .scat (E .zero .core 0 .zero (.g 2) .zero none 0 0)),
    (0b0_0000_0_11100010_0011_0000011_000_0000_0000000_00_0000010_00_0000000_00_00000_0000_0000000000000000000000000000#96,
      .ijob (E (.g 3) .core 0 .zero (.g 2) .zero none 0 0))].all fun e => reads e.1 e.2) = true := by
  decide

theorem test_decode_bank : ([
    (0b0_0000_0_11101000_0000_0000011_000_0001_0000001_00_0000010_00_0000100_00_00000_0010_0000000000000000000000000000#96,
      .bcall (E (.g 3) .core 1 (.g 1) (.g 2) (.g 4) none 2 0)),
    (0b0_0000_0_11101001_0000_0000000_000_0000_0000000_00_0000010_00_0000000_00_00000_0000_0000000000000000000000000000#96,
      .hret (E .zero .core 0 .zero (.g 2) .zero none 0 0)),
    (0b0_0000_0_11101001_0001_1000011_000_0000_0000001_00_0000000_00_0000000_00_00000_0000_0000000000000000000000000000#96,
      .hrow (E (.v 3) .core 0 (.g 1) .zero .zero none 0 0)),
    (0b0_0000_0_11101001_0010_0000000_000_0000_0000001_00_1000010_00_0000000_00_00000_0000_0000000000000000000000000000#96,
      .hwr (E .zero .core 0 (.g 1) (.v 2) .zero none 0 0))].all fun e => reads e.1 e.2) = true := by
  decide

theorem test_decode_system : ([
    (0b0_0000_0_11110000_0000_0000000_0000000_0000000_0000000000000000000000000_00000000000000000000000000000001#96,
      .trap (S .zero .zero 1)),
    (0b0_0000_0_11110000_0001_0000000_0000000_0000000_0000000000000000000000000_00000000000000000000000000000000#96,
      .eret (S .zero .zero 0)),
    (0b0_0000_0_11110001_0000_0000011_0000000_0000000_0000000000000000000000000_00000000000000000000000000000000#96,
      .sysr (S (.g 3) .zero 0)),
    (0b0_0000_0_11110001_0001_0000000_0000000_0000001_0000000000000000000000000_00000000000000000000000000000000#96,
      .sysw (S .zero (.g 1) 0)),
    (0b0_0000_0_11110010_0000_0000000_0000000_0000000_0000000000000000000000000_00000000000000000000000000000000#96,
      .yieldT (S .zero .zero 0)),
    (0b0_0000_0_11110010_0001_0000000_0000000_0000000_0000000000000000000000000_00000000000000000000000000000000#96,
      .drain (S .zero .zero 0)),
    (0b0_0000_0_11110010_0010_1000011_0000000_0000000_0000000000000000000000000_00000000000000000000000000000000#96,
      .sfqpop (S (.v 3) .zero 0)),
    (0b0_0000_0_11110010_0011_0000000_0000000_0000000_0000000000000000000000000_00000000000000000000000000000000#96,
      .kill (S .zero .zero 0)),
    (0b0_0000_0_11110011_0000_0000000_0000000_0000001_0000000000000000000000000_00000000000000000000000000000000#96,
      .tlbinv (S .zero (.g 1) 0)),
    (0b0_0000_0_11110011_0001_0000000_0000000_0000000_0000000000000000000000000_00000000000000000000000000000000#96,
      .tlbsync (S .zero .zero 0)),
    (0b0_0000_0_11110100_0000_0000000_0000000_0000000_0000000000000000000000000_00000000000000000000000000000000#96,
      .vabort (S .zero .zero 0)),
    (0b0_0000_0_11110100_0001_0000011_0000000_0000001_0000000000000000000000000_00000000000000000000000000000000#96,
      .wfe (S (.g 3) (.g 1) 0))].all fun e => reads e.1 e.2) = true := by
  decide


/-! ### States for the tests -/

namespace Tests

/-- What a meaning's next state is. -/
def out (r : Result) : State := match r with
  | .next s => s
  | _ => State.reset

def goes (r : Result) : Bool := match r with
  | .next _ => true
  | _ => false

/-- A plain task in slot 0 of core 0 at code address 0, with the format of spec/07_arithmetic.md R117's example in fmt0. -/
def base : State :=
  { t := { freshTask with regs := ({} : Regs).write (.fmt 0) 0x00B10798 }, cur := 1, dev := { stage := 2 } }

def g (s : State) (n : Fin 64) (x : Nat) : State := s.writeW (.g n) (BitVec.ofNat 64 x)
def put (s : State) (r : Reg) (x : Line) : State := s.writeW r 0 |>.onT fun t => { t with regs := t.regs.write r x }

/-- The checks before an effect pass. -/
def ready (s : State) (r : Row) (f : Flds) : Bool :=
  f.wf r && s.t.mayRun r && !s.t.seen.pending (.p f.hd.gp) && s.t.seen.guard f.hd &&
  (narrowsOf r f).all (fun k => (NFmt.ofBits (s.t.seen.rf k)).valid) &&
  (readsOf r f).all (fun x => !s.t.seen.pending x) && (writesOf r f).all (fun x => !s.t.seen.pending x)

def runs (s : State) (i : Instr) : Bool :=
  match i.info with
  | some (r, f) => ready s r f
  | none => false

theorem ready_spec {s : State} {r : Row} {f : Flds} (h : ready s r f = true) : s.Ready r f := by
  simp only [ready, Bool.and_eq_true, Bool.not_eq_true', List.all_eq_true] at h
  obtain ⟨⟨⟨⟨⟨⟨a, b⟩, c⟩, d⟩, e⟩, f⟩, g⟩ := h
  exact ⟨a, b, c, d, e, f, g⟩

theorem runs_spec {s : State} {i : Instr} (h : runs s i = true) : s.Runs i := by
  unfold runs at h
  unfold State.Runs
  cases e : i.info with
  | none => rw [e] at h; cases h
  | some x => rw [e] at h; exact ready_spec h

end Tests

/-! ### Every instruction that has a word can have its own effect in some state -/

theorem Tests.runs_all {s : State} {l : List Instr} (h : l.all (Tests.runs s) = true) : ∀ i ∈ l, s.Runs i := fun i hi =>
  Tests.runs_spec (List.all_eq_true.mp h i hi)

open Tests

theorem test_runs_plain_1 : ∀ i ∈ [
    .add (A (.g 3) (.g 1) (.g 2) .zero (some .i64) 0),
    .sub (A (.g 3) (.g 1) (.g 2) .zero (some .i64) 0),
    .madd (A (.g 3) (.g 1) (.g 2) (.g 4) (some .i64) 0),
    .mul (A (.g 3) (.g 1) (.g 2) .zero (some .i64) 0),
    .mulh (A (.g 3) (.g 1) (.g 2) .zero (some .i64) 0),
    .mulhn (A (.g 3) (.g 1) (.g 2) .zero (some .n8) 0),
    .div (A (.g 3) (.g 1) (.g 2) .zero (some .i64) 0),
    .divn (A (.g 3) (.g 1) (.g 2) .zero (some .n8) 0),
    .rem (A (.g 3) (.g 1) (.g 2) .zero (some .i64) 0),
    .remn (A (.g 3) (.g 1) (.g 2) .zero (some .n8) 0),
    .and (A (.g 3) (.g 1) (.g 2) .zero (some .i64) 0),
    .or (A (.g 3) (.g 1) (.g 2) .zero (some .i64) 0),
    .xor (A (.g 3) (.g 1) (.g 2) .zero (some .i64) 0),
    .andn (A (.g 3) (.g 1) (.g 2) .zero (some .i64) 0),
    .shl (A (.g 3) (.g 1) (.g 2) .zero (some .i64) 0),
    .shr (A (.g 3) (.g 1) (.g 2) .zero (some .i64) 0),
    .sra (A (.g 3) (.g 1) (.g 2) .zero (some .i64) 0),
    .rol (A (.g 3) (.g 1) (.g 2) .zero (some .i64) 0),
    .ror (A (.g 3) (.g 1) (.g 2) .zero (some .i64) 0),
    .min (A (.g 3) (.g 1) (.g 2) .zero (some .i64) 0),
    .max (A (.g 3) (.g 1) (.g 2) .zero (some .i64) 0),
    .minn (A (.g 3) (.g 1) (.g 2) .zero (some .n8) 0),
    .maxn (A (.g 3) (.g 1) (.g 2) .zero (some .n8) 0),
    .clz (A (.g 3) (.g 1) .zero .zero (some .i64) 0),
    .ctz (A (.g 3) (.g 1) .zero .zero (some .i64) 0),
    .popc (A (.g 3) (.g 1) .zero .zero (some .i64) 0),
    .bext (A (.g 3) (.g 1) (.g 2) .zero (some .n8) 0),
    .bdep (A (.g 3) (.g 1) (.g 2) .zero (some .n8) 0),
    .sel (A (.g 3) (.g 1) (.g 2) (.p 4) none 0),
    .mov (A (.g 3) (.g 1) .zero .zero none 0),
    .movi (A (.g 3) .zero .zero .zero none 0),
    .movh (A (.g 3) (.g 1) .zero .zero none 0),
    .lea (M (.g 3) 0 (.g 1) (.g 2) .core none 0),
    .nop (S .zero .zero 0),
    .brk (S .zero .zero 0),
    .br (B .zero 1 0)], base.Runs i :=
  runs_all (by decide +kernel)

theorem test_runs_plain_2 : ∀ i ∈ [
    .jmp (B .zero 1 0),
    .call (B .zero 1 0),
    .ret (B .zero 0 0),
    .jr (B (.g 1) 0 0),
    .loop (B (.g 1) 1 0),
    .done (S .zero .zero 0),
    .doneExit (S .zero .zero 0),
    .cmp (P (.p 3) 4 (.g 1) (.g 2) (some .i64)),
    .fcmp (P (.p 3) 4 (.g 1) (.g 2) (some .f32)),
    .pand (P (.p 3) 4 (.p 1) (.p 2) none),
    .por (P (.p 3) 4 (.p 1) (.p 2) none),
    .pxor (P (.p 3) 4 (.p 1) (.p 2) none),
    .pnot (P (.p 3) 4 (.p 1) .zero none),
    .pmov (P (.p 3) 4 (.p 1) .zero none),
    .ptst (P (.p 3) 4 (.g 1) (.g 2) none),
    .vcmp (A (.m 3) (.v 1) (.g 2) (.m 4) (some .i32) 0),
    .vfcmp (A (.m 3) (.v 1) (.g 2) (.m 4) (some .f32) 0),
    .fadd (A (.g 3) (.g 1) (.g 2) .zero (some .f32) 0),
    .fsub (A (.g 3) (.g 1) (.g 2) .zero (some .f32) 0),
    .fmul (A (.g 3) (.g 1) (.g 2) .zero (some .f32) 0),
    .ffma (A (.g 3) (.g 1) (.g 2) (.g 4) (some .f32) 0),
    .fdiv (A (.g 3) (.g 1) (.g 2) .zero (some .f32) 0),
    .fsqrt (A (.g 3) (.g 1) .zero .zero (some .f32) 0),
    .frcp (A (.g 3) (.g 1) .zero .zero (some .f32) 0),
    .frsq (A (.g 3) (.g 1) .zero .zero (some .f32) 0),
    .fexp2 (A (.g 3) (.g 1) .zero .zero (some .f32) 0),
    .flog2 (A (.g 3) (.g 1) .zero .zero (some .f32) 0),
    .fmin (A (.g 3) (.g 1) (.g 2) .zero (some .f32) 0),
    .fmax (A (.g 3) (.g 1) (.g 2) .zero (some .f32) 0),
    .fclass (A (.g 3) (.g 1) .zero .zero (some .f32) 0),
    .vfadd (A (.v 3) (.v 1) (.g 2) (.m 4) (some .f32) 0),
    .vfsub (A (.v 3) (.v 1) (.g 2) (.m 4) (some .f32) 0),
    .vfmul (A (.v 3) (.v 1) (.g 2) (.m 4) (some .f32) 0),
    .vffma (A (.v 3) (.v 1) (.g 2) (.g 4) (some .f32) 0),
    .vfdiv (A (.v 3) (.v 1) (.g 2) (.m 4) (some .f32) 0),
    .vfsqrt (A (.v 3) (.v 1) .zero (.m 4) (some .f32) 0)], base.Runs i :=
  runs_all (by decide +kernel)

theorem test_runs_plain_3 : ∀ i ∈ [
    .vfrcp (A (.v 3) (.v 1) .zero (.m 4) (some .f32) 0),
    .vfmin (A (.v 3) (.v 1) (.g 2) (.m 4) (some .f32) 0),
    .vfmax (A (.v 3) (.v 1) (.g 2) (.m 4) (some .f32) 0),
    .vadd (A (.v 3) (.v 1) (.g 2) (.m 4) (some .i32) 0),
    .vsub (A (.v 3) (.v 1) (.g 2) (.m 4) (some .i32) 0),
    .vmul (A (.v 3) (.v 1) (.g 2) (.m 4) (some .i32) 0),
    .vmulh (A (.v 3) (.v 1) (.g 2) (.m 4) (some .i32) 0),
    .vmadd (A (.v 3) (.v 1) (.g 2) (.g 4) (some .i32) 0),
    .vand (A (.v 3) (.v 1) (.g 2) (.m 4) (some .i32) 0),
    .vor (A (.v 3) (.v 1) (.g 2) (.m 4) (some .i32) 0),
    .vxor (A (.v 3) (.v 1) (.g 2) (.m 4) (some .i32) 0),
    .vshl (A (.v 3) (.v 1) (.g 2) (.m 4) (some .i32) 0),
    .vshr (A (.v 3) (.v 1) (.g 2) (.m 4) (some .i32) 0),
    .vsra (A (.v 3) (.v 1) (.g 2) (.m 4) (some .i32) 0),
    .vmin (A (.v 3) (.v 1) (.g 2) (.m 4) (some .i32) 0),
    .vmax (A (.v 3) (.v 1) (.g 2) (.m 4) (some .i32) 0),
    .vsel (A (.v 3) (.v 1) (.g 2) (.m 4) (some .i32) 0),
    .vperm (A (.v 3) (.v 1) (.g 2) (.m 4) (some .i32) 0),
    .vbcast (A (.v 3) (.g 1) .zero (.m 4) (some .i32) 0),
    .vext (A (.g 3) (.v 1) .zero .zero (some .i32) 0),
    .vins (A (.v 3) (.g 1) .zero .zero (some .i32) 0),
    .vredAdd (A (.g 3) (.v 1) .zero (.m 4) (some .i32) 0),
    .vredMin (A (.g 3) (.v 1) .zero (.m 4) (some .i32) 0),
    .vredMax (A (.g 3) (.v 1) .zero (.m 4) (some .i32) 0),
    .vscan (A (.v 3) (.v 1) .zero (.m 4) (some .i32) 0),
    .vzpack (A (.v 3) (.v 1) (.g 2) (.m 4) (some .i16) 0),
    .vexpand (A (.v 3) (.v 1) (.g 2) .zero (some .i16) 0),
    .mand (A (.m 3) (.m 1) (.m 2) .zero none 0),
    .mor (A (.m 3) (.m 1) (.m 2) .zero none 0),
    .mnot (A (.m 3) (.m 1) .zero .zero none 0),
    .mpopc (A (.g 3) (.m 1) .zero .zero (some .i32) 0),
    .mffs (A (.g 3) (.m 1) .zero .zero (some .i32) 0),
    .fcvt (A (.g 3) (.g 1) .zero .zero (some .f32) 0),
    .vcvt (A (.v 3) (.v 1) .zero (.m 4) (some .f32) 0),
    .vpack (A (.v 3) (.v 1) .zero (.m 4) (some (.nf 0)) 10),
    .vunpack (A (.v 3) (.v 1) .zero (.m 4) (some .f32) 12)], base.Runs i :=
  runs_all (by decide +kernel)

theorem test_runs_plain_4 : ∀ i ∈ [
    .vtsum (A (.v 3) (.g 1) .zero (.m 4) (some .pair32) 0),
    .ld (M (.g 3) 0 (.g 1) (.g 2) .core (some .i64) 0),
    .ldv (M (.v 3) 0 (.g 1) (.g 2) .core (some .i32) 0),
    .ldg (M (.v 3) 0 (.g 1) (.v 2) .core (some .i32) 0),
    .pf (M .zero 0 (.g 1) (.g 2) .core none 0),
    .st (M (.g 3) 0 (.g 1) (.g 2) .core (some .i64) 0),
    .stv (M (.v 3) 0 (.g 1) (.g 2) .core (some .i32) 0),
    .stg (M (.v 3) 0 (.g 1) (.v 2) .core (some .i32) 0),
    .ldf (M (.g 3) 0 (.g 1) (.g 2) .core (some .i64) 0),
    .ldft (M (.g 3) 0 (.g 1) (.g 2) .core (some .i64) 0),
    .stf (M (.g 3) 0 (.g 1) (.g 2) .core (some .i64) 0),
    .clrf (M .zero 0 (.g 1) (.g 2) .core none 0),
    .copy (E .zero .core 0 (.g 1) (.g 2) (.g 4) none 0 0),
    .copyx (E .zero .core 0 (.g 1) (.g 2) (.g 4) none 0 0),
    .wany (A (.g 3) .zero (.g 2) .zero none 0),
    .wall (A (.g 3) .zero (.g 2) .zero none 0),
    .ffr (A (.g 3) .zero (.g 2) .zero none 0),
    .tagclr (A .zero .zero (.g 2) .zero none 0),
    .cleanR (E .zero .core 0 (.g 1) (.g 2) .zero none 0 0),
    .invR (E .zero .core 0 (.g 1) (.g 2) .zero none 0 0),
    .flushR (E .zero .core 0 (.g 1) (.g 2) .zero none 0 0),
    .fenceR (M .zero 0 .zero .zero .core none 0),
    .fenceW (M .zero 0 .zero .zero .core none 0),
    .fenceRw (M .zero 0 .zero .zero .core none 0),
    .fenceB (M .zero 0 .zero .zero .core none 0),
    .acq (M (.g 3) 0 (.g 1) (.g 2) .core none 0),
    .acqs (M (.g 3) 0 (.g 1) (.g 2) .core none 0),
    .rls (M .zero 0 (.g 1) (.g 2) .core none 0),
    .sealR (E .zero .core 0 (.g 1) (.g 2) (.g 4) none 0 0),
    .oadd (E (.g 3) .core 1 (.g 1) (.g 2) .zero (some .i64) 2 0),
    .omin (E (.g 3) .core 1 (.g 1) (.g 2) .zero (some .i64) 2 0),
    .omax (E (.g 3) .core 1 (.g 1) (.g 2) .zero (some .i64) 2 0),
    .oand (E (.g 3) .core 1 (.g 1) (.g 2) .zero (some .n32) 2 0),
    .oor (E (.g 3) .core 1 (.g 1) (.g 2) .zero (some .n32) 2 0),
    .oxor (E (.g 3) .core 1 (.g 1) (.g 2) .zero (some .n32) 2 0),
    .oswp (E (.g 3) .core 1 (.g 1) (.g 2) .zero (some .n32) 2 0)], base.Runs i :=
  runs_all (by decide +kernel)

theorem test_runs_plain_5 : ∀ i ∈ [
    .ocas (E (.g 3) .core 1 (.g 1) (.g 2) (.g 4) (some .n32) 2 0),
    .oaddNt (E (.g 3) .core 1 (.g 1) (.g 2) .zero (some .i64) 2 0),
    .ominNt (E (.g 3) .core 1 (.g 1) (.g 2) .zero (some .i64) 2 0),
    .omaxNt (E (.g 3) .core 1 (.g 1) (.g 2) .zero (some .i64) 2 0),
    .oandNt (E (.g 3) .core 1 (.g 1) (.g 2) .zero (some .n32) 2 0),
    .oorNt (E (.g 3) .core 1 (.g 1) (.g 2) .zero (some .n32) 2 0),
    .oxorNt (E (.g 3) .core 1 (.g 1) (.g 2) .zero (some .n32) 2 0),
    .oswpNt (E (.g 3) .core 1 (.g 1) (.g 2) .zero (some .n32) 2 0),
    .ocasNt (E (.g 3) .core 1 (.g 1) (.g 2) (.g 4) (some .n32) 2 0),
    .ofadd (E (.g 3) .core 1 (.g 1) (.g 2) .zero (some .f32) 2 0),
    .ofmin (E (.g 3) .core 1 (.g 1) (.g 2) .zero (some .f32) 2 0),
    .ofmax (E (.g 3) .core 1 (.g 1) (.g 2) .zero (some .f32) 2 0),
    .offma (E (.g 3) .core 1 (.g 1) (.g 2) (.g 4) (some .f32) 2 0),
    .ored (E (.v 3) .core 1 (.g 1) (.v 2) .zero (some .f32) 2 0),
    .ofaddNt (E (.g 3) .core 1 (.g 1) (.g 2) .zero (some .f32) 2 0),
    .ofminNt (E (.g 3) .core 1 (.g 1) (.g 2) .zero (some .f32) 2 0),
    .ofmaxNt (E (.g 3) .core 1 (.g 1) (.g 2) .zero (some .f32) 2 0),
    .offmaNt (E (.g 3) .core 1 (.g 1) (.g 2) (.g 4) (some .f32) 2 0),
    .oredNt (E (.v 3) .core 1 (.g 1) (.v 2) .zero (some .f32) 2 0),
    .ocmt (E (.g 3) .core 1 (.g 1) (.g 2) .zero (some .i64) 2 0),
    .oabn (E .zero .core 0 (.g 1) (.g 2) .zero none 0 0),
    .barv (E (.g 3) .core 0 .zero .zero .zero none 0 0),
    .bwait (E .zero .core 0 (.g 1) .zero .zero none 0 0),
    .btest (E .zero .core 1 (.g 1) .zero .zero none 0 0),
    .grpq (E (.g 3) .core 0 .zero .zero .zero none 0 0),
    .send (E .zero .core 0 (.g 1) (.v 2) .zero none 0 0),
    .sendt (E (.g 3) .core 1 (.g 1) (.v 2) .zero none 0 0),
    .recv (E (.v 3) .core 0 .zero (.g 2) .zero none 0 0),
    .recvt (E (.v 3) .core 1 .zero (.g 2) .zero none 0 0),
    .deleg (E (.g 3) .core 1 (.g 1) (.g 2) (.g 4) none 2 0),
    .delegt (E (.g 3) .core 1 (.g 1) (.g 2) (.g 4) none 2 0),
    .dret (E .zero .core 0 .zero (.g 2) .zero none 0 0),
    .rpt (E .zero .core 0 (.g 1) .zero .zero none 0 1),
    .gslot (E .zero .core 0 .zero .zero .zero none 0 0),
    .gset (E .zero .core 0 .zero (.p 2) .zero none 0 0),
    .ecmd (E (.g 3) .core 1 (.g 1) (.g 2) .zero none 0 0)], base.Runs i :=
  runs_all (by decide +kernel)

theorem test_runs_plain_6 : ∀ i ∈ [
    .mcap (E (.g 3) .core 0 .zero .zero .zero none 0 0),
    .mfmt (E .zero .core 0 (.g 1) (.g 2) .zero none 0 0),
    .mldb (E .zero .core 0 (.g 1) (.g 2) (.g 4) none 0 0),
    .mrow (E .zero .core 0 (.g 1) (.g 2) (.g 4) (some .i8) 0 0),
    .mnz (E .zero .core 0 (.g 1) (.v 2) (.g 4) (some .i8) 0 0),
    .mclr (E .zero .core 0 (.g 1) .zero .zero none 0 0),
    .mrd (E (.v 3) .core 0 (.g 1) (.g 2) .zero (some .f32) 0 0),
    .msave (E .zero .core 0 (.g 1) .zero .zero none 0 0),
    .mrest (E .zero .core 0 (.g 1) (.g 2) .zero none 0 0),
    .mwait (E (.g 3) .core 1 (.g 1) (.g 2) .zero none 0 0),
    .ecomb (E .zero .core 0 .zero (.g 2) .zero (some .i64) 0 0),
    .eact (E .zero .core 0 (.g 1) (.g 2) .zero none 0 0),
    .dqpush (E .zero .core 0 .zero (.g 2) (.g 4) none 0 0),
    .dqpop (E (.g 3) .core 1 .zero .zero .zero none 0 0),
    .dqsplit (E (.g 3) .core 1 .zero (.g 2) .zero none 0 0),
    .dqsteal (E (.g 3) .core 1 (.g 1) .zero .zero none 0 0),
    .amsg (E .zero .core 0 (.g 1) (.g 2) (.g 4) none 0 0),
    .gath (E .zero .core 0 .zero (.g 2) .zero none 0 0),
    .scat (E .zero .core 0 .zero (.g 2) .zero none 0 0),
    .ijob (E (.g 3) .core 0 .zero (.g 2) .zero none 0 0),
    .bcall (E (.g 3) .core 1 (.g 1) (.g 2) (.g 4) none 2 0),
    .trap (S .zero .zero 1),
    .sysr (S (.g 3) .zero 0),
    .sysw (S .zero (.g 1) 0),
    .yieldT (S .zero .zero 0),
    .drain (S .zero .zero 0),
    .vabort (S .zero .zero 0),
    .wfe (S (.g 3) (.g 1) 0)], base.Runs i :=
  runs_all (by decide +kernel)

theorem test_runs_privileged : ∀ i ∈ [
    .eret (S .zero .zero 0),
    .sfqpop (S (.v 3) .zero 0),
    .kill (S .zero .zero 0),
    .tlbinv (S .zero (.g 1) 0),
    .tlbsync (S .zero .zero 0)], (base.onT fun t => { t with kind := .handler 0 }).Runs i :=
  runs_all (by decide +kernel)

theorem test_runs_bank : ∀ i ∈ [
    .hret (E .zero .core 0 .zero (.g 2) .zero none 0 0),
    .hrow (E (.v 3) .core 0 (.g 1) .zero .zero none 0 0),
    .hwr (E .zero .core 0 (.g 1) (.v 2) .zero none 0 0)], (base.onT fun t => { t with kind := .sorrel 0 }).Runs i :=
  runs_all (by decide +kernel)


/-! ### Single steps: results by hand from the rules named, or from the specification's examples -/

namespace Tests

/-- g1 and g2 in `base`. -/
def two (x y : Nat) : State := g (g base 1 x) 2 y
def three (x y z : Nat) : State := g (two x y) 4 z

/-- The register g3 after an instruction, and FLAGS. -/
def r3 (s : State) (i : Instr) : Nat := ((out (exec i s)).t.regs.rg 3).toNat
def fl (s : State) (i : Instr) : Nat := (out (exec i s)).t.sys.flags.toNat

/-- The value that a long op will land, and its flags. -/
def land (s : State) (i : Instr) : List (Nat × Nat) := (out (exec i s)).t.long.map fun l =>
  ((l.vals.headD 0).toNat, match l.act with
    | .ready f => f.toNat
    | _ => 999)

/-- Cause, TRAPPC and AUX of the trap that an instruction takes. -/
def trap (s : State) (i : Instr) : Nat × Nat × Nat :=
  let t := (out (exec i s)).t
  (t.sys.cause.toNat, t.sys.trappc.toNat, t.tr.aux.toNat)

def A3 (t : Ty) : OpA := A (.g 3) (.g 1) (.g 2) .zero (some t) 0
def A1 (t : Ty) : OpA := A (.g 3) (.g 1) .zero .zero (some t) 0

end Tests

open Tests

-- R92 and R83: 0x7F + 1 wraps to −128 in i8; R59's example: an immediate 0x180 is −128 in i8 and 128 in n8
theorem test_add : r3 (two 0x7F 1) (.add (A3 .i8)) = 0xFFFFFFFFFFFFFF80 ∧
    r3 (two 0 0) (.add (A (.g 3) (.g 1) .zero .zero (some .i8) 0x180)) = 0xFFFFFFFFFFFFFF80 ∧
    r3 (two 0 0) (.add (A (.g 3) (.g 1) .zero .zero (some .n8) 0x180)) = 128 := by decide +kernel

-- R68: :csat holds 0x7F + 1 at 127 and sets SAT (bit 6); scale −1 of 3 is 1.5, to even 2
theorem test_add_saturates_and_scales :
    (r3 (two 0x7F 1) (.add { A3 .i8 with clamp := .csat }), fl (two 0x7F 1) (.add { A3 .i8 with clamp := .csat }) != 0) = (127, true) ∧
    r3 (two 1 2) (.add { A3 .i64 with scale := -1 }) = 2 := by decide +kernel

theorem test_sub_madd : r3 (two 0 1) (.sub (A3 .n8)) = 0xFF ∧
    r3 (three 3 4 5) (.madd (A (.g 3) (.g 1) (.g 2) (.g 4) (some .i64) 0)) = 17 := by decide +kernel

-- floor(−1 × 2 / 2^64) = −1, and (2^64 − 1) × 2 / 2^64 = 1
theorem test_mul_mulh_mulhn : r3 (two 0x100 0x100) (.mul (A3 .i16)) = 0 ∧
    r3 (two (2 ^ 64 - 1) 2) (.mulh (A3 .i64)) = 2 ^ 64 - 1 ∧ r3 (two (2 ^ 64 - 1) 2) (.mulhn (A3 .n64)) = 1 := by decide +kernel

-- −7 / 2 = −3 rest −1; by zero all ones and the dividend; −128 / −1 in i8
theorem test_divisions : land (two (2 ^ 64 - 7) 2) (.div (A3 .i64)) = [(2 ^ 64 - 3, 0)] ∧
    land (two (2 ^ 64 - 7) 2) (.rem (A3 .i64)) = [(2 ^ 64 - 1, 0)] ∧ land (two 7 0) (.divn (A3 .n8)) = [(255, 0)] ∧
    land (two 7 0) (.remn (A3 .n8)) = [(7, 0)] ∧ land (two 0x80 0xFF) (.div (A3 .i8)) = [(2 ^ 64 - 128, 0)] ∧
    land (two 0x80 0xFF) (.rem (A3 .i8)) = [(0, 0)] := by decide +kernel

theorem test_logic : r3 (two 12 10) (.and (A3 .i64)) = 8 ∧ r3 (two 12 10) (.or (A3 .i64)) = 14 ∧ r3 (two 12 10) (.xor (A3 .i64)) = 6 ∧
    r3 (two 12 10) (.andn (A3 .i64)) = 4 := by decide +kernel

-- R93: `sra.n8` shifts in bit 7 and zero-extends the byte; counts are taken mod w
theorem test_shifts : r3 (two 0x81 1) (.shl (A3 .n8)) = 2 ∧ r3 (two 0x81 1) (.shr (A3 .n8)) = 0x40 ∧
    r3 (two 0x81 1) (.sra (A3 .n8)) = 0xC0 ∧ r3 (two 0x81 9) (.rol (A3 .n8)) = 3 ∧ r3 (two 0x81 1) (.ror (A3 .n8)) = 0xC0 ∧
    r3 (two 0x81 8) (.shl (A3 .i8)) = 2 ^ 64 - 127 := by decide +kernel

theorem test_min_max : r3 (two 0xFF 1) (.min (A3 .i8)) = 2 ^ 64 - 1 ∧ r3 (two 0xFF 1) (.max (A3 .i8)) = 1 ∧
    r3 (two 0xFF 1) (.minn (A3 .n8)) = 1 ∧ r3 (two 0xFF 1) (.maxn (A3 .n8)) = 255 := by decide +kernel

theorem test_bit_effects : r3 (two 0 0) (.clz (A1 .n8)) = 8 ∧ r3 (two 8 0) (.ctz (A1 .n8)) = 3 ∧ r3 (two 0xFF 0) (.popc (A1 .i8)) = 8 ∧
    r3 (two 0xB5 0xF0) (.bext (A3 .n8)) = 0xB ∧ r3 (two 0x0B 0xF0) (.bdep (A3 .n8)) = 0xB0 := by decide +kernel

theorem test_moves : r3 (two 5 6) (.sel (A (.g 3) (.g 1) (.g 2) (.p 4) none 0)) = 6 ∧
    r3 (two 5 6) (.mov (A (.g 3) (.g 1) .zero .zero none 0)) = 5 ∧
    r3 (two 0 0) (.movi (A (.g 3) .zero .zero .zero none 0xFFFFFFFF)) = 2 ^ 64 - 1 ∧
    r3 (two 0x100000005 0) (.movh (A (.g 3) (.g 1) .zero .zero none 7)) = 0x700000005 ∧
    r3 (two 5 0) (.mov (A (.g 3) (.fmt 0) .zero .zero none 0)) = 0x00B10798 := by decide +kernel

-- R61: base + (index << 3) − 8
theorem test_lea : r3 (two 0x1000 2) (.lea { M (.g 3) 0 (.g 1) (.g 2) .core none 0xFFFFFFF8 with shift := 3 }) = 0x1008 := by
  decide +kernel

-- the three words after R101: g1 = 5, g2 = 3 after p3 = true, p4 = false give p3 = false, p4 = true under `.and`
theorem test_cmp : let s := (two 5 3).writeP 3 true
    let t := (out (exec (.cmp { P (.p 3) 4 (.g 1) (.g 2) (some .i32) with cond := .lt, comb := .conj }) s)).t.regs
    t.rp 3 = false ∧ t.rp 4 = true := by decide +kernel

-- R100: a quiet NaN is unordered, and `.lt` sets NV (bit 0) for it
theorem test_fcmp : let s := two 0x7FC00000 0x3F800000
    let i (c : Cond) : Instr := .fcmp { P (.p 3) 4 (.g 1) (.g 2) (some .f32) with cond := c }
    (out (exec (i .lt) s)).t.regs.rp 3 = false ∧ fl s (i .lt) = 1 ∧ (out (exec (i .ne) s)).t.regs.rp 3 = true ∧ fl s (i .ne) = 0 := by
  decide +kernel

theorem test_predicates : let s := base.writeP 1 true
    let p (i : Instr) : Bool := (out (exec i s)).t.regs.rp 3
    p (.pand (P (.p 3) 4 (.p 1) (.p 2) none)) = false ∧ p (.por (P (.p 3) 4 (.p 1) (.p 2) none)) = true ∧
    p (.pxor (P (.p 3) 4 (.p 1) (.p 1) none)) = false ∧ p (.pnot (P (.p 3) 4 (.p 1) .zero none)) = false ∧
    p (.pmov (P (.p 3) 4 (.p 1) .zero none)) = true := by decide +kernel

theorem test_ptst : let i : Instr := .ptst (P (.p 3) 4 (.g 1) (.g 2) none)
    (out (exec i (two 6 9))).t.regs.rp 3 = false ∧ (out (exec i (two 6 4))).t.regs.rp 3 = true := by decide +kernel

-- R54: after slot 4 comes slot 0 of the next line
theorem test_nop : (out (exec (.nop (S .zero .zero 0)) base)).t.pc = 1 ∧
    (out (exec (.nop (S .zero .zero 0)) (base.onT fun t => { t with pc := 4 }))).t.pc = 64 := by decide +kernel

-- R105: a count of 1 becomes 0 and falls through; a count of 0 stays 0
theorem test_loop : let i : Instr := .loop (B (.g 1) 0 0)
    ((out (exec i (two 1 0))).t.regs.rg 1, (out (exec i (two 1 0))).t.pc) = (0, 1) ∧
    ((out (exec i (two 0 0))).t.regs.rg 1, (out (exec i (two 0 0))).t.pc) = (0, 1) := by decide +kernel

-- R106, R239
theorem test_brk_trap : trap base (.brk (S .zero .zero 0xABCD)) = (0x78, 0, 0xABCD) ∧ trap base (.trap (S .zero .zero 3)) = (0x7B, 0, 3) := by
  decide +kernel

-- R103: an empty stack with nothing spilled
theorem test_ret_underflow : (trap base (.ret (B .zero 0 0))).1 = 9 := by decide +kernel

-- R55: a code address with a slot above 4 is no target
theorem test_jr_bad_target : (trap (two 5 0) (.jr (B (.g 1) 0 0))).1 = 3 := by decide +kernel

-- 1 + 2 = 3, 3 − 2 = 1, 2 × 3 = 6, 2 × 3 + 1 = 7 in f32
theorem test_float_arithmetic : r3 (two 0x3F800000 0x40000000) (.fadd (A3 .f32)) = 0x40400000 ∧
    r3 (two 0x40400000 0x40000000) (.fsub (A3 .f32)) = 0x3F800000 ∧ r3 (two 0x40000000 0x40400000) (.fmul (A3 .f32)) = 0x40C00000 ∧
    r3 (three 0x40000000 0x40400000 0x3F800000) (.ffma (A (.g 3) (.g 1) (.g 2) (.g 4) (some .f32) 0)) = 0x40E00000 := by
  decide +kernel

-- R113: the largest f32 doubled overflows to +Inf with OF and NX
theorem test_float_overflow : r3 (two 0x7F7FFFFF 0x7F7FFFFF) (.fadd (A3 .f32)) = 0x7F800000 ∧
    r3 (two 0x7F7FFFFF 0x7F7FFFFF) (.fadd { A3 .f32 with rnd := .rtz }) = 0x7F7FFFFF := by decide +kernel

-- 1/3 and 1/4, the roots of 4, 2^3, log2 8
theorem test_float_long : (land (two 0x3F800000 0x40400000) (.fdiv (A3 .f32))).map Prod.fst = [0x3EAAAAAB] ∧
    land (two 0x40800000 0) (.frcp (A1 .f32)) = [(0x3E800000, 0)] ∧ land (two 0x40800000 0) (.fsqrt (A1 .f32)) = [(0x40000000, 0)] ∧
    land (two 0x40800000 0) (.frsq (A1 .f32)) = [(0x3F000000, 0)] ∧ land (two 0x40400000 0) (.fexp2 (A1 .f32)) = [(0x41000000, 0)] ∧
    land (two 0x41000000 0) (.flog2 (A1 .f32)) = [(0x40400000, 0)] := by decide +kernel

-- R129: −0 is below +0; R130: bit 3 or its like, a positive normal
theorem test_float_selection : r3 (two 0x80000000 0) (.fmin (A3 .f32)) = 0x80000000 ∧ r3 (two 0x80000000 0) (.fmax (A3 .f32)) = 0 ∧
    r3 (two 0x7FC00000 0x3F800000) (.fmin (A3 .f32)) = 0x3F800000 := by decide +kernel

-- the table after R118: 300.0, 500.0 and −0.001 in the format 0x00B1_0798
theorem test_fcvt_narrow : let i : Instr := .fcvt (A (.g 3) (.g 1) .zero .zero (some (.nf 0)) 10)
    r3 (two 0x43960000 0) i = 0x79 ∧ r3 (two 0x43FA0000 0) i = 0x7E ∧ r3 (two 0xBA83126F 0) i = 0x81 := by decide +kernel

-- 2.5 to an integer: to even 2, up 3
theorem test_fcvt_integer : r3 (two 0x40200000 0) (.fcvt (A (.g 3) (.g 1) .zero .zero (some .i32) 10)) = 2 ∧
    r3 (two 0x40200000 0) (.fcvt { A (.g 3) (.g 1) .zero .zero (some .i32) 10 with rnd := .rup }) = 3 := by decide +kernel

-- R73: a pending source traps 0x04, a pending destination 0x05
theorem test_hazards : (trap (base.onT fun t => { t with regs := t.regs.mark [.g 1] }) (.add (A3 .i64))).1 = 4 ∧
    (trap (base.onT fun t => { t with regs := t.regs.mark [.g 3] }) (.add (A3 .i64))).1 = 5 := by decide +kernel

-- R74: a privileged instruction outside the system handler traps 0x06; R58: fmt1 was never written and traps 0x40
theorem test_privilege_and_formats : (trap base (.eret (S .zero .zero 0))).1 = 6 ∧
    (trap base (.fcvt (A (.g 3) (.g 1) .zero .zero (some (.nf 1)) 10))).1 = 0x40 := by decide +kernel

/-! ### Lanes -/

namespace Tests

/-- v1 and v2 with the given lanes from lane 0, v3 with sevens, under m4 with lanes 0 and 1 active. -/
def vs (w : Nat) (x y : List Nat) : State :=
  let s := put (put (put base (.v 1) (ofLanes w x)) (.v 2) (ofLanes w y)) (.v 3) (ofLanes w (List.replicate (512 / w) 7))
  put s (.m 4) 3

/-- The first four lanes of v3 after an instruction. -/
def l4 (w : Nat) (s : State) (i : Instr) : List Nat :=
  let v := (out (exec i s)).t.regs.read (.v 3)
  [laneOf v w 0, laneOf v w 1, laneOf v w 2, laneOf v w 3]

def V (t : Ty) : OpA := A (.v 3) (.v 1) (.v 2) (.m 4) (some t) 0
def V1 (t : Ty) : OpA := A (.v 3) (.v 1) .zero (.m 4) (some t) 0

end Tests

-- two active lanes; the others keep 7
theorem test_lanes_integer : let s := vs 8 [250, 3] [10, 5]
    l4 8 s (.vadd (V .n8)) = [4, 8, 7, 7] ∧ l4 8 s (.vsub (V .n8)) = [240, 254, 7, 7] ∧ l4 8 s (.vmul (V .n8)) = [196, 15, 7, 7] ∧
    l4 8 s (.vmulh (V .n8)) = [9, 0, 7, 7] ∧ l4 8 s (.vmin (V .i8)) = [250, 3, 7, 7] ∧ l4 8 s (.vmax (V .n8)) = [250, 5, 7, 7] := by
  decide +kernel

theorem test_lanes_bitwise : let s := vs 16 [0x8001, 12] [1, 10]
    l4 16 s (.vand (V .i16)) = [1, 8, 7, 7] ∧ l4 16 s (.vor (V .i16)) = [0x8001, 14, 7, 7] ∧ l4 16 s (.vxor (V .i16)) = [0x8000, 6, 7, 7] ∧
    l4 16 s (.vshl (V .i16)) = [2, 0x3000, 7, 7] ∧ l4 16 s (.vshr (V .i16)) = [0x4000, 0, 7, 7] ∧
    l4 16 s (.vsra (V .i16)) = [0xC000, 0, 7, 7] := by decide +kernel

-- 1 + 2, 4 − 2 … in f32
theorem test_lanes_float : let s := vs 32 [0x3F800000, 0x40800000] [0x40000000, 0x40000000]
    l4 32 s (.vfadd (V .f32)) = [0x40400000, 0x40C00000, 7, 7] ∧ l4 32 s (.vfsub (V .f32)) = [0xBF800000, 0x40000000, 7, 7] ∧
    l4 32 s (.vfmul (V .f32)) = [0x40000000, 0x41000000, 7, 7] ∧ l4 32 s (.vfmin (V .f32)) = [0x3F800000, 0x40000000, 7, 7] ∧
    l4 32 s (.vfmax (V .f32)) = [0x40000000, 0x40800000, 7, 7] := by decide +kernel

-- an unmasked multiply-add: 3 × 5 + 10, and vffma 1 × 2 + 2; the other lanes are 0 × 0 + 0
theorem test_lanes_multiply_add : l4 16 (vs 16 [3, 4] [5, 6]) (.vmadd (A (.v 3) (.v 1) (.v 2) (.v 2) (some .i16) 0)) = [20, 30, 0, 0] ∧
    l4 32 (vs 32 [0x3F800000] [0x40000000]) (.vffma (A (.v 3) (.v 1) (.v 2) (.v 2) (some .f32) 0)) = [0x40800000, 0, 0, 0] := by
  decide +kernel

theorem test_lanes_long : (land (vs 32 [0x3F800000, 0x40800000] [0x40000000, 0x40000000]) (.vfdiv (V .f32))).map
      (fun x => (x.1 % 2 ^ 64, x.2)) = [(0x400000003F000000, 0)] ∧
    (land (vs 32 [0x3F800000, 0x40800000] []) (.vfsqrt (V1 .f32))).map (fun x => (x.1 % 2 ^ 64, x.2)) = [(0x400000003F800000, 0)] ∧
    (land (vs 32 [0x3F800000, 0x40800000] []) (.vfrcp (V1 .f32))).map (fun x => (x.1 % 2 ^ 64, x.2)) = [(0x3E8000003F800000, 0)] := by
  decide +kernel

theorem test_lane_movement : let s := vs 32 [11, 12, 13, 14] [3, 2, 1, 0]
    l4 32 s (.vsel (V .i32)) = [11, 12, 1, 0] ∧ l4 32 s (.vperm (A (.v 3) (.v 1) (.v 2) .zero (some .i32) 0)) = [14, 13, 12, 11] ∧
    l4 32 (g s 1 9) (.vbcast (A (.v 3) (.g 1) .zero (.m 4) (some .i32) 0)) = [9, 9, 7, 7] ∧
    l4 32 (g s 1 9) (.vins (A (.v 3) (.g 1) .zero .zero (some .i32) 2)) = [7, 7, 9, 7] ∧
    r3 s (.vext (A (.g 3) (.v 1) .zero .zero (some .i32) 3)) = 14 := by decide +kernel

-- R136: only the active lanes 0 and 1 count
theorem test_reductions : let s := vs 8 [250, 3, 100] []
    r3 s (.vredAdd { V1 .n8 with dst := .g 3 }) = 253 ∧ r3 s (.vredMin { V1 .i8 with dst := .g 3 }) = 2 ^ 64 - 6 ∧
    r3 s (.vredMax { V1 .i8 with dst := .g 3 }) = 3 ∧ l4 8 s (.vscan (V1 .n8)) = [250, 253, 7, 7] := by decide +kernel

theorem test_lane_compares : let s := vs 16 [1, 5, 9] [2, 5, 0]
    let m (i : Instr) : Nat := ((out (exec i s)).t.regs.rm 3).toNat
    m (.vcmp { A (.m 3) (.v 1) (.v 2) (.m 4) (some .i16) 0 with cond := .lt }) = 1 ∧
    m (.vcmp { A (.m 3) (.v 1) (.v 2) (.m 4) (some .i16) 0 with cond := .le }) = 3 ∧
    m (.vfcmp { A (.m 3) (.v 1) (.v 2) (.m 4) (some .f16) 0 with cond := .eq }) = 2 := by decide +kernel

theorem test_masks : let s := put (put base (.m 1) 12) (.m 2) 10
    let m (i : Instr) : Nat := ((out (exec i s)).t.regs.rm 3).toNat
    m (.mand (A (.m 3) (.m 1) (.m 2) .zero none 0)) = 8 ∧ m (.mor (A (.m 3) (.m 1) (.m 2) .zero none 0)) = 14 ∧
    m (.mnot (A (.m 3) (.m 1) .zero .zero none 0)) = 2 ^ 64 - 13 ∧ r3 s (.mpopc (A (.g 3) (.m 1) .zero .zero (some .i32) 0)) = 2 ∧
    r3 s (.mffs (A (.g 3) (.m 1) .zero .zero (some .i32) 0)) = 2 ∧
    r3 base (.mffs (A (.g 3) (.m 1) .zero .zero (some .i32) 0)) = 16 := by decide +kernel

-- R137: kept lanes as (base + lane) << 16 | bits; and back
theorem test_zero_packing : let s := g (vs 16 [0, 5, 0, 6] []) 2 100
    l4 32 s (.vzpack (A (.v 3) (.v 1) (.g 2) .zero (some .i16) 0)) = [101 * 65536 + 5, 103 * 65536 + 6, 0, 0] ∧
    l4 16 (g (vs 32 [101 * 65536 + 5, 103 * 65536 + 6] []) 2 100) (.vexpand (A (.v 3) (.v 1) (.g 2) .zero (some .i16) 0)) = [0, 5, 0, 6] := by
  decide +kernel

-- R139, R140: two f32 lanes to f16 (part 0), two codes of the format 0x00B1_0798 from f32 and back to f32 (0x79 is 288)
theorem test_lane_conversions : l4 16 (vs 32 [0x3F800000, 0x40000000] []) (.vcvt (A (.v 3) (.v 1) .zero (.m 4) (some .f16) 10)) =
      [0x3C00, 0x4000, 7, 0] ∧
    l4 8 (vs 32 [0x43960000, 0x43FA0000] []) (.vpack (A (.v 3) (.v 1) .zero (.m 4) (some (.nf 0)) 10)) = [0x79, 0x7E, 0, 0] ∧
    l4 32 (vs 8 [0x79, 0x7E] []) (.vunpack (A (.v 3) (.v 1) .zero (.m 4) (some .f32) 12)) = [0x43900000, 0x43E00000, 0x07070707, 0x07070707] := by
  decide +kernel

-- R141: the pair (1, 0) plus 2 is (3, 0)
theorem test_pair_sum : let s := put (put (put base (.v 3) (ofLanes 32 [0x3F800000])) (.v 4) 0) (.v 1) (ofLanes 32 [0x40000000])
    l4 32 s (.vtsum (A (.v 3) (.v 1) .zero .zero (some .pair32) 0)) = [0x40400000, 0, 0, 0] := by decide +kernel

/-! ### Hypotheses that can be met: a step -/

/-- `add.i64 g3, g1, 5`, as the words of spec/03_encoding.md R56 give it. -/
def Tests.addWord : Nat := 0b0_0000_0_00000001_0000_0000011_000_0000_0000001_00_0000000_00_0000000_00_00011_00000000000000000000000000000101

def Tests.placed : State := State.reset.withFetchWord 96 Tests.addWord
def Tests.turn : State := { Tests.placed with agenda := [] }
def Tests.view : State :=
  (((turn.ageWaiting 0).fillSlots 0 6).focus 1).onT fun t => { t with sched := { t.sched with heldAt := none } }
def Tests.fetched : Line × State := match view.fetchLine 0 (view.rootOf view.t) false 0 with
  | (.line l, f) => (l, f)
  | (_, f) => (0, f)

-- the step fetches and runs it: g3 becomes 5
theorem test_step_runs_the_word : (out (step placed)).t.regs.rg 3 = 5 ∧ (out (step placed)).t.pc = 1 := by decide +kernel

theorem undisturbed_view : view.Undisturbed := by
  constructor
  case words | caps => intro x hx; cases hx
  all_goals decide +kernel

-- the hypotheses of StepRunsDecodedInstruction, all together
theorem test_hyps_step : placed.dev.stopped = false ∧ placed.TurnOf 0 turn ∧ (turn.core 0).withdrawn = false ∧
    (turn.core 0).issuedAt ≠ some turn.dev.cycle ∧ turn.dev.stage = 2 ∧ ((turn.ageWaiting 0).fillSlots 0 6).chooseSlot 0 = some (1, 0) ∧
    view.Undisturbed ∧ view.fetchLine view.t.sched.core (view.rootOf view.t) view.t.isHandler view.t.pc = (.line fetched.1, fetched.2) ∧
    lineReserved fetched.1 = 0 ∧
    decode (slotWord fetched.1 (view.t.pc.toNat % 8)) = .ok (.add (A (.g 3) (.g 1) .zero .zero (some .i64) 5)) ∧
    pairsAt (linePair fetched.1) (view.t.pc.toNat % 8) = false ∧ fetched.2.t = view.t ∧
    fetched.2.t.clearFor [.add (A (.g 3) (.g 1) .zero .zero (some .i64) 5)] = true ∧
    fetched.2.t.failing [.add (A (.g 3) (.g 1) .zero .zero (some .i64) 5)] = none := by
  refine ⟨?_, .inl ⟨[], ?_, rfl⟩, ?_, ?_, ?_, ?_, undisturbed_view, ?_⟩ <;> decide +kernel

/-- A line from its template bits, TGT bits and words, with the parity bits of spec/03_encoding.md R51. -/
def Tests.mkLine (pair tgt : Nat) (ws : List Nat) : Line :=
  let body := (ws.zipIdx.map fun e => e.1 * 2 ^ (32 + 96 * e.2)).sum
  let top := pair * 2 ^ 24 + tgt * 2 ^ 27
  let words := (List.range 15).map fun k => 2 ^ (1 + k) * parityOf 32 (body / 2 ^ (32 + 32 * k) % 2 ^ 32)
  BitVec.ofNat 512 (body + top + words.sum + parityOf 16 (top / 2 ^ 16))

/-- Core 0's task at code address 0, with this line there. -/
def Tests.withLine (l : Line) : State :=
  let s := base.homeWrite 0 l allBytes
  s.onCore 0 fun c => { c with tlb := [freshTlb] }

/-- `add.i64 g5, g3, 1`. -/
def Tests.addWord' : Nat := 0b0_0000_0_00000001_0000_0000101_000_0000_0000011_00_0000000_00_0000000_00_00011_00000000000000000000000000000001

def Tests.pair : State := { withLine (mkLine 1 0 [Tests.addWord, Tests.addWord']) with agenda := [.ev (.issueCycle 0)] }
def Tests.pairTurn : State := { Tests.pair with agenda := [] }
def Tests.pairView : State :=
  (((pairTurn.ageWaiting 0).fillSlots 0 6).focus 1).onT fun t => { t with sched := { t.sched with heldAt := none } }
def Tests.pairDecoded : State := (pairView.decodeAt true 0).2

-- R70: the second of the pair reads g3 as it stood before the pair
theorem test_pair : (out (step pair)).t.regs.rg 3 = 5 ∧ (out (step pair)).t.regs.rg 5 = 1 ∧ (out (step pair)).t.pc = 2 := by
  decide +kernel

theorem undisturbed_pairView : pairView.Undisturbed := by
  constructor
  case words | caps => intro x hx; cases hx
  all_goals decide +kernel

-- the hypotheses of PairRunsBothInOneStep
theorem test_hyps_pair : pair.dev.stopped = false ∧ pair.TurnOf 0 pairTurn ∧ (pairTurn.core 0).withdrawn = false ∧
    (pairTurn.core 0).issuedAt ≠ some pairTurn.dev.cycle ∧ pairTurn.dev.stage = 2 ∧
    ((pairTurn.ageWaiting 0).fillSlots 0 6).chooseSlot 0 = some (1, 0) ∧ pairView.Undisturbed ∧
    pairView.decodeAt true pairView.t.pc =
      (.ins (mkLine 1 0 [Tests.addWord, Tests.addWord']) (.add (A (.g 3) (.g 1) .zero .zero (some .i64) 5)), pairDecoded) ∧
    pairsAt (linePair (mkLine 1 0 [Tests.addWord, Tests.addWord'])) (pairView.t.pc.toNat % 8) = true ∧ pairDecoded.t = pairView.t ∧
    pairDecoded.decodeAt false (pairView.t.pc + 1) =
      (.ins (mkLine 1 0 [Tests.addWord, Tests.addWord']) (.add (A (.g 5) (.g 3) .zero .zero (some .i64) 1)), pairDecoded) ∧
    pairDecoded.t.clearFor [.add (A (.g 3) (.g 1) .zero .zero (some .i64) 5), .add (A (.g 5) (.g 3) .zero .zero (some .i64) 1)] = true ∧
    pairDecoded.t.failing [.add (A (.g 3) (.g 1) .zero .zero (some .i64) 5), .add (A (.g 5) (.g 3) .zero .zero (some .i64) 1)] = none := by
  refine ⟨?_, .inl ⟨[], ?_, rfl⟩, ?_, ?_, ?_, ?_, undisturbed_pairView, ?_⟩ <;> decide +kernel

/-! ### Hypotheses that can be met: checks, registers, integers, control, floating point -/

namespace Tests

/-- A false guard: (p1) with p1 false. -/
def guarded : Head := ⟨false, 1, false⟩
def addG : Instr := .add { A3 .i64 with hd := guarded }
def row (i : Instr) : Row := (i.info.map Prod.fst).getD Rows.add
def flds (i : Instr) : Flds := (i.info.map Prod.snd).getD (.a (A3 .i64))

end Tests

-- ChecksBeforeEffect: each of its five cases, none of the earlier ones applying
theorem test_hyps_checks : base.t.mayRun (row (.eret (S .zero .zero 0))) = false ∧
    (let s := base.onT fun t => { t with regs := t.regs.mark [.p 1] }
     s.t.mayRun (row addG) = true ∧ s.t.seen.pending (.p 1) = true) ∧
    (base.t.seen.pending (.p 1) = false ∧ base.t.seen.guard guarded = false) ∧
    (let i : Instr := .fcvt (A (.g 3) (.g 1) .zero .zero (some (.nf 1)) 10)
     base.t.seen.guard h = true ∧ (1 : Fin 8) ∈ narrowsOf (row i) (flds i) ∧ (NFmt.ofBits (base.t.seen.rf 1)).valid = false) ∧
    (let i : Instr := .fcvt (A (.g 3) (.g 1) .zero .zero (some (.nf 0)) 10)
     let s := base.onT fun t => { t with regs := t.regs.mark [.g 1] }
     (narrowsOf (row i) (flds i)).all (fun k => (NFmt.ofBits (s.t.seen.rf k)).valid) = true ∧
     (readsOf (row i) (flds i)).any s.t.seen.pending = true) ∧
    (let i : Instr := .add (A3 .i64)
     let s := base.onT fun t => { t with regs := t.regs.mark [.g 3] }
     (readsOf (row i) (flds i)).all (fun x => !s.t.seen.pending x) = true ∧ (writesOf (row i) (flds i)).any s.t.seen.pending = true) := by
  decide +kernel

-- RegisterFileReadsAsWritten: hard-wired and plain registers at the ends of their ranges
theorem test_hyps_registers : Reg.hardwired (.g 0) = true ∧ Reg.hardwired (.p 0) = true ∧ Reg.hardwired (.m 0) = true ∧
    [Reg.g 1, .g 63, .v 0, .v 31, .p 1, .p 15, .m 1, .m 7, .fmt 0, .fmt 7].all (fun x => !x.hardwired) = true := by decide

-- DecodeAndEncodeAgree, in both directions
theorem test_hyps_coding : (Instr.add (A3 .i64)).coded = true ∧ (Instr.add (A3 .i64)).wf = true ∧
    (decode (BitVec.ofNat 96 addWord)) = .ok (.add (A (.g 3) (.g 1) .zero .zero (some .i64) 5)) := by decide +kernel

-- StepLeavesNoWaiterMissed
theorem test_hyps_step_answers : ∃ t, step placed = .next t := by
  refine ⟨out (step placed), ?_⟩
  have e : goes (step placed) = true := by decide +kernel
  cases h : step placed with
  | next s => rfl
  | fault f => rw [h] at e; cases e
  | refused r => rw [h] at e; cases e

-- IntegerDestinationFormed: both signs of the scale
theorem test_hyps_scale : (0 : Int) ≤ (7 : BitVec 4).toInt ∧ (8 : BitVec 4).toInt < 0 ∧ (0 : Int) ≤ (0 : BitVec 4).toInt := by decide

-- IntegerArithmeticResults, for each of its instructions
theorem test_hyps_integer : (Claim.exactInt (two 0x7F 1) (.add (A3 .i8))) = some (A3 .i8, 128) ∧
    (Claim.exactInt (two 0 1) (.sub (A3 .n8))) = some (A3 .n8, -1) ∧
    (Claim.exactInt (three 3 4 5) (.madd (A (.g 3) (.g 1) (.g 2) (.g 4) (some .i64) 0))).map Prod.snd = some 17 ∧
    (Claim.exactInt (two 3 4) (.mul (A3 .i64))) = some (A3 .i64, 12) ∧ (Claim.exactInt (two (2 ^ 64 - 1) 2) (.mulh (A3 .i64))) = some (A3 .i64, -1) ∧
    (Claim.exactInt (two (2 ^ 64 - 1) 2) (.mulhn (A3 .n64))) = some (A3 .n64, 1) ∧ (Claim.exactInt (two 3 4) (.min (A3 .i64))) = some (A3 .i64, 3) ∧
    (Claim.exactInt (two 3 4) (.max (A3 .i64))) = some (A3 .i64, 4) ∧ (Claim.exactInt (two 3 4) (.minn (A3 .n64))) = some (A3 .n64, 3) ∧
    (Claim.exactInt (two 3 4) (.maxn (A3 .n64))) = some (A3 .n64, 4) := by decide +kernel

-- PlainWordArithmetic
theorem test_hyps_words : (A3 .n64).ty = some .n64 ∧ (A3 .i64).clamp = .none ∧ (A3 .i64).b.reg ≠ .zero ∧
    (two 1 2).Runs (.madd (A (.g 3) (.g 1) (.g 2) (.g 4) (some .i64) 0)) := by
  exact ⟨rfl, rfl, by decide, runs_spec (by decide +kernel)⟩

-- BitwiseAndShiftsComplete
theorem test_hyps_bitwise : ([.and (A3 .n8), .or (A3 .n8), .xor (A3 .n8), .andn (A3 .n8), .shl (A3 .n8), .shr (A3 .n8), .sra (A3 .n8),
    .rol (A3 .n8), .ror (A3 .n8)] : List Instr).all (fun i => (Claim.bitwise (two 1 7) i).isSome && runs (two 1 7) i) = true := by
  decide +kernel

-- DivisionsIssueTheirResult: room for a long op, up to the 63rd
theorem test_hyps_division : (two 7 0).Runs (.div (A3 .i64)) ∧ (two 7 0).t.outcnt < 64 ∧ (two 7 0).Runs (.remn (A3 .n64)) ∧
    ({ base.t with long := List.replicate 63 { op := 0, pc := 0, dsts := [], vals := [], act := .ready 0, since := 0 } } : Task).outcnt < 64 :=
  ⟨runs_spec (by decide +kernel), by decide +kernel, runs_spec (by decide +kernel), by decide +kernel⟩

-- MovesComplete: a mov to a format register that nothing captures, and one that an outstanding mfmt captures
theorem test_hyps_moves : base.fmtBusy (.fmt 1) = false ∧ base.Runs (.mov (A (.fmt 1) (.g 1) .zero .zero none 0)) :=
  ⟨by decide +kernel, runs_spec (by decide +kernel)⟩

-- ComparesWriteTwoPredicates
theorem test_hyps_compares : (Claim.condition (two 1 2) (.cmp { P (.p 3) 4 (.g 1) (.g 2) (some .i64) with cond := .lt })).map Prod.snd =
      some (true, 0) ∧
    (Claim.condition (two 0x7FC00000 0) (.fcmp { P (.p 3) 4 (.g 1) (.g 2) (some .f32) with cond := .ge })).map Prod.snd = some (false, 1) := by
  decide +kernel

-- the line where slots 0 and 4 are targets, and slot 1 is not
def Tests.tgts : State := withLine (mkLine 0 0b10001 [])

-- TransfersOfControl: passing, failing and faulting targets; the ends of a line
theorem test_hyps_targets : (tgts.myTarget 4).1 = .ok ∧ (tgts.myTarget 1).1 = .bad ∧ (tgts.myTarget 5).1 = .bad ∧ (tgts.myTarget 8).1 = .bad ∧
    (match (base.myTarget 0x40000).1 with
      | .fault _ _ => true
      | _ => false) = true ∧ (4 : Word).toNat % 64 = 4 ∧ (3 : Word).toNat % 64 < 4 := by decide +kernel

theorem test_br_and_jr : (out (exec (.br (B .zero 0 4)) tgts)).t.pc = 4 ∧ (trap tgts (.jmp (B .zero 0 1))).1 = 3 ∧
    (out (exec (.jr (B (.g 1) 0 0)) (g tgts 1 4))).t.pc = 4 ∧ (out (exec (.loop (B (.g 1) 0 4)) (g tgts 1 2))).t.regs.rg 1 = 1 := by
  decide +kernel

/-- A frame area for the spill block of run-queue entry 0 of core 0: the frame map at 0x100000 names 0x200000 (V set). -/
def Tests.framed : State :=
  let s := tgts.onCore 0 fun c => { c with fpbase := 0x100000, fplim := 0x300000, fmap := 0x100000 }
  (s.putWordAt 0x100000 0x200001).putWordAt 0x100008 0x210001

def Tests.depth (s : State) (d sp : Nat) : State :=
  s.onT fun t => { t with rets := { t.rets with depth := d, spill := sp, entry := t.rets.entry.set 0 (d - 1) 4 } }

-- CallAndReturnUseTheStack: an entry free, the last one free, a spill, a full spill block, no block; a top entry, a refill, neither
theorem test_hyps_stack : (tgts.myTarget (tgts.relTarget (B .zero 0 4))).1 = .ok ∧ (tgts.myTarget (tgts.relTarget (B .zero 0 1))).1 = .bad ∧
    (depth tgts 15 0).t.rets.depth < 16 ∧ ((depth tgts 16 0).area 0 (depth tgts 16 0).t.mapEntry 1).1 = none ∧
    ((depth framed 16 248).area 0 (depth framed 16 248).t.mapEntry 1).1.isSome = true ∧ 256 < (depth tgts 16 249).t.rets.spill + 8 ∧
    (let s := depth tgts 1 0; (s.myTarget (s.t.rets.entry.get 0 (s.t.rets.depth - 1))).1 = .ok) ∧
    ((framed.area 0 framed.t.mapEntry 1).1.isSome = true ∧ (framed.onT fun t => { t with rets := { t.rets with spill := 8 } }).t.rets.depth = 0) := by
  decide +kernel

theorem test_call_and_ret : let s := out (exec (.call (B .zero 0 4)) (tgts.onT fun t => { t with pc := 4 }))
    (s.t.pc, s.t.rets.depth, s.t.rets.entry.get 0 0) = (4, 1, 64) ∧
    (let s := out (exec (.ret (B .zero 0 0)) (depth tgts 1 0)); (s.t.pc, s.t.rets.depth) = (4, 0)) ∧
    (trap (depth tgts 16 249) (.call (B .zero 0 4))).1 = 8 ∧ (trap (depth tgts 16 0) (.call (B .zero 0 4))).1 = 0x72 := by decide +kernel

theorem test_call_spills : let s := out (exec (.call (B .zero 0 4)) (depth framed 16 0))
    (s.t.rets.depth, s.t.rets.spill, s.t.rets.entry.get 0 8) = (9, 8, 1) := by decide +kernel

/-! ### Hypotheses that can be met, and results: loads, stores, full/empty words -/

namespace Tests

/-- A translation of page n to the physical page n, readable, writable and executable, with more bits of R334. -/
def page (n more : Nat) : Tlb :=
  { root := 0, vpn := n, level := 0, pte := BitVec.ofNat 64 (0xDF + n * 1024 + more), pteAt := 0x800000 + 8 * n }

/-- Pages 0 (plain), 1 (full bits), 2 (not resident), 3 (CR), 4 (OD), 5 (read only); no other page translates. -/
def mem : State := base.onCore 0 fun c =>
  { c with tlb := [page 0 0, page 1 (2 ^ 54), { page 2 (2 ^ 56) with pte := BitVec.ofNat 64 (0xDE + 2 * 1024 + 2 ^ 56) },
                   page 3 (2 ^ 57), page 4 (2 ^ 55), { page 5 0 with pte := 0xDB + 5 * 1024 }] }

/-- The core's own local store, and core 1's. -/
def ls (off : Nat) : Nat := 0xFFFFFFFFFFF80000 + off
def far (off : Nat) : Nat := 0xFFFFFFFF00080000 + off

/-- g1 holds an address. -/
def at1 (s : State) (x : Nat) : State := g s 1 x

def ldO : OpM := M (.g 3) 0 (.g 1) .zero .core (some .n32) 0
def ldvO : OpM := M (.v 3) 0 (.g 1) .zero .core (some .i32) 0
def ldgO : OpM := M (.v 3) 0 (.g 1) (.v 2) .core (some .i32) 0
def ftO : OpM := M (.g 3) 4 (.g 1) .zero .core (some .n64) 0
def lfO : OpM := M (.g 3) 0 (.g 1) .zero .core (some .n64) 0
def clrO : OpM := M .zero 0 (.g 1) .zero .core none 0

def built (s : State) (i : Instr) : Nat := match Claim.loadOf s i with
  | some l => match (s.buildLoad l.io l.units).1 with
    | .ok _ => 0
    | .fault c _ => c
    | .storage _ _ _ => 256
    | .wait => 257
  | none => 999

def reached (s : State) (o : OpM) (write : Bool) : Nat :=
  match (s.reach s.t (s.t.asks (if write then .store else .load) true write) (s.ea o) 8).1 with
  | .ok _ p => if Pte.fe p then 1 else 0
  | .fault c => c
  | .storage _ _ => 256
  | .wait => 257

end Tests

-- LoadsIssueTheirUnits: misaligned; foreign; a unit that translates, faults, or is not resident
theorem test_hyps_loads : ([.ld ldO, .ldv ldvO, .ldg ldgO] : List Instr).all (fun i =>
      runs (at1 mem 2) i && ((Claim.loadOf (at1 mem 2) i).any fun l => (l.checked.find? fun a => a.toNat % 4 != 0) == some 2) &&
      ((Claim.loadOf (at1 mem (far 0)) i).any fun l => l.checked.all (fun a => a.toNat % 4 == 0) &&
        (l.units.find? fun u => isForeign 0 u.1).isSome) &&
      built (at1 mem 0) i == 0 && built (at1 mem (ls 0)) i == 0 && built (at1 mem 0x2000) i == 256 && built (at1 mem 0x9000) i == 0x10) = true := by
  decide +kernel

theorem test_load_traps : trap (at1 mem 2) (.ld ldO) = (0x0A, 0, 0) ∧ (trap (at1 mem (far 0)) (.ld ldO)).1 = 0x14 ∧
    (trap (at1 mem 0x9000) (.ldv ldvO)).1 = 0x10 ∧ (out (exec (.ld ldO) (at1 mem 0x2000))).t.sched.status = .suspended := by
  decide +kernel

-- LocalStoreRangesReadAtIssue, at both ends of each range
theorem test_hyps_windows : windowFor 0 0xFFFFFFFFFFF80000 = .ls 0 ∧ windowFor 5 0xFFFFFFFFFFFFFFFF = .ls 0x7FFFF ∧
    windowFor 0 0xFFFFFFFF00000000 = .ls 0 ∧ windowFor 1 0xFFFFFFFF00000000 = .dls 0 0 ∧ windowFor 0 0xFFFFFFFF7FFFFFFF = .dls 4095 0x7FFFF ∧
    windowFor 0 0xFFFFFFFEFFFFFFFF = .mapped ∧ windowFor 0 0xFFFFFFFF80000000 = .mapped ∧ windowFor 0 0xFFFFFFFFFFF7FFFF = .mapped ∧
    (let s := at1 mem (ls 0x7FFFC); s.t.outcnt < 64 ∧ s.t.versioned = false ∧ (s.ea ldO).toNat % 4 = 0 ∧
      windowFor s.t.sched.core (s.ea ldO) = .ls 0x7FFFC) := by decide +kernel

-- TranslationTouchesOnlyItsEntry: a held translation, and a walk
theorem test_hyps_translation : (mem.tlbLookup 0 0 0x1008).isSome = true ∧ (mem.tlbLookup 0 0 0x9000).isSome = false ∧
    (match (mem.translate 0 0 (mem.t.asks .load true false) 0x1008).1 with
      | .ok pa _ => pa == 0x1008
      | _ => false) = true ∧ mem.mem.page = [] := by decide +kernel

-- a store of a whole register to local store is read back by a load that lands later
theorem test_st_local : let s := out (exec (.st ldO) (g (at1 mem (ls 16)) 3 0xDEADBEEF))
    s.lsRead 0 16 4 = 0xDEADBEEF ∧ s.lsRead 0 20 1 = 0 ∧
    (out (exec (.ld ldO) s)).t.long.map (fun l => match l.act with
      | .load _ _ _ _ [p] => p.data
      | _ => none) = [some 0xDEADBEEF] := by decide +kernel

-- R225: a store of a plain task to a page stays unresolved; no byte of memory changes yet
theorem test_st_memory : let s := out (exec (.st ldO) (g (at1 mem 0x100) 3 0x01020304))
    s.t.stores.map (fun x => (x.va.toNat, x.data.map BitVec.toNat)) = [(0x100, [4, 3, 2, 1])] ∧ s.byteAt 0x100 = 0 ∧
    (let t := out (exec (.storeResolve 1 0) s)
     (t.t.stores.length, (t.coreRead 0 .core false true 0x100).1.toNat % 2 ^ 32)) = (0, 0x01020304) := by decide +kernel

-- StoresComplete, LineStoresComplete, ScatterStoresComplete
theorem test_hyps_stores : ([.st ldO, .stv ldvO, .stg ldgO] : List Instr).all (fun i => runs (at1 mem 2) i && runs (at1 mem (ls 0)) i) = true ∧
    isForeign 0 (BitVec.ofNat 64 (far 0)) = true ∧
    (let s := (at1 mem 0x100).onT fun t => { t with versioned := true }
     match s.reach s.t (s.t.asks .store true true) (s.ea ldO) 4 with
      | (.ok pa _, f) => !f.t.clash f.ops 0x100 4 && spaceOf pa == .dram && !f.t.versionFull [pa]
      | _ => false) = true ∧
    (let s := (at1 mem (ls 8)).onT fun t => { t with versioned := true, scratch := [(0, 1)] }
     !s.t.scratch.isEmpty && !s.t.scratchFull 8 4) = true ∧
    (lineUnits 0x100 32).all (fun u => !isForeign 0 u.1) = true ∧ windowFor 0 (BitVec.ofNat 64 (ls 0x7FFC0)) = .ls 0x7FFC0 := by
  decide +kernel

theorem test_stv_stg : (out (exec (.stv ldvO) (put (at1 mem (ls 0x7FFC0)) (.v 3) 0x0807060504030201))).lsRead 0 0x7FFC0 8 = 0x0807060504030201 ∧
    (let s := put (put (at1 mem (ls 0)) (.v 2) (ofLanes 32 [64, 128])) (.v 3) (ofLanes 32 [5, 6])
     let t := out (exec (.stg ldgO) s)
     (t.lsRead 0 64 4, t.lsRead 0 128 4)) = (5, 6) := by decide +kernel

-- FullEmptyLoadsIssue, FullEmptyStoresComplete: local store full and empty, a page with full bits and one without, not resident
theorem test_hyps_full_empty : runs mem (.ldf lfO) = true ∧ runs mem (.ldft ftO) = true ∧ runs mem (.stf lfO) = true ∧ runs mem (.clrf clrO) = true ∧
    mem.t.outcnt < 64 ∧ mem.t.isMessage = false ∧ reached (at1 mem 0x1000) ftO false = 1 ∧ reached (at1 mem 0) ftO false = 0 ∧
    reached (at1 mem 0x2000) ftO false = 256 ∧ reached (at1 mem 0x9000) ftO false = 0x10 ∧ reached (at1 mem 0x1FF8) ftO true = 1 ∧
    reached (at1 mem 0x5000) ftO true = 0x11 ∧ mem.lsIsFull 0 0 = false := by decide +kernel

-- R162: stf to local store sets the full bit, ldft then reads it with pS true, clrf empties it, and ldft gives zero and false
theorem test_full_empty_local : let s := out (exec (.stf lfO) (g (at1 mem (ls 8)) 3 77))
    let t := out (exec (.clrf clrO) s)
    s.lsIsFull 0 8 = true ∧ s.lsIsFull 0 16 = false ∧ t.lsIsFull 0 8 = false ∧
    (out (exec (.ldft ftO) s)).t.long.map LongOp.vals = [[77, 1]] ∧ (out (exec (.ldft ftO) t)).t.long.map LongOp.vals = [[0, 0]] ∧
    (trap (at1 mem 0) (.ldf lfO)).1 = 0x15 := by decide +kernel

theorem test_pf : (out (exec (.pf (M .zero 0 (.g 1) .zero .core none 0)) (at1 mem 0x9000))).t.pc = 1 := by decide +kernel

/-! ### Hypotheses that can be met, and results: guard slots, copies, tags, fences, maintenance -/

namespace Tests

def ver (s : State) : State := s.onT fun t => { t with versioned := true }
/-- The task is a declared message handler. -/
def msg (s : State) : State := s.onT fun t => { t with handler := true }
def slot3 (v : SlotState) : State := base.onT fun t => { t with attach := some 3, slots := [(3, v)] }
def busyTag (s : State) (tag : Nat) : State := s.onT fun t => { t with tagCount := [(tag, 255)] }

def copyO : OpE := E .zero .core 0 (.g 1) (.g 2) (.g 4) none 0 7
/-- A copy of g4 bytes. -/
def copy (dst src n : Nat) : State := g (g (g mem 1 dst) 2 src) 4 n

/-- The copyx descriptor at local-store offset 64: row bytes, rows, source stride, destination stride, arrival. -/
def descAt (s : State) (rowb rows sstr dstr arr : Nat) : State :=
  g (s.lsWrite 0 64 (Claim.bytes (BitVec.ofNat 512 (rowb + rows * 2 ^ 32 + sstr * 2 ^ 64 + dstr * 2 ^ 128 + arr * 2 ^ 192)) 0 32))
    4 (ls 64)

def aLoad : LongOp := { op := 0, pc := 0, dsts := [.g 9], vals := [], act := .load .i64 false .core true [], since := 0 }
def aStore : Store := { op := 0, kind := .plain, va := 0x100, pc := 0, lane := 0, data := [1], scope := .core, dist := 0 }

end Tests

-- CommandsFollowTheirSlots, clause by clause (R147)
theorem test_hyps_slots : Claim.fate (slot3 .no) 0 = .drop ∧ Claim.fate (slot3 .opened) 0 = .wait ∧ Claim.fate (slot3 .yes) 0 = .go ∧
    Claim.fate base 0 = .go ∧ runs base (.gslot (E .zero .core 0 .zero .zero .zero none 0 0)) = true ∧
    runs base (.gset (E .zero .core 0 .zero (.p 0) .zero none 0 15)) = true ∧ base.t.held = [] := by decide +kernel

theorem test_gslot_gset : let s := out (exec (.gslot (E .zero .core 0 .zero .zero .zero none 0 15)) base)
    let t := out (exec (.gset (E .zero .core 0 .zero (.p 0) .zero none 0 15)) s)
    s.t.attach = some 15 ∧ s.t.slots.get .free 15 = .opened ∧ t.t.slots.get .free 15 = .yes ∧
    (out (exec (.gslot (E .zero .core 0 .zero .zero .zero none 0 16)) s)).t.attach = none := by decide +kernel

-- R147: a copy under an open slot is held, and goes when the slot resolves true
theorem test_held_copy : let s := out (exec (.gslot (E .zero .core 0 .zero .zero .zero none 0 3)) (copy 0x100 0x200 64))
    let t := out (exec (.copy copyO) s)
    let u (p : Fin 16) := out (exec (.gset (E .zero .core 0 .zero (.p p) .zero none 0 3)) t)
    (t.t.held.length, (t.core 0).copies.length, t.t.tagCount.get 0 7) = (1, 0, 1) ∧
    ((u 0).t.held.length, ((u 0).core 0).copies.length, (u 0).t.tagCount.get 0 7) = (0, 1, 1) ∧
    ((u 1).t.held.length, ((u 1).core 0).copies.length, (u 1).t.tagCount.get 0 7) = (0, 0, 0) := by decide +kernel

-- CopiesIssue: foreign on either side, overlapping and just not, an arrival of a versioned task, a full tag, no bytes
theorem test_hyps_copies : let f (s : State) : Bool × Nat := (runs s (.copy copyO), (trap s (.copy copyO)).1)
    f (copy (far 0) 0 64) = (true, 0x14) ∧ f (copy 0 (far 0) 64) = (true, 0x14) ∧ f (copy 0x100 0x13F 64) = (true, 0x50) ∧
    f (copy 0x100 0x140 64) = (true, 0) ∧
    (out (exec (.copy copyO) (copy 0x100 0x140 64))).t.regs.pend = 0 ∧
    ((out (exec (.copy copyO) (copy 0x100 0x140 64))).core 0).copies.map (fun c => (c.dst.toNat, c.src.toNat, c.rowBytes, c.rows, c.tag)) =
      [(0x100, 0x140, 64, 1, 7)] ∧
    (out (exec (.copy copyO) (busyTag (copy 0x100 0x200 64) 7))).t.sched.heldAt = some 0 ∧
    (out (exec (.copy copyO) (copy 0x100 0x200 0))).t.sys.tags.getLsbD 7 = true := by decide +kernel

theorem test_hyps_copyx : let i : Instr := .copyx copyO
    let s := descAt (copy 0x100 0x1000 0) 16 2 64 32 0
    runs s i = true ∧ (Claim.copyOf s i).isSome = true ∧
    (let t := (out (exec i s)).core 0
     t.copies.map fun c => (c.rowBytes, c.rows, c.srcStride.toNat, c.dstStride.toNat, c.arrive)) = [(16, 2, 64, 32, none)] ∧
    (trap (ver (descAt (copy 0x100 0x1000 0) 16 2 64 32 0x1FF)) i).1 = 0x0C ∧
    ((out (exec i (descAt (copy 0x100 0x1000 0) 16 2 64 32 0x1FF))).core 0).copies.map Copy.arrive = [some 255] ∧
    Claim.copyOf (descAt (copy 0x100 0x1000 0) 16 2 64 32 0x200) i = none ∧
    (trap (descAt (copy 0x100 0x1000 0) 16 2 64 32 0x200) i).1 = 0x52 ∧ (trap (copy 0x100 0x1000 64) i).1 = 0x52 := by decide +kernel

-- TagsAndTheirWaitsComplete (R168): the mask in g2; met and not met, with a fault recorded, in a message handler
theorem test_hyps_tags : let o : OpA := A (.g 3) .zero (.g 2) .zero none 0
    let s (tags mask : Nat) : State := (g base 2 mask).onT fun t => { t with sys := { t.sys with tags := BitVec.ofNat 64 tags } }
    runs (s 0 0) (.wany o) = true ∧ runs (s 0 0) (.wall o) = true ∧ runs (s 0 0) (.ffr o) = true ∧ runs (s 0 0) (.tagclr (A .zero .zero (.g 2) .zero none 0)) = true ∧
    r3 (s 5 6) (.wany o) = 4 ∧ r3 (s 7 6) (.wall o) = 6 ∧ (out (exec (.wall o) (s 5 6))).t.sched.status = .parked ∧
    (out (exec (.wany o) (s 8 6))).t.sched.status = .parked ∧ (trap (msg (s 7 6)) (.wall o)).1 = 0x63 ∧
    r3 (s 0x8000000000000000 0x8000000000000000) (.ffr o) = 63 ∧ r3 (s 1 2) (.ffr o) = 64 ∧
    (out (exec (.tagclr (A .zero .zero (.g 2) .zero none 0)) (s 7 2))).t.sys.tags = 5 ∧
    (let t := (s 7 6).onT fun t => { t with copyFaults := [(1, { va := 0x9000, cause := 0x10 })] }
     (t.t.faultIn 6).isSome = true ∧ (trap t (.wall o)).1 = 0x51 ∧ (out (exec (.wall o) t)).t.copyFaults = []) ∧
    (let t := (s 7 6).onT fun t => { t with copyFaults := [(1, { va := 0x9000, cause := 0x60 })] }
     (trap t (.ffr o)).1 = 0x60) := by decide +kernel

-- FencesComplete: nothing outstanding, a load, a store, at both ends of the scopes
theorem test_hyps_fences : let o (c : Scope) : OpM := M .zero 0 .zero .zero c none 0
    let ld := base.onT fun t => { t with long := [aLoad] }
    let st := { base.onT (fun t => { t with stores := [aStore] }) with ops := 1 }
    ([.fenceR (o .core), .fenceW (o .system), .fenceRw (o .device), .fenceB (o .core)] : List Instr).all (runs base) = true ∧
    base.t.loadsOut = false ∧ ld.t.loadsOut = true ∧ (Claim.pushed base .system).writesOut base.cur .system base.ops = false ∧
    (Claim.pushed st .core).writesOut st.cur .core st.ops = true ∧ base.t.commitOut = false ∧
    (out (exec (.fenceR (o .core)) ld)).t.sched.heldAt = some 0 ∧ (out (exec (.fenceW (o .core)) st)).t.sched.heldAt = some 0 ∧
    (out (exec (.fenceRw (o .device)) base)).t.pc = 1 ∧ (out (exec (.fenceB (o .core)) st)).t.sched.heldAt = some 0 := by decide +kernel

-- MaintenanceCompletes: length 0, a range in one page, in local store, at a fault, not resident, with a store waiting
theorem test_hyps_maintenance : let o : OpE := E .zero .core 0 (.g 1) (.g 2) .zero none 0 0
    let s (a n : Nat) : State := g (g mem 1 a) 2 n
    let all : List Instr := [.cleanR o, .invR o, .flushR o]
    all.all (runs (s 0 0)) = true ∧ all.all (fun i => (Claim.maintenance i).isSome) = true ∧
    all.all (fun i => (out (exec i (s 0 0))).t.pc == 1) = true ∧
    all.all (fun i => (out (exec i (s 0xFC0 64))).t.pc == 1) = true ∧ all.all (fun i => (trap (s 0x9000 8) i).1 == 0x10) = true ∧
    all.all (fun i => (out (exec i (s 0x2000 8))).t.pc == 1) = true ∧ all.all (fun i => (out (exec i (s (ls 0) 8))).t.pc == 1) = true ∧
    (trap (s 0x5000 8) (.invR o)).1 = 0x11 ∧ (trap (s 0x5000 8) (.cleanR o)).1 = 0 ∧ windowOf (BitVec.ofNat 64 (ls 0)) ≠ .mapped ∧
    all.all (fun i => (out (exec i ((s 0 8).onT fun t => { t with stores := [aStore] }))).t.sched.heldAt == some 0) = true ∧
    mem.t.bankOut = false ∧ mem.t.stores = [] ∧ mem.pageState 0 = .unowned ∧ mem.heldLine 0 = false := by decide +kernel

/-! ### Hypotheses that can be met, and results: offers, guards, seals -/

namespace Tests

def offO : OpE := E (.g 3) .core 1 (.g 1) (.g 2) .zero (some .i64) 2 0
/-- An offer at an address, with operands b and c. -/
def off (va b c : Nat) : State := g (g (at1 mem va) 2 b) 4 c

/-- The reply kind, the trap cause in it, and r1, of a long op that is ready; kind 9 where the offer travels. -/
def reply (t : State) : List (Nat × Nat × Nat) := t.t.long.map fun l =>
  match l.act with
  | .ready _ => (field (l.vals.getD 1 0).toNat 1 0, field (l.vals.getD 1 0).toNat 15 8, (l.vals.headD 0).toNat)
  | _ => (9, 0, 0)

def cmtO : OpE := E (.g 12) .core 1 (.g 1) (.g 2) .zero (some .i64) 2 0

def grdO : OpM := M (.g 3) 0 (.g 1) .zero .core none 0
def rlsO : OpM := M .zero 0 (.g 1) .zero .core none 0
def sealO : OpE := E .zero .core 0 (.g 1) (.g 2) (.g 4) none 0 0

end Tests

-- OffersIssue: off its size; versioned; own local store; another core's; a page that faults, is not resident, is in DRAM
theorem test_hyps_offers : let i : Instr := .oadd offO
    (Claim.offerOf (off 0 5 0) i).isSome = true ∧ runs (off 0 5 0) i = true ∧ (trap (off 4 5 0) i).1 = 0x0A ∧
    reply (out (exec i (off (ls 0x7FFF8) 5 0))) = [(0, 0, 0)] ∧ (out (exec i (off (ls 0x7FFF8) 5 0))).lsRead 0 0x7FFF8 8 = 5 ∧
    reply (out (exec i (off (far 8) 5 0))) = [(9, 0, 0)] ∧ mem.ownerFault 0 1 = none ∧
    (let s := (off (far 8) 5 0).onCore 1 fun c => { c with withdrawn := true }
     s.ownerFault 0 1 = some 0x2E ∧ (trap s i).1 = 0x2E) ∧
    (trap (off 0x9000 5 0) i).1 = 0x10 ∧ reply (out (exec i (off 0x2000 5 0))) = [(1, 0, 0)] ∧
    reply (out (exec i (off 0 5 0))) = [(9, 0, 0)] ∧ (trap (ver (off 0 5 0)) i).1 = 0x0C := by decide +kernel

theorem test_hyps_offers_nt : let i : Instr := .oaddNt offO
    (Claim.offerOf (off 0 5 0) i).isSome = true ∧ runs (off 0 5 0) i = true ∧
    (reply (out (exec i (off 0x9000 5 0)))).map (fun x => (x.1, x.2.1)) = [(2, 0x10)] ∧
    (reply (out (exec i (off 0x5000 5 0)))).map (fun x => (x.1, x.2.1)) = [(2, 0x11)] := by decide +kernel

theorem test_hyps_commit : let i : Instr := .ocmt cmtO
    runs (off 0 5 0) i = true ∧ (Claim.offerOf (off 0 5 0) i).any Claim.Offered.commit = true ∧ (trap (ver (off 0 5 0)) i).1 = 0x0C ∧
    reply (out (exec i (off 0 5 0))) = [(9, 0, 0)] := by decide +kernel

-- R174, by hand: an add that wraps, a signed and an unsigned minimum, a compare and swap that fails, a float sum
theorem test_offer_values : offerValue .add .i8 0x7F 1 0 = (0x80, 0) ∧ offerValue .min .i8 0x80 1 0 = (0x80, 0) ∧
    offerValue .min .n8 0x80 1 0 = (1, 0) ∧ offerValue .max .n8 0x80 1 0 = (0x80, 0) ∧ offerValue .cas .n32 5 6 7 = (5, 0) ∧
    offerValue .cas .n32 5 5 7 = (7, 0) ∧ offerValue .swp .n32 5 6 7 = (6, 0) ∧
    offerValue .fadd .f32 0x3F800000 0x40000000 0 = (0x40400000, 0) := by decide +kernel

-- R176: the reply word's fields at their highest values
theorem test_reply_word : (({ kind := 3, reason := 63, cause := 255, stamp := 65535, fl := 127, chain := 3 } : Reply).word).toNat =
    0x37FFFFFFFFF := by decide +kernel

-- AbandonRemovesItsEntry: mapped, in local store, at a fault
theorem test_hyps_abandon : let i : Instr := .oabn (E .zero .core 0 (.g 1) (.g 2) .zero none 0 0)
    let s := (off 0x100 (7 * 2 ^ 16) 0).onMem fun m =>
      { m with decl := [((mem.declKey 0x100), { entries := [{ address := 0x100, ty := some .i64, stamp := 7, tid := 1, written := false, lease := none }] })] }
    runs s i = true ∧ (out (exec i s)).mem.decl.all (fun e => e.2.entries == []) = true ∧ (trap (ver s) i).1 = 0x0C ∧
    (out (exec i (at1 s (ls 0)))).mem.decl = s.mem.decl ∧ (trap (at1 s 0x9000) i).1 = 0x10 := by decide +kernel

-- AcquiresQueueAtHome: off the line, in local store, at a fault, not resident, granted or refused at issue
theorem test_hyps_acquire : let i : Instr := .acq grdO
    runs (at1 mem 0x40) i = true ∧ runs (at1 mem 0x40) (.acqs grdO) = true ∧ (trap (at1 mem 0x44) i).1 = 0x0A ∧
    (trap (at1 mem (ls 0)) i).1 = 0x64 ∧ (trap (at1 mem 0x9000) i).1 = 0x10 ∧ (trap (ver (at1 mem 0x40)) i).1 = 0x0C ∧
    (trap (msg (at1 mem 0x40)) i).1 = 0x63 ∧ (out (exec i (at1 mem 0x2000))).t.sched.status = .suspended ∧
    (match (mem.reach mem.t (mem.t.asks .offer true true) 0x40 8).1 with
      | .ok pa _ => spaceOf pa == .dram && pa == 0x40
      | _ => false) = true ∧
    (out (exec i (at1 mem 0x40))).mem.guards.map (fun e => (e.1, e.2.length)) = [(0x40, 1)] := by decide +kernel

-- ReleaseGivesUpTheGuard: a writer, the wrong writer, a reader, nobody
theorem test_hyps_release : let gd (w : Bool) (holder : BitVec 56) (rdrs : Nat) : Guard := { w := w, rdrs := rdrs, phase := 0, holder := holder }
    (gd true 1 0).release 1 = some { gd false 0 0 with phase := 1 } ∧ (gd true 5 0).release 1 = none ∧
    (gd false 0 1).release 1 = some (gd false 0 0) ∧ (gd false 0 0).release 1 = none ∧
    runs (at1 mem 0x40) (.rls rlsO) = true ∧ (trap (at1 mem 0x40) (.rls rlsO)).1 = 0x64 ∧
    (let s := (at1 mem 0x40).guardWrite 0x40 (gd false 0 1)
     let t := out (exec (.rls rlsO) s)
     t.t.pc = 1 ∧ (t.guardRead none 0x40).1 = gd false 0 0) ∧
    (let s := (at1 mem 0x40).guardWrite 0x40 (gd true 1 0)
     let t := out (exec (.rls rlsO) s)
     t.t.pc = 1 ∧ (t.guardRead none 0x40).1 = { gd false 0 0 with phase := 1 }) := by decide +kernel

-- SealSealsItsPages: a bad base, no pages, one page sealed under 9, a page that cannot be written, one that is not resident
theorem test_hyps_seal : let s (a n v : Nat) : State := g (g (at1 mem a) 2 n) 4 v
    runs (s 0 0 0) (.sealR sealO) = true ∧ (trap (s 8 4096 9) (.sealR sealO)).1 = 0x0A ∧ (trap (s 0 8 9) (.sealR sealO)).1 = 0x0A ∧
    (trap (ver (s 0 4096 9)) (.sealR sealO)).1 = 0x0C ∧ (trap (s 0x5000 4096 9) (.sealR sealO)).1 = 0x11 ∧
    (out (exec (.sealR sealO) (s 0x2000 4096 9))).t.sched.status = .suspended ∧
    (out (exec (.sealR sealO) (s 0 0 9))).t.pc = 1 ∧ (out (exec (.sealR sealO) (s 0 4096 9))).mem.page = [(0, .sealed 9)] ∧
    (out (exec (.sealR sealO) (s 0 4096 0))).mem.page = [(0, .shared)] ∧
    (out (exec (.sealR sealO) ((s 0 4096 9).onT fun t => { t with stores := [aStore] }))).t.sched.heldAt = some 0 := by decide +kernel

/-! ### Hypotheses that can be met, and results: barriers, messages, delegation, sequences -/

namespace Tests

/-- A launch with group 0 of cores 0 and 1 and actor 0, which has an input FIFO of capacity 2 and an output FIFO of rate 1. -/
def fifoIn (n : Nat) : Fifo :=
  { rate := 1, cap := 2, off := 0x1000, items := List.replicate n { data := 9, scope := .core, sender := 5 } }
def fifoOut (n : Nat) : Fifo :=
  { rate := 1, cap := 2, off := 0x2000, reserved := 1, made := List.replicate n { data := 9, scope := .core, sender := 5 } }
def act0 (n m : Nat) : Actor :=
  { routine := 0, team := 0, task := 0, prio := 0, handler := false, image := 0, ins := [fifoIn n], outs := [fifoOut m], state := .placed,
    core := 0, firing := true }
def launch0 (n m : Nat) : Launch :=
  { phase := .running, teams := [(0, { die := some 0, cores := [(0, 0), (1, 1)], live := 2 })], groups := [{ members := [(0, 0), (0, 1)] }],
    actors := [(0, act0 n m)] }
def world (n m : Nat) : State :=
  let s := { mem with launches := [(0, launch0 n m)] }
  s.onT fun t => { t with kind := .firing 0, sys := { t.sys with grps := 2 ^ 32 } }

def barvO : OpE := E (.g 3) .core 0 .zero .zero .zero none 0 0
def bwaitO : OpE := E .zero .core 0 (.g 1) .zero .zero none 0 0
def btestO : OpE := E .zero .core 1 (.g 1) .zero .zero none 0 0
def sendO : OpE := E .zero .core 0 (.g 1) (.v 2) .zero none 0 0
def sendtO : OpE := E (.g 3) .core 1 (.g 1) (.v 2) .zero none 0 0
def recvO (f : Nat) : OpE := E (.v 3) .core 0 .zero (.g 2) .zero none 0 f
def delO : OpE := E (.g 3) .core 1 (.g 1) (.g 2) (.g 4) none 2 0

def aReq : Request :=
  { task := 9, tid := 9, core := 2, launch := 0, op := none, tag := none, address := 0, routine := 0, args := [], scope := .core }

/-- The kinds of the long ops outstanding: whether they are ready, and their values. -/
def longs (t : State) : List (Bool × List Nat) := t.t.long.map fun l =>
  (match l.act with
    | .ready _ => true
    | _ => false, l.vals.map BitVec.toNat)

def parked (t : State) : Option Wait := if t.t.sched.status = .parked then t.t.sched.wait else none
def held (t : State) : Bool := t.t.sched.heldAt == some t.evs

end Tests

-- BarrierInstructionsComplete, `barv`: no group, not in it, versioned, an arrival, 256 arrivals
theorem test_hyps_barv : let i (n : Nat) : Instr := .barv { barvO with imm := BitVec.ofNat 28 n }
    let s := world 0 0
    runs s (i 0) = true ∧ (trap s (i 1)).1 = 0x65 ∧ (trap (s.onT fun t => { t with sys := { t.sys with grps := 0 } }) (i 0)).1 = 0x60 ∧
    (trap (ver s) (i 0)).1 = 0x0C ∧ s.t.live = true ∧ s.t.long = [] ∧ longs (out (exec (i 0) s)) = [(false, [0])] ∧
    ((out (exec (i 0) s)).group? 0 0).map (fun g => (g.c, g.a)) = some (0, [(0, 1)]) ∧
    (let t := s.onLaunch 0 fun l => { l with groups := [{ members := [(0, 0), (0, 1)], a := [(0, 256)] }] }
     longs (out (exec (i 0) t)) = [(false, [])]) ∧
    (let t := s.onLaunch 0 fun l => { l with groups := [{ members := [(0, 0), (0, 1)], c := 65535, a := [(1, 1)] }] }
     ((out (exec (i 0) t)).group? 0 0).map (fun g => (g.c, g.a)) = some (0, [])) := by decide +kernel

-- `bwait`, `btest`, `grpq`: tokens before and after their phase, bits above 23, a group that is not there
theorem test_hyps_tokens : let s := world 0 0
    let c1 := s.onLaunch 0 fun l => { l with groups := [{ members := [(0, 0), (0, 1)], c := 1 }] }
    runs s (.bwait bwaitO) = true ∧ runs s (.btest btestO) = true ∧ parked (out (exec (.bwait bwaitO) (at1 s 0))) = some (.token 0) ∧
    (out (exec (.bwait bwaitO) (at1 c1 0))).t.pc = 1 ∧ held (out (exec (.bwait bwaitO) ((at1 c1 0).onT fun t => { t with long := [aLoad] }))) = true ∧
    parked (out (exec (.bwait bwaitO) (at1 c1 1))) = some (.token 1) ∧ (trap (at1 s (2 ^ 24)) (.bwait bwaitO)).1 = 0x61 ∧
    (trap (at1 s (2 ^ 24)) (.btest btestO)).1 = 0x61 ∧ (trap (at1 s (2 ^ 16)) (.btest btestO)).1 = 0x65 ∧
    (trap (msg (at1 s 0)) (.bwait bwaitO)).1 = 0x63 ∧ longs (out (exec (.btest btestO) (at1 s 0))) = [(false, [])] ∧
    longs (out (exec (.grpq (E (.g 3) .core 0 .zero .zero .zero none 0 0)) s)) = [(false, [])] ∧
    (trap s (.grpq (E (.g 3) .core 0 .zero .zero .zero none 0 1))).1 = 0x65 := by decide +kernel

-- SendsComplete: to an output FIFO with and without room, to an input FIFO with and without room, a bad handle
theorem test_hyps_sends : let h := 2 ^ 24
    let v (t : State) : Option (Nat × Nat) := (t.actor? 0 0).map fun y => (((y.ins[0]?).map fun q => q.items.length).getD 9, ((y.outs[0]?).map fun q => q.made.length).getD 9)
    runs (world 0 0) (.send sendO) = true ∧ runs (world 0 0) (.sendt sendtO) = true ∧
    v (out (exec (.send sendO) (at1 (world 0 0) h))) = some (0, 1) ∧ (trap (at1 (world 0 1) h) (.send sendO)).1 = 0x67 ∧
    v (out (exec (.send sendO) (at1 (world 0 0) 0))) = some (1, 0) ∧ parked (out (exec (.send sendO) (at1 (world 2 0) 0))) = some (.room 0 0 0) ∧
    (trap (at1 (world 0 0) 1) (.send sendO)).1 = 0x67 ∧ (trap (at1 (world 0 0) 8) (.sendt sendtO)).1 = 0x67 ∧
    longs (out (exec (.sendt sendtO) (at1 (world 0 0) h))) = [(true, [0, 1])] ∧ longs (out (exec (.sendt sendtO) (at1 (world 2 0) 0))) = [(false, [])] ∧
    (trap (ver (at1 (world 0 0) 0)) (.send sendO)).1 = 0x0C ∧ (trap (msg (at1 (world 0 0) 0)) (.send sendO)).1 = 0x63 ∧
    (trap (ver (at1 (world 0 0) 0)) (.sendt sendtO)).1 = 0x0C ∧
    (let s := (world 0 0).onActor 0 0 fun y => { y with state := .exited }
     (trap (at1 s 0) (.send sendO)).1 = 0x62) := by decide +kernel

-- ReceivesComplete: an item, none, an index at the capacity and below it, no such FIFO
theorem test_hyps_receives : let i : Instr := .recv (recvO 0)
    let j : Instr := .recvt { recvO 0 with pE := 1 }
    runs (world 0 0) i = true ∧ runs (world 0 0) j = true ∧ longs (out (exec i (world 1 0))) = [(false, [])] ∧
    parked (out (exec i (world 0 0))) = some (.item 0 0) ∧ longs (out (exec j (world 0 0))) = [(true, [0, 0])] ∧
    (trap (g (world 2 0) 2 2) i).1 = 0x67 ∧ longs (out (exec i (g (world 2 0) 2 1))) = [(false, [])] ∧
    (trap (world 0 0) (.recv (recvO 1))).1 = 0x67 ∧ (trap mem i).1 = 0x67 ∧ (trap (msg (world 1 0)) i).1 = 0x63 := by decide +kernel

-- DelegationCompletes: outside the window, to a core, to a withdrawn one, to a full one, `delegt` in the owner's own server
theorem test_hyps_delegation : let i : Instr := .deleg delO
    let j : Instr := .delegt delO
    let full (s : State) : State := s.onCore 1 fun c => { c with requests := List.replicate 32 aReq }
    let s := at1 mem (far 0)
    runs s i = true ∧ runs s j = true ∧ (trap (at1 mem 0) i).1 = 0x66 ∧ (trap (at1 mem (ls 0)) j).1 = 0x66 ∧ (trap (ver s) i).1 = 0x0C ∧
    (trap (msg s) i).1 = 0x63 ∧ (trap (msg s) j).1 = 0 ∧
    (let t := out (exec i s)
     (longs t, (t.core 1).requests.length)) = ([(false, [])], 1) ∧
    (let t := out (exec i (full s))
     (longs t, (t.core 1).requests.length, (t.core 1).waiting.length)) = ([(false, [])], 32, 1) ∧
    longs (out (exec j (full s))) = [(true, [0, 1, 0, 1])] ∧
    (trap (s.onCore 1 fun c => { c with withdrawn := true }) i).1 = 0x2E ∧
    (let u := (at1 mem 0xFFFFFFFF00000000).onT fun t => { t with kind := .delegated }
     u.t.serves 0 = true ∧ longs (out (exec j u)) = [(true, [0, 1, 0, 1])]) := by decide +kernel

def Tests.served : State := (g base 2 77).onT fun t =>
  { t with kind := .delegated, request := some { task := 2, tid := 2, core := 0, launch := 0, op := some 5, tag := none, address := 0,
                                                  routine := 0, args := [], scope := .core } }

-- `dret` outside a server task, and in one, which is answered
theorem test_hyps_dret : let i : Instr := .dret (E .zero .core 0 .zero (.g 2) .zero none 0 0)
    (trap base i).1 = 1 ∧ runs served i = true ∧ Claim.Clean served false ∧ (out (exec i served)).t.sched.status = .retired := by
  refine ⟨?_, ?_, ?clean, ?_⟩
  case clean =>
    constructor
    case tile =>
      have none : served.t.sched.doneQueue.getD (served.ownQueue served.cur served.t.sched.core) = [] := by decide +kernel
      simp [none]
    all_goals decide +kernel
  all_goals decide +kernel

-- RptStartsItsSequence: a sequence runs, counts of 65536 and above, none, an instruction that no sequence holds
theorem test_hyps_rpt : let i : Instr := .rpt (E .zero .core 0 (.g 1) .zero .zero none 0 1)
    let v : Nat := ((encode (.vadd (A (.v 3) (.v 1) (.v 2) .zero (some .i32) 0))).getD 0).toNat
    let s (n : Nat) := at1 (withLine (mkLine 0 0 [0, v])) n
    runs (s 3) i = true ∧ (s 3).t.seq.act = false ∧ (trap (s 65537) i).1 = 0x0B ∧
    (let t := (out (exec i (s 65536))).t
     (t.pc, t.seq.act, t.seq.k, t.seq.n, t.seq.ins.length)) = (2, true, 1, 65536, 1) ∧
    ((out (exec i (s 0))).t.pc, (out (exec i (s 0))).t.seq.act) = (2, false) ∧
    held (out (exec i ((s 3).onT fun t => { t with seq := { t.seq with act := true } }))) = true ∧
    (trap (at1 (withLine (mkLine 0 0 [0, Tests.addWord'])) 3) i).1 = 0x0B := by decide +kernel

/-! ### Hypotheses that can be met, and results: edge programs, deques, index jobs, matrix and bank instructions -/

namespace Tests

/-- A running set of cluster 0 over 5 vertices with COMB 0, whose one job runs the task in focus. -/
def set0 : VetchSet :=
  { graph := 0, launch := 0, core := 0, root := 0, part := 0, prio := 0, rounds := 1, record := 0, arr := none, grp := 0, clusters := [0],
    desc := 5, jobs := [{ s := 1, d := 2, val := 0, vval := 0, dval := 0, phase := 1, task := some 1 }] }
def edge : State := ({ mem with clusters := [(0, { vetch := some set0 })] }).onT fun t => { t with kind := .edge 0 false }

def ecmdO : OpE := E (.g 3) .core 1 (.g 1) (.g 2) .zero none 0 0
def ecombO (imm : Nat) : OpE := E .zero .core 0 .zero (.g 2) .zero (some .n64) 0 imm
def eactO (imm : Nat) : OpE := E .zero .core 0 (.g 1) .zero .zero none 0 imm

def dq (xs : List (Nat × Nat)) : State := base.onCore 0 fun c =>
  { c with deque := xs.map fun x => (BitVec.ofNat 64 x.1, BitVec.ofNat 64 x.2), dequeOwner := some 0 }
/-- The deque of core 0, g3, g4 and p1 after an instruction. -/
def popped (s : State) (i : Instr) : List (Nat × Nat) × Nat × Nat × Bool :=
  let t := out (exec i s)
  ((t.core 0).deque.map (fun x => (x.1.toNat, x.2.toNat)), (t.t.regs.rg 3).toNat, (t.t.regs.rg 4).toNat, t.t.regs.rp 1)

/-- A job record at local-store offset 64: four elements of 4 bytes, written with STATE. -/
def job (s : State) (state : Nat) : State :=
  g (s.lsWrite 0 64 (Claim.bytes (BitVec.ofNat 512
    (0x1000 + 4 * 2 ^ 64 + 100 * 2 ^ 96 + 0x200 * 2 ^ 128 + 0x300 * 2 ^ 160 + (2 * 2 ^ 24 + state * 2 ^ 16) * 2 ^ 224)) 0 64)) 2 (ls 64)

/-- Core 0's matrix unit with a capability of every right, and core 0's and 1's in g1. -/
def mx : State := mem.onUnitM 0 fun u => { u with caps := [{ key := 5, read := true, stream := true, load := true, launch := 0 }] }
def cap (core : Nat) : Nat := core * 2 ^ 52 + 7 * 2 ^ 48 + 5
/-- A tile descriptor at local-store offset 64: types i8, KS 32, N 64, this M, accumulators at 0x10000, saved at 0. -/
def tileAt (s : State) (m : Nat) : State :=
  g (s.lsWrite 0 64 (Claim.bytes (BitVec.ofNat 512 (m * 2 ^ 8 + Ty.code .i8 * 2 ^ 27 + Ty.code .i8 * 2 ^ 22 + 0x10000 * 2 ^ 32)) 0 32))
    2 (ls 64)
def aCmd : MCmd :=
  { maj := 0xD2, fn := 0, ty := 0, task := 1, core := 0, pc := 0, cap := 0, b := 0, c := 0, imm := 0, payload := [], op := 0 }
def full (s : State) : State := s.onCore 0 fun c => { c with outq := List.replicate 16 aCmd }
/-- What is sent from core 0: its MAJ and FN. -/
def sent (s : State) (i : Instr) : List (Nat × Nat) := ((out (exec i s)).core 0).outq.map fun c => (c.maj, c.fn)

end Tests

-- EcmdSendsItsBlock: malformed, of no unit, off its alignment, for an engine and a unit, versioned
theorem test_hyps_ecmd : let i : Instr := .ecmd ecmdO
    let s (u va : Nat) : State := g (at1 mem u) 2 va
    runs (s 0 (ls 64)) i = true ∧ (trap (s 65536 (ls 64)) i).1 = 2 ∧ (trap (s 0x1000 (ls 64)) i).1 = 2 ∧ (trap (s 256 (ls 64)) i).1 = 0x56 ∧
    (trap (s 0x4000 (ls 64)) i).1 = 0x56 ∧ (trap (s 0 0x40) i).1 = 0x56 ∧ (trap (s 0 (ls 65)) i).1 = 0x0A ∧ (trap (ver (s 0 (ls 64))) i).1 = 0x0C ∧
    longs (out (exec i (s 255 (ls 64)))) = [(false, [])] ∧ blockRefused 0 = some 1 ∧
    longs (out (exec i (s 0x8FFF (ls 0x7FFC0)))) = [(true, [0x102, 0])] := by decide +kernel

-- ActivationInstructionsComplete: outside an activation, another type, a contribution, none, a vertex below and at NV
theorem test_hyps_activation : (trap mem (.ecomb (ecombO 0))).1 = 0x5B ∧ (trap edge (.ecomb { ecombO 0 with ty := some .i64 })).1 = 0x45 ∧
    runs edge (.ecomb (ecombO 0)) = true ∧ runs edge (.eact (eactO 0)) = true ∧ edge.mySet = some (0, set0) ∧
    (let t := out (exec (.ecomb (ecombO 0)) (g edge 2 7))
     t.t.sched.status = .retired ∧ (t.vetch? 0).map (fun v => v.jobs.map EdgeJob.contribution) = some [some 7]) ∧
    ((out (exec (.ecomb (ecombO 1)) (g edge 2 7))).vetch? 0).map (fun v => v.jobs.map EdgeJob.contribution) = some [none] ∧
    (trap mem (.eact (eactO 0))).1 = 0x5B ∧ (out (exec (.eact (eactO 0)) (at1 edge 5))).t.pc = 1 ∧
    ((out (exec (.eact (eactO 1)) (at1 edge 4))).vetch? 0).map VetchSet.finishes = some [4] ∧
    (let i : Instr := .eact (E .zero .core 0 (.g 1) (.g 2) .zero none 0 0)
     (trap (ver (g mem 2 0x100)) i).1 = 0x0C ∧ (trap (g mem 2 (ls 0)) i).1 = 0x14) := by decide +kernel

-- DequeInstructionsComplete (R294 to R296): bounds, full, another launch's, empty ranges and deques, the newest range
theorem test_hyps_deques : let push : Instr := .dqpush (E .zero .core 0 .zero (.g 2) (.g 4) none 0 0)
    let pop : Instr := .dqpop (E (.g 3) .core 1 .zero .zero .zero none 0 0)
    let split : Instr := .dqsplit (E (.g 3) .core 1 .zero (.g 2) .zero none 0 0)
    let s (xs : List (Nat × Nat)) (a b : Nat) : State := g (g (dq xs) 2 a) 4 b
    (trap (s [] 2 1) push).1 = 0x59 ∧ (trap (s (List.replicate 64 (0, 1)) 1 2) push).1 = 0x58 ∧
    (trap ((s [(0, 1)] 1 2).onT fun t => { t with launch := 7 }) push).1 = 0x58 ∧ (popped (s [(0, 1)] 5 5) push).1 = [(0, 1)] ∧
    (popped (s (List.replicate 63 (0, 1)) 1 2) push).1.length = 64 ∧ popped (s [] 0 0) pop = ([], 0, 0, false) ∧
    popped (s [(0, 1), (10, 20)] 0 0) pop = ([(0, 1)], 10, 20, true) ∧ popped (s [(10, 20)] 9 0) split = ([(19, 20)], 10, 19, true) ∧
    popped (s [(10, 20)] 10 0) split = ([], 10, 20, true) ∧ popped (s [] 1 0) split = ([], 0, 0, false) ∧
    (let steal : Instr := .dqsteal (E (.g 3) .core 1 (.g 1) .zero .zero none 0 0)
     (trap (at1 base 4096) steal).1 = 2 ∧ longs (out (exec steal (at1 base 4095))) = [(false, [])]) := by decide +kernel

-- MessagesAndJobsAreSent: `amsg` in and out of the window, busy; job records that are good, misaligned, running, a full tag
theorem test_hyps_jobs : let i : Instr := .amsg (E .zero .core 0 (.g 1) (.g 2) (.g 4) none 0 7)
    let j : Instr := .gath (E .zero .core 0 .zero (.g 2) .zero none 0 7)
    let k : Instr := .scat (E .zero .core 0 .zero (.g 2) .zero none 0 7)
    let q : Instr := .ijob (E (.g 3) .core 0 .zero (.g 2) .zero none 0 0)
    let s := at1 mem (far 0)
    runs s i = true ∧ (trap (at1 mem 0) i).1 = 0x66 ∧ (trap (ver s) i).1 = 0x0C ∧ held (out (exec i (busyTag s 7))) = true ∧
    ((out (exec i s)).core 1).requests.length = 1 ∧ (out (exec i s)).t.tagCount.get 0 7 = 1 ∧
    runs (job mem 0) j = true ∧ runs (job mem 0) k = true ∧ ((out (exec j (job mem 0))).cluster 0).jobs.map (fun x => (x.n, x.limit, x.idx, x.data, x.scatter)) =
      [(4, 100, 0x200, 0x300, false)] ∧ field ((out (exec k (job mem 0))).lsRead 0 88 8) 49 48 = 1 ∧ (trap (job mem 1) j).1 = 0x5A ∧
    (trap (g (job mem 0) 2 (ls 65)) k).1 = 0x5A ∧ (trap (g mem 2 0x40) j).1 = 0x5A ∧ held (out (exec j (busyTag (job mem 0) 7))) = true ∧
    (trap (ver (job mem 0)) j).1 = 0x0C ∧ (trap (g mem 2 (ls 65)) q).1 = 0x5A ∧ longs (out (exec q (g mem 2 (ls 0x7FFC0)))) = [(false, [])] := by
  decide +kernel

-- MatrixCommandsAreSent: a capability of another core, one that matches no entry, each command, a full queue
theorem test_hyps_matrix : let z (f : OpE → Instr) (b c : Reg) (t : Option Ty) : Instr := f (E .zero .core 0 (.g 1) b c t 0 0)
    let ok := at1 mx (cap 0)
    sent ok (z .mldb (.g 2) (.g 4) none) = [(0xD1, 0)] ∧ sent ok (z .mclr .zero .zero none) = [(0xD2, 0)] ∧
    (sent ok (z .mnz (.v 2) (.g 4) (some .i8))).length = 1 ∧ (trap (at1 mx (cap 0 + 1)) (z .mclr .zero .zero none)).1 = 0x53 ∧
    (sent (at1 mx (cap 1)) (z .mclr .zero .zero none)).length = 1 ∧ held (out (exec (z .mclr .zero .zero none) (full ok))) = true ∧
    (trap (at1 mx (cap 1)) (z .msave .zero .zero none)).1 = 0x54 ∧ (sent ok (z .msave .zero .zero none)).length = 1 ∧
    (trap (g ok 2 (ls 65)) (z .mfmt (.g 2) .zero none)).1 = 0x43 ∧ (trap (tileAt ok 0) (z .mfmt (.g 2) .zero none)).1 = 0x42 ∧
    (sent (tileAt ok 1) (z .mfmt (.g 2) .zero none)).length = 1 ∧ (trap (g ok 2 4) (z .mrow (.g 2) (.g 4) (some .i8))).1 = 0x0A ∧
    (trap (g ok 2 0x7FFE8) (z .mrow (.g 2) (.g 4) (some .i8))).1 = 0x43 ∧ (sent (g ok 2 0x7FFE0) (z .mrow (.g 2) (.g 4) (some .i8))).length = 1 ∧
    (trap (g ok 2 8) (z .mrest (.g 2) .zero none)).1 = 0x54 ∧
    r3 ((world 0 0).onLaunch 0 fun l => { l with caps := [(0, 1, true, false, false)], keys := [(1, 9)] })
      (.mcap (E (.g 3) .core 0 .zero .zero .zero none 0 0)) = 2 ^ 52 + 2 ^ 50 + 9 := by decide +kernel

-- MatrixReadsAndWaitsComplete: a read; a wait that asks, waits, traps, parks and completes
theorem test_hyps_matrix_waits : let rd : Instr := .mrd (E (.v 3) .core 0 (.g 1) (.g 2) .zero (some .f32) 0 0)
    let wt (imm : Nat) : Instr := .mwait (E (.g 3) .core 1 (.g 1) (.g 2) .zero none 0 imm)
    let ok := at1 mx (cap 0)
    let asked (a : Option (Nat × Nat × Bool × BitVec 7)) : State := ok.onT fun t =>
      { t with sched := { t.sched with mquery := some { cap := BitVec.ofNat 64 (cap 0), n := 0, since := 0, answer := a } } }
    runs ok rd = true ∧ runs ok (wt 0) = true ∧ (sent ok rd).length = 1 ∧ longs (out (exec rd ok)) = [(false, [])] ∧
    held (out (exec rd (full ok))) = true ∧ (trap (msg ok) (wt 0)).1 = 0x63 ∧ (trap (msg ok) (wt 1)).1 = 0 ∧
    (out (exec (wt 0) ok)).t.sched.mquery.isSome = true ∧ held (out (exec (wt 0) (asked none))) = true ∧
    (trap (asked (some (0x44, 0, false, 0))) (wt 0)).1 = 0x44 ∧ parked (out (exec (wt 0) (asked (some (0, 3, false, 0))))) = some (.rows (BitVec.ofNat 64 (cap 0)) 0) ∧
    (r3 (asked (some (0, 3, true, 1))) (wt 0), fl (asked (some (0, 3, true, 1))) (wt 0)) = (3, 1) ∧
    (r3 (asked (some (0, 3, false, 1))) (wt 1), fl (asked (some (0, 3, false, 1))) (wt 1)) = (3, 0) ∧
    (let f := ok.onT fun t => { t with mfault := some { cause := 0x44, cap := 5, maj := 0xD2, fn := 1 } }
     (trap f (wt 0)).1 = 0x44 ∧ (out (exec (wt 0) f)).t.mfault = none) := by decide +kernel

def Tests.sorrel (x : Nat) : State :=
  let r : BankReq := { task := 9, op := 1, launch := 0, entry := 0, pa := 0x3040, pageBase := 0x3000, pageSize := 4096, b := 0, c := 0, vdst := false }
  at1 ({ base with sorrel := [(0, { running := some (r, 0) })] }.onT fun t => { t with kind := .sorrel 0 }) x

-- BankInstructionsComplete: every check of `bcall`; the first and last line of a page and those outside it; `hret`
theorem test_hyps_bank : let i : Instr := .bcall (E (.g 3) .core 1 (.g 1) (.g 2) (.g 4) none 2 0)
    let row : Instr := .hrow (E (.v 3) .core 0 (.g 1) .zero .zero none 0 0)
    let wr : Instr := .hwr (E .zero .core 0 (.g 1) (.v 2) .zero none 0 0)
    runs (at1 mem 0x3000) i = true ∧ (trap (at1 mem 0x3001) i).1 = 0x0A ∧ (trap (ver (at1 mem 0x3000)) i).1 = 0x0C ∧
    (trap (at1 mem (ls 0)) i).1 = 0x1C ∧ (trap (at1 mem 0) i).1 = 0x1C ∧ (trap (at1 mem 0x2000) i).1 = 0x1C ∧
    longs (out (exec i (at1 mem 0x3000))) = [(false, [])] ∧
    (trap { at1 mem 0x3000 with sorrel := [(mem.devChannel 0x3000, { withdrawn := true })] } i).1 = 0x5F ∧
    (trap (sorrel (2 ^ 64 - 2)) row).1 = 0x4B ∧ (trap (sorrel 63) row).1 = 0x4B ∧ (out (exec row (sorrel (2 ^ 64 - 1)))).t.pc = 1 ∧
    (out (exec row (sorrel 62))).t.pc = 1 ∧ (trap (sorrel 63) wr).1 = 0x4B ∧
    ((out (exec wr (put (sorrel 62) (.v 2) 77))).chanRead 0x3FC0 : Line) = 77 ∧
    (trap (sorrel 0) (.hret (E .zero .core 0 .zero (.v 2) .zero none 0 0))).1 = 0x4F ∧
    ((out (exec (.hret (E .zero .core 0 .zero (.g 2) .zero none 0 0)) (sorrel 0))).unit 0).running = none := by decide +kernel

/-! ### Hypotheses that can be met, and results: ending, system registers, the system handler -/

namespace Tests

def doneO : OpS := S .zero .zero 0
/-- Core 0's handler activation, whose subject is task 7, trapped at 0x40 with this record in slot 2 of launch 0. -/
def subj (r : TrapRec) (cause : Nat) : Task :=
  { base.t with pc := 0x40, sys := { tid := 7, cause := BitVec.ofNat 64 cause, trappc := 0x40 }, tr := { r with cause := cause },
                sched := { status := .trapped, slot := some 2, started := true, entered := true } }
def hnd (r : TrapRec) (cause : Nat) : State :=
  let s := { (withLine 0).homeWrite 0x40 (mkLine 0 3 []) allBytes with cur := 2 ^ 64, tasks := [(7, subj r cause)], launches := [(0, launch0 0 0)] }
  s.onT fun t => { t with kind := .handler 7, sched := { t.sched with slot := some 6 } }
def sysrO (n : Nat) : OpS := S (.g 3) .zero n
def syswO (n : Nat) : OpS := S .zero (.g 1) n
def sys (s : State) (i : Instr) : SysRegs := (out (exec i s)).t.sys
def aRec : FaultRec := { va := 0x5000, pc := 0x41, tid := 7, grps := 0, cause := 0x11, kind := .plain, lane := 0, data := [1] }

end Tests

-- TasksEndAndCount: nothing outstanding; a long op; the traps of each kind; a launch that counts
theorem test_hyps_done : Claim.Clean base true ∧ base.t.filled = false ∧ runs base (.done doneO) = true ∧ runs base (.doneExit doneO) = true ∧
    Claim.doneTrap base.t false = none ∧ Claim.doneTrap base.t true = some 1 ∧ Claim.doneTrap edge.t false = some 0x5B ∧
    Claim.doneTrap (world 0 0).t true = none ∧ (trap edge (.done doneO)).1 = 0x5B ∧ (trap served (.done doneO)).1 = 1 ∧
    (out (exec (.done doneO) base)).t.sched.status = .retired ∧
    parked (out (exec (.done doneO) (base.onT fun t => { t with long := [aLoad] }))) = some .outcnt ∧
    (let s := ver (world 0 0)
     (Claim.ended s).publishWaits = false ∧ (out (exec (.doneExit doneO) s)).t.sched.status = .retired) ∧
    ((world 0 0).launch? (world 0 0).t.launch).isSome = true := by
  refine ⟨?clean, ?_⟩
  case clean =>
    constructor
    case tile =>
      have none : base.t.sched.doneQueue.getD (base.ownQueue base.cur base.t.sched.core) = [] := by decide +kernel
      simp [none]
    all_goals decide +kernel
  all_goals decide +kernel

-- R45: a version is published at `done`
theorem test_done_publishes : let s := (ver base).onT fun t => { t with version := [(0x1000, { data := 0x55, mask := 1 })] }
    ((out (exec (.done doneO) s)).coreRead 0 .core false true 0x1000).1 = 0x55 ∧ (base.coreRead 0 .core false true 0x1000).1 = 0 := by decide +kernel

-- R45: the counters of a launch, the first cause kept
theorem test_counts_retired : let l (s : State) := (s.launch? 0).map fun l => (l.nret, l.nkill, l.firstTask, l.firstCause)
    let s := (world 0 0).countRetired { base.t with sys := { base.t.sys with tid := 5 } } (some (0x10, false))
    l s = some (1, 1, 5, 0x10) ∧ l (s.countRetired base.t (some (0x11, false))) = some (2, 2, 5, 0x10) ∧
    l (s.countRetired base.t none) = some (2, 1, 5, 0x10) := by decide +kernel

-- SystemRegistersReadAndWrite: TASKID, OUTCNT, a number that names none at each end; FLAGS, PRIO, FRMODE, BKPC and a bias
theorem test_hyps_system_registers : runs base (.sysr (sysrO 0)) = true ∧ runs base (.sysw (syswO 3)) = true ∧ r3 base (.sysr (sysrO 0)) = 1 ∧
    r3 (base.onT fun t => { t with long := [aLoad] }) (.sysr (sysrO 5)) = 1 ∧ (trap base (.sysr (sysrO 0x00D))).1 = 1 ∧
    (trap base (.sysr (sysrO 0x00F))).1 = 1 ∧ (trap base (.sysr (sysrO 0x018))).1 = 1 ∧ (trap base (.sysr (sysrO 0x017))).1 = 0 ∧
    (trap base (.sysw (syswO 0x00D))).1 = 1 ∧ (trap base (.sysw (syswO 0))).1 = 6 ∧ (trap base (.sysw (syswO 0x00A))).1 = 6 ∧
    (sys (at1 base 0xFFF) (.sysw (syswO 3))).flags = 0x7F ∧ (sys (at1 base 2) (.sysw (syswO 6))).prio = 2 ∧
    (let s := (at1 base 1).onT fun t => { t with sys := { t.sys with prio := 3 } }
     (sys s (.sysw (syswO 6))).prio = 3) ∧
    (sys (at1 base 4) (.sysw (syswO 9))).frmode = 4 ∧ (sys (at1 base 5) (.sysw (syswO 9))).frmode = 0 ∧
    (sys (at1 base 0xFFFFFFFF) (.sysw (syswO 0x00C))).bkpc = 0x3FFFF ∧ (sys (at1 base 0x7F) (.sysw (syswO 0x00B))).bkpa = 0x47 ∧
    (sys (at1 base 0x1FF) (.sysw (syswO 0x017))).bias = 0xFF00000000000000 ∧ base.fmtBusy (.fmt 0) = false := by decide +kernel

-- in the system handler: the subject's registers; DUTY; a bias that an `mfmt` captures
theorem test_hyps_system_handler : let s := hnd {} 0x10
    s.subject = some 7 ∧ (s.task? 7).isSome = true ∧ r3 s (.sysr (sysrO 0)) = 7 ∧ r3 s (.sysr (sysrO 1)) = 0x10 ∧
    ((out (exec (.sysw (syswO 2)) (at1 s 0x100))).task? 7).map (fun t => t.sys.trappc) = some 0x100 ∧
    (let d := (out (exec (.sysw (syswO 0x00A)) (at1 s 0x5A0))).die 0
     (d.thr, d.idle)) = (5, 10) ∧
    (let m : MCmd := { aCmd with maj := 0xD0, fn := 1, imm := 12 * 32 }
     let u := base.onCore 0 fun c => { c with outq := [m] }
     u.fmtBusy (.fmt 0) = true ∧ (trap u (.sysw (syswO 0x010))).1 = 0x46 ∧ (trap u (.sysw (syswO 0x011))).1 = 0) := by decide +kernel

-- EretDisposesOfItsSubject: outside the handler; a resume at TRAPPC and past it; SKIP of 0x30; a terminate
theorem test_hyps_eret : let s := hnd {} 0x10
    let e (n : Nat) : Instr := .eret (S .zero .zero n)
    let v (s : State) (n : Nat) : Option (Nat × Status) := ((out (exec (e n) s)).task? 7).map fun t => (t.pc.toNat, t.sched.status)
    runs s (e 0) = true ∧ s.t.stores = [] ∧ s.t.outcnt = 0 ∧ v s 0 = some (0x40, .issuing) ∧ v s 4 = some (0x41, .issuing) ∧
    v (hnd { passed := true } 0x78) 0 = some (0x41, .issuing) ∧ v (hnd {} 0x30) 4 = none ∧ v s 2 = none ∧ v s 3 = none ∧
    held (out (exec (e 0) (s.onT fun t => { t with long := [aLoad] }))) = true ∧ (subj {} 0x30).noResume true = true ∧
    (subj {} 0x30).noResume false = false ∧ (subj { vers := true } 0x10).noResume false = true ∧ (subj {} 0x10).frameOk = true ∧
    ({ subj {} 0x10 with rets := { spill := 257 } } : Task).frameOk = false ∧
    (match s.checkTarget 0 (s.rootOf (subj {} 0x10)) false 0x40 with
      | (.ok, f) => f.task? 7 == some (subj {} 0x10)
      | _ => false) = true := by decide +kernel

theorem test_eret_outside : base.subject = none := by decide +kernel

-- WaitsAndFaultQueuesComplete: a yield with and without another ready task; drain; sfqpop; wfe; vabort
theorem test_hyps_waits : let z : OpS := S .zero .zero 0
    let other : Task := { base.t with sched := { base.t.sched with status := .ready, slot := none } }
    let two := { base with tasks := [(2, other)] }
    runs base (.yieldT z) = true ∧ (out (exec (.yieldT z) base)).t.pc = 1 ∧ other.holdsEntry = true ∧
    (out (exec (.yieldT z) two)).t.sched.yielded = true ∧ (out (exec (.yieldT z) two)).giveSlot.t.sched.slot = none ∧ two.t.live = true ∧ (out (exec (.yieldT z) (msg two))).t.sched.slot = some 0 ∧
    held (out (exec (.drain z) (base.onT fun t => { t with stores := [aStore] }))) = true ∧ (out (exec (.drain z) base)).t.pc = 1 ∧
    (trap (base.onT fun t => { t with lost := true }) (.drain z)).1 = 0x31 ∧
    (trap (base.onCore 0 fun c => { c with sfq := [{ aRec with tid := 1 }] }) (.drain z)).1 = 0x30 ∧
    (trap base (.vabort z)).1 = 0x0D ∧ held (out (exec (.vabort z) (ver (base.onT fun t => { t with long := [aLoad] })))) = true ∧
    (out (exec (.vabort (S .zero .zero 1)) (ver base))).t.sched.status = .retired := by decide +kernel

theorem test_hyps_wfe : let i (m : Nat) : Instr := .wfe (S (.g 3) (.g 1) m)
    let s (latch : BitVec 5) (n : Nat) : State := (at1 base n).onT fun t => { t with sched := { t.sched with latch := latch } }
    runs (s 0 0) (i 0) = true ∧ r3 (s 7 0) (i 5) = 5 ∧ (out (exec (i 5) (s 7 0))).t.sched.latch = 2 ∧
    parked (out (exec (i 1) (s 6 0))) = some (.event 1 none) ∧ parked (out (exec (i 1) (s 6 9))) = some (.event 1 (some 9)) ∧
    (trap (msg (s 0 0)) (i 1)).1 = 0x63 ∧ parked (out (exec (i 1) (msg (s 0 1)))) = some (.event 1 (some 1)) ∧
    r3 ((s 0 9).onT fun t => { t with sched := { t.sched with timedOut := true } }) (i 1) = 0x20 := by decide +kernel

theorem test_hyps_sfqpop : let i : Instr := .sfqpop (S (.v 3) .zero 0)
    let s := (hnd {} 0x30).onCore 0 fun c => { c with sfq := [aRec] }
    runs s i = true ∧ ((out (exec i s)).core 0).sfq = [] ∧ (out (exec i s)).t.regs.read (.v 3) ≠ 0 ∧
    (out (exec i (hnd {} 0x30))).t.regs.read (.v 3) = 0 := by decide +kernel

-- InvalidationsAndKillComplete: each page size, ALL, the scopes; `tlbsync` with and without one; `kill` of no group, of one
theorem test_hyps_control : let s := hnd {} 0x10
    let inv (n : Nat) : Instr := .tlbinv (S .zero (.g 1) n)
    runs s (inv 0) = true ∧ s.t.live = true ∧ (trap (at1 s 0x800) (inv 0)).1 = 0x0A ∧ (trap (at1 s 0x8000) (inv 1)).1 = 0x0A ∧
    (trap (at1 s 0x100000) (inv 2)).1 = 0x0A ∧ (trap (at1 s 0x20000000) (inv 3)).1 = 0x0A ∧
    (out (exec (inv 3) (at1 s 0x40000000))).tlbinvs.map (fun x => (x.size, x.cores)) = [(30, [0])] ∧
    (out (exec (inv 4) (at1 s 1))).tlbinvs.map TlbInv.all = [true] ∧ runs s (.tlbsync doneO) = true ∧
    (out (exec (.tlbsync doneO) s)).t.pc = 1 ∧ held (out (exec (.tlbsync doneO) (out (exec (inv 0) s)))) = true ∧
    (let k (n : Nat) : Instr := .kill (S .zero .zero n)
     runs s (k 0) = true ∧ (trap s (k 1)).1 = 0x65 ∧ held (out (exec (k 0) s)) = true ∧ ((out (exec (k 0x100) s)).core 0).killing.isSome = true ∧
     (out (exec (k 0) { s with launches := [] })).t.pc = 1 ∧ (s.launch? 0).isSome = true) := by decide +kernel

/-! ### Hypotheses that can be met, and results: events of long ops and of memory -/

namespace Tests

def ev (i : Instr) (s : State) : State := out (exec i s)
/-- Task 1 with one outstanding long op, number 5, into g3 and p1. -/
def waitingOn (s : State) (ds : List Reg) (vals : List Line) (a : LongAct) : State := s.onT fun t =>
  { t with long := [{ op := 5, pc := 0, dsts := ds, vals := vals, act := a, since := 0 }], regs := t.regs.mark ds, cached := allLines48 }
def landed (s : State) (i : Instr) : Nat × Bool × Nat × Nat :=
  let t := (ev i s).t
  ((t.regs.rg 3).toNat, t.regs.rp 1, t.long.length, t.regs.pend.toNat)
def arrives : Instr := .longResultArrival 1 5
/-- An offer on its way to the home of the byte at 0x100, on a shared page. -/
def anOffer (op : OfferOp) : Offer :=
  { op := op, scope := .device, ty := some .n32, va := 0x100, pa := 0x100, owner := none, b := 5, c := 0, old := 0, nt := false, pE := 1, pD := 2 }
def shared (s : State) : State := s.onMem fun m => { m with page := [(0, .shared)] }
def stored (s : State) (kind : StoreKind) (va : Nat) (d : List Byte) : State := s.onT fun t =>
  { t with stores := [{ op := 5, kind := kind, va := BitVec.ofNat 64 va, pc := 0, lane := 0, data := d, scope := .device, dist := 0 }] }
def aCopy (dst src n : Nat) : Copy :=
  { op := 5, task := 1, tag := 7, dst := BitVec.ofNat 64 dst, src := BitVec.ofNat 64 src, rowBytes := n, rows := 1, dstStride := 0, srcStride := 0,
    scope := .core, arrive := none, root := 0, sys := false, versioned := false, launch := 0 }
def aJob (base n limit : Nat) (scatter : Bool) : IJob :=
  { op := 5, task := 1, core := 0, offset := 64, scatter := scatter, tag := 7, root := 0, sys := false, base := BitVec.ofNat 64 base, n := n,
    limit := limit, idx := 0x200, data := 0x300, esz := 2, opc := 0, ity := 2, cursor := 0 }
def jobs (j : IJob) : State := (mem.lsWrite 0 0x200 [3, 0, 0, 0]).lsWrite 0 0x300 [7, 0, 0, 0] |>.onCluster 0 fun c => { c with jobs := [j] }

end Tests

-- LandingWritesItsRegisters, LongResultsArrive: a formed result, one under a slot, a load, a token, a full word of local store
theorem test_hyps_landing : let r := waitingOn mem [.g 3, .p 1] [77, 1] (.ready 4)
    (r.longOp? 1 5).isSome = true ∧ r.t.cached = allLines48 ∧ landed r arrives = (77, true, 0, 0) ∧ (ev arrives r).t.sys.flags = 4 ∧
    landed (r.onT fun t => { t with long := t.long.map fun l => { l with slot := some 3 } }) arrives = (0, false, 1, r.t.regs.pend.toNat) ∧
    (let d := r.onT fun t => { t with sched := { t.sched with rerun := true } }
     (landed d arrives).1 = 0 ∧ (ev arrives d).t.long = []) ∧
    landed (waitingOn mem [.g 3] [] (.load .i8 false .core true [{ va := 0x100, pa := some 0x100, len := 1, pos := 0, data := some 0x80 }])) arrives =
      (2 ^ 64 - 128, false, 0, 0) ∧
    landed (waitingOn mem [.g 3] [] (.barv 2 (some 9))) arrives = (2 * 65536 + 9, false, 0, 0) ∧
    (landed (waitingOn mem [.g 3] [] (.sendt 0 0 .core)) arrives).2.2.1 = 1 := by decide +kernel

theorem test_hyps_landing_in : let ldf := waitingOn mem [.g 3] [] (.ldf .n64 (BitVec.ofNat 64 (ls 8)) none true)
    let w := (ldf.lsWrite 0 8 [42]).onMem fun m => { m with lsFull := [(1, true)] }
    ldf.mayFull ldf.t 5 (BitVec.ofNat 64 (ls 8)) none 8 = true ∧ (landed ldf arrives).2.2.1 = 1 ∧ landed w arrives = (42, false, 0, 0) ∧
    landed w (.ldfWake 1 5) = (42, false, 0, 0) ∧ landed w (.ldfRepoll 1 5) = (42, false, 0, 0) ∧
    landed (waitingOn mem [.g 3, .g 9, .p 1, .p 2] [] (.deleg 1 .core (some (6, 0, 0, true)))) arrives = (6, true, 0, 0) ∧
    (landed (waitingOn mem [.g 3, .g 9, .p 1, .p 2] [] (.deleg 1 .core none)) arrives).2.2.1 = 1 ∧
    landed (waitingOn (world 1 0) [.g 3, .p 1] [] (.recv 0 0)) arrives = (9, true, 0, 0) ∧
    (let d := waitingOn (dq [(1, 2)]) [.g 3, .g 4, .p 1] [] (.dqsteal 0)
     (landed d arrives).2.2.1 = 1 ∧ landed (d.onCore 0 fun c => { c with issuedAt := some d.dev.cycle }) arrives = (1, true, 0, 0)) ∧
    landed (waitingOn mem [.g 3] [] (.guard false .core 0x40 (some 3) false)) arrives = (3, false, 0, 0) ∧
    (let r := waitingOn mem [.g 3] [0x40] (.guard false .core 0x40 none true)
     (ev arrives r).t.sys.cause = 0x64 ∧ (ev arrives r).free = 8) ∧
    (ev arrives (waitingOn mem [.v 3] [] (.mrd 0 0 0 .f32 0 (some (1, 0, 0, 0x53))))).t.sys.cause = 0x53 := by decide +kernel

-- a load from DRAM, by hand: bytes 1, 2, 3, 4 at 0x100
theorem test_load_arrives : let s := (shared mem).homeWrite 0x100 0x04030201 allBytes
    let r := waitingOn s [.g 3] [] (.load .n32 false .core true [{ va := 0x100, pa := some 0x100, len := 4, pos := 0, data := none }])
    r.mayPerform r.t 5 0x100 4 (some 0x100) .weak = true ∧ landed r arrives = (0x04030201, false, 0, 0) := by decide +kernel

-- OffersAreAnswered (R173, R176): an add at its home gives the old value; a decided reply; a handler's fault; a bank offer
theorem test_hyps_offer_reply : let i : Instr := .offerReply 1 5
    let ds : List Reg := [.g 3, .g 9, .p 1, .p 2]
    let s := waitingOn ((shared mem).homeWrite 0x100 7 allBytes) ds [] (.offer (anOffer (.atomic .add)))
    s.t.acquiring 5 = false ∧ s.t.clash 5 0x100 4 = false ∧ s.t.strongWait 5 .both = false ∧ s.heldLine 0x100 = false ∧
    s.declineReason 0 (anOffer (.atomic .add)) .n32 = none ∧ s.pageState 0x100 = .shared ∧ homeDie 0x100 = 0 ∧ s.mem.l1 = [] ∧
    landed s i = (7, true, 0, 0) ∧ (ev i s).byteAt 0x100 = 12 ∧ (ev i s).byteAt 0x104 = 0 ∧
    (let r := waitingOn mem ds [] (.offer { anOffer (.atomic .add) with reply := some { kind := 1, reason := 5 } })
     landed r i = (0, false, 0, 0) ∧ (ev i r).t.regs.rp 2 = true ∧ (ev i r).t.regs.rg 9 = 21) ∧
    (let r := waitingOn mem ds [] (.offer { anOffer (.atomic .add) with reply := some { kind := 4, cause := 2, reason := 1 } })
     (ev i r).t.sys.cause = 0x5D ∧ (ev i r).t.tr.g5 = 0x10200) ∧
    (let r := waitingOn (shared mem) ds [] (.offer (anOffer (.bank 0 0 4096)))
     (r.unit (r.devChannel 0x100)).holds 1 5 = false ∧ r.bankBehind r.t 1 5 (r.devChannel 0x100) = false ∧
     r.bankDecline (r.devChannel 0x100) (anOffer (.bank 0 0 4096)) 0 4096 ≠ none) ∧
    (let r := { waitingOn (shared mem) ds [] (.offer (anOffer (.bank 0 0 4096))) with
                dies := [(0, { cxu := 8 })], dev := { mem.dev with chan := [(0, { crm := true })] } }
     r.bankDecline 0 (anOffer (.bank 0 0 4096)) 0 4096 = none ∧ ((ev i r).unit 0).queue.length = 1) := by decide +kernel

-- WaitersAreServed: a word that is empty, a reply NOTRES, a PCIe time-out, a message that is delivered, full, without its actor
theorem test_hyps_waiters : let ldf := waitingOn mem [.g 3] [] (.ldf .n64 0x1000 (some 0x1000) true)
    ldf.waiterRank ldf.t 5 (some 0x1000) = 0 ∧ (landed ldf (.ldfWake 1 5)).2.2.1 = 1 ∧
    (let r := waitingOn mem [.g 3, .g 9, .p 1, .p 2] [0, (({ kind := 1, reason := 5 } : Reply).word.setWidth 512), 0, 1] (.ready 0)
     landed r (.notresDecline 1 5) = (0, false, 0, 0)) ∧
    spaceOf 0x100000000000 = .pcie 0 ∧ (ev (.pcieCompletionTimeout 1 5) (waitingOn mem [.g 3] []
      (.load .n64 false .core true [{ va := 0x100, pa := some 0x100000000000, len := 8, pos := 0, data := none }]))).t.sys.cause = 0x2B ∧
    (let send (n : Nat) := waitingOn (world n 0) [.g 3, .p 1] [] (.sendt 0 4 .core)
     let done (s : State) := (ev (.actorMessageArrival 1 5) s).t.long.map fun l => l.vals.map BitVec.toNat
     done (send 0) = [[0, 1]] ∧ done (send 2) = [[1, 0]] ∧
     done ((send 0).onActor 0 0 fun y => { y with state := .exited }) = [[2, 0]]) := by decide +kernel

-- StoresResolve (R225): performed at home; at a fault, recorded; a queue of 16; not resident; `stf` and `clrf`
theorem test_hyps_store_resolve : let i : Instr := .storeResolve 1 5
    let s := stored (shared mem) .plain 0x100 [1, 2, 3, 4]
    let f := stored mem .plain 0x5000 [9]
    (s.t.stores.find? (fun x => x.op == 5)).isSome = true ∧ s.t.acquiring 5 = false ∧ s.t.clash 5 0x100 4 = false ∧
    (ev i s).t.stores = [] ∧ [0xFF, 0x100, 0x103, 0x104].map (ev i s).byteAt = [0, 1, 4, 0] ∧
    ((ev i f).core 0).sfq.map (fun r => (r.va.toNat, r.cause, r.data)) = [(0x5000, 0x11, [9])] ∧ (ev i f).t.faulted = [0] ∧
    (let g := f.onCore 0 fun c => { c with sfq := List.replicate 16 aRec }
     ((ev i g).core 0).sfq.length = 16 ∧ ((ev i g).core 0).sfqLost = 1 ∧ (ev i g).t.lost = true) ∧
    (ev i (stored mem .plain 0x2000 [9])).t.stores.map Store.waits = [true] ∧
    (let w := ev i (stored mem .stf 0x1008 [1, 0, 0, 0, 0, 0, 0, 0])
     w.isFull 0x1008 = true ∧ w.isFull 0x1000 = false ∧ (ev i (stored w .clrf 0x1008 (List.replicate 8 0))).isFull 0x1008 = false) := by decide +kernel

-- a store behind an acquire, in local store, with a fault that translation met, killed; a line that a lease holds
theorem test_hyps_store_more : let i : Instr := .storeResolve 1 5
    let s := stored (shared mem) .plain 0x100 [1, 2, 3, 4]
    let st (f : Store → Store) : State := s.onT fun t => { t with stores := t.stores.map f }
    let gate : LongOp := { op := 4, pc := 0, dsts := [.g 3], vals := [], act := .guard false .core 0x40 none false, since := 0 }
    let waits := s.onT fun t => { t with long := [gate] }
    (waits.t.stores.map fun x => x.early waits.t) = [true] ∧ (s.t.stores.map fun x => x.early s.t) = [false] ∧
    (let l := ev i (st fun x => { x with ls := some 8 })
     (l.lsRead 0 8 4, l.t.stores)) = (0x04030201, []) ∧
    ((ev i (st fun x => { x with found := some 0x15 })).core 0).sfq.map FaultRec.cause = [0x15] ∧
    (let e : Decline := { address := 0x100, ty := none, stamp := 1, tid := 1, written := true, lease := some 9 }
     let h := s.onMem fun m => { m with decl := [(mem.declKey 0x100, { entries := [e] })] }
     (h.heldLine 0x100, s.heldLine 0x100) = (true, false) ∧ (ev i h).t.stores.length = 1) ∧
    s.t.strongWait 5 .fill = false ∧ s.mem.l2.length < l2Room ∧ homeDie 0x100 = dieOf 0 := by decide +kernel

-- CopiesGoHome: a private page is recalled with its dirty byte; a dirty RDC line; a lease that has run out
theorem test_hyps_recall : let c : CLine := { data := 0x55, valid := allBytes, dirty := 1 }
    let s := (stored mem .plain 0x80 [7]).onMem fun m => { m with page := [(0, .priv 1)], l1 := [(l1Key 1 0x40, c)] }
    let r := mem.onMem fun m => { m with rdc := [(rdcKey 0 0x40, c)] }
    (ev (.pageRecall 0) s).byteAt 0x40 = 0x55 ∧ s.byteAt 0x40 = 0 ∧ (ev (.pageRecall 0) s).byteAt 0x80 = 7 ∧ (ev (.pageRecall 0) s).mem.l1 = [] ∧
    (s.underWay.map fun x => (x.1, (x.2 s).mem.page.get .unowned 0)) = [(5, .shared)] ∧ ev (.pageRecall 1) s = s ∧ s.leased 0x40 = false ∧
    (ev (.pageRecall 0) s).mem.page = [(0, .shared)] ∧ (ev (.rdcWriteThrough 0 0x40) r).byteAt 0x40 = 0x55 ∧
    (ev (.rdcWriteThrough 0 0x40) r).mem.rdc = [] ∧
    (let e : Decline := { address := 0x40, ty := none, stamp := 1, tid := 1, written := true, lease := some 9 }
     let d (n : Nat) := { mem.onMem fun m => { m with decl := [(mem.declKey 0x40, { entries := [e] })] } with dev := { mem.dev with cycle := n } }
     ((ev (.leaseExpiry 0x40) (d 9)).mem.decl.all fun e => e.2.entries == []) = true ∧ (ev (.leaseExpiry 0x40) (d 8)).mem.decl.length = 1) := by
  decide +kernel

-- GuardsAreGrantedInOrder: a writer and a reader; one that cannot be granted; notices before and at 2^20 cycles
theorem test_hyps_guard_grant : let req (shared : Bool) : GuardReq := { who := .task 1 5, holder := 1, shared := shared, scope := .core }
    let q (s : State) (sh : Bool) := waitingOn (s.onMem fun m => { m with guards := [(0x40, [req sh])] }) [.g 3] [0x40] (.guard sh .core 0x40 none false)
    let held := mem.guardWrite 0x40 { w := true, rdrs := 0, phase := 0, holder := 9 }
    (q mem false).guardReady 0x40 = true ∧ (q held false).guardReady 0x40 = false ∧
    (landed (q mem false) (.guardGrant 0x40)).2.2.1 = 0 ∧ ((ev (.guardGrant 0x40) (q mem false)).guardRead none 0x40).1.holder = 1 ∧
    ((ev (.guardGrant 0x40) (q mem true)).guardRead none 0x40).1.rdrs = 1 ∧ (landed (q held false) (.guardGrant 0x40)).2.2.1 = 1 ∧
    (let s (n : Nat) := { mem.onT fun t => { t with sched := { t.sched with sealSince := some 0 } } with
                          dev := { mem.dev with cycle := n, notices := [(0, 1)] } }
     (ev (.sealNotice 1) (s (2 ^ 20))).t.sys.cause = 0x2A ∧ (ev (.sealNotice 1) (s (2 ^ 20 - 1))).t.sys.cause = 0) := by decide +kernel

-- CopiesAndJobsMove: a row within local store, a copy at a fault; an element gathered and scattered, at its limit, after the last
theorem test_hyps_copy_completion : let i : Instr := .copyCompletion 0 5
    let s (c : Copy) := ((mem.lsWrite 0 0x100 [1, 2, 3]).onCore 0 fun k => { k with copies := [c] }).onT fun t => { t with tagCount := [(7, 1)] }
    let t := ev i (s (aCopy (ls 0x7FFFD) (ls 0x100) 3))
    [0x7FFFC, 0x7FFFD, 0x7FFFF].map (t.localByte 0) = [0, 1, 3] ∧ (t.core 0).copies = [] ∧ t.t.sys.tags.getLsbD 7 = true ∧
    t.t.tagCount.get 0 7 = 0 ∧
    (let f := ev i (s { aCopy 0x9000 (ls 0x100) 3 with fault := some { va := 0x9000, cause := 0x10 } })
     (f.core 0).copies = [] ∧ f.t.copyFaults.length = 1) := by decide +kernel

theorem test_hyps_index_element : let i : Instr := .indexElement 0 5
    let done (s : State) := (((ev i s).cluster 0).jobs.length, field ((ev i s).lsRead 0 88 8) 49 48)
    (jobs (aJob (ls 0x400) 1 0 false)).jobIndex (aJob (ls 0x400) 1 0 false) = 3 ∧ done (jobs (aJob (ls 0x400) 1 0 false)) = (0, 2) ∧
    (ev i (jobs (aJob (ls 0x400) 1 0 true))).lsRead 0 0x40C 4 = 7 ∧ (ev i ((jobs (aJob (ls 0x400) 2 4 false)).lsWrite 0 0x40C [9])).lsRead 0 0x300 4 = 9 ∧
    done (jobs (aJob (ls 0x400) 1 3 false)) = (0, 3) ∧ field ((ev i (jobs (aJob (ls 0x400) 1 3 false))).lsRead 0 88 8) 47 40 = 0x5A ∧
    done (jobs (aJob (ls 0x400) 0 0 false)) = (0, 2) ∧ (done (jobs (aJob (ls 0x400) 2 4 false))).1 = 1 ∧
    (ev i (jobs (aJob (far 0x400) 1 0 true))).lsRead 1 0x40C 4 = 7 := by decide +kernel

-- ParityErrorsAreMended: an instruction line; a register from the log, and one that is not there
theorem test_hyps_parity : let s := mem.onMem fun m => { m with ic := [(icKey 0 0x40, 5)] }
    (ev (.fetchParityRefetch 0 0x40) s).mem.ic.find? (icKey 0 0x40) = some (mem.dieRead 0 0x40).1 ∧
    (let t := ev (.parityReplay 1 (.g 3)) { mem with logs := [(0, [{ task := 1, reg := .g 3, value := 8 }])] }
     t.t.regs.rg 3 = 8 ∧ t.t.sched.ableAt = 3) ∧
    (let t := mem.onT fun t => { t with cached := allLines48, dirty := allLines48 }
     t.t.lineClean (.g 3) = false ∧ (ev (.parityReplay 1 (.g 3)) t).t.sys.cause = 0x70) ∧
    (let t := mem.onT fun t => { t with cached := allLines48 }
     t.t.lineClean (.g 3) = true ∧ (ev (.parityReplay 1 (.g 3)) t).t.sys.cause = 0x72) := by decide +kernel

/-! ### Hypotheses that can be met, and results: events of scheduling -/

namespace Tests

/-- Tasks beside the one in focus, by key: priority, status, slot, entry time. -/
def others (s : State) (xs : List (Nat × BitVec 2 × Status × Option Nat × Nat)) : State :=
  { s with tasks := xs.map fun x => (x.1, { base.t with
      sys := { base.t.sys with tid := BitVec.ofNat 64 x.1, prio := x.2.1 }
      sched := { base.t.sched with status := x.2.2.1, slot := x.2.2.2.1, entryTime := x.2.2.2.2, level := x.2.1 } }) }
def at_ (s : State) (n : Nat) : State := { s with dev := { s.dev with cycle := n } }
/-- Core 0's frame pool with the area of map entry 257. -/
def pool (s : State) : State :=
  (s.onCore 0 fun c => { c with fpbase := 0x10000, fplim := 0x100000, fmap := 0x10000 }).homeWrite 0x12000
    (BitVec.ofNat 512 (0x20001 * 2 ^ 256)) allBytes
/-- Every die has joined. -/
def dies (s : State) : State := { s with dies := (List.range 4).map fun d => (d, { joined := true }) }
/-- A running launch of teams of two tasks with nothing dispatched, on die 0. -/
def launch1 : Launch :=
  { phase := .running, formed := true, record := { nteam := 1, tsize := 2 }, ents := [{ entry := 0x40, g2 := 7 }, { entry := 0x80 }], todo := [0, 1],
    teams := [(0, { die := some 0, live := 0 })] }
def stat (s : State) (k : Nat) : Option (Status × Option Nat) := (s.task? k).map fun t => (t.sched.status, t.sched.slot)

end Tests

-- IssueChoosesASlot: slot 7 first, then in turn after the last; the longest wait over 4096 cycles, else the most urgent
theorem test_hyps_issue : let s := others base [(2, 0, .issuing, some 3, 0), (3, 0, .issuing, some 7, 0), (4, 2, .ready, none, 0), (5, 1, .ready, none, 50)]
    s.chooseSlot 0 = some (3, 7) ∧ (others base [(2, 0, .issuing, some 3, 0)]).chooseSlot 0 = some (1, 0) ∧
    ((others base [(2, 0, .issuing, some 3, 0)]).onCore 0 fun c => { c with last := 0 }).chooseSlot 0 = some (2, 3) ∧
    (s.runChoice 0).map Prod.fst = some 5 ∧ ((at_ s 4096).runChoice 0).map Prod.fst = some 4 ∧ ((at_ s 4095).runChoice 0).map Prod.fst = some 5 ∧
    (s.waitingOn 0).map Prod.fst = [4, 5] ∧ ((at_ s 4096).waitingOn 0).any (fun e => e.2.aged 4096) = true ∧
    (base.onCore 0 fun c => { c with withdrawn := true }).chooseSlot 1 = none ∧ ev (.issueCycle 4096) base = base := by decide +kernel

-- AgeingAndFootprints: a parked task goes before an issuing one; no slot free; footprints that are read and that fault
theorem test_hyps_ageing : let s (st : Status) := at_ (others base ((List.range 5).map (fun i => (i + 2, 0, if i = 2 then st else .issuing, some (i + 1), 0)) ++
      [(9, 0, .ready, none, 0)])) 4096
    (s .parked).freeSlot 0 = none ∧ ((s .parked).victim 0).map Prod.fst = some 4 ∧ ((s .issuing).victim 0).map Prod.fst = some 6 ∧
    stat (ev (.ageLimitExpiry 0) (s .parked)) 4 = some (.ready, none) ∧ stat (ev (.ageLimitExpiry 0) (at_ (s .parked) 4095)) 4 = some (.parked, some 3) := by
  decide +kernel

theorem test_hyps_footprints : let s (src : Nat) : State := { (mem.homeWrite 0x100 0x0102 allBytes).onT (fun t =>
      { t with foot := [{ off := 0x80, len := 64, src := BitVec.ofNat 64 src, wb := false }], sched := { t.sched with status := .queued, slot := none } })
        with launches := [(0, { phase := .running, root := 0x200000 })] }
    (s 0x100).t.sched.dying = none ∧ (s 0x100).packed 0 0 = false ∧ stat (ev (.footprintFill 1) (s 0x100)) 1 = none ∧
    ((s 0x100).launchRead (Launch.viaTask { root := 0x200000 } 1) 0x100 64).1 ≠ .wait := by decide +kernel

-- TasksAreDispatched: the first task of a launch; none; the identity is taken
theorem test_hyps_dispatch : let s : State := { dies base with launches := [(0, launch1)] }
    let t := ev (.taskDispatch 0) s
    s.dieUp 0 = true ∧ (s.nextTask 0 launch1 0).isSome = true ∧ t.tasks.map (fun e => (e.2.pc.toNat, (e.2.regs.rg 2).toNat, e.2.sched.status)) = [(0x40, 7, .ready)] ∧
    (t.launch? 0).map (fun l => (l.todo, l.liveTasks)) = some ([1], 1) ∧ ev (.taskDispatch 1) s = s ∧ ev (.taskDispatch 0) base = base ∧
    (let b : Birth := { launch := 0, core := 0, kind := .delegated, entry := 0x40 }
     (base.create b).isSome = true ∧ (({ base with tasks := [(7, { base.t with sys := { tid := taskId 0 0 2 0 } })] } : State).create b).isNone = true) := by
  decide +kernel

-- RequestsAreServed: an idle core, one with a server task, one without a request; the queue with and without waiters
theorem test_hyps_requests : let r : Request := { aReq with address := 5, args := [6, 7], tid := 9, routine := 0x40 }
    let s := base.onCore 0 fun c => { c with requests := [r], waiting := [aReq] }
    let t := ev (.delegationRequest 0) s
    t.tasks.map (fun e => (e.2.sched.slot, (e.2.regs.rg 1).toNat, (e.2.regs.rg 2).toNat, (e.2.regs.rg 3).toNat, (e.2.regs.rg 6).toNat)) =
      [(some 6, 5, 6, 7, 9)] ∧ ((t.core 0).requests, (t.core 0).waiting) = ([aReq], []) ∧
    (ev (.delegationRequest 0) (s.onT fun t => { t with kind := .delegated })).tasks = [] ∧ ev (.delegationRequest 1) s = s := by decide +kernel

-- TeamsMove: an advertisement at and before 1024 cycles; a team that is offered, taken, and refused
theorem test_hyps_teams : let s : State := { dies base with launches := [(0, { launch1 with todo := [], teams := [(0, { die := some 0, cores := [(0, 0)], live := 1 })] })] }
    let s := ((s.onDie 0 fun d => { d with qthr := 0 }).onDie 2 fun d => { d with advert := some (9, 0) }).onT fun t =>
      { t with sched := { t.sched with status := .ready, slot := none, started := false, entered := false } }
    ((ev (.slotAdvertisement 1) (at_ s 1024)).die 1).advert = some (1024, 1024) ∧ ((ev (.slotAdvertisement 2) (at_ s 1023)).die 2).advert = some (9, 0) ∧
    ((ev (.slotAdvertisement 2) (at_ s 1024)).die 2).advert = some (1024, 1024) ∧ s.migrationTarget 0 = some 2 ∧ s.mayMigrate 0 0 0 = true ∧
    (let t := ev (.teamMigration 0 0 0) s
     (t.die 0).moving = some { launch := 0, team := 0, target := 2 } ∧ t.senderTo 2 = some (0, { launch := 0, team := 0, target := 2 }) ∧
     ((ev (.teamAccept 2) t).die 0).moving = none ∧ (ev (.teamAccept 2) t).t.sched.core / 1024 = 2 ∧
     ((ev (.teamAccept 2) (t.onDie 2 fun d => { d with withdrawn := true })).die 0).refused = [2] ∧
     ((ev (.teamAccept 2) { t with launches := [] }).die 0).moving = none) ∧ s.senderTo 2 = none := by decide +kernel

-- ActorsMoveAndFire: an actor that fires; one swapped out and in again; items held back while the FIFO is full
theorem test_hyps_actors : let a (n : Nat) : Actor := { act0 n 0 with firing := false, outs := [{ fifoOut 0 with reserved := 0 }] }
    let s (x : Actor) : State := { mem with launches := [(0, { launch0 0 0 with actors := [(0, x)] })] }
    (a 1).ready = true ∧ (a 0).ready = false ∧ ((s (a 1)).tryFire 0 0).tasks.length = 1 ∧ (s (a 0)).tryFire 0 0 = s (a 0) ∧
    (let two (x : Actor) : State := { mem with launches := [(0, { launch0 0 0 with actors := [(0, x), (1, { a 1 with state := .swapped })] })] }
     (two (a 0)).swapWanted 0 0 (a 0) = true ∧ (two (a 0)).swapsFirst (a 0) = true ∧ (s (a 1)).swapWanted 0 0 (a 1) = false ∧
     ((ev (.actorSwapOut 0 0) (two (a 0))).actor? 0 0).map Actor.state = some .swapped ∧
     ((ev (.actorSwapOut 0 0) (two { a 0 with firing := true })).actor? 0 0).map Actor.state = some .placed) ∧
    (let item (n : Nat) : Item := { data := 9, scope := .core, sender := 5, order := n }
     let out (n : Nat) : Fifo := { fifoOut 0 with reserved := 0, link := some (0, 0), held := [item n] }
     ({ act0 0 0 with outs := [out 8, out 3] }).nextHeld (0, 0) = some (1, item 3)) ∧
    ((ev (.actorSwapIn 0 0) (s { a 1 with state := .swapped })).actor? 0 0).map (fun x => (x.state, x.firing)) = some (.placed, true) ∧
    ((ev (.actorSwapIn 0 0) (s { a 0 with state := .swapped })).actor? 0 0).map Actor.state = some .swapped ∧
    ((ev (.heldDeliveryRetry 0 0 0) (s (a 1))).tasks).length = 1 := by decide +kernel

-- HandlersActivate: no entry, an area, none; an activation at 2^20 cycles and just before
theorem test_hyps_handlers : let q (s : State) : State := s.onCore 0 fun c => { c with trapq := [2], hentry := 0x80 }
    let s : State := { base with tasks := [(7, subj { aux := 3, g4 := 5 } 0x10)] }
    (pool base).area 0 257 0 = (some 0x20000, pool base) ∧ ev (.handlerActivation 0) s = s ∧
    (let t := ev (.handlerActivation 0) (q (pool s))
     (t.task? (2 ^ 64)).map (fun h => (h.pc.toNat, h.sched.slot, (h.regs.rg 1).toNat, (h.regs.rg 2).toNat, (h.regs.rg 3).toNat, (h.regs.rg 4).toNat)) =
       some (0x80, some 7, 7, 0x30810, 0x40, 5)) ∧
    (ev (.handlerActivation 0) (q s)).task? 7 = none ∧
    (let h (n : Nat) := at_ { hnd {} 0x10 with agenda := [] } n
     stat (ev (.handlerOverrun 0) (h (2 ^ 20))) (2 ^ 64) = some (.trapped, some 6) ∧ stat (ev (.handlerOverrun 0) (h (2 ^ 20 - 1))) (2 ^ 64) = some (.issuing, some 6)) := by
  decide +kernel

-- RequestsFromOutsideLand: a TASKID that is live and one that is not; EVTSET; a wait at its deadline; a `kill` that completes
theorem test_hyps_outside : (ev (.debugHalt 0 1) base).t.sched.debug = some .halt ∧ (ev (.debugStep 0 1) base).t.sched.debug = some .step ∧
    ev (.debugHalt 0 9) base = base ∧ ev (.debugHalt 4096 1) base = base ∧ (ev (.evtset 0) base).t.sched.latch = 0x10 ∧
    (ev (.evtset 1) base).t.sched.latch = 0 ∧
    (let s (n : Nat) := at_ (base.onT fun t => { t with sched := { t.sched with status := .parked, wait := some (.event 1 (some 9)) } }) n
     (ev (.wfeTimeout 1) (s 9)).t.sched.timedOut = true ∧ ev (.wfeTimeout 1) (s 8) = s 8) ∧
    (let s (ws : List Nat) := (hnd {} 0x10).onCore 0 fun c =>
       { c with killing := some { handler := 2 ^ 64, launch := 0, waits := ws, own := [3], subject := none } }
     ((ev (.killComplete 0) (s [99])).core 0).killing = none ∧ ((ev (.killComplete 0) (s [7])).core 0).killing.isSome = true ∧
     ((ev (.killComplete 0) (s [99])).launch? 0).map Launch.nkill = some 1) := by decide +kernel

/-! ### Hypotheses that can be met, and results: events of the matrix units -/

namespace Tests

/-- A tile of task 1: one row of 64 columns and 32 positions, types i8; B is 5 at position 0, column 0. -/
def tile1 : Tile :=
  { key := 5, owner := 1, aty := .i8, bty := .i8, ks := 32, n := 64, m := 1, acc := 0x10000, save := 0, row0 := 0, col0 := 0, afmt := 0, abias := 0,
    bfmt := 0, bbias := 0, loaded := true, knext := 32, bcode := [(0, 5)] }
def tiled (t : Tile) : State := mx.onUnitM 0 fun u => { u with tile := some t }
def cmd (maj fn : Nat) : MCmd := { aCmd with maj := maj, fn := fn, cap := BitVec.ofNat 64 (cap 0), op := 5, ty := Ty.code .i8 }
def leaving (s : State) (c : MCmd) : State := s.onCore 0 fun k => { k with outq := [c] }
def inUnit (s : State) (c : MCmd) : State := s.onUnitM 0 fun u => { u with queue := [c] }
/-- A row whose one element is 3, at position 0. -/
def row3 : OpenRow := { row := 0, words := [(0, 3)] }
def closing3 : Closing := { op := 5, core := 2, dense := true, row := row3 }
/-- The number of commands in core 0's queue and ring, and of those that leave it. -/
def where_ (s : State) : Nat × Nat × Nat := ((s.core 0).munit.queue.length, (s.core 0).munit.ring.length, (s.core 0).outq.length)
/-- Core 0's frame pool with a spill ring at 0x40000 and its control block at 0x30000. -/
def ring (s : State) : State :=
  (s.onCore 0 fun c => { c with fpbase := 0x10000, fplim := 0x100000, fmap := 0x10000 }).homeWrite 0x12040
    (BitVec.ofNat 512 (0x40001 + 0x30001 * 2 ^ 256)) allBytes

end Tests

-- CommandsReachTheirUnits: a bound tile's command is applied at once; none, withdrawn, no entry, a full queue, the spill ring
theorem test_hyps_arrival : let i : Instr := .matrixCommandArrival 0
    let c := cmd 0xD2 0
    (tiled tile1).outPick 0 [c] [] = some c ∧ (tiled tile1).formed 0 c = true ∧ (tiled tile1).direct 0 c = true ∧ mx.direct 0 c = false ∧ c.regular = true ∧
    where_ (ev i (leaving (tiled tile1) c)) = (0, 0, 0) ∧ where_ (ev i mx) = (0, 0, 0) ∧
    (ev i ((leaving mx c).onCore 0 fun k => { k with withdrawn := true })).t.mfault.map MatrixFault.cause = some 0x5F ∧
    (ev i (leaving mem c)).t.mfault.map MatrixFault.cause = some 0x53 ∧
    (let s := (leaving mx { c with maj := 0xD0 }).onUnitM 0 fun u => { u with queue := List.replicate 32 { c with maj := 0xD3, task := 9 } }
     where_ (ev i s) = (32, 0, 1)) ∧
    ((ring mx).ringHead 0).1 = some (0x40000, 0x30000, 0, 0) := by decide +kernel

-- MatrixCommandsTakeEffect: `mclr`, `mrow` and `mnz` with a row, a wrong type, a row outside, `mldb` off its order, `mrd`
theorem test_hyps_commands : let terr (c : MCmd) : Option Nat := (((tiled tile1).applyCmd 0 tile1 c).tileOf 0).bind fun t => t.terr.map Prod.fst
    let closing (c : MCmd) : Option Nat := (((tiled tile1).applyCmd 0 tile1 c).tileOf 0).map fun t => t.closing.length
    tile1.usesBroken 0 = false ∧ closing { cmd 0xD1 1 with payload := [3] } = some 1 ∧ terr { cmd 0xD1 1 with c := 1 } = some 0x44 ∧
    terr { cmd 0xD1 1 with imm := 1 } = some 0x54 ∧ closing { cmd 0xD1 2 with c := 2 ^ 15 } = some 1 ∧ terr { cmd 0xD1 2 with c := 1 } = some 0x44 ∧
    terr { cmd 0xD1 2 with c := 2 ^ 24 } = some 0x44 ∧ terr { cmd 0xD1 2 with ty := Ty.code .f16 } = some 0x54 ∧ terr { cmd 0xD1 0 with c := 0 } = some 0x54 ∧
    terr { cmd 0xD1 0 with c := 32, b := 1 } = some 0x43 ∧ tile1.slabFault { cmd 0xD1 0 with c := 32 } = none ∧
    (((tiled tile1).applyCmd 0 tile1 (cmd 0xD2 0)).tileOf 0).map Tile.knext = some 0 ∧
    (let rd (b : Nat) : MCmd := { cmd 0xD2 1 with b := BitVec.ofNat 64 b, ty := 20 }
     let s : State := waitingOn ((tiled tile1).lsWrite 0 0x10000 [1, 0, 0, 0, 2]) [.v 3, .v 4] [] (.mrd 0 0 0 .pair32 0 none)
     let a (b : Nat) : List (Option (Nat × Nat × Nat)) := (s.applyCmd 0 tile1 (rd b)).t.long.map fun l => match l.act with
       | .mrd _ _ _ _ _ (some (x, y, _, c)) => some (x.toNat, y.toNat, c)
       | _ => none
     a 0 = [some (1, 2, 0)] ∧ a 1 = [some (0, 0, 0x44)] ∧ a (16 * 65536) = [some (0, 0, 0)] ∧ a (64 * 65536) = [some (0, 0, 0x44)]) := by decide +kernel

-- RowsCloseAndTilesMove (R261): 3 × 5 = 15.0 joins the pair of column 0; no row, replay, save and restore
theorem test_hyps_row_close : let s := tiled { tile1 with closing := [closing3] }
    let t := ev (.rowClose 0) s
    t.lsRead 0 0x10000 4 = 0x41700000 ∧ t.lsRead 0 0x10004 4 = 0 ∧ t.lsRead 0 0x10008 4 = 0 ∧ t.lsRead 0 0xFFFC 4 = 0 ∧
    (t.tileOf 0).map (fun x => (x.rows, x.closed.toNat, x.closing.length)) = some (1, 1, 0) ∧ ev (.rowClose 0) (tiled tile1) = tiled tile1 ∧
    (let w := ev (.slabFullWait 0) (at_ (inUnit (tiled tile1) { cmd 0xD1 0 with c := 32 }) 9)
     (w.core 0).munit.queue.map MCmd.since = [10]) := by decide +kernel

theorem test_hyps_tiles_move : let idle := inUnit (tiled { tile1 with owner := 9 }) { cmd 0xD0 1 with task := 1 }
    idle.dormantIdle 0 { tile1 with owner := 9 } = true ∧ idle.unitWanted 0 { tile1 with owner := 9 } = true ∧
    (ev (.hardwareSave 0) (tiled tile1)).tileOf 0 = some tile1 ∧
    (let v : State := mx.onUnitM 0 fun u => { u with saved := [{ key := 5, save := 0, byMsave := false, owner := 1 }] }
     (v.restoreDue 0 fun _ => true).isSome = true) ∧
    (tiled tile1).holdsSlot 1 = true ∧ ((ring (tiled tile1)).ringFind 0 fun _ => true).1 = none ∧
    ev (.spillReplay 0) (inUnit (tiled tile1) (cmd 0xD2 0)) = inUnit (tiled tile1) (cmd 0xD2 0) := by decide +kernel

-- QueriesTimeoutsAndParity: an answer, behind a command; a block's command; 2^24 cycles and just before; a macro twice
theorem test_hyps_queries : let q : MQuery := { cap := BitVec.ofNat 64 (cap 0), n := 1, since := 9 }
    let ask (s : State) := s.onT fun t => { t with sched := { t.sched with mquery := some q } }
    let answer (s : State) := ((ev (.mwaitQuery 1) (ask s)).t.sched.mquery.bind MQuery.answer).map fun a => (a.1, a.2.1, a.2.2.1)
    answer (tiled tile1) = some (0, 0, false) ∧ answer (tiled { tile1 with rows := 1 }) = some (0, 1, true) ∧ answer mem = some (0x53, 0, false) ∧
    answer (mx.onCore 0 fun c => { c with withdrawn := true }) = some (0x5F, 0, false) ∧ answer (leaving mx (cmd 0xD2 0)) = none ∧
    (let e (s : State) := waitingOn s [.g 3, .p 1] [] (.ecmd 0x8000 64 0 (some (cmd 0xD2 0)) false)
     let o : OpBlock := { task := 1, op := 5, unit := 0, offset := 64 }
     ((e mx).pendingEcmd o 2).isSome = true ∧ (ev (.ecmdMatrix o) (e mx)).t.long.map (fun l => l.vals.map BitVec.toNat) = [[0, 1]]) ∧
    (let s (n : Nat) := at_ (inUnit (tiled tile1) { cmd 0xD2 0 with since := 1 }) n
     where_ (ev (.engineTimeout 0) (s (2 ^ 24 + 1))) = (0, 0, 0) ∧ late24 (2 ^ 24 + 1) 1 = true ∧ late24 (2 ^ 24) 1 = false) ∧
    (let s := tiled { tile1 with closing := [closing3] }
     ((ev (.macroParity 0 3 true) s).core 0).munit.broken = 8 ∧ ev (.macroParity 0 3 false) (tiled tile1) = tiled tile1 ∧
     s.lsFullRange 0 0 (tile1.slabBytes) = false ∧ ((ev (.macroParity 0 3 false) s).core 0).munit.tile.bind Tile.reloading = some (3, 1) ∧
     (let r := tiled { tile1 with closing := [closing3], reloading := some (3, 1) }
      let t (s : State) : Option (Nat × Option Nat) := (s.core 0).munit.tile.map fun t => (t.closing.length, t.terr.map Prod.fst)
      ev (.rowClose 0) r = r ∧ t ((at_ r (2 ^ 24 + 1)).unitTimeout 0 (2 ^ 24 + 1)) = some (0, some 0x57))) := by decide +kernel

/-! ### Hypotheses that can be met, and results: events of the edge engines and the bank units -/

namespace Tests

/-- A block that runs one round of the graph at 0x400, its record at local-store offset 0x100. -/
def block (op rounds record w3 : Nat) : Line := BitVec.ofNat 512 (0x400 + (rounds + op * 2 ^ 24) * 2 ^ 64 + record * 2 ^ 128 + w3 * 2 ^ 192)
def oB : OpBlock := { task := 1, op := 5, unit := 0, offset := 64 }
def asking (s : State) (b : Line) : State := waitingOn s [.g 3, .p 1] [] (.ecmd 0 64 b none false)
def sets (v : VetchSet) : State := { mem with clusters := [(0, { vetch := some v, taken := some 0 })] }
def answers (t : State) : List (List Nat) := t.t.long.map fun l => l.vals.map BitVec.toNat
def bank (queue : List BankReq) (running : Option (BankReq × Nat)) (es : Sparse HEntry) : State :=
  { base with sorrel := [(0, { queue := queue, running := running, entries := es })] }
def bq : BankReq := { task := 1, op := 5, launch := 0, entry := 2, pa := 0x3040, pageBase := 0x3000, pageSize := 4096, b := 6, c := 7, vdst := false }

end Tests

-- EnginesAnswerBlocks (R284): each field, the alignment of the graph, a translation that faults
theorem test_hyps_blocks : let s (b : Line) : State := asking (world 0 0) b
    Claim.blockFields (block 1 1 0x100 0) = true ∧ Claim.blockFields (block 0 1 0x100 0) = false ∧ Claim.blockFields (block 1 1 0x101 0) = false ∧
    Claim.blockFields (block 1 1 (2 ^ 19) 0) = false ∧ Claim.blockFields (block 1 1 (2 ^ 19 - 64) 0x1FF) = true ∧ Claim.blockFields (block 1 1 0x100 0x200) = false ∧
    ((s (block 1 1 0x100 0)).pendingEcmd oB 0).isSome = true ∧ answers (ev (.vetchRun oB) (s (block 0 1 0x100 0))) = [[0x202, 0]] ∧
    answers (ev (.vetchRun oB) (s (block 1 1 0x100 0 ||| 8))) = [[0xA02, 0]] ∧ answers (ev (.vetchStop oB) (s (block 2 1 0x100 0 ||| 8))) = [[0xA02, 0]] ∧
    ev (.vetchStop oB) (s (block 1 1 0x100 0)) = s (block 1 1 0x100 0) ∧ ev (.vetchRun oB) mem = mem := by decide +kernel

-- RoundsRunAndSetsEnd: no set; after its rounds; on STOP; a fault; a record written; a round with a job that has not finished
theorem test_hyps_rounds : let ended (t : State) : Option (Bool × Nat × Nat) := (t.vetch? 0).map fun v => (v.ended, v.cause, v.inner)
    ev (.roundStart 0) mem = mem ∧ ended (ev (.roundStart 0) (sets { set0 with round := 1 })) = some (true, 0, 0) ∧
    ended (ev (.roundStart 0) (sets { set0 with stop := true })) = some (true, 0, 0) ∧
    ended (ev (.engineFault 0) (sets { set0 with fault := some (0x10, 8) })) = some (true, 0x5E, 0x10) ∧
    ended (ev (.engineFault 0) (sets set0)) = some (false, 0, 0) ∧ ev (.roundEnd 0) (sets { set0 with inRound := true }) = sets { set0 with inRound := true } ∧
    (let t := ev (.setEnd 0) (sets { set0 with ended := true, cause := 0x5E, inner := 0x10, round := 2, edges := 3, va := 8, record := 2 ^ 19 - 64 })
     ended t = none ∧ (t.cluster 0).taken = none ∧ t.lsRead 0 (2 ^ 19 - 64) 8 = 0x5E10000200000000 ∧ t.lsRead 0 (2 ^ 19 - 56) 8 = 3 ∧
     t.lsRead 0 (2 ^ 19 - 32) 8 = 8) ∧ ended (ev (.setEnd 0) (sets set0)) = some (false, 0, 0) := by decide +kernel

-- R285, R290: MODE 10 pulls, MODE 01 pushes; signed and unsigned, by hand
theorem test_hyps_engines_choose : roundPull (2 * 2 ^ 902) = true ∧ roundPull (2 ^ 902) = false ∧ combine 0 (-1) 1 = (1, 0) ∧ combine 1 (-1) 1 = (-1, 0) ∧
    combine 2 (-1) 1 = (-1, 0) ∧ combine 3 (-1) 1 = (1, 0) ∧ combine 4 (-1) 1 = (0, 0) ∧ combine 5 6 3 = (7, 0) ∧ combine 6 6 3 = (2, 0) := by decide +kernel

-- BankUnitsServe: an entry, none, another launch's; a handler at 2048 cycles and just before; the sensors
theorem test_hyps_bank_units : let e : HEntry := { launch := 0, fmts := [9], rm := 1, lines := [0] }
    let i : Instr := .sorrelHandler 0
    let run (n : Nat) := at_ (bank [] (some (bq, 0)) [(2, e)]) n
    ev i (bank [] none []) = bank [] none [] ∧ ((ev i (bank [bq] none [])).unit 0).running = none ∧
    (((bank [bq] none [(2, e)]).startHandler 0).task? (sorrelKey 0)).any (fun t =>
      t.regs.rg 1 == 0x40 && t.regs.rg 2 == 6 && t.regs.rg 3 == 7 && t.regs.rg 4 == 64 && t.regs.rf 0 == 9 && t.sys.frmode == 1) = true ∧
    ((bank [bq] none [(2, { e with launch := 3 })]).startHandler 0).task? (sorrelKey 0) = none ∧
    ((ev (.hBound 0) (run 2048)).unit 0).running = none ∧ ((ev (.hBound 0) (run 2047)).unit 0).running = some (bq, 0) ∧
    (let t := (ev (.tempRefresh 0 80 86) (at_ base 65536)).die 0
     (t.temp, t.hot) = (86, true)) ∧ ((ev (.tempRefresh 0 80 85) (at_ base 65536)).die 0).hot = false ∧
    ev (.tempRefresh 0 80 86) (at_ base 65535) = at_ base 65535 := by decide +kernel

/-! ### Hypotheses that can be met, and results: events of queues, launches, storage and errors -/

namespace Tests

/-- Queue 3 with a ring of 16 records at 0x4000 and this record at its head. -/
def queued (rec : Nat) : State :=
  ({ dies base with dev := { base.dev with queues := [(3, { ring := 0x100, root := 0x800, en := true, tail := 1 })] } } : State).homeWrite 0x4000
    (BitVec.ofNat 512 rec) allBytes
/-- A record: OP, NTEAM 1, PLACE, COMPL, CREC. -/
def recOf (op place compl crec : Nat) : Nat :=
  0x40 + (op * 2 ^ 56 + 2 ^ 32 + place * 2 ^ 22) * 2 ^ 64 + compl * 2 ^ 192 + crec * 2 ^ 256
def consumed (rec : Nat) : State := { dies base with launches := [(1, { queue := 3, root := 0x200000, record := LaunchRec.ofNat rec })] }
def phase (s : State) : Option (LaunchPhase × Option Nat) := (s.launch? 1).map fun l => (l.phase, l.failed)

/-- A storage-backed page that is not resident: locator engine 0, slot 1, page 9; its PTE lies at 0x700. -/
def svc (pte : Nat) : State :=
  let v : Service := { id := 4, pteAt := 0x700, locator := BitVec.ofNat 44 (2 ^ 38 + 9), part := 0, waiters := [] }
  ((base.homeWrite 0x700 (BitVec.ofNat 512 pte) allBytes).onEngine 0 fun t =>
    { t with ns := [(1, { nsv := true, nblk := 100 })], drives := [(0, { dv := true })], services := [v], tout := 1 })
def pteOf : Nat := 2 ^ 56 + (2 ^ 38 + 9) * 1024 + 0x1E
def servedBy (s : State) : List (Option Nat × Option Nat × Bool) := (s.engine 0).services.map fun v => (v.served, v.failed, v.reading.isSome)

end Tests

-- QueuesTakeRecords: a doorbell in range and beyond the ring, of another partition's queue; a record consumed
theorem test_hyps_queues : let bell (p : Nat) (v : BitVec 32) : BitVec 32 := ((ev (.doorbell (.pcie 0 p) 3 v) (queued 0)).queue 3).tail
    bell 0 16 = 16 ∧ bell 0 17 = 1 ∧ bell 1 16 = 1 ∧ (queued 0).forming 3 = false ∧ (queued 0).heldLine 0x4000 = false ∧
    (let t := ev (.recordConsume 3) (queued (recOf 1 1 0x1000 0x2000))
     (t.queue 3).head = 1 ∧ (t.launch? 1).map (fun l => (l.phase, l.record.nteam, l.record.place, l.record.compl, l.record.crec, l.root)) =
       some (.consumed, 1, 1, 0x1000, 0x2000, 0x200000)) ∧ ev (.recordConsume 4) (queued 0) = queued 0 := by decide +kernel

-- LaunchesForm, ListsAreChecked: each failure of step 1; an address that does not translate; a running launch that forms
theorem test_hyps_formation : let step1 (op place compl crec : Nat) : Option Nat := ({ record := LaunchRec.ofNat (recOf op place compl crec) } : Launch).step1
    step1 1 1 0x1000 0x2000 = none ∧ step1 3 1 0x1000 0x2000 = some 2 ∧ step1 1 3 0x1000 0x2000 = some 2 ∧ step1 1 1 0x1000 0x2001 = some 2 ∧
    step1 1 1 0x1001 0x2000 = some 0x6C ∧ step1 1 1 (ls 0) 0x2000 = some 0x6C ∧ step1 2 1 0x1000 0x2000 = some 2 ∧
    phase (ev (.launchFormation 1) (consumed (recOf 1 1 0x1000 0x2000))) = some (.finishing, some 0x10) ∧
    phase (ev (.launchFormation 1) (consumed (recOf 3 1 (ls 0) 0x2000))) = some (.finishing, some 2) ∧ ev (.launchFormation 9) base = base ∧
    (let s := (consumed (recOf 1 1 0x1000 0x2000)).onLaunch 1 fun l => { l with phase := .running }
     ((ev (.launchFormation 1) s).launch? 1).map (fun l => (l.formed, l.teams.length)) = some (true, 1) ∧ s.freeTeams 0 = 1024 ∧
     (s.launch? 1).bind (fun l => s.teamDie l 0) = some 0) ∧
    (let s := (consumed (recOf 1 1 0x1000 0x2000)).onLaunch 1 fun l =>
       { l with phase := .waiting, record := { l.record with dep0 := some (true, 3, 0) } }
     s.depMet (some (true, 3, 0)) = none ∧ ev (.dependenceMet 1) s = s ∧
     (let u := s.onDev fun d => { d with statuses := [(3 * 2 ^ 32, 2)], queues := [(3, { head := 1 })] }
      u.depMet (some (true, 3, 0)) = some false ∧ u.depMet (some (false, 3, 0)) = some true ∧ phase (ev (.dependenceMet 1) u) = some (.consumed, none))) := by
  decide +kernel

-- LaunchesEnd: a launch with nothing left, with a task left; its record cannot be written; an ABORT; a walk
theorem test_hyps_launches_end : let s (l : Launch → Launch) : State := (consumed (recOf 1 1 0x1000 0x2000)).onLaunch 1 fun x => l { x with phase := .running, formed := true }
    (s id).completes 1 (((s id).launch? 1).getD {}) = true ∧ phase (ev (.launchCompletion 1) (s fun l => { l with liveTasks := 1 })) = some (.running, none) ∧
    (ev (.launchCompletion 1) (s id)).dev.statuses = [(3 * 2 ^ 32, 1)] ∧ (ev (.launchCompletion 1) (s fun l => { l with nkill := 1 })).dev.statuses = [(3 * 2 ^ 32, 2)] ∧
    (let r : Launch := { seq := 5, nkill := 2, firstCause := 0x10, firstTask := 7, nret := 9 }
     r.completionRecord.length = 64 ∧ ofBytes r.completionRecord = 0x202 + 5 * 2 ^ 32 + 9 * 2 ^ 64 + (0x10 + 7 * 2 ^ 8) * 2 ^ 192) ∧
    (let a := (consumed 0).onLaunch 1 fun l => { l with record := { op := 2, dep0 := some (false, 3, 5) } }
     phase (ev (.abort 1) a) = some (.waiting, none) ∧
     phase (ev (.abort 1) (a.onDev fun d => { d with statuses := [(3 * 2 ^ 32 + 5, 1)], queues := [(3, { head := 6 })] })) = some (.finishing, none) ∧
     phase (ev (.completionFlush 1) a) = some (.consumed, none)) ∧ ev (.pageWalk 4096 0 0) mem = mem := by decide +kernel

-- ServicesGoOn, CommandsEnd (R341 to R345): a frame, none, a changed PTE, each refusal; each end of a Read
theorem test_hyps_services : let i : Instr := .storageService 0 4
    let s := (svc pteOf).onEngine 0 fun t => { t with reclaimed := [0x8000] }
    servedBy (ev i s) = [(none, none, true)] ∧ ((ev i (svc pteOf)).engine 0).services.all (fun v => v.hungry) = true ∧
    servedBy (ev i (svc 0)) = [] ∧ ev (.storageService 0 9) base = base ∧
    ((svc pteOf).engine 0).refuses 1 9 = none ∧ ((svc pteOf).engine 0).refuses 1 100 = some 0x24 ∧ ((svc pteOf).engine 0).refuses 2 9 = some 0x23 ∧
    (((svc pteOf).onEngine 0 fun t => { t with drives := [(0, { dv := true, gone := true })] }).engine 0).refuses 1 9 = some 0x25 := by decide +kernel

theorem test_hyps_storage_commands : let reading := (svc pteOf).onEngine 0 fun t =>
      { t with services := t.services.map fun v => { v with reading := some (0x8000, BitVec.ofNat 64 pteOf, 5) } }
    (reading.service? 0 4).isSome = true ∧ reading.heldLine 0x700 = false ∧ servedBy (ev (.nvmeCompletion 0 4 .protection) reading) = [(none, none, true)] ∧
    servedBy (ev (.nvmeCompletion 0 4 (.error 7)) reading) ≠ [(none, none, true)] ∧ servedBy (ev (.storageTimeout 0 4) (at_ reading 1028)) = [(none, none, true)] ∧
    servedBy (ev (.storageTimeout 0 4) (at_ reading 1029)) ≠ [(none, none, true)] := by decide +kernel

-- EvictionsRun: nothing wanted; an entry that is no resident page is skipped and counted; a clean page is reclaimed
theorem test_hyps_evictions : let e (s : State) : Teasel := s.engine 0
    let s := (base.onEngine 0 fun t => { t with lowat := 1, evbase := 9, evtail := 1 })
    ev (.evictionRun 0) base = base ∧ ((e (ev (.evictionRun 0) s)).evhead, (e (ev (.evictionRun 0) s)).skip) = (1, 1) ∧
    (let r := s.reclaim 0 { id := 4, pteAt := 0x700, old := BitVec.ofNat 64 (2 ^ 56 + 8 * 1024 + 0xDF), new := 0, part := 0 }
     (e r).reclaimed = [0x8000]) := by decide +kernel

-- ErrorsAreRetried (R235 to R237): mended and lasting errors of a core, memory, a link and a drive; the report ring full
theorem test_hyps_errors : let half (s : State) := s.dev.badChan.get 0 0
    (ev (.errorRetry (.fetchParity 0) false) base).dev.rhead = 1 ∧ ((ev (.errorRetry (.fetchParity 0) true) base).core 0).withdrawn = true ∧
    half (ev (.errorRetry (.dram 0x100) false) base) = 0 ∧
    (ev (.errorRetry (.link 5) true) base).dev.badLinks = [5] ∧ (ev (.errorRetry (.link 5) false) base).dev.badLinks = [] ∧
    (ev (.errorRetry (.cacheLine 0x140 true) false) base).mem.poison = [0x140] ∧ ev (.errorRetry (.registerCache 9) true) base = base ∧
    ev (.errorRetry (.drive 8 0) true) base = base ∧ (((ev (.errorRetry (.drive 0 1) true) base).engine 0).drives.get {} 1).gone = true ∧
    (let f := base.onDev fun d => { d with rhead := 128 }
     (ev (.errorRetry (.link 5) false) f).dev.rhead = 128 ∧ (ev (.errorRetry (.link 5) false) f).dev.rlost = 1) := by decide +kernel

-- ScrubsAndInvalidationsComplete: a scrub at its end and just before; an invalidation with and without a store before it
theorem test_hyps_scrub : let s (n : Nat) : State := { base with dev := { base.dev with cycle := n, chan := [(0, { scrub := some (2, 9) })] }, mem := { base.mem with dram := [⟨5, 1⟩] } }
    ((ev (.scrubComplete 0) (s 9)).ownOf 0).part = 2 ∧ (ev (.scrubComplete 0) (s 9)).mem.dram = [] ∧ ev (.scrubComplete 0) (s 8) = s 8 ∧
    ev (.scrubComplete 1) (s 9) = s 9 := by decide +kernel

theorem test_hyps_invalidation : let v (st : List Nat) : TlbInv := { id := 4, task := some 1, va := 0x1000, size := 12, all := false, cores := [0], stores := st }
    let s (st : List Nat) : State := { stored mem .plain 0x100 [1] with tlbinvs := [v st] }
    (s []).writesUnder (v []) = false ∧ (ev (.tlbinvCompletion 4) (s [])).tlbinvs = [] ∧ (ev (.tlbinvCompletion 4) (s [5])).tlbinvs.length = 1 ∧
    ((ev (.tlbinvCompletion 4) (s [])).core 0).tlb.map Tlb.vpn = [0, 2, 3, 4, 5] ∧ ev (.tlbinvCompletion 9) (s []) = s [] := by decide +kernel

/-! ### Hypotheses that can be met, and results: events from outside the device -/

-- RegistersAreWritten: partition 0 and another; a hole; HENTRY keeps its aligned part; a scrub begins; a key; cores in use
theorem test_hyps_control_space : let w (s : State) (who : Requester) (off : Nat) (v : Word) : State := ev (.registerWrite who off 8 v) s
    base.ctlCheck (Who.ofRequester (.hart 0)) 0 8 true = none ∧ (base.ctlCheck (Who.ofRequester (.pcie 0 1)) 0 8 true).isSome = true ∧
    ((w base (.hart 0) 0 0x7F).core 0).hentry = 0x47 ∧ ((w base (.hart 0) (64 * 4095 + 24) 0x7FFF).core 4095).fmap = 0x4000 ∧
    (w base (.pcie 0 1) 0 0x7F).dev.out = [.unsupported] ∧ base.dev.stage = 2 ∧
    ((ev (.ownershipWrite (.hart 0) 0x400 8 0x13) base).ownOf 0) = { crm := true, scrub := some (3, 2 ^ 22) } ∧
    ev (.ownershipWrite (.hart 0) 0x3F8 8 3) base = base ∧ base.coreInUse 0 = true ∧ base.coreInUse 8 = false ∧
    (ev (.ownershipWrite (.hart 0) 0xC00 8 0x0101010101010101) base).corePart 0 = 0 ∧
    (ev (.ownershipWrite (.hart 0) 0xC08 8 0x0F) base).corePart 8 = 15 ∧ (ev (.keyWrite (.hart 0) 15 7 1) base).dev.keys.get 0 15 = BitVec.twoPow 512 448 ∧
    ev (.keyWrite (.hart 0) 16 0 1) base = base := by decide +kernel

-- HostPortsAct: a guard taken, given up, by the wrong holder; a port that is busy, or that does not exist; an invalidation
theorem test_hyps_host_ports : let h (s : State) (b : Nat) : HostBlock := s.dev.host.get {} b
    let acq := ev (.guardGrant 0x40) (ev (.hostAcq 0 0x40) base)
    (h (ev (.hostAcq 0 0x40) base) 0).gdone = false ∧ (h acq 0).gdone = true ∧ (acq.guardRead none 0x40).1.w = true ∧
    (h (ev (.hostRls 0 0x40) acq) 0).gerr = 0 ∧ ((ev (.hostRls 0 0x40) acq).guardRead none 0x40).1.w = false ∧ (h (ev (.hostRls 1 0x40) acq) 1).gerr = 0x64 ∧
    (h (ev (.hostRls 0 0x40) base) 0).gerr = 0x64 ∧ (h (ev (.hostAcq 0 0x8000000000) base) 0).gerr = 0x64 ∧ ev (.hostAcq 48 0x40) base = base ∧
    (ev (.hostAcqs 47 0x40) base).mem.guards.length = 1 ∧ (ev (.hostTlbinv 0 0 0x14) base).tlbinvs.map (fun v => (v.all, v.cores.length)) = [(true, 4096)] ∧
    ev (.hostTlbinv 0 16 0x14) base = base ∧ ev (.hostTlbinv 0 0 0x18) base = base := by decide +kernel

-- StagesStart, ClocksFollowTheHeat
theorem test_hyps_stages : let s1 : State := { base with dev := { base.dev with stage := 1 } }
    let all := ev (.dieJoin 3 true) (ev (.dieJoin 2 true) (ev (.dieJoin 1 true) (ev (.dieJoin 0 true) (ev .fullStart s1))))
    all.dev.stage = 2 ∧ (ev .fullStart s1).dev.starting = true ∧ ev .fullStart base = base ∧ (ev (.mlayout 2 8) s1).die 2 = { cxuHeld := some 8 } ∧
    ev (.mlayout 2 9) s1 = s1 ∧ (ev (.dieJoin 0 false) (ev .fullStart s1)).dev.fail = 4 ∧ ((ev .fullStart s1).die 1).joined = false ∧ ((ev .fullStart s1).die 1).withdrawn = false ∧
    ev .cowslipVerify base = base ∧ State.reset.dev.stage = 0 ∧ State.reset.dev.fail = 0 := by
  decide +kernel

theorem test_hyps_heat : let s (n step deg : Nat) : State :=
      { base with dev := { base.dev with cycle := n, step := step, sensors := [(0, 40), (4, BitVec.ofNat 8 deg)] } }
    (ev .throttleStepDown (s (2 ^ 20) 3 106)).dev.step = 4 ∧ ev .throttleStepDown (s (2 ^ 20) 4 106) = s (2 ^ 20) 4 106 ∧
    ev .throttleStepDown (s (2 ^ 20) 3 105) = s (2 ^ 20) 3 105 ∧ ev .throttleStepDown (s (2 ^ 20 - 1) 0 106) = s (2 ^ 20 - 1) 0 106 ∧
    (ev .throttleStepUp (s (2 ^ 20) 1 100)).dev.step = 0 ∧ ev .throttleStepUp (s (2 ^ 20) 1 101) = s (2 ^ 20) 1 101 ∧
    ev .throttleStepUp (s (2 ^ 20) 0 100) = s (2 ^ 20) 0 100 := by decide +kernel

-- a sensor passes TLIM and its cycles begin; the trip temperatures of a die and of a stack, and one degree below
theorem test_hyps_trip : let s : State := base.onDev fun d => { d with cycle := 7 }
    ((s.heat 4 106).dev.stepAt, (s.heat 4 106).dev.tmax, (s.heat 4 100).dev.stepAt, (s.heat 5 106).dev.tmax) = (7, 106, 0, 0) ∧
    (let t (u : State) : Bool := (ev .thermalTrip u).dev.stopped
     t (s.heat 0 114) = false ∧ t (s.heat 0 115) = true ∧ t (s.onDie 3 fun x => { x with stack1 := 104 }) = false ∧
     t (s.onDie 3 fun x => { x with stack1 := 105 }) = true ∧ goes (step (ev .thermalTrip (s.heat 0 115))) = false) := by decide +kernel

-- AccessesFromOutsideEnd: an entry that is not valid; a peer that is known, of another partition; a sealed page; a hart
theorem test_hyps_accesses : let s : State := { base with dev := { base.dev with peers := [(2, { v := true, remp := 1, locp := 0 })], notices := [(7, 2)] } }
    let out (i : Instr) (s : State) : List FabricOut := (ev i s).dev.out
    out (.pcieInbound 0 0 (.read 0 4)) base = [.unsupported] ∧ ev (.pcieInbound 6 0 (.read 0 4)) base = base ∧
    out (.peroldInbound 2 1 (.read 0x40 2)) (s.homeWrite 0x40 0x0201 allBytes) = [.reply [1, 2]] ∧ out (.peroldInbound 2 0 (.read 0x40 2)) s = [.unsupported] ∧
    out (.peroldInbound 3 1 (.read 0x40 2)) s = [.unsupported] ∧ (ev (.peroldInbound 2 1 (.write 0x40 [9])) s).byteAt 0x40 = 9 ∧
    out (.peroldInbound 2 1 (.write 0x40 [9])) (s.onMem fun m => { m with page := [(0, .sealed 3)] }) = [.unsupported] ∧
    (ev (.peroldInbound 2 1 (.ackNotice 7)) s).dev.notices = [] ∧
    (let t := ev (.peroldInbound 2 1 (.offer 0x40 .add true 5 0)) (s.homeWrite 0x40 7 allBytes)
     t.dev.out = [.reply [7, 0, 0, 0, 0, 0, 0, 0]] ∧ t.byteAt 0x40 = 12) ∧ out (.peroldInbound 2 1 (.offer 0x41 .add true 5 0)) s = [.unsupported] ∧
    out (.yarrowHartAccess 0 (.load {} 0x40 1)) (base.homeWrite 0x40 7 allBytes) = [.hart 0 (.bytes [7])] ∧
    out (.yarrowHartAccess 0 (.load {} 0x8100000000 1)) base = [.hart 0 .accessFault] ∧
    out (.yarrowHartAccess 0 (.fetch { root := some 0x200000 } 0x40 1)) base = [.hart 0 .pageFault] ∧
    out (.yarrowHartAccess 0 (.load { guest := some 0x200000 } 0x40 1)) base = [.hart 0 .guestPageFault] ∧
    ev (.yarrowHartAccess 32 (.load {} 0x40 1)) base = base ∧ ev (.yarrowHartAccess 31 (.fence true true)) base = base := by decide +kernel

-- port 0 as an endpoint: a function's queue belongs to its partition; a request for BAR0 of the recovery endpoint
theorem test_hyps_endpoint : let s : State := base.onDev fun d => { d with endpoint := true, requesters := [(0, { v := true, queue := 4 })], queuePart := [(4, 1)] }
    let page : State := s.homeWrite 0x200000 0 allBytes
    let out (i : Instr) (s : State) : List FabricOut := (ev i s).dev.out
    let place (v : Nat) : List FabricOut := out (.pcieInbound 0 0 (.toFunction v (.write 0x40 [9]))) page
    place 2 = [.unsupported] ∧ out (.pcieInbound 0 0 (.write 0x40 [9])) page = [.unsupported] ∧
    ev (.pcieInbound 0 0 (.toFunction 1 (.write 0x40 [9]))) page = page.pcieRequest 0 0 (.write 0x40 [9]) := by decide +kernel

theorem test_hyps_bar0 : let s : State := { State.reset with dev := { State.reset.dev with fail := 1 } }
    let at_ (r : Inbound) (s : State) : State := ev (.pcieInbound 0 0 r) s
    let written := at_ (.write 0x3FFFFFF [9]) s
    s.dev.recovering = true ∧ written.dev.bar0 = [(0x3FFFFFF, 9)] ∧ (at_ (.read 0x3FFFFFF 1) written).dev.out = [.reply [9]] ∧
    (at_ (.write 0x3FFFFFF [9, 9]) s).dev.out = [.unsupported] ∧ (at_ (.read 0x4000008 1) s).dev.out = [.unsupported] ∧
    ((at_ (.read 0x4000000 8) s).dev.out.length, (at_ (.read 0x4000000 8) s).free) = (1, s.free + 8) ∧
    (at_ (.toFunction 1 (.read 0 1)) s).dev.out = [.unsupported] ∧ at_ (.write 0x4000000 [1, 0, 0, 4, 0, 0, 0, 0]) s = s := by decide +kernel


/-! ### Witnesses of the arithmetic statements' hypotheses: each instruction with the rows of its table -/

theorem test_hyps_exact_values : Claim.exactly (.fin false 3 (-1) false) ∧ Claim.exactly (.fin true 0 0 false) ∧
    (Val.add .rne (.inf true) (.inf false)) = (.nan false, fNV) ∧ (Val.nan true).isNan = true := by
  exact ⟨rfl, rfl, by decide +kernel, rfl⟩

-- RoundingFollowsItsMode at a tie (5 to a multiple of 2) and below it, e below q
theorem test_hyps_rounding : (-1 : Int) < 0 ∧ (roundTo .rne false 5 (-1) false 0).1 = 2 ∧ (roundTo .rna false 5 (-1) false 0).1 = 3 ∧
    (roundTo .rtz true 5 (-1) false 0).1 = 2 ∧ (roundTo .rup false 5 (-1) false 0).1 = 3 ∧ (roundTo .rdn true 5 (-1) false 0).1 = 3 ∧
    (roundTo .rdn false 4 (-1) false 0) = (2, false) := by decide +kernel

-- the instructions of the FP tables; that each runs on `base` is test_runs_plain_1 to 6
theorem test_hyps_float_tables : let o := A (.g 3) (.g 1) (.g 2) .zero (some .f32) 0
    let u := A (.g 3) (.g 1) .zero .zero (some .f32) 0
    ([Instr.fadd o, .fsub o, .fmul o, .ffma (A (.g 3) (.g 1) (.g 2) (.g 4) (some .f32) 0)].all fun i => (Claim.fpShort base i).isSome && runs base i) = true ∧
    ([Instr.fdiv o, .fsqrt u, .frcp u, .frsq u, .fexp2 u,
      .flog2 u].all fun i => (Claim.fpLong base i).isSome && runs base i) = true ∧ base.t.outcnt < 64 ∧
    srcTy 10 = some .f32 ∧ (Claim.fpShort base (.fdiv o)).isNone = true := by decide +kernel

theorem test_hyps_lane_tables : let o := A (.v 3) (.v 1) (.v 2) (.m 4) (some .f32) 0
    let u := A (.v 3) (.v 1) .zero (.m 4) (some .f32) 0
    let n := A (.v 3) (.v 1) (.v 2) (.m 4) (some .i16) 0
    ([Instr.vfadd o, .vfsub o, .vfmul o, .vfmin o, .vfmax o, .vffma (A (.v 3) (.v 1) (.v 2) (.v 5) (some .f32) 0), .vadd n, .vsub n, .vmul n, .vmulh n,
      .vmin n, .vmax n, .vmadd (A (.v 3) (.v 1) (.v 2) (.v 5) (some .i16) 0), .vand n, .vor n, .vxor n, .vshl n, .vshr n, .vsra n, .vsel n,
      .vperm n].all fun i => (Claim.lanesOf base i).isSome && runs base i) = true ∧
    ([Instr.vfdiv o, .vfsqrt u, .vfrcp u].all fun i =>
      (Claim.longLanes base i).isSome && runs base i) = true := by decide +kernel

theorem test_hyps_lane_tables_2 : let o (t : Ty) (imm : Nat) := A (.v 3) (.v 1) .zero (.m 4) (some t) imm
    ([Instr.vbcast (A (.v 3) (.g 1) .zero (.m 4) (some .i32) 0), .vins (A (.v 3) (.g 1) .zero .zero (some .i32) 2),
      .vcvt (o .f16 10), .vcvt (o .f32 10), .vcvt (o .f32 8), .vpack (o (.nf 0) 10), .vunpack (o .f32 12),
      .vtsum (A (.v 3) (.v 1) .zero .zero (some .f32) 0)].all fun i => (Claim.lanesOf base i).isSome && runs base i) = true := by
  decide +kernel

-- ConversionPartOutOfRangeTraps, the first part out of range of each form; ZeroPackingStart, the first lanes off a group
theorem test_hyps_parts : let o (t : Ty) (src part : Nat) := A (.v 3) (.v 1) .zero (.m 4) (some t) (src + 32 * part)
    let z (k : Nat) : Instr := .vzpack (A (.v 3) (.v 1) (.g 2) .zero (some .i16) k)
    let good (i : Instr) : Bool := ((encode i).map fun w => decode w == .ok i) == some true
    let bad (i : Instr) : Bool := good i && runs base i && (trap base i).1 == 2
    let runs_ (i : Instr) : Bool := good i && (trap base i).1 == 0
    OpA.part (o .f16 10 2) = 2 ∧ bad (.vcvt (o .f16 10 2)) = true ∧ bad (.vcvt (o .f32 10 1)) = true ∧
    bad (.vcvt (o .f32 8 2)) = true ∧ bad (.vpack (o (.nf 0) 8 2)) = true ∧ bad (.vunpack (o .f16 12 2)) = true ∧
    runs_ (.vcvt (o .f16 10 1)) = true ∧ runs_ (.vcvt (o .f32 10 0)) = true ∧ runs_ (.vcvt (o .f32 8 1)) = true ∧
    runs_ (.vpack (o (.nf 0) 8 1)) = true ∧ runs_ (.vunpack (o .f16 12 1)) = true ∧ runs_ (z 16) = true ∧ bad (z 8) = true ∧
    bad (z 32) = true := by decide +kernel

-- ZeroPackingCompletes past the last lane and off a group of sixteen; the pair sum on the pair v3, v4
theorem test_hyps_packing_and_pair : let s := vs 16 [1] []
    let o (k : Nat) := A (.v 3) (.v 1) (.g 2) .zero (some .i16) k
    runs s (.vzpack (o 16)) = true ∧
    runs s (.vexpand (o 0)) = true ∧ runs s (.vtsum (A (.v 3) (.v 1) .zero .zero (some .pair32) 0)) = true := by decide +kernel

-- RECOVERY_IMAGE (R361): the state it waits for, and a state it leaves alone; the layout of an image is opaque
theorem test_hyps_recovery : let s : State := { State.reset with dev := { State.reset.dev with fail := 1 } }
    s.dev.recovering = true ∧ s.dev.stage = 0 ∧ s.dev.fail ≠ 0 ∧ ev (.recoveryImage 5) base = base ∧
    ev (.recoveryImage 0x4000001) s = s := by
  decide +kernel

theorem test_hyps_recovered (h : (({ State.reset with dev := { State.reset.dev with fail := 1 } } : State).imageFault (Config.header [0, 0])) = none) :
    (out (exec (.recoveryImage 2) { State.reset with dev := { State.reset.dev with fail := 1 } })).dev.flash = [0, 0] := by
  have e : ((List.range (2 : BitVec 64).toNat).map fun i => ({ State.reset.dev with fail := 1 } : Dev).bar0.get 0 i) = [0, 0] := by decide
  simp only [exec, execRecoveryImage, e, h]
  rfl

-- ImagesAreVerified: no image; a body beyond 64 MiB, or keys of another length; a signature that verifies nothing
theorem test_hyps_image_format : let key := List.replicate 96 (0 : Byte)
    let h : Config.ImageHeader := { svn := 0, endpoint := false, ecdsaKey := key, lmsKey := [], ecdsaSig := key, lmsSig := [], body := [1] }
    State.reset.imageFault none = some 3 ∧ State.reset.imageFault (some { h with ecdsaKey := key ++ [0] }) = some 3 ∧
    State.reset.imageFault (some { h with ecdsaSig := [] }) = some 3 ∧ State.reset.imageFault (some h) = some 1 := by decide +kernel

/-! ### Hypotheses that can be met: accesses that wait, lost lines, and what is bounded -/

namespace Tests

/-- An exclusive acquire that is outstanding, before every op of the task. -/
def gate : LongOp := { op := 0, pc := 0, dsts := [.g 9], vals := [], act := .guard false .core 0x40 none false, since := 0 }
def behind (s : State) : State := { s.onT (fun t => { t with long := [gate] }) with ops := 6 }
/-- Both halves of the channel of an address are withdrawn. -/
def lost (s : State) (pa : Nat) : State := s.onDev fun d => { d with badChan := [(s.devChannel pa, 3)] }
def leased (s : State) (pa : Nat) : State :=
  let e : Decline := { address := pa, ty := none, stamp := 1, tid := 1, written := true, lease := some 9 }
  s.onMem fun m => { m with decl := [(mem.declKey pa, { entries := [e] })] }
def rdcOne (s : State) (dirty : BitVec 64) : State :=
  s.onMem fun m => { m with rdc := [(rdcKey 0 0x40, { data := 0x55, valid := allBytes, dirty := dirty })] }

end Tests

-- spec/12_ordering_notes.md R215: accesses to local store behind an acquire; a versioned task holds its slot behind them
theorem test_hyps_behind_acquire : let s := behind (at1 mem (ls 8))
    s.t.lsHeld s.ops 8 4 true = true ∧ mem.t.lsHeld mem.ops 8 4 true = false ∧
    (out (exec (.st ldO) s)).t.stores.map Store.ls = [some 8] ∧ (out (exec (.stf lfO) s)).t.stores.map Store.ls = [some 8] ∧
    longs (out (exec (.ldf lfO) s)) = [(false, []), (false, [])] ∧ longs (out (exec (.ldft ftO) s)) = [(false, []), (false, [])] ∧
    reply (out (exec (.oadd offO) (behind (off (ls 8) 5 0)))) = [(9, 0, 0), (9, 0, 0)] ∧
    (let w := out (exec (.st ldO) s)
     w.t.lsClash w.ops 8 4 = true ∧ held (out (exec (.st ldO) (ver w))) = true ∧ w.t.lsOwed w.ops 8 4 = true ∧ w.t.lsOwed w.ops 64 4 = false) := by decide +kernel

-- blocks, descriptors and job records that wait for an access to local store
theorem test_hyps_local_waits : let w (s : State) : State := { s.onT fun t => { t with stores := [{ aStore with ls := some 0, data := List.replicate 128 1 }] } with ops := 6 }
    held (out (exec (.copyx copyO) (w (descAt (copy 0x100 0x1000 0) 16 2 64 32 0)))) = true ∧
    held (out (exec (.ecmd ecmdO) (w (g (at1 mem 0) 2 (ls 64))))) = true ∧
    held (out (exec (.gath (E .zero .core 0 .zero (.g 2) .zero none 0 7)) (w (job mem 0)))) = true ∧
    held (out (exec (.mfmt (E .zero .core 0 (.g 1) (.g 2) .zero none 0 0)) (w (tileAt (at1 mx (cap 0)) 1)))) = true := by decide +kernel

-- SendsComplete: a send that an exit of its cycle could still pass, one that was passed, one behind a `sendt`
theorem test_hyps_send_again : let s := (at1 (world 0 0) 0).onActor 0 0 fun y => { y with firing := true }
    let again (lost : Bool) (s : State) : State := s.onT fun t => { t with sched := { t.sched with sent := some 3, sentLost := lost } }
    let told : State := (again false s).onActor 0 0 fun y =>
      { y with ins := y.ins.map fun q => { q with items := [{ data := 9, scope := .core, sender := 5, sent := some (1, 3) }] } }
    let v : State := (s.deliver 0 0 0 { data := 0, scope := .core, sender := 1, sent := some (1, 0) }).2
    (trap (again true s) (.send sendO)).1 = 0x62 ∧ told.exposed 0 1 3 = true ∧ held (out (exec (.send sendO) told)) = true ∧
    (again false s).exposed 0 1 3 = false ∧ (out (exec (.send sendO) (again false s))).t.pc = 1 ∧
    v.exposed 0 1 0 = true ∧ held (out (exec (.send sendO) s)) = true ∧ (out (exec (.send sendO) s)).t.sched.sent = some 0 ∧
    (let b : State := { (at1 (world 0 0) 0).onT (fun t => { t with long := [{ gate with act := .sendt 0 0 .core }] }) with ops := 6 }
     b.t.sending 0 6 = true ∧ held (out (exec (.send sendO) b)) = true) := by decide +kernel

-- a steal from the core's own deque; a firing that has items to deliver when it ends; an acquire that is refused with W = 0
theorem test_hyps_own_deque : let steal : Instr := .dqsteal (E (.g 3) .core 1 (.g 1) .zero .zero none 0 0)
    longs (out (exec steal (at1 (dq [(1, 3)]) 0))) = [(true, [2, 3, 1])] ∧
    (world 0 1).delivers = true ∧ (world 0 0).delivers = false ∧ (world 0 1).writesOut 1 .device (world 0 1).ops = false ∧
    (out (exec (.done doneO) (world 0 1))).t.sched.status = .retired ∧
    (let s := (at1 mem 0x40).guardWrite 0x40 { w := false, rdrs := 0, phase := 0, holder := 1 }
     longs (out (exec (.acq grdO) s)) = [(false, [0x40])] ∧ (out (exec (.acq grdO) s)).mem.guards = []) := by decide +kernel

-- EretDisposesOfItsSubject: a target whose page is not resident is checked before the first issue
theorem test_hyps_resume_later : let s := hnd {} 0x10
    let t := (s.onTask 7 fun t => { t with sys := { t.sys with trappc := 0x2000 } }).onCore 0 fun c => { c with tlb := [{ page 2 (2 ^ 56) with
      root := s.rootOf (subj {} 0x10), pte := BitVec.ofNat 64 (0xDE + 2 * 1024 + 2 ^ 56) }] }
    (match t.checkTarget 0 (t.rootOf (subj {} 0x10)) false 0x2000 with
      | (.storage _ _, f) => (f.task? 7).map (fun u => u.sys.trappc.toNat) == some 0x2000
      | _ => false) = true ∧
    ((out (exec (.eret (S .zero .zero 0)) t)).task? 7).map (fun u => (u.pc.toNat, u.sched.resumeFrom)) = some (0x2000, some 0x2000) := by decide +kernel

-- LongResultsArrive, OffersAreAnswered: an acquire behind a load, a message that can be passed, lines that are lost
theorem test_hyps_landing_waits : let after (s : State) : State := s.onT fun t => { t with long := t.long ++ [{ aLoad with op := 1 }] }
    let dele := waitingOn mem [.g 3, .g 9, .p 1, .p 2] [] (.deleg 1 .core (some (6, 0, 0, true)))
    let rec_ := waitingOn (world 1 0) [.g 3, .p 1] [] (.recv 0 0)
    let grant := waitingOn mem [.g 3] [] (.guard false .core 0x40 (some 3) false)
    (after dele).t.loadsBefore 5 = true ∧ (landed (after dele) arrives).2.2.1 = 2 ∧ dele.t.loadsBefore 5 = false ∧ (landed (after rec_) arrives).2.2.1 = 2 ∧
    (after grant).grantWaits (after grant).t 5 0x40 0x40 = true ∧ grant.grantWaits grant.t 5 0x40 0x40 = false ∧ (landed (after grant) arrives).2.2.1 = 2 ∧
    (lost mem 0x1000).lostNow 0x1000 = some 0x75 ∧ mem.lostNow 0x1000 = none ∧
    (ev arrives (lost (waitingOn mem [.g 3, .p 1] [] (.ldft .n64 0x1000 (some 0x1000) 1)) 0x1000)).t.sys.cause = 0x75 ∧
    (let ds : List Reg := [.g 3, .g 9, .p 1, .p 2]
     let o := waitingOn (lost (shared mem) 0x100) ds [] (.offer (anOffer (.atomic .add)))
     let n := waitingOn (lost (shared mem) 0x100) ds [] (.offer { anOffer (.atomic .add) with nt := true })
     o.offerLost 0 (anOffer (.atomic .add)) = some 0x75 ∧ (ev (.offerReply 1 5) o).t.sys.cause = 0x75 ∧
     (landed n (.offerReply 1 5), (ev (.offerReply 1 5) n).t.regs.rg 9) = ((0, false, 0, 0), 2 + 0x7500)) := by decide +kernel

theorem test_hyps_bank_unit_lost : let ds : List Reg := [.g 3, .g 9, .p 1, .p 2]
    let r := { waitingOn (shared mem) ds [] (.offer (anOffer (.bank 0 0 4096))) with sorrel := [(mem.devChannel 0x100, { withdrawn := true })] }
    r.t.loadsHeld 5 = false ∧ r.heldLine 0x100 = false ∧ (r.unit (r.devChannel 0x100)).holds 1 5 = false ∧
    r.bankBehind r.t 1 5 (r.devChannel 0x100) = false ∧ (landed r (.offerReply 1 5), (ev (.offerReply 1 5) r).t.sys.cause) = ((0, false, 0, 0), 0x5F) := by
  decide +kernel

-- CopiesGoHome (spec/09_memory_offers.md R180): a leased line keeps its dirty bytes, and only they
theorem test_hyps_leased : let s (d : BitVec 64) := leased (rdcOne mem d) 0x40
    (s 1).leased 0x40 = true ∧ (rdcOne mem 1).leased 0x40 = false ∧
    (ev (.rdcWriteThrough 0 0x40) (s 1)).mem.rdc.map (fun e => (e.1, e.2.valid, e.2.dirty)) = [(rdcKey 0 0x40, 1, 1)] ∧
    (ev (.rdcWriteThrough 0 0x40) (s 0)).mem.rdc = [] := by decide +kernel

-- CopiesAndJobsMove: a copy that owes an arrival: its task ends, its writes, the arrivals of its core, no member
theorem test_hyps_copy_arrives : let c : Copy := { aCopy (ls 0x200) (ls 0x100) 0 with rows := 0, arrive := some 0 }
    let s (c : Copy) : State := ((world 0 0).onCore 0 fun k => { k with copies := [c] }).onT fun t => { t with tagCount := [(7, 1)] }
    let i : Instr := .copyCompletion 0 5
    let counts (s : State) : List (List (Nat × Nat)) := ((s.launch? 0).map fun l => l.groups.map Group.a).getD []
    let left (s : State) : Nat := (s.core 0).copies.length
    counts (ev i (s c)) = [[(0, 1)]] ∧ left (ev i (s c)) = 0 ∧ (s c).writesOut 1 .core 5 = false ∧ (s c).arrivalFull 0 0 0 = false ∧
    left (ev i ((s c).onT fun t => { t with stores := [aStore] })) = 1 ∧
    left (ev i ((s c).onLaunch 0 fun l => { l with groups := [{ members := [(0, 0), (0, 1)], a := [(0, 256)] }] })) = 1 ∧
    (let d := ev i ((s c).onT fun t => { t with sched := { t.sched with dying := some (1, false) } })
     counts d = [[]] ∧ left d = 0) ∧
    (let d := ev i (s { c with arrive := some 1 })
     d.t.copyFaults.map (fun f => f.2.cause) = [0x60] ∧ left d = 0) := by decide +kernel

-- ParityErrorsAreMended: a line that is held; a word that fails again; a clean line with its area
theorem test_hyps_parity_again : let s := mem.onMem fun m => { m with ic := [(icKey 0 0x40, 5)] }
    (ev (.fetchParityRefetch 0 0x40) (leased s 0x40)).mem.ic = [] ∧ (leased s 0x40).heldLine 0x40 = true ∧
    (let i : Instr := .parityReplay 1 (.g 3)
     let t := pool (mem.onT fun t => { t with cached := allLines48 })
     (t.area 0 t.t.mapEntry 0).1 = none ∧ (ev i (mem.onT fun t => { t with recovered := [6] })).t.sched.status ≠ .issuing ∧
     ((ev i (mem.onT fun t => { t with recovered := [6] })).core 0).withdrawn = true) := by decide +kernel

-- ISSUE_CYCLE: a victim that waits gives up its slot; a register whose parity fails
theorem test_hyps_issue_more : let s := at_ (others base ((List.range 5).map (fun i => (i + 2, 0, if i = 2 then .parked else .issuing, some (i + 1), 0)) ++
      [(9, 0, .ready, none, 0)])) 4096
    s.agesNow 0 = some 4 ∧ stat (s.ageWaiting 0) 4 = some (.ready, none) ∧ base.ageWaiting 0 = base ∧
    (base.onT fun t => { t with bad := [2] }).t.failing [.add (A (.g 3) (.g 1) .zero .zero (some .i64) 5)] = some (.g 1) ∧
    base.t.failing [.add (A (.g 3) (.g 1) .zero .zero (some .i64) 5)] = none := by decide +kernel

-- TeamsMove: room for what a team still has to dispatch, and none; KILL_COMPLETE: targets with stores
theorem test_hyps_room : let l : Launch := { launch1 with todo := [0, 1] }
    let m : Moving := { launch := 0, team := 0, target := 2 }
    (dies base).roomFor l m 0 [] [] = true ∧ base.roomFor { l with part := 5 } m 0 [] [] = false ∧
    base.t.unsettled = false ∧ (base.onT fun t => { t with stores := [aStore] }).t.unsettled = true := by decide +kernel

-- RowsCloseAndTilesMove: a macro that is withdrawn; a spilled command that is due, waits for its slab, and has no active owner
theorem test_hyps_replay : let put (t : Tile) (c : MCmd) : State := (ring (tiled t)).onUnitM 0 fun u => { u with ring := [(0, c)] }
    let head (s : State) : State := s.homeWrite 0x30000 (BitVec.ofNat 512 (2 ^ 64)) allBytes
    let s := head (put tile1 (cmd 0xD2 0))
    let slab := head (put tile1 { cmd 0xD1 0 with c := 32 })
    ((s.ringFind 0 fun c => capKey c.cap == 5).1.map fun p => p.1) = some 0 ∧ s.mReady 0 tile1 (cmd 0xD2 0) = true ∧
    where_ (ev (.spillReplay 0) s) = (0, 0, 0) ∧ (s.task? 1).map (fun o => (o.sched.slot, o.sched.doneQueue)) = some (some 0, none) ∧
    slab.mReady 0 tile1 { cmd 0xD1 0 with c := 32 } = false ∧
    ((ev (.spillReplay 0) slab).core 0).munit.ring.map (fun e => e.2.since) = [1] ∧
    ev (.spillReplay 0) (s.onT fun t => { t with sched := { t.sched with slot := none } }) = s.onT (fun t => { t with sched := { t.sched with slot := none } }) ∧
    (let b := (tiled { tile1 with closing := [closing3], bcode := [(0, 5)] }).onUnitM 0 fun u => { u with broken := 0xFF }
     tile1.usesBroken 0xFF = true ∧ ((ev (.rowClose 0) b).tileOf 0).map (fun t => (t.terr, t.closing.length)) = some (some (0x5F, 2, 0), 0)) := by
  decide +kernel

-- QueuesTakeRecords (spec/21_launch_storage.md R328): the turn of a queue; LaunchesForm: lists at 0
theorem test_hyps_rotation : let s := queued (recOf 1 1 0x1000 0x2000)
    let two := (s.onDev fun d => { d with queues := d.queues ++ [(5, { ring := 0x100, root := 0x800, en := true, tail := 1 })] })
    two.queueReady 3 = true ∧ two.queueReady 5 = true ∧ two.queueRank 3 = 3 ∧ (two.onDev fun d => { d with lastQueue := 3 }).queueRank 5 = 1 ∧
    ((ev (.recordConsume 5) two).queue 5).head = 0 ∧ ((ev (.recordConsume 3) two).queue 3).head = 1 ∧
    ((ev (.recordConsume 5) (two.onDev fun d => { d with lastQueue := 3 })).queue 5).head = 1 := by decide +kernel

theorem test_hyps_lists_at_zero : let l : Launch := { root := 0x200000, record := LaunchRec.ofNat (recOf 1 2 0x1000 0x2000 + 0x40 * 2 ^ 128) }
    l.step1 = none ∧ l.record.op = 1 ∧ l.record.place = 2 ∧ (base.step1At l).1 = some none ∧
    (base.step1At { record := LaunchRec.ofNat (recOf 3 2 0x1000 0x2000) }).1 = some (some 2) := by decide +kernel

-- ErrorsAreRetried: a clean and a dirty line of an RDC slice; a late code, and codes that are none
theorem test_hyps_rdc_error : let e (s : State) : State := ev (.errorRetry (.rdcLine 0 0x40) false) s
    (e (rdcOne base 0)).mem.rdc = [] ∧ (e (rdcOne base 0)).mem.poison = [] ∧ (e (rdcOne base 1)).mem.poison = [0x40] ∧
    ev (.errorRetry (.rdcLine 4 0x40) false) base = base ∧ (e base).dev.rhead = 1 ∧
    ev (.errorRetry (.late 0x31 0x40 1) false) base = base ∧ ev (.errorRetry (.late 0x40 0x40 1) false) base = base ∧
    base.lateUnit 0x34 0x40 1 = (0, 0) := by decide +kernel

/-! ### Hypotheses that can be met: versions, graphs, re-runs, flushes behind a lease, translations of harts -/

namespace Tests

/-- Core 0's frame pool with a scratch area for the task in focus. -/
def scratched (s : State) : State :=
  (s.onCore 0 fun c => { c with fpbase := 0x10000, fplim := 0x100000, fmap := 0x10000 }).homeWrite 0x10000
    (BitVec.ofNat 512 (0x30001 * 2 ^ 128)) allBytes
/-- A versioned task that stores 4 bytes at this address. -/
def vst (s : State) (a : Nat) : State := ver (g (at1 s a) 3 0x01020304)
def versions (n : Nat) : Task := { base.t with version := (List.range n).map fun i => (64 * (i + 16), { data := 0, mask := 0, full := 0 }) }
theorem no_byte (n : Nat) : Sparse.find? (List.replicate n (0, 0#8)) 8 = none := by
  induction n with
  | zero => rfl
  | succ n ih => simpa [List.replicate_succ, Sparse.find?] using ih
def rerunShape (t : Task) : Status × Option Nat × Bool × Nat := (t.sched.status, t.sched.slot, t.sched.rerun, t.pc.toNat)

def put8 (s : State) (a v n : Nat) : State := s.homeWrite a (BitVec.ofNat 512 (v * 2 ^ (8 * (a % 64)))) (maskOf (a % 64) n)
/-- A graph of five vertices at 0x400: fronts at 0x600 and 0x680, offsets 4 and 7 of vertex 3 at 0x818, no FIN; vertex x in g1. -/
def graph (s : State) (x : Nat) : State :=
  g (at1 (put8 (put8 (put8 (put8 (put8 s 0x400 5 4) 0x448 0x600 8) 0x450 0x680 8) 0x408 0x800 8) 0x818 (7 * 2 ^ 64 + 4) 16) x) 2 0x400

/-- Launch 1 owes a flush, on which launch 2 depends; an acquire of its object at device scope waits. -/
def owing (s : State) : State := { s with launches := [(1, { queue := 3, seq := 0, phase := .done, flushed := false, dies := [1, 0], objectAt := some 0x80 }),
    (2, { record := { dep0 := some (false, 3, 0) } })] }.onMem fun m =>
      { m with guards := [(0x80, [{ who := .task 1 5, holder := 1, scope := .device, shared := false }])] }

/-- Six tables from 0x200000 that map page 0 to page 4 with these flags of the leaf; page 4 holds 7. -/
def paged (flags : Nat) : State := (List.range 6).foldl (fun s k => s.homeWrite (0x200000 + 4096 * k)
  (BitVec.ofNat 512 (if k = 5 then 4 * 1024 + flags else (0x201 + k) * 1024 + 1)) allBytes) (base.homeWrite 0x4040 7 allBytes)

end Tests

-- StoresIssue, a versioned task (R40, R233): a scratch area and none; the bytes of its version; the bounds
theorem test_hyps_version : let s := out (exec (.st ldO) (vst mem 0x100))
    ((scratched (vst mem (ls 8))).area 0 base.t.mapEntry 2).1 = some 0x30000 ∧
    (out (exec (.st ldO) (scratched (vst mem (ls 8))))).t.scratch = [(8, 4), (9, 3), (10, 2), (11, 1)] ∧
    ((vst mem (ls 8)).area 0 base.t.mapEntry 2).1 = none ∧ (trap (vst mem (ls 8)) (.st ldO)).1 = 0x72 ∧
    [0xFF, 0x100, 0x103, 0x104].map (Claim.versionByte s.t) = [none, some 4, some 1, none] ∧ s.byteAt 0x100 = 0 := by decide +kernel

theorem test_hyps_version_full : (versions 4095).versionFull [0x100] = false ∧ (versions 4096).versionFull [0x100] = true ∧
    (versions 4096).versionFull [0x400] = false ∧ (vst mem 0x100).publishWaits = false ∧ (leased (rdcOne (vst mem 0x100) 1) 0x40).publishWaits = true := by decide +kernel

theorem test_hyps_scratch_full (n : Nat) :
    ({ base.t with scratch := List.replicate n (0, 0) } : Task).scratchFull 8 1 = decide (32768 < n + 1) := by
  have e : List.range 1 = [0] := rfl
  simp [Task.scratchFull, e, List.filter, no_byte]

-- MaintenanceCompletes: a range of several pages, a fault in its last, a line of it that is held, dirty bytes that go to the channel
theorem test_hyps_pages : let o : OpE := E .zero .core 0 (.g 1) (.g 2) .zero none 0 0
    let s (s : State) (a n : Nat) : State := g (g s 1 a) 2 n
    (out (exec (.cleanR o) (s mem 0xF00 0x3100))).t.pc = 1 ∧ (trap (s mem 0x3F00 0x6000) (.flushR o)).1 = 0x10 ∧
    held (out (exec (.flushR o) (s (leased (rdcOne mem 1) 0x40) 0 0x80))) = true ∧
    (let t := out (exec (.flushR o) (s (rdcOne mem 1) 0 0x80))
     (t.byteAt 0x40, t.mem.rdc) = (0x55, [])) := by decide +kernel

-- ActivationInstructionsComplete, `eact` on a descriptor: vertex 3 joins FRONT[0]; vertex 5; FIN at 0 and at 0x900; CUR 1, marked already
theorem test_hyps_graph : let e (k : Nat) : Instr := .eact (E .zero .core 0 (.g 1) (.g 2) .zero none 0 k)
    let r (k : Nat) (s : State) : Nat × Nat × Nat × Nat × Nat :=
      let t := out (exec (e k) s)
      (t.t.pc.toNat, t.byteAt 0x600, t.byteAt 0x680, t.byteAt 0x900, t.byteAt 0x478)
    r 0 (graph mem 3) = (1, 8, 0, 0, 3) ∧ r 0 (graph mem 5) = (1, 0, 0, 0, 0) ∧ r 1 (graph mem 3) = (1, 0, 0, 0, 0) ∧
    r 1 (graph (put8 mem 0x458 0x900 8) 3) = (1, 0, 0, 8, 0) ∧ r 0 (graph (put8 (put8 mem 0x470 32 8) 0x680 8 1) 3) = (1, 0, 8, 0, 0) ∧
    (trap (g (at1 mem 3) 2 0x9000) (e 0)).1 = 0x10 := by decide +kernel

-- EretDisposesOfItsSubject, action 01: at once, with a load out, when that has come; a server task; its records
theorem test_hyps_rerun : let s (f : Task → Task) : State := (hnd {} 0x10).onTask 7 f
    (((s id).rerun 7).task? 7).map rerunShape = some (.ready, none, false, 0) ∧
    (((s fun t => { t with kind := .delegated }).rerun 7).task? 7).map rerunShape = some (.issuing, some 6, false, 0) ∧
    (((s fun t => { t with sched := { t.sched with rerun := true } }).finishRerun 7).task? 7).map rerunShape = some (.ready, none, false, 0) := by
  decide +kernel

theorem test_hyps_rerun_waits : let s := (hnd {} 0x10).onTask 7 fun t => { t with long := [aLoad] }
    ((s.rerun 7).task? 7).map rerunShape = some (.suspended, none, true, 0x40) ∧
    ((((hnd {} 0x10).onCore 0 fun c => { c with sfq := [aRec, { aRec with tid := 8 }] }).rerun 7).core 0).sfq.map FaultRec.tid = [8] := by
  decide +kernel

-- DelegationCompletes behind an `amsg` that waits for its slot, which resolves true and false
theorem test_hyps_deleg_behind : let waits := (at1 mem (far 0)).onT fun t => { t with attach := some 3, slots := [(3, .opened)] }
    let m := out (exec (.amsg (E .zero .core 0 (.g 1) (.g 2) (.g 4) none 0 7)) waits)
    let d := out (exec (.deleg delO) m)
    let after_ (p : Fin 16) : Nat × List (Option Nat) :=
      let t := out (exec (.gset (E .zero .core 0 .zero (.p p) .zero none 0 3)) d)
      (t.t.held.length, (t.core 1).requests.map Request.op)
    m.t.held.map (fun h => (h.sendsTo 1, h.sendsTo 2)) = [(true, false)] ∧ (d.t.held.length, longs d) = (2, [(false, [])]) ∧
    after_ 0 = (0, [none, some 1]) ∧ after_ 5 = (0, [some 1]) := by decide +kernel

-- StoresResolve: a translation that stands; RecallsAndFills: copies of a private page on its own die, the requester's and a third
theorem test_hyps_places : let s := stored mem .plain 0x100 [1]
    s.t.stores.map (fun st => ((s.placeStore s.t st).2.1.map fun q => (q.1, q.2.1),
      (s.placeStore s.t { st with places := [(0x900, true)] }).2.1.map fun q => (q.1, q.2.1))) = [([(0x100, false)], [(0x900, true)])] ∧
    (let copy : CLine := { data := 0x55, valid := allBytes, dirty := 0 }
     let p := mem.onMem fun m => { m with page := [(0, .priv 0)], rdc := [(rdcKey 0 0x40, copy), (rdcKey 1 0x40, copy), (rdcKey 2 0x40, copy)] }
     (p.recall 0 (some 1)).mem.rdc.map Prod.fst = [rdcKey 2 0x40]) := by decide +kernel

-- ParityErrorsAreMended: a line that fails again while it is held at its home
theorem test_hyps_fetch_again : let s := mem.onMem fun m => { m with ic := [(icKey 0 0x40, 5)] }
    (let t := ev (.fetchParityRefetch 0 0x40) (leased s 0x40)
     (t.mem.ic.length, t.mem.icAgain.length) = (0, 1)) ∧
    (let t := ev (.fetchParityRefetch 0 0x40) s
     (t.mem.ic.length, t.mem.icAgain.length) = (1, 0)) := by decide +kernel

-- a flush that is owed, and a lease that keeps it from being made: no task comes to the die, and the launch stays
theorem test_hyps_flush_waits : let s := owing (leased (rdcOne mem 1) 0x40)
    let u := owing mem
    let b : Birth := { launch := 2, core := 0, kind := .delegated, entry := 0x40 }
    (s.owedBlocked 2 0, u.owedBlocked 2 0, s.owedBlocked 1 0) = (true, false, false) ∧ (s.create b).isNone = true ∧ (u.create b).isSome = true ∧
    (ev (.completionFlush 1) s).launches.length = 2 ∧ (ev (.completionFlush 1) u).launches.length = 1 := by decide +kernel

-- MatrixCommandsTakeEffect and RowsCloseAndTilesMove: a withdrawn macro; a row that waits for its reload; an `msave` behind the ring
theorem test_hyps_reload : let broken := (tiled { tile1 with bcode := [(0, 5)] }).onUnitM 0 fun u => { u with broken := 0xFF }
    let full (s : State) (n : Nat) : State := s.onMem fun m => { m with lsFull := (List.range n).map fun i => (i, true) }
    let r := tiled { tile1 with n := 1, closing := [closing3], reloading := some (3, 1) }
    let shape (s : State) : Option (Nat × Bool × Nat) := (s.tileOf 0).map fun t => (t.closing.length, t.reloading.isSome, t.rows)
    ((broken.applyCmd 0 tile1 (cmd 0xD2 0)).tileOf 0).map (fun t => (t.terr, t.knext)) = some (some (0x5F, 0, 0), 32) ∧
    shape (ev (.rowClose 0) (full r 3)) = some (1, true, 0) ∧ shape (ev (.rowClose 0) (full r 4)) = some (0, false, 1) ∧
    shape (ev (.macroParity 0 3 false) (full (tiled { tile1 with n := 1, closing := [closing3] }) 4)) = some (1, false, 0) ∧
    (let s (n : Nat) : State := (((ring (tiled tile1)).onUnitM 0 fun u =>
        { u with ring := [(0, { cmd 0xD2 0 with arrived := n })], queue := [{ cmd 0xD3 0 with arrived := 5 }] }).homeWrite 0x30000
          (BitVec.ofNat 512 (2 ^ 64)) allBytes).onT fun t => { t with sched := { t.sched with doneQueue := some [] } }
     (s 4).activeTile tile1 = false ∧ (s 4).replays 0 tile1 { cmd 0xD2 0 with arrived := 4 } = true ∧
     (s 5).replays 0 tile1 { cmd 0xD2 0 with arrived := 5 } = false) := by decide +kernel

-- RoundsRunAndSetsEnd: an activation that still runs; dirty bytes behind a lease; an arrival with 255 and with 256 of its core
theorem test_hyps_set_waits : let v : VetchSet := { set0 with ended := true, record := 0x100 }
    let on (s : State) (v : VetchSet) : State := s.onCluster 0 fun c => { c with vetch := some v, taken := some 0 }
    let r (s : State) : Option (Bool × Bool) := ((ev (.setEnd 0) s).vetch? 0).map fun v => (v.ended, v.closed)
    let group (n : Nat) : State := (on (world 0 0) { v with arr := some 0 }).onLaunch 0 fun l => { l with groups := [{ members := [(0, 0), (0, 1)], a := [(0, n)] }] }
    r ((on mem v).onT fun t => { t with kind := .edge 0 false }) = some (true, false) ∧ r (on mem v) = none ∧
    r (on (leased (rdcOne mem 1) 0x40) v) = some (true, false) ∧ r (group 256) = some (true, true) ∧ r (group 255) = none := by decide +kernel

-- EvictionsRun: a page that goes; a PTE that is no resident page; lines that are held; an eviction that fails
theorem test_hyps_eviction_begins : let word := (2 ^ 38 + 9) * 1024
    let pte := 2 ^ 56 + 8 * 1024 + 0xDF
    let s (p : Nat) : State := ((base.homeWrite 0x9000 (BitVec.ofNat 512 (0x700 + word * 2 ^ 64)) allBytes).homeWrite 0x700
      (BitVec.ofNat 512 p) allBytes).onEngine 0 fun t => { t with lowat := 1, evbase := 9, evtail := 1, ns := [(1, { nsv := true, nblk := 100 })] }
    let leaf (s : State) : Nat := ofBytes ((List.range 8).map fun i => BitVec.ofNat 8 (s.byteAt (0x700 + i)))
    let b := (s pte).beginEviction 0
    (leaf b, (b.engine 0).evict.isSome, (b.engine 0).skip, (b.engine 0).evhead) = (word + 2 ^ 56 + 0xDE, true, 0, 1) ∧
    (let n := (s (pte - 1)).beginEviction 0
     (leaf n, (n.engine 0).evict.isSome, (n.engine 0).skip, (n.engine 0).evhead) = (pte - 1, false, 1, 1)) ∧
    ((s pte).evictWaits 0, (leased (s pte) 0x700).evictWaits 0, (leased (s pte) 0x9000).evictWaits 0) = (false, true, true) ∧
    (match (b.engine 0).evict with
      | some x =>
        let f := b.evictionFails 0 x
        leaf f == pte && (f.engine 0).evict.isNone && f.dev.rhead == 1
      | none => false) = true ∧ (leased ((svc pteOf).onEngine 0 fun t => { t with fftail := 1 }) 0).frameWaits 0 = true := by decide +kernel

-- spec/21_launch_storage.md R341: two slots that name one namespace share its pages
theorem test_slots_share : let slot (n : Nat) : TeaselSlot := { drv := 1, nsid := BitVec.ofNat 32 n, lbas := 12 }
    let s := (base.onEngine 0 fun t => { t with ns := [(1, slot 5), (2, slot 5), (3, slot 6)] }).writeDrive 0 1 9 [7]
    [1, 2, 3].map (fun n => s.nvme.get 0 (nvmeAt 0 ((s.engine 0).ns.get {} n) 9 0)) = [7, 7, 0] := by decide +kernel

-- QueuesTakeRecords, LaunchesEnd: a doorbell that is refused, and none of that number; an ABORT of a launch that waits for its object
theorem test_hyps_refused_bell : let bell (who : Requester) (q : Nat) : List FabricOut := (ev (.doorbell who q 16) (queued 0)).dev.out
    bell (.pcie 0 1) 3 = [.unsupported] ∧ bell (.hart 0) 3 = [] ∧ bell (.hart 32) 3 = [.hart 32 .accessFault] ∧ bell (.pcie 0 1) 131072 = [] ∧
    (let s := (consumed 0).onLaunch 1 fun l => { l with record := { op := 2, dep0 := some (false, 3, 5) } }
     let o : State := ({ s with launches := s.launches ++ [(2, { queue := 3, seq := 5, phase := .object, objectAt := some 0x80, record := { op := 1 } })] })
     ((ev (.abort 1) o).launch? 2).map (fun l => (l.phase, l.failed)) = some (.finishing, some 0x6B) ∧ o.forming 3 = true ∧
     (ev (.abort 1) o).forming 3 = false) := by decide +kernel

-- ScrubsAndInvalidationsComplete: a store whose translation goes, and another; dirty bytes behind a lease
theorem test_hyps_invalidation_waits : let v : TlbInv := { id := 4, task := some 1, va := 0x1000, size := 12, all := false, cores := [0], stores := [] }
    let s (pa : Nat) : State := ({ stored mem .plain 0x1000 [1] with tlbinvs := [v] } : State).onT fun t =>
      { t with stores := t.stores.map fun st => { st with places := [(pa, true)] } }
    let left (s : State) : Nat := (ev (.tlbinvCompletion 4) s).tlbinvs.length
    ((s 0x1000).writesUnder v, (s 0x100).writesUnder v, left (s 0x1000), left (s 0x100)) = (true, false, 1, 0) ∧
    left (leased (rdcOne { mem with tlbinvs := [v] } 1) 0x40) = 1 := by decide +kernel

-- AccessesFromOutsideEnd (R353): a user's page, the supervisor's with SUM; execute only with MXR; SB; A and D are set; two stages
theorem test_hyps_hart_pages : let o (x : HartSpace) (s : State) : List FabricOut := (ev (.yarrowHartAccess 0 (.load x 0x40 1)) s).dev.out
    let x : HartSpace := { root := some 0x200000 }
    let fault : List FabricOut := [.hart 0 .pageFault]
    let seven : List FabricOut := [.hart 0 (.bytes [7])]
    o { x with user := true } (paged 0xDF) = seven ∧ o x (paged 0xDF) = fault ∧ o { x with sum := true } (paged 0xDF) = seven ∧
    (ev (.yarrowHartAccess 0 (.fetch { x with sum := true } 0x40 1)) (paged 0xDF)).dev.out = fault ∧ o x (paged 0xC9) = fault ∧
    o { x with mxr := true } (paged 0xC9) = seven ∧ o x (paged (0xCE + 2 ^ 56)) = fault ∧ o { guest := some 0x200000 } (paged 0xDF) = seven ∧
    o { root := some 0, guest := some 0x200000 } (paged 0xDF) = fault ∧
    (let t := ev (.yarrowHartAccess 0 (.store { x with user := true } 0x40 1 9)) (paged 0x1F)
     (t.byteAt 0x205000, t.byteAt 0x4040) = (0xDF, 9)) := by decide +kernel

-- known answers of spec/23_host.md R351 and R360's algorithms: FIPS 197 appendix C.3, IEEE 1619 vector 10 (its first 64 bytes), FIPS 180-4 of "abc"
theorem test_aes_known : let keys := aesKeys 0x1f1e1d1c1b1a191817161514131211100f0e0d0c0b0a09080706050403020100
    aesDecrypt keys 0x8960494b9049fceabf456751cab7a28e = 0xffeeddccbbaa99887766554433221100 := by decide +kernel

theorem test_xts_known : let x : Line := BitVec.ofNat 512 (ofBytes ((List.range 64).map (BitVec.ofNat 8)))
    xtsEncrypt 0x92459474098205513799931697418802952783336462842393975853265941312776966649575999699370245777496226357174286053234590452818281827#512 0xFF x = 0xfd88b14bcbfebe4533fcad35ac860a68443f68acf917b3668d4afef876e2315d3be6a314d412aea45723485e3f8000ea9bcf70e3996c83e48603772f103a3b1c#512 := by
  decide +kernel

theorem test_sha_known : let abc : List Byte := [0x61, 0x62, 0x63]
    bigNat (sha384 abc) = 0xcb00753f45a35e8bb5a03d699ac65007272c32ab0eded1631a8b605a43ff5bed8086072ba1e7cc2358baeca134c825a7 ∧
    bigNat (sha256 abc) = 0xba7816bf8f01cfea414140de5dae2223b00361a396177a9cb410ff61f20015ad := by decide +kernel
end Sys2Proof.Machine
end

section
/-! The checks before the effect of every instruction that has a word (spec/03_encoding.md R66, R75 steps 7 to 11). -/

namespace Sys2Proof.Machine

open Sys2Proof

/-! ### The guard (R66) -/

theorem Regs.guard_of_gi_false (r : Regs) {h : Head} (hi : h.gi = false) : r.guard h = r.rp h.gp := by
  rw [Regs.guard, hi, Bool.xor_false]

theorem Regs.guard_of_gi_true (r : Regs) {h : Head} (hi : h.gi = true) : r.guard h = !r.rp h.gp := by
  rw [Regs.guard, hi, Bool.xor_true]

@[simp] theorem Regs.rp_zero (r : Regs) : r.rp 0 = true := rfl

theorem guardReadsPredicate : Claim.GuardReadsPredicate := by
  intro r h
  refine ⟨r.guard_of_gi_false, r.guard_of_gi_true, fun hp hi => ?_, fun hp hi => ?_⟩
  · rw [r.guard_of_gi_false hi, hp, Regs.rp_zero]
  · rw [r.guard_of_gi_true hi, hp, Regs.rp_zero, Bool.not_true]

/-! ### What each step of R75 decides where no earlier one applies -/

section
variable {t : Task} {r : Row} {f : Flds}

theorem checkBefore_unprivileged (hm : t.mayRun r = false) : checkBefore r f t = .trap 0x06 := by
  simp [checkBefore, hm]

theorem checkBefore_guard_pending (hm : t.mayRun r = true) (hp : t.seen.pending (.p f.hd.gp) = true) :
    checkBefore r f t = .trap 0x04 := by
  simp [checkBefore, hm, hp]

theorem checkBefore_guard_false (hm : t.mayRun r = true) (hp : t.seen.pending (.p f.hd.gp) = false)
    (hg : t.seen.guard f.hd = false) : checkBefore r f t = .skip := by
  simp [checkBefore, hm, hp, hg]

/-- Steps 7 and 8 are passed: what remains are the narrow formats and the hazards. -/
theorem checkBefore_guarded (hm : t.mayRun r = true) (hp : t.seen.pending (.p f.hd.gp) = false)
    (hg : t.seen.guard f.hd = true) :
    checkBefore r f t =
      if (narrowsOf r f).any fun k => !(NFmt.ofBits (t.seen.rf k)).valid then .trap 0x40
      else if (readsOf r f).any t.seen.pending then .trap 0x04
      else if (writesOf r f).any t.seen.pending then .trap 0x05
      else .pass := by
  simp [checkBefore, hm, hp, hg]

theorem checkBefore_format_invalid (hm : t.mayRun r = true) (hp : t.seen.pending (.p f.hd.gp) = false)
    (hg : t.seen.guard f.hd = true) (hk : ∃ k ∈ narrowsOf r f, (NFmt.ofBits (t.seen.rf k)).valid = false) :
    checkBefore r f t = .trap 0x40 := by
  have hn : ((narrowsOf r f).any fun k => !(NFmt.ofBits (t.seen.rf k)).valid) = true := by simpa using hk
  rw [checkBefore_guarded hm hp hg, if_pos hn]

/-- Step 9 is passed too: what remains are the hazards. -/
theorem checkBefore_formats_valid (hm : t.mayRun r = true) (hp : t.seen.pending (.p f.hd.gp) = false)
    (hg : t.seen.guard f.hd = true) (hv : ∀ k ∈ narrowsOf r f, (NFmt.ofBits (t.seen.rf k)).valid = true) :
    checkBefore r f t =
      if (readsOf r f).any t.seen.pending then .trap 0x04
      else if (writesOf r f).any t.seen.pending then .trap 0x05
      else .pass := by
  have hn : ¬ ((narrowsOf r f).any fun k => !(NFmt.ofBits (t.seen.rf k)).valid) = true := by simpa using hv
  rw [checkBefore_guarded hm hp hg, if_neg hn]

theorem checkBefore_source_pending (hm : t.mayRun r = true) (hp : t.seen.pending (.p f.hd.gp) = false)
    (hg : t.seen.guard f.hd = true) (hv : ∀ k ∈ narrowsOf r f, (NFmt.ofBits (t.seen.rf k)).valid = true)
    (hs : ∃ x ∈ readsOf r f, t.seen.pending x = true) : checkBefore r f t = .trap 0x04 := by
  rw [checkBefore_formats_valid hm hp hg hv, if_pos (List.any_eq_true.2 hs)]

theorem checkBefore_dest_pending (hm : t.mayRun r = true) (hp : t.seen.pending (.p f.hd.gp) = false)
    (hg : t.seen.guard f.hd = true) (hv : ∀ k ∈ narrowsOf r f, (NFmt.ofBits (t.seen.rf k)).valid = true)
    (hs : ∀ x ∈ readsOf r f, t.seen.pending x = false) (hd : ∃ x ∈ writesOf r f, t.seen.pending x = true) :
    checkBefore r f t = .trap 0x05 := by
  have hn : ¬ (readsOf r f).any t.seen.pending = true := by simpa using hs
  rw [checkBefore_formats_valid hm hp hg hv, if_neg hn, if_pos (List.any_eq_true.2 hd)]

end

/-! ### What the instruction then does -/

/-- An instruction whose checks end in a trap takes the trap at its own address. -/
theorem exec_traps_of_check {s : State} {i : Instr} {r : Row} {f : Flds} {c : Nat} (hi : i.info = some (r, f))
    (h : checkBefore r f s.t = .trap c) : ∃ t, exec i s = .next t ∧ Traps s t c s.t.pc {} := by
  obtain ⟨e, he⟩ := exec_gated hi s
  exact ⟨s.trap c, by rw [he, gated_trap h], s.trap_traps c⟩

/-- An instruction that its guard holds back only goes on. -/
theorem exec_goes_on_of_check {s : State} {i : Instr} {r : Row} {f : Flds} (hi : i.info = some (r, f))
    (h : checkBefore r f s.t = .skip) : ∃ t, exec i s = .next t ∧ Effect s t [] 0 (nextPc s.t.pc) := by
  obtain ⟨e, he⟩ := exec_gated hi s
  exact ⟨s.advance, by rw [he, gated_skip h], s.advance_effect⟩

theorem checksBeforeEffectInOrder : Claim.ChecksBeforeEffectInOrder := by
  intro s i r f hi
  refine ⟨fun hm => ?privilege, fun hm hp => ?guardPending, fun hm hp hg => ?guardFalse,
    fun hm hp hg => ⟨fun hk => ?format, fun hv => ⟨fun hs => ?source, fun hs hd => ?dest⟩⟩⟩
  case privilege => exact exec_traps_of_check hi (checkBefore_unprivileged hm)
  case guardPending => exact exec_traps_of_check hi (checkBefore_guard_pending hm hp)
  case guardFalse => exact exec_goes_on_of_check hi (checkBefore_guard_false hm hp hg)
  case format => exact exec_traps_of_check hi (checkBefore_format_invalid hm hp hg hk)
  case source => exact exec_traps_of_check hi (checkBefore_source_pending hm hp hg hv hs)
  case dest => exact exec_traps_of_check hi (checkBefore_dest_pending hm hp hg hv hs hd)

/-- Settles O3: the guard by the two values of GI; the checks in order, each by what `checkBefore` answers where the earlier
steps do not apply and by what the gate of every instruction makes of that answer. -/
theorem checksBeforeEffect : Obligations.ChecksBeforeEffect :=
  ⟨guardReadsPredicate, checksBeforeEffectInOrder⟩

end Sys2Proof.Machine
end

section
/-! From the checks to the effect: an instruction that nothing stands in the way of leads to what its own effect gives. -/

namespace Sys2Proof.Machine

open Sys2Proof

theorem State.Runs.ready {s : State} {i : Instr} {r : Row} {f : Flds} (h : s.Runs i) (hi : i.info = some (r, f)) :
    s.Ready r f := by
  rw [State.Runs, hi] at h
  exact h

/-- An instruction that passes its checks leads to what its own effect gives. -/
theorem exec_meets {s : State} {i : Instr} {r : Row} {f : Flds} {e : State → State} {P : State → Prop}
    (hi : i.info = some (r, f)) (hx : exec i s = .next (gated r f s e)) (h : s.Runs i) (he : P (e s)) :
    ∃ t, exec i s = .next t ∧ P t :=
  ⟨e s, by rw [hx, gated_ready (h.ready hi)], he⟩

/-- An instruction whose own effect is to write one 64-bit value completes. -/
theorem exec_puts {s : State} {i : Instr} {r : Row} {f : Flds} {e : State → State} {d : Reg} {x : Word}
    (hi : i.info = some (r, f)) (hx : exec i s = .next (gated r f s e)) (he : e s = s.putWord d x) (h : s.Runs i) :
    ∃ t, exec i s = .next t ∧ Effect s t [(d, x.setWidth 512)] 0 (nextPc s.t.pc) :=
  exec_meets hi hx h (he ▸ s.putWord_effect d x)

end Sys2Proof.Machine
end

section
/-! The memory system does not touch the task in focus: one law per operation, each from the laws of those it calls, up to the
fetch of a line and the check of a target, which leave the task at its instruction. -/

namespace Sys2Proof.Machine

open Sys2Proof

/-- What a state read out of a pair keeps of the state before. -/
theorem t_of_pair_eq {α : Type} {s s' : State} {p : α × State} {a : α} (h : p = (a, s')) (hp : p.2.t = s.t) : s'.t = s.t := by
  rw [← hp, h]

variable (s : State)

/-! ### Homes and caches -/

@[simp] theorem State.chanPut_t (pa : Nat) (x : Line) : (s.chanPut pa x).t = s.t := rfl

@[simp] theorem State.chanWrite_t (pa : Nat) (x : Line) (mask : ByteMask) : (s.chanWrite pa x mask).t = s.t := by
  unfold State.chanWrite
  split <;> simp

@[simp] theorem State.markWritten_t (pa : Nat) : (s.markWritten pa).t = s.t := by
  unfold State.markWritten
  dsimp only
  split <;> simp

@[simp] theorem State.pickVictim_t (ls : List Nat) : (s.pickVictim ls).2.t = s.t := rfl

@[simp] theorem State.evictHome_t (line : Nat) : (s.evictHome line).t = s.t := by
  unfold State.evictHome
  split <;> simp

@[simp] theorem State.roomHome_t (pa : Nat) : (s.roomHome pa).t = s.t := by
  unfold State.roomHome
  dsimp only
  split
  · rfl
  · split
    · rfl
    · split
      next heq => exact t_of_pair_eq heq (s.pickVictim_t _)
      next heq => rw [State.evictHome_t, t_of_pair_eq heq (s.pickVictim_t _)]

@[simp] theorem State.homeRead_t (pa : Nat) : (s.homeRead pa).2.t = s.t := by
  unfold State.homeRead
  split <;> simp

@[simp] theorem State.homeWrite_t (pa : Nat) (x : Line) (mask : ByteMask) : (s.homeWrite pa x mask).t = s.t := by
  unfold State.homeWrite
  split <;> simp

@[simp] theorem State.rdcWriteThrough_t (die line : Nat) : (s.rdcWriteThrough die line).t = s.t := by
  unfold State.rdcWriteThrough
  split
  · rfl
  · split <;> simp

@[simp] theorem State.rdcDrop_t (die line : Nat) : (s.rdcDrop die line).t = s.t := by
  unfold State.rdcDrop
  dsimp only
  split <;> simp

@[simp] theorem State.roomRdc_t (die pa : Nat) : (s.roomRdc die pa).t = s.t := by
  unfold State.roomRdc
  dsimp only
  split
  · rfl
  · split
    · rfl
    · split
      next heq => exact t_of_pair_eq heq (s.pickVictim_t _)
      next heq => rw [State.rdcDrop_t, t_of_pair_eq heq (s.pickVictim_t _)]

@[simp] theorem State.rdcRead_t (die pa : Nat) : (s.rdcRead die pa).2.t = s.t := by
  unfold State.rdcRead
  dsimp only
  split
  · split <;> simp
  · split <;> simp

@[simp] theorem State.dieRead_t (die pa : Nat) : (s.dieRead die pa).2.t = s.t := by
  unfold State.dieRead
  split <;> simp

@[simp] theorem State.l1Drop_t (core line : Nat) : (s.l1Drop core line).t = s.t := by
  unfold State.l1Drop
  split <;> simp

/-! ### Page states -/

theorem State.foldl_t {α : Type} (f : State → α → State) (hf : ∀ s a, (f s a).t = s.t) (xs : List α) :
    (xs.foldl f s).t = s.t := by
  induction xs generalizing s with
  | nil => rfl
  | cons x xs ih => rw [List.foldl_cons, ih, hf]

@[simp] theorem State.setPage_t (page : Nat) (p : PageState) : (s.setPage page p).t = s.t := rfl

@[simp] theorem State.rdcDropPage_t (page die : Nat) : (s.rdcDropPage page die).t = s.t :=
  State.foldl_t s _ (fun s l => s.rdcDrop_t die l) _

@[simp] theorem State.recall_t (page : Nat) (die : Option Nat) : (s.recall page die).t = s.t := by
  unfold State.recall
  split
  next n _ =>
    rw [State.setPage_t, State.foldl_t _ _ (fun s l => s.l1Drop_t n l), State.foldl_t _ _ (fun s d => s.rdcDropPage_t page d)]
  next => rfl

@[simp] theorem State.classify_t (core : Option Nat) (pa : Nat) : (s.classify core pa).t = s.t := by
  unfold State.classify
  split
  · split <;> simp
  · split <;> simp
  · rfl

/-! ### Requesters outside the cores, and translation (spec/21_launch_storage.md R333 to R336) -/

@[simp] theorem State.outerRead_t (pa : Nat) : (s.outerRead pa).2.t = s.t := by simp [State.outerRead]

@[simp] theorem State.outerWrite_t (pa : Nat) (x : Line) (mask : ByteMask) : (s.outerWrite pa x mask).t = s.t := by
  simp [State.outerWrite]

@[simp] theorem State.outerPut_t (pa : Nat) (bs : List Byte) : (s.outerPut pa bs).t = s.t := by
  induction bs generalizing s pa with
  | nil => rfl
  | cons b bs ih => rw [State.outerPut, ih, State.outerWrite_t]

@[simp] theorem State.homeWord_t (pa : Nat) : (s.homeWord pa).2.t = s.t := s.outerRead_t pa

@[simp] theorem State.putWordAt_t (pa : Nat) (x : Word) : (s.putWordAt pa x).t = s.t := s.outerWrite_t ..

@[simp] theorem State.hop_t (part va level table : Nat) : (s.hop part va level table).2.t = s.t := by
  unfold State.hop
  dsimp only
  split
  · rfl
  · split
    · rfl
    · split
      · simp
      · split <;> simp

@[simp] theorem State.walk_t (part va level table : Nat) : (s.walk part va level table).2.t = s.t := by
  induction level generalizing s table with
  | zero =>
    unfold State.walk
    split
    next heq => exact t_of_pair_eq heq (s.hop_t ..)
    next heq => exact t_of_pair_eq heq (s.hop_t ..)
  | succ level ih =>
    unfold State.walk
    split
    next heq => rw [ih, t_of_pair_eq heq (s.hop_t ..)]
    next heq => exact t_of_pair_eq heq (s.hop_t ..)

@[simp] theorem State.touchLeaf_t (write : Bool) (l : Leaf) : (s.touchLeaf write l).2.t = s.t := by
  unfold State.touchLeaf
  generalize (l.pte ||| 0x40 ||| if write then 0x80 else 0) = p
  dsimp only
  split <;> simp

@[simp] theorem State.translateAt_t (root part : Nat) (a : Ask) (va : Word) : (s.translateAt root part a va).2.2.t = s.t := by
  unfold State.translateAt
  dsimp only
  split
  · simp
  · simp
  · split <;> simp

@[simp] theorem State.tlbKeep_t (core root : Nat) (va : Word) (l : Leaf) : (s.tlbKeep core root va l).t = s.t := rfl

@[simp] theorem State.translate_t (core root : Nat) (a : Ask) (va : Word) : (s.translate core root a va).2.t = s.t := by
  have hw := s.translateAt_t root (s.corePart core) a va
  unfold State.translate
  dsimp only
  split
  · split
    next heq => rw [State.tlbKeep_t]; exact t_of_pair_eq (congrArg Prod.snd heq) hw
    next heq => exact t_of_pair_eq (congrArg Prod.snd heq) hw
  · split
    · split
      · split
        next heq => rw [State.tlbKeep_t]; exact t_of_pair_eq (congrArg Prod.snd heq) hw
        next heq => exact t_of_pair_eq (congrArg Prod.snd heq) hw
      · rfl
    · rfl

/-! ### Reports (spec/13_traps.md R237) -/

@[simp] theorem State.msi_t (hart : BitVec 32) (iid : BitVec 11) : (s.msi hart iid).t = s.t := by
  unfold State.msi
  split <;> rfl

@[simp] theorem State.rasWrite_t (r : RasRec) : (s.rasWrite r).t = s.t := by
  unfold State.rasWrite
  dsimp only
  split <;> split <;> simp

@[simp] theorem State.ras_t (kind cause sev unit addr : Nat) (task : Word) : (s.ras kind cause sev unit addr task).t = s.t := by
  unfold State.ras
  dsimp only
  split
  · simp
  · split <;> simp

/-! ### The fetch (spec/03_encoding.md R52) -/

@[simp] theorem State.freeBytes_t (n : Nat) : (s.freeBytes n).2.t = s.t := rfl

@[simp] theorem State.roomIc_t (core : Nat) : (s.roomIc core).t = s.t := by
  unfold State.roomIc
  dsimp only
  split
  · rfl
  · split
    · rfl
    · split
      next heq => exact t_of_pair_eq heq (s.pickVictim_t _)
      next heq => rw [State.onMem_t, t_of_pair_eq heq (s.pickVictim_t _)]

@[simp] theorem State.icFill_t (core pa : Nat) (again nc : Bool) : (s.icFill core pa again nc).2.t = s.t := by
  unfold State.icFill
  dsimp only
  split <;> split <;> simp

@[simp] theorem State.fetchError_t (core pa : Nat) : (s.fetchError core pa).t = s.t := s.ras_t ..

theorem State.fetchLine_pc (core root : Nat) (sys : Bool) (pc : Word) : (s.fetchLine core root sys pc).2.t.pc = s.t.pc := by
  unfold State.fetchLine
  dsimp only
  split
  · rfl
  · rfl
  · rw [← s.translate_t core root { kind := .fetch, sys := sys, io := false, writes := false } (lineOf pc)]
    generalize s.translate core root _ (lineOf pc) = x
    obtain ⟨x, u⟩ := x
    cases x with
    | fault c => rfl
    | storage a p => rfl
    | wait => rfl
    | ok pa pte =>
      dsimp only
      split
      · generalize (if pte.pbmt = 1 then none else u.mem.ic.find? (icKey core (lineAt pa))) = held
        split
        · rfl
        · split
          · rfl
          · split
            · simp
            · cases held with
              | none =>
                dsimp only
                split
                · simp
                · split <;> simp
              | some l =>
                dsimp only
                split
                · rfl
                · split <;> simp
      · rfl
      · split <;> simp

theorem State.checkTarget_pc (core root : Nat) (sys : Bool) (target : Word) :
    (s.checkTarget core root sys target).2.t.pc = s.t.pc := by
  have hf := s.fetchLine_pc core root sys target
  unfold State.checkTarget
  split
  · rfl
  · rw [← hf]
    split
    next heq => rw [heq]
    next heq => rw [heq]
    next heq => rw [heq]
    next heq => rw [heq]

/-- The check of a transfer leaves the task at its instruction. -/
theorem State.myTarget_pc (target : Word) : (s.myTarget target).2.t.pc = s.t.pc := by
  unfold State.myTarget
  split
  · rfl
  · exact s.checkTarget_pc ..

end Sys2Proof.Machine
end

section
/-! Transfers of control (spec/03_encoding.md R54, R55, R62, R79, spec/05_scalar.md R102, R104, R105). -/

namespace Sys2Proof.Machine

open Sys2Proof

/-! ### Execution in sequence (spec/03_encoding.md R54) -/

theorem nextPc_of_slot_lt {pc : Word} (h : pc.toNat % 64 < 4) : nextPc pc = pc + 1 :=
  if_neg (by omega)

theorem nextPc_of_slot_four {pc : Word} (h : pc.toNat % 64 = 4) : nextPc pc = pc + 60 := by
  refine (if_pos (by omega)).trans (BitVec.eq_of_toNat_eq ?_)
  have h1 : pc.toNat / 64 * 64 + 64 = pc.toNat + 60 := by omega
  rw [h1, BitVec.toNat_ofNat, BitVec.toNat_add]
  rfl

theorem nopFallsThrough : Claim.NopFallsThrough :=
  ⟨fun s _ h => exec_meets rfl rfl h s.advance_effect,
    fun _ _ hk h4 => nextPc_of_slot_lt (hk ▸ h4), fun _ => nextPc_of_slot_four⟩

/-! ### The check of a target (spec/03_encoding.md R55) -/

theorem pcShape_iff (pc : Word) : pcShape pc = true ↔ pc.toNat / 8 % 8 = 0 ∧ pc.toNat % 8 < 5 := by
  simp [pcShape]

/-- The TGT bits stand in bits 31:27 of a line. -/
theorem lineTgt_eq_getLsbD (l : Line) {k : Nat} (h : k < 5) : lineTgt l k = l.getLsbD (27 + k) := by
  rw [lineTgt, ← Nat.testBit_eq_decide_div_mod_eq, lineWord, Nat.testBit_mod_two_pow, decide_eq_true (by omega : 27 + k < 32),
    Bool.true_and, BitVec.testBit_toNat]

theorem State.checkTarget_of_not_pcShape {s : State} {core root : Nat} {sys : Bool} {target : Word}
    (h : ¬ pcShape target = true) : s.checkTarget core root sys target = (.bad, s) := by
  simp [State.checkTarget, h]

theorem State.checkTarget_of_line {s f : State} {core root : Nat} {sys : Bool} {target : Word} {l : Line}
    (h : pcShape target = true) (hl : s.fetchLine core root sys target = (.line l, f)) :
    s.checkTarget core root sys target = (if lineTgt l (target.toNat % 8) then .ok else .bad, f) := by
  simp [State.checkTarget, h, hl]

theorem targetsAreChecked : Claim.TargetsAreChecked := by
  intro s f core root sys target l
  refine ⟨fun h => State.checkTarget_of_not_pcShape ?shape, fun h3 h5 hl => ?line⟩
  case shape => rw [pcShape_iff]; omega
  case line => rw [State.checkTarget_of_line ((pcShape_iff target).2 ⟨h3, h5⟩) hl, lineTgt_eq_getLsbD l h5]

/-! ### Relative targets (spec/03_encoding.md R62) -/

/-- The line that a relative target names: the offset counts lines from the instruction's own. -/
theorem line_offset_eq_ofInt (n : Nat) (off : BitVec 29) :
    BitVec.ofNat 64 (n * 64) + (off.signExtend 64 <<< 6) = BitVec.ofInt 64 ((n + off.toInt) * 64) := by
  have hn : BitVec.ofNat 64 (n * 64) = BitVec.ofInt 64 (n * 64) := (BitVec.ofInt_natCast 64 (n * 64)).symm
  have ho : off.signExtend 64 <<< 6 = BitVec.ofInt 64 (off.toInt * 64) := by
    rw [BitVec.shiftLeft_eq_mul_twoPow, BitVec.signExtend, BitVec.ofInt_mul]
    rfl
  rw [hn, ho, add_mul, BitVec.ofInt_add]

/-- The slot goes into the bits that are zero in the address of a line. -/
theorem line_or_slot (n : Int) (slot : BitVec 3) :
    (BitVec.ofInt 64 (n * 64) ||| slot.setWidth 64) =
      BitVec.ofNat 64 (n * 64 % (2 ^ 64 : Nat) + slot.toNat).toNat := by
  have hs := slot.isLt
  have hl : (BitVec.ofInt 64 (n * 64)).toNat = 2 ^ 6 * (n % 2 ^ 58).toNat := by
    rw [BitVec.toNat_ofInt]
    omega
  refine BitVec.eq_of_toNat_eq ?_
  rw [BitVec.toNat_or, hl, BitVec.toNat_setWidth_of_le (by omega), ← Nat.two_pow_add_eq_or_of_lt (by omega),
    BitVec.toNat_ofNat]
  omega

theorem State.relTarget_eq (s : State) (o : OpB) :
    s.relTarget o =
      (BitVec.ofNat 64 (s.t.pc.toNat / 64 * 64) + (o.off.signExtend 64 <<< 6) ||| o.slot.setWidth 64) := by
  rw [line_offset_eq_ofInt, line_or_slot, State.relTarget]

/-! ### Transfers -/

section
variable {s f : State} {target va : Word} {c : Nat}

theorem State.toTarget_ok (k : State → State) (h : s.myTarget target = (.ok, f)) : s.toTarget target k = k f := by
  rw [State.toTarget, h]

theorem State.toTarget_bad (k : State → State) (h : s.myTarget target = (.bad, f)) :
    s.toTarget target k = f.trapVa 0x03 target := by
  rw [State.toTarget, h]

theorem State.toTarget_fault (k : State → State) (h : s.myTarget target = (.fault c va, f)) :
    s.toTarget target k = f.trapVa c va := by
  rw [State.toTarget, h]

theorem State.trapVa_traps (s : State) (c : Nat) (va : Word) : Traps s (s.trapVa c va) c s.t.pc { g4 := va } :=
  State.trapAt_traps ..

/-- A target that fails the check traps, whatever was to follow. -/
theorem State.toTarget_bad_traps (k : State → State) (h : s.myTarget target = (.bad, f)) :
    Traps f (s.toTarget target k) 0x03 f.t.pc { g4 := target } := by
  rw [State.toTarget_bad k h]
  exact f.trapVa_traps ..

theorem State.toTarget_fault_traps (k : State → State) (h : s.myTarget target = (.fault c va, f)) :
    Traps f (s.toTarget target k) c f.t.pc { g4 := va } := by
  rw [State.toTarget_fault k h]
  exact f.trapVa_traps ..

theorem State.transfer_effect (h : s.myTarget target = (.ok, f)) : Effect f (s.transfer target) [] 0 target := by
  rw [State.transfer, State.toTarget_ok _ h]
  exact f.jump_effect target

end

/-- An instruction whose own effect is a transfer goes where its checked target says. -/
theorem exec_transfers {s : State} {i : Instr} {r : Row} {f : Flds} {e : State → State} {target : Word}
    (hi : i.info = some (r, f)) (hx : exec i s = .next (gated r f s e)) (he : e s = s.transfer target) (h : s.Runs i) :
    (∀ f, s.myTarget target = (.ok, f) → ∃ t, exec i s = .next t ∧ Effect f t [] 0 target) ∧
    (∀ f, s.myTarget target = (.bad, f) → ∃ t, exec i s = .next t ∧ Traps f t 0x03 f.t.pc { g4 := target }) ∧
    (∀ f c va, s.myTarget target = (.fault c va, f) → ∃ t, exec i s = .next t ∧ Traps f t c f.t.pc { g4 := va }) := by
  refine ⟨fun f hf => ?ok, fun f hf => ?bad, fun f c va hf => ?fault⟩
  case ok => exact exec_meets hi hx h (he ▸ State.transfer_effect hf)
  case bad => exact exec_meets hi hx h (he ▸ State.toTarget_bad_traps _ hf)
  case fault => exact exec_meets hi hx h (he ▸ State.toTarget_fault_traps _ hf)

theorem branchesTransferAfterCheck : Claim.BranchesTransferAfterCheck := by
  rintro s i o target (⟨rfl | rfl, rfl⟩ | ⟨rfl, rfl⟩) h
  case inl.inl => rw [← State.relTarget_eq]; exact exec_transfers rfl rfl rfl h
  case inl.inr => rw [← State.relTarget_eq]; exact exec_transfers rfl rfl rfl h
  case inr => exact exec_transfers rfl rfl rfl h

/-! ### The counted loop (spec/05_scalar.md R105) -/

theorem State.writeW_jump_effect (s : State) (d : Reg) (x pc : Word) :
    Effect s ((s.writeW d x).jump pc) [(d, x.setWidth 512)] 0 pc := by
  refine Effect.of_eq (by simp) ?_
  rw [State.writeW, State.write_eq]
  simp [State.jump, Regs.writeAll]

/-- What `loop` does once its checks are passed. -/
def State.countDown (s : State) (o : OpB) : State :=
  if s.readW o.sa = 0 then s.advance
  else if s.readW o.sa = 1 then s.putWord o.sa 0
  else s.toTarget (s.relTarget o) fun f => (f.writeW o.sa (s.readW o.sa - 1)).jump (f.relTarget o)

theorem exec_loop (s : State) (o : OpB) :
    exec (.loop o) s = .next (gated Rows.loop (.b o) s fun s => s.countDown o) := rfl

section
variable {s f : State} {o : OpB}

theorem State.countDown_zero (h : s.readW o.sa = 0) : s.countDown o = s.advance := if_pos h

theorem State.countDown_one_effect (h : s.readW o.sa = 1) : Effect s (s.countDown o) [(o.sa, 0)] 0 (nextPc s.t.pc) := by
  have hc : s.countDown o = s.putWord o.sa 0 := by simp [State.countDown, h]
  have hz : (0 : Word).setWidth 512 = 0 := BitVec.setWidth_zero 512 64
  rw [hc, ← hz]
  exact s.putWord_effect o.sa 0

theorem State.countDown_more (h0 : s.readW o.sa ≠ 0) (h1 : s.readW o.sa ≠ 1) :
    s.countDown o =
      s.toTarget (s.relTarget o) fun f => (f.writeW o.sa (s.readW o.sa - 1)).jump (f.relTarget o) := by
  rw [State.countDown, if_neg h0, if_neg h1]

/-- The relative target is counted from the instruction, where the check of a target leaves the task. -/
theorem State.relTarget_of_myTarget {target : Word} {x : Target} (h : s.myTarget target = (x, f)) :
    f.relTarget o = s.relTarget o := by
  have hpc : f.t.pc = s.t.pc := by
    have := s.myTarget_pc target
    rwa [h] at this
  rw [State.relTarget, State.relTarget, hpc]

theorem State.countDown_effect (h0 : s.readW o.sa ≠ 0) (h1 : s.readW o.sa ≠ 1)
    (h : s.myTarget (s.relTarget o) = (.ok, f)) :
    Effect f (s.countDown o) [(o.sa, (s.readW o.sa - 1).setWidth 512)] 0 (s.relTarget o) := by
  rw [State.countDown_more h0 h1, State.toTarget_ok _ h, State.relTarget_of_myTarget h]
  exact f.writeW_jump_effect ..

end

theorem loopCountsDown : Claim.LoopCountsDown := by
  intro s o h
  refine ⟨fun hx => ?zero, fun hx => ?one, fun h0 h1 => ⟨fun f hf => ?passes, fun f hf => ?fails⟩⟩
  case zero => exact exec_meets rfl (exec_loop s o) h (State.countDown_zero hx ▸ s.advance_effect)
  case one => exact exec_meets rfl (exec_loop s o) h (State.countDown_one_effect hx)
  case passes => exact exec_meets rfl (exec_loop s o) h (State.countDown_effect h0 h1 hf)
  case fails =>
    exact exec_meets rfl (exec_loop s o) h (State.countDown_more h0 h1 ▸ State.toTarget_bad_traps _ hf)

/-- Settles O15: `nop` by what follows a slot; the check of a target by its two tests; the branches through one lemma on every
instruction whose effect is a transfer; `loop` by the value of its register, the check leaving the task where it is. -/
theorem transfersOfControl : Obligations.TransfersOfControl :=
  ⟨nopFallsThrough, targetsAreChecked, branchesTransferAfterCheck, loopCountsDown⟩

end Sys2Proof.Machine
end

section
/-! Integer instructions that are not arithmetic: logic, shifts and rotations (spec/05_scalar.md R93), bit effects (R94), moves and
selection (R95), `lea` (R96). -/

namespace Sys2Proof.Machine

open Sys2Proof

/-! ### Operands and results within w bits -/

theorem Ty.width_le (t : Ty) : t.width ≤ 64 := by cases t <;> simp [Ty.width]

theorem Ty.extend_eq_widen (t : Ty) (x : Nat) : t.extend x = Claim.widen t (BitVec.ofNat t.width x) := rfl

theorem Claim.valueA_toNat (s : State) (o : OpA) :
    (Claim.valueA s o).toNat = (s.readW o.a.reg).toNat % 2 ^ (OpA.type o).width := BitVec.toNat_setWidth ..

theorem Claim.valueB_toNat (s : State) (o : OpA) :
    (Claim.valueB s o).toNat = s.bitsB (OpA.type o) o % 2 ^ (OpA.type o).width := by
  unfold Claim.valueB State.bitsB
  split
  · exact BitVec.toNat_ofNat ..
  · exact BitVec.toNat_setWidth ..

/-- An instruction on the w-bit values of two sources writes what its function makes of them, extended by the type. -/
theorem logic_effect {s : State} {r : Row} {o : OpA} {f : Nat → Nat → Nat → Nat} {x : BitVec (OpA.type o).width}
    (h : s.Ready r (.a o))
    (hx : BitVec.ofNat _ (f (OpA.type o).width (Claim.valueA s o).toNat (Claim.valueB s o).toNat) = x) :
    ∃ t, logic r o f s = .next t ∧ Effect s t [(o.dst, (Claim.widen (OpA.type o) x).setWidth 512)] 0 (nextPc s.t.pc) := by
  rw [logic, gated_ready h]
  refine ⟨_, rfl, ?_⟩
  dsimp only
  rw [Ty.extend_eq_widen, ← Claim.valueA_toNat, ← Claim.valueB_toNat, hx]
  exact s.putWord_effect ..

theorem ofNat_complement {w : Nat} (x : BitVec w) : BitVec.ofNat w (2 ^ w - 1 - x.toNat) = ~~~x := by
  rw [← BitVec.toNat_not, BitVec.ofNat_toNat, BitVec.setWidth_eq]

/-! ### Shifts and rotations (R93) -/

section
variable {w : Nat} (x : BitVec w) (b : Nat)

theorem ofNat_shiftLeft : BitVec.ofNat w (shiftLeft w x.toNat b) = x <<< shiftCount w b := by
  refine BitVec.eq_of_toNat_eq ?_
  simp [shiftLeft, Nat.shiftLeft_eq]

theorem ofNat_shiftRight : BitVec.ofNat w (shiftRight w x.toNat b) = x >>> shiftCount w b := by
  refine BitVec.eq_of_toNat_eq ?_
  rw [shiftRight, ← Nat.shiftRight_eq_div_pow, ← BitVec.toNat_ushiftRight, BitVec.ofNat_toNat, BitVec.setWidth_eq]

theorem ofNat_shiftArith : BitVec.ofNat w (shiftArith w x.toNat b) = x.sshiftRight (shiftCount w b) := by
  rw [shiftArith, BitVec.ofNat_toNat, BitVec.setWidth_eq, BitVec.ofNat_toNat, BitVec.setWidth_eq]

theorem ofNat_rotLeft :
    BitVec.ofNat w (rotLeft w x.toNat b) = (x <<< shiftCount w b) ||| (x >>> (w - shiftCount w b)) := by
  rw [rotLeft, BitVec.ofNat_toNat, BitVec.setWidth_eq, BitVec.ofNat_toNat, BitVec.setWidth_eq, BitVec.rotateLeft_def,
    shiftCount, Nat.mod_mod]

theorem ofNat_rotRight :
    BitVec.ofNat w (rotRight w x.toNat b) = (x >>> shiftCount w b) ||| (x <<< (w - shiftCount w b)) := by
  rw [rotRight, BitVec.ofNat_toNat, BitVec.setWidth_eq, BitVec.ofNat_toNat, BitVec.setWidth_eq, BitVec.rotateRight_def,
    shiftCount, Nat.mod_mod]

end

/-- A shift writes what its function makes of the w-bit source and a count of the same low six bits, extended by the type. -/
theorem shift_effect {s : State} {r : Row} {o : OpA} {f : Nat → Nat → Nat → Nat} {x : BitVec (OpA.type o).width}
    (h : s.Ready r (.a o))
    (hx : ∀ b, shiftCount (OpA.type o).width b = Claim.count s o →
      BitVec.ofNat _ (f (OpA.type o).width (Claim.valueA s o).toNat b) = x) :
    ∃ t, shift r o f s = .next t ∧ Effect s t [(o.dst, (Claim.widen (OpA.type o) x).setWidth 512)] 0 (nextPc s.t.pc) := by
  rw [shift, gated_ready h]
  refine ⟨_, rfl, ?_⟩
  dsimp only
  rw [Ty.extend_eq_widen, ← Claim.valueA_toNat, hx]
  · exact s.putWord_effect ..
  · unfold shiftCount Claim.count
    split <;> simp

theorem bitwiseAndShiftsComplete : Claim.BitwiseAndShiftsComplete := by
  intro s i o x hi h
  unfold Claim.bitwise at hi
  dsimp only at hi
  split at hi <;> cases hi
  · exact logic_effect (f := fun _ a b => a &&& b) h (by simp)
  · exact logic_effect (f := fun _ a b => a ||| b) h (by simp)
  · exact logic_effect (f := fun _ a b => a ^^^ b) h (by simp)
  · exact logic_effect (f := fun w a b => a &&& (2 ^ w - 1 - b)) h (by simp [ofNat_complement])
  · exact shift_effect (f := shiftLeft) h fun b hb => hb ▸ ofNat_shiftLeft _ b
  · exact shift_effect (f := shiftRight) h fun b hb => hb ▸ ofNat_shiftRight _ b
  · exact shift_effect (f := shiftArith) h fun b hb => hb ▸ ofNat_shiftArith _ b
  · exact shift_effect (f := rotLeft) h fun b hb => hb ▸ ofNat_rotLeft _ b
  · exact shift_effect (f := rotRight) h fun b hb => hb ▸ ofNat_rotRight _ b

/-! ### Bit counts (R94) -/

/-- The positions below n where a number has ones, from bit 0 up. -/
def onesBelow (x n : Nat) : List Nat := (List.range n).filter x.testBit

theorem Claim.ones_eq_onesBelow {w : Nat} (x : BitVec w) : Claim.ones x = onesBelow x.toNat w := rfl

theorem onesBelow_succ_of_odd {x : Nat} (n : Nat) (h : x % 2 = 1) :
    onesBelow x (n + 1) = 0 :: (onesBelow (x / 2) n).map (· + 1) := by
  simp [onesBelow, List.range_succ_eq_map, List.filter_map, Function.comp_def, Nat.testBit_add_one, h]

theorem onesBelow_succ_of_even {x : Nat} (n : Nat) (h : ¬ x % 2 = 1) :
    onesBelow x (n + 1) = (onesBelow (x / 2) n).map (· + 1) := by
  simp [onesBelow, List.range_succ_eq_map, List.filter_map, Function.comp_def, Nat.testBit_add_one, h]

theorem popBits_eq_length (x n : Nat) : popBits x n = (onesBelow x n).length := by
  induction n generalizing x with
  | zero => rfl
  | succ n ih =>
    by_cases h : x % 2 = 1
    · rw [popBits, ih, onesBelow_succ_of_odd n h, List.length_cons, List.length_map, h, Nat.add_comm]
    · rw [popBits, ih, onesBelow_succ_of_even n h, List.length_map]
      omega

theorem popBits_le (x n : Nat) : popBits x n ≤ n := by
  rw [popBits_eq_length]
  exact (List.length_filter_le ..).trans (List.length_range ..).le

theorem ctzBits_le (x n : Nat) : ctzBits x n ≤ n := by
  induction n generalizing x with
  | zero => exact Nat.le_refl 0
  | succ n ih =>
    have := ih (x / 2)
    rw [ctzBits]
    split <;> omega

/-- Below the count there are zeros. -/
theorem testBit_of_lt_ctzBits {x n j : Nat} (h : j < ctzBits x n) : x.testBit j = false := by
  induction n generalizing x j with
  | zero => exact absurd h (Nat.not_lt_zero j)
  | succ n ih =>
    rw [ctzBits] at h
    split at h
    · exact absurd h (Nat.not_lt_zero j)
    next hx =>
      cases j with
      | zero => simp [hx]
      | succ j => rw [Nat.testBit_add_one]; exact ih (by omega)

/-- At the count there is a one, unless all were zeros. -/
theorem testBit_ctzBits {x n : Nat} (h : ctzBits x n < n) : x.testBit (ctzBits x n) = true := by
  induction n generalizing x with
  | zero => exact absurd h (Nat.not_lt_zero _)
  | succ n ih =>
    rw [ctzBits] at h ⊢
    split at h
    next hx => simp [hx]
    next hx => rw [if_neg hx, Nat.testBit_add_one]; exact ih (by omega)

theorem clzBits_le (x w : Nat) : clzBits x w ≤ w := by
  unfold clzBits
  split <;> omega

theorem clzBits_of_ne_zero {x w : Nat} (hx : x ≠ 0) (hw : x < 2 ^ w) : w - clzBits x w = x.log2 + 1 := by
  have hl := (Nat.log2_lt hx).2 hw
  rw [clzBits, if_neg hx]
  omega

theorem testBit_of_clzBits_le {x w j : Nat} (hw : x < 2 ^ w) (h : w - clzBits x w ≤ j) : x.testBit j = false := by
  by_cases hx : x = 0
  · rw [hx, Nat.zero_testBit]
  · rw [clzBits_of_ne_zero hx hw] at h
    exact Nat.testBit_lt_two_pow (Nat.lt_log2_self.trans_le (Nat.pow_le_pow_right (by omega) h))

theorem testBit_clzBits {x w : Nat} (hw : x < 2 ^ w) (h : clzBits x w < w) : x.testBit (w - 1 - clzBits x w) = true := by
  by_cases hx : x = 0
  · exact absurd h (by simp [clzBits, hx])
  · have hl := clzBits_of_ne_zero hx hw
    have he : w - 1 - clzBits x w = x.log2 := by omega
    rw [he, Nat.testBit_log2 hx]

/-- A bit count writes its number as a 64-bit value, whatever the type. -/
theorem bitCount_effect {s : State} {r : Row} {o : OpA} {f : Nat → Nat → Nat} {n : Nat} (h : s.Ready r (.a o))
    (hf : f (Claim.valueA s o).toNat (OpA.type o).width = n) (hn : n ≤ (OpA.type o).width) :
    ∃ t, bitCount r o f s = .next t ∧ Effect s t [(o.dst, BitVec.ofNat 512 n)] 0 (nextPc s.t.pc) := by
  have hv : (BitVec.ofNat 64 n).setWidth 512 = BitVec.ofNat 512 n := by
    have := Ty.width_le (OpA.type o)
    exact BitVec.setWidth_ofNat_of_le_of_lt (by omega) (by omega)
  rw [bitCount, gated_ready h]
  refine ⟨_, rfl, ?_⟩
  dsimp only
  rw [← Claim.valueA_toNat, hf, ← hv]
  exact s.putWord_effect ..

/-! ### Bit gathering (R94) -/

theorem testBit_zero_add_two_mul (a x : Nat) : (a % 2 + 2 * x).testBit 0 = a.testBit 0 := by
  simp [Nat.testBit_zero, Nat.add_mul_mod_self_left]

theorem testBit_succ_add_two_mul (a x j : Nat) : (a % 2 + 2 * x).testBit (j + 1) = x.testBit j := by
  rw [Nat.testBit_add_one]
  congr 1
  omega

theorem extractBits_lt (a b n : Nat) : extractBits a b n < 2 ^ n := by
  induction n generalizing a b with
  | zero => exact Nat.one_pos
  | succ n ih =>
    have := ih (a / 2) (b / 2)
    rw [extractBits, Nat.pow_succ]
    split <;> omega

/-- Bit j of the packed bits is the bit of a at the j-th one of b. -/
theorem testBit_extractBits (a b n j : Nat) :
    (extractBits a b n).testBit j = ((onesBelow b n)[j]?.map a.testBit).getD false := by
  induction n generalizing a b j with
  | zero => simp [extractBits, onesBelow]
  | succ n ih =>
    by_cases h : b % 2 = 1
    · rw [extractBits, if_pos h, onesBelow_succ_of_odd n h]
      cases j with
      | zero => simp
      | succ j =>
        rw [testBit_succ_add_two_mul, ih]
        simp [Function.comp_def, Nat.testBit_add_one]
    · rw [extractBits, if_neg h, onesBelow_succ_of_even n h]
      simp [ih, Function.comp_def, Nat.testBit_add_one]

/-- The j-th one of b takes bit j of a. -/
theorem testBit_depositBits {a b n j p : Nat} (h : (onesBelow b n)[j]? = some p) :
    (depositBits a b n).testBit p = a.testBit j := by
  induction n generalizing a b j p with
  | zero => simp [onesBelow] at h
  | succ n ih =>
    by_cases hb : b % 2 = 1
    · rw [onesBelow_succ_of_odd n hb] at h
      rw [depositBits, if_pos hb]
      cases j with
      | zero =>
        obtain rfl : 0 = p := by simpa using h
        exact testBit_zero_add_two_mul ..
      | succ j =>
        obtain ⟨q, hq, rfl⟩ : ∃ q, (onesBelow (b / 2) n)[j]? = some q ∧ q + 1 = p := by simpa using h
        rw [testBit_succ_add_two_mul, ih hq, Nat.testBit_add_one]
    · rw [onesBelow_succ_of_even n hb] at h
      obtain ⟨q, hq, rfl⟩ : ∃ q, (onesBelow (b / 2) n)[j]? = some q ∧ q + 1 = p := by simpa using h
      rw [depositBits, if_neg hb, Nat.testBit_add_one, Nat.mul_div_cancel_left _ Nat.two_pos, ih hq]

/-- Where b has a zero there is a zero. -/
theorem testBit_depositBits_of_zero {a b n p : Nat} (h : b.testBit p = false) : (depositBits a b n).testBit p = false := by
  induction n generalizing a b p with
  | zero => exact Nat.zero_testBit p
  | succ n ih =>
    by_cases hb : b % 2 = 1
    · rw [depositBits, if_pos hb]
      cases p with
      | zero => simp [hb] at h
      | succ p => rw [testBit_succ_add_two_mul]; exact ih (Nat.testBit_add_one b p ▸ h)
    · rw [depositBits, if_neg hb]
      cases p with
      | zero => simp
      | succ p =>
        rw [Nat.testBit_add_one, Nat.mul_div_cancel_left _ Nat.two_pos]
        exact ih (Nat.testBit_add_one b p ▸ h)

theorem lt_of_getElem?_onesBelow {x n j p : Nat} (h : (onesBelow x n)[j]? = some p) : p < n := by
  have hm : p < n ∧ x.testBit p = true := by simpa [onesBelow] using List.mem_of_getElem? h
  exact hm.1

section
variable {w : Nat} (a b : BitVec w)

theorem getLsbD_extractBits (j : Nat) :
    (BitVec.ofNat w (extractBits a.toNat b.toNat w)).getLsbD j = ((Claim.ones b)[j]?.map a.getLsbD).getD false := by
  rw [← BitVec.testBit_toNat, BitVec.toNat_ofNat, Nat.mod_eq_of_lt (extractBits_lt ..), testBit_extractBits]
  rfl

theorem getLsbD_depositBits {j p : Nat} (h : (Claim.ones b)[j]? = some p) :
    (BitVec.ofNat w (depositBits a.toNat b.toNat w)).getLsbD p = a.getLsbD j := by
  rw [BitVec.getLsbD_ofNat, testBit_depositBits h, decide_eq_true (lt_of_getElem?_onesBelow h), Bool.true_and,
    BitVec.testBit_toNat]

theorem getLsbD_depositBits_of_zero {p : Nat} (h : b.getLsbD p = false) :
    (BitVec.ofNat w (depositBits a.toNat b.toNat w)).getLsbD p = false := by
  rw [BitVec.getLsbD_ofNat, testBit_depositBits_of_zero h, Bool.and_false]

end

theorem bitEffectsComplete : Claim.BitEffectsComplete := by
  intro s o w a b
  refine ⟨fun h => ?clz, fun h => ?ctz, fun h => ?popc, fun h => ?bext, fun h => ?bdep⟩
  case clz =>
    obtain ⟨t, ht, he⟩ := bitCount_effect h rfl (clzBits_le a.toNat w)
    exact ⟨_, t, clzBits_le .., fun j => testBit_of_clzBits_le a.isLt, testBit_clzBits a.isLt, ht, he⟩
  case ctz =>
    obtain ⟨t, ht, he⟩ := bitCount_effect h rfl (ctzBits_le a.toNat w)
    exact ⟨_, t, ctzBits_le .., fun j => testBit_of_lt_ctzBits, testBit_ctzBits, ht, he⟩
  case popc =>
    exact bitCount_effect h (popBits_eq_length a.toNat w) (popBits_eq_length a.toNat w ▸ popBits_le a.toNat w)
  case bext =>
    obtain ⟨t, ht, he⟩ := logic_effect (f := fun w a b => extractBits a b w) h rfl
    exact ⟨_, t, getLsbD_extractBits a b, ht, he⟩
  case bdep =>
    obtain ⟨t, ht, he⟩ := logic_effect (f := fun w a b => depositBits a b w) h rfl
    exact ⟨_, t, fun j p => getLsbD_depositBits a b, fun p => getLsbD_depositBits_of_zero a b, ht, he⟩

/-- Settles O11: logic and shifts each by what its function is on w-bit values; the counts and the gathering by induction on the
number of bits. -/
theorem bitwiseInstructionsComplete : Obligations.BitwiseInstructionsComplete :=
  ⟨bitwiseAndShiftsComplete, bitEffectsComplete⟩

/-! ### Moves and selection (R95) -/

/-- The immediate above the low half of a word. -/
theorem append_low_half (imm : BitVec 32) (x : Word) :
    (imm ++ x.setWidth 32 : BitVec 64) = (imm.setWidth 64 <<< 32) ||| (x.setWidth 32).setWidth 64 :=
  (BitVec.setWidth_eq _).symm.trans BitVec.setWidth_append_eq_shiftLeft_setWidth_or

/-- What `mov` does once its checks are passed. -/
def State.move (s : State) (o : OpA) : State :=
  if s.fmtBusy o.dst then s.trap 0x46 else s.putWord o.dst (s.readW o.a.reg)

theorem exec_mov (s : State) (o : OpA) :
    exec (.mov o) s = .next (gated Rows.mov (.a o) s fun s => s.move o) := rfl

theorem movesComplete : Claim.MovesComplete := by
  intro s o
  refine ⟨fun n hn h => ?sel, fun h hb => ?mov, fun h hb => ?movBusy, fun h => ?movi, fun h => ?movh⟩
  case sel => exact exec_puts rfl rfl (by simp only [hn]) h
  case mov => exact exec_puts rfl (exec_mov s o) (by simp [State.move, hb]) h
  case movBusy => exact exec_meets rfl (exec_mov s o) h (by simpa [State.move, hb] using s.trap_traps 0x46)
  case movi => exact exec_puts rfl rfl rfl h
  case movh => rw [append_low_half]; exact exec_puts rfl rfl rfl h

/-! ### `lea` (R96) -/

section
variable {r : Row} {o : OpM} (h : (Flds.m o).wf r = true)
include h

theorem OpM.ty_none_of_wf (ht : r.types = []) : o.ty = none := by
  have hok : tyOk r o.ty = true := by
    simp only [Flds.wf, checkM6, Bool.and_eq_true] at h
    obtain ⟨-, ⟨⟨hty, -⟩, -⟩, -⟩ := h
    exact hty
  cases hty : o.ty with
  | none => rfl
  | some t => simp [tyOk, hty, ht] at hok

theorem OpM.scope_core_of_wf (hs : r.scope = false) : o.scope = .core := by
  simp only [Flds.wf, checkM5, hs, Bool.false_or, Bool.and_eq_true, beq_iff_eq] at h
  tauto

theorem OpM.hint_normal_of_wf (hh : r.hint = false) : o.hint = .normal := by
  simp only [Flds.wf, checkM5, hh, Bool.false_or, Bool.and_eq_true, beq_iff_eq] at h
  tauto

end

theorem leaWritesEffectiveAddress : Claim.LeaWritesEffectiveAddress := by
  intro s o h
  have hw := (h.ready rfl).wf
  exact ⟨OpM.ty_none_of_wf hw rfl, OpM.scope_core_of_wf hw rfl, OpM.hint_normal_of_wf hw rfl, exec_puts rfl rfl rfl h⟩

/-- Settles O13: each instruction writes one 64-bit value; the fields of `lea` that stand at zero are those that a well-formed
one has. -/
theorem movesAndLeaComplete : Obligations.MovesAndLeaComplete :=
  ⟨movesComplete, leaWritesEffectiveAddress⟩

end Sys2Proof.Machine
end

section
/-! Lane extraction (spec/07_arithmetic.md R135) and the mask instructions (R138). -/

namespace Sys2Proof.Machine

open Sys2Proof

/-! ### Counts over the lanes of a mask -/

theorem lanes_le (w : Nat) : lanes w ≤ 512 := Nat.div_le_self 512 w

theorem popBits_toNat_eq_countP {w : Nat} (a : BitVec w) (n : Nat) :
    popBits a.toNat n = (List.range n).countP a.getLsbD := by
  rw [popBits_eq_length, List.countP_eq_length_filter]
  rfl

/-- An instruction whose own effect is to write a count of lanes completes with that count. -/
theorem exec_puts_laneCount {s : State} {i : Instr} {r : Row} {f : Flds} {e : State → State} {d : Reg} {k w : Nat}
    (hi : i.info = some (r, f)) (hx : exec i s = .next (gated r f s e)) (he : e s = s.putWord d (BitVec.ofNat 64 k))
    (hk : k ≤ lanes w) (h : s.Runs i) :
    ∃ t, exec i s = .next t ∧ Effect s t [(d, BitVec.ofNat 512 k)] 0 (nextPc s.t.pc) := by
  have hv : (BitVec.ofNat 64 k).setWidth 512 = BitVec.ofNat 512 k :=
    BitVec.setWidth_ofNat_of_le_of_lt (by decide) (by have := lanes_le w; omega)
  exact hv ▸ exec_puts hi hx he h

/-- Settles O23: every instruction writes one 64-bit value; the two counts are those of the integer bit counts, over as many bits
as the type has lanes. -/
theorem laneExtractAndMasksComplete : Obligations.LaneExtractAndMasksComplete := by
  intro s o n a b
  refine ⟨fun h => ?vext, fun h => ?mand, fun h => ?mor, fun h => ?mnot, fun h => ?mpopc, fun h => ?mffs⟩
  case vext => exact exec_puts rfl rfl rfl h
  case mand => exact exec_puts rfl rfl rfl h
  case mor => exact exec_puts rfl rfl rfl h
  case mnot => exact exec_puts rfl rfl rfl h
  case mpopc =>
    rw [← popBits_toNat_eq_countP]
    exact exec_puts_laneCount rfl rfl rfl (popBits_le a.toNat n) h
  case mffs =>
    have hk : ctzBits a.toNat n ≤ n := ctzBits_le ..
    obtain ⟨t, ht, he⟩ := exec_puts_laneCount rfl rfl rfl hk h
    exact ⟨_, t, hk, fun j => testBit_of_lt_ctzBits, testBit_ctzBits, ht, he⟩

end Sys2Proof.Machine
end
